-- ==== Sys2Proof/Word.lean ====
section
/-! DEFINITION. The plain types of quantities: bytes, texts, slots, times, dates. No operation stands here. -/

namespace Sys2Proof

/-- One character of an office line, or one byte of the gateway link or the entrance line (Formats and Pins). -/
abbrev Byte := BitVec 8

/-- A run of characters or bytes. -/
abbrev Text := List Byte

/-- A slot of the Roster Table, 0–2047 (01_the_roll.md, Roster Table). -/
abbrev Slot := Nat

/-- School time in seconds since midnight, 0–86,399 (00_scope.md, Times). As an argument, 86,400 and above stand for a
time that does not exist. -/
abbrev SchoolTime := Nat

/-- A date as the number of days since 2000-01-01: 0 is 2000-01-01 and 36,524 is 2099-12-31 (00_scope.md, Times). As an
argument, 36,525 and above stand for a date outside the range or one that names a day that does not exist. -/
abbrev Date := Nat

/-- Running time in units of 10 ms (R27; R73 counts steps in units of 10 ms). -/
abbrev RunTime := Nat

/-- A 56-bit terminal identity; bit `i` of the vector is identity bit `i` of R99 (R208–R211: seven bytes, kind first). -/
abbrev Identity := BitVec 56

end Sys2Proof
end

