-- ==== Sys2Proof/Syntax.lean ====
section
/-! DEFINITION. The commands of the block: one constructor of `Instr` for each row of spec/opcode_table.json, with the
types of their operands. A request row (ENROL … RESTART) is the step in which the owning block takes the request with its
arguments (R192, step 3); the other rows are events of the clock, the pins, the three lines and the supply. -/

namespace Sys2Proof

/-- The eleven marks, in census-column order (R4). -/
inductive Mark where
  | unseen | present | late | lateAfterCut | expected | absentPending | absentAsked | absentUnreached
  | excused | arrivedExcused | signedOut
  deriving DecidableEq, Repr

/-- The cause of the last change of mark (R3, R4). -/
inductive MarkSource where
  | tap | office | sweep | notice | reply | away | closure
  deriving DecidableEq, Repr

/-- Excuse reasons of the day part (R3); an Away List entry has one of the first four (R22). -/
inductive ExcuseReason where
  | ill | appointment | family | authorised | closure
  deriving DecidableEq, Repr

/-- How a contact is reached (R2). -/
inductive ContactChannel where
  | text | voice
  deriving DecidableEq, Repr

/-- One entry of a contacts list (R2). -/
structure Contact where
  id : Nat
  channel : ContactChannel
  deriving DecidableEq, Repr

/-- The two audio groups (R87). -/
inductive Group where
  | a | b
  deriving DecidableEq, Repr

/-- The two quiet inputs (R89). -/
inductive QuietInput where
  | qa | qb
  deriving DecidableEq, Repr

/-- Polarity of a relay or wake output (R85). -/
inductive Polarity where
  | activeHigh | activeLow
  deriving DecidableEq, Repr

/-- Bell-button modes (R93). -/
inductive ButtonMode where
  | off | follow | single | gate | resync
  deriving DecidableEq, Repr

/-- Late-notice policy NONE, AFTER_CUT, ALL (R133). -/
inductive LatePolicy where
  | never | afterCut | always
  deriving DecidableEq, Repr

/-- Class-table select of a bank header, and the name of a class table (R50, R155). -/
inductive Select where
  | normal | alternate
  deriving DecidableEq, Repr

/-- Kinds of notice (R153). -/
inductive NoticeKind where
  | absent | late | arrived | general | closure
  deriving DecidableEq, Repr

/-- The nine store areas, in area-number order (R200). -/
inductive Area where
  | settings | limits | plans | patterns | calendar | texts | roster | away | terminals
  deriving DecidableEq, Repr

/-- The kinds of plan entry (R51). -/
inductive EntryKind where
  | chime | registration | absenceCut | noticeDeadline | noticeHold | dayClose
  deriving DecidableEq, Repr

/-- The step kinds of a pattern, fields as given (R73); `stop` is END. -/
inductive PatternStep where
  | tone (pitch length level : Nat)
  | rest (length : Nat)
  | strike (width : Nat)
  | loop (backTo count : Nat)
  | stop
  deriving DecidableEq, Repr

/-- A day type: SCHOOL with a bank, or CLOSED (R33). -/
inductive DayType where
  | school (bank : Nat)
  | closed
  deriving DecidableEq, Repr

/-- FIRST or ALL: which contacts a broadcast reaches (R170). -/
inductive Reach where
  | first | all
  deriving DecidableEq, Repr

/-- The send key of R161–R163: notice number, slot, contact position. -/
structure SendKey where
  number : Nat
  slot : Slot
  position : Nat
  deriving DecidableEq, Repr

/-- The answers a RECEIPT carries (R162). -/
inductive TakeAnswer where
  | take | busy | refuse
  deriving DecidableEq, Repr

/-- The code of a parent reply with its argument (R182). -/
inductive ReplyCode where
  | ill (days : Nat)
  | appointment (back : Option SchoolTime)
  | onWay
  | text
  deriving DecidableEq, Repr

/-- A parent REPLY record (R182). -/
structure ParentReply where
  contact : Nat
  reference : Option Nat
  code : ReplyCode
  text : Text
  deriving DecidableEq, Repr

/-- The levels of the input pins (12_formats_and_pins.md, Pins): QA, QB and the minute pulse true when high, the bell
button true when pressed (low), the INSTALL strap true when fitted (low). -/
structure Pins where
  qa : Bool
  qb : Bool
  bell : Bool
  minutePulse : Bool
  install : Bool
  deriving DecidableEq, Repr

/-! ### Arguments of requests

A number is held as given, in or out of range. For a Word argument `none` stands for a word outside the values the rule
names. An optional (Named) argument is an `Option` around that. -/

/-- Arguments of ENROL (R7, R209). -/
structure EnrolArgs where
  card : Nat
  reference : Nat
  cohort : Nat
  form : Nat
  contacts : List Contact
  permit : Option SchoolTime
  office : Option (Option Bool)
  slot : Option Slot
  deriving DecidableEq, Repr

/-- Arguments of AMEND (R8, R209); `permit := some none` is PERMIT=NONE. -/
structure AmendArgs where
  slot : Slot
  card : Option Nat
  reference : Option Nat
  cohort : Option Nat
  form : Option Nat
  permit : Option (Option SchoolTime)
  office : Option (Option Bool)
  contacts : Option (List Contact)
  deriving DecidableEq, Repr

/-- The three forms of FIND (R11). -/
inductive FindQuery where
  | card (key : Nat)
  | reference (ref : Nat)
  | contact (id : Nat) (start : Slot)
  deriving DecidableEq, Repr

/-- Arguments of MARKS (R12); `disputed := some false` is a DISPUTED word other than YES. -/
structure MarksArgs where
  cohort : Nat
  mark : Option (Option Mark)
  form : Option Nat
  disputed : Option Bool
  start : Slot
  deriving DecidableEq, Repr

/-- Arguments of MARK (R13); `target := none` is a target outside the eleven marks. -/
structure MarkArgs where
  slot : Slot
  target : Option Mark
  reason : Option (Option ExcuseReason)
  back : Option SchoolTime
  deriving DecidableEq, Repr

/-- Arguments of ENTRYPUT: the bank, time and kind, and the fields of R51 that the request gives. `amiss` says that, in a way
the other operands do not show, a required field is missing or a field is given that the kind does not hold: R52 tests it with
the values, after STORE_BUSY. -/
structure EntryPutArgs where
  bank : Nat
  time : SchoolTime
  kind : Option EntryKind
  pattern : Option Nat
  zones : Option (List Nat)
  priority : Option Nat
  cohorts : Option (List Nat)
  grace : Option Nat
  hold : Option Nat
  amiss : Bool
  deriving DecidableEq, Repr

/-- The forms of HUSH (R97). -/
inductive HushTarget where
  | channel (n : Nat)
  | all
  | other
  deriving DecidableEq, Repr

/-- The two forms of PLAY (R96). -/
inductive PlayArgs where
  | request (pattern : Nat) (zones : List Nat) (priority : Nat)
  | read (start : Nat)
  deriving DecidableEq, Repr

/-- The three forms of TEXT after its slot (R172). -/
inductive TextAction where
  | read
  | write (t : Text)
  | empty
  deriving DecidableEq, Repr

/-- Arguments of POST (R173). -/
structure PostArgs where
  slot : Slot
  cls : Nat
  textSlot : Nat
  position : Nat
  deadline : Option SchoolTime
  deriving DecidableEq, Repr

/-- Arguments of BROADCAST (R174). -/
structure BroadcastArgs where
  cohorts : List Nat
  reach : Option Reach
  cls : Nat
  textSlot : Nat
  deadline : Option SchoolTime
  deriving DecidableEq, Repr

/-- The forms of INBOX (R189). -/
inductive InboxArgs where
  | summary (start : Option Nat)
  | text (number part : Nat)
  deriving DecidableEq, Repr

/-- The forms of DISCARD (R189). -/
inductive DiscardArgs where
  | number (n : Nat)
  | read
  deriving DecidableEq, Repr

/-- The list of areas of SAVE, LOAD and DEFAULTS (R201); `none` in the list is an unknown name. -/
inductive AreasArg where
  | all
  | list (l : List (Option Area))
  deriving DecidableEq, Repr

/-- A setting of the SET table (R204), with the zone, group or input it is held for; `none` for a word that is no group
or input. -/
inductive SettingRef where
  | dayOpen | weekMap | minutePulse | catchUp | waitLimit | lead | tail
  | zoneGroup (zone : Nat) | relayPol (zone : Nat)
  | wakePol (g : Option Group) | groupVolume (g : Option Group)
  | quietMask (i : Option QuietInput) | quietLevel (i : Option QuietInput)
  | buttonMode | buttonZones | buttonPrio | buttonPattern | latePolicy
  | ceiling (g : Option Group) | override
  | unknown
  deriving DecidableEq, Repr

/-- A value of a setting as given. -/
inductive SettingValue where
  | num (n : Nat)
  | time (t : SchoolTime)
  | flag (b : Bool)
  | group (g : Group)
  | polarity (p : Polarity)
  | zones (l : List Nat)
  | mode (m : ButtonMode)
  | policy (p : LatePolicy)
  | week (l : List DayType)
  deriving DecidableEq, Repr

/-- What GET reads (R204, R205). -/
inductive GetTarget where
  | setting (r : SettingRef)
  | store
  deriving DecidableEq, Repr

/-- The commands: one constructor for each row of spec/opcode_table.json, in the table's order. -/
inductive Instr where
  /-- LINE_RECEIVED (R190): a CR arrives on the Office Port; `strap` is the level of INSTALL at that moment. -/
  | lineReceived (strap : Bool)
  /-- REPLY_SENT (R191); `strap` is the level of INSTALL at that moment. -/
  | replySent (strap : Bool)
  | enrol (a : EnrolArgs)
  | amend (a : AmendArgs)
  | withdraw (slot : Slot)
  | pupil (slot : Slot)
  | find (q : FindQuery)
  | marks (a : MarksArgs)
  | mark (a : MarkArgs)
  /-- CENSUS (R19): `none` is ALL; `start` is FROM (R192). -/
  | census (cohort : Option Nat) (start : Nat)
  | away (slot : Slot) (first last : Date) (reason : Option ExcuseReason)
  | unaway (slot : Slot) (first : Date)
  | aways (slot : Option Slot) (start : Option Date)
  | arrive (slot : Slot) (time : Option SchoolTime)
  | clock
  | setClock (time : SchoolTime) (date : Option Date)
  | datePut (date : Date) (dayType : DayType)
  | dateDrop (date : Date)
  | dates (start : Option Date)
  | openDay (bank : Option Nat)
  | closeDay
  | closure (textSlot : Nat)
  | day (start : Nat)
  | entryPut (a : EntryPutArgs)
  | entryDrop (bank position : Nat)
  | bankClear (bank : Nat)
  /-- HEADER (R54): `none` is the read form; else the name and the select (`none` for another word). -/
  | header (bank : Nat) (write : Option (Text × Option Select))
  | bank (bank start : Nat)
  | adopt (bank : Nat)
  | today (start : Nat)
  /-- PATTERNPUT (R74): `none` is the word NONE. -/
  | patternPut (pattern : Nat) (steps : Option (List PatternStep))
  | pattern (pattern : Nat)
  | volume (group : Option Group) (value : Option Nat)
  /-- MUTE (R91): `none` is the read form; else the zones and ON or OFF (`none` for another word). -/
  | mute (write : Option (List Nat × Option Bool))
  | play (a : PlayArgs)
  | hush (t : HushTarget)
  | seekAll
  | admitTerminal (identity : Identity) (entrance : Nat)
  | retire (entry : Nat)
  | terminals (start : Nat)
  | classTable (table : Option Select) (write : Option (Nat × Nat × Nat))
  /-- HOLD (R157): `none` is the read form; `some none` is a word other than ON and OFF. -/
  | hold (value : Option (Option Bool))
  | quiet (minutes : Nat)
  | cancel (number : Nat)
  | text (slot : Nat) (action : TextAction)
  | post (a : PostArgs)
  | broadcast (a : BroadcastArgs)
  | notices (kind : Option (Option NoticeKind)) (slot : Option Slot) (start : Nat)
  | inbox (a : InboxArgs)
  | discard (a : DiscardArgs)
  | status (source : Option Nat)
  | ack (source : Nat) (count : Option Nat)
  /-- LEVEL (R199): `none` is the read form; else the level and ON or OFF (`none` for another word). -/
  | level (source : Nat) (write : Option (Nat × Option Bool))
  | floor (value : Option Nat)
  | save (areas : AreasArg)
  /-- LOAD (R201); `strap` is the level of INSTALL when the request is checked (R205). -/
  | load (areas : AreasArg) (strap : Bool)
  /-- DEFAULTS (R201); `strap` as for LOAD. -/
  | defaults (areas : AreasArg) (strap : Bool)
  /-- SET (R204); `strap` as for LOAD; `none` is a missing value or one of another form. -/
  | setSetting (setting : SettingRef) (value : Option SettingValue) (strap : Bool)
  /-- GET (R204, R205); `strap` is the level of INSTALL, which GET STORE shows. -/
  | getSetting (target : GetTarget) (strap : Bool)
  | restart
  | secondAdvance
  | minutePulseEdge (level : Bool)
  | automaticOpening
  | openingSweepVisit
  | entryReached
  | wakingEnd (channel : Nat)
  | stepEnd (channel : Nat)
  | tailEnd (channel : Nat)
  | waitExpiry (place : Nat)
  | quietInputChange (input : QuietInput) (level : Bool)
  | bellButtonPress
  | bellButtonRelease
  | alertNoAnswer
  | missedAnswer
  | seekStepResult (z o : Bool)
  /-- READ_TAPS_HEADER (R107): the bytes of the header as they arrive, count and check. -/
  | readTapsHeader (bytes : Text)
  /-- TAP_BLOCK (R113): the bytes of the block as they arrive, taps and check. -/
  | tapBlock (bytes : Text)
  | blockTimeout
  /-- GIVE_VERDICTS_CONFIRM (R108): the bytes of the confirm as they arrive. -/
  | giveVerdictsConfirm (bytes : Text)
  /-- READ_STATE_REPLY (R109): the bytes of the reply as they arrive. -/
  | readStateReply (bytes : Text)
  | livenessDue
  | sweepVisit
  | frameDiscarded
  | frameGap
  | receipt (key : SendKey) (answer : TakeAnswer)
  | outcome (key : SendKey) (delivered : Bool)
  | takeTimeout (key : SendKey)
  | outcomeLimit (key : SendKey)
  | busyPauseEnd
  | nextPing
  | pong (number : Nat)
  | reply (r : ParentReply)
  | absentDeadlineExpiry (number : Nat)
  | generalDeadline (number : Nat)
  | quietWindowEnd
  /-- STORE_STEP_END (R202): `agrees` says whether a SAVE step's read-back agrees. -/
  | storeStepEnd (agrees : Bool)
  | holdBegins
  /-- COLD_START (R207): with the levels the inputs hold at that moment. -/
  | coldStart (pins : Pins)
  /-- WARM_START (R207): with the levels the inputs hold at that moment. -/
  | warmStart (pins : Pins)
  /-- OFFICE_CHARACTER_RECEIVED (R190): the character, and whether it came with a framing error. -/
  | officeCharacterReceived (c : Byte) (framingError : Bool)
  | shortReplySent
  | gatewayByteReceived (b : Byte)
  | outboundFrameSent
  | alertAnswered
  | backupDomainLost
  deriving DecidableEq, Repr

end Sys2Proof
end

