-- ==== Sys2Proof/Config.lean ====
section
/-! DEFINITION. What an implementation or its installation fixes, each point named in the assumption log: the surroundings the
model gives the part at its first start, and the bytes of the store areas, whose layout the spec does not give and which are
therefore free here: nothing says what they are. -/

namespace Sys2Proof.Config

/-- The levels the inputs hold at the start that `State.reset` stands for: every input inactive.
DESIGN CHOICE (log 7), unsafe: COLD_START and WARM_START take the levels as an operand, so every other case is reached
through them. -/
def pinsAtReset : Pins := ⟨false, false, false, false, false⟩

/-- The bytes of an area's number and length, as its fingerprint is computed over them (R200). The spec does not give their
layout: a free value (DESIGN CHOICE, log 16). -/
opaque areaHead (number length : Nat) : Text

/-- The bytes of an area's contents, as its fingerprint is computed over them (R200). The spec does not give their layout: a free
value (DESIGN CHOICE, log 16). -/
opaque areaContents {α : Type} (contents : α) : Text

end Sys2Proof.Config
end

