-- ==== Sys2Proof/Machine/State.lean ====
section
/-! DEFINITION. The state of the Kelsor 2610, block by block (00_scope.md), as plain data, and its value at reset. -/

namespace Sys2Proof.Machine

/-! ### Time Base and Day Controller -/

/-- The Time Base (R27). -/
structure TimeBase where
  school : SchoolTime
  date : Date
  valid : Bool
  minutePulseLatch : Bool
  running : RunTime
  deriving DecidableEq, Repr

/-- Day states (R35). -/
inductive DayState where
  | closed | opening | open_
  deriving DecidableEq, Repr

/-- Close causes (R35). -/
inductive CloseCause where
  | dayClose | close | dateChange
  deriving DecidableEq, Repr

/-- Cohort phases (R46). -/
inductive Phase where
  | beforeRegistration | registrationOpen | cutListed | cutDone
  deriving DecidableEq, Repr

/-- One Cohort Table entry (R46); grace in minutes. -/
structure Cohort where
  phase : Phase
  registration : Option SchoolTime
  grace : Nat
  cut : Option SchoolTime
  deriving DecidableEq, Repr

/-- The Day Controller (R33, R35, R46). -/
structure DayController where
  state : DayState
  date : Option Date
  bank : Option Nat
  openingTime : Option SchoolTime
  cursor : Nat
  closureFlag : Bool
  closureText : Option Nat
  closeCause : Option CloseCause
  calendar : List (Date × DayType)
  cohorts : List Cohort
  deriving DecidableEq, Repr

/-! ### Plan Engine -/

/-- A chime part (R51). -/
structure ChimePart where
  pattern : Nat
  zones : List Nat
  priority : Nat
  deriving DecidableEq, Repr

/-- The roll part of an entry: its kind with the fields the kind holds (R51). -/
inductive RollPart where
  | chime
  | registration (cohorts : List Nat) (grace : Nat)
  | absenceCut (cohorts : List Nat)
  | noticeDeadline
  | noticeHold (minutes : Nat)
  | dayClose
  deriving DecidableEq, Repr

/-- A bank entry (R51). -/
structure BankEntry where
  time : SchoolTime
  roll : RollPart
  chime : Option ChimePart
  deriving DecidableEq, Repr

/-- A Plan Bank (R50). -/
structure Bank where
  name : Text
  select : Select
  entries : List BankEntry
  deriving DecidableEq, Repr

/-- Firing states (R57). -/
inductive Firing where
  | ahead | done | missed | passed | cancelled
  deriving DecidableEq, Repr

/-- Outcomes of a chime request (R67, R78). -/
inductive ChimeOutcome where
  | none_ | waiting | playing | played | playedLate | silenced | preempted | cutShort | dropped
  deriving DecidableEq, Repr

/-- An entry of Today's Plan (R56); its index is its place in the list. -/
structure PlanEntry where
  entry : BankEntry
  firing : Firing
  outcome : ChimeOutcome
  taken : Option SchoolTime
  deriving DecidableEq, Repr

/-- Today's Plan (R56). -/
structure TodayPlan where
  source : Option Nat
  header : Option (Text × Select)
  copyNumber : Nat
  entries : List PlanEntry
  deriving DecidableEq, Repr

/-- The Plan Engine (R50, R56). -/
structure PlanEngine where
  banks : List Bank
  today : TodayPlan
  deriving DecidableEq, Repr

/-! ### Roll Unit -/

/-- The enrolment part of a record (R2). -/
structure Enrolment where
  card : Nat
  reference : Nat
  cohort : Nat
  form : Nat
  contacts : List Contact
  permit : Option SchoolTime
  office : Bool
  deriving DecidableEq, Repr

/-- The day part of a record (R3). -/
structure DayPart where
  mark : Mark
  source : Option MarkSource
  arrival : Option SchoolTime
  terminal : Option Nat
  reason : Option ExcuseReason
  back : Option SchoolTime
  asked : Option Nat
  heldMark : Option Mark
  disputed : Bool
  deriving DecidableEq, Repr

/-- A pupil record (R1). -/
structure Pupil where
  enrolment : Enrolment
  day : DayPart
  deriving DecidableEq, Repr

/-- Who made an Away List entry (R22). -/
inductive AwaySource where
  | office | parent
  deriving DecidableEq, Repr

/-- An Away List entry (R22). -/
structure AwayEntry where
  slot : Slot
  first : Date
  last : Date
  reason : ExcuseReason
  source : AwaySource
  deriving DecidableEq, Repr

/-- The Roll Unit: the Roster Table as (slot, record) pairs with slots strictly rising (an unlisted slot is EMPTY), the
census as eight rows of eleven counts, the Away List (R1, R18, R22). -/
structure RollUnit where
  roster : List (Slot × Pupil)
  census : List (List Nat)
  away : List AwayEntry
  deriving DecidableEq, Repr

/-! ### Cut Sweeper -/

/-- Sweep states (R140). -/
inductive SweepState where
  | idle | running | paused
  deriving DecidableEq, Repr

/-- A listed sweep with its pause record (R140). -/
structure Sweep where
  cohort : Nat
  cut : SchoolTime
  pauseRecord : Bool
  deriving DecidableEq, Repr

/-- The Cut Sweeper (R140). -/
structure CutSweeper where
  list : List Sweep
  cursor : Option Slot
  state : SweepState
  deriving DecidableEq, Repr

/-! ### Chime Unit and Zone Driver -/

/-- Two values, one for each audio group. -/
structure PerGroup (α : Type) where
  a : α
  b : α
  deriving DecidableEq, Repr

/-- Two values, one for each quiet input. -/
structure PerInput (α : Type) where
  qa : α
  qb : α
  deriving DecidableEq, Repr

/-- Channel states (R75). -/
inductive ChannelState where
  | idle | waking | playing | tailing
  deriving DecidableEq, Repr

/-- The origin of a chime request (R75, R84); BUTTON carries the number of its press (R93, log 20). -/
inductive Origin where
  | plan (copy index : Nat)
  | office
  | button (press : Nat)
  deriving DecidableEq, Repr

/-- What a request asks to play: a pattern of the table, or the held strike (R94). -/
inductive PatternRef where
  | table (number : Nat)
  | heldStrike
  deriving DecidableEq, Repr

/-- A chime request (R78); `gate` marks a GATE request (R95). -/
structure ChimeRequest where
  pattern : PatternRef
  mask : List Nat
  priority : Nat
  origin : Origin
  late : Bool
  gate : Bool
  deriving DecidableEq, Repr

/-- The end of a channel's present step (R75): the running time of a TONE, REST or STRIKE, or the release for the step of the
held strike, which has no fixed width (R94). -/
inductive StepEnd where
  | timed (t : RunTime)
  | atRelease
  deriving DecidableEq, Repr

/-- A tone channel (R75). `zoneGroups` is the zone-group setting as it stood at the start (R90); `gate`, `gateEnding` and
`passTimed` carry a GATE request (R95): that it is one, that its ending mark is set, that the pass has taken running time. -/
structure ToneChannel where
  state : ChannelState
  pattern : Option PatternRef
  steps : List PatternStep
  step : Option Nat
  stepEnd : Option StepEnd
  loopCounter : Option Nat
  priority : Option Nat
  origin : Option Origin
  late : Bool
  zones : List Nat
  groups : List Group
  zoneGroups : List Group
  tailEnd : Option RunTime
  gate : Bool
  gateEnding : Bool
  passTimed : Bool
  deriving DecidableEq, Repr

/-- A Bell Wait List entry (R82). -/
structure WaitEntry where
  request : ChimeRequest
  expiry : RunTime
  deriving DecidableEq, Repr

/-- A last-outcome record (R84). -/
structure LastOutcome where
  pattern : PatternRef
  outcome : ChimeOutcome
  deriving DecidableEq, Repr

/-- The Chime Unit (R72, R75, R82, R84). -/
structure ChimeUnit where
  patterns : List (List PatternStep)
  channels : List ToneChannel
  waits : List WaitEntry
  lastOffice : Option LastOutcome
  lastButton : Option LastOutcome
  deriving DecidableEq, Repr

/-- The Zone Driver (R87, R89, R91, R93); its outputs are functions of the state. -/
structure ZoneDriver where
  mutes : List Bool
  awake : PerGroup (Option RunTime)
  quietLatch : PerInput Bool
  buttonLatch : Bool
  press : Nat
  deriving DecidableEq, Repr

/-! ### Entrance Line Controller -/

/-- Verdicts (R131). -/
inductive Verdict where
  | onTime | lateGoToClass | lateReportOffice | alreadyIn | welcomeBack | seeOffice | unknownCard | dayClosed
  deriving DecidableEq, Repr

/-- Terminal states (R101). -/
inductive TerminalState where
  | new | active | silent | lost
  deriving DecidableEq, Repr

/-- A Verdict Hold record (R116). -/
structure HoldRecord where
  serial : Nat
  card : Nat
  verdict : Verdict
  deriving DecidableEq, Repr

/-- A Terminal Table entry with its Verdict Hold (R100, R116). -/
structure Terminal where
  identity : Identity
  entrance : Nat
  state : TerminalState
  missed : Nat
  lastHeard : RunTime
  lastLiveness : Option RunTime
  lastCollection : Option SchoolTime
  tapsToday : Nat
  unknownToday : Nat
  faultsToday : Nat
  overflow : Bool
  fault : Bool
  hold : List HoldRecord
  deriving DecidableEq, Repr

/-- Conditions of SEEK WAITING (R105). -/
inductive SeekCondition where
  | taps | fault | either
  deriving DecidableEq, Repr

/-- A walk (R106): its condition (`none` for plain SEEK), the present prefix, the branches put aside (latest first), the
identities found in order, the count of bad identities. -/
structure Walk where
  condition : Option SeekCondition
  path : List Bool
  aside : List (List Bool)
  found : List Identity
  bad : Nat
  deriving DecidableEq, Repr

/-- A poll round after its walk (R112): the identities still to be handled, the entry and identity in hand, whether its
further transactions are still to be made, the taps read so far as (serial, card), the verdict list. -/
structure PollRound where
  rest : List Identity
  entry : Nat
  identity : Identity
  live : Bool
  read : List (Nat × Nat)
  verdicts : List (Nat × Verdict)
  deriving DecidableEq, Repr

/-- Line jobs (R111). -/
inductive Job where
  | idle
  | enumeration (w : Walk)
  | broadcast
  | liveness (entry : Nat) (identity : Identity)
  | pollWalk (w : Walk)
  | pollServe (p : PollRound)
  deriving DecidableEq, Repr

/-- What follows ALERT in the transaction under way (R104). -/
inductive Transaction where
  | seek
  | readTaps
  | giveVerdicts
  | readState (clear : Bool)
  | displayClock
  deriving DecidableEq, Repr

/-- What the 2610 awaits on the line (R103, R105, R107–R109). -/
inductive LinePhase where
  | free
  | alert (t : Transaction)
  | windows
  | header
  | blocks (left : Nat)
  | confirm
  | stateReply
  deriving DecidableEq, Repr

/-- The last enumeration record (R119). -/
structure EnumerationRecord where
  finish : SchoolTime
  found : Nat
  added : Nat
  restored : Nat
  removed : Nat
  bad : Nat
  refused : Nat
  stoppedAt16 : Bool
  deriving DecidableEq, Repr

/-- The Entrance Line Controller. `orphan`: the answer of the transaction under way is not recorded (R121). `dropJob`: the
job ends when its present transaction ends (R123). `leftEntrance`: the entrance number of the terminal in hand, where its entry
was freed or replaced during the transaction (R108, R121, R123). `sent`: the bytes of the latest sending of the 2610. -/
structure EntranceLine where
  table : List (Option Terminal)
  job : Job
  phase : LinePhase
  orphan : Bool
  dropJob : Bool
  leftEntrance : Option Nat
  enumerationPending : Bool
  clockDue : Bool
  refused : Option Identity
  lastEnumeration : Option EnumerationRecord
  sent : Text
  deriving DecidableEq, Repr

/-! ### Notice Dispatcher -/

/-- A broadcast addressee (R170). -/
structure BroadcastState where
  mask : List Nat
  reach : Reach
  cursorSlot : Nat
  cursorPosition : Nat
  returned : List (Slot × Nat)
  sent : Nat
  delivered : Nat
  failed : Nat
  expired : Bool
  deriving DecidableEq, Repr

/-- The addressee of a notice (R153). -/
inductive Addressee where
  | pupil (slot : Slot) (position : Nat)
  | broadcast (b : BroadcastState)
  deriving DecidableEq, Repr

/-- A notice (R153). -/
structure Notice where
  number : Nat
  kind : NoticeKind
  addressee : Addressee
  cls : Nat
  createdDate : Date
  createdTime : SchoolTime
  deadline : Option SchoolTime
  textSlot : Option Nat
  inWindow : Bool
  cancel : Bool
  deriving DecidableEq, Repr

/-- States of a send (R161). -/
inductive SendState where
  | awaitTake | awaitOutcome
  deriving DecidableEq, Repr

/-- A send of the Send Window (R161). -/
structure Send where
  key : SendKey
  sentAt : RunTime
  state : SendState
  deriving DecidableEq, Repr

/-- How a broadcast ended (R171). -/
inductive BroadcastEnd where
  | complete | cancelled | expired
  deriving DecidableEq, Repr

/-- The last broadcast record (R171). -/
structure BroadcastRecord where
  number : Nat
  kind : NoticeKind
  sent : Nat
  delivered : Nat
  failed : Nat
  ending : BroadcastEnd
  deriving DecidableEq, Repr

/-- The Notice Dispatcher (R153–R172); an empty text is an empty slot of the Text Table. -/
structure Dispatcher where
  queue : List Notice
  window : List Send
  counter : Nat
  globalHold : Bool
  quietEnd : Option SchoolTime
  busyEnd : Option RunTime
  deadline : Option SchoolTime
  lastBroadcast : Option BroadcastRecord
  texts : List Text
  deriving DecidableEq, Repr

/-! ### Gateway Port -/

/-- Link states (R177). -/
inductive LinkState where
  | up | down
  deriving DecidableEq, Repr

/-- A SEND record (R161). -/
structure SendRecord where
  key : SendKey
  kind : NoticeKind
  reference : Nat
  contact : Nat
  channel : ContactChannel
  arrival : Option SchoolTime
  text : Text
  deriving DecidableEq, Repr

/-- Answer words of an ANSWER record (R179). -/
inductive AnswerWord where
  | known | stale | taken | busy | inboxFull
  deriving DecidableEq, Repr

/-- The record an ANSWER answers, with the reference it carries (R179). -/
inductive Answered where
  | receipt (key : SendKey)
  | outcome (key : SendKey)
  | pong (number : Nat)
  | reply (contact : Nat)
  deriving DecidableEq, Repr

/-- An outbound frame (R179). -/
inductive Frame where
  | send (r : SendRecord)
  | ping (number : Nat)
  | answer (about : Answered) (word : AnswerWord)
  deriving DecidableEq, Repr

/-- Inbox reasons (R183). -/
inductive InboxReason where
  | text | noMatch | noEffect | withText
  deriving DecidableEq, Repr

/-- A Parent Inbox message (R188). -/
structure InboxMessage where
  number : Nat
  date : Date
  time : SchoolTime
  contact : Nat
  reference : Option Nat
  slots : List Slot
  matched : Nat
  code : ReplyCode
  reason : InboxReason
  text : Text
  read : Bool
  deriving DecidableEq, Repr

/-- The Gateway Port (R177); `frame` holds the bytes taken so far, the start byte left out. -/
structure GatewayPort where
  link : LinkState
  timeouts : Nat
  pingNumber : Nat
  nextPing : Option RunTime
  discarded : Nat
  frame : Option Text
  outbound : List Frame
  inbox : List InboxMessage
  inboxCounter : Nat
  inboxFull : Bool
  deriving DecidableEq, Repr

/-! ### Attention Unit and Office Port -/

/-- The fourteen attention sources, in number order (R194). -/
inductive SourceId where
  | store | clock | day | sweep | bell | arrival | dispute | unreached | inbox | gateway | terminal | full | done
  | broadcast
  deriving DecidableEq, Repr

/-- A last subject (R194). -/
inductive Subject where
  | slot (n : Slot)
  | terminal (n : Nat)
  | entry (n : Nat)
  | area (a : Area)
  | notice (n : Nat)
  deriving DecidableEq, Repr

/-- Flag, count and last subject of a source (R194); enable and level are settings. -/
structure Source where
  flag : Bool
  count : Nat
  subject : Option Subject
  deriving DecidableEq, Repr

/-- Refusal reasons (R193). -/
inductive Reason where
  | busy | unknown | badValue | noSuch | duplicate | full | overlap | dayNotOpen | dayOpen | wrongState | storeBusy
  | locked | clockInvalid | notAllowed
  deriving DecidableEq, Repr

/-- What follows FAULT (R192). -/
inductive FaultKind where
  | check | length | form
  deriving DecidableEq, Repr

/-- A value of a reply line (Formats and Pins; R209). -/
inductive Item where
  | num (n : Nat)
  | time (t : SchoolTime)
  | minutes (t : SchoolTime)
  | date (d : Date)
  | word (w : String)
  | set (l : List Nat)
  | contacts (l : List Contact)
  | step (s : PatternStep)
  | quoted (t : Text)
  | hex (t : Text)
  | identity (i : Identity)
  | plain (t : Text)
  | named (name : String) (v : Item)
  deriving DecidableEq, Repr

/-- A reply (R192). -/
inductive Reply where
  | ok (items : List Item)
  | started (items : List Item)
  | refused (r : Reason)
  | fault (f : FaultKind)
  deriving DecidableEq, Repr

/-- A reply with the tag it carries (R190, R192). -/
structure TaggedReply where
  tag : Text
  reply : Reply
  deriving DecidableEq, Repr

/-- What the Office Port's output is sending (R191). -/
inductive Output where
  | free | short | served
  deriving DecidableEq, Repr

/-- The Office Port (R190, R191). `short` includes the short reply being sent (log 23). `restart`: the served request was
RESTART (R206). `result`: the result the owner of the last request returned (R192, log 1). -/
structure OfficePort where
  buffer : Text
  framing : Bool
  overlong : Bool
  resync : Bool
  served : Option TaggedReply
  waiting : Option Text
  short : List TaggedReply
  output : Output
  overrun : Nat
  restart : Bool
  result : Option Reply
  deriving DecidableEq, Repr

/-! ### Settings Store -/

/-- A class table (R155). -/
structure ClassTable where
  absent : Nat
  late : Nat
  arrived : Nat
  deriving DecidableEq, Repr

/-- Area 0, SETTINGS: the settings of R204, the class tables and the attention settings (R200). Times of duration in
seconds; levels of the quiet inputs `true` for HIGH. -/
structure Settings where
  dayOpen : SchoolTime
  weekMap : List DayType
  minutePulse : Bool
  catchUp : Nat
  waitLimit : Nat
  lead : Nat
  tail : Nat
  zoneGroup : List Group
  relayPol : List Polarity
  wakePol : PerGroup Polarity
  groupVolume : PerGroup Nat
  quietMask : PerInput (List Nat)
  quietLevel : PerInput Bool
  buttonMode : ButtonMode
  buttonZones : List Nat
  buttonPrio : Nat
  buttonPattern : Nat
  latePolicy : LatePolicy
  classNormal : ClassTable
  classAlternate : ClassTable
  enables : List Bool
  levels : List Nat
  floor : Nat
  deriving DecidableEq, Repr

/-- Area 1, LIMITS (R200). -/
structure Limits where
  ceiling : PerGroup Nat
  override : Bool
  deriving DecidableEq, Repr

/-- What area 8 keeps of a terminal (R200). -/
structure StoredTerminal where
  entry : Nat
  identity : Identity
  entrance : Nat
  deriving DecidableEq, Repr

/-- The contents of areas; `none` is an area not held: a stored copy never written (R200), or an area a snapshot leaves out. -/
structure AreaCopies where
  settings : Option Settings
  limits : Option Limits
  plans : Option (List Bank)
  patterns : Option (List (List PatternStep))
  calendar : Option (List (Date × DayType))
  texts : Option (List Text)
  roster : Option (List (Slot × Enrolment))
  away : Option (List AwayEntry)
  terminals : Option (List StoredTerminal)
  deriving DecidableEq, Repr

/-- Kinds of store operation (R201). -/
inductive StoreKind where
  | save | load | defaults
  deriving DecidableEq, Repr

/-- The result of an area's step (R202, R207). -/
inductive StepResult where
  | ok | failed | abandoned | notReached
  deriving DecidableEq, Repr

/-- A store operation under way (R201, R202): the areas whose steps have ended with their results, then the areas still to
end, the first of which is running. -/
structure StoreOperation where
  kind : StoreKind
  ended : List (Area × StepResult)
  rest : List Area
  snapshot : AreaCopies
  start : SchoolTime
  deriving DecidableEq, Repr

/-- The last operation record (R202). -/
structure OperationRecord where
  kind : StoreKind
  results : List (Area × StepResult)
  start : SchoolTime
  finish : SchoolTime
  deriving DecidableEq, Repr

/-- The Settings Store's own state (R200–R202): the stored copies with their fingerprints, by area number; each working copy lives
in the block that uses it. -/
structure SettingsStore where
  stored : AreaCopies
  fingerprints : List (BitVec 16)
  operation : Option StoreOperation
  lastOperation : Option OperationRecord
  deriving DecidableEq, Repr

/-- The kinds of start (R206). -/
inductive StartKind where
  | cold | warm
  deriving DecidableEq, Repr

/-- The hold, the retention mark and the kind of the last start (R197, R206). -/
structure Power where
  held : Bool
  retention : Bool
  lastStart : StartKind
  deriving DecidableEq, Repr

/-! ### The whole -/

/-- Reasons for which a step could stop the machine. There is none: the spec describes no step that stops the part, so
no meaning answers with a fault. -/
inductive Fault where
  deriving DecidableEq, Repr

/-- Reasons for which a step has no meaning in the model. -/
inductive Refusal where
  /-- Raised by `exec` alone, for a row that has no meaning yet; safe, since nothing is claimed about such a row. -/
  | notModelled (mnemonic : String)
  deriving DecidableEq, Repr

/-- The state of the block, with the queue of commands that wait, first in first out. -/
structure State where
  time : TimeBase
  day : DayController
  plan : PlanEngine
  roll : RollUnit
  sweep : CutSweeper
  chime : ChimeUnit
  zone : ZoneDriver
  line : EntranceLine
  notices : Dispatcher
  gateway : GatewayPort
  attention : List Source
  office : OfficePort
  settings : Settings
  limits : Limits
  store : SettingsStore
  power : Power
  pins : Pins
  pending : List Instr
  deriving DecidableEq, Repr

/-! ### Defaults of the areas and the state after reset -/

/-- A cohort as a day becoming OPEN resets it (R40). -/
def Cohort.fresh : Cohort := ⟨.beforeRegistration, none, 0, none⟩

/-- An empty bank (R50). -/
def Bank.empty : Bank := ⟨[], .normal, []⟩

/-- The default of PATTERNS: pattern 0 is one STRIKE of 100, the others empty (R72). -/
def defaultPatterns : List (List PatternStep) := [.strike 100] :: List.replicate 31 []

/-- An IDLE channel (R75). -/
def ToneChannel.idle : ToneChannel where
  state := .idle
  pattern := none
  steps := []
  step := none
  stepEnd := none
  loopCounter := none
  priority := none
  origin := none
  late := false
  zones := []
  groups := []
  zoneGroups := []
  tailEnd := none
  gate := false
  gateEnding := false
  passTimed := false

/-- The default of SETTINGS (R30, R33, R36, R60, R85, R133, R155, R194, R200). -/
def Settings.default : Settings where
  dayOpen := 18000
  weekMap := List.replicate 7 .closed
  minutePulse := false
  catchUp := 120
  waitLimit := 30
  lead := 2
  tail := 3
  zoneGroup := [.a, .a, .a, .b, .b, .b]
  relayPol := List.replicate 6 .activeHigh
  wakePol := ⟨.activeHigh, .activeHigh⟩
  groupVolume := ⟨10, 10⟩
  quietMask := ⟨[], []⟩
  quietLevel := ⟨true, true⟩
  buttonMode := .off
  buttonZones := [1, 2, 3, 4, 5, 6]
  buttonPrio := 8
  buttonPattern := 0
  latePolicy := .never
  classNormal := ⟨5, 3, 6⟩
  classAlternate := ⟨5, 1, 6⟩
  enables := List.replicate 14 true
  levels := [8, 8, 3, 3, 4, 5, 2, 4, 3, 6, 5, 6, 2, 2]
  floor := 0

/-- The default of LIMITS (R200). -/
def Limits.default : Limits := ⟨⟨12, 12⟩, false⟩

/-- Every stored copy bad: never written (R200). -/
def AreaCopies.none_ : AreaCopies := ⟨none, none, none, none, none, none, none, none, none⟩

/-- A source not raised since the cold start (R194). -/
def Source.clear : Source := ⟨false, 0, none⟩

/-- The sources after the cold start of a part whose nine stored copies are bad: STORE raised once for each area, in area
order, and CLOCK once (R27, R194, R207). -/
def resetSources : List Source :=
  ⟨true, 9, some (.area .terminals)⟩ :: ⟨true, 1, none⟩ :: List.replicate 12 .clear

/-- The Entrance Line Controller at cold start with no stored terminals (R100, R112, R119, R123). -/
def EntranceLine.cold : EntranceLine where
  table := List.replicate 8 none
  job := .idle
  phase := .free
  orphan := false
  dropJob := false
  leftEntrance := none
  enumerationPending := false
  clockDue := false
  refused := none
  lastEnumeration := none
  sent := []

/-- The Notice Dispatcher at cold start with an empty Text Table (R172, R176). -/
def Dispatcher.cold : Dispatcher where
  queue := []
  window := []
  counter := 0
  globalHold := false
  quietEnd := none
  busyEnd := none
  deadline := none
  lastBroadcast := none
  texts := List.replicate 16 []

/-- The Gateway Port at cold start (R177). -/
def GatewayPort.cold : GatewayPort where
  link := .up
  timeouts := 0
  pingNumber := 0
  nextPing := none
  discarded := 0
  frame := none
  outbound := []
  inbox := []
  inboxCounter := 0
  inboxFull := false

/-- The Office Port at a start (R191). -/
def OfficePort.start : OfficePort where
  buffer := []
  framing := false
  overlong := false
  resync := false
  served := none
  waiting := none
  short := []
  output := .free
  overrun := 0
  restart := false
  result := none

/-- The machine right after reset: the first cold start of a part whose stored copies were never written, with its inputs
inactive (R207 and the start rules of each block; log 5, log 6, log 7). -/
def State.reset : State where
  time := ⟨0, 0, false, Config.pinsAtReset.minutePulse, 0⟩
  day := ⟨.closed, none, none, none, 0, false, none, none, [], List.replicate 8 .fresh⟩
  plan := ⟨List.replicate 4 .empty, ⟨none, none, 0, []⟩⟩
  roll := ⟨[], List.replicate 8 (List.replicate 11 0), []⟩
  sweep := ⟨[], none, .idle⟩
  chime := ⟨defaultPatterns, List.replicate 4 .idle, [], none, none⟩
  zone := ⟨List.replicate 6 false, ⟨none, none⟩, ⟨Config.pinsAtReset.qa, Config.pinsAtReset.qb⟩, Config.pinsAtReset.bell, 0⟩
  line := .cold
  notices := .cold
  gateway := .cold
  attention := resetSources
  office := .start
  settings := .default
  limits := .default
  store := ⟨.none_, List.replicate 9 0, none, none⟩
  power := ⟨false, true, .cold⟩
  pins := Config.pinsAtReset
  pending := []

end Sys2Proof.Machine
end

