-- ==== Sys2Proof/Machine/Consts.lean ====
section
/-! DEFINITION. The sizes and durations the rules fix. Durations of running time are in units of 10 ms. -/

namespace Sys2Proof.Machine

/-- Slots of the Roster Table (01, Roster Table). -/
def slotCount : Nat := 2048
/-- Largest Away List (R22). -/
def awayLimit : Nat := 256
/-- Largest Calendar Table (R33). -/
def calendarLimit : Nat := 64
/-- Largest bank (R50). -/
def bankLimit : Nat := 96
/-- Largest pattern (R72). -/
def patternLimit : Nat := 24
/-- Largest Bell Wait List (R82). -/
def waitListLimit : Nat := 8
/-- Largest Notice Queue (R153). -/
def queueLimit : Nat := 128
/-- Most ABSENT notices in the queue (R144, R153). -/
def absentLimit : Nat := 120
/-- Places of the Send Window (R153). -/
def windowLimit : Nat := 4
/-- Largest Parent Inbox (R188). -/
def inboxLimit : Nat := 32
/-- Most ANSWER frames in the outbound queue (R177, R178). -/
def answerLimit : Nat := 16
/-- Most short replies waiting (R191). -/
def shortReplyLimit : Nat := 4
/-- Records of a Verdict Hold (R116) and taps of a terminal's buffer (R107). -/
def holdLimit : Nat := 16
/-- Identities a walk finds before it stops (R106). -/
def walkLimit : Nat := 16
/-- Seconds in a day (00_scope.md, Times). -/
def daySeconds : Nat := 86400
/-- Days from 2000-01-01 to 2099-12-31 (00_scope.md, Times). -/
def dateCount : Nat := 36525
/-- The first priority of the override band (00_scope.md, Scales). -/
def overridePriority : Nat := 12
/-- One second of running time. -/
def second : RunTime := 100
/-- The take timeout, 2 s (R162). -/
def takeTimeoutAfter : RunTime := 2 * second
/-- The outcome limit, 900 s (R163). -/
def outcomeLimitAfter : RunTime := 900 * second
/-- The busy pause, 30 s (R159). -/
def busyPauseLength : RunTime := 30 * second
/-- The interval between pings, 30 s (R180, R181). -/
def pingInterval : RunTime := 30 * second
/-- The liveness interval, 10 s (R118). -/
def livenessInterval : RunTime := 10 * second

end Sys2Proof.Machine
end

