-- ==== Sys2Proof/Machine/Flags.lean ====
section
/-! DEFINITION. The flags of the block: the attention sources, how one is raised, which is pending, and the ATTN output
(R194–R196). -/

namespace Sys2Proof.Machine

/-- The number of a source (R194). -/
def SourceId.num : SourceId → Nat
  | .store => 0 | .clock => 1 | .day => 2 | .sweep => 3 | .bell => 4 | .arrival => 5 | .dispute => 6
  | .unreached => 7 | .inbox => 8 | .gateway => 9 | .terminal => 10 | .full => 11 | .done => 12 | .broadcast => 13

/-- The name of source number `n` (R194). -/
def sourceName (n : Nat) : String :=
  ["STORE", "CLOCK", "DAY", "SWEEP", "BELL", "ARRIVAL", "DISPUTE", "UNREACHED", "INBOX", "GATEWAY", "TERMINAL", "FULL",
    "DONE", "BROADCAST"].getD n ""

/-- A source after one more raising (R195): the count rises and holds at 255, the flag is set, the subject is this one. -/
def Source.raised (subject : Option Subject) (x : Source) : Source := ⟨true, min (x.count + 1) 255, subject⟩

/-- Raising a source (R195), whatever its enable, level and flag. -/
def raise (id : SourceId) (subject : Option Subject) (s : State) : State :=
  { s with attention := s.attention.modify id.num (Source.raised subject) }

/-- Source number `n`. -/
def sourceAt (n : Nat) (s : State) : Source := s.attention.getD n .clear

/-- Sources 0 and 1 are fixed (R194). -/
def fixedSource (n : Nat) : Bool := n < 2

/-- The enable of a source; a fixed source is ON (R194). -/
def sourceEnable (n : Nat) (s : State) : Bool := fixedSource n || s.settings.enables.getD n true

/-- The level of a source; a fixed source has 8 (R194). -/
def sourceLevel (n : Nat) (s : State) : Nat := if fixedSource n then 8 else s.settings.levels.getD n 0

/-- The effective level of a source (R196). -/
def effectiveLevel (n : Nat) (s : State) : Nat := if sourceEnable n s then sourceLevel n s else 0

/-- A source is pending while its flag is set and its effective level is above the floor (R196). -/
def sourcePending (n : Nat) (s : State) : Bool := (sourceAt n s).flag && s.settings.floor < effectiveLevel n s

/-- ATTN is active while at least one source is pending (R196), and never while the part is held (R206). -/
def attnActive (s : State) : Bool := !s.power.held && (List.range 14).any (sourcePending · s)

/-- The better of two sources for the top place: higher effective level, then lower number (R197). -/
def topOf (s : State) (best : Option Nat) (n : Nat) : Option Nat :=
  if sourcePending n s then
    match best with
    | none => some n
    | some m => if effectiveLevel m s < effectiveLevel n s then some n else some m
  else best

/-- The top source (R197). -/
def topSource (s : State) : Option Nat := (List.range 14).foldl (topOf s) none

end Sys2Proof.Machine
end

