-- ==== Sys2Proof/Machine/Ops.lean ====
section
/-! DEFINITION. The named operations the meanings share: the Roster Table, running time, the calendar of dates, the claim
on a mark with its census move (R5, R18), the Notice Queue with withdrawal and removal (R6, R153, R154, R168), the store
conditions (R203). -/

namespace Sys2Proof.Machine

/-! ### Tables keyed by number -/

/-- The value under a key. -/
def tableGet {α : Type} (k : Nat) : List (Nat × α) → Option α
  | [] => none
  | (j, v) :: t => if j = k then some v else tableGet k t

/-- A table with a key's value set, keys kept rising. -/
def tablePut {α : Type} (k : Nat) (v : α) : List (Nat × α) → List (Nat × α)
  | [] => [(k, v)]
  | (j, w) :: t => if k < j then (k, v) :: (j, w) :: t else if k = j then (k, v) :: t else (j, w) :: tablePut k v t

/-- A table with a key left out. -/
def tableDrop {α : Type} (k : Nat) : List (Nat × α) → List (Nat × α)
  | [] => []
  | (j, w) :: t => if j = k then t else (j, w) :: tableDrop k t

/-- The canonical form of a table: keys strictly rising and below `bound`. -/
abbrev tableWf {α : Type} (bound : Nat) (l : List (Nat × α)) : Prop :=
  (l.map Prod.fst).Pairwise (· < ·) ∧ ∀ e ∈ l, e.1 < bound

/-- A count of 0–65,535 that saturates. -/
def satInc (n : Nat) : Nat := min (n + 1) 65535

/-- The members of a set argument, in order, among the values `lo … hi`. -/
def setWithin (lo hi : Nat) (l : List Nat) : List Nat := (List.range' lo (hi + 1 - lo)).filter (l.contains ·)

/-- Every member of a set argument lies in `lo … hi`. -/
def setInRange (lo hi : Nat) (l : List Nat) : Bool := l.all fun n => lo ≤ n && n ≤ hi

/-! ### Running time (R27; log 2) -/

/-- The running time of the next one-second advance. -/
def nextSecond (s : State) : RunTime := (s.time.running / second + 1) * second

/-- A timed event has fallen due or falls due before the next one-second advance. -/
def dueBy (t : RunTime) (s : State) : Bool := t < nextSecond s

/-- Running time has reached `t`. -/
def reach (t : RunTime) (s : State) : State :=
  { s with time := { s.time with running := max s.time.running t } }

/-! ### Dates -/

/-- 2000-01-01 is a Saturday; Monday is 0 (R27). -/
def weekday (d : Date) : Nat := (d + 5) % 7

/-- Days of the twelve months of a year (`leap`: of a leap year). -/
def monthDays (leap : Bool) : List Nat := [31, if leap then 29 else 28, 31, 30, 31, 30, 31, 31, 30, 31, 30, 31]

/-- Month and day of day number `d` of a year, given the months still to pass from month `m`. -/
def monthOf : List Nat → Nat → Nat → Nat × Nat
  | [], m, d => (m, d + 1)
  | n :: t, m, d => if d < n then (m, d + 1) else monthOf t (m + 1) (d - n)

/-- Year, month and day of a date; from 2000 to 2099 every fourth year is a leap year. -/
def yearMonthDay (d : Date) : Nat × Nat × Nat :=
  let r := d % 1461
  let leap := r < 366
  let y := 2000 + d / 1461 * 4 + (if leap then 0 else (r - 1) / 365)
  let doy := if leap then r else (r - 1) % 365
  (y, monthOf (monthDays leap) 1 doy)

/-- The date of a year, month and day; `dateCount` for one that does not exist or lies outside the range. -/
def dateOf (y m d : Nat) : Date :=
  let leap := y % 4 = 0
  if 2000 ≤ y ∧ y ≤ 2099 ∧ 1 ≤ m ∧ m ≤ 12 ∧ 1 ≤ d ∧ d ≤ (monthDays leap).getD (m - 1) 0 then
    let n := y - 2000
    n / 4 * 1461 + (if n % 4 = 0 then 0 else 366 + (n % 4 - 1) * 365) + ((monthDays leap).take (m - 1)).sum + (d - 1)
  else dateCount

/-- "Today": the day date while OPEN or OPENING, the Time Base date while CLOSED (R35). -/
def today (s : State) : Date :=
  if s.day.state = .closed then s.time.date else s.day.date.getD s.time.date

/-- The day is OPEN. -/
def dayIsOpen (s : State) : Bool := s.day.state = .open_

/-! ### Marks and the roll -/

/-- The census column of a mark (R4). -/
def markColumn : Mark → Nat
  | .unseen => 0 | .present => 1 | .late => 2 | .lateAfterCut => 3 | .expected => 4 | .absentPending => 5
  | .absentAsked => 6 | .absentUnreached => 7 | .excused => 8 | .arrivedExcused => 9 | .signedOut => 10

/-- The arrival marks (R4). -/
def isArrivalMark : Mark → Bool
  | .present | .late | .lateAfterCut | .arrivedExcused | .signedOut => true
  | _ => false

/-- The marks a pupil not yet accounted for holds: UNSEEN, EXPECTED, ABSENT_* (R24, R44, R126, R182). -/
def isUnaccountedMark : Mark → Bool
  | .unseen | .expected | .absentPending | .absentAsked | .absentUnreached => true
  | _ => false

/-- The day part of day open, enrolment, cold start and ROSTER load (R1, R7, R20). -/
def DayPart.fresh : DayPart := ⟨.unseen, none, none, none, none, none, none, none, false⟩

/-- One count of the census raised. -/
def censusUp (cohort : Nat) (m : Mark) (c : List (List Nat)) : List (List Nat) :=
  c.modify cohort (·.modify (markColumn m) (· + 1))

/-- One count of the census lowered. -/
def censusDown (cohort : Nat) (m : Mark) (c : List (List Nat)) : List (List Nat) :=
  c.modify cohort (·.modify (markColumn m) (· - 1))

/-- One count of the census. -/
def censusAt (cohort : Nat) (m : Mark) (c : List (List Nat)) : Nat := (c.getD cohort []).getD (markColumn m) 0

/-- The census of a roster (R18). -/
def censusOf (roster : List (Slot × Pupil)) : List (List Nat) :=
  roster.foldr (fun e c => censusUp e.2.enrolment.cohort e.2.day.mark c) (List.replicate 8 (List.replicate 11 0))

/-- The record in a slot, if it is ENROLLED. -/
def pupilAt (slot : Slot) (s : State) : Option Pupil := tableGet slot s.roll.roster

/-- A record written into a slot, with the census move of R5, R7 and R8: from the old record's mark and cohort to the new
one's; a record that keeps both moves no count. -/
def RollUnit.put (slot : Slot) (p : Pupil) (r : RollUnit) : RollUnit :=
  let census :=
    match tableGet slot r.roster with
    | none => censusUp p.enrolment.cohort p.day.mark r.census
    | some q =>
      if q.enrolment.cohort = p.enrolment.cohort ∧ q.day.mark = p.day.mark then r.census
      else censusUp p.enrolment.cohort p.day.mark (censusDown q.enrolment.cohort q.day.mark r.census)
  { r with roster := tablePut slot p r.roster, census := census }

/-- A slot made EMPTY, with its census move (R9). -/
def RollUnit.remove (slot : Slot) (r : RollUnit) : RollUnit :=
  match tableGet slot r.roster with
  | none => r
  | some q =>
    { r with roster := tableDrop slot r.roster, census := censusDown q.enrolment.cohort q.day.mark r.census }

/-- A record written into a slot. -/
def putPupil (slot : Slot) (p : Pupil) (s : State) : State := { s with roll := s.roll.put slot p }

/-! ### The Notice Queue -/

/-- The notice with a number. -/
def noticeAt (n : Nat) (s : State) : Option Notice := s.notices.queue.find? (·.number = n)

/-- A notice left the queue: a PAUSED sweep resumes (R145). -/
def sweepResume (s : State) : State :=
  if s.sweep.state = .paused then { s with sweep := { s.sweep with state := .running } } else s

/-- A queue put in place of the old one; when notices left, the Cut Sweeper hears of it (R153). -/
def setQueue (q : List Notice) (s : State) : State :=
  let s' := { s with notices := { s.notices with queue := q } }
  if q.length < s.notices.queue.length then sweepResume s' else s'

/-- A notice replaced by its new form under the same number. -/
def updateNotice (n : Nat) (f : Notice → Notice) (s : State) : State :=
  { s with notices := { s.notices with queue := s.notices.queue.map fun x => if x.number = n then f x else x } }

/-- A notice removed (R153). -/
def removeNotice (n : Nat) (s : State) : State := setQueue (s.notices.queue.filter (·.number ≠ n)) s

/-- Withdrawal (R168) of the notices that meet `p`: each is removed if WAITING and gets cancel-on-result if IN_WINDOW. -/
def withdrawWhere (p : Notice → Bool) (s : State) : State :=
  setQueue
    (s.notices.queue.filterMap fun n =>
      if p n then (if n.inWindow then some { n with cancel := true } else none) else some n)
    s

/-- A pupil notice addressed to a slot. -/
def Notice.isTo (slot : Slot) (n : Notice) : Bool :=
  match n.addressee with
  | .pupil k _ => k = slot
  | .broadcast _ => false

/-- An ABSENT notice addressed to a slot without cancel-on-result (R6). -/
def Notice.isAbsentOf (slot : Slot) (n : Notice) : Bool := n.kind = .absent && n.isTo slot && !n.cancel

/-- The running number after `n`: from 65,535 to 1 (R154, R188). -/
def stepNumber (n : Nat) : Nat := if n < 65535 then n + 1 else 1

/-- The first number after `n` that is not in `used`; `fuel` steps at most. -/
def nextFree (used : List Nat) : Nat → Nat → Nat
  | 0, n => stepNumber n
  | fuel + 1, n => if used.contains (stepNumber n) then nextFree used fuel (stepNumber n) else stepNumber n

/-- The number the counter issues next (R154). -/
def nextNoticeNumber (s : State) : Nat :=
  nextFree (s.notices.queue.map (·.number)) s.notices.queue.length s.notices.counter

/-- A new WAITING notice, created now (R153, R154). -/
def addNotice (kind : NoticeKind) (to_ : Addressee) (cls : Nat) (deadline : Option SchoolTime) (textSlot : Option Nat)
    (s : State) : State :=
  let n := nextNoticeNumber s
  { s with
    notices :=
      { s.notices with
        counter := n
        queue := s.notices.queue ++ [⟨n, kind, to_, cls, s.time.date, s.time.school, deadline, textSlot, false, false⟩] } }

/-- The class table in force: the one the header copy names, NORMAL without one (R155). -/
def tableInForce (s : State) : Select := (s.plan.today.header.map (·.2)).getD .normal

/-- A class table by name (R155). -/
def classTableOf (t : Select) (s : State) : ClassTable :=
  match t with
  | .normal => s.settings.classNormal
  | .alternate => s.settings.classAlternate

/-- The queue holds 128 notices. -/
def queueFull (s : State) : Bool := queueLimit ≤ s.notices.queue.length

/-- The ABSENT notices of the queue, with or without cancel-on-result (R144). -/
def absentCount (s : State) : Nat := s.notices.queue.countP (·.kind = .absent)

/-! ### Claims on a mark -/

/-- A claim on a pupil's mark, taken whole (R5): the day part changes by `f`, the census moves with the mark, and a pupil
who leaves ABSENT_PENDING has its ABSENT notice withdrawn in the same change (R6). A claim on an EMPTY slot has no effect. -/
def claim (slot : Slot) (f : DayPart → DayPart) (s : State) : State :=
  match pupilAt slot s with
  | none => s
  | some p =>
    let s' := putPupil slot { p with day := f p.day } s
    if p.day.mark = .absentPending ∧ (f p.day).mark ≠ .absentPending then withdrawWhere (·.isAbsentOf slot) s' else s'

/-- A pupil made ABSENT_UNREACHED from ABSENT_PENDING, with the attention the rules join to it (R41, R164, R166, R169). -/
def makeUnreached (source : MarkSource) (slot : Slot) (s : State) : State :=
  raise .unreached (some (.slot slot))
    (claim slot
      (fun d => if d.mark = .absentPending then { d with mark := .absentUnreached, source := some source } else d) s)

/-- The pupil made EXCUSED by an Away List entry or by closure (R24, R44): only from a mark not yet accounted for. -/
def excuseUnaccounted (source : MarkSource) (reason : ExcuseReason) (slot : Slot) (s : State) : State :=
  claim slot
    (fun d =>
      if isUnaccountedMark d.mark then { d with mark := .excused, source := some source, reason := some reason, back := none }
      else d)
    s

/-! ### Store conditions (R201, R203) -/

/-- The areas a store operation names. -/
def StoreOperation.areas (o : StoreOperation) : List Area := o.ended.map (·.1) ++ o.rest

/-- A SAVE, LOAD or DEFAULTS that includes the area is under way. -/
def storeHolds (a : Area) (s : State) : Bool :=
  match s.store.operation with
  | none => false
  | some o => o.areas.contains a

/-- A SAVE that includes the area is under way. -/
def saveHolds (a : Area) (s : State) : Bool :=
  match s.store.operation with
  | none => false
  | some o => o.kind = .save && o.areas.contains a

/-- A LOAD, or a DEFAULTS counted as one, of ROSTER, PLANS or AWAY is under way (R36, R201). -/
def rollLoadUnderWay (s : State) : Bool :=
  match s.store.operation with
  | none => false
  | some o => o.kind ≠ .save && (o.areas.contains .roster || o.areas.contains .plans || o.areas.contains .away)

/-! ### Outcomes of a command -/

/-- An event: while the part is held nothing is carried and no input is taken (R206). -/
def event (f : State → State) (s : State) : Host.Outcome State Fault Refusal :=
  .next (if s.power.held then s else f s)

/-- A request taken by its owner (R192, step 3): its effect, and its result handed back to the Office Port (log 1). -/
def request (f : State → State × Reply) (s : State) : Host.Outcome State Fault Refusal :=
  event (fun s => let r := f s; { r.1 with office := { r.1.office with result := some r.2 } }) s

/-- A refusal: nothing changes (R193). -/
def refuse (r : Reason) (s : State) : State × Reply := (s, .refused r)

/-- An OK reply with its values. -/
def okWith (items : List Item) (s : State) : State × Reply := (s, .ok items)

end Sys2Proof.Machine
end

