-- ==== Sys2Proof/Machine/Check.lean ====
section
/-! DEFINITION. The 16-bit and 8-bit checks (R208), the bytes of an identity and its validity (R99). -/

namespace Sys2Proof.Machine

/-- One division step of the 16-bit check, generator x16+x12+x5+1. -/
def crc16Bit (c : BitVec 16) : BitVec 16 := if c.msb then (c <<< 1) ^^^ 0x1021#16 else c <<< 1

/-- One byte fed most significant bit first. -/
def crc16Byte (c : BitVec 16) (b : Byte) : BitVec 16 :=
  (List.range 8).foldl (fun c _ => crc16Bit c) (c ^^^ (b.setWidth 16 <<< 8))

/-- The 16-bit check: register starts at all ones, final value complemented (R208). -/
def check16 (bytes : Text) : BitVec 16 := ~~~(bytes.foldl crc16Byte 0xFFFF#16)

/-- The 16-bit check as two bytes, low byte first (R208). -/
def check16Bytes (bytes : Text) : Text :=
  let c := check16 bytes
  [c.setWidth 8, (c >>> 8).setWidth 8]

/-- Bytes followed by a good check, low byte first. -/
def goodCheck (bytes : Text) : Bool :=
  2 ≤ bytes.length && bytes.drop (bytes.length - 2) == check16Bytes (bytes.take (bytes.length - 2))

/-- One division step of the 8-bit check, generator x8+x2+x+1. -/
def crc8Bit (c : Byte) : Byte := if c.msb then (c <<< 1) ^^^ 0x07#8 else c <<< 1

/-- The 8-bit identity check: starts at zero, not complemented (R208). -/
def check8 (bytes : Text) : Byte :=
  bytes.foldl (fun c b => (List.range 8).foldl (fun c _ => crc8Bit c) (c ^^^ b)) 0

/-- The seven bytes of an identity in line order: identity bit 0 is the least significant bit of the first (Formats and
Pins, Entrance line). -/
def identityBytes (i : Identity) : Text := (List.range 7).map fun k => (i >>> (8 * k)).setWidth 8

/-- An identity is valid when its check agrees with its kind and serial (R99). -/
def identityValid (i : Identity) : Bool := check8 ((identityBytes i).take 6) == (identityBytes i).getD 6 0

/-- The identity with the given 56 bits, bit 0 first. -/
def identityOfBits (bits : List Bool) : Identity :=
  bits.foldr (fun b acc => (acc <<< 1) ||| (if b then 1 else 0)) 0

/-- A number as bytes, low byte first (Gateway frames). -/
def bytesLow : Nat → Nat → Text
  | 0, _ => []
  | k + 1, n => BitVec.ofNat 8 n :: bytesLow k (n / 256)

/-- The number of bytes sent low byte first. -/
def numberLow : Text → Nat
  | [] => 0
  | b :: t => b.toNat + 256 * numberLow t

end Sys2Proof.Machine
end

