-- ==== Sys2Proof/Machine/Operands.lean ====
section
/-! DEFINITION. The operand forms of office lines: the line grammar and the forms of arguments (12_formats_and_pins.md,
Office lines; R209). A form that cannot be read is `none`; a value of the right form outside its range is handed on. -/

namespace Sys2Proof.Machine

/-- The characters of a word. -/
def ascii (w : String) : Text := w.toList.map fun c => BitVec.ofNat 8 c.toNat

/-- One character. -/
def chr (c : Char) : Byte := BitVec.ofNat 8 c.toNat

/-- An argument of a line (Formats and Pins). -/
inductive Token where
  | plain (t : Text)
  | quoted (t : Text)
  deriving DecidableEq, Repr

/-- A character lies in a range of characters. -/
def between (lo hi : Char) (b : Byte) : Bool := lo.toNat ≤ b.toNat && b.toNat ≤ hi.toNat

/-- A decimal digit. -/
def isDigit (b : Byte) : Bool := between '0' '9' b

/-- An uppercase letter. -/
def isUpper (b : Byte) : Bool := between 'A' 'Z' b

/-- A character of a tag (Formats and Pins). -/
def isTagChar (b : Byte) : Bool := isUpper b || between 'a' 'z' b || isDigit b || b == chr '?'

/-- A character of a plain argument. -/
def isPlainChar (b : Byte) : Bool := between '!' '~' b && b != chr '"' && b != chr '*'

/-- A character of a text: 0x20 to 0x7E excluding the quote. -/
def isTextChar (b : Byte) : Bool := between ' ' '~' b && b != chr '"'

/-- A character of a name: A–Z, a–z, 0–9, space, `-` and `.`. -/
def isNameChar (b : Byte) : Bool :=
  isUpper b || between 'a' 'z' b || isDigit b || b == chr ' ' || b == chr '-' || b == chr '.'

/-- An uppercase hexadecimal character. -/
def isHex (b : Byte) : Bool := isDigit b || between 'A' 'F' b

/-- The characters up to the first `sep`, and what follows it, if it stands there. -/
def splitAt1 (sep : Byte) : Text → Text × Option Text
  | [] => ([], none)
  | b :: t =>
    if b == sep then ([], some t)
    else
      let r := splitAt1 sep t
      (b :: r.1, r.2)

/-- The runs between separators. -/
def splitAll (sep : Byte) : Text → List Text
  | [] => [[]]
  | b :: t =>
    match splitAll sep t with
    | [] => [[b]]
    | h :: r => if b == sep then [] :: h :: r else (b :: h) :: r

/-- The characters before the last `*`, and those after it (R190). -/
def splitLastStar : Text → Option (Text × Text)
  | [] => none
  | b :: t =>
    match splitLastStar t with
    | some (x, y) => some (b :: x, y)
    | none => if b == chr '*' then some ([], t) else none

/-- The arguments of a line after its word: each preceded by one space, plain or quoted (R209). R209's list of what is FAULT FORM names
no quoted argument that is closed: one of more than 160 characters, or with a character outside 0x20–0x7E, passes here and is the
owner's to refuse (DEDUCED, log 51). -/
def lexArgs : Nat → Text → Option (List Token)
  | _, [] => some []
  | 0, _ => none
  | fuel + 1, sp :: t =>
    if sp != chr ' ' then none
    else
      match t with
      | [] => none
      | q :: u =>
        if q == chr '"' then
          match splitAt1 (chr '"') u with
          | (_, none) => none
          | (x, some rest) => (lexArgs fuel rest).map (.quoted x :: ·)
        else
          let x := t.takeWhile (· != chr ' ')
          if x.isEmpty || !x.all isPlainChar then none
          else (lexArgs fuel (t.dropWhile (· != chr ' '))).map (.plain x :: ·)

/-- The tag of a line if it may be trusted (R192): the first two characters when both are tag characters and are not `??`. -/
def lineTag (line : Text) : Option Text :=
  let t := line.take 2
  if t.length = 2 && t.all isTagChar && t != ascii "??" then some t else none

/-- The word and arguments of a line body (the characters before the check mark), if it follows the grammar (R209). -/
def lexLine (body : Text) : Option (Text × List Token) :=
  match lineTag body, body.drop 2 with
  | some _, sp :: rest =>
    let w := rest.takeWhile (· != chr ' ')
    if sp != chr ' ' || !(2 ≤ w.length && w.length ≤ 12) || !w.all isUpper then none
    else (lexArgs rest.length (rest.dropWhile (· != chr ' '))).map fun a => (w, a)
  | _, _ => none

/-! ### Forms -/

/-- Number: decimal digits, at most 10. -/
def formNumber (t : Text) : Option Nat :=
  if t.isEmpty || 10 < t.length || !t.all isDigit then none
  else some (t.foldl (fun n b => n * 10 + (b.toNat - 48)) 0)

/-- Exactly `k` digits. -/
def formDigits (k : Nat) (t : Text) : Option Nat := if t.length = k then formNumber t else none

/-- Time hh:mm:ss; a time that does not exist gives `daySeconds`. -/
def formTime (t : Text) : Option SchoolTime :=
  match splitAll (chr ':') t with
  | [h, m, s] =>
    match formDigits 2 h, formDigits 2 m, formDigits 2 s with
    | some h, some m, some s => some (if h < 24 ∧ m < 60 ∧ s < 60 then h * 3600 + m * 60 + s else daySeconds)
    | _, _, _ => none
  | _ => none

/-- Time hh:mm, where a rule takes whole minutes. -/
def formMinutes (t : Text) : Option SchoolTime :=
  match splitAll (chr ':') t with
  | [h, m] =>
    match formDigits 2 h, formDigits 2 m with
    | some h, some m => some (if h < 24 ∧ m < 60 then h * 3600 + m * 60 else daySeconds)
    | _, _ => none
  | _ => none

/-- Date yyyy-mm-dd; a date that does not exist gives `dateCount`. -/
def formDate (t : Text) : Option Date :=
  match splitAll (chr '-') t with
  | [y, m, d] =>
    match formDigits 4 y, formDigits 2 m, formDigits 2 d with
    | some y, some m, some d => some (dateOf y m d)
    | _, _, _ => none
  | _ => none

/-- Word: uppercase letters, digits and `_`. -/
def formWord (t : Text) : Option Text :=
  if t.isEmpty || !t.all (fun b => isUpper b || isDigit b || b == chr '_') then none else some t

/-- The value a word names in a list, `some none` for another word, `none` for no word. -/
def formOneOf {α : Type} (l : List (String × α)) (t : Text) : Option (Option α) :=
  (formWord t).map fun w => (l.find? fun e => ascii e.1 == w).map (·.2)

/-- One member or range of a set, as its low and high end. -/
def formMember (t : Text) : Option (Nat × Nat) :=
  match splitAll (chr '-') t with
  | [a] => (formNumber a).map fun n => (n, n)
  | [a, b] =>
    match formNumber a, formNumber b with
    | some a, some b => if b < a then none else some (a, b)
    | _, _ => none
  | _ => none

/-- The members of a range. One that reaches past 255 is handed on as its high end, which lies in no set of the part. -/
def rangeMembers (r : Nat × Nat) : List Nat := if r.2 < 256 then List.range' r.1 (r.2 + 1 - r.1) else [r.2]

/-- Set: members and ranges joined by commas, no member twice, so no two of them meet (Formats and Pins); the word NONE for
the empty set (DESIGN CHOICE, log 9). -/
def formSet (t : Text) : Option (List Nat) :=
  if t == ascii "NONE" then some []
  else
    match (splitAll (chr ',') t).mapM formMember with
    | some l => if l.Pairwise fun r q => r.2 < q.1 ∨ q.2 < r.1 then some (l.flatMap rangeMembers) else none
    | none => none

/-- One entry of a contacts list, ID:TEXT or ID:VOICE. -/
def formContact (t : Text) : Option Contact :=
  match splitAll (chr ':') t with
  | [i, c] =>
    match formNumber i with
    | some i => if c == ascii "TEXT" then some ⟨i, .text⟩ else if c == ascii "VOICE" then some ⟨i, .voice⟩ else none
    | none => none
  | _ => none

/-- Contacts: entries joined by commas, or NONE. -/
def formContacts (t : Text) : Option (List Contact) :=
  if t == ascii "NONE" then some [] else (splitAll (chr ',') t).mapM formContact

/-- One step of a pattern. -/
def formStep (t : Text) : Option PatternStep :=
  match splitAll (chr ':') t with
  | [w] => if w == ascii "END" then some .stop else none
  | [w, a] =>
    match formNumber a with
    | some a => if w == ascii "REST" then some (.rest a) else if w == ascii "STRIKE" then some (.strike a) else none
    | none => none
  | [w, a, b] =>
    match formNumber a, formNumber b with
    | some a, some b => if w == ascii "LOOP" then some (.loop a b) else none
    | _, _ => none
  | [w, a, b, c] =>
    match formNumber a, formNumber b, formNumber c with
    | some a, some b, some c => if w == ascii "TONE" then some (.tone a b c) else none
    | _, _, _ => none
  | _ => none

/-- Steps joined by commas. -/
def formSteps (t : Text) : Option (List PatternStep) := (splitAll (chr ',') t).mapM formStep

/-- The value of one hexadecimal character. -/
def hexValue (b : Byte) : Nat := if isDigit b then b.toNat - 48 else b.toNat - 55

/-- An identity as 14 uppercase hexadecimal characters, two for each byte in line order (DESIGN CHOICE, log 9). -/
def formIdentity (t : Text) : Option Identity :=
  if t.length ≠ 14 || !t.all isHex then none
  else
    some
      ((List.range 7).foldl
        (fun (i : Identity) k =>
          i ||| (BitVec.ofNat 56 (hexValue (t.getD (2 * k) 0) * 16 + hexValue (t.getD (2 * k + 1) 0)) <<< (8 * k)))
        0)

/-- An entry of the weekday map: a bank number, or CLOSED (R33). -/
def formDayType (t : Text) : Option DayType :=
  if t == ascii "CLOSED" then some .closed else (formNumber t).map .school

/-! ### Positional and Named arguments -/

/-- The arguments of a request: those in place, then the Named ones (R209). -/
structure Args where
  pos : List Token
  named : List (Text × Text)
  deriving DecidableEq, Repr

/-- NAME and value of a Named argument. -/
def asNamed : Token → Option (Text × Text)
  | .quoted _ => none
  | .plain t =>
    match splitAt1 (chr '=') t with
    | (n, some v) => if n.isEmpty then none else some (n, v)
    | (_, none) => none

/-- Arguments in place first, Named ones after, each name at most once. -/
def splitArgs (l : List Token) : Option Args :=
  let pos := l.takeWhile fun t => (asNamed t).isNone
  match (l.drop pos.length).mapM asNamed with
  | some named => if (named.map (·.1)).Nodup then some ⟨pos, named⟩ else none
  | none => none

/-- Every Named argument bears one of the names the word takes. -/
def Args.onlyNames (names : List String) (a : Args) : Bool :=
  a.named.all fun e => (names.map ascii).contains e.1

/-- A Named argument read in its form: `none` where it is of the wrong form, `some none` where it is absent. -/
def Args.opt {α : Type} (name : String) (form : Text → Option α) (a : Args) : Option (Option α) :=
  match a.named.find? (·.1 == ascii name) with
  | none => some none
  | some e => (form e.2).map some

/-- A plain argument read in a form. -/
def Token.as {α : Type} (form : Text → Option α) : Token → Option α
  | .plain t => form t
  | .quoted _ => none

/-- A quoted argument. -/
def Token.text : Token → Option Text
  | .plain _ => none
  | .quoted t => some t

end Sys2Proof.Machine
end

