-- ==== Sys2Proof/Machine/Replies.lean ====
section
/-! DEFINITION. Replies: the words of the values, the text of a reply line (R192, R208, R209), pages and MORE (R192). The
names and places of reply values that no rule gives are the model's (DESIGN CHOICE, log 8). -/

namespace Sys2Proof.Machine

/-! ### Words -/

def Reason.word : Reason → String
  | .busy => "BUSY" | .unknown => "UNKNOWN" | .badValue => "BAD_VALUE" | .noSuch => "NO_SUCH"
  | .duplicate => "DUPLICATE" | .full => "FULL" | .overlap => "OVERLAP" | .dayNotOpen => "DAY_NOT_OPEN"
  | .dayOpen => "DAY_OPEN" | .wrongState => "WRONG_STATE" | .storeBusy => "STORE_BUSY" | .locked => "LOCKED"
  | .clockInvalid => "CLOCK_INVALID" | .notAllowed => "NOT_ALLOWED"

def FaultKind.word : FaultKind → String
  | .check => "CHECK" | .length => "LENGTH" | .form => "FORM"

def markWord : Mark → String
  | .unseen => "UNSEEN" | .present => "PRESENT" | .late => "LATE" | .lateAfterCut => "LATE_AFTER_CUT"
  | .expected => "EXPECTED" | .absentPending => "ABSENT_PENDING" | .absentAsked => "ABSENT_ASKED"
  | .absentUnreached => "ABSENT_UNREACHED" | .excused => "EXCUSED" | .arrivedExcused => "ARRIVED_EXCUSED"
  | .signedOut => "SIGNED_OUT"

def markSourceWord : MarkSource → String
  | .tap => "TAP" | .office => "OFFICE" | .sweep => "SWEEP" | .notice => "NOTICE" | .reply => "REPLY"
  | .away => "AWAY" | .closure => "CLOSURE"

def reasonWord : ExcuseReason → String
  | .ill => "ILL" | .appointment => "APPOINTMENT" | .family => "FAMILY" | .authorised => "AUTHORISED"
  | .closure => "CLOSURE"

def awaySourceWord : AwaySource → String
  | .office => "OFFICE" | .parent => "PARENT"

def areaWord : Area → String
  | .settings => "SETTINGS" | .limits => "LIMITS" | .plans => "PLANS" | .patterns => "PATTERNS"
  | .calendar => "CALENDAR" | .texts => "TEXTS" | .roster => "ROSTER" | .away => "AWAY" | .terminals => "TERMINALS"

def areaNumber : Area → Nat
  | .settings => 0 | .limits => 1 | .plans => 2 | .patterns => 3 | .calendar => 4 | .texts => 5 | .roster => 6
  | .away => 7 | .terminals => 8

def selectWord : Select → String
  | .normal => "NORMAL" | .alternate => "ALTERNATE"

def noticeKindWord : NoticeKind → String
  | .absent => "ABSENT" | .late => "LATE" | .arrived => "ARRIVED" | .general => "GENERAL" | .closure => "CLOSURE"

def verdictWord : Verdict → String
  | .onTime => "ON_TIME" | .lateGoToClass => "LATE_GO_TO_CLASS" | .lateReportOffice => "LATE_REPORT_OFFICE"
  | .alreadyIn => "ALREADY_IN" | .welcomeBack => "WELCOME_BACK" | .seeOffice => "SEE_OFFICE"
  | .unknownCard => "UNKNOWN_CARD" | .dayClosed => "DAY_CLOSED"

def outcomeWord : ChimeOutcome → String
  | .none_ => "NONE" | .waiting => "WAITING" | .playing => "PLAYING" | .played => "PLAYED"
  | .playedLate => "PLAYED_LATE" | .silenced => "SILENCED" | .preempted => "PREEMPTED" | .cutShort => "CUT_SHORT"
  | .dropped => "DROPPED"

def onOff (b : Bool) : Item := .word (if b then "ON" else "OFF")
def yesNo (b : Bool) : Item := .word (if b then "YES" else "NO")
def groupItem (g : Group) : Item := .word (match g with | .a => "A" | .b => "B")

/-! ### Text of values -/

/-- Decimal digits. -/
def decimal (n : Nat) : Text := (Nat.toDigits 10 n).map chr

/-- Decimal digits, at least `k` of them. -/
def padded (k n : Nat) : Text := List.replicate (k - (decimal n).length) (chr '0') ++ decimal n

/-- One uppercase hexadecimal character. -/
def hexChar (n : Nat) : Byte := if n < 10 then BitVec.ofNat 8 (48 + n) else BitVec.ofNat 8 (55 + n)

/-- A byte as two uppercase hexadecimal characters. -/
def hexByte (b : Byte) : Text := [hexChar (b.toNat / 16), hexChar (b.toNat % 16)]

/-- hh:mm. -/
def minutesText (t : SchoolTime) : Text := padded 2 (t / 3600) ++ chr ':' :: padded 2 (t / 60 % 60)

/-- hh:mm:ss. -/
def timeText (t : SchoolTime) : Text := minutesText t ++ chr ':' :: padded 2 (t % 60)

/-- yyyy-mm-dd. -/
def dateText (d : Date) : Text :=
  let x := yearMonthDay d
  padded 4 x.1 ++ chr '-' :: padded 2 x.2.1 ++ chr '-' :: padded 2 x.2.2

/-- Texts joined by a separator. -/
def joined (sep : Char) : List Text → Text
  | [] => []
  | [t] => t
  | t :: u :: r => t ++ chr sep :: joined sep (u :: r)

/-- Rising members as (low, high) ranges. -/
def rangesOf : List Nat → List (Nat × Nat)
  | [] => []
  | n :: t =>
    match rangesOf t with
    | (lo, hi) :: r => if lo = n + 1 then (n, hi) :: r else (n, n) :: (lo, hi) :: r
    | [] => [(n, n)]

/-- A set as members and ranges; NONE when empty (log 8). -/
def setText (l : List Nat) : Text :=
  if l.isEmpty then ascii "NONE"
  else joined ',' ((rangesOf l).map fun r => if r.1 = r.2 then decimal r.1 else decimal r.1 ++ chr '-' :: decimal r.2)

/-- Contacts. -/
def contactsText (l : List Contact) : Text :=
  if l.isEmpty then ascii "NONE"
  else
    joined ','
      (l.map fun c => decimal c.id ++ ascii (match c.channel with | .text => ":TEXT" | .voice => ":VOICE"))

/-- A step of a pattern. -/
def stepText : PatternStep → Text
  | .tone p l v => joined ':' [ascii "TONE", decimal p, decimal l, decimal v]
  | .rest l => joined ':' [ascii "REST", decimal l]
  | .strike w => joined ':' [ascii "STRIKE", decimal w]
  | .loop b c => joined ':' [ascii "LOOP", decimal b, decimal c]
  | .stop => ascii "END"

/-- The characters of a value. -/
def itemText : Item → Text
  | .num n => decimal n
  | .time t => timeText t
  | .minutes t => minutesText t
  | .date d => dateText d
  | .word w => ascii w
  | .set l => setText l
  | .contacts l => contactsText l
  | .step s => stepText s
  | .quoted t => chr '"' :: t ++ [chr '"']
  | .hex t => t.flatMap hexByte
  | .identity i => (identityBytes i).flatMap hexByte
  | .plain t => t
  | .named n v => ascii n ++ chr '=' :: itemText v

/-- Values each preceded by one space. -/
def itemsText (l : List Item) : Text := l.flatMap fun i => chr ' ' :: itemText i

/-- The reply word and what follows it. -/
def replyBody : Reply → Text
  | .ok l => ascii "OK" ++ itemsText l
  | .started l => ascii "STARTED" ++ itemsText l
  | .refused r => ascii "REFUSED " ++ ascii r.word
  | .fault f => ascii "FAULT " ++ ascii f.word

/-- A check as four uppercase hexadecimal characters, most significant first (R208). -/
def checkText (t : Text) : Text :=
  let c := check16 t
  hexByte ((c >>> 8).setWidth 8) ++ hexByte (c.setWidth 8)

/-- A reply line: tag, space, reply, `*`, the check over the tag through the `*`, CR (R192). -/
def replyLine (r : TaggedReply) : Text :=
  let body := r.tag ++ chr ' ' :: replyBody r.reply ++ [chr '*']
  body ++ checkText body ++ [0x0D#8]

/-! ### Pages (R192) -/

/-- An OK reply with these values is at most 250 characters with its tag, check and CR. -/
def fits (l : List Item) : Bool := 11 + (itemsText l).length ≤ 250

/-- The largest `n ≤ k` that passes, else 0. -/
def largest (ok : Nat → Bool) : Nat → Nat
  | 0 => 0
  | n + 1 => if ok (n + 1) then n + 1 else largest ok n

/-- Values cut after the last whole one that fits in the line with what stands behind them. -/
def cutTo (l tail : List Item) : List Item := l.take (largest (fun n => fits (l.take n ++ tail)) l.length) ++ tail

/-- A page: the head, as many entries as fit up to `limit`, and what names the first entry left out (or END). No rule says how
a head is cut that alone is longer than a line, as NOTICES' summary is with a send some hours old: it ends after its last whole
value that fits, no entry follows, and the next page begins with the first entry (DESIGN CHOICE, log 45). -/
def pageItems {α : Type} (limit : Nat) (head : List Item) (show_ : α → List Item) (next : Option α → List Item)
    (l : List α) : List Item :=
  let page := fun n => head ++ (l.take n).flatMap show_ ++ next (l.drop n).head?
  let n := largest (fun n => fits (page n)) (min limit l.length)
  if fits (page n) then page n else cutTo head (next l.head?)

/-- A reply without pages: its items from `start` on, with MORE when not all fit (log 10). No rule bounds FROM: past the last
item the reply is OK with no items (DESIGN CHOICE, log 39). -/
def moreItems (start : Nat) (items : List (List Item)) : List Item :=
  let rest := items.drop start
  let part := fun n =>
    (rest.take n).flatten ++ (if n < rest.length then [Item.named "MORE" (.num (start + n))] else [])
  part (largest (fun n => fits (part n)) rest.length)

/-- An optional value as a Named item. -/
def optItem {α : Type} (name : String) (f : α → Item) : Option α → List Item
  | none => []
  | some a => [.named name (f a)]

end Sys2Proof.Machine
end

