-- ==== Sys2Proof/Machine/Chimes.lean ====
section
/-! DEFINITION. The Chime Unit and the Zone Driver: patterns and channels (R73–R77), the zone arbiter (R78–R81), the Bell
Wait List (R82, R83), reports (R67, R84), outputs (R86–R88), quiet inputs and mutes (R89, R90). -/

namespace Sys2Proof.Machine

/-! ### Zones, quiet and mute -/

/-- The zones (00_scope.md, Identifiers). -/
def allZones : List Nat := [1, 2, 3, 4, 5, 6]

/-- The group of a zone under a zone-group setting. -/
def groupOfZone (l : List Group) (z : Nat) : Group := l.getD (z - 1) .a

/-- A quiet input is active while its latched level equals its quiet active level (R89). -/
def quietInputActive (i : QuietInput) (s : State) : Bool :=
  match i with
  | .qa => s.zone.quietLatch.qa == s.settings.quietLevel.qa
  | .qb => s.zone.quietLatch.qb == s.settings.quietLevel.qb

/-- The quiet mask of an input. -/
def quietMaskOf (i : QuietInput) (s : State) : List Nat :=
  match i with
  | .qa => s.settings.quietMask.qa
  | .qb => s.settings.quietMask.qb

/-- An input holds a zone quiet. -/
def quietBy (i : QuietInput) (z : Nat) (s : State) : Bool := quietInputActive i s && (quietMaskOf i s).contains z

/-- A zone is quiet while it is in the quiet mask of an active input (R89). -/
def zoneQuiet (z : Nat) (s : State) : Bool := quietBy .qa z s || quietBy .qb z s

/-- A zone is muted while its mute is set (R91). -/
def zoneMuted (z : Nat) (s : State) : Bool := s.zone.mutes.getD (z - 1) false

/-- A zone silent for ordinary bells. -/
def zoneSilent (z : Nat) (s : State) : Bool := zoneQuiet z s || zoneMuted z s

/-- The effective zones of a request (R78, step 2; R92). -/
def effectiveZones (mask : List Nat) (priority : Nat) (s : State) : List Nat :=
  if overridePriority ≤ priority then mask else mask.filter (!zoneSilent · s)

/-! ### Reports (R67, R84) -/

/-- A final outcome (R67, R78). -/
def ChimeOutcome.isFinal : ChimeOutcome → Bool
  | .none_ | .waiting | .playing => false
  | _ => true

/-- The outcomes for which the Plan Engine raises BELL (R67). -/
def ChimeOutcome.isBad : ChimeOutcome → Bool
  | .preempted | .cutShort | .dropped => true
  | _ => false

/-- An outcome written into an entry of Today's Plan, if the report's copy stands (R67). -/
def writeOutcome (copy index : Nat) (o : ChimeOutcome) (s : State) : State :=
  if copy ≠ s.plan.today.copyNumber then s
  else
    let s' :=
      { s with
        plan :=
          { s.plan with
            today :=
              { s.plan.today with entries := s.plan.today.entries.modify index fun e => { e with outcome := o } } } }
    if o.isBad then raise .bell (some (.entry index)) s' else s'

/-- A change of a request's outcome, reported to its origin (R84). -/
def report (origin : Origin) (p : PatternRef) (o : ChimeOutcome) (s : State) : State :=
  match origin with
  | .plan copy index => writeOutcome copy index o s
  | .office => if o.isFinal then { s with chime := { s.chime with lastOffice := some ⟨p, o⟩ } } else s
  | .button _ => if o.isFinal then { s with chime := { s.chime with lastButton := some ⟨p, o⟩ } } else s

/-! ### Channels -/

/-- A channel by number. -/
def channelAt (n : Nat) (s : State) : ToneChannel := s.chime.channels.getD n .idle

/-- A channel put in place. -/
def setChannel (n : Nat) (c : ToneChannel) (s : State) : State :=
  { s with chime := { s.chime with channels := s.chime.channels.set n c } }

/-- The steps of the held strike (R94): one STRIKE with no fixed width, held as width 0, which no step of the table has (R73;
log 19). -/
def heldStrikeSteps : List PatternStep := [.strike 0]

/-- The steps a pattern holds now. -/
def stepsOf (p : PatternRef) (s : State) : List PatternStep :=
  match p with
  | .table n => s.chime.patterns.getD n []
  | .heldStrike => heldStrikeSteps

/-- The pattern is empty now; the held strike is never empty (R94). -/
def patternEmpty (p : PatternRef) (s : State) : Bool := (stepsOf p s).isEmpty

/-- The channel holds a group. -/
def ToneChannel.holds (g : Group) (c : ToneChannel) : Bool := c.state ≠ .idle && c.groups.contains g

/-- The awake-since time of a group, found anew: kept while a channel holds the group, taken now when it begins to be held,
absent when none does (R87). -/
def awakeNow (g : Group) (old : Option RunTime) (s : State) : Option RunTime :=
  if s.chime.channels.any (·.holds g) then some (old.getD s.time.running) else none

/-- The wake outputs found anew. -/
def updateWake (s : State) : State :=
  { s with zone := { s.zone with awake := ⟨awakeNow .a s.zone.awake.a s, awakeNow .b s.zone.awake.b s⟩ } }

/-- The awake-since time of a group. -/
def awakeOf (g : Group) (s : State) : Option RunTime :=
  match g with
  | .a => s.zone.awake.a
  | .b => s.zone.awake.b

/-- The running time at which WAKING may end: every group of the channel awake for the lead time in force (R76). -/
def wakingEndAt (c : ToneChannel) (s : State) : RunTime :=
  c.groups.foldl (fun t g => max t ((awakeOf g s).getD s.time.running + s.settings.lead * second)) 0

/-- Play from step `i`, steps without duration passed at once (R73, R77): the channel, and whether its pattern ended. A
LOOP is followed by a step that takes time or ends the pattern, so the fuel does not run out on a pattern of R74. -/
def playSteps (now : RunTime) : Nat → Nat → ToneChannel → ToneChannel × Bool
  | 0, _, c => (c, true)
  | fuel + 1, i, c =>
    match c.steps[i]? with
    | none => (c, true)
    | some .stop => (c, true)
    | some (.tone _ l _) => ({ c with step := some i, stepEnd := some (.timed (now + l)), passTimed := true }, false)
    | some (.rest l) => ({ c with step := some i, stepEnd := some (.timed (now + l)), passTimed := true }, false)
    | some (.strike w) => ({ c with step := some i, stepEnd := some (.timed (now + w)), passTimed := true }, false)
    | some (.loop back count) =>
      let k := c.loopCounter.getD count
      if 0 < k then playSteps now fuel back { c with loopCounter := some (k - 1) }
      else playSteps now fuel (i + 1) { c with loopCounter := none }

/-- A channel that gives up its zones and tails: its tail end is the present running time plus the tail time (R77, R81). -/
def ToneChannel.tailing (s : State) (c : ToneChannel) : ToneChannel :=
  { c with
    state := .tailing, zones := [], step := none, stepEnd := none, loopCounter := none,
    tailEnd := some (s.time.running + s.settings.tail * second) }

/-- The request of a channel ends with an outcome, reported; the channel releases its zones and tails (R77, R81). -/
def endRequest (n : Nat) (o : ChimeOutcome) (s : State) : State :=
  let c := channelAt n s
  let s' := setChannel n (c.tailing s) s
  match c.origin, c.pattern with
  | some origin, some p => report origin p o s'
  | _, _ => s'

/-- The pattern of a channel ends (R77): PLAYED, or PLAYED_LATE with the late flag. -/
def endPattern (n : Nat) (s : State) : State :=
  endRequest n (if (channelAt n s).late then .playedLate else .played) s

/-- A stop (R81): PREEMPTED or CUT_SHORT. -/
def stopChannel (n : Nat) (o : ChimeOutcome) (s : State) : State := endRequest n o s

/-- Enough steps for any run of steps without duration. -/
def playFuel : Nat := 64

/-- Channel `n` plays from step `i`; at the pattern's end a GATE request whose ending is not marked and whose pass took
time goes back to step 0 (R95), and any other request ends. -/
def playFrom (n i : Nat) (s : State) : State :=
  let r := playSteps s.time.running playFuel i (channelAt n s)
  if !r.2 then setChannel n r.1 s
  else if r.1.gate && !r.1.gateEnding && r.1.passTimed then
    let again := playSteps s.time.running playFuel 0 { r.1 with loopCounter := none, passTimed := false }
    if !again.2 then setChannel n again.1 s else endPattern n (setChannel n again.1 s)
  else endPattern n (setChannel n r.1 s)

/-- The test that ends WAKING (R76): when every group of the channel has been awake for the lead time, it becomes PLAYING
at step 0. The step of the held strike ends at the release (R94). -/
def wakingTest (n : Nat) (s : State) : State :=
  let c := channelAt n s
  if c.state = .waking ∧ c.groups.all (fun g => (awakeOf g s).isSome) ∧ wakingEndAt c s ≤ s.time.running then
    let c' := { c with state := .playing, step := some 0 }
    if c.pattern = some .heldStrike then setChannel n { c' with stepEnd := some .atRelease } s
    else playFrom n 0 (setChannel n c' s)
  else s

/-- A TONE step. -/
def isToneStep : PatternStep → Bool
  | .tone .. => true
  | _ => false

/-- The channel a request starts as (R76). -/
def startedChannel (r : ChimeRequest) (zones : List Nat) (s : State) : ToneChannel :=
  let steps := stepsOf r.pattern s
  { ToneChannel.idle with
    state := .waking
    pattern := some r.pattern
    steps := steps
    priority := some r.priority
    origin := some r.origin
    late := r.late
    zones := zones
    groups :=
      if steps.any isToneStep then
        [Group.a, .b].filter fun g => zones.any fun z => groupOfZone s.settings.zoneGroup z = g
      else []
    zoneGroups := s.settings.zoneGroup
    gate := r.gate }

/-- A request starts on channel `n` with its effective zones (R76). -/
def startOn (n : Nat) (r : ChimeRequest) (zones : List Nat) (s : State) : State :=
  wakingTest n (updateWake (report r.origin r.pattern .playing (setChannel n (startedChannel r zones s) s)))

/-! ### The arbiter (R80) -/

/-- The channels by number. -/
def channelNumbers : List Nat := [0, 1, 2, 3]

/-- The conflicting channels of a zone set. -/
def conflicting (zones : List Nat) (s : State) : List Nat :=
  channelNumbers.filter fun n => (channelAt n s).zones.any zones.contains

/-- A channel's priority for the choice; a TAILING channel counts as 0 (R80). -/
def choicePriority (n : Nat) (s : State) : Nat :=
  let c := channelAt n s
  if c.state = .tailing then 0 else c.priority.getD 0

/-- The channel of lowest priority among some, ties to the lowest-numbered. -/
def lowestOf (s : State) : List Nat → Option Nat
  | [] => none
  | n :: t =>
    match lowestOf s t with
    | none => some n
    | some m => if choicePriority m s < choicePriority n s then some m else some n

/-- The lowest-numbered IDLE channel. -/
def idleChannel (s : State) : Option Nat := channelNumbers.find? fun n => (channelAt n s).state = .idle

/-- The channel a request is given (R80), if it can start. -/
def chosenChannel (priority : Nat) (zones : List Nat) (s : State) : Option Nat :=
  let cs := conflicting zones s
  if cs.all (fun n => choicePriority n s < priority) then
    match idleChannel s with
    | some n => some n
    | none =>
      if cs.isEmpty then
        match lowestOf s channelNumbers with
        | some n => if choicePriority n s < priority then some n else none
        | none => none
      else lowestOf s cs
  else none

/-- The channels whose requests a preemption on channel `n` stops: the conflicting ones, and `n` if it holds a request. They
stop and report in order of channel number (DESIGN CHOICE, log 40). -/
def preempted (n : Nat) (zones : List Nat) (s : State) : List Nat :=
  channelNumbers.filter fun m =>
    (conflicting zones s).contains m || (m = n && ((channelAt m s).state = .waking || (channelAt m s).state = .playing))

/-- A channel released zones: it is not playing a request any more. -/
def stillOwns (n : Nat) (s : State) : Bool := !(channelAt n s).zones.isEmpty

/-- The trial of R80: the state with the request started, its channel, and whether zones were released; `none` if it
cannot start. -/
def tryRequest (r : ChimeRequest) (zones : List Nat) (s : State) : Option (State × Nat × Bool) :=
  match chosenChannel r.priority zones s with
  | none => none
  | some n =>
    let stops := preempted n zones s
    let s' := startOn n r zones (stops.foldl (fun s m => stopChannel m .preempted s) s)
    some (s', n, !stops.isEmpty || !stillOwns n s')

/-! ### The Bell Wait List (R82, R83) -/

/-- One pass of an examination over the entries, head first: those kept, the state, whether zones were released. -/
def examineEntries : List WaitEntry → State → List WaitEntry × State × Bool
  | [], s => ([], s, false)
  | e :: t, s =>
    if patternEmpty e.request.pattern s then examineEntries t (report e.request.origin e.request.pattern .dropped s)
    else
      let zones := effectiveZones e.request.mask e.request.priority s
      match if zones.isEmpty then none else tryRequest e.request zones s with
      | none =>
        let r := examineEntries t s
        (e :: r.1, r.2)
      | some (s', _, released) =>
        let r := examineEntries t s'
        (r.1, r.2.1, released || r.2.2)

/-- The Wait List put in place. -/
def setWaits (l : List WaitEntry) (s : State) : State := { s with chime := { s.chime with waits := l } }

/-- The examination (R83), made again while it released zones itself. Each further pass follows a start, so nine passes
are enough for a list of eight. -/
def examineFuel : Nat → State → State
  | 0, s => s
  | fuel + 1, s =>
    let r := examineEntries s.chime.waits s
    let s' := setWaits r.1 r.2.1
    if r.2.2 then examineFuel fuel s' else s'

/-- The examination of the Bell Wait List. -/
def examine (s : State) : State := examineFuel (waitListLimit + 1) s

/-- The examination that follows a change which released zones. -/
def examineIf (released : Bool) (s : State) : State := if released then examine s else s

/-- Placement in order of priority, after the entries of equal priority (R82). -/
def insertWait (e : WaitEntry) : List WaitEntry → List WaitEntry
  | [] => [e]
  | h :: t => if h.request.priority < e.request.priority then e :: h :: t else h :: insertWait e t

/-- What the Chime Unit decided about a request (R78, R96). -/
inductive ChimeDecision where
  | playing (channel : Nat)
  | waiting (place : Nat)
  | silenced
  | dropped
  deriving DecidableEq, Repr

/-- A request that cannot start goes to the Wait List (R82). -/
def joinWait (r : ChimeRequest) (s : State) : State × ChimeDecision :=
  let e : WaitEntry := ⟨r, s.time.running + s.settings.waitLimit * second⟩
  let place := (s.chime.waits.filter fun w => r.priority ≤ w.request.priority).length + 1
  if s.chime.waits.length < waitListLimit then
    (report r.origin r.pattern .waiting (setWaits (insertWait e s.chime.waits) s), .waiting place)
  else
    match s.chime.waits.getLast? with
    | none => (report r.origin r.pattern .dropped s, .dropped)
    | some last =>
      if last.request.priority < r.priority then
        let s' := report last.request.origin last.request.pattern .dropped s
        (report r.origin r.pattern .waiting (setWaits (insertWait e s.chime.waits.dropLast) s'), .waiting place)
      else (report r.origin r.pattern .dropped s, .dropped)

/-- The decision on a chime request, in one change (R78). -/
def decideRequest (r : ChimeRequest) (s : State) : State × ChimeDecision :=
  if patternEmpty r.pattern s then (report r.origin r.pattern .dropped s, .dropped)
  else
    let zones := effectiveZones r.mask r.priority s
    if zones.isEmpty then (report r.origin r.pattern .silenced s, .silenced)
    else
      match tryRequest r zones s with
      | some (s', n, released) => (examineIf released s', .playing n)
      | none => joinWait r s

/-! ### Quiet inputs, mutes and stops -/

/-- Channel `n` gives up the zones that are silent now (R90): an ordinary WAKING or PLAYING channel drops them, drops the
groups they leave without a zone, and is cut short when none is left. The second part says whether it released a zone. -/
def releaseSilent (n : Nat) (s : State) : State × Bool :=
  let c := channelAt n s
  let keep := c.zones.filter (!zoneSilent · s)
  if (c.state = .waking ∨ c.state = .playing) ∧ c.priority.getD 0 < overridePriority ∧ keep ≠ c.zones then
    let c' := { c with zones := keep, groups := c.groups.filter fun g => keep.any fun z => groupOfZone c.zoneGroups z = g }
    let s' := setChannel n c' s
    (if keep.isEmpty then updateWake (stopChannel n .cutShort s') else updateWake (wakingTest n (updateWake s')), true)
  else (s, false)

/-- Every channel gives up the zones that are silent now. The channels act and report in order of channel number (DESIGN
CHOICE, log 40). -/
def releaseAllSilent (s : State) : State × Bool :=
  channelNumbers.foldl (fun r n => let x := releaseSilent n r.1; (x.1, x.2 || r.2)) (s, false)

/-- The quiet set or the mutes have changed from what they were in `old` (R89–R91): zones that became silent are taken from
ordinary channels; when a zone was released, or stopped being quiet or muted, the Wait List is examined. -/
def silenceChanged (old s : State) : State :=
  let r := releaseAllSilent s
  let lifted := allZones.any fun z => (zoneQuiet z old && !zoneQuiet z s) || (zoneMuted z old && !zoneMuted z s)
  examineIf (r.2 || lifted) r.1

/-- The tail of a channel ends: it becomes IDLE and the Wait List is examined (R77, R83, R87). -/
def tailEnds (n : Nat) (s : State) : State := examine (updateWake (setChannel n .idle s))

/-- HUSH ALL and the warm start drop every waiting request (R97). -/
def dropWaits (s : State) : State :=
  s.chime.waits.foldl (fun s e => report e.request.origin e.request.pattern .dropped s) (setWaits [] s)

/-! ### The bell button (R93–R95) -/

/-- A priority of the override band is requested as 11 unless LIMITS allows override (R59, R92). -/
def allowedPriority (p : Nat) (s : State) : Nat :=
  if overridePriority ≤ p ∧ ¬s.limits.override then 11 else p

/-- A press that makes a request (R93–R95). -/
def buttonRequest (p : PatternRef) (gate : Bool) (s : State) : State :=
  let press := s.zone.press + 1
  let s' := { s with zone := { s.zone with press := press } }
  (decideRequest
    ⟨p, s.settings.buttonZones, allowedPriority s.settings.buttonPrio s, .button press, false, gate⟩ s').1

/-- A request of the latest press that a release can end: the held strike or a GATE request (R94, R95). -/
def ChimeRequest.isLatestHeld (s : State) (r : ChimeRequest) : Bool :=
  r.origin = .button s.zone.press && (r.pattern = .heldStrike || r.gate)

/-- The release as it acts on one channel (R94, R95). -/
def releaseChannel (n : Nat) (s : State) : State × Bool :=
  let c := channelAt n s
  if c.origin = some (.button s.zone.press) ∧ (c.state = .waking ∨ c.state = .playing) then
    if c.pattern = some .heldStrike then (updateWake (endPattern n s), true)
    else if c.gate then (setChannel n { c with gateEnding := true } s, false)
    else (s, false)
  else (s, false)

/-- The end of the hold of the latest press: by its release, or by a SET of the button mode (R93). -/
def releaseButton (s : State) : State :=
  let gone := s.chime.waits.filter fun e => e.request.isLatestHeld s
  let s1 := setWaits (s.chime.waits.filter fun e => !e.request.isLatestHeld s) s
  let s2 := gone.foldl (fun s e => report e.request.origin e.request.pattern .dropped s) s1
  let r := channelNumbers.foldl (fun r n => let x := releaseChannel n r.1; (x.1, x.2 || r.2)) (s2, false)
  examineIf r.2 r.1

/-! ### Outputs (R86–R88, R206) -/

/-- The step a PLAYING channel is at. -/
def ToneChannel.current (c : ToneChannel) : Option PatternStep :=
  if c.state = .playing then c.step.bind (c.steps[·]?) else none

/-- A channel drives the relays of its zones: a STRIKE step, or the held strike (R86). -/
def ToneChannel.strikes (c : ToneChannel) : Bool :=
  c.state = .playing &&
    (c.pattern = some .heldStrike ||
      match c.current with
      | some (.strike _) => true
      | _ => false)

/-- A zone's relay is active (R86). -/
def relayActive (z : Nat) (s : State) : Bool :=
  !s.power.held && s.chime.channels.any fun c => c.strikes && c.zones.contains z

/-- The level a relay pin is driven to, true for high (R86). -/
def relayPin (z : Nat) (s : State) : Bool :=
  relayActive z s == decide (s.settings.relayPol.getD (z - 1) .activeHigh = .activeHigh)

/-- A group's wake output is active (R87). -/
def wakeActive (g : Group) (s : State) : Bool := !s.power.held && (awakeOf g s).isSome

/-- The level a wake pin is driven to, true for high (R87). -/
def wakePin (g : Group) (s : State) : Bool :=
  wakeActive g s ==
    decide ((match g with | .a => s.settings.wakePol.a | .b => s.settings.wakePol.b) = .activeHigh)

/-- The tones a group's audio output carries, as (pitch, level) (R88). -/
def groupTones (g : Group) (s : State) : List (Nat × Nat) :=
  if s.power.held then []
  else
    s.chime.channels.filterMap fun c =>
      match c.current with
      | some (.tone p _ l) => if c.groups.contains g then some (p, l) else none
      | _ => none

/-- The mixed level of a group, held at most 15 (R88). -/
def mixedLevel (g : Group) (s : State) : Nat := min 15 ((groupTones g s).map (·.2)).sum

/-- A group's volume. -/
def volumeOf (g : Group) (s : State) : Nat :=
  match g with
  | .a => s.settings.groupVolume.a
  | .b => s.settings.groupVolume.b

/-- A group's volume ceiling. -/
def ceilingOf (g : Group) (s : State) : Nat :=
  match g with
  | .a => s.limits.ceiling.a
  | .b => s.limits.ceiling.b

/-- The effective volume: group volume or ceiling, whichever is lower (R88). -/
def effectiveVolume (g : Group) (s : State) : Nat := min (volumeOf g s) (ceilingOf g s)

end Sys2Proof.Machine
end

