-- ==== Sys2Proof/Machine/Sends.lean ====
section
/-! DEFINITION. The Notice Dispatcher's own work: holds (R157, R159), the choice and the send (R160, R161, R170), results
of sends (R164, R165, R168, R171), the ARRIVED correction (R136), deadlines (R166, R167). -/

namespace Sys2Proof.Machine

/-! ### Holds and candidates -/

/-- Sending is allowed while the link is UP and no busy pause runs (R159). -/
def sendingAllowed (s : State) : Bool := s.gateway.link = .up && s.notices.busyEnd.isNone

/-- A notice is held: class 1–7 by the global hold, class 1–6 by an open quiet window (R157). -/
def noticeHeld (n : Notice) (s : State) : Bool :=
  (s.notices.globalHold && 1 ≤ n.cls && n.cls ≤ 7) || (s.notices.quietEnd.isSome && 1 ≤ n.cls && n.cls ≤ 6)

/-- The contacts list a slot's record holds; an EMPTY slot has none. -/
def contactsAt (slot : Slot) (s : State) : List Contact := ((pupilAt slot s).map (·.enrolment.contacts)).getD []

/-- The next step at a broadcast's cursor (R170), walking forward over the roster. -/
def nextStep (b : BroadcastState) : List (Slot × Pupil) → Option (Slot × Nat)
  | [] => none
  | (slot, p) :: t =>
    let position := if slot = b.cursorSlot then b.cursorPosition else 0
    if b.cursorSlot ≤ slot ∧ b.mask.contains p.enrolment.cohort ∧ position < p.enrolment.contacts.length ∧
        (b.reach = .all ∨ position = 0) then
      some (slot, position)
    else nextStep b t

/-- A broadcast has a send left (R170). -/
def sendLeft (n : Notice) (b : BroadcastState) (s : State) : Bool :=
  !n.cancel && !b.expired && (!b.returned.isEmpty || (nextStep b s.roll.roster).isSome)

/-- A candidate of the choice (R160). -/
def isCandidate (s : State) (n : Notice) : Bool :=
  !noticeHeld n s && n.cls ≠ 0 &&
    match n.addressee with
    | .pupil _ _ => !n.inWindow
    | .broadcast b => sendLeft n b s

/-- The first notice ranks above the second: higher class, earlier created time, lower number (R160). -/
def ranksAbove (m n : Notice) : Bool :=
  n.cls < m.cls ||
    (n.cls = m.cls &&
      (m.createdDate < n.createdDate ||
        (m.createdDate = n.createdDate &&
          (m.createdTime < n.createdTime || (m.createdTime = n.createdTime && m.number < n.number)))))

/-- The highest-ranked candidate. -/
def bestCandidate (s : State) : List Notice → Option Notice
  | [] => none
  | n :: t =>
    match bestCandidate s t with
    | none => if isCandidate s n then some n else none
    | some m => if isCandidate s n && ranksAbove n m then some n else some m

/-! ### Sending -/

/-- The text a notice's send carries: the text its slot holds at the send, empty for the day kinds (R161, R172). -/
def sendText (n : Notice) (s : State) : Text :=
  match n.textSlot with
  | none => []
  | some k => s.notices.texts.getD k []

/-- A send joins the window and one SEND record is issued (R161). -/
def issueSend (n : Notice) (slot : Slot) (position : Nat) (p : Pupil) (c : Contact) (s : State) : State :=
  let key : SendKey := ⟨n.number, slot, position⟩
  let arrival := if n.kind = .late ∨ n.kind = .arrived then p.day.arrival else none
  let frame := Frame.send ⟨key, n.kind, p.enrolment.reference, c.id, c.channel, arrival, sendText n s⟩
  { s with
    notices := { s.notices with window := s.notices.window ++ [⟨key, s.time.running, .awaitTake⟩] }
    gateway := { s.gateway with outbound := s.gateway.outbound ++ [frame] } }

/-- A pupil notice is exhausted (R164): removed, and its kind acts. -/
def exhaust (n : Notice) (slot : Slot) (s : State) : State :=
  let s' := removeNotice n.number s
  if n.kind = .absent then makeUnreached .notice slot s' else raise .unreached (some (.notice n.number)) s'

/-- A chosen pupil notice is sent, or exhausted at its send (R161). -/
def sendPupilNotice (n : Notice) (slot : Slot) (position : Nat) (s : State) : State :=
  match pupilAt slot s with
  | none => exhaust n slot s
  | some p =>
    match p.enrolment.contacts[position]? with
    | none => exhaust n slot s
    | some c => issueSend n slot position p c (updateNotice n.number (fun x => { x with inWindow := true }) s)

/-- A broadcast's own state changed. -/
def updateBroadcast (number : Nat) (f : BroadcastState → BroadcastState) (s : State) : State :=
  updateNotice number
    (fun x =>
      match x.addressee with
      | .broadcast b => { x with addressee := .broadcast (f b) }
      | .pupil _ _ => x)
    s

/-- The cursor just past a step (R170). Under ALL it holds the step's slot and the next position, past the list's last contact too; after
position 2, and under FIRST, the next slot and position 0 (DESIGN CHOICE, log 52). -/
def pastStep (b : BroadcastState) (slot : Slot) (position : Nat) : BroadcastState :=
  if b.reach = .all ∧ position < 2 then { b with cursorSlot := slot, cursorPosition := position + 1 }
  else { b with cursorSlot := slot + 1, cursorPosition := 0 }

/-- A broadcast's step is sent: the sent count rises by one (R170). -/
def sendStep (n : Notice) (slot : Slot) (position : Nat) (s : State) : State :=
  match pupilAt slot s with
  | none => s
  | some p =>
    match p.enrolment.contacts[position]? with
    | none => s
    | some c =>
      issueSend n slot position p c (updateBroadcast n.number (fun b => { b with sent := satInc b.sent }) s)

/-- A chosen broadcast: its oldest returned step, dropped if it names no contact now, else its next step (R170). -/
def sendBroadcast (n : Notice) (b : BroadcastState) (s : State) : State :=
  match b.returned with
  | (slot, position) :: rest => sendStep n slot position (updateBroadcast n.number (fun b => { b with returned := rest }) s)
  | [] =>
    match nextStep b s.roll.roster with
    | none => s
    | some (slot, position) =>
      sendStep n slot position (updateBroadcast n.number (fun b => pastStep b slot position) s)

/-! ### The end of a broadcast (R171) -/

/-- A send of the notice stands in the window. -/
def hasSend (number : Nat) (s : State) : Bool := s.notices.window.any (·.key.number = number)

/-- How a broadcast ends; one both cancelled and expired is recorded as cancelled (log 22). -/
def broadcastEnding (n : Notice) (b : BroadcastState) : BroadcastEnd :=
  if n.cancel then .cancelled else if b.expired then .expired else .complete

/-- A broadcast is removed, with its record and attention BROADCAST. -/
def endBroadcast (n : Notice) (b : BroadcastState) (s : State) : State :=
  let s' := removeNotice n.number s
  raise .broadcast (some (.notice n.number))
    { s' with
      notices :=
        { s'.notices with
          lastBroadcast := some ⟨n.number, n.kind, b.sent, b.delivered, b.failed, broadcastEnding n b⟩ } }

/-- A broadcast with no send left and none of its sends in the window is removed. -/
def finishBroadcast (s : State) (n : Notice) : State :=
  match n.addressee with
  | .pupil _ _ => s
  | .broadcast b => if sendLeft n b s || hasSend n.number s then s else endBroadcast n b s

/-- Every finished broadcast is removed. Those that finish together end in the order of the queue, so the record of the latest
created stays (DESIGN CHOICE, log 43). -/
def finishBroadcasts (s : State) : State := s.notices.queue.foldl finishBroadcast s

/-! ### The choice (R160) -/

/-- One choice, if its three conditions hold. -/
def chooseOnce (s : State) : Option State :=
  if s.notices.window.length < windowLimit ∧ sendingAllowed s then
    match bestCandidate s s.notices.queue with
    | none => none
    | some n =>
      match n.addressee with
      | .pupil slot position => some (sendPupilNotice n slot position s)
      | .broadcast b => some (finishBroadcasts (sendBroadcast n b s))
  else none

/-- The choice made again while its conditions hold. Each choice fills a place, removes a notice or drops a returned
step, so the fuel of `choose` does not run out on the queue and lists of R153 and R170. -/
def chooseFuel : Nat → State → State
  | 0, s => s
  | fuel + 1, s =>
    match chooseOnce s with
    | none => s
    | some s' => chooseFuel fuel s'

/-- The choice, made for every free place. -/
def choose (s : State) : State := chooseFuel 1024 s

/-! ### Deadlines (R166, R167) -/

/-- The deadline of a notice is reached: today's for ABSENT, its own for GENERAL. -/
def deadlineReached (n : Notice) (s : State) : Bool :=
  match n.kind with
  | .absent => s.notices.deadline.any (· ≤ s.time.school)
  | .general => n.deadline.any fun d => d ≤ s.time.school || s.time.date ≠ n.createdDate
  | _ => false

/-- A notice meets the test of its deadline: a WAITING pupil notice is removed and its kind acts; a broadcast becomes
expired and drops its returned steps. -/
def testDeadline (s : State) (n : Notice) : State :=
  if !deadlineReached n s then s
  else
    match n.addressee with
    | .pupil slot _ => if n.inWindow then s else exhaust n slot s
    | .broadcast b =>
      if b.expired then s else updateBroadcast n.number (fun b => { b with expired := true, returned := [] }) s

/-- The test of every deadline. Those that fall together are taken in the order of the queue, which is the order of creation
(DESIGN CHOICE, log 43). -/
def testDeadlines (s : State) : State := s.notices.queue.foldl testDeadline s

/-- What the Dispatcher does after a change: the deadlines are tested, finished broadcasts removed, and the choice made
while its conditions hold (R160, R166, R171; log 12). -/
def settle (s : State) : State := choose (finishBroadcasts (testDeadlines s))

/-! ### Results of sends -/

/-- The send with a key. -/
def sendAt (key : SendKey) (s : State) : Option Send := s.notices.window.find? (·.key = key)

/-- A send leaves the window. -/
def dropSend (key : SendKey) (s : State) : State :=
  { s with notices := { s.notices with window := s.notices.window.filter (·.key ≠ key) } }

/-- The ARRIVED notice of an arrival or a correction (R134, R136). -/
def addArrived (slot : Slot) (position : Nat) (s : State) : State :=
  addNotice .arrived (.pupil slot position) (classTableOf (tableInForce s) s).arrived none none s

/-- The ARRIVED correction (R136): the asked contact position is set, a WAITING LATE notice of the slot goes, and an ARRIVED
notice to the contact of the delivered send is created. R21 freezes the day fields while the day is CLOSED and R136 names no
day state: the correction acts in every day state (DEDUCED, log 38). -/
def correctArrival (slot : Slot) (position : Nat) (s : State) : State :=
  let s1 := claim slot (fun d => { d with asked := some position }) s
  let s2 := setQueue (s1.notices.queue.filter fun n => !(n.kind = .late && n.isTo slot && !n.inWindow)) s1
  addArrived slot position s2

/-- The pupil of a slot holds an arrival mark. -/
def hasArrived (slot : Slot) (s : State) : Bool := (pupilAt slot s).any fun p => isArrivalMark p.day.mark

/-- A failure of a send that has left the window (R164, R168, R171). -/
def failSend (key : SendKey) (s : State) : State :=
  match noticeAt key.number s with
  | none => s
  | some n =>
    match n.addressee with
    | .broadcast _ => updateBroadcast n.number (fun b => { b with failed := satInc b.failed }) s
    | .pupil slot position =>
      if n.cancel then removeNotice n.number s
      else if position + 1 < (contactsAt slot s).length then
        updateNotice n.number (fun x => { x with addressee := .pupil slot (position + 1), inWindow := false }) s
      else exhaust n slot s

/-- A send that has left the window is taken back: its notice returns to WAITING unchanged, a broadcast is given back its
step, a cancel-marked notice is removed (R162, R168, R170). -/
def returnSend (key : SendKey) (s : State) : State :=
  match noticeAt key.number s with
  | none => s
  | some n =>
    match n.addressee with
    | .broadcast b =>
      if n.cancel || b.expired then s
      else updateBroadcast n.number (fun b => { b with returned := b.returned ++ [(key.slot, key.position)] }) s
    | .pupil _ _ =>
      if n.cancel then removeNotice n.number s else updateNotice n.number (fun x => { x with inWindow := false }) s

/-- A delivered send that has left the window (R136, R165, R168, R171). -/
def deliverSend (key : SendKey) (s : State) : State :=
  match noticeAt key.number s with
  | none => s
  | some n =>
    match n.addressee with
    | .broadcast _ => updateBroadcast n.number (fun b => { b with delivered := satInc b.delivered }) s
    | .pupil slot _ =>
      let s' := removeNotice n.number s
      if n.kind ≠ .absent then s'
      else if n.cancel then (if hasArrived slot s then correctArrival slot key.position s' else s')
      else
        claim slot
          (fun d =>
            if d.mark = .absentPending then
              { d with mark := .absentAsked, source := some .notice, asked := some key.position }
            else d)
          s'

end Sys2Proof.Machine
end

