-- ==== Sys2Proof/Machine/Days.lean ====
section
/-! DEFINITION. The school day: the close (R41, R147), the roll parts of plan entries (R47, R48, R63–R66, R141), the taking
of entries (R58–R62), the copy (R56), the opening (R33, R36, R38–R40) with the day-open rule of marks (R20). -/

namespace Sys2Proof.Machine

/-! ### Closing -/

/-- The cohorts of the listed sweeps made CUT_DONE and the Sweep List emptied (R147). -/
def abandonSweeps (s : State) : State :=
  { s with
    day :=
      { s.day with
        cohorts := s.sweep.list.foldl (fun cs w => cs.modify w.cohort fun c => { c with phase := .cutDone }) s.day.cohorts }
    sweep := ⟨[], none, .idle⟩ }

/-- The day kinds: withdrawn when the day closes (R41). -/
def isDayKind : NoticeKind → Bool
  | .absent | .late | .arrived => true
  | .general | .closure => false

/-- The slots whose pupils meet a test, in slot order. -/
def slotsWhere (p : Pupil → Bool) (s : State) : List Slot := (s.roll.roster.filter fun e => p e.2).map (·.1)

/-- The day closes (R41). The pupils it makes ABSENT_UNREACHED are taken in slot order, which gives UNREACHED its last subject
(DESIGN CHOICE, log 43). -/
def closeDayNow (cause : CloseCause) (s : State) : State :=
  let s1 := abandonSweeps { s with day := { s.day with state := .closed, closeCause := some cause } }
  let s2 := withdrawWhere (fun n => isDayKind n.kind) s1
  let s3 := (slotsWhere (·.day.mark = .absentPending) s2).foldl (fun s k => makeUnreached .notice k s) s2
  raise .day none s3

/-! ### Roll parts -/

/-- A cohort of a REGISTRATION entry's mask (R47). -/
def registerCohort (time : SchoolTime) (grace : Nat) (c : Cohort) : Cohort :=
  if c.phase = .beforeRegistration then { c with phase := .registrationOpen, registration := some time, grace := grace }
  else c

/-- A phase from which an ABSENCE_CUT lists the cohort (R48). -/
def Phase.isUncut : Phase → Bool
  | .beforeRegistration | .registrationOpen => true
  | .cutListed | .cutDone => false

/-- A cohort of an ABSENCE_CUT entry's mask (R48). -/
def cutCohort (time : SchoolTime) (c : Cohort) : Cohort :=
  if c.phase.isUncut then { c with phase := .cutListed, cut := some time } else c

/-- Sweeps added at the tail of the Sweep List (R141). -/
def CutSweeper.add (new : List Sweep) (w : CutSweeper) : CutSweeper :=
  if new.isEmpty then w
  else if w.list.isEmpty then ⟨new, some 0, .running⟩
  else { w with list := w.list ++ new }

/-- The cohorts of a mask, in cohort order. -/
def cohortsOf (mask : List Nat) : List Nat := setWithin 0 7 mask

/-- A REGISTRATION entry's roll part (R47). -/
def takeRegistration (mask : List Nat) (time : SchoolTime) (grace : Nat) (s : State) : State :=
  { s with
    day :=
      { s.day with cohorts := (cohortsOf mask).foldl (fun cs c => cs.modify c (registerCohort time grace)) s.day.cohorts } }

/-- An ABSENCE_CUT entry's roll part (R48, R141). -/
def takeCut (mask : List Nat) (time : SchoolTime) (s : State) : State :=
  let cut := (cohortsOf mask).filter fun c => (s.day.cohorts.getD c .fresh).phase.isUncut
  { s with
    day := { s.day with cohorts := cut.foldl (fun cs c => cs.modify c (cutCohort time)) s.day.cohorts }
    sweep := s.sweep.add (cut.map fun c => ⟨c, time, false⟩) }

/-- A NOTICE_HOLD entry's roll part (R65). -/
def takeHold (time : SchoolTime) (minutes : Nat) (s : State) : State :=
  let e := min (time + 60 * minutes) 86399
  if s.time.school < e then
    { s with notices := { s.notices with quietEnd := some (max e (s.notices.quietEnd.getD 0)) } }
  else s

/-- The roll part of an entry (R63–R66). -/
def applyRoll (e : BankEntry) (s : State) : State :=
  match e.roll with
  | .chime => s
  | .registration mask grace => takeRegistration mask e.time grace s
  | .absenceCut mask => takeCut mask e.time s
  | .noticeDeadline => { s with notices := { s.notices with deadline := some e.time } }
  | .noticeHold minutes => takeHold e.time minutes s
  | .dayClose => closeDayNow .dayClose s

/-! ### Taking entries -/

/-- Entries of Today's Plan changed at one index. -/
def modifyEntry (i : Nat) (f : PlanEntry → PlanEntry) (s : State) : State :=
  { s with plan := { s.plan with today := { s.plan.today with entries := s.plan.today.entries.modify i f } } }

/-- The chime part of an entry handed to the Chime Unit (R59). -/
def requestChime (i : Nat) (late : Bool) (c : ChimePart) (s : State) : State :=
  (decideRequest
    ⟨.table c.pattern, c.zones, allowedPriority c.priority s, .plan s.plan.today.copyNumber i, late, false⟩ s).1

/-- One entry taken at its lateness (R58–R60). -/
def takeEntry (i : Nat) (e : PlanEntry) (s : State) : State :=
  let lateness := s.time.school - e.entry.time
  let missed := s.settings.catchUp < lateness
  let s1 :=
    modifyEntry i (fun x => { x with firing := if missed then .missed else .done, taken := some s.time.school }) s
  let s2 :=
    match e.entry.chime with
    | none => s1
    | some c => if missed then s1 else requestChime i (0 < lateness) c s1
  applyRoll e.entry s2

/-- The entry at an index is taken if the day is OPEN, the entry AHEAD and its time meets a test. -/
def takeIf (ready : SchoolTime → Bool) (s : State) (i : Nat) : State :=
  match s.plan.today.entries[i]? with
  | none => s
  | some e => if dayIsOpen s && e.firing = .ahead && ready e.entry.time then takeEntry i e s else s

/-- Every AHEAD entry whose time meets a test, taken in plan order; once the day has closed no more are taken. -/
def takeEntries (ready : SchoolTime → Bool) (s : State) : State :=
  (List.range s.plan.today.entries.length).foldl (takeIf ready) s

/-- The evaluation of Today's Plan: every entry reached is taken under the lateness table (R60, R62). -/
def evaluatePlan (s : State) : State := takeEntries (· ≤ s.time.school) s

/-- The entries of the present second taken on time (R58, R69). -/
def takeOnTime (s : State) : State := takeEntries (· = s.time.school) s

/-- Today's Plan replaced by a copy of a bank (R56), each entry's firing state given by its time. -/
def makeCopy (bank : Nat) (firing : SchoolTime → Firing) (s : State) : State :=
  let b := s.plan.banks.getD bank .empty
  { s with
    plan :=
      { s.plan with
        today :=
          ⟨some bank, some (b.name, b.select), (s.plan.today.copyNumber + 1) % 65536,
            b.entries.map fun e => ⟨e, firing e.time, .none_, none⟩⟩ } }

/-! ### Opening -/

/-- The day type of a date (R33). -/
def dayTypeOf (d : Date) (s : State) : DayType :=
  (tableGet d s.day.calendar).getD (s.settings.weekMap.getD (weekday d) .closed)

/-- The three day counts of a terminal made 0 (R100). -/
def Terminal.newDay (t : Terminal) : Terminal := { t with tapsToday := 0, unknownToday := 0, faultsToday := 0 }

/-- A day begins opening (R38, R100). -/
def beginOpening (bank : Nat) (s : State) : State :=
  { s with
    day :=
      { s.day with
        state := .opening
        date := some s.time.date
        bank := some bank
        openingTime := none
        closureFlag := false
        closureText := none
        cursor := 0
        calendar := s.day.calendar.filter fun e => s.time.date ≤ e.1 }
    roll := { s.roll with away := s.roll.away.filter fun e => s.time.date ≤ e.last }
    line := { s.line with table := s.line.table.map (·.map Terminal.newDay) } }

/-- The automatic-opening rule (R36). -/
def autoOpen (s : State) : State :=
  match dayTypeOf s.time.date s with
  | .closed => s
  | .school bank =>
    if s.day.state = .closed ∧ s.time.valid ∧ s.day.date ≠ some s.time.date ∧ s.settings.dayOpen ≤ s.time.school ∧
        !rollLoadUnderWay s then
      beginOpening bank s
    else s

/-- The Away List entry of a slot that covers a date (R20). -/
def awayCovering (slot : Slot) (d : Date) (s : State) : Option AwayEntry :=
  s.roll.away.find? fun e => e.slot = slot && e.first ≤ d && d ≤ e.last

/-- The day-open rule of one slot (R20). -/
def dayOpenMark (slot : Slot) (s : State) : State :=
  claim slot
    (fun _ =>
      match awayCovering slot (today s) s with
      | none => .fresh
      | some e => { DayPart.fresh with mark := .excused, source := some .away, reason := some e.reason })
    s

/-- The day becomes OPEN and its plan is evaluated (R40). -/
def becomeOpen (s : State) : State :=
  let s1 :=
    { s with
      day :=
        { s.day with
          state := .open_, openingTime := some s.time.school, cohorts := List.replicate 8 .fresh }
      notices := { s.notices with deadline := none } }
  evaluatePlan (raise .day none (makeCopy (s.day.bank.getD 0) (fun _ => .ahead) s1))

/-- One visit of the opening sweep (R39). -/
def openingVisit (s : State) : State :=
  if s.day.state ≠ .opening then s
  else
    let s1 := dayOpenMark s.day.cursor s
    let s2 := { s1 with day := { s1.day with cursor := s.day.cursor + 1 } }
    if slotCount ≤ s.day.cursor + 1 then becomeOpen s2 else s2

end Sys2Proof.Machine
end

