-- ==== Sys2Proof/Machine/LineJobs.lean ====
section
/-! DEFINITION. The Entrance Line Controller's table, walks and jobs: entries and answers (R100–R102), the start of
transactions and what is sent (R103, R104, R211), walks (R106), the choice of a job (R111), poll rounds (R112),
enumerations (R119). -/

namespace Sys2Proof.Machine

/-! ### The Terminal Table -/

/-- The terminal in an entry. -/
def terminalAt (n : Nat) (s : State) : Option Terminal := (s.line.table[n]?).bind id

/-- An entry written. -/
def setTerminal (n : Nat) (t : Option Terminal) (s : State) : State :=
  { s with line := { s.line with table := s.line.table.set n t } }

/-- The entry that holds an identity. -/
def entryWith (i : Identity) (s : State) : Option Nat :=
  (List.range 8).find? fun n => (terminalAt n s).any (·.identity = i)

/-- The lowest-numbered free entry. -/
def freeEntry (s : State) : Option Nat := (List.range 8).find? fun n => (terminalAt n s).isNone

/-- A new entry's terminal (R100). -/
def Terminal.new (i : Identity) (entrance : Nat) (state : TerminalState) (now : RunTime) : Terminal where
  identity := i
  entrance := entrance
  state := state
  missed := 0
  lastHeard := now
  lastLiveness := none
  lastCollection := none
  tapsToday := 0
  unknownToday := 0
  faultsToday := 0
  overflow := false
  fault := false
  hold := []

/-- ACTIVE or SILENT: taps are read and liveness checked (R101). -/
def TerminalState.isServed : TerminalState → Bool
  | .active | .silent => true
  | .new | .lost => false

/-- A good answer (R102). -/
def goodAnswer (n : Nat) (s : State) : State :=
  match terminalAt n s with
  | none => s
  | some t =>
    let t := { t with lastHeard := s.time.running }
    setTerminal n (some (if t.state.isServed then { t with state := .active, missed := 0 } else t)) s

/-- A missed answer (R102). -/
def missedAnswer (n : Nat) (s : State) : State :=
  match terminalAt n s with
  | none => s
  | some t =>
    if !t.state.isServed then s
    else if t.missed + 1 < 3 then setTerminal n (some { t with missed := t.missed + 1, state := .silent }) s
    else raise .terminal (some (.terminal n)) (setTerminal n (some { t with missed := 3, state := .lost, hold := [] }) s)

/-- An unlisted identity found while the table is full (R112). -/
def refuseIdentity (i : Identity) (s : State) : State :=
  if s.line.refused = some i then s
  else raise .full none { s with line := { s.line with refused := some i } }

/-- An unlisted identity found: added as NEW, or refused for a full table (R112, R119). -/
def addFound (i : Identity) (s : State) : State :=
  match freeEntry s with
  | some n => raise .terminal (some (.terminal n)) (setTerminal n (some (.new i 0 .new s.time.running)) s)
  | none => refuseIdentity i s

/-! ### Walks -/

/-- A walk at its beginning (R106). -/
def Walk.start (condition : Option SeekCondition) : Walk := ⟨condition, [], [], [], 0⟩

/-- A whole identity reached (R106). -/
def Walk.record (i : Identity) (w : Walk) : Walk :=
  if identityValid i then { w with found := w.found ++ [i] } else { w with bad := w.bad + 1 }

/-- The walk goes on with the first of these branches that is not a whole identity; the second part says that it ended. -/
def Walk.branches : List (List Bool) → Walk → Walk × Bool
  | [], w => ({ w with path := [], aside := [] }, true)
  | p :: rest, w =>
    if p.length < 56 then ({ w with path := p, aside := rest }, false)
    else
      let w' := w.record (identityOfBits p)
      if walkLimit ≤ w'.found.length then ({ w' with path := [], aside := rest }, true) else Walk.branches rest w'

/-- A step's result (R106). -/
def Walk.step (z o : Bool) (w : Walk) : Walk × Bool :=
  let low := if z then [w.path ++ [false]] else []
  let high := if o then [w.path ++ [true]] else []
  w.branches (low ++ high ++ w.aside)

/-! ### Sendings (Formats and Pins, Entrance line) -/

/-- The code of a verdict. -/
def verdictCode : Verdict → Byte
  | .onTime => 1 | .lateGoToClass => 2 | .lateReportOffice => 3 | .alreadyIn => 4 | .welcomeBack => 5
  | .seeOffice => 6 | .unknownCard => 7 | .dayClosed => 8

/-- The code of a SEEK WAITING condition. -/
def conditionCode : SeekCondition → Byte
  | .taps => 1 | .fault => 2 | .either => 3

/-- A bit as a byte. -/
def flagByte (b : Bool) : Byte := if b then 1 else 0

/-- The bytes of SEEK or SEEK WAITING for the present prefix. -/
def seekBytes (w : Walk) : Text :=
  let k := w.path.length
  let prefixBytes := (identityBytes (identityOfBits w.path)).take ((k + 7) / 8)
  match w.condition with
  | none => 3 :: BitVec.ofNat 8 k :: prefixBytes
  | some c => 4 :: conditionCode c :: BitVec.ofNat 8 k :: prefixBytes

/-- The bytes of PICK. -/
def pickBytes (i : Identity) : Text := 1 :: identityBytes i

/-- The bytes of ALL and SET DISPLAY CLOCK with the school time and date as they stand. The school time goes low byte first
(DEDUCED, log 44). -/
def displayBytes (s : State) : Text :=
  let x := yearMonthDay s.time.date
  2 :: 0x13 ::
    (bytesLow 3 s.time.school ++
      [BitVec.ofNat 8 (x.1 - 2000), BitVec.ofNat 8 x.2.1, BitVec.ofNat 8 x.2.2])

/-- The entrance number of the terminal in hand (R108): its entry's, or what the entry held when it was freed or replaced
during the transaction under way, which runs on (R121, R123). -/
def entranceOf (p : PollRound) (s : State) : Nat :=
  s.line.leftEntrance.getD (((terminalAt p.entry s).map (·.entrance)).getD 0)

/-- The entry of the terminal in hand is about to be freed or replaced: its entrance number is kept for the transaction under
way (R108, R121, R123). -/
def keepEntrance (s : State) : State :=
  { s with
    line :=
      { s.line with
        leftEntrance :=
          match s.line.job with
          | .pollServe p => some (entranceOf p s)
          | _ => s.line.leftEntrance } }

/-- The bytes of GIVE VERDICTS. -/
def verdictBytes (p : PollRound) (s : State) : Text :=
  0x11 :: BitVec.ofNat 8 p.verdicts.length :: BitVec.ofNat 8 (entranceOf p s) :: flagByte s.day.closureFlag ::
      p.verdicts.flatMap fun v => [BitVec.ofNat 8 v.1, verdictCode v.2]

/-- What the 2610 sends after ANSWER in the transaction of a job (R104), without its check. -/
def sendingOf (t : Transaction) (s : State) : Text :=
  match s.line.job, t with
  | .enumeration w, _ => seekBytes w
  | .pollWalk w, _ => seekBytes w
  | .broadcast, _ => displayBytes s
  | .liveness _ i, _ => pickBytes i ++ [0x12, 0]
  | .pollServe p, .readTaps => pickBytes p.identity ++ [0x10]
  | .pollServe p, .giveVerdicts => pickBytes p.identity ++ verdictBytes p s
  | .pollServe p, .readState clear => pickBytes p.identity ++ [0x12, flagByte clear]
  | _, _ => []

/-! ### Jobs -/

/-- A transaction begins with ALERT (R103). -/
def begin_ (job : Job) (t : Transaction) (s : State) : State :=
  { s with line := { s.line with job := job, phase := .alert t, orphan := false, leftEntrance := none } }

/-- The running time at which an entry's liveness check falls due (R118). -/
def livenessDueAt (t : Terminal) : RunTime :=
  max (t.lastHeard + livenessInterval) ((t.lastLiveness.map (· + livenessInterval)).getD 0)

/-- A liveness check is due for an entry (R118). -/
def livenessDueFor (n : Nat) (s : State) : Bool :=
  (terminalAt n s).any fun t => t.state.isServed && livenessDueAt t ≤ s.time.running

/-- A liveness check begins (R118). -/
def beginLiveness (n : Nat) (s : State) : State :=
  match terminalAt n s with
  | none => s
  | some t =>
    begin_ (.liveness n t.identity) (.readState false)
      (setTerminal n (some { t with lastLiveness := some s.time.running }) s)

/-- The choice of the next job while the line is free (R111). -/
def chooseJob (s : State) : State :=
  if s.line.enumerationPending then
    begin_ (.enumeration (.start none)) .seek { s with line := { s.line with enumerationPending := false } }
  else if s.line.clockDue && s.time.valid then begin_ .broadcast .displayClock s
  else
    match (List.range 8).find? (livenessDueFor · s) with
    | some n => beginLiveness n s
    | none => if s.day.state ≠ .opening then begin_ (.pollWalk (.start (some .either))) .seek s else s

/-- The line is free (R111, R123). -/
def lineFree (s : State) : Bool := s.line.job = .idle && s.line.phase = .free

/-- The choice of a job, if the line is free. -/
def chooseIfFree (s : State) : State := if lineFree s then chooseJob s else s

/-- The job ends and the line comes free. -/
def endJob (s : State) : State :=
  chooseJob { s with line := { s.line with job := .idle, phase := .free, orphan := false, dropJob := false, leftEntrance := none } }

/-- A transaction has ended: the job goes on, or ends where it was dropped (R123). -/
def afterTransaction (goOn : State → State) (s : State) : State := if s.line.dropJob then endJob s else goOn s

/-- The round takes its found terminals in the order found (R112). -/
def serve : List Identity → State → State
  | [], s => endJob s
  | i :: rest, s =>
    match entryWith i s with
    | none => serve rest (addFound i s)
    | some n =>
      if (terminalAt n s).any (·.state.isServed) then begin_ (.pollServe ⟨rest, n, i, true, [], []⟩) .readTaps s
      else serve rest s

/-- The next transaction of a round with the terminal in hand, left out where it was retired or lost (R112). -/
def serveOn (t : Transaction) (p : PollRound) (s : State) : State :=
  if p.live && (terminalAt p.entry s).any (·.state.isServed) then begin_ (.pollServe p) t s else serve p.rest s

/-! ### Enumerations (R119) -/

/-- One found identity: the state, with the counts of added, restored and refused. -/
def enumerateOne (r : State × Nat × Nat × Nat) (i : Identity) : State × Nat × Nat × Nat :=
  let s := r.1
  match entryWith i s with
  | none =>
    if (freeEntry s).isSome then (addFound i s, r.2.1 + 1, r.2.2.1, r.2.2.2)
    else (addFound i s, r.2.1, r.2.2.1, r.2.2.2 + 1)
  | some n =>
    match terminalAt n s with
    | none => r
    | some t =>
      if t.state = .lost then
        (raise .terminal (some (.terminal n))
            (setTerminal n (some { t with state := .active, missed := 0, lastHeard := s.time.running }) s),
          r.2.1, r.2.2.1 + 1, r.2.2.2)
      else (goodAnswer n s, r.2)

/-- An entry the walk did not find: the state, and the count of NEW entries removed. -/
def enumerateUnfound (found : List Identity) (r : State × Nat) (n : Nat) : State × Nat :=
  match terminalAt n r.1 with
  | none => r
  | some t =>
    if found.contains t.identity then r
    else if t.state = .new then
      let s := setTerminal n none r.1
      ({ s with line := { s.line with refused := none } }, r.2 + 1)
    else (missedAnswer n r.1, r.2)

/-- The walk of an enumeration has ended (R119). -/
def finishEnumeration (w : Walk) (s : State) : State :=
  let r := w.found.foldl enumerateOne (s, 0, 0, 0)
  let u := (List.range 8).foldl (enumerateUnfound w.found) (r.1, 0)
  let record : EnumerationRecord :=
    ⟨s.time.school, w.found.length, r.2.1, r.2.2.1, u.2, w.bad, r.2.2.2, walkLimit ≤ w.found.length⟩
  endJob (raise .terminal none { u.1 with line := { u.1.line with lastEnumeration := some record } })

/-- The walk of the job under way has ended, with the identities found so far. -/
def walkEnds (s : State) : State :=
  match s.line.job with
  | .enumeration w => finishEnumeration w s
  | .pollWalk w => serve w.found s
  | _ => endJob s

end Sys2Proof.Machine
end

