-- ==== Sys2Proof/Machine/Clock.lean ====
section
/-! DEFINITION. The Time Base: the one-second advance (R27), the rollover (R31), the snap (R30), SET CLOCK (R29), the
handing on of a change (R32) and what each change of school time brings (R36, R58, R110, R158, R166, R167; log 3). -/

namespace Sys2Proof.Machine

/-- The Time Base changed. -/
def setTime (f : TimeBase → TimeBase) (s : State) : State := { s with time := f s.time }

/-- The date advances by one day and school time becomes 0 (R31). -/
def rollover (s : State) : State :=
  if s.time.date + 1 < dateCount then setTime (fun t => { t with date := t.date + 1, school := 0 }) s
  else raise .clock none (setTime (fun t => { t with date := 0, school := 0, valid := false }) s)

/-- The opening time lowered by a backward jump (R32). -/
def lowerOpening (s : State) : State :=
  { s with day := { s.day with openingTime := s.day.openingTime.map (min s.time.school) } }

/-- A SET CLOCK, snap or rollover handed to the other blocks (R32): the day closes on another date; else, on an OPEN day, a
forward jump is taken by the Plan Engine and a backward jump may lower the opening time. -/
def handOn (old s : State) : State :=
  if s.day.state = .closed then s
  else if s.day.date ≠ some s.time.date then closeDayNow .dateChange s
  else if s.day.state = .open_ ∧ old.time.school < s.time.school then evaluatePlan s
  else if s.day.state = .open_ ∧ s.time.school < old.time.school then lowerOpening s
  else s

/-- School time or the date has changed. -/
def timeMoved (old s : State) : Bool := old.time.school ≠ s.time.school || old.time.date ≠ s.time.date

/-- The end of the quiet window at a change of school time or of date (R158). -/
def endQuiet (old s : State) : State :=
  if timeMoved old s && (s.notices.quietEnd.any (· ≤ s.time.school) || old.time.date ≠ s.time.date) then
    { s with notices := { s.notices with quietEnd := none } }
  else s

/-- A display-clock broadcast comes due, unless the clock is invalid (R110). -/
def displayDue (s : State) : State := if s.time.valid then { s with line := { s.line with clockDue := true } } else s

/-- School time has entered a new minute (R110). -/
def minuteEntered (old s : State) : Bool := old.time.school / 60 ≠ s.time.school / 60 || old.time.date ≠ s.time.date

/-- What follows each change of school time, after the plan entries it reached: the quiet window, the deadlines and the
choice, the automatic opening, the display clock and the line's choice (log 3). -/
def afterTime (old s : State) : State :=
  let s1 := autoOpen (settle (endQuiet old s))
  chooseIfFree (if minuteEntered old s then displayDue s1 else s1)

/-- The Time Base counts one second (R27). -/
def countSecond (s : State) : State :=
  let s1 := setTime (fun t => { t with running := nextSecond s }) s
  if s.time.school + 1 < daySeconds then setTime (fun t => { t with school := t.school + 1 }) s1 else rollover s1

/-- The one-second advance (R27, R31, R58). -/
def secondAdvance (s : State) : State :=
  let s1 := countSecond s
  afterTime s (if s.time.school + 1 < daySeconds then takeOnTime s1 else handOn s s1)

/-- A rising edge of the minute pulse (R30). -/
def snap (s : State) : State :=
  if !s.settings.minutePulse || !s.time.valid || s.time.school % 60 = 0 then s
  else
    let start := s.time.school / 60 * 60
    let s1 :=
      if s.time.school % 60 < 30 then setTime (fun t => { t with school := start }) s
      else if start + 60 < daySeconds then setTime (fun t => { t with school := start + 60 }) s
      else rollover s
    afterTime s (handOn s s1)

/-- A change of the minute-pulse input's level (R30). -/
def minutePulseEdge (level : Bool) (s : State) : State :=
  let rising := level && !s.time.minutePulseLatch
  let s1 := setTime (fun t => { t with minutePulseLatch := level }) { s with pins := { s.pins with minutePulse := level } }
  if rising then snap s1 else s1

/-- The weekday words, Monday first (log 8). -/
def weekdayWord (n : Nat) : String :=
  ["MONDAY", "TUESDAY", "WEDNESDAY", "THURSDAY", "FRIDAY", "SATURDAY", "SUNDAY"].getD n ""

/-- The values of CLOCK (R29). -/
def clockItems (s : State) : List Item :=
  [.time s.time.school, .date s.time.date, .word (weekdayWord (weekday s.time.date)),
    .word (if s.time.valid then "VALID" else "INVALID"), onOff s.settings.minutePulse]

/-- CLOCK, read form (R29). -/
def clockRead (s : State) : State × Reply := okWith (clockItems s) s

/-- CLOCK, set form (R29). -/
def setClock (time : SchoolTime) (date : Option Date) (s : State) : State × Reply :=
  if daySeconds ≤ time ∨ date.any (dateCount ≤ ·) ∨ (date.isNone ∧ ¬s.time.valid) then refuse .badValue s
  else
    let s1 := setTime (fun t => { t with school := time, date := date.getD t.date, valid := true }) s
    let s2 := afterTime s (displayDue (handOn s s1))
    (s2, .ok (clockItems s2))

/-! ### Meanings -/

/-- CLOCK with no argument (R29). -/
def execClock (s : State) : Host.Outcome State Fault Refusal := request clockRead s

/-- SET CLOCK (R29). -/
def execSetClock (time : SchoolTime) (date : Option Date) (s : State) : Host.Outcome State Fault Refusal :=
  request (setClock time date) s

/-- SECOND_ADVANCE (R27): while the part is held the Time Base counts on in the backup domain (R206, log 18), and a quiet
window that its count ends is not open at the warm start (R158). -/
def execSecondAdvance (s : State) : Host.Outcome State Fault Refusal :=
  if s.power.held then .next (if s.power.retention then endQuiet s (countSecond s) else s) else .next (secondAdvance s)

/-- MINUTE_PULSE_EDGE (R30). -/
def execMinutePulseEdge (level : Bool) (s : State) : Host.Outcome State Fault Refusal := event (minutePulseEdge level) s

/-- AUTOMATIC_OPENING (R36). -/
def execAutomaticOpening (s : State) : Host.Outcome State Fault Refusal := event autoOpen s

/-- OPENING_SWEEP_VISIT (R39, R40). -/
def execOpeningSweepVisit (s : State) : Host.Outcome State Fault Refusal :=
  event
    (fun s =>
      let s1 := openingVisit s
      if s.day.state = .opening ∧ s1.day.state ≠ .opening then chooseIfFree (settle s1) else s1)
    s

/-- ENTRY_REACHED (R58): the entries of the present second, if any is still AHEAD. -/
def execEntryReached (s : State) : Host.Outcome State Fault Refusal := event (fun s => settle (takeOnTime s)) s

end Sys2Proof.Machine
end

