-- ==== Sys2Proof/Machine/Arrivals.lean ====
section
/-! DEFINITION. Arrivals: the classification (R49), the arrival change against each mark (R126–R130) with its notices
(R133, R134), the verdict (R131), the claim of a tap (R124, R132), ARRIVE (R125). -/

namespace Sys2Proof.Machine

/-- The cutoff of a pupil in a cohort past BEFORE_REGISTRATION (R49). -/
def cutoffOf (c : Cohort) (permit : Option SchoolTime) : Option SchoolTime :=
  match permit with
  | some p => some p
  | none =>
    match c.registration with
    | some r => some (min (r + 60 * c.grace) 86399)
    | none => c.cut

/-- The classification of an arrival at `t` (R49): PRESENT, LATE or LATE_AFTER_CUT. -/
def classify (c : Cohort) (permit : Option SchoolTime) (t : SchoolTime) : Mark :=
  if c.phase = .beforeRegistration then .present
  else if (cutoffOf c permit).all (t ≤ ·) then .present
  else if c.cut.any (· < t) then .lateAfterCut
  else .late

/-- The late-notice policy calls for a LATE notice of a classification (R133). -/
def lateCalled (policy : LatePolicy) (m : Mark) : Bool :=
  match policy, m with
  | .afterCut, .lateAfterCut => true
  | .always, .late => true
  | .always, .lateAfterCut => true
  | _, _ => false

/-- The result of an arrival change: the state, the verdict, the number of a notice it created. -/
structure Arrived where
  state : State
  verdict : Verdict
  notice : Option Nat

/-- A LATE or ARRIVED notice created, or FULL raised for a full queue (R133, R134). -/
def tryNotice (kind : NoticeKind) (slot : Slot) (position cls : Nat) (s : State) : State × Option Nat :=
  if queueFull s then (raise .full (some (.slot slot)) s, none)
  else (addNotice kind (.pupil slot position) cls none none s, some (nextNoticeNumber s))

/-- The notice a classified arrival creates (R133, R134). An arrival that finds ABSENT_UNREACHED creates LATE by the policy,
as R133 and R135 have it, where R127 and R137 say that it creates none (DEDUCED, log 42). -/
def arrivalNotice (slot : Slot) (found : DayPart) (contacts : List Contact) (m : Mark) (s : State) : State × Option Nat :=
  let classes := classTableOf (tableInForce s) s
  if found.mark = .absentAsked then tryNotice .arrived slot (found.asked.getD 0) classes.arrived s
  else if lateCalled s.settings.latePolicy m && !contacts.isEmpty then tryNotice .late slot 0 classes.late s
  else (s, none)

/-- The verdict of a classified arrival (R131). -/
def classifiedVerdict (m : Mark) (office closure : Bool) : Verdict :=
  match m with
  | .present => if office then .seeOffice else .onTime
  | .late => if office || closure then .lateReportOffice else .lateGoToClass
  | _ => .lateReportOffice

/-- A classified arrival (R127). -/
def classifiedArrival (source : MarkSource) (slot : Slot) (p : Pupil) (t : SchoolTime) (terminal : Option Nat) (s : State) :
    Arrived :=
  let m := classify (s.day.cohorts.getD p.enrolment.cohort .fresh) p.enrolment.permit t
  let s1 :=
    claim slot (fun d => { d with mark := m, source := some source, arrival := some t, terminal := terminal }) s
  let r := arrivalNotice slot p.day p.enrolment.contacts m s1
  ⟨r.1, classifiedVerdict m p.enrolment.office s.day.closureFlag, r.2⟩

/-- An arrival of an ENROLLED pupil (R126). -/
def arrivalChange (source : MarkSource) (slot : Slot) (p : Pupil) (t : SchoolTime) (terminal : Option Nat) (s : State) :
    Arrived :=
  match p.day.mark with
  | .present | .late | .lateAfterCut | .arrivedExcused => ⟨s, .alreadyIn, none⟩
  | .excused =>
    ⟨claim slot
        (fun d =>
          { d with mark := .arrivedExcused, source := some source, arrival := some t, terminal := terminal }) s,
      .seeOffice, none⟩
  | .signedOut =>
    ⟨claim slot
        (fun d => { d with mark := d.heldMark.getD .present, source := some source, heldMark := none }) s,
      .welcomeBack, none⟩
  | .unseen | .expected | .absentPending | .absentAsked | .absentUnreached =>
    classifiedArrival source slot p t terminal s

/-- The verdicts that raise ARRIVAL for a tap (R132). -/
def Verdict.callsOffice : Verdict → Bool
  | .lateReportOffice | .seeOffice => true
  | _ => false

/-- The ENROLLED record with a card key, with its slot. -/
def pupilWithCard (card : Nat) (s : State) : Option (Slot × Pupil) :=
  s.roll.roster.find? fun e => e.2.enrolment.card = card

/-- A tap handed to the Roll Unit, with its verdict (R124, R132). -/
def tapClaim (card : Nat) (time : Option SchoolTime) (terminal : Nat) (s : State) : State × Verdict :=
  if !dayIsOpen s then (s, .dayClosed)
  else
    match pupilWithCard card s with
    | none => (s, .unknownCard)
    | some (slot, p) =>
      let r := arrivalChange .tap slot p (time.getD s.time.school) (some terminal) s
      (if r.verdict.callsOffice then raise .arrival (some (.slot slot)) r.state else r.state, r.verdict)

/-- The mark a slot's pupil holds. -/
def markAt (slot : Slot) (s : State) : Option Mark := (pupilAt slot s).map (·.day.mark)

/-- A mark as an item, UNSEEN for an EMPTY slot. -/
def markItem (slot : Slot) (s : State) : Item := .word (markWord ((markAt slot s).getD .unseen))

/-- ARRIVE (R125). -/
def arrive (slot : Slot) (time : Option SchoolTime) (s : State) : State × Reply :=
  if !dayIsOpen s then refuse .dayNotOpen s
  else if slotCount ≤ slot ∨ time.any (daySeconds ≤ ·) then refuse .badValue s
  else if time.any fun t => s.time.school < t || t < s.day.openingTime.getD 0 then refuse .badValue s
  else
    match pupilAt slot s with
    | none => refuse .noSuch s
    | some p =>
      let r := arrivalChange .office slot p (time.getD s.time.school) none s
      (settle r.state,
        .ok ([markItem slot r.state, .word (verdictWord r.verdict)] ++ optItem "NOTICE" .num r.notice))

/-- ARRIVE (R125). -/
def execArrive (slot : Slot) (time : Option SchoolTime) (s : State) : Host.Outcome State Fault Refusal :=
  request (arrive slot time) s

end Sys2Proof.Machine
end

