-- ==== Sys2Proof/Machine/Roll.lean ====
section
/-! DEFINITION. The roll requests: ENROL (R7), AMEND (R8), WITHDRAW (R9), PUPIL (R10), FIND (R11), MARKS (R12), MARK
(R13–R17), CENSUS (R19). -/

namespace Sys2Proof.Machine

/-! ### Ranges (R2) -/

def cardOk (n : Nat) : Bool := 1 ≤ n && n ≤ 4294967294
def referenceOk (n : Nat) : Bool := 1 ≤ n && n ≤ 999999
def cohortOk (n : Nat) : Bool := n < 8
def formOk (n : Nat) : Bool := n < 64
def contactIdOk (n : Nat) : Bool := 1 ≤ n && n ≤ 65535
def slotOk (n : Nat) : Bool := n < slotCount
def timeOk (t : SchoolTime) : Bool := t < daySeconds
def dateOk (d : Date) : Bool := d < dateCount

/-- A contacts list of 0–3 entries with different contact IDs in range. -/
def contactsOk (l : List Contact) : Bool :=
  l.length ≤ 3 && l.all (fun c => contactIdOk c.id) && decide (l.map (·.id)).Nodup

/-- An optional value is in range where it is given. -/
def optOk {α : Type} (ok : α → Bool) : Option α → Bool
  | none => true
  | some a => ok a

/-! ### ENROL -/

/-- A notice or send is addressed to a slot (R7, R10). -/
def slotAddressed (slot : Slot) (s : State) : Bool :=
  s.notices.queue.any (·.isTo slot) || s.notices.window.any (·.key.slot = slot)

/-- A slot is in use (R7). -/
def slotInUse (slot : Slot) (s : State) : Bool := (pupilAt slot s).isSome || slotAddressed slot s

/-- Every argument of ENROL is in range. -/
def enrolOk (a : EnrolArgs) : Bool :=
  cardOk a.card && referenceOk a.reference && cohortOk a.cohort && formOk a.form && contactsOk a.contacts &&
    optOk timeOk a.permit && optOk Option.isSome a.office && optOk slotOk a.slot

/-- Another ENROLLED record holds the card key or the pupil reference (R2). -/
def duplicate (card reference : Option Nat) (self : Option Slot) (s : State) : Bool :=
  s.roll.roster.any fun e =>
    some e.1 ≠ self && (some e.2.enrolment.card = card || some e.2.enrolment.reference = reference)

/-- The record ENROL creates (R7). -/
def enrolled (a : EnrolArgs) : Pupil :=
  ⟨⟨a.card, a.reference, a.cohort, a.form, a.contacts, a.permit, ((a.office.getD none).getD false)⟩, .fresh⟩

/-- The slot ENROL takes: the named one, or the lowest not in use. -/
def enrolSlot (a : EnrolArgs) (s : State) : Option Slot :=
  match a.slot with
  | some k => some k
  | none => (List.range slotCount).find? fun k => !slotInUse k s

/-- ENROL (R7). -/
def enrol (a : EnrolArgs) (s : State) : State × Reply :=
  if saveHolds .roster s then refuse .storeBusy s
  else if !enrolOk a then refuse .badValue s
  else if a.slot.any (slotInUse · s) then refuse .wrongState s
  else
    match enrolSlot a s with
    | none => refuse .full s
    | some slot =>
      if duplicate (some a.card) (some a.reference) none s then refuse .duplicate s
      else (settle (putPupil slot (enrolled a) s), .ok [.num slot])

/-! ### AMEND -/

/-- Every value AMEND gives is in range. -/
def amendOk (a : AmendArgs) : Bool :=
  slotOk a.slot && optOk cardOk a.card && optOk referenceOk a.reference && optOk cohortOk a.cohort && optOk formOk a.form &&
    optOk (optOk timeOk) a.permit && optOk Option.isSome a.office && optOk contactsOk a.contacts

/-- The enrolment part with every given field replaced (R8). -/
def amended (a : AmendArgs) (e : Enrolment) : Enrolment where
  card := a.card.getD e.card
  reference := a.reference.getD e.reference
  cohort := a.cohort.getD e.cohort
  form := a.form.getD e.form
  contacts := a.contacts.getD e.contacts
  permit := a.permit.getD e.permit
  office := (a.office.getD none).getD e.office

/-- AMEND (R8). -/
def amend (a : AmendArgs) (s : State) : State × Reply :=
  if saveHolds .roster s then refuse .storeBusy s
  else if slotOk a.slot && (pupilAt a.slot s).isNone then refuse .noSuch s
  else if !amendOk a then refuse .badValue s
  else if duplicate a.card a.reference (some a.slot) s then refuse .duplicate s
  else
    match pupilAt a.slot s with
    | none => refuse .noSuch s
    | some p => (settle (putPupil a.slot { p with enrolment := amended a p.enrolment } s), .ok [])

/-! ### WITHDRAW -/

/-- The returned steps of broadcasts that name a slot of a set are dropped (R1, R9). -/
def dropReturned (gone : Slot → Bool) (s : State) : State :=
  { s with
    notices :=
      { s.notices with
        queue :=
          s.notices.queue.map fun n =>
            match n.addressee with
            | .pupil _ _ => n
            | .broadcast b => { n with addressee := .broadcast { b with returned := b.returned.filter fun r => !gone r.1 } } } }

/-- Every Away List entry of the slots of a set is removed (R1, R9). -/
def dropAway (gone : Slot → Bool) (s : State) : State :=
  { s with roll := { s.roll with away := s.roll.away.filter fun e => !gone e.slot } }

/-- What the roll and the notices lose with the pupils of a set of slots (R1, R9). -/
def forgetSlots (gone : Slot → Bool) (s : State) : State :=
  dropReturned gone
    (withdrawWhere
      (fun n =>
        match n.addressee with
        | .pupil k _ => gone k
        | .broadcast _ => false)
      (dropAway gone s))

/-- WITHDRAW (R9). -/
def withdraw (slot : Slot) (s : State) : State × Reply :=
  if !slotOk slot then refuse .badValue s
  else if saveHolds .roster s || saveHolds .away s then refuse .storeBusy s
  else
    match pupilAt slot s with
    | none => refuse .noSuch s
    | some _ =>
      let s1 := forgetSlots (· = slot) s
      (settle { s1 with roll := s1.roll.remove slot }, .ok [])

/-! ### Reading -/

/-- The fields of a record (R10): those always present in place, the others by name (log 8). -/
def pupilItems (p : Pupil) : List Item :=
  let e := p.enrolment
  let d := p.day
  [.num e.card, .num e.reference, .num e.cohort, .num e.form, .contacts e.contacts, yesNo e.office,
    .word (markWord d.mark), yesNo d.disputed] ++
    optItem "PERMIT" .time e.permit ++ optItem "SOURCE" (fun x => .word (markSourceWord x)) d.source ++
    optItem "TIME" .time d.arrival ++ optItem "TERMINAL" .num d.terminal ++
    optItem "REASON" (fun x => .word (reasonWord x)) d.reason ++ optItem "BACK" .time d.back ++
    optItem "ASKED" .num d.asked ++ optItem "HELD" (fun x => .word (markWord x)) d.heldMark

/-- PUPIL (R10). -/
def pupil (slot : Slot) (s : State) : State × Reply :=
  if !slotOk slot then refuse .badValue s
  else
    match pupilAt slot s with
    | none => okWith (.word "EMPTY" :: if slotAddressed slot s then [.word "IN_USE"] else []) s
    | some p => okWith (pupilItems p) s

/-- The place of a contact ID in a contacts list. -/
def contactPlace (id : Nat) (l : List Contact) : Option Nat := l.findIdx? (·.id = id)

/-- The slots whose contacts lists hold a contact ID, with its place. -/
def withContact (id : Nat) (s : State) : List (Slot × Nat) :=
  s.roll.roster.filterMap fun e => (contactPlace id e.2.enrolment.contacts).map fun k => (e.1, k)

/-- The slot of the first record that meets a test. -/
def slotReply (p : Pupil → Bool) (s : State) : State × Reply :=
  match s.roll.roster.find? fun e => p e.2 with
  | none => refuse .noSuch s
  | some e => okWith [.num e.1] s

/-- FIND (R11). -/
def findPupil (q : FindQuery) (s : State) : State × Reply :=
  match q with
  | .card key => if cardOk key then slotReply (·.enrolment.card = key) s else refuse .badValue s
  | .reference ref => if referenceOk ref then slotReply (·.enrolment.reference = ref) s else refuse .badValue s
  | .contact id start =>
    if !contactIdOk id || !slotOk start then refuse .badValue s
    else
      let all := withContact id s
      okWith
        (.num all.length :: ((all.filter (start ≤ ·.1)).take 16).flatMap fun r => [.num r.1, .num r.2]) s

/-- A record meets the selections of MARKS (R12). -/
def marksSelect (a : MarksArgs) (e : Slot × Pupil) : Bool :=
  a.start ≤ e.1 && e.2.enrolment.cohort = a.cohort && a.mark.all (· = some e.2.day.mark) &&
    a.form.all (· = e.2.enrolment.form) && (a.disputed.isNone || e.2.day.disputed)

/-- One entry of MARKS (R12). -/
def marksEntry (e : Slot × Pupil) : List Item :=
  [.num e.1, .word (markWord e.2.day.mark)] ++
    optItem "SOURCE" (fun x => .word (markSourceWord x)) e.2.day.source ++ optItem "TIME" .time e.2.day.arrival

/-- What names the next page: the number of its first entry, or END. -/
def nextNumber {α : Type} (f : α → Nat) : Option α → List Item
  | none => [.word "END"]
  | some a => [.num (f a)]

/-- MARKS (R12). -/
def marks (a : MarksArgs) (s : State) : State × Reply :=
  if !cohortOk a.cohort || !optOk Option.isSome a.mark || !optOk formOk a.form || a.disputed = some false ||
      !slotOk a.start then
    refuse .badValue s
  else okWith (pageItems 16 [] marksEntry (nextNumber (·.1)) (s.roll.roster.filter (marksSelect a))) s

/-- The census line of one cohort (R19). -/
def censusItems (c : Nat) (s : State) : List Item :=
  let row := s.roll.census.getD c []
  .num c :: row.map .num ++
    [.num row.sum, .num (s.roll.roster.countP fun e => e.2.enrolment.cohort = c && e.2.day.disputed)]

/-- CENSUS (R19). A FROM past the last item gives no items (DESIGN CHOICE, log 39). -/
def census (cohort : Option Nat) (start : Nat) (s : State) : State × Reply :=
  match cohort with
  | some c => if cohortOk c then okWith (moreItems start [censusItems c s]) s else refuse .badValue s
  | none => okWith (moreItems start ((List.range 8).map (censusItems · s))) s

/-! ### MARK -/

/-- The targets MARK may set (R13). -/
def markTarget : Mark → Bool
  | .unseen | .excused | .expected | .signedOut => true
  | _ => false

/-- The reasons MARK may give (R13). -/
def officeReason : ExcuseReason → Bool
  | .closure => false
  | _ => true

/-- Target, reason and back time agree (R13). -/
def markArgsOk (a : MarkArgs) : Bool :=
  optOk timeOk a.back &&
    match a.target, a.reason with
    | some .excused, some (some r) => officeReason r && (a.back.isNone || r = .appointment)
    | some .excused, _ => false
    | some m, none => markTarget m && a.back.isNone
    | _, _ => false

/-- An arrival mark with source TAP is overruled (R14). -/
def overrulesTap (d : DayPart) : Bool := isArrivalMark d.mark && d.source = some .tap

/-- The day part MARK to UNSEEN, EXCUSED or EXPECTED leaves (R14). -/
def markedAs (m : Mark) (reason : Option ExcuseReason) (back : Option SchoolTime) (d : DayPart) : DayPart :=
  { d with
    mark := m, source := some .office, arrival := none, terminal := none, heldMark := none, reason := reason, back := back,
    disputed := d.disputed || overrulesTap d }

/-- The day part MARK to SIGNED_OUT leaves (R16). -/
def signedOut (d : DayPart) : DayPart := { d with mark := .signedOut, source := some .office, heldMark := some d.mark }

/-- A mark a pupil may sign out from (R13). -/
def maySignOut (m : Mark) : Bool := isArrivalMark m && m ≠ .signedOut

/-- MARK (R13, R14, R16). -/
def mark (a : MarkArgs) (s : State) : State × Reply :=
  if !slotOk a.slot then refuse .badValue s
  else if !dayIsOpen s then refuse .dayNotOpen s
  else if !markArgsOk a then refuse .badValue s
  else
    match pupilAt a.slot s, a.target with
    | some p, some .signedOut =>
      if maySignOut p.day.mark then
        let s1 := claim a.slot signedOut s
        (settle s1, .ok [markItem a.slot s1])
      else refuse .wrongState s
    | some p, some m =>
      let s1 := claim a.slot (markedAs m (a.reason.getD none) a.back) s
      let s2 := if overrulesTap p.day then raise .dispute (some (.slot a.slot)) s1 else s1
      (settle s2, .ok [markItem a.slot s2])
    | none, _ => refuse .noSuch s
    | some _, none => refuse .badValue s

/-! ### Meanings -/

/-- ENROL (R7). -/
def execEnrol (a : EnrolArgs) (s : State) : Host.Outcome State Fault Refusal := request (enrol a) s

/-- AMEND (R8). -/
def execAmend (a : AmendArgs) (s : State) : Host.Outcome State Fault Refusal := request (amend a) s

/-- WITHDRAW (R9). -/
def execWithdraw (slot : Slot) (s : State) : Host.Outcome State Fault Refusal := request (withdraw slot) s

/-- PUPIL (R10). -/
def execPupil (slot : Slot) (s : State) : Host.Outcome State Fault Refusal := request (pupil slot) s

/-- FIND (R11). -/
def execFind (q : FindQuery) (s : State) : Host.Outcome State Fault Refusal := request (findPupil q) s

/-- MARKS (R12). -/
def execMarks (a : MarksArgs) (s : State) : Host.Outcome State Fault Refusal := request (marks a) s

/-- MARK (R13). -/
def execMark (a : MarkArgs) (s : State) : Host.Outcome State Fault Refusal := request (mark a) s

/-- CENSUS (R19). -/
def execCensus (cohort : Option Nat) (start : Nat) (s : State) : Host.Outcome State Fault Refusal :=
  request (census cohort start) s

end Sys2Proof.Machine
end

