-- ==== Sys2Proof/Machine/AwayList.lean ====
section
/-! DEFINITION. The Away List: its order (R22), AWAY (R23), the effect on today (R24), ranges of parent replies (R25), UNAWAY
and AWAYS (R26). -/

namespace Sys2Proof.Machine

/-- An entry stands at or before another in the list's order (R22). -/
def awayBefore (x y : AwayEntry) : Bool := x.first < y.first || (x.first = y.first && x.slot ≤ y.slot)

/-- An entry placed in order (R22). -/
def placeAway (e : AwayEntry) : List AwayEntry → List AwayEntry
  | [] => [e]
  | h :: t => if awayBefore h e then h :: placeAway e t else e :: h :: t

/-- The Away List changed. -/
def setAway (f : List AwayEntry → List AwayEntry) (s : State) : State :=
  { s with roll := { s.roll with away := f s.roll.away } }

/-- An entry overlaps a range of the same slot (R22). -/
def awayOverlaps (slot : Slot) (first last : Date) (e : AwayEntry) : Bool :=
  e.slot = slot && e.first ≤ last && first ≤ e.last

/-- An entry added or widened acts on today (R24): while OPEN, or while OPENING for a slot the sweep has passed. -/
def awayActs (e : AwayEntry) (s : State) : State :=
  let live := s.day.state = .open_ ∨ (s.day.state = .opening ∧ e.slot < s.day.cursor)
  if live ∧ e.first ≤ today s ∧ today s ≤ e.last then excuseUnaccounted .away e.reason e.slot s else s

/-- A new entry added, with its effect on today (R23, R24). -/
def addAway (e : AwayEntry) (s : State) : State := awayActs e (setAway (placeAway e) s)

/-- A reason the Away List may hold (R22). -/
def awayReason : Option ExcuseReason → Bool
  | none => false
  | some r => officeReason r

/-- AWAY (R23). -/
def away (slot : Slot) (first last : Date) (reason : Option ExcuseReason) (s : State) : State × Reply :=
  if !slotOk slot then refuse .badValue s
  else if saveHolds .away s then refuse .storeBusy s
  else if !s.time.valid then refuse .clockInvalid s
  else if !dateOk first || !dateOk last || last < first || last < s.time.date || !awayReason reason then refuse .badValue s
  else if (pupilAt slot s).isNone then refuse .noSuch s
  else if s.roll.away.any (awayOverlaps slot first last) then refuse .overlap s
  else if awayLimit ≤ s.roll.away.length then refuse .full s
  else (settle (addAway ⟨slot, first, last, reason.getD .ill, .office⟩ s), .ok [])

/-- A range a parent ILL reply offers for one slot (R25): added, refused for a full list, or merged with the entries it
overlaps. -/
def takeRange (first last : Date) (s : State) (slot : Slot) : State :=
  match s.roll.away.filter (awayOverlaps slot first last) with
  | [] =>
    if s.roll.away.length < awayLimit then addAway ⟨slot, first, last, .ill, .parent⟩ s
    else raise .full (some (.slot slot)) s
  | h :: t =>
    let merged : AwayEntry :=
      { h with first := min first h.first, last := t.foldl (fun m e => max m e.last) (max last h.last) }
    awayActs merged (setAway (fun l => placeAway merged (l.filter fun e => !awayOverlaps slot first last e)) s)

/-- UNAWAY (R26). -/
def unaway (slot : Slot) (first : Date) (s : State) : State × Reply :=
  if !slotOk slot || !dateOk first then refuse .badValue s
  else if saveHolds .away s then refuse .storeBusy s
  else if s.roll.away.any fun e => e.slot = slot && e.first = first then
    (setAway (·.filter fun e => !(e.slot = slot && e.first = first)) s, .ok [])
  else refuse .noSuch s

/-- One entry of AWAYS (R26). -/
def awayItems (e : AwayEntry) : List Item :=
  [.num e.slot, .date e.first, .date e.last, .word (reasonWord e.reason), .word (awaySourceWord e.source)]

/-- What names the next page of AWAYS: a first date and a slot, or END. -/
def nextAway : Option AwayEntry → List Item
  | none => [.word "END"]
  | some e => [.date e.first, .num e.slot]

/-- AWAYS (R26). -/
def aways (slot : Option Slot) (start : Option Date) (s : State) : State × Reply :=
  if !optOk slotOk slot || !optOk dateOk start then refuse .badValue s
  else
    let d := start.getD s.time.date
    okWith (pageItems 12 [] awayItems nextAway (s.roll.away.filter fun e => d ≤ e.last && slot.all (· = e.slot))) s

/-! ### Meanings -/

/-- AWAY (R23). -/
def execAway (slot : Slot) (first last : Date) (reason : Option ExcuseReason) (s : State) :
    Host.Outcome State Fault Refusal :=
  request (away slot first last reason) s

/-- UNAWAY (R26). -/
def execUnaway (slot : Slot) (first : Date) (s : State) : Host.Outcome State Fault Refusal := request (unaway slot first) s

/-- AWAYS (R26). -/
def execAways (slot : Option Slot) (start : Option Date) (s : State) : Host.Outcome State Fault Refusal :=
  request (aways slot start) s

end Sys2Proof.Machine
end

