-- ==== Sys2Proof/Machine/DayRequests.lean ====
section
/-! DEFINITION. The Day Controller's requests: DATEPUT, DATEDROP, DATES (R34), OPEN (R37), CLOSE (R42), CLOSURE (R43, R44),
DAY (R45). -/

namespace Sys2Proof.Machine

/-- A day type is in range (R33). -/
def dayTypeOk : DayType → Bool
  | .school bank => bank < 4
  | .closed => true

/-- The Calendar Table changed. -/
def setCalendar (f : List (Date × DayType) → List (Date × DayType)) (s : State) : State :=
  { s with day := { s.day with calendar := f s.day.calendar } }

/-- DATEPUT (R34). -/
def datePut (date : Date) (dayType : DayType) (s : State) : State × Reply :=
  if saveHolds .calendar s then refuse .storeBusy s
  else if !dateOk date || !dayTypeOk dayType || (s.time.valid && date < s.time.date) then refuse .badValue s
  else if (tableGet date s.day.calendar).isNone ∧ calendarLimit ≤ s.day.calendar.length then refuse .full s
  else (autoOpen (setCalendar (tablePut date dayType) s), .ok [])

/-- DATEDROP (R34). -/
def dateDrop (date : Date) (s : State) : State × Reply :=
  if !dateOk date then refuse .badValue s
  else if saveHolds .calendar s then refuse .storeBusy s
  else if (tableGet date s.day.calendar).isNone then refuse .noSuch s
  else (autoOpen (setCalendar (tableDrop date) s), .ok [])

/-- A day type as items: SCHOOL with its bank, or CLOSED. -/
def dayTypeItems : DayType → List Item
  | .school bank => [.word "SCHOOL", .num bank]
  | .closed => [.word "CLOSED"]

/-- What names the next page of DATES: a date, or END. -/
def nextDate : Option (Date × DayType) → List Item
  | none => [.word "END"]
  | some e => [.date e.1]

/-- DATES (R34). -/
def dates (start : Option Date) (s : State) : State × Reply :=
  if !optOk dateOk start then refuse .badValue s
  else
    let d := start.getD s.time.date
    okWith (pageItems 16 [] (fun e => .date e.1 :: dayTypeItems e.2) nextDate (s.day.calendar.filter (d ≤ ·.1))) s

/-- The bank OPEN runs: the given one, or that of the date's day type (R37). -/
def openBank (bank : Option Nat) (s : State) : Option Nat :=
  match bank, dayTypeOf s.time.date s with
  | some b, _ => some b
  | none, .school b => some b
  | none, .closed => none

/-- OPEN (R37). -/
def openDay (bank : Option Nat) (s : State) : State × Reply :=
  if !s.time.valid then refuse .clockInvalid s
  else if s.day.state ≠ .closed then refuse .wrongState s
  else if bank.any (4 ≤ ·) then refuse .badValue s
  else if rollLoadUnderWay s then refuse .storeBusy s
  else
    match openBank bank s with
    | none => refuse .badValue s
    | some b => (beginOpening b s, .ok [.date s.time.date, .num b])

/-- CLOSE (R42). -/
def closeDay (s : State) : State × Reply :=
  if dayIsOpen s then (settle (closeDayNow .close s), .ok []) else refuse .wrongState s

/-- A WAITING ABSENT notice (R43). -/
def Notice.isWaitingAbsent (n : Notice) : Bool := n.kind = .absent && !n.inWindow

/-- An entry as a declared closure leaves it (R44, R56, R57). -/
def closureEntry (now : SchoolTime) (e : PlanEntry) : PlanEntry :=
  if e.firing = .ahead ∧ e.entry.roll ≠ .dayClose then { e with firing := .cancelled, taken := some now } else e

/-- The AHEAD entries a declared closure cancels (R44, step 2). -/
def cancelEntries (s : State) : State :=
  { s with
    plan :=
      { s.plan with today := { s.plan.today with entries := s.plan.today.entries.map (closureEntry s.time.school) } } }

/-- A broadcast addressee as it is created (R44, R174). -/
def newBroadcast (mask : List Nat) (reach : Reach) : Addressee := .broadcast ⟨mask, reach, 0, 0, [], 0, 0, 0, false⟩

/-- A declared closure (R44). -/
def declareClosure (textSlot : Nat) (s : State) : State :=
  let s1 := abandonSweeps (cancelEntries { s with day := { s.day with closureFlag := true, closureText := some textSlot } })
  let s2 :=
    (slotsWhere (fun p => isUnaccountedMark p.day.mark) s1).foldl (fun s k => excuseUnaccounted .closure .closure k s) s1
  raise .day none (addNotice .closure (newBroadcast [0, 1, 2, 3, 4, 5, 6, 7] .first) 15 none (some textSlot) s2)

/-- CLOSURE (R43, R44). -/
def closure (textSlot : Nat) (s : State) : State × Reply :=
  if !dayIsOpen s then refuse .dayNotOpen s
  else if 16 ≤ textSlot then refuse .badValue s
  else if (s.notices.texts.getD textSlot []).isEmpty then refuse .noSuch s
  else if s.day.closureFlag then refuse .wrongState s
  else if queueFull s ∧ ¬s.notices.queue.any (·.isWaitingAbsent) then refuse .full s
  else
    let s1 := declareClosure textSlot s
    (settle s1, .ok [.num s1.notices.counter])

/-- The word of a day state. -/
def dayStateWord : DayState → String
  | .closed => "CLOSED" | .opening => "OPENING" | .open_ => "OPEN"

/-- The word of a close cause. -/
def closeCauseWord : CloseCause → String
  | .dayClose => "DAY_CLOSE" | .close => "CLOSE" | .dateChange => "DATE_CHANGE"

/-- The word of a cohort phase. -/
def phaseWord : Phase → String
  | .beforeRegistration => "BEFORE_REGISTRATION" | .registrationOpen => "REGISTRATION_OPEN"
  | .cutListed => "CUT_LISTED" | .cutDone => "CUT_DONE"

/-- The part of DAY that stands before the cohorts (R45). -/
def dayPart (s : State) : List Item :=
  let d := s.day
  [.word (dayStateWord d.state)] ++ optItem "DATE" .date d.date ++ optItem "BANK" .num d.bank ++
    optItem "OPENED" .time d.openingTime ++ optItem "CAUSE" (fun c => .word (closeCauseWord c)) d.closeCause ++
    [yesNo d.closureFlag] ++ optItem "TEXT" .num d.closureText ++
    (if d.state = .opening then [.named "CURSOR" (.num d.cursor)] else [])

/-- A Cohort Table entry (R45). The cohort's number before it is in no rule (DESIGN CHOICE, log 54). -/
def cohortItems (n : Nat) (c : Cohort) : List Item :=
  [.num n, .word (phaseWord c.phase)] ++ optItem "REGISTRATION" .time c.registration ++ [.num c.grace] ++
    optItem "CUT" .time c.cut

/-- DAY (R45). -/
def dayRead (start : Nat) (s : State) : State × Reply :=
  okWith (moreItems start (dayPart s :: (List.range 8).map fun n => cohortItems n (s.day.cohorts.getD n .fresh))) s

/-! ### Meanings -/

/-- DATEPUT (R34). -/
def execDatePut (date : Date) (dayType : DayType) (s : State) : Host.Outcome State Fault Refusal :=
  request (datePut date dayType) s

/-- DATEDROP (R34). -/
def execDateDrop (date : Date) (s : State) : Host.Outcome State Fault Refusal := request (dateDrop date) s

/-- DATES (R34). -/
def execDates (start : Option Date) (s : State) : Host.Outcome State Fault Refusal := request (dates start) s

/-- OPEN (R37). -/
def execOpenDay (bank : Option Nat) (s : State) : Host.Outcome State Fault Refusal := request (openDay bank) s

/-- CLOSE (R42). -/
def execCloseDay (s : State) : Host.Outcome State Fault Refusal := request closeDay s

/-- CLOSURE (R43). -/
def execClosure (textSlot : Nat) (s : State) : Host.Outcome State Fault Refusal := request (closure textSlot) s

/-- DAY (R45). -/
def execDay (start : Nat) (s : State) : Host.Outcome State Fault Refusal := request (dayRead start) s

end Sys2Proof.Machine
end

