-- ==== Sys2Proof/Machine/Plans.lean ====
section
/-! DEFINITION. The Plan Engine's requests: ENTRYPUT (R51, R52), ENTRYDROP, BANKCLEAR (R53), HEADER (R54), BANK (R55), ADOPT
(R69), TODAY (R71). -/

namespace Sys2Proof.Machine

/-! ### Entries -/

/-- A bank number is in range. -/
def bankOk (n : Nat) : Bool := n < 4

/-- A set argument with one or more members, all within bounds. -/
def maskOk (lo hi : Nat) (l : List Nat) : Bool := !l.isEmpty && setInRange lo hi l

/-- The chime part a request gives (R51): `none` for one out of range or given in part. -/
def chimeOf (a : EntryPutArgs) : Option (Option ChimePart) :=
  match a.pattern, a.zones, a.priority with
  | none, none, none => some none
  | some p, some z, some pr =>
    if p < 32 ∧ maskOk 1 6 z ∧ 1 ≤ pr ∧ pr ≤ 15 then some (some ⟨p, setWithin 1 6 z, pr⟩) else none
  | _, _, _ => none

/-- The roll part a request gives (R51): `none` for a field out of range, missing, or not held by the kind. -/
def rollOf (a : EntryPutArgs) : Option RollPart :=
  match a.kind, a.cohorts, a.grace, a.hold with
  | some .chime, none, none, none => some .chime
  | some .registration, some c, some g, none =>
    if maskOk 0 7 c ∧ g ≤ 30 then some (.registration (setWithin 0 7 c) g) else none
  | some .absenceCut, some c, none, none => if maskOk 0 7 c then some (.absenceCut (setWithin 0 7 c)) else none
  | some .noticeDeadline, none, none, none => some .noticeDeadline
  | some .noticeHold, none, none, some h => if 1 ≤ h ∧ h ≤ 240 then some (.noticeHold h) else none
  | some .dayClose, none, none, none => some .dayClose
  | _, _, _, _ => none

/-- The entry a request gives (R51, R52), `none` where it is refused with BAD_VALUE. -/
def entryOf (a : EntryPutArgs) : Option BankEntry :=
  if a.amiss || !bankOk a.bank || !timeOk a.time then none
  else
    match rollOf a, chimeOf a with
    | some r, some c => if r = .chime ∧ c = none then none else some ⟨a.time, r, c⟩
    | _, _ => none

/-- The chime part asks for the override band (R52). -/
def BankEntry.isOverride (e : BankEntry) : Bool := e.chime.any fun c => overridePriority ≤ c.priority

/-- The position a new entry takes (R52): after every entry whose time is at or before its own. -/
def entryPosition (time : SchoolTime) (l : List BankEntry) : Nat := (l.takeWhile (·.time ≤ time)).length

/-- A bank. -/
def bankAt (n : Nat) (s : State) : Bank := s.plan.banks.getD n .empty

/-- A bank changed. -/
def modifyBank (n : Nat) (f : Bank → Bank) (s : State) : State :=
  { s with plan := { s.plan with banks := s.plan.banks.modify n f } }

/-- ENTRYPUT (R52). -/
def entryPut (a : EntryPutArgs) (s : State) : State × Reply :=
  if storeHolds .plans s then refuse .storeBusy s
  else
    match entryOf a with
    | none => refuse .badValue s
    | some e =>
      if e.isOverride && !s.limits.override then refuse .notAllowed s
      else
        let l := (bankAt a.bank s).entries
        if bankLimit ≤ l.length then refuse .full s
        else
          let k := entryPosition e.time l
          (modifyBank a.bank (fun b => { b with entries := b.entries.take k ++ e :: b.entries.drop k }) s, .ok [.num k])

/-- ENTRYDROP (R53). -/
def entryDrop (bank position : Nat) (s : State) : State × Reply :=
  if storeHolds .plans s then refuse .storeBusy s
  else if !bankOk bank then refuse .badValue s
  else if (bankAt bank s).entries.length ≤ position then refuse .noSuch s
  else (modifyBank bank (fun b => { b with entries := b.entries.eraseIdx position }) s, .ok [])

/-- BANKCLEAR (R53). -/
def bankClear (bank : Nat) (s : State) : State × Reply :=
  if storeHolds .plans s then refuse .storeBusy s
  else if !bankOk bank then refuse .badValue s
  else (modifyBank bank (fun b => { b with entries := [] }) s, .ok [.num (bankAt bank s).entries.length])

/-- A bank's name is at most 12 characters of the name set (R54). -/
def nameOk (t : Text) : Bool := t.length ≤ 12 && t.all isNameChar

/-- HEADER (R54). -/
def header (bank : Nat) (write : Option (Text × Option Select)) (s : State) : State × Reply :=
  match write with
  | none =>
    if !bankOk bank then refuse .badValue s
    else
      let b := bankAt bank s
      okWith [.num bank, .quoted b.name, .word (selectWord b.select), .num b.entries.length] s
  | some (name, select) =>
    if storeHolds .plans s then refuse .storeBusy s
    else if !bankOk bank || !nameOk name then refuse .badValue s
    else
      match select with
      | none => refuse .badValue s
      | some t => (modifyBank bank (fun b => { b with name := name, select := t }) s, .ok [])

/-! ### Reading -/

/-- The kind of an entry as a word (R51). -/
def kindWord : RollPart → String
  | .chime => "CHIME" | .registration _ _ => "REGISTRATION" | .absenceCut _ => "ABSENCE_CUT"
  | .noticeDeadline => "NOTICE_DEADLINE" | .noticeHold _ => "NOTICE_HOLD" | .dayClose => "DAY_CLOSE"

/-- The fields of a roll part. -/
def rollItems : RollPart → List Item
  | .registration c g => [.named "COHORTS" (.set c), .named "GRACE" (.num g)]
  | .absenceCut c => [.named "COHORTS" (.set c)]
  | .noticeHold h => [.named "HOLD" (.num h)]
  | _ => []

/-- The fields of a chime part. -/
def chimeItems : Option ChimePart → List Item
  | none => []
  | some c => [.named "PATTERN" (.num c.pattern), .named "ZONES" (.set c.zones), .named "PRIORITY" (.num c.priority)]

/-- An entry with its position or index (R55, R71). -/
def entryItems (k : Nat) (e : BankEntry) : List Item :=
  [.num k, .time e.time, .word (kindWord e.roll)] ++ chimeItems e.chime ++ rollItems e.roll

/-- BANK (R55). -/
def bankRead (bank start : Nat) (s : State) : State × Reply :=
  if !bankOk bank || bankLimit ≤ start then refuse .badValue s
  else
    okWith
      (pageItems 8 [] (fun e => entryItems e.2 e.1) (nextNumber (·.2)) ((bankAt bank s).entries.zipIdx.drop start)) s

/-- The word of a firing state (R57). -/
def firingWord : Firing → String
  | .ahead => "AHEAD" | .done => "DONE" | .missed => "MISSED" | .passed => "PASSED" | .cancelled => "CANCELLED"

/-- An entry of Today's Plan (R71). -/
def planItems (e : PlanEntry × Nat) : List Item :=
  entryItems e.2 e.1.entry ++ [.word (firingWord e.1.firing), .word (outcomeWord e.1.outcome)] ++
    optItem "TAKEN" .time e.1.taken

/-- The header part of TODAY (R71). A Name is quoted, so it can be no Named value (Formats and Pins, Office lines); log 8. -/
def todayHead (s : State) : List Item :=
  let t := s.plan.today
  [.num t.copyNumber] ++ optItem "BANK" .num t.source ++
    (match t.header with
     | none => []
     | some h => [.quoted h.1, .named "SELECT" (.word (selectWord h.2))]) ++
    [.word (dayStateWord s.day.state), .num s.settings.catchUp]

/-- TODAY (R71). -/
def todayRead (start : Nat) (s : State) : State × Reply :=
  if bankLimit ≤ start then refuse .badValue s
  else okWith (pageItems 8 (todayHead s) planItems (nextNumber (·.2)) (s.plan.today.entries.zipIdx.drop start)) s

/-! ### ADOPT -/

/-- The copy ADOPT makes (R69, steps 1–4). -/
def adoptCopy (bank : Nat) (s : State) : State :=
  let s1 := makeCopy bank (fun t => if t < s.time.school then .passed else .ahead) s
  { s1 with day := { s1.day with bank := some bank } }

/-- The entries of Today's Plan in a firing state. -/
def firingCount (f : Firing) (s : State) : Nat := s.plan.today.entries.countP (·.firing = f)

/-- ADOPT (R69). -/
def adopt (bank : Nat) (s : State) : State × Reply :=
  if !dayIsOpen s then refuse .dayNotOpen s
  else if !bankOk bank then refuse .badValue s
  else if s.day.closureFlag then refuse .wrongState s
  else
    let s1 := adoptCopy bank s
    (settle (takeOnTime s1),
      .ok [.num s1.plan.today.copyNumber, .num (firingCount .passed s1), .num (firingCount .ahead s1)])

/-! ### Meanings -/

/-- ENTRYPUT (R52). -/
def execEntryPut (a : EntryPutArgs) (s : State) : Host.Outcome State Fault Refusal := request (entryPut a) s

/-- ENTRYDROP (R53). -/
def execEntryDrop (bank position : Nat) (s : State) : Host.Outcome State Fault Refusal :=
  request (entryDrop bank position) s

/-- BANKCLEAR (R53). -/
def execBankClear (bank : Nat) (s : State) : Host.Outcome State Fault Refusal := request (bankClear bank) s

/-- HEADER (R54). -/
def execHeader (bank : Nat) (write : Option (Text × Option Select)) (s : State) : Host.Outcome State Fault Refusal :=
  request (header bank write) s

/-- BANK (R55). -/
def execBank (bank start : Nat) (s : State) : Host.Outcome State Fault Refusal := request (bankRead bank start) s

/-- ADOPT (R69). -/
def execAdopt (bank : Nat) (s : State) : Host.Outcome State Fault Refusal := request (adopt bank) s

/-- TODAY (R71). -/
def execToday (start : Nat) (s : State) : Host.Outcome State Fault Refusal := request (todayRead start) s

end Sys2Proof.Machine
end

