-- ==== Sys2Proof/Machine/Bells.lean ====
section
/-! DEFINITION. The bell requests PATTERNPUT, PATTERN (R74), VOLUME (R88), MUTE (R91), PLAY (R96), HUSH (R97), and the events of
the channels, the Wait List, the quiet inputs and the bell button (R76, R77, R83, R89, R93–R95). -/

namespace Sys2Proof.Machine

/-! ### The Pattern Table -/

/-- A LOOP step. -/
def isLoopStep : PatternStep → Bool
  | .loop .. => true
  | _ => false

/-- A step's fields are in range, and a LOOP goes back over no other LOOP (R73, R74). -/
def stepOk (steps : List PatternStep) (i : Nat) : PatternStep → Bool
  | .tone p l v => 1 ≤ p && p ≤ 63 && 1 ≤ l && l ≤ 255 && v ≤ 15
  | .rest l => 1 ≤ l && l ≤ 255
  | .strike w => 1 ≤ w && w ≤ 255
  | .loop back count => back < i && 1 ≤ count && count ≤ 15 && !((steps.take i).drop back).any isLoopStep
  | .stop => true

/-- A list of steps that a pattern may hold (R72, R74). -/
def stepsOk (l : List PatternStep) : Bool :=
  1 ≤ l.length && l.length ≤ patternLimit && l.zipIdx.all fun e => stepOk l e.2 e.1

/-- A pattern number is in range. -/
def patternOk (n : Nat) : Bool := n < 32

/-- PATTERNPUT (R74). -/
def patternPut (pattern : Nat) (steps : Option (List PatternStep)) (s : State) : State × Reply :=
  if storeHolds .patterns s then refuse .storeBusy s
  else if !patternOk pattern || !optOk stepsOk steps then refuse .badValue s
  else
    let l := steps.getD []
    ({ s with chime := { s.chime with patterns := s.chime.patterns.set pattern l } }, .ok [.num l.length])

/-- PATTERN (R74); a list too long for a reply is cut as a reply without pages is (log 11). -/
def patternRead (pattern : Nat) (s : State) : State × Reply :=
  if !patternOk pattern then refuse .badValue s
  else
    match s.chime.patterns.getD pattern [] with
    | [] => okWith [.word "EMPTY"] s
    | l => okWith (moreItems 0 (l.zipIdx.map fun e => [.num e.2, .step e.1])) s

/-! ### VOLUME and MUTE -/

/-- The values of VOLUME (R88). -/
def volumeItems (g : Group) (s : State) : List Item :=
  [groupItem g, .num (volumeOf g s), .num (ceilingOf g s), .num (effectiveVolume g s), onOff (wakeActive g s)]

/-- A group's volume written. -/
def setVolume (g : Group) (v : Nat) (s : State) : State :=
  let gv := s.settings.groupVolume
  { s with
    settings := { s.settings with groupVolume := match g with | .a => { gv with a := v } | .b => { gv with b := v } } }

/-- VOLUME (R88). -/
def volume (group : Option Group) (value : Option Nat) (s : State) : State × Reply :=
  match group, value with
  | none, _ => refuse .badValue s
  | some g, none => okWith (volumeItems g s) s
  | some g, some v =>
    if 15 < v then refuse .badValue s
    else if saveHolds .settings s then refuse .storeBusy s
    else
      let s1 := setVolume g v s
      (s1, .ok (volumeItems g s1))

/-- The channel that owns a zone (R79). -/
def ownerOf (z : Nat) (s : State) : Option Nat := channelNumbers.find? fun n => (channelAt n s).zones.contains z

/-- By which inputs a zone is quiet. -/
def quietWord (z : Nat) (s : State) : String :=
  match quietBy .qa z s, quietBy .qb z s with
  | false, false => "NONE"
  | true, false => "QA"
  | false, true => "QB"
  | true, true => "BOTH"

/-- The line of one zone (R91). -/
def zoneItems (z : Nat) (s : State) : List Item :=
  [.num z, groupItem (groupOfZone s.settings.zoneGroup z), onOff (zoneMuted z s), .word (quietWord z s)] ++
    (match ownerOf z s with
     | none => []
     | some n => [.named "CHANNEL" (.num n), .named "PRIORITY" (.num ((channelAt n s).priority.getD 0))]) ++
    [onOff (relayActive z s)]

/-- The values of MUTE (R91). -/
def muteItems (s : State) : List Item := allZones.flatMap (zoneItems · s)

/-- The mutes of a set of zones written. -/
def setMutes (zones : List Nat) (on : Bool) (s : State) : State :=
  { s with
    zone := { s.zone with mutes := s.zone.mutes.zipIdx.map fun e => if zones.contains (e.2 + 1) then on else e.1 } }

/-- MUTE (R91). -/
def mute (write : Option (List Nat × Option Bool)) (s : State) : State × Reply :=
  match write with
  | none => okWith (muteItems s) s
  | some (_, none) => refuse .badValue s
  | some (zones, some on) =>
    if !maskOk 1 6 zones then refuse .badValue s
    else
      let s1 := silenceChanged s (setMutes zones on s)
      (s1, .ok (muteItems s1))

/-! ### PLAY and HUSH -/

/-- Whole seconds left until a running time, rounded up (log 8). -/
def secondsLeft (t : RunTime) (s : State) : Nat := (t - s.time.running + (second - 1)) / second

/-- Whole seconds since a running time (log 8). -/
def secondsSince (t : RunTime) (s : State) : Nat := (s.time.running - t) / second

/-- A pattern as an item; the held strike is HELD (log 8). -/
def patternItem : PatternRef → Item
  | .table n => .num n
  | .heldStrike => .word "HELD"

/-- An origin as items. -/
def originItems : Origin → List Item
  | .plan copy index => [.named "ORIGIN" (.word "PLAN"), .named "COPY" (.num copy), .named "INDEX" (.num index)]
  | .office => [.named "ORIGIN" (.word "OFFICE")]
  | .button _ => [.named "ORIGIN" (.word "BUTTON")]

/-- The word of a channel state. -/
def channelWord : ChannelState → String
  | .idle => "IDLE" | .waking => "WAKING" | .playing => "PLAYING" | .tailing => "TAILING"

/-- A set of audio groups. -/
def groupsText (l : List Group) : Text :=
  match l.contains .a, l.contains .b with
  | true, true => ascii "A,B"
  | true, false => ascii "A"
  | false, true => ascii "B"
  | false, false => ascii "NONE"

/-- The line of one channel (R96). R75 has owned zones and audio groups present always, possibly empty, where R96 shows them where
present: an empty set is left out, not shown as NONE (DESIGN CHOICE, log 46). -/
def playChannelItems (n : Nat) (s : State) : List Item :=
  let c := channelAt n s
  [.num n, .word (channelWord c.state)] ++ optItem "PATTERN" patternItem c.pattern ++ optItem "STEP" .num c.step ++
    optItem "PRIORITY" .num c.priority ++ (c.origin.map originItems).getD [] ++
    (if c.zones.isEmpty then [] else [.named "ZONES" (.set c.zones)]) ++
    (if c.groups.isEmpty then [] else [.named "GROUPS" (.plain (groupsText c.groups))]) ++
    optItem "TAIL" (fun t => .num (secondsLeft t s)) c.tailEnd

/-- The line of one Wait List entry (R96). -/
def waitItems (s : State) (e : WaitEntry) : List Item :=
  [.word "WAIT", patternItem e.request.pattern, .num e.request.priority] ++ originItems e.request.origin ++
    [.set e.request.mask, .num (secondsLeft e.expiry s)]

/-- The line of a last-outcome record (R96). -/
def lastItems (origin : String) : Option LastOutcome → List (List Item)
  | none => []
  | some r => [[.named "LAST" (.word origin), .named "PATTERN" (patternItem r.pattern), .named "OUTCOME" (.word (outcomeWord r.outcome))]]

/-- The parts of PLAY's read form (R96). -/
def playParts (s : State) : List (List Item) :=
  channelNumbers.map (playChannelItems · s) ++ s.chime.waits.map (waitItems s) ++ lastItems "OFFICE" s.chime.lastOffice ++
    lastItems "BUTTON" s.chime.lastButton

/-- A decision on a request as reply values (R96). -/
def decisionItems : ChimeDecision → List Item
  | .playing n => [.word "PLAYING", .num n]
  | .waiting k => [.word "WAITING", .num k]
  | .silenced => [.word "SILENCED"]
  | .dropped => [.word "DROPPED"]

/-- PLAY (R96). -/
def play (a : PlayArgs) (s : State) : State × Reply :=
  match a with
  | .read start => okWith (moreItems start (playParts s)) s
  | .request p zones priority =>
    if !patternOk p || !maskOk 1 6 zones || priority < 1 || 15 < priority then refuse .badValue s
    else if overridePriority ≤ priority && !s.limits.override then refuse .notAllowed s
    else if patternEmpty (.table p) s then refuse .noSuch s
    else
      let r := decideRequest ⟨.table p, setWithin 1 6 zones, priority, .office, false, false⟩ s
      (r.1, .ok (decisionItems r.2))

/-- A channel holds a request (R75). -/
def holdsRequest (n : Nat) (s : State) : Bool :=
  match (channelAt n s).state with
  | .waking | .playing => true
  | .idle | .tailing => false

/-- HUSH of one channel (R97). -/
def hushChannel (n : Nat) (s : State) : State × Reply :=
  match (channelAt n s).state with
  | .waking | .playing => (examine (stopChannel n .cutShort s), .ok [])
  | .tailing => (tailEnds n s, .ok [])
  | .idle => refuse .wrongState s

/-- HUSH ALL (R97). The dropped waits report first, head first, then the stopped channels by number (DESIGN CHOICE, log 40). -/
def hushAll (s : State) : State × Reply :=
  let held := channelNumbers.filter (holdsRequest · s)
  (held.foldl (fun s n => stopChannel n .cutShort s) (dropWaits s), .ok [.num held.length, .num s.chime.waits.length])

/-- HUSH (R97). -/
def hush (t : HushTarget) (s : State) : State × Reply :=
  match t with
  | .channel n => if n < 4 then hushChannel n s else refuse .badValue s
  | .all => hushAll s
  | .other => refuse .badValue s

/-! ### Events of the channels and the Wait List -/

/-- The amplifier lead of a channel has passed (R76). -/
def wakingEnds (n : Nat) (s : State) : State :=
  let c := channelAt n s
  if c.state = .waking ∧ dueBy (wakingEndAt c s) s then
    let s1 := wakingTest n (reach (wakingEndAt c s) s)
    examineIf (!stillOwns n s1) s1
  else s

/-- A channel's step has ended (R77). -/
def stepEnds (n : Nat) (s : State) : State :=
  let c := channelAt n s
  match c.state, c.step, c.stepEnd with
  | .playing, some i, some (.timed t) =>
    if dueBy t s then
      let s1 := playFrom n (i + 1) (reach t s)
      examineIf (!stillOwns n s1) s1
    else s
  | _, _, _ => s

/-- A channel's tail has ended (R77). -/
def tailReached (n : Nat) (s : State) : State :=
  let c := channelAt n s
  match c.state, c.tailEnd with
  | .tailing, some t => if dueBy t s then tailEnds n (reach t s) else s
  | _, _ => s

/-- A Wait List entry has met its expiry (R83); places count from 1. -/
def waitExpires (place : Nat) (s : State) : State :=
  match if place = 0 then none else s.chime.waits[place - 1]? with
  | none => s
  | some e =>
    if dueBy e.expiry s then
      report e.request.origin e.request.pattern .dropped
        (setWaits (s.chime.waits.eraseIdx (place - 1)) (reach e.expiry s))
    else s

/-! ### The quiet inputs and the bell button -/

/-- A quiet input's latch and level written. -/
def setQuietInput (i : QuietInput) (level : Bool) (s : State) : State :=
  match i with
  | .qa =>
    { s with
      zone := { s.zone with quietLatch := { s.zone.quietLatch with qa := level } }, pins := { s.pins with qa := level } }
  | .qb =>
    { s with
      zone := { s.zone with quietLatch := { s.zone.quietLatch with qb := level } }, pins := { s.pins with qb := level } }

/-- A debounced change of a quiet input (R89). -/
def quietChange (i : QuietInput) (level : Bool) (s : State) : State := silenceChanged s (setQuietInput i level s)

/-- The bell button's latch and level written. -/
def setBell (pressed : Bool) (s : State) : State :=
  { s with zone := { s.zone with buttonLatch := pressed }, pins := { s.pins with bell := pressed } }

/-- What a press does in each button mode (R93). -/
def pressAction (s : State) : State :=
  match s.settings.buttonMode with
  | .off => s
  | .follow => buttonRequest .heldStrike false s
  | .single => buttonRequest (.table s.settings.buttonPattern) false s
  | .gate => buttonRequest (.table s.settings.buttonPattern) true s
  | .resync => snap s

/-- A press of the bell button (R93). -/
def bellPress (s : State) : State := if s.zone.buttonLatch then s else pressAction (setBell true s)

/-- A release of the bell button (R93). -/
def bellRelease (s : State) : State := if s.zone.buttonLatch then releaseButton (setBell false s) else s

/-! ### Meanings -/

/-- PATTERNPUT (R74). -/
def execPatternPut (pattern : Nat) (steps : Option (List PatternStep)) (s : State) : Host.Outcome State Fault Refusal :=
  request (patternPut pattern steps) s

/-- PATTERN (R74). -/
def execPattern (pattern : Nat) (s : State) : Host.Outcome State Fault Refusal := request (patternRead pattern) s

/-- VOLUME (R88). -/
def execVolume (group : Option Group) (value : Option Nat) (s : State) : Host.Outcome State Fault Refusal :=
  request (volume group value) s

/-- MUTE (R91). -/
def execMute (write : Option (List Nat × Option Bool)) (s : State) : Host.Outcome State Fault Refusal :=
  request (mute write) s

/-- PLAY (R96). -/
def execPlay (a : PlayArgs) (s : State) : Host.Outcome State Fault Refusal := request (play a) s

/-- HUSH (R97). -/
def execHush (t : HushTarget) (s : State) : Host.Outcome State Fault Refusal := request (hush t) s

/-- WAKING_END (R76). -/
def execWakingEnd (channel : Nat) (s : State) : Host.Outcome State Fault Refusal := event (wakingEnds channel) s

/-- STEP_END (R77). -/
def execStepEnd (channel : Nat) (s : State) : Host.Outcome State Fault Refusal := event (stepEnds channel) s

/-- TAIL_END (R77). -/
def execTailEnd (channel : Nat) (s : State) : Host.Outcome State Fault Refusal := event (tailReached channel) s

/-- WAIT_EXPIRY (R83). -/
def execWaitExpiry (place : Nat) (s : State) : Host.Outcome State Fault Refusal := event (waitExpires place) s

/-- QUIET_INPUT_CHANGE (R89). -/
def execQuietInputChange (input : QuietInput) (level : Bool) (s : State) : Host.Outcome State Fault Refusal :=
  event (quietChange input level) s

/-- BELL_BUTTON_PRESS (R93). -/
def execBellButtonPress (s : State) : Host.Outcome State Fault Refusal := event bellPress s

/-- BELL_BUTTON_RELEASE (R93). -/
def execBellButtonRelease (s : State) : Host.Outcome State Fault Refusal := event bellRelease s

end Sys2Proof.Machine
end

