-- ==== Sys2Proof/Machine/Line.lean ====
section
/-! DEFINITION. The Entrance Line Controller's events and requests: the end of ALERT (R103), walk steps (R106), READ TAPS and
its blocks (R107, R113–R117, R211), GIVE VERDICTS (R108), READ STATE (R109), liveness (R118), SEEKALL (R119), ADMIT (R120),
RETIRE (R121), TERMINALS (R122). -/

namespace Sys2Proof.Machine

/-! ### Answers of a transaction -/

/-- The entry of the transaction under way, if its answer is to be recorded (R121, R123; log 14). -/
def answeringEntry (s : State) : Option Nat :=
  if s.line.orphan then none
  else
    match s.line.job with
    | .liveness n _ => some n
    | .pollServe p => some p.entry
    | _ => none

/-- The answer of the transaction under way recorded. -/
def recordAnswer (f : Nat → State → State) (s : State) : State :=
  match answeringEntry s with
  | none => s
  | some n => f n s

/-- What follows a transaction with a terminal that calls for no further one: the round goes on, a liveness check ends. -/
def leaveTerminal (s : State) : State :=
  match s.line.job with
  | .pollServe p => serve p.rest s
  | _ => endJob s

/-- The transaction with a terminal ends in a missed answer (R102, R103). -/
def missTransaction (s : State) : State := afterTransaction leaveTerminal (recordAnswer missedAnswer s)

/-- The display-clock broadcast has been made (R110). -/
def broadcastMade (s : State) : State := endJob { s with line := { s.line with clockDue := false } }

/-- No ANSWER came to ALERT (R103). -/
def alertUnanswered (s : State) : State :=
  match s.line.phase with
  | .alert .seek => afterTransaction walkEnds s
  | .alert .displayClock => broadcastMade s
  | .alert _ => missTransaction s
  | _ => s

/-- What the 2610 awaits once it has sent the selection and function of a transaction (R103, R104). -/
def phaseAfter : Transaction → LinePhase
  | .seek => .windows
  | .readTaps => .header
  | .giveVerdicts => .confirm
  | .readState _ => .stateReply
  | .displayClock => .free

/-- ANSWER came to ALERT: the selection and function are sent with their check (R103, R211). -/
def alertAnswered (s : State) : State :=
  match s.line.phase with
  | .alert t =>
    let bytes := sendingOf t s
    let s1 := { s with line := { s.line with sent := bytes ++ check16Bytes bytes, phase := phaseAfter t } }
    if t = .displayClock then broadcastMade s1 else s1
  | _ => s

/-- A selection or function was not answered within 4 ms (R103). -/
def answerMissed (s : State) : State :=
  match s.line.phase with
  | .header | .confirm | .stateReply => missTransaction s
  | _ => s

/-! ### Walk steps -/

/-- The job with its walk replaced. -/
def Job.withWalk (w : Walk) : Job → Job
  | .enumeration _ => .enumeration w
  | .pollWalk _ => .pollWalk w
  | j => j

/-- The walk of a job. -/
def Job.walk : Job → Option Walk
  | .enumeration w => some w
  | .pollWalk w => some w
  | _ => none

/-- The windows of a SEEK step have closed (R105, R106). -/
def seekResult (z o : Bool) (s : State) : State :=
  match s.line.phase, s.line.job.walk with
  | .windows, some w =>
    let r := w.step z o
    let job := s.line.job.withWalk r.1
    afterTransaction
      (fun s => if r.2 then walkEnds { s with line := { s.line with job := job } } else begin_ job .seek s) s
  | _, _ => s

/-! ### READ TAPS -/

/-- A tap of a block (R107). -/
structure Tap where
  card : Nat
  serial : Nat
  age : Nat
  deriving DecidableEq, Repr

/-- The taps of a block's bytes, seven bytes each. Card key and age are taken low byte first (DEDUCED, log 44). -/
def tapsOf : Nat → Text → List Tap
  | 0, _ => []
  | k + 1, b =>
    ⟨numberLow (b.take 4), numberLow ((b.drop 4).take 1), numberLow ((b.drop 5).take 2)⟩ :: tapsOf k (b.drop 7)

/-- A tap may stand in a good block (R211). -/
def tapOk (t : Tap) : Bool := 0 < t.card && t.card < 4294967295 && t.age ≤ 4095

/-- The taps of a good block of `n` taps; `none` for a block with a bad check (R113, R211). -/
def goodBlock (n : Nat) (bytes : Text) : Option (List Tap) :=
  let taps := tapsOf n bytes
  if bytes.length = 7 * n + 2 && goodCheck bytes && taps.all tapOk then some taps else none

/-- The arrival time of a tap (R114): absent while the day is not OPEN. -/
def tapTime (age : Nat) (s : State) : Option SchoolTime :=
  if dayIsOpen s then some (max (s.time.school - age) (s.day.openingTime.getD 0)) else none

/-- A record added to a Verdict Hold (R116). -/
def holdAdd (r : HoldRecord) (l : List HoldRecord) : List HoldRecord :=
  let l1 := l.filter (·.serial ≠ r.serial)
  (if holdLimit ≤ l1.length then l1.tail else l1) ++ [r]

/-- A terminal after a tap the Roll Unit resolved (R115). -/
def Terminal.counted (t : Tap) (v : Verdict) (x : Terminal) : Terminal :=
  { x with
    tapsToday := satInc x.tapsToday
    unknownToday := if v = .unknownCard then satInc x.unknownToday else x.unknownToday
    hold := holdAdd ⟨t.serial, t.card, v⟩ x.hold }

/-- A terminal changed. -/
def modifyTerminal (n : Nat) (f : Terminal → Terminal) (s : State) : State :=
  { s with line := { s.line with table := s.line.table.modify n (·.map f) } }

/-- The hold record that answers a tap (R116). -/
def heldVerdict (n : Nat) (t : Tap) (s : State) : Option Verdict :=
  (terminalAt n s).bind fun x => (x.hold.find? fun r => r.serial = t.serial && r.card = t.card).map (·.verdict)

/-- A tap of a good block taken (R115, R116). -/
def takeTap (n : Nat) (t : Tap) (s : State) : State × Verdict :=
  match heldVerdict n t s with
  | some v => (s, v)
  | none =>
    let r := tapClaim t.card (tapTime t.age s) n s
    (modifyTerminal n (Terminal.counted t r.2) r.1, r.2)

/-- The taps of a good block taken oldest first (R113), each joining the read and the verdict list. -/
def takeTaps (l : List Tap) (p : PollRound) (s : State) : State × PollRound :=
  l.foldl
    (fun r t =>
      let x := takeTap p.entry t r.1
      (x.1, { r.2 with read := r.2.read ++ [(t.serial, t.card)], verdicts := r.2.verdicts ++ [(t.serial, x.2)] }))
    (s, p)

/-- What a complete read leaves in a Verdict Hold (R117). -/
def reconcile (read : List (Nat × Nat)) (l : List HoldRecord) : List HoldRecord :=
  l.filter fun r => read.contains (r.serial, r.card)

/-- The poll round in hand. -/
def roundOf (s : State) : Option PollRound :=
  match s.line.job with
  | .pollServe p => some p
  | _ => none

/-- The job's round replaced. -/
def setRound (p : PollRound) (phase : LinePhase) (s : State) : State :=
  { s with line := { s.line with job := .pollServe p, phase := phase } }

/-- The transactions that follow a read (R112): GIVE VERDICTS if a tap was taken. -/
def afterRead (p : PollRound) (s : State) : State :=
  afterTransaction (fun s => if p.verdicts.isEmpty then serve p.rest s else serveOn .giveVerdicts p s) s

/-- A read that ended with every announced block good (R113, R117). -/
def completeRead (p : PollRound) (s : State) : State :=
  recordAnswer (fun n => modifyTerminal n fun x => { x with hold := reconcile p.read x.hold }) s

/-- A block whose check is bad or that did not arrive whole (R113). -/
def blockFails (p : PollRound) (s : State) : State :=
  afterRead p (recordAnswer (fun n => modifyTerminal n fun x => { x with faultsToday := satInc x.faultsToday }) s)

/-- A good block of the transaction under way (R113, R114); not taken where the entry was retired or replaced (log 14). -/
def blockTaken (l : List Tap) (p : PollRound) (s : State) : State × PollRound :=
  if s.line.orphan then (s, p)
  else takeTaps l p (modifyTerminal p.entry (fun x => { x with lastCollection := some s.time.school }) s)

/-- A tap block has arrived (R113). -/
def tapBlock (bytes : Text) (s : State) : State :=
  match s.line.phase, roundOf s with
  | .blocks left, some p =>
    let n := min 4 left
    match goodBlock n bytes with
    | none => settle (blockFails p s)
    | some taps =>
      let r := blockTaken taps p s
      if left ≤ 4 then settle (afterRead r.2 (completeRead r.2 (setRound r.2 .free r.1)))
      else settle (setRound r.2 (.blocks (left - n)) r.1)
  | _, _ => s

/-- A tap block did not arrive whole within 4 ms (R113). -/
def blockTimedOut (s : State) : State :=
  match s.line.phase, roundOf s with
  | .blocks _, some p => blockFails p s
  | _, _ => s

/-- The count of a good header (R107); `none` for one that is a missed answer. -/
def headerCount (bytes : Text) : Option Nat :=
  let n := (bytes.getD 0 0).toNat
  if bytes.length = 3 && goodCheck bytes && n ≤ 16 then some n else none

/-- The header of READ TAPS has arrived (R107, R112). -/
def tapsHeader (bytes : Text) (s : State) : State :=
  match s.line.phase, roundOf s with
  | .header, some p =>
    match headerCount bytes with
    | none => missTransaction s
    | some 0 => afterTransaction (serveOn (.readState true) p) (completeRead p (recordAnswer goodAnswer s))
    | some n =>
      let s1 := recordAnswer goodAnswer s
      { s1 with line := { s1.line with phase := .blocks n } }
  | _, _ => s

/-! ### GIVE VERDICTS and READ STATE -/

/-- A confirm with a good check (R108, R211). -/
def confirmOk (bytes : Text) : Bool := bytes.length = 3 && goodCheck bytes && bytes.getD 0 0 == 0xC3#8

/-- A good confirm: a good answer, and the records of the list leave the hold (R108, R117). -/
def confirmTaken (p : PollRound) (n : Nat) (s : State) : State :=
  modifyTerminal n (fun x => { x with hold := x.hold.filter fun r => !(p.verdicts.map (·.1)).contains r.serial })
    (goodAnswer n s)

/-- The confirm of GIVE VERDICTS has arrived (R108). -/
def verdictsConfirm (bytes : Text) (s : State) : State :=
  match s.line.phase, roundOf s with
  | .confirm, some p =>
    if confirmOk bytes then afterTransaction leaveTerminal (recordAnswer (confirmTaken p) s) else missTransaction s
  | _, _ => s

/-- A READ STATE reply's overflow flag and fault latch (R109, R211); `none` for one with a bad check. -/
def stateReplyOf (bytes : Text) : Option (Bool × Bool) :=
  if bytes.length = 4 && goodCheck bytes && (bytes.getD 0 0).toNat ≤ 16 then
    some ((bytes.getD 1 0).getLsbD 0, (bytes.getD 1 0).getLsbD 1)
  else none

/-- The flags of a READ STATE reply recorded (R109). -/
def recordFlags (overflow fault : Bool) (n : Nat) (s : State) : State :=
  match terminalAt n s with
  | none => s
  | some t =>
    let s1 := modifyTerminal n (fun x => { x with overflow := overflow, fault := fault }) s
    if (overflow && !t.overflow) || (fault && !t.fault) then raise .terminal (some (.terminal n)) s1 else s1

/-- The reply of READ STATE has arrived (R109). -/
def stateReply (bytes : Text) (s : State) : State :=
  match s.line.phase with
  | .stateReply =>
    match stateReplyOf bytes with
    | none => missTransaction s
    | some (o, f) => afterTransaction leaveTerminal (recordAnswer (recordFlags o f) (recordAnswer goodAnswer s))
  | _ => s

/-! ### Liveness -/

/-- The earliest running time at which a liveness check falls due (R118). -/
def livenessNext (s : State) : Option RunTime :=
  s.line.table.foldl
    (fun best t =>
      match t with
      | none => best
      | some t => if t.state.isServed then some (min (livenessDueAt t) (best.getD (livenessDueAt t))) else best)
    none

/-- A liveness check falls due (R118). -/
def livenessFalls (s : State) : State :=
  match livenessNext s with
  | none => s
  | some t => if dueBy t s then chooseIfFree (reach t s) else s

/-! ### Requests -/

/-- An enumeration is under way. -/
def enumerating (s : State) : Bool :=
  match s.line.job with
  | .enumeration _ => true
  | _ => false

/-- SEEKALL (R119). -/
def seekAll (s : State) : State × Reply :=
  if s.line.enumerationPending || enumerating s then refuse .wrongState s
  else (chooseIfFree { s with line := { s.line with enumerationPending := true } }, .started [])

/-- ADMIT (R120). -/
def admitRequest (i : Identity) (entrance : Nat) (s : State) : State × Reply :=
  if storeHolds .terminals s then refuse .storeBusy s
  else if !identityValid i || 8 < entrance then refuse .badValue s
  else
    match entryWith i s with
    | some n =>
      (modifyTerminal n
          (fun t =>
            if t.state.isServed then { t with entrance := entrance }
            else { t with state := .active, missed := 0, lastHeard := s.time.running, entrance := entrance }) s,
        .ok [.num n])
    | none =>
      match freeEntry s with
      | none => refuse .full s
      | some n => (setTerminal n (some (.new i entrance .active s.time.running)) s, .ok [.num n])

/-- The job as RETIRE of an entry leaves it (R121): its answer is not recorded, and a round makes no further transaction
with the terminal. -/
def retireFromJob (n : Nat) (s : State) : State :=
  match s.line.job with
  | .liveness m _ => if m = n then { s with line := { s.line with orphan := true } } else s
  | .pollServe p =>
    if p.entry = n then
      let s1 := keepEntrance s
      { s1 with line := { s1.line with job := .pollServe { p with live := false }, orphan := true } }
    else s
  | _ => s

/-- RETIRE (R121). -/
def retire (n : Nat) (s : State) : State × Reply :=
  if storeHolds .terminals s then refuse .storeBusy s
  else if 8 ≤ n then refuse .badValue s
  else if (terminalAt n s).isNone then refuse .noSuch s
  else
    let s1 := setTerminal n none (retireFromJob n s)
    ({ s1 with line := { s1.line with refused := none } }, .ok [])

/-- The word of a terminal state. -/
def terminalWord : TerminalState → String
  | .new => "NEW" | .active => "ACTIVE" | .silent => "SILENT" | .lost => "LOST"

/-- The line of one entry (R122). -/
def terminalItems (n : Nat) (s : State) : List Item :=
  match terminalAt n s with
  | none => [.num n, .word "FREE"]
  | some t =>
    [.num n, .identity t.identity, .num t.entrance, .word (terminalWord t.state), .num t.missed,
      .num (t.lastHeard / second)] ++
      optItem "LIVENESS" (fun x => .num (x / second)) t.lastLiveness ++ optItem "COLLECTED" .time t.lastCollection ++
      [.num t.tapsToday, .num t.unknownToday, .num t.faultsToday, yesNo t.overflow, yesNo t.fault, .num t.hold.length,
        .num (secondsSince t.lastHeard s)]

/-- The job as items (R122). -/
def jobItems : Job → List Item
  | .idle => [.word "IDLE"]
  | .enumeration _ => [.word "ENUMERATION"]
  | .broadcast => [.word "BROADCAST"]
  | .liveness n _ => [.word "LIVENESS", .num n]
  | .pollWalk _ => [.word "POLL"]
  | .pollServe _ => [.word "POLL"]

/-- The last enumeration record (R122). -/
def enumerationItems (r : EnumerationRecord) : List Item :=
  [.named "ENUMERATED" (.time r.finish), .named "FOUND" (.num r.found), .named "ADDED" (.num r.added),
    .named "RESTORED" (.num r.restored), .named "REMOVED" (.num r.removed), .named "BAD" (.num r.bad),
    .named "TURNED_AWAY" (.num r.refused), .named "STOPPED" (yesNo r.stoppedAt16)]

/-- The parts of TERMINALS (R122). -/
def terminalsParts (s : State) : List (List Item) :=
  (List.range 8).map (terminalItems · s) ++
    [jobItems s.line.job ++ [yesNo s.line.enumerationPending, yesNo s.line.clockDue]] ++
    (s.line.lastEnumeration.map enumerationItems).toList ++
    (s.line.refused.map fun i => [Item.named "REFUSED" (.identity i)]).toList

/-- TERMINALS (R122). -/
def terminals (start : Nat) (s : State) : State × Reply := okWith (moreItems start (terminalsParts s)) s

/-! ### Meanings -/

/-- ALERT_NO_ANSWER (R103). -/
def execAlertNoAnswer (s : State) : Host.Outcome State Fault Refusal := event alertUnanswered s

/-- ALERT_ANSWERED (R103, R104). -/
def execAlertAnswered (s : State) : Host.Outcome State Fault Refusal := event alertAnswered s

/-- MISSED_ANSWER (R102, R103). -/
def execMissedAnswer (s : State) : Host.Outcome State Fault Refusal := event answerMissed s

/-- SEEK_STEP_RESULT (R105, R106). -/
def execSeekStepResult (z o : Bool) (s : State) : Host.Outcome State Fault Refusal := event (seekResult z o) s

/-- READ_TAPS_HEADER (R107). -/
def execReadTapsHeader (bytes : Text) (s : State) : Host.Outcome State Fault Refusal := event (tapsHeader bytes) s

/-- TAP_BLOCK (R113). -/
def execTapBlock (bytes : Text) (s : State) : Host.Outcome State Fault Refusal := event (tapBlock bytes) s

/-- BLOCK_TIMEOUT (R113). -/
def execBlockTimeout (s : State) : Host.Outcome State Fault Refusal := event blockTimedOut s

/-- GIVE_VERDICTS_CONFIRM (R108). -/
def execGiveVerdictsConfirm (bytes : Text) (s : State) : Host.Outcome State Fault Refusal :=
  event (verdictsConfirm bytes) s

/-- READ_STATE_REPLY (R109). -/
def execReadStateReply (bytes : Text) (s : State) : Host.Outcome State Fault Refusal := event (stateReply bytes) s

/-- LIVENESS_DUE (R118). -/
def execLivenessDue (s : State) : Host.Outcome State Fault Refusal := event livenessFalls s

/-- SEEKALL (R119). -/
def execSeekAll (s : State) : Host.Outcome State Fault Refusal := request seekAll s

/-- ADMIT (R120). -/
def execAdmitTerminal (identity : Identity) (entrance : Nat) (s : State) : Host.Outcome State Fault Refusal :=
  request (admitRequest identity entrance) s

/-- RETIRE (R121). -/
def execRetire (entry : Nat) (s : State) : Host.Outcome State Fault Refusal := request (retire entry) s

/-- TERMINALS (R122). -/
def execTerminals (start : Nat) (s : State) : Host.Outcome State Fault Refusal := request (terminals start) s

end Sys2Proof.Machine
end

