-- ==== Sys2Proof/Machine/Sweep.lean ====
section
/-! DEFINITION. The Cut Sweeper's visit (R142–R144) and the completion of a sweep (R146). -/

namespace Sys2Proof.Machine

/-- The Cut Sweeper changed. -/
def setSweep (f : CutSweeper → CutSweeper) (s : State) : State := { s with sweep := f s.sweep }

/-- The head sweep's walk has ended (R146). -/
def completeSweep (head : Sweep) (rest : List Sweep) (s : State) : State :=
  let s1 :=
    { s with day := { s.day with cohorts := s.day.cohorts.modify head.cohort fun c => { c with phase := .cutDone } } }
  raise .sweep none (setSweep (fun _ => if rest.isEmpty then ⟨[], none, .idle⟩ else ⟨rest, some 0, .running⟩) s1)

/-- The cursor moves to the next slot; after slot 2047 the sweep completes (R142). -/
def moveOn (head : Sweep) (rest : List Sweep) (cursor : Slot) (s : State) : State :=
  if slotCount ≤ cursor + 1 then completeSweep head rest s else setSweep (fun w => { w with cursor := some (cursor + 1) }) s

/-- The slot is due (R142). -/
def isDue (head : Sweep) (p : Pupil) : Bool :=
  p.enrolment.cohort = head.cohort && p.day.mark = .unseen && p.enrolment.permit.all (· ≤ head.cut)

/-- A due slot without contacts (R143). -/
def sweepUnreached (slot : Slot) (s : State) : State :=
  raise .unreached (some (.slot slot))
    (claim slot (fun d => { d with mark := .absentUnreached, source := some .sweep }) s)

/-- The queue has room for an ABSENT notice (R144). -/
def absentRoom (s : State) : Bool := absentCount s < absentLimit && !queueFull s

/-- A due slot with contacts: the notice and the mark come into being together (R144). -/
def sweepPending (slot : Slot) (s : State) : State :=
  claim slot (fun d => { d with mark := .absentPending, source := some .sweep })
    (addNotice .absent (.pupil slot 0) (classTableOf (tableInForce s) s).absent none none s)

/-- The sweep pauses at a slot (R144). -/
def sweepPause (head : Sweep) (rest : List Sweep) (slot : Slot) (s : State) : State :=
  let s1 := setSweep (fun w => { w with list := { head with pauseRecord := true } :: rest, state := .paused }) s
  if head.pauseRecord then s1 else raise .sweep (some (.slot slot)) s1

/-- The head sweep visits a slot (R142–R144). -/
def visitSlot (head : Sweep) (rest : List Sweep) (slot : Slot) (s : State) : State :=
  match pupilAt slot s with
  | none => moveOn head rest slot s
  | some p =>
    if !isDue head p then moveOn head rest slot s
    else if p.enrolment.contacts.isEmpty then moveOn head rest slot (sweepUnreached slot s)
    else if absentRoom s then moveOn head rest slot (sweepPending slot s)
    else sweepPause head rest slot s

/-- A visit of the sweep, while it is RUNNING (R142). -/
def sweepVisit (s : State) : State :=
  match s.sweep.state, s.sweep.list, s.sweep.cursor with
  | .running, head :: rest, some slot => visitSlot head rest slot s
  | _, _, _ => s

/-- SWEEP_VISIT (R142). -/
def execSweepVisit (s : State) : Host.Outcome State Fault Refusal := event (fun s => settle (sweepVisit s)) s

end Sys2Proof.Machine
end

