-- ==== Sys2Proof/Machine/NoticeRequests.lean ====
section
/-! DEFINITION. The Notice Dispatcher's requests: CLASS (R156), HOLD (R157), QUIET (R158), CANCEL (R169), TEXT (R172), POST
(R173), BROADCAST (R174), NOTICES (R175), and its timed events: the outcome limit (R163), the end of the busy pause (R159), the
deadlines (R166, R167), the end of the quiet window (R158). -/

namespace Sys2Proof.Machine

/-- A change of the Notice Dispatcher. -/
def setNotices (f : Dispatcher → Dispatcher) (s : State) : State := { s with notices := f s.notices }

/-! ### CLASS, HOLD, QUIET -/

/-- The values of CLASS (R156). -/
def classItems (t : Select) (s : State) : List Item :=
  let c := classTableOf t s
  [.word (selectWord t), .num c.absent, .num c.late, .num c.arrived, .word (selectWord (tableInForce s))]

/-- A class table written. -/
def setClassTable (t : Select) (c : ClassTable) (s : State) : State :=
  { s with
    settings :=
      match t with
      | .normal => { s.settings with classNormal := c }
      | .alternate => { s.settings with classAlternate := c } }

/-- CLASS (R156). -/
def classTable (table : Option Select) (write : Option (Nat × Nat × Nat)) (s : State) : State × Reply :=
  match write with
  | none =>
    match table with
    | none => refuse .badValue s
    | some t => okWith (classItems t s) s
  | some (a, l, r) =>
    if storeHolds .settings s then refuse .storeBusy s
    else
      match table with
      | none => refuse .badValue s
      | some t =>
        if 15 < a || 15 < l || 15 < r then refuse .badValue s
        else
          let s1 := setClassTable t ⟨a, l, r⟩ s
          (s1, .ok (classItems t s1))

/-- A school time or NONE. -/
def timeOrNone : Option SchoolTime → Item
  | none => .word "NONE"
  | some t => .time t

/-- The values of HOLD (R157). -/
def holdItems (s : State) : List Item := onOff s.notices.globalHold :: optItem "QUIET" .time s.notices.quietEnd

/-- HOLD (R157). -/
def hold (value : Option (Option Bool)) (s : State) : State × Reply :=
  match value with
  | none => okWith (holdItems s) s
  | some none => refuse .badValue s
  | some (some b) =>
    let s1 := settle (setNotices (fun n => { n with globalHold := b }) s)
    (s1, .ok (holdItems s1))

/-- QUIET (R158). -/
def quiet (minutes : Nat) (s : State) : State × Reply :=
  if 0 < minutes ∧ ¬s.time.valid then refuse .clockInvalid s
  else if 240 < minutes then refuse .badValue s
  else
    let e := if minutes = 0 then none else some (min (s.time.school + 60 * minutes) 86399)
    (settle (setNotices (fun n => { n with quietEnd := e }) s), .ok [timeOrNone e])

/-! ### CANCEL -/

/-- CANCEL of a pupil notice (R169). -/
def cancelPupil (n : Notice) (slot : Slot) (s : State) : State :=
  let s1 := withdrawWhere (·.number = n.number) s
  if n.kind = .absent then
    raise .unreached (some (.slot slot))
      (claim slot
        (fun d =>
          if d.mark = .absentPending then { d with mark := .absentUnreached, source := some .office } else d) s1)
  else s1

/-- CANCEL of a broadcast (R169): it is marked cancelled and drops its returned steps. -/
def cancelBroadcast (n : Notice) (s : State) : State :=
  updateBroadcast n.number (fun b => { b with returned := [] }) (updateNotice n.number (fun x => { x with cancel := true }) s)

/-- CANCEL (R169). -/
def cancel (number : Nat) (s : State) : State × Reply :=
  if number < 1 || 65535 < number then refuse .badValue s
  else
    match noticeAt number s with
    | none => refuse .noSuch s
    | some n =>
      if n.cancel then refuse .wrongState s
      else
        let s1 :=
          match n.addressee with
          | .pupil slot _ => cancelPupil n slot s
          | .broadcast _ => finishBroadcasts (cancelBroadcast n s)
        (settle s1,
          .ok [.num number, .word (if (noticeAt number s1).isSome then "AWAITING_RESULT" else "REMOVED")])

/-! ### TEXT -/

/-- A text a slot may hold (R172). -/
def textOk (t : Text) : Bool := 1 ≤ t.length && t.length ≤ 160 && t.all isTextChar

/-- A notice of the queue names a text slot (R172). -/
def textNamed (slot : Nat) (s : State) : Bool := s.notices.queue.any (·.textSlot = some slot)

/-- A text slot written. -/
def setText_ (slot : Nat) (t : Text) (s : State) : State := setNotices (fun n => { n with texts := n.texts.set slot t }) s

/-- TEXT (R172). -/
def text (slot : Nat) (action : TextAction) (s : State) : State × Reply :=
  match action with
  | .read =>
    if 16 ≤ slot then refuse .badValue s
    else
      match s.notices.texts.getD slot [] with
      | [] => okWith [.word "EMPTY"] s
      | t => okWith [.quoted t] s
  | .write t =>
    if storeHolds .texts s then refuse .storeBusy s
    else if 16 ≤ slot || !textOk t then refuse .badValue s
    else (setText_ slot t s, .ok [])
  | .empty =>
    if storeHolds .texts s then refuse .storeBusy s
    else if 16 ≤ slot then refuse .badValue s
    else if textNamed slot s then refuse .wrongState s
    else (setText_ slot [] s, .ok [])

/-! ### POST and BROADCAST -/

/-- A class a GENERAL notice may have (R155). -/
def generalClassOk (c : Nat) : Bool := 1 ≤ c && c ≤ 14

/-- A text slot holds no text. -/
def textEmpty (slot : Nat) (s : State) : Bool := (s.notices.texts.getD slot []).isEmpty

/-- POST (R173). -/
def post (a : PostArgs) (s : State) : State × Reply :=
  if !slotOk a.slot || !generalClassOk a.cls || 16 ≤ a.textSlot || 2 < a.position || !optOk timeOk a.deadline then
    refuse .badValue s
  else if a.deadline.isSome && !s.time.valid then refuse .clockInvalid s
  else if a.deadline.any (· ≤ s.time.school) then refuse .badValue s
  else if (pupilAt a.slot s).isNone then refuse .noSuch s
  else if (contactsAt a.slot s).length ≤ a.position || textEmpty a.textSlot s then refuse .noSuch s
  else if queueFull s then refuse .full s
  else
    let s1 := addNotice .general (.pupil a.slot a.position) a.cls a.deadline (some a.textSlot) s
    (settle s1, .ok [.num s1.notices.counter])

/-- BROADCAST (R174). -/
def broadcast (a : BroadcastArgs) (s : State) : State × Reply :=
  match a.reach with
  | none => refuse .badValue s
  | some reach =>
    if !maskOk 0 7 a.cohorts || !generalClassOk a.cls || 16 ≤ a.textSlot || !optOk timeOk a.deadline then refuse .badValue s
    else if a.deadline.isSome && !s.time.valid then refuse .clockInvalid s
    else if a.deadline.any (· ≤ s.time.school) then refuse .badValue s
    else if textEmpty a.textSlot s then refuse .noSuch s
    else if queueFull s then refuse .full s
    else
      let s1 := addNotice .general (newBroadcast (setWithin 0 7 a.cohorts) reach) a.cls a.deadline (some a.textSlot) s
      (settle s1, .ok [.num s1.notices.counter])

/-! ### NOTICES -/

/-- The word of a send's state (R161). -/
def sendStateWord : SendState → String
  | .awaitTake => "AWAIT_TAKE" | .awaitOutcome => "AWAIT_OUTCOME"

/-- A send as values (R175). -/
def sendItems (s : State) (x : Send) : List Item :=
  [.num x.key.number, .num x.key.slot, .num x.key.position,
    .word (sendStateWord x.state), .num (secondsSince x.sentAt s)]

/-- The word of a broadcast's end. -/
def endWord : BroadcastEnd → String
  | .complete => "COMPLETE" | .cancelled => "CANCELLED" | .expired => "EXPIRED"

/-- The last broadcast record as values (R175): LAST names its number, and the other fields of R171 follow in order (log 8). -/
def lastBroadcastItems : Option BroadcastRecord → List Item
  | none => []
  | some r =>
    [.named "LAST" (.num r.number), .word (noticeKindWord r.kind), .num r.sent, .num r.delivered, .num r.failed,
      .word (endWord r.ending)]

/-- The summary of NOTICES (R175), all of it. It fits in a line with what follows it while no send of the window is older than
9,999 s (`noticesHead_fits`); with an older one `pageItems` cuts it (log 45). The number of sends stands before them, and the class
table in force is shown by its name alone (DESIGN CHOICE, log 50). No rule orders the sends of the window: they are shown oldest first
(DESIGN CHOICE, log 55). -/
def noticesHead (s : State) : List Item :=
  let n := s.notices
  [.num n.queue.length, .num (absentCount s), .num (queueLimit - n.queue.length), .num n.window.length] ++
    n.window.flatMap (sendItems s) ++
    [onOff n.globalHold, timeOrNone n.quietEnd, timeOrNone n.deadline, .word (selectWord (tableInForce s)),
      yesNo (sendingAllowed s)] ++
    optItem "PAUSE" (fun t => .num (secondsLeft t s)) n.busyEnd ++ lastBroadcastItems n.lastBroadcast

/-- An addressee as values (R175). -/
def addresseeItems : Addressee → List Item
  | .pupil slot position => [.num slot, .num position]
  | .broadcast b =>
    [.set b.mask, .word (match b.reach with | .first => "FIRST" | .all => "ALL"), .num b.cursorSlot, .num b.cursorPosition,
      .num b.returned.length, .num b.sent, .num b.delivered, .num b.failed, yesNo b.expired]

/-- A notice as values (R175). -/
def noticeItems (n : Notice) : List Item :=
  [.num n.number, .word (noticeKindWord n.kind)] ++ addresseeItems n.addressee ++
    [.num n.cls, .date n.createdDate, .time n.createdTime] ++ optItem "DEADLINE" .time n.deadline ++
    optItem "TEXT" .num n.textSlot ++ [.word (if n.inWindow then "IN_WINDOW" else "WAITING"), yesNo n.cancel]

/-- A notice matches a slot (R175). -/
def noticeMatchesSlot (slot : Slot) (s : State) (n : Notice) : Bool :=
  match n.addressee with
  | .pupil k _ => k = slot
  | .broadcast b => (pupilAt slot s).any fun p => b.mask.contains p.enrolment.cohort

/-- A notice placed by its number. -/
def placeByNumber (n : Notice) : List Notice → List Notice
  | [] => [n]
  | h :: t => if h.number < n.number then h :: placeByNumber n t else n :: h :: t

/-- The notices of a list in order of number. -/
def byNumber (l : List Notice) : List Notice := l.foldr placeByNumber []

/-- NOTICES (R175). -/
def notices (kind : Option (Option NoticeKind)) (slot : Option Slot) (start : Nat) (s : State) : State × Reply :=
  if !optOk Option.isSome kind || !optOk slotOk slot || start < 1 || 65535 < start then refuse .badValue s
  else
    let l :=
      s.notices.queue.filter fun n =>
        start ≤ n.number && kind.all (· = some n.kind) && slot.all fun k => noticeMatchesSlot k s n
    okWith (pageItems 8 (noticesHead s) noticeItems (nextNumber (·.number)) (byNumber l)) s

/-! ### Timed events -/

/-- A send has met the outcome limit (R163). -/
def outcomeLimitMet (key : SendKey) (s : State) : State :=
  match sendAt key s with
  | none => s
  | some x =>
    let t := x.sentAt + outcomeLimitAfter
    if x.state = .awaitOutcome ∧ dueBy t s then settle (failSend key (dropSend key (reach t s))) else s

/-- The busy pause ends (R159). -/
def busyPauseEnds (s : State) : State :=
  match s.notices.busyEnd with
  | none => s
  | some t => if dueBy t s then settle (setNotices (fun n => { n with busyEnd := none }) (reach t s)) else s

/-- One notice meets the test of its deadline (R166, R167). -/
def deadlineOf (kind : NoticeKind) (number : Nat) (s : State) : State :=
  match noticeAt number s with
  | none => s
  | some n => if n.kind = kind then settle (testDeadline s n) else s

/-- The end of the quiet window, where school time has reached it (R158). -/
def quietWindowEnds (s : State) : State :=
  if s.notices.quietEnd.any (· ≤ s.time.school) then settle (setNotices (fun n => { n with quietEnd := none }) s) else s

/-! ### Meanings -/

/-- CLASS (R156). -/
def execClassTable (table : Option Select) (write : Option (Nat × Nat × Nat)) (s : State) :
    Host.Outcome State Fault Refusal :=
  request (classTable table write) s

/-- HOLD (R157). -/
def execHold (value : Option (Option Bool)) (s : State) : Host.Outcome State Fault Refusal := request (hold value) s

/-- QUIET (R158). -/
def execQuiet (minutes : Nat) (s : State) : Host.Outcome State Fault Refusal := request (quiet minutes) s

/-- CANCEL (R169). -/
def execCancel (number : Nat) (s : State) : Host.Outcome State Fault Refusal := request (cancel number) s

/-- TEXT (R172). -/
def execText (slot : Nat) (action : TextAction) (s : State) : Host.Outcome State Fault Refusal :=
  request (text slot action) s

/-- POST (R173). -/
def execPost (a : PostArgs) (s : State) : Host.Outcome State Fault Refusal := request (post a) s

/-- BROADCAST (R174). -/
def execBroadcast (a : BroadcastArgs) (s : State) : Host.Outcome State Fault Refusal := request (broadcast a) s

/-- NOTICES (R175). -/
def execNotices (kind : Option (Option NoticeKind)) (slot : Option Slot) (start : Nat) (s : State) :
    Host.Outcome State Fault Refusal :=
  request (notices kind slot start) s

/-- OUTCOME_LIMIT (R163). -/
def execOutcomeLimit (key : SendKey) (s : State) : Host.Outcome State Fault Refusal := event (outcomeLimitMet key) s

/-- BUSY_PAUSE_END (R159). -/
def execBusyPauseEnd (s : State) : Host.Outcome State Fault Refusal := event busyPauseEnds s

/-- ABSENT_DEADLINE_EXPIRY (R166). -/
def execAbsentDeadlineExpiry (number : Nat) (s : State) : Host.Outcome State Fault Refusal :=
  event (deadlineOf .absent number) s

/-- GENERAL_DEADLINE (R167). -/
def execGeneralDeadline (number : Nat) (s : State) : Host.Outcome State Fault Refusal :=
  event (deadlineOf .general number) s

/-- QUIET_WINDOW_END (R158). -/
def execQuietWindowEnd (s : State) : Host.Outcome State Fault Refusal := event quietWindowEnds s

end Sys2Proof.Machine
end

