-- ==== Sys2Proof/Machine/Gateway.lean ====
section
/-! DEFINITION. The Gateway Port: frames in both directions (R178, R179, R210), answers and outcomes (R162, R163), the link
(R180, R181), parent replies (R182–R185), the Parent Inbox (R188) and its requests (R189). -/

namespace Sys2Proof.Machine

/-- A change of the Gateway Port. -/
def setGateway (f : GatewayPort → GatewayPort) (s : State) : State := { s with gateway := f s.gateway }

/-- A frame joins the outbound queue (R179). -/
def sendFrame (f : Frame) (s : State) : State := setGateway (fun g => { g with outbound := g.outbound ++ [f] }) s

/-! ### Outbound frames (Formats and Pins, Gateway frames) -/

/-- A school time in three bytes, FFFFFF for absent. -/
def timeBytes : Option SchoolTime → Text
  | none => [0xFF, 0xFF, 0xFF]
  | some t => bytesLow 3 t

/-- A send key in five bytes. -/
def keyBytes (k : SendKey) : Text := bytesLow 2 k.number ++ bytesLow 2 k.slot ++ bytesLow 1 k.position

/-- The code of a notice kind. -/
def noticeKindCode : NoticeKind → Byte
  | .absent => 1 | .late => 2 | .arrived => 3 | .general => 4 | .closure => 5

/-- The code of a contact channel. -/
def channelCode : ContactChannel → Byte
  | .text => 0 | .voice => 1

/-- The code of an answer word. -/
def answerCode : AnswerWord → Byte
  | .known => 1 | .stale => 2 | .taken => 3 | .busy => 4 | .inboxFull => 5

/-- The code of the answered record, with the reference of the ANSWER. -/
def answeredBytes : Answered → Text
  | .receipt k => 0x11 :: keyBytes k
  | .outcome k => 0x12 :: keyBytes k
  | .pong n => 0x13 :: (bytesLow 1 n ++ [0, 0, 0, 0])
  | .reply c => 0x14 :: (bytesLow 2 c ++ [0, 0, 0])

/-- Record kind and payload of a frame. -/
def Frame.body : Frame → Text
  | .send r =>
    0x01 ::
      (bytesLow 2 r.key.number ++ [noticeKindCode r.kind] ++ bytesLow 2 r.key.slot ++ bytesLow 3 r.reference ++
        bytesLow 1 r.key.position ++ bytesLow 2 r.contact ++ [channelCode r.channel] ++ timeBytes r.arrival ++
        bytesLow 1 r.text.length ++ r.text)
  | .ping n => 0x02 :: bytesLow 1 n
  | .answer about word => 0x03 :: (answeredBytes about ++ [answerCode word])

/-- A body made even by a pad byte of 00 (R210). -/
def padded0 (b : Text) : Text := if b.length % 2 = 0 then b else b ++ [0]

/-- The bytes of a frame: start byte, length, body with pad, check over length and body (R210). -/
def Frame.bytes (f : Frame) : Text :=
  let body := padded0 f.body
  let checked := BitVec.ofNat 8 (body.length / 2) :: body
  0x7E :: (checked ++ check16Bytes checked)

/-- What the Gateway Port is sending: nothing while the part is held (R206). -/
def outboundBytes (s : State) : Text :=
  if s.power.held then [] else (s.gateway.outbound.head?.map Frame.bytes).getD []

/-- An ANSWER frame. -/
def Frame.isAnswer : Frame → Bool
  | .answer _ _ => true
  | _ => false

/-- The outbound queue holds 16 ANSWER frames (R177, R178). -/
def answersFull (s : State) : Bool := answerLimit ≤ s.gateway.outbound.countP (·.isAnswer)

/-! ### Inbound records -/

/-- An inbound record (R179). -/
inductive Inbound where
  | receipt (key : SendKey) (answer : TakeAnswer)
  | outcome (key : SendKey) (delivered : Bool)
  | pong (number : Nat)
  | reply (r : ParentReply)
  deriving DecidableEq, Repr

/-- A send key of five bytes. -/
def keyOf (b : Text) : SendKey := ⟨numberLow (b.take 2), numberLow ((b.drop 2).take 2), numberLow ((b.drop 4).take 1)⟩

/-- The answer of a RECEIPT. -/
def takeAnswerOf : Nat → Option TakeAnswer
  | 1 => some .take
  | 2 => some .busy
  | 3 => some .refuse
  | _ => none

/-- The code of a REPLY with its argument (Formats and Pins). -/
def replyCodeOf (code : Nat) (arg : Text) : Option ReplyCode :=
  let rest := numberLow (arg.drop 1)
  let all := numberLow arg
  match code with
  | 1 => if rest = 0 then some (.ill (numberLow (arg.take 1))) else none
  | 2 => some (.appointment (if all = 0xFFFFFF then none else some all))
  | 3 => if all = 0 then some .onWay else none
  | 4 => if all = 0 then some .text else none
  | _ => none

/-- A REPLY's body after its kind (R210). -/
def replyOf (b : Text) : Option Inbound :=
  let n := numberLow ((b.drop 9).take 2)
  let ref := numberLow ((b.drop 2).take 3)
  if (11 + n) % 2 = 1 ∧ b.length = 11 + n ∨ (11 + n) % 2 = 0 ∧ b.length = 12 + n ∧ b.getLast? = some 0 then
    (replyCodeOf (numberLow ((b.drop 5).take 1)) ((b.drop 6).take 3)).map fun c =>
      .reply ⟨numberLow (b.take 2), if ref = 0 then none else some ref, c, (b.drop 11).take n⟩
  else none

/-- The record a body spells (R210), its field ranges apart. -/
def inboundOf (body : Text) : Option Inbound :=
  match body with
  | [] => none
  | kind :: b =>
    match kind.toNat with
    | 0x11 =>
      if b.length = 7 ∧ b.getD 6 0 = 0 then (takeAnswerOf (b.getD 5 0).toNat).map (.receipt (keyOf b)) else none
    | 0x12 =>
      if b.length = 7 ∧ b.getD 6 0 = 0 then
        match (b.getD 5 0).toNat with
        | 1 => some (.outcome (keyOf b) true)
        | 2 => some (.outcome (keyOf b) false)
        | _ => none
      else none
    | 0x13 => if b.length = 1 then some (.pong (b.getD 0 0).toNat) else none
    | 0x14 => replyOf b
    | _ => none

/-- A send key is in range (R210). -/
def keyOk (k : SendKey) : Bool := 1 ≤ k.number && k.number ≤ 65535 && slotOk k.slot && k.position ≤ 2

/-- A reply code's argument is in range (R210). -/
def replyCodeOk : ReplyCode → Bool
  | .ill days => 1 ≤ days && days ≤ 9
  | .appointment back => optOk timeOk back
  | .onWay => true
  | .text => true

/-- A record's fields are in range (R210). -/
def inboundOk : Inbound → Bool
  | .receipt k _ => keyOk k
  | .outcome k _ => keyOk k
  | .pong n => n < 256
  | .reply r =>
    contactIdOk r.contact && optOk referenceOk r.reference && replyCodeOk r.code && r.text.length ≤ 320

/-! ### Answers to sends, and the link -/

/-- A RECEIPT that matched an AWAIT_TAKE send: the count returns to 0 while the link is UP (R162, R180). -/
def clearTimeouts (s : State) : State :=
  if s.gateway.link = .up then setGateway (fun g => { g with timeouts := 0 }) s else s

/-- The send's state becomes AWAIT_OUTCOME (R162). -/
def sendTaken (key : SendKey) (s : State) : State :=
  setNotices (fun n => { n with window := n.window.map fun x => if x.key = key then { x with state := .awaitOutcome } else x }) s

/-- A RECEIPT taken (R162): the state and the answer word. -/
def takeReceipt (key : SendKey) (answer : TakeAnswer) (s : State) : State × AnswerWord :=
  match sendAt key s with
  | none => (s, .stale)
  | some x =>
    match x.state, answer with
    | .awaitTake, .take => (clearTimeouts (sendTaken key s), .known)
    | .awaitTake, .busy =>
      let s1 := returnSend key (dropSend key s)
      (clearTimeouts (setNotices (fun n => { n with busyEnd := some (s.time.running + busyPauseLength) }) s1), .known)
    | .awaitTake, .refuse => (clearTimeouts (failSend key (dropSend key s)), .known)
    | .awaitOutcome, .take => (s, .known)
    | .awaitOutcome, _ => (s, .stale)

/-- An OUTCOME taken (R163): the state and the answer word. -/
def takeOutcome (key : SendKey) (delivered : Bool) (s : State) : State × AnswerWord :=
  match sendAt key s with
  | none => (s, .stale)
  | some _ =>
    let s1 := dropSend key s
    (if delivered then deliverSend key s1 else failSend key s1, .known)

/-- A PING carrying the next number is sent (R180, R181). -/
def sendPing (next : RunTime) (s : State) : State :=
  let n := (s.gateway.pingNumber + 1) % 256
  sendFrame (.ping n) (setGateway (fun g => { g with pingNumber := n, nextPing := some next }) s)

/-- A take timeout reported to the Port (R180). -/
def countTimeout (s : State) : State :=
  if s.gateway.link = .down then s
  else
    let s1 := setGateway (fun g => { g with timeouts := min (g.timeouts + 1) 3 }) s
    if s1.gateway.timeouts < 3 then s1
    else raise .gateway none (sendPing (s.time.running + pingInterval) (setGateway (fun g => { g with link := .down }) s1))

/-- A send has met the take timeout (R162). -/
def takeTimedOut (key : SendKey) (s : State) : State :=
  match sendAt key s with
  | none => s
  | some x =>
    let t := x.sentAt + takeTimeoutAfter
    if x.state = .awaitTake ∧ dueBy t s then settle (countTimeout (returnSend key (dropSend key (reach t s)))) else s

/-- The running time has reached the next ping (R181). -/
def pingDue (s : State) : State :=
  match s.gateway.link, s.gateway.nextPing with
  | .down, some t => if dueBy t s then sendPing (t + pingInterval) (reach t s) else s
  | _, _ => s

/-- A PONG taken (R181): the state and the answer word. -/
def takePong (number : Nat) (s : State) : State × AnswerWord :=
  if s.gateway.link = .down ∧ number = s.gateway.pingNumber then
    (raise .gateway none (setGateway (fun g => { g with link := .up, timeouts := 0, nextPing := none }) s), .known)
  else (s, .stale)

/-! ### Parent replies -/

/-- The match set of a reply, in slot order (R182). -/
def matchSet (r : ParentReply) (s : State) : List (Slot × Pupil) :=
  match s.roll.roster.filter fun e => r.reference = some e.2.enrolment.reference with
  | h :: _ => [h]
  | [] =>
    s.roll.roster.filter fun e =>
      isUnaccountedMark e.2.day.mark && e.2.enrolment.contacts.any (·.id = r.contact)

/-- The last date (00_scope.md, Times). -/
def lastDate : Date := dateCount - 1

/-- The Away range a reply offers each matched pupil (R185). -/
def rangeOffered (c : ReplyCode) (s : State) : Option (Date × Date) :=
  match c with
  | .ill days =>
    let first := if dayIsOpen s then today s + 1 else today s
    if 2 ≤ days ∧ s.time.valid ∧ first ≤ lastDate then some (first, min (today s + days - 1) lastDate) else none
  | _ => none

/-- A code that changes marks (R183, R184). -/
def changesMarks : ReplyCode → Bool
  | .text => false
  | _ => true

/-- A matched pupil's mark is acted on (R183). -/
def actsOnMark (c : ReplyCode) (s : State) (e : Slot × Pupil) : Bool :=
  dayIsOpen s && changesMarks c && isUnaccountedMark e.2.day.mark

/-- Why a reply needs the Inbox, if it does (R183). -/
def inboxReason (r : ParentReply) (s : State) : Option InboxReason :=
  let m := matchSet r s
  if r.code = .text then some .text
  else if m.isEmpty then some .noMatch
  else if !m.any (actsOnMark r.code s) && (rangeOffered r.code s).isNone then some .noEffect
  else if !r.text.isEmpty then some .withText
  else none

/-- The day part a reply code leaves (R184). -/
def repliedTo (c : ReplyCode) (d : DayPart) : DayPart :=
  if !isUnaccountedMark d.mark then d
  else
    match c with
    | .ill _ => { d with mark := .excused, source := some .reply, reason := some .ill, back := none }
    | .appointment b => { d with mark := .excused, source := some .reply, reason := some .appointment, back := b }
    | .onWay => if d.mark = .expected then d else { d with mark := .expected, source := some .reply }
    | .text => d

/-- The mark effects of a reply (R184). -/
def replyMarks (r : ParentReply) (slots : List Slot) (s : State) : State :=
  if dayIsOpen s then slots.foldl (fun s k => claim k (repliedTo r.code) s) s else s

/-- The Away ranges of a reply (R185). -/
def replyRanges (range : Option (Date × Date)) (slots : List Slot) (s : State) : State :=
  match range with
  | none => s
  | some (first, last) => slots.foldl (takeRange first last) s

/-- The next message number (R188). -/
def nextMessageNumber (s : State) : Nat :=
  nextFree (s.gateway.inbox.map (·.number)) s.gateway.inbox.length s.gateway.inboxCounter

/-- A message added to the Parent Inbox (R188). -/
def addMessage (r : ParentReply) (slots : List Slot) (reason : InboxReason) (s : State) : State :=
  let n := nextMessageNumber s
  let m : InboxMessage :=
    ⟨n, s.time.date, s.time.school, r.contact, r.reference, slots.take 3, slots.length, r.code, reason, r.text, false⟩
  raise .inbox (slots.head?.map .slot) (setGateway (fun g => { g with inboxCounter := n, inbox := g.inbox ++ [m] }) s)

/-- The Parent Inbox holds 32 messages. -/
def inboxIsFull (s : State) : Bool := inboxLimit ≤ s.gateway.inbox.length

/-- An INBOX_FULL answer (R188). -/
def reportInboxFull (s : State) : State :=
  if s.gateway.inboxFull then s else raise .full none (setGateway (fun g => { g with inboxFull := true }) s)

/-- A parent reply taken (R183): the state and the answer word. -/
def takeReply (r : ParentReply) (s : State) : State × AnswerWord :=
  let slots := (matchSet r s).map (·.1)
  let range := rangeOffered r.code s
  let reason := inboxReason r s
  if range.isSome && !slots.isEmpty && storeHolds .away s then (s, .busy)
  else if reason.isSome && inboxIsFull s then (reportInboxFull s, .inboxFull)
  else
    let s1 := replyRanges range slots (replyMarks r slots s)
    (match reason with
     | none => s1
     | some x => addMessage r slots x s1,
      .taken)

/-! ### Records and frames taken -/

/-- A discarded frame is counted (R178). -/
def frameDropped (s : State) : State :=
  setGateway (fun g => { g with frame := none, discarded := satInc g.discarded }) s

/-- The effect of a record and the ANSWER it gets (R179). -/
def recordEffect (r : Inbound) (s : State) : State × Frame :=
  match r with
  | .receipt k a => let x := takeReceipt k a s; (x.1, .answer (.receipt k) x.2)
  | .outcome k d => let x := takeOutcome k d s; (x.1, .answer (.outcome k) x.2)
  | .pong n => let x := takePong n s; (x.1, .answer (.pong n) x.2)
  | .reply p => let x := takeReply p s; (x.1, .answer (.reply p.contact) x.2)

/-- A completed frame with a good check (R178, R179): discarded for its contents, or taken, answered, and followed by the
choice (log 25, log 26). -/
def takeRecord (r : Inbound) (s : State) : State :=
  if !inboundOk r || answersFull s then frameDropped s
  else
    let x := recordEffect r (setGateway (fun g => { g with frame := none }) s)
    settle (sendFrame x.2 x.1)

/-- The bytes of a frame have all come (R178). -/
def frameComplete (t : Text) (s : State) : State :=
  if !goodCheck t then frameDropped s
  else
    match inboundOf ((t.drop 1).take (t.length - 3)) with
    | none => frameDropped s
    | some r => takeRecord r s

/-- An inbound byte (R178). -/
def gatewayByte (b : Byte) (s : State) : State :=
  match s.gateway.frame with
  | none => if b = 0x7E#8 then setGateway (fun g => { g with frame := some [] }) s else s
  | some t =>
    let t1 := t ++ [b]
    if t1.length = 2 * (t1.getD 0 0).toNat + 3 then frameComplete t1 s
    else setGateway (fun g => { g with frame := some t1 }) s

/-- More than 20 ms have passed between two bytes of a frame (R178). -/
def frameGap (s : State) : State := if s.gateway.frame.isSome then frameDropped s else s

/-- An outbound frame has been sent (R179). -/
def frameSent (s : State) : State := setGateway (fun g => { g with outbound := g.outbound.tail }) s

/-! ### INBOX and DISCARD -/

/-- A reply code as values (R189). -/
def replyCodeItems : ReplyCode → List Item
  | .ill days => [.word "ILL", .named "DAYS" (.num days)]
  | .appointment b => .word "APPOINTMENT" :: optItem "BACK" .time b
  | .onWay => [.word "ON_WAY"]
  | .text => [.word "TEXT"]

/-- The word of an Inbox reason. -/
def inboxReasonWord : InboxReason → String
  | .text => "TEXT" | .noMatch => "NO_MATCH" | .noEffect => "NO_EFFECT" | .withText => "WITH_TEXT"

/-- A message as values (R189). The matched slots are one set, SLOTS, left out where none matched (DESIGN CHOICE, log 53). -/
def messageItems (m : InboxMessage) : List Item :=
  [.num m.number, .date m.date, .time m.time, .num m.contact] ++ optItem "REF" .num m.reference ++
    (if m.slots.isEmpty then [] else [.named "SLOTS" (.set m.slots)]) ++ [.num m.matched] ++ replyCodeItems m.code ++
    [.word (inboxReasonWord m.reason), .num m.text.length, yesNo m.read]

/-- The head of INBOX's summary (R189). -/
def inboxHead (s : State) : List Item :=
  let g := s.gateway
  [.word (match g.link with | .up => "UP" | .down => "DOWN"), .num g.timeouts] ++
    optItem "NEXT" (fun t => .num (secondsLeft t s)) g.nextPing ++
    [.num g.discarded, .num g.inbox.length, .num (g.inbox.countP fun m => !m.read), yesNo g.inboxFull]

/-- A message placed by its number. -/
def placeMessage (m : InboxMessage) : List InboxMessage → List InboxMessage
  | [] => [m]
  | h :: t => if h.number < m.number then h :: placeMessage m t else m :: h :: t

/-- A message or notice number is in range. -/
def numberOk (n : Nat) : Bool := 1 ≤ n && n ≤ 65535

/-- The text form of INBOX (R189). -/
def inboxText (number part : Nat) (s : State) : State × Reply :=
  if !numberOk number then refuse .badValue s
  else
    match s.gateway.inbox.find? (·.number = number) with
    | none => refuse .noSuch s
    | some m =>
      if 3 < part then refuse .badValue s
      else
        let bytes := (m.text.drop (80 * part)).take 80
        (setGateway
            (fun g => { g with inbox := g.inbox.map fun x => if x.number = number then { x with read := true } else x }) s,
          .ok (.num number :: if bytes.isEmpty then [] else [.hex bytes]))

/-- INBOX (R189). -/
def inbox (a : InboxArgs) (s : State) : State × Reply :=
  match a with
  | .summary start =>
    if !optOk numberOk start then refuse .badValue s
    else
      let l := (s.gateway.inbox.foldr placeMessage []).filter fun m => start.getD 1 ≤ m.number
      okWith (pageItems 8 (inboxHead s) messageItems (nextNumber (·.number)) l) s
  | .text number part => inboxText number part s

/-- Messages removed; the inbox-full reported flag clears when one leaves (R188, R189). -/
def removeMessages (keep : InboxMessage → Bool) (s : State) : State :=
  setGateway
    (fun g =>
      { g with
        inbox := g.inbox.filter keep
        inboxFull := g.inboxFull && (g.inbox.filter keep).length = g.inbox.length })
    s

/-- DISCARD (R189). -/
def discard (a : DiscardArgs) (s : State) : State × Reply :=
  match a with
  | .number n =>
    if !numberOk n then refuse .badValue s
    else if s.gateway.inbox.any (·.number = n) then (removeMessages (·.number ≠ n) s, .ok [])
    else refuse .noSuch s
  | .read => (removeMessages (!·.read) s, .ok [.num (s.gateway.inbox.countP (·.read))])

/-! ### Meanings -/

/-- RECEIPT (R162). -/
def execReceipt (key : SendKey) (answer : TakeAnswer) (s : State) : Host.Outcome State Fault Refusal :=
  event (takeRecord (.receipt key answer)) s

/-- OUTCOME (R163). -/
def execOutcome (key : SendKey) (delivered : Bool) (s : State) : Host.Outcome State Fault Refusal :=
  event (takeRecord (.outcome key delivered)) s

/-- PONG (R181). -/
def execPong (number : Nat) (s : State) : Host.Outcome State Fault Refusal := event (takeRecord (.pong number)) s

/-- REPLY (R183). -/
def execReply (r : ParentReply) (s : State) : Host.Outcome State Fault Refusal := event (takeRecord (.reply r)) s

/-- TAKE_TIMEOUT (R162). -/
def execTakeTimeout (key : SendKey) (s : State) : Host.Outcome State Fault Refusal := event (takeTimedOut key) s

/-- NEXT_PING (R181). -/
def execNextPing (s : State) : Host.Outcome State Fault Refusal := event pingDue s

/-- FRAME_DISCARDED (R178). -/
def execFrameDiscarded (s : State) : Host.Outcome State Fault Refusal := event frameDropped s

/-- FRAME_GAP (R178). -/
def execFrameGap (s : State) : Host.Outcome State Fault Refusal := event frameGap s

/-- GATEWAY_BYTE_RECEIVED (R178). -/
def execGatewayByteReceived (b : Byte) (s : State) : Host.Outcome State Fault Refusal := event (gatewayByte b) s

/-- OUTBOUND_FRAME_SENT (R179). -/
def execOutboundFrameSent (s : State) : Host.Outcome State Fault Refusal := event frameSent s

/-- INBOX (R189). -/
def execInbox (a : InboxArgs) (s : State) : Host.Outcome State Fault Refusal := request (inbox a) s

/-- DISCARD (R189). -/
def execDiscard (a : DiscardArgs) (s : State) : Host.Outcome State Fault Refusal := request (discard a) s

end Sys2Proof.Machine
end

