-- ==== Sys2Proof/Machine/Attention.lean ====
section
/-! DEFINITION. The Attention Unit's requests: STATUS (R197), ACK (R198), LEVEL and FLOOR (R199). -/

namespace Sys2Proof.Machine

/-- A subject as values: its kind and value (R194). -/
def subjectItems : Option Subject → List Item
  | none => []
  | some (.slot n) => [.named "SLOT" (.num n)]
  | some (.terminal n) => [.named "TERMINAL" (.num n)]
  | some (.entry n) => [.named "ENTRY" (.num n)]
  | some (.area a) => [.named "AREA" (.word (areaWord a))]
  | some (.notice n) => [.named "NOTICE" (.num n)]

/-- The top source as values, or NONE (R197). -/
def topItems (s : State) : List Item :=
  match topSource s with
  | none => [.word "NONE"]
  | some n =>
    [.num n, .word (sourceName n), .num (effectiveLevel n s), .num (sourceAt n s).count] ++
      subjectItems (sourceAt n s).subject

/-- The flagged sources with their counts (R197). -/
def flaggedItems (s : State) : List Item :=
  (List.range 14).flatMap fun n => if (sourceAt n s).flag then [.num n, .num (sourceAt n s).count] else []

/-- The word of a start. -/
def startWord : StartKind → String
  | .cold => "COLD" | .warm => "WARM"

/-- STATUS (R197). -/
def status (source : Option Nat) (s : State) : State × Reply :=
  match source with
  | none =>
    okWith
      (topItems s ++ flaggedItems s ++
        [.num s.settings.floor, yesNo (attnActive s), .num s.office.overrun, .word (startWord s.power.lastStart)])
      s
  | some n =>
    if 14 ≤ n then refuse .badValue s
    else
      let x := sourceAt n s
      okWith
        ([.num n, .word (sourceName n), yesNo x.flag, .num x.count] ++ subjectItems x.subject ++
          [onOff (sourceEnable n s), .num (sourceLevel n s), .num (effectiveLevel n s)])
        s

/-- A source acknowledged (R198). -/
def acknowledge (n : Nat) (s : State) : State := { s with attention := s.attention.set n .clear }

/-- ACK (R198): the form with a count acknowledges only a source that still has it. -/
def ack (source : Nat) (count : Option Nat) (s : State) : State × Reply :=
  if 14 ≤ source || count.any (255 < ·) then refuse .badValue s
  else if count.any (· ≠ (sourceAt source s).count) then refuse .wrongState s
  else (acknowledge source s, .ok [.num source, .num (sourceAt source s).count])

/-- The values of LEVEL (R199). -/
def levelItems (n : Nat) (s : State) : List Item :=
  [onOff (sourceEnable n s), .num (sourceLevel n s), .num (effectiveLevel n s)]

/-- A user source's level and enable written (R199). -/
def setLevel (n level : Nat) (enable : Bool) (s : State) : State :=
  { s with
    settings := { s.settings with enables := s.settings.enables.set n enable, levels := s.settings.levels.set n level } }

/-- LEVEL (R199). -/
def level (source : Nat) (write : Option (Nat × Option Bool)) (s : State) : State × Reply :=
  match write with
  | none => if 14 ≤ source then refuse .badValue s else okWith (levelItems source s) s
  | some (l, e) =>
    if storeHolds .settings s then refuse .storeBusy s
    else
      match e with
      | none => refuse .badValue s
      | some b =>
        if 14 ≤ source || 7 < l then refuse .badValue s
        else if fixedSource source then refuse .notAllowed s
        else
          let s1 := setLevel source l b s
          (s1, .ok (levelItems source s1))

/-- FLOOR (R199). -/
def floor (value : Option Nat) (s : State) : State × Reply :=
  match value with
  | none => okWith [.num s.settings.floor] s
  | some f =>
    if storeHolds .settings s then refuse .storeBusy s
    else if 7 < f then refuse .badValue s
    else ({ s with settings := { s.settings with floor := f } }, .ok [.num f])

/-! ### Meanings -/

/-- STATUS (R197). -/
def execStatus (source : Option Nat) (s : State) : Host.Outcome State Fault Refusal := request (status source) s

/-- ACK (R198). -/
def execAck (source : Nat) (count : Option Nat) (s : State) : Host.Outcome State Fault Refusal := request (ack source count) s

/-- LEVEL (R199). -/
def execLevel (source : Nat) (write : Option (Nat × Option Bool)) (s : State) : Host.Outcome State Fault Refusal :=
  request (level source write) s

/-- FLOOR (R199). -/
def execFloor (value : Option Nat) (s : State) : Host.Outcome State Fault Refusal := request (floor value) s

end Sys2Proof.Machine
end

