-- ==== Sys2Proof/Machine/Store.lean ====
section
/-! DEFINITION. The Settings Store: working copies (R200), SAVE, LOAD, DEFAULTS (R201), the end of a step with what each area's
replacement brings (R1, R22, R33, R50, R72, R100, R123, R172, R202), SET and GET (R204, R205). -/

namespace Sys2Proof.Machine

/-! ### Areas -/

/-- The nine areas in area-number order (R200). -/
def allAreas : List Area :=
  [.settings, .limits, .plans, .patterns, .calendar, .texts, .roster, .away, .terminals]

/-- What area 8 keeps of the Terminal Table (R200): the entries that are not NEW. -/
def storedTerminals (s : State) : List StoredTerminal :=
  (List.range 8).filterMap fun n =>
    match terminalAt n s with
    | none => none
    | some t => if t.state = .new then none else some ⟨n, t.identity, t.entrance⟩

/-- The working copies of all nine areas (R200). -/
def workingCopies (s : State) : AreaCopies where
  settings := some s.settings
  limits := some s.limits
  plans := some s.plan.banks
  patterns := some s.chime.patterns
  calendar := some s.day.calendar
  texts := some s.notices.texts
  roster := some (s.roll.roster.map fun e => (e.1, e.2.enrolment))
  away := some s.roll.away
  terminals := some (storedTerminals s)

/-- One area of some copies written over the same area of others. -/
def AreaCopies.put (a : Area) (source target : AreaCopies) : AreaCopies :=
  match a with
  | .settings => { target with settings := source.settings }
  | .limits => { target with limits := source.limits }
  | .plans => { target with plans := source.plans }
  | .patterns => { target with patterns := source.patterns }
  | .calendar => { target with calendar := source.calendar }
  | .texts => { target with texts := source.texts }
  | .roster => { target with roster := source.roster }
  | .away => { target with away := source.away }
  | .terminals => { target with terminals := source.terminals }

/-- The areas of some copies that pass a test; the others not held. -/
def AreaCopies.keep (p : Area → Bool) (c : AreaCopies) : AreaCopies where
  settings := c.settings.filter fun _ => p .settings
  limits := c.limits.filter fun _ => p .limits
  plans := c.plans.filter fun _ => p .plans
  patterns := c.patterns.filter fun _ => p .patterns
  calendar := c.calendar.filter fun _ => p .calendar
  texts := c.texts.filter fun _ => p .texts
  roster := c.roster.filter fun _ => p .roster
  away := c.away.filter fun _ => p .away
  terminals := c.terminals.filter fun _ => p .terminals

/-- The named areas of some copies; the others not held. -/
def AreaCopies.only (l : List Area) (c : AreaCopies) : AreaCopies := c.keep l.contains

/-- The bytes of an area's contents; `none` for an area not held. -/
def AreaCopies.bytes (a : Area) (c : AreaCopies) : Option Text :=
  match a with
  | .settings => c.settings.map Config.areaContents
  | .limits => c.limits.map Config.areaContents
  | .plans => c.plans.map Config.areaContents
  | .patterns => c.patterns.map Config.areaContents
  | .calendar => c.calendar.map Config.areaContents
  | .texts => c.texts.map Config.areaContents
  | .roster => c.roster.map Config.areaContents
  | .away => c.away.map Config.areaContents
  | .terminals => c.terminals.map Config.areaContents

/-- The fingerprint of an area's contents (R200): the 16-bit check over its number, its length and its contents. -/
def AreaCopies.fingerprint (a : Area) (c : AreaCopies) : Option (BitVec 16) :=
  (c.bytes a).map fun b => check16 (Config.areaHead (areaNumber a) b.length ++ b)

/-- A stored copy is good when its fingerprint agrees with its contents; one never written is bad (R200). -/
def SettingsStore.isGood (st : SettingsStore) (a : Area) : Bool :=
  (st.stored.fingerprint a).any fun f => st.fingerprints[areaNumber a]? == some f

/-- The stored copies that are good. -/
def SettingsStore.good (st : SettingsStore) : AreaCopies := st.stored.keep st.isGood

/-- The verified copy of an area put in place of its stored copy, with its fingerprint (R202). -/
def SettingsStore.write (a : Area) (source : AreaCopies) (st : SettingsStore) : SettingsStore :=
  { st with
    stored := AreaCopies.put a source st.stored
    fingerprints := st.fingerprints.set (areaNumber a) ((source.fingerprint a).getD 0) }

/-- The defaults of the nine areas (R200). -/
def defaultCopies : AreaCopies where
  settings := some .default
  limits := some .default
  plans := some (List.replicate 4 .empty)
  patterns := some defaultPatterns
  calendar := some []
  texts := some (List.replicate 16 [])
  roster := some []
  away := some []
  terminals := some []

/-! ### Replacing a working copy -/

/-- SETTINGS replaced (R202): as a SET of every setting whose value changes. A changed button mode acts as a release under the
old settings before any value changes; then every value changes at once and the quiet set is found anew (DESIGN CHOICE, log
41). -/
def installSettings (new : Settings) (s : State) : State :=
  let s1 := if new.buttonMode = s.settings.buttonMode then s else releaseButton s
  silenceChanged s1 { s1 with settings := new }

/-- A ROSTER replacement leaves a slot EMPTY, or changes its card key or pupil reference (R1; log 34). -/
def rosterGone (new : List (Slot × Enrolment)) (s : State) (slot : Slot) : Bool :=
  match tableGet slot new, pupilAt slot s with
  | none, _ => true
  | some _, none => false
  | some e, some p => e.card ≠ p.enrolment.card || e.reference ≠ p.enrolment.reference

/-- The roll of an enrolment list: every day part fresh, the census computed from the result (R1). -/
def freshRoster (new : List (Slot × Enrolment)) : List (Slot × Pupil) := new.map fun e => (e.1, ⟨e.2, .fresh⟩)

/-- ROSTER replaced (R1). -/
def installRoster (new : List (Slot × Enrolment)) (s : State) : State :=
  let s1 := forgetSlots (rosterGone new s) s
  { s1 with roll := { s1.roll with roster := freshRoster new, census := censusOf (freshRoster new) } }

/-- The Terminal Table of stored terminals (R100). -/
def terminalTable (l : List StoredTerminal) (now : RunTime) : List (Option Terminal) :=
  (List.range 8).map fun n => (l.find? (·.entry = n)).map fun t => .new t.identity t.entrance .active now

/-- TERMINALS replaced (R100, R112, R117, R123): the job under way ends with its present transaction. R100 replaces the table at a LOAD
as at a cold start, where last heard is the start moment; at a LOAD, which is no start, it is the present running time (DESIGN CHOICE,
log 49). -/
def installTerminals (l : List StoredTerminal) (s : State) : State :=
  let busy := !lineFree s
  let s1 := keepEntrance s
  { s1 with
    line :=
      { s1.line with
        table := terminalTable l s.time.running
        refused := none
        orphan := s.line.orphan || busy
        dropJob := s.line.dropJob || busy } }

/-- An area of some copies put in place of the working copy (R202). -/
def install (a : Area) (c : AreaCopies) (s : State) : State :=
  match a with
  | .settings => (c.settings.map fun x => installSettings x s).getD s
  | .limits => (c.limits.map fun x => { s with limits := x }).getD s
  | .plans => (c.plans.map fun x => { s with plan := { s.plan with banks := x } }).getD s
  | .patterns => (c.patterns.map fun x => { s with chime := { s.chime with patterns := x } }).getD s
  | .calendar => (c.calendar.map fun x => setCalendar (fun _ => x) s).getD s
  | .texts => (c.texts.map fun x => setNotices (fun n => { n with texts := x }) s).getD s
  | .roster => (c.roster.map fun x => installRoster x s).getD s
  | .away => (c.away.map fun x => setAway (fun _ => x) s).getD s
  | .terminals => (c.terminals.map fun x => installTerminals x s).getD s

/-! ### SAVE, LOAD and DEFAULTS -/

/-- The areas of a request in area-number order; `none` for a list that is empty, names an unknown area or one twice. -/
def areasOf (a : AreasArg) : Option (List Area) :=
  match a with
  | .all => some allAreas
  | .list l =>
    match l.mapM id with
    | some named =>
      if named.isEmpty ∨ ¬named.Nodup then none else some (allAreas.filter named.contains)
    | none => none

/-- The word of a store operation. -/
def storeKindWord : StoreKind → String
  | .save => "SAVE" | .load => "LOAD" | .defaults => "DEFAULTS"

/-- A store operation begins (R201). -/
def beginStore (kind : StoreKind) (areas : List Area) (s : State) : State × Reply :=
  let snapshot := if kind = .save then (workingCopies s).only areas else .none_
  ({ s with store := { s.store with operation := some ⟨kind, [], areas, snapshot, s.time.school⟩ } },
    .started (.word (storeKindWord kind) :: areas.map fun a => .word (areaWord a)))

/-- LOAD or DEFAULTS of ROSTER, PLANS or AWAY needs the day CLOSED (R201). -/
def needsClosed (l : List Area) : Bool := l.contains .roster || l.contains .plans || l.contains .away

/-- SAVE, LOAD and DEFAULTS (R201). -/
def storeRequest (kind : StoreKind) (a : AreasArg) (s : State) : State × Reply :=
  if s.store.operation.isSome then refuse .storeBusy s
  else
    match areasOf a with
    | none => refuse .badValue s
    | some l =>
      if kind ≠ .save ∧ needsClosed l ∧ s.day.state ≠ .closed then refuse .dayOpen s
      else if kind ≠ .save ∧ l.contains .limits ∧ ¬s.pins.install then refuse .locked s
      else beginStore kind l s

/-- The level of the INSTALL strap as it is read (R205). -/
def withStrap (strap : Bool) (s : State) : State := { s with pins := { s.pins with install := strap } }

/-- The effect and result of the step of one area (R202). -/
def areaStep (kind : StoreKind) (a : Area) (snapshot : AreaCopies) (agrees : Bool) (s : State) : State × StepResult :=
  match kind with
  | .save =>
    if agrees then ({ s with store := s.store.write a snapshot }, .ok)
    else (raise .store (some (.area a)) s, .failed)
  | .load =>
    if s.store.isGood a then (install a s.store.stored s, .ok) else (raise .store (some (.area a)) s, .failed)
  | .defaults => (install a defaultCopies s, .ok)

/-- The subject of DONE (R202): the first area whose result is not OK, else the last. -/
def doneSubject (l : List (Area × StepResult)) : Option Subject :=
  match l.find? (·.2 ≠ .ok) with
  | some e => some (.area e.1)
  | none => l.getLast?.map fun e => .area e.1

/-- The operation ends with the results of its areas (R202). -/
def endStore (kind : StoreKind) (results : List (Area × StepResult)) (start : SchoolTime) (subject : Option Subject)
    (s : State) : State :=
  raise .done subject
    { s with
      store := { s.store with operation := none, lastOperation := some ⟨kind, results, start, s.time.school⟩ } }

/-- The step of an area has ended (R202). -/
def storeStep (agrees : Bool) (s : State) : State :=
  match s.store.operation with
  | none => s
  | some o =>
    match o.rest with
    | [] => s
    | a :: rest =>
      let r := areaStep o.kind a o.snapshot agrees s
      let ended := o.ended ++ [(a, r.2)]
      let s1 :=
        if rest.isEmpty then endStore o.kind ended o.start (doneSubject ended) r.1
        else { r.1 with store := { r.1.store with operation := some { o with ended := ended, rest := rest } } }
      settle (autoOpen s1)

/-! ### SET and GET -/

/-- A group's value. -/
def PerGroup.get {α : Type} (g : Group) (p : PerGroup α) : α :=
  match g with
  | .a => p.a
  | .b => p.b

/-- A group's value written. -/
def PerGroup.set {α : Type} (g : Group) (v : α) (p : PerGroup α) : PerGroup α :=
  match g with
  | .a => { p with a := v }
  | .b => { p with b := v }

/-- An input's value. -/
def PerInput.get {α : Type} (i : QuietInput) (p : PerInput α) : α :=
  match i with
  | .qa => p.qa
  | .qb => p.qb

/-- An input's value written. -/
def PerInput.set {α : Type} (i : QuietInput) (v : α) (p : PerInput α) : PerInput α :=
  match i with
  | .qa => { p with qa := v }
  | .qb => { p with qb := v }

/-- A zone number is in range. -/
def zoneOk (z : Nat) : Bool := 1 ≤ z && z ≤ 6

/-- A setting belongs to LIMITS (R204). -/
def isLimit : SettingRef → Bool
  | .ceiling _ | .override => true
  | _ => false

/-- SETTINGS with a value written, where the value fits the setting (R204). -/
def writeSetting (r : SettingRef) (v : SettingValue) (s : Settings) : Option Settings :=
  match r, v with
  | .dayOpen, .time t => if t < daySeconds ∧ t % 60 = 0 then some { s with dayOpen := t } else none
  | .weekMap, .week l => if l.length = 7 ∧ l.all dayTypeOk then some { s with weekMap := l } else none
  | .minutePulse, .flag b => some { s with minutePulse := b }
  | .catchUp, .num n => if n ≤ 600 then some { s with catchUp := n } else none
  | .waitLimit, .num n => if 5 ≤ n ∧ n ≤ 120 then some { s with waitLimit := n } else none
  | .lead, .num n => if n ≤ 10 then some { s with lead := n } else none
  | .tail, .num n => if n ≤ 10 then some { s with tail := n } else none
  | .zoneGroup z, .group g => if zoneOk z then some { s with zoneGroup := s.zoneGroup.set (z - 1) g } else none
  | .relayPol z, .polarity p => if zoneOk z then some { s with relayPol := s.relayPol.set (z - 1) p } else none
  | .wakePol (some g), .polarity p => some { s with wakePol := s.wakePol.set g p }
  | .groupVolume (some g), .num n => if n ≤ 15 then some { s with groupVolume := s.groupVolume.set g n } else none
  | .quietMask (some i), .zones l =>
    if setInRange 1 6 l then some { s with quietMask := s.quietMask.set i (setWithin 1 6 l) } else none
  | .quietLevel (some i), .flag b => some { s with quietLevel := s.quietLevel.set i b }
  | .buttonMode, .mode m => some { s with buttonMode := m }
  | .buttonZones, .zones l => if maskOk 1 6 l then some { s with buttonZones := setWithin 1 6 l } else none
  | .buttonPrio, .num n => if 1 ≤ n ∧ n ≤ 15 then some { s with buttonPrio := n } else none
  | .buttonPattern, .num n => if n < 32 then some { s with buttonPattern := n } else none
  | .latePolicy, .policy p => some { s with latePolicy := p }
  | _, _ => none

/-- LIMITS with a value written, where the value fits the setting (R204). -/
def writeLimit (r : SettingRef) (v : SettingValue) (l : Limits) : Option Limits :=
  match r, v with
  | .ceiling (some g), .num n => if n ≤ 15 then some { l with ceiling := l.ceiling.set g n } else none
  | .override, .flag b => some { l with override := b }
  | _, _ => none

/-- The value a setting holds (R204); `none` for a zone, group or input that does not exist. -/
def readSetting (r : SettingRef) (s : Settings) (l : Limits) : Option SettingValue :=
  match r with
  | .dayOpen => some (.time s.dayOpen)
  | .weekMap => some (.week s.weekMap)
  | .minutePulse => some (.flag s.minutePulse)
  | .catchUp => some (.num s.catchUp)
  | .waitLimit => some (.num s.waitLimit)
  | .lead => some (.num s.lead)
  | .tail => some (.num s.tail)
  | .zoneGroup z => if zoneOk z then some (.group (groupOfZone s.zoneGroup z)) else none
  | .relayPol z => if zoneOk z then some (.polarity (s.relayPol.getD (z - 1) .activeHigh)) else none
  | .wakePol g => g.map fun g => .polarity (s.wakePol.get g)
  | .groupVolume g => g.map fun g => .num (s.groupVolume.get g)
  | .quietMask i => i.map fun i => .zones (s.quietMask.get i)
  | .quietLevel i => i.map fun i => .flag (s.quietLevel.get i)
  | .buttonMode => some (.mode s.buttonMode)
  | .buttonZones => some (.zones s.buttonZones)
  | .buttonPrio => some (.num s.buttonPrio)
  | .buttonPattern => some (.num s.buttonPattern)
  | .latePolicy => some (.policy s.latePolicy)
  | .ceiling g => g.map fun g => .num (l.ceiling.get g)
  | .override => some (.flag l.override)
  | .unknown => none

/-- A quiet input's name. -/
def inputWord : QuietInput → String
  | .qa => "QA" | .qb => "QB"

/-- The name of a setting, with its zone, group or input (R204). -/
def settingItems : SettingRef → List Item
  | .dayOpen => [.word "DAYOPEN"]
  | .weekMap => [.word "WEEKMAP"]
  | .minutePulse => [.word "MINUTEPULSE"]
  | .catchUp => [.word "CATCHUP"]
  | .waitLimit => [.word "WAITLIMIT"]
  | .lead => [.word "LEAD"]
  | .tail => [.word "TAIL"]
  | .zoneGroup z => [.word "ZONEGROUP", .num z]
  | .relayPol z => [.word "RELAYPOL", .num z]
  | .wakePol g => .word "WAKEPOL" :: (g.map groupItem).toList
  | .groupVolume g => .word "GROUPVOLUME" :: (g.map groupItem).toList
  | .quietMask i => .word "QUIETMASK" :: (i.map fun i => Item.word (inputWord i)).toList
  | .quietLevel i => .word "QUIETLEVEL" :: (i.map fun i => Item.word (inputWord i)).toList
  | .buttonMode => [.word "BUTTONMODE"]
  | .buttonZones => [.word "BUTTONZONES"]
  | .buttonPrio => [.word "BUTTONPRIO"]
  | .buttonPattern => [.word "BUTTONPATTERN"]
  | .latePolicy => [.word "LATEPOLICY"]
  | .ceiling g => .word "CEILING" :: (g.map groupItem).toList
  | .override => [.word "OVERRIDE"]
  | .unknown => []

/-- A flag's word, by its setting. -/
def flagWord (r : SettingRef) (b : Bool) : String :=
  match r, b with
  | .quietLevel _, true => "HIGH"
  | .quietLevel _, false => "LOW"
  | .override, true => "YES"
  | .override, false => "NO"
  | _, true => "ON"
  | _, false => "OFF"

/-- The word of a button mode. -/
def modeWord : ButtonMode → String
  | .off => "OFF" | .follow => "FOLLOW" | .single => "SINGLE" | .gate => "GATE" | .resync => "RESYNC"

/-- The word of a late-notice policy. -/
def policyWord : LatePolicy → String
  | .never => "NONE" | .afterCut => "AFTER_CUT" | .always => "ALL"

/-- The word of a polarity. -/
def polarityWord : Polarity → String
  | .activeHigh => "ACTIVE_HIGH" | .activeLow => "ACTIVE_LOW"

/-- An entry of the weekday map. -/
def weekItem : DayType → Item
  | .school bank => .num bank
  | .closed => .word "CLOSED"

/-- A setting's value as values of a reply. -/
def valueItems (r : SettingRef) : SettingValue → List Item
  | .num n => [.num n]
  | .time t => [.minutes t]
  | .flag b => [.word (flagWord r b)]
  | .group g => [groupItem g]
  | .polarity p => [.word (polarityWord p)]
  | .zones l => [.set l]
  | .mode m => [.word (modeWord m)]
  | .policy p => [.word (policyWord p)]
  | .week l => l.map weekItem

/-- GET of a setting (R204). -/
def getValue (r : SettingRef) (s : State) : State × Reply :=
  if r = .unknown then refuse .noSuch s
  else
    match readSetting r s.settings s.limits, readSetting r .default .default with
    | some v, some d => okWith (settingItems r ++ valueItems r v ++ valueItems r d) s
    | _, _ => refuse .badValue s

/-- What a taken SET of SETTINGS does beside the value (R33, R36, R89, R93). -/
def afterSet (r : SettingRef) (old s : State) : State :=
  match r with
  | .dayOpen => autoOpen s
  | .weekMap => autoOpen s
  | .quietMask _ => silenceChanged old s
  | .quietLevel _ => silenceChanged old s
  | _ => s

/-- A taken SET of SETTINGS (R204); of the button mode, it acts as a release first (R93). -/
def setSettings (r : SettingRef) (v : Settings) (s : State) : State × Reply :=
  let s1 := if r = .buttonMode then releaseButton s else s
  getValue r (afterSet r s1 { s1 with settings := v })

/-- The zone, group or input of a setting exists (R204). -/
def settingPlaceOk : SettingRef → Bool
  | .zoneGroup z | .relayPol z => zoneOk z
  | .wakePol g | .groupVolume g | .ceiling g => g.isSome
  | .quietMask i | .quietLevel i => i.isSome
  | _ => true

/-- SET (R204). A zone, group or input that does not exist has no place in R204's list and is tested before it (R193). -/
def setValue (r : SettingRef) (value : Option SettingValue) (s : State) : State × Reply :=
  if r = .unknown then refuse .noSuch s
  else if !settingPlaceOk r then refuse .badValue s
  else if storeHolds (if isLimit r then .limits else .settings) s then refuse .storeBusy s
  else if isLimit r then
    match value.bind fun v => writeLimit r v s.limits with
    | none => refuse .badValue s
    | some l => if s.pins.install then getValue r { s with limits := l } else refuse .locked s
  else
    match value.bind fun v => writeSetting r v s.settings with
    | none => refuse .badValue s
    | some v => setSettings r v s

/-- The word of a step's result. -/
def resultWord : StepResult → String
  | .ok => "OK" | .failed => "FAILED" | .abandoned => "ABANDONED" | .notReached => "NOT_REACHED"

/-- The operation under way as values, its areas as a set of area numbers in order (R201, R205; log 8). -/
def operationItems : Option StoreOperation → List Item
  | none => [.word "IDLE"]
  | some o =>
    [.word (storeKindWord o.kind), .set ((allAreas.filter o.areas.contains).map areaNumber)] ++
      optItem "RUNNING" (fun a => .word (areaWord a)) o.rest.head?

/-- The name of an area in the last operation record: A and its number (log 8). -/
def areaTag : Area → String
  | .settings => "A0" | .limits => "A1" | .plans => "A2" | .patterns => "A3" | .calendar => "A4" | .texts => "A5"
  | .roster => "A6" | .away => "A7" | .terminals => "A8"

/-- The result of an area in a last operation record, where the record has it. -/
def resultItem (r : OperationRecord) (a : Area) : Option Item :=
  (r.results.find? (·.1 = a)).map fun e => .named (areaTag a) (.word (resultWord e.2))

/-- The last operation record as values (R205): its kind, each of its areas in order of area number with its result (R201, R202),
the times. -/
def recordItems : Option OperationRecord → List Item
  | none => []
  | some r =>
    .named "LAST" (.word (storeKindWord r.kind)) :: allAreas.filterMap (resultItem r) ++
      [.named "START" (.time r.start), .named "END" (.time r.finish)]

/-- The values of GET STORE (R205). They fit in a line whatever the operations (`storeItems_fits`), so none is left out. -/
def storeItems (s : State) : List Item :=
  operationItems s.store.operation ++ [yesNo s.pins.install] ++ recordItems s.store.lastOperation

/-- GET STORE (R205). -/
def getStore (s : State) : State × Reply := okWith (storeItems s) s

/-- GET (R204, R205). -/
def getSetting (target : GetTarget) (s : State) : State × Reply :=
  match target with
  | .setting r => getValue r s
  | .store => getStore s

/-! ### Meanings -/

/-- SAVE (R201). -/
def execSave (areas : AreasArg) (s : State) : Host.Outcome State Fault Refusal := request (storeRequest .save areas) s

/-- LOAD (R201). -/
def execLoad (areas : AreasArg) (strap : Bool) (s : State) : Host.Outcome State Fault Refusal :=
  request (fun s => storeRequest .load areas (withStrap strap s)) s

/-- DEFAULTS (R201). -/
def execDefaults (areas : AreasArg) (strap : Bool) (s : State) : Host.Outcome State Fault Refusal :=
  request (fun s => storeRequest .defaults areas (withStrap strap s)) s

/-- SET (R204). -/
def execSetSetting (setting : SettingRef) (value : Option SettingValue) (strap : Bool) (s : State) :
    Host.Outcome State Fault Refusal :=
  request (fun s => setValue setting value (withStrap strap s)) s

/-- GET (R204, R205). -/
def execGetSetting (target : GetTarget) (strap : Bool) (s : State) : Host.Outcome State Fault Refusal :=
  request (fun s => getSetting target (withStrap strap s)) s

/-- STORE_STEP_END (R202). -/
def execStoreStepEnd (agrees : Bool) (s : State) : Host.Outcome State Fault Refusal := event (storeStep agrees) s

end Sys2Proof.Machine
end

