-- ==== Sys2Proof/Machine/Starts.lean ====
section
/-! DEFINITION. The hold, the loss of the backup domain, the two starts and RESTART (R206, R207), with the start values of each
block (R1, R22, R27, R30, R35, R56, R62, R68, R72, R89, R93, R98, R100, R123, R148, R158, R159, R176, R177, R191, R194). -/

namespace Sys2Proof.Machine

/-! ### Cold start -/

/-- The working copy of an area at a cold start: the stored copy if it is good, else the default with STORE raised (R207). -/
def takeStored (s : State) (a : Area) : State :=
  if s.store.isGood a then s else raise .store (some (.area a)) s

/-- The copies a cold start takes: each of the good stored copies, the default of each other area (R207). -/
def coldCopies (stored : AreaCopies) : AreaCopies where
  settings := some (stored.settings.getD .default)
  limits := some (stored.limits.getD .default)
  plans := some (stored.plans.getD (List.replicate 4 .empty))
  patterns := some (stored.patterns.getD defaultPatterns)
  calendar := some (stored.calendar.getD [])
  texts := some (stored.texts.getD (List.replicate 16 []))
  roster := some (stored.roster.getD [])
  away := some (stored.away.getD [])
  terminals := some (stored.terminals.getD [])

/-- Every block at its cold-start state with the default areas, the inputs at the given levels, no source flagged. -/
def coldBlocks (store : SettingsStore) (pins : Pins) (pending : List Instr) : State :=
  { State.reset with
    time := ⟨0, 0, false, pins.minutePulse, 0⟩
    zone := ⟨List.replicate 6 false, ⟨none, none⟩, ⟨pins.qa, pins.qb⟩, pins.bell, 0⟩
    attention := List.replicate 14 .clear
    store := ⟨store.stored, store.fingerprints, none, none⟩
    pins := pins
    pending := pending }

/-- The blocks take their areas from the working copies (R207). -/
def takeAreas (c : AreaCopies) (s : State) : State := allAreas.foldl (fun s a => install a c s) s

/-- A cold start (R207). -/
def coldStart (pins : Pins) (s : State) : State :=
  let s1 := takeAreas (coldCopies s.store.good) (coldBlocks s.store pins s.pending)
  raise .clock none (allAreas.foldl takeStored s1)

/-! ### Warm start -/

/-- The outcome a plan entry's bell takes at a warm start (R68). -/
def warmOutcome : ChimeOutcome → Option ChimeOutcome
  | .waiting => some .dropped
  | .playing => some .cutShort
  | _ => none

/-- One entry's outcome at a warm start, with BELL (R68). -/
def warmEntry (s : State) (i : Nat) : State :=
  match (s.plan.today.entries[i]?).bind fun e => warmOutcome e.outcome with
  | none => s
  | some o => raise .bell (some (.entry i)) (modifyEntry i (fun e => { e with outcome := o }) s)

/-- The outcomes of the lost plan requests (R68). R68 raises BELL once for each entry and orders no two: they are taken in order of
index, so the last subject is the highest (DESIGN CHOICE, log 48). -/
def warmOutcomes (s : State) : State := (List.range s.plan.today.entries.length).foldl warmEntry s

/-- A terminal at a warm start (R100, R117). -/
def Terminal.warm (now : RunTime) (t : Terminal) : Terminal :=
  { t with
    state := if t.state = .silent then .active else t.state
    missed := 0
    lastHeard := now
    hold := [] }

/-- The Entrance Line Controller at a warm start (R100, R112, R119, R123). -/
def EntranceLine.warm (now : RunTime) (l : EntranceLine) : EntranceLine :=
  { EntranceLine.cold with table := l.table.map (·.map (Terminal.warm now)), sent := l.sent }

/-- The Gateway Port at a warm start (R177). -/
def GatewayPort.warm (g : GatewayPort) : GatewayPort :=
  { GatewayPort.cold with inbox := g.inbox, inboxCounter := g.inboxCounter, inboxFull := g.inboxFull }

/-- A store operation abandoned by a warm start (R207). -/
def abandonStore (s : State) : State :=
  match s.store.operation with
  | none => s
  | some o =>
    match o.rest with
    | [] => { s with store := { s.store with operation := none } }
    | a :: rest =>
      endStore o.kind (o.ended ++ (a, StepResult.abandoned) :: rest.map fun b => (b, StepResult.notReached)) o.start
        (some (.area a)) s

/-- The Send Window emptied, one send after another (R176). R176 orders no two sends of one broadcast: they are taken in the window's
order, oldest first, so their steps stand so in the list of returned steps (DESIGN CHOICE, log 47). -/
def emptyWindow (s : State) : State := s.notices.window.foldl (fun s x => returnSend x.key (dropSend x.key s)) s

/-- The Notice Dispatcher at a warm start (R158, R159, R176). -/
def warmNotices (s : State) : State :=
  setNotices (fun n => { n with busyEnd := none, quietEnd := n.quietEnd.filter (s.time.school < ·) }) (emptyWindow s)

/-- The head sweep restarted at slot 0 (R148). -/
def restartSweep (s : State) : State :=
  if s.sweep.list.isEmpty then s else setSweep (fun w => { w with cursor := some 0, state := .running }) s

/-- The Day Controller, the Cut Sweeper and the Plan Engine at a warm start (R35, R62, R148). -/
def warmDay (s : State) : State :=
  match s.day.state with
  | .closed => s
  | .opening =>
    if s.day.date = some s.time.date then { s with day := { s.day with cursor := 0 } } else closeDayNow .dateChange s
  | .open_ =>
    if s.day.date = some s.time.date then evaluatePlan (restartSweep s) else closeDayNow .dateChange s

/-- The blocks whose work a warm start drops (R27, R89, R93, R98, R123, R177, R191, R206). -/
def warmBlocks (pins : Pins) (s : State) : State :=
  { s with
    time := { s.time with minutePulseLatch := pins.minutePulse }
    chime := { s.chime with channels := List.replicate 4 .idle, waits := [], lastOffice := none, lastButton := none }
    zone := ⟨s.zone.mutes, ⟨none, none⟩, ⟨pins.qa, pins.qb⟩, pins.bell, s.zone.press⟩
    line := s.line.warm s.time.running
    gateway := s.gateway.warm
    office := .start
    power := ⟨false, s.power.retention, .warm⟩
    pins := pins }

/-- A warm start (R207), its effects in this order (log 36). -/
def warmStart (pins : Pins) (s : State) : State :=
  settle (autoOpen (warmDay (warmNotices (warmOutcomes (abandonStore (warmBlocks pins s))))))

/-! ### The hold -/

/-- The part is held (R206). -/
def holdPart (s : State) : State := { s with power := { s.power with held := true } }

/-- The backup domain has lost its charge while the part is held (R206; log 17): the retention mark is gone, and what the
domain held is lost; the stored copies stay. -/
def loseBackup (s : State) : State :=
  { coldBlocks s.store s.pins s.pending with power := ⟨true, false, s.power.lastStart⟩ }

/-- RESTART (R206): the warm start follows once the reply has been sent. -/
def restart (s : State) : State × Reply := ({ s with office := { s.office with restart := true } }, .ok [])

/-! ### Meanings -/

/-- RESTART (R206). -/
def execRestart (s : State) : Host.Outcome State Fault Refusal := request restart s

/-- HOLD_BEGINS (R206). -/
def execHoldBegins (s : State) : Host.Outcome State Fault Refusal := .next (holdPart s)

/-- COLD_START (R206, R207): the hold ends without a retention mark. -/
def execColdStart (pins : Pins) (s : State) : Host.Outcome State Fault Refusal :=
  .next (if s.power.held && !s.power.retention then coldStart pins s else s)

/-- WARM_START (R206, R207): the hold ends with the retention mark. -/
def execWarmStart (pins : Pins) (s : State) : Host.Outcome State Fault Refusal :=
  .next (if s.power.held && s.power.retention then warmStart pins s else s)

/-- BACKUP_DOMAIN_LOST (R206). -/
def execBackupDomainLost (s : State) : Host.Outcome State Fault Refusal :=
  .next (if s.power.held then loseBackup s else s)

end Sys2Proof.Machine
end

