-- ==== Sys2Proof/Machine/Parse.lean ====
section
/-! DEFINITION. The reading of a request's arguments (R192, R209): for each word of the catalogue, its forms, and the command
they spell. Argument places that no rule gives are the model's (DESIGN CHOICE, log 9). -/

namespace Sys2Proof.Machine

/-- A Number argument. -/
def asNum : Token → Option Nat := Token.as formNumber

/-- A Date argument. -/
def asDate : Token → Option Date := Token.as formDate

/-- A Set argument. -/
def asSet : Token → Option (List Nat) := Token.as formSet

/-- A Word argument among named values: `some none` for another word. -/
def asOne {α : Type} (l : List (String × α)) : Token → Option (Option α) := Token.as (formOneOf l)

/-- An argument is the given word. -/
def isWord (w : String) : Token → Bool
  | .plain t => t == ascii w
  | .quoted _ => false

def yesNoWords : List (String × Bool) := [("YES", true), ("NO", false)]
def onOffWords : List (String × Bool) := [("ON", true), ("OFF", false)]
def groupWords : List (String × Group) := [("A", .a), ("B", .b)]
def inputWords : List (String × QuietInput) := [("QA", .qa), ("QB", .qb)]

def markWords : List (String × Mark) :=
  [("UNSEEN", .unseen), ("PRESENT", .present), ("LATE", .late), ("LATE_AFTER_CUT", .lateAfterCut),
    ("EXPECTED", .expected), ("ABSENT_PENDING", .absentPending), ("ABSENT_ASKED", .absentAsked),
    ("ABSENT_UNREACHED", .absentUnreached), ("EXCUSED", .excused), ("ARRIVED_EXCUSED", .arrivedExcused),
    ("SIGNED_OUT", .signedOut)]

def reasonWords : List (String × ExcuseReason) :=
  [("ILL", .ill), ("APPOINTMENT", .appointment), ("FAMILY", .family), ("AUTHORISED", .authorised)]

def entryKindWords : List (String × EntryKind) :=
  [("CHIME", .chime), ("REGISTRATION", .registration), ("ABSENCE_CUT", .absenceCut),
    ("NOTICE_DEADLINE", .noticeDeadline), ("NOTICE_HOLD", .noticeHold), ("DAY_CLOSE", .dayClose)]

def noticeKindWords : List (String × NoticeKind) :=
  [("ABSENT", .absent), ("LATE", .late), ("ARRIVED", .arrived), ("GENERAL", .general), ("CLOSURE", .closure)]

def areaWords : List (String × Area) :=
  [("SETTINGS", .settings), ("LIMITS", .limits), ("PLANS", .plans), ("PATTERNS", .patterns), ("CALENDAR", .calendar),
    ("TEXTS", .texts), ("ROSTER", .roster), ("AWAY", .away), ("TERMINALS", .terminals)]

def selectWords : List (String × Select) := [("NORMAL", .normal), ("ALTERNATE", .alternate)]
def reachWords : List (String × Reach) := [("FIRST", .first), ("ALL", .all)]

/-- A request whose arguments all stand in place. -/
def inPlace (f : List Token → Option Instr) (a : Args) : Option Instr := if a.named.isEmpty then f a.pos else none

/-- A request of one Number. -/
def oneNumber (f : Nat → Instr) : Args → Option Instr :=
  inPlace fun
    | [n] => (asNum n).map f
    | _ => none

/-- A request without arguments. -/
def noArguments (i : Instr) : Args → Option Instr :=
  inPlace fun
    | [] => some i
    | _ => none

/-! ### The roll -/

def parseEnrol (a : Args) : Option Instr :=
  if !a.onlyNames ["PERMIT", "OFFICE", "SLOT"] then none
  else
    match a.pos with
    | [card, ref, cohort, form, contacts] => do
      let card ← asNum card
      let ref ← asNum ref
      let cohort ← asNum cohort
      let form ← asNum form
      let contacts ← contacts.as formContacts
      let permit ← a.opt "PERMIT" formTime
      let office ← a.opt "OFFICE" (formOneOf yesNoWords)
      let slot ← a.opt "SLOT" formNumber
      some (.enrol ⟨card, ref, cohort, form, contacts, permit, office, slot⟩)
    | _ => none

/-- A late permit or NONE. -/
def formPermit (t : Text) : Option (Option SchoolTime) := if t == ascii "NONE" then some none else (formTime t).map some

def parseAmend (a : Args) : Option Instr :=
  if !a.onlyNames ["CARD", "REF", "COHORT", "FORM", "PERMIT", "OFFICE", "CONTACTS"] then none
  else
    match a.pos with
    | [slot] => do
      let slot ← asNum slot
      let card ← a.opt "CARD" formNumber
      let ref ← a.opt "REF" formNumber
      let cohort ← a.opt "COHORT" formNumber
      let form ← a.opt "FORM" formNumber
      let permit ← a.opt "PERMIT" formPermit
      let office ← a.opt "OFFICE" (formOneOf yesNoWords)
      let contacts ← a.opt "CONTACTS" formContacts
      some (.amend ⟨slot, card, ref, cohort, form, permit, office, contacts⟩)
    | _ => none

def parseFind (a : Args) : Option Instr :=
  if !a.onlyNames ["START"] then none
  else
    match a.pos with
    | [w, n] =>
      if isWord "CARD" w && a.named.isEmpty then (asNum n).map fun n => .find (.card n)
      else if isWord "REF" w && a.named.isEmpty then (asNum n).map fun n => .find (.reference n)
      else if isWord "CONTACT" w then do
        let n ← asNum n
        let start ← a.opt "START" formNumber
        some (.find (.contact n (start.getD 0)))
      else none
    | _ => none

def parseMarks (a : Args) : Option Instr :=
  if !a.onlyNames ["MARK", "FORM", "DISPUTED", "START"] then none
  else
    match a.pos with
    | [cohort] => do
      let cohort ← asNum cohort
      let mark ← a.opt "MARK" (formOneOf markWords)
      let form ← a.opt "FORM" formNumber
      let disputed ← a.opt "DISPUTED" (formOneOf [("YES", true)])
      let start ← a.opt "START" formNumber
      some (.marks ⟨cohort, mark, form, disputed.map (·.getD false), start.getD 0⟩)
    | _ => none

def parseMark (a : Args) : Option Instr :=
  if !a.onlyNames ["BACK"] then none
  else
    match a.pos with
    | [slot, target] => do
      let slot ← asNum slot
      let target ← asOne markWords target
      let back ← a.opt "BACK" formTime
      some (.mark ⟨slot, target, none, back⟩)
    | [slot, target, reason] => do
      let slot ← asNum slot
      let target ← asOne markWords target
      let reason ← asOne reasonWords reason
      let back ← a.opt "BACK" formTime
      some (.mark ⟨slot, target, some reason, back⟩)
    | _ => none

def parseCensus (a : Args) : Option Instr :=
  if !a.onlyNames ["FROM"] then none
  else
    match a.pos with
    | [c] => do
      let start ← a.opt "FROM" formNumber
      if isWord "ALL" c then some (.census none (start.getD 0))
      else
        let c ← asNum c
        some (.census (some c) (start.getD 0))
    | _ => none

def parseAway : Args → Option Instr :=
  inPlace fun
    | [slot, first, last, reason] => do
      let slot ← asNum slot
      let first ← asDate first
      let last ← asDate last
      let reason ← asOne reasonWords reason
      some (.away slot first last reason)
    | _ => none

def parseUnaway : Args → Option Instr :=
  inPlace fun
    | [slot, first] => do
      let slot ← asNum slot
      let first ← asDate first
      some (.unaway slot first)
    | _ => none

def parseAways (a : Args) : Option Instr :=
  if !a.onlyNames ["SLOT", "START"] || !a.pos.isEmpty then none
  else do
    let slot ← a.opt "SLOT" formNumber
    let start ← a.opt "START" formDate
    some (.aways slot start)

def parseArrive (a : Args) : Option Instr :=
  if !a.onlyNames ["TIME"] then none
  else
    match a.pos with
    | [slot] => do
      let slot ← asNum slot
      let time ← a.opt "TIME" formTime
      some (.arrive slot time)
    | _ => none

/-! ### The day and its plans -/

def parseClock (a : Args) : Option Instr :=
  if !a.onlyNames ["DATE"] then none
  else
    match a.pos with
    | [] => if a.named.isEmpty then some .clock else none
    | [t] => do
      let t ← t.as formTime
      let date ← a.opt "DATE" formDate
      some (.setClock t date)
    | _ => none

def parseDatePut : Args → Option Instr :=
  inPlace fun
    | [date, w] => do
      let date ← asDate date
      if isWord "CLOSED" w then some (.datePut date .closed) else none
    | [date, w, bank] => do
      let date ← asDate date
      let bank ← asNum bank
      if isWord "SCHOOL" w then some (.datePut date (.school bank)) else none
    | _ => none

def parseDateDrop : Args → Option Instr :=
  inPlace fun
    | [date] => (asDate date).map .dateDrop
    | _ => none

/-- A request with one optional Named argument and none in place. -/
def onlyOptional {α : Type} (name : String) (form : Text → Option α) (f : Option α → Instr) (a : Args) : Option Instr :=
  if !a.onlyNames [name] || !a.pos.isEmpty then none else (a.opt name form).map f

/-- The next argument in place, read in a form, and the arguments after it: `none` where it is of another form, no value where
no argument is left. -/
def takeField {α : Type} (form : Token → Option α) : List Token → Option (Option α × List Token)
  | [] => some (none, [])
  | t :: rest => (form t).map fun v => (some v, rest)

/-- The fields of ENTRYPUT in place after the kind, which the kind requires (R51); one left over is a field that the kind does
not hold, and a chime part by name is none of a CHIME's. -/
def entryFields (kind : Option EntryKind) (rest : List Token) (e : EntryPutArgs) : Option EntryPutArgs :=
  match kind with
  | some .chime => do
    let (p, rest) ← takeField asNum rest
    let (z, rest) ← takeField asSet rest
    let (pr, rest) ← takeField asNum rest
    let byName := e.pattern.isSome || e.zones.isSome || e.priority.isSome
    some { e with pattern := p, zones := z, priority := pr, amiss := e.amiss || byName || !rest.isEmpty }
  | some .registration => do
    let (c, rest) ← takeField asSet rest
    let (g, rest) ← takeField asNum rest
    some { e with cohorts := c, grace := g, amiss := e.amiss || !rest.isEmpty }
  | some .absenceCut => do
    let (c, rest) ← takeField asSet rest
    some { e with cohorts := c, amiss := e.amiss || !rest.isEmpty }
  | some .noticeHold => do
    let (h, rest) ← takeField asNum rest
    some { e with hold := h, amiss := e.amiss || !rest.isEmpty }
  | some .noticeDeadline => some { e with amiss := e.amiss || !rest.isEmpty }
  | some .dayClose => some { e with amiss := e.amiss || !rest.isEmpty }
  | none => some e

/-- ENTRYPUT. A value of the wrong form, a name or a count of arguments that the word does not take is no ENTRYPUT at all
(BAD_VALUE, before the rule's own checks: R193); a field that is missing or not held by the kind is handed to the owner, whose
list gives that check its place after STORE_BUSY (R52). -/
def parseEntryPut (a : Args) : Option Instr :=
  if !a.onlyNames ["PATTERN", "ZONES", "PRIORITY", "COHORTS", "GRACE", "HOLD"] || 6 < a.pos.length then none
  else
    match a.pos with
    | [] => none
    | bank :: rest => do
      let bank ← asNum bank
      let (time, rest) ← takeField (Token.as formTime) rest
      let (kind, rest) ← takeField (asOne entryKindWords) rest
      let p ← a.opt "PATTERN" formNumber
      let z ← a.opt "ZONES" formSet
      let pr ← a.opt "PRIORITY" formNumber
      let c ← a.opt "COHORTS" formSet
      let g ← a.opt "GRACE" formNumber
      let h ← a.opt "HOLD" formNumber
      let notHeld := c.isSome || g.isSome || h.isSome
      let e ← entryFields kind.join rest ⟨bank, time.getD 0, kind.join, p, z, pr, none, none, none, time.isNone || notHeld⟩
      some (.entryPut e)

def parseEntryDrop : Args → Option Instr :=
  inPlace fun
    | [bank, position] => do
      let bank ← asNum bank
      let position ← asNum position
      some (.entryDrop bank position)
    | _ => none

def parseHeader : Args → Option Instr :=
  inPlace fun
    | [bank] => (asNum bank).map fun b => .header b none
    | [bank, name, select] => do
      let bank ← asNum bank
      let name ← name.text
      let select ← asOne selectWords select
      some (.header bank (some (name, select)))
    | _ => none

def parseBank (a : Args) : Option Instr :=
  if !a.onlyNames ["START"] then none
  else
    match a.pos with
    | [bank] => do
      let bank ← asNum bank
      let start ← a.opt "START" formNumber
      some (.bank bank (start.getD 0))
    | _ => none

/-! ### The bells -/

def parsePatternPut : Args → Option Instr :=
  inPlace fun
    | [p, steps] => do
      let p ← asNum p
      if isWord "NONE" steps then some (.patternPut p none)
      else
        let steps ← steps.as formSteps
        some (.patternPut p (some steps))
    | _ => none

def parseVolume : Args → Option Instr :=
  inPlace fun
    | [g] => (asOne groupWords g).map fun g => .volume g none
    | [g, v] => do
      let g ← asOne groupWords g
      let v ← asNum v
      some (.volume g (some v))
    | _ => none

def parseMute : Args → Option Instr :=
  inPlace fun
    | [] => some (.mute none)
    | [z, w] => do
      let z ← asSet z
      let w ← asOne onOffWords w
      some (.mute (some (z, w)))
    | _ => none

def parsePlay (a : Args) : Option Instr :=
  match a.pos with
  | [] => onlyOptional "FROM" formNumber (fun n => .play (.read (n.getD 0))) a
  | [p, z, pr] =>
    if !a.named.isEmpty then none
    else do
      let p ← asNum p
      let z ← asSet z
      let pr ← asNum pr
      some (.play (.request p z pr))
  | _ => none

def parseHush : Args → Option Instr :=
  inPlace fun
    | [t] =>
      if isWord "ALL" t then some (.hush .all)
      else some (.hush (((asNum t).map .channel).getD .other))
    | _ => none

/-! ### The entrance line, notices and the gateway -/

def parseAdmit : Args → Option Instr :=
  inPlace fun
    | [i, e] => do
      let i ← i.as formIdentity
      let e ← asNum e
      some (.admitTerminal i e)
    | _ => none

def parseClass : Args → Option Instr :=
  inPlace fun
    | [t] => (asOne selectWords t).map fun t => .classTable t none
    | [t, x, y, z] => do
      let t ← asOne selectWords t
      let x ← asNum x
      let y ← asNum y
      let z ← asNum z
      some (.classTable t (some (x, y, z)))
    | _ => none

def parseHold : Args → Option Instr :=
  inPlace fun
    | [] => some (.hold none)
    | [w] => (asOne onOffWords w).map fun w => .hold (some w)
    | _ => none

def parseText : Args → Option Instr :=
  inPlace fun
    | [slot] => (asNum slot).map fun n => .text n .read
    | [slot, t] => do
      let slot ← asNum slot
      if isWord "NONE" t then some (.text slot .empty)
      else
        let t ← t.text
        some (.text slot (.write t))
    | _ => none

def parsePost (a : Args) : Option Instr :=
  if !a.onlyNames ["POSITION", "DEADLINE"] then none
  else
    match a.pos with
    | [slot, cls, text] => do
      let slot ← asNum slot
      let cls ← asNum cls
      let text ← asNum text
      let position ← a.opt "POSITION" formNumber
      let deadline ← a.opt "DEADLINE" formTime
      some (.post ⟨slot, cls, text, position.getD 0, deadline⟩)
    | _ => none

def parseBroadcast (a : Args) : Option Instr :=
  if !a.onlyNames ["DEADLINE"] then none
  else
    match a.pos with
    | [mask, reach, cls, text] => do
      let mask ← asSet mask
      let reach ← asOne reachWords reach
      let cls ← asNum cls
      let text ← asNum text
      let deadline ← a.opt "DEADLINE" formTime
      some (.broadcast ⟨mask, reach, cls, text, deadline⟩)
    | _ => none

def parseNotices (a : Args) : Option Instr :=
  if !a.onlyNames ["KIND", "SLOT", "START"] || !a.pos.isEmpty then none
  else do
    let kind ← a.opt "KIND" (formOneOf noticeKindWords)
    let slot ← a.opt "SLOT" formNumber
    let start ← a.opt "START" formNumber
    some (.notices kind slot (start.getD 1))

def parseInbox : Args → Option Instr :=
  inPlace fun
    | [] => some (.inbox (.summary none))
    | [n] => (asNum n).map fun n => .inbox (.summary (some n))
    | [n, p] => do
      let n ← asNum n
      let p ← asNum p
      some (.inbox (.text n p))
    | _ => none

def parseDiscard : Args → Option Instr :=
  inPlace fun
    | [n] => if isWord "READ" n then some (.discard .read) else (asNum n).map fun n => .discard (.number n)
    | _ => none

/-! ### Attention and the store -/

def parseStatus : Args → Option Instr :=
  inPlace fun
    | [] => some (.status none)
    | [n] => (asNum n).map fun n => .status (some n)
    | _ => none

def parseAck : Args → Option Instr :=
  inPlace fun
    | [n] => (asNum n).map fun n => .ack n none
    | [n, c] => do
      let n ← asNum n
      let c ← asNum c
      some (.ack n (some c))
    | _ => none

def parseLevel : Args → Option Instr :=
  inPlace fun
    | [n] => (asNum n).map fun n => .level n none
    | [n, l, w] => do
      let n ← asNum n
      let l ← asNum l
      let w ← asOne onOffWords w
      some (.level n (some (l, w)))
    | _ => none

def parseFloor : Args → Option Instr :=
  inPlace fun
    | [] => some (.floor none)
    | [n] => (asNum n).map fun n => .floor (some n)
    | _ => none

/-- Area names, one to an argument or joined by commas. -/
def formAreaNames (t : Text) : Option (List (Option Area)) := (splitAll (chr ',') t).mapM (formOneOf areaWords)

/-- The areas of SAVE, LOAD and DEFAULTS. -/
def parseAreas (f : AreasArg → Instr) : Args → Option Instr :=
  inPlace fun l =>
    match l with
    | [w] => if isWord "ALL" w then some (f .all) else (w.as formAreaNames).map fun x => f (.list x)
    | _ => (l.mapM fun (t : Token) => t.as formAreaNames).map fun x => f (.list x.flatten)

/-- The settings held once, by name (R204). -/
def plainSettings : List (String × SettingRef) :=
  [("DAYOPEN", .dayOpen), ("WEEKMAP", .weekMap), ("MINUTEPULSE", .minutePulse), ("CATCHUP", .catchUp),
    ("WAITLIMIT", .waitLimit), ("LEAD", .lead), ("TAIL", .tail), ("BUTTONMODE", .buttonMode),
    ("BUTTONZONES", .buttonZones), ("BUTTONPRIO", .buttonPrio), ("BUTTONPATTERN", .buttonPattern),
    ("LATEPOLICY", .latePolicy), ("OVERRIDE", .override)]

/-- The settings held per zone. -/
def zoneSettings : List (String × (Nat → SettingRef)) := [("ZONEGROUP", .zoneGroup), ("RELAYPOL", .relayPol)]

/-- The settings held per group. -/
def groupSettings : List (String × (Option Group → SettingRef)) :=
  [("WAKEPOL", .wakePol), ("GROUPVOLUME", .groupVolume), ("CEILING", .ceiling)]

/-- The settings held per input. -/
def inputSettings : List (String × (Option QuietInput → SettingRef)) :=
  [("QUIETMASK", .quietMask), ("QUIETLEVEL", .quietLevel)]

/-- The entry of a list whose name is a text. -/
def named {α : Type} (l : List (String × α)) (t : Text) : Option α := (l.find? fun e => ascii e.1 == t).map (·.2)

/-- The setting that the first arguments of SET or GET name, with the arguments left. -/
def settingOf (t : Text) (rest : List Token) : SettingRef × List Token :=
  match named plainSettings t, named zoneSettings t, named groupSettings t, named inputSettings t with
  | some r, _, _, _ => (r, rest)
  | none, some f, _, _ => (f ((rest.head?.bind asNum).getD 0), rest.tail)
  | none, none, some f, _ => (f ((rest.head?.bind (asOne groupWords)).getD none), rest.tail)
  | none, none, none, some f => (f ((rest.head?.bind (asOne inputWords)).getD none), rest.tail)
  | none, none, none, none => (.unknown, rest)

/-- An entry of the weekday map. -/
def asWeekEntry (t : Token) : Option DayType := t.as formDayType

/-- The one argument that gives a value, in its form; `some none` for none given or for one outside the values. -/
def oneValue {α : Type} (form : Token → Option (Option α)) (f : α → SettingValue) : List Token → Option (Option SettingValue)
  | [] => some none
  | [t] => (form t).map (·.map f)
  | _ => none

/-- A form that leaves its range to the owner. -/
def ranged {α : Type} (form : Token → Option α) (t : Token) : Option (Option α) := (form t).map some

/-- The value SET gives, in the form of its setting: `none` for one of another form or for an argument too many, `some none` for
one missing or a word outside the values, which the owner's list places (R204). -/
def settingValue (r : SettingRef) (l : List Token) : Option (Option SettingValue) :=
  let polarity := asOne [("ACTIVE_HIGH", Polarity.activeHigh), ("ACTIVE_LOW", .activeLow)]
  match r with
  | .weekMap =>
    if 7 < l.length then none else if l.isEmpty then some none else (l.mapM asWeekEntry).map fun w => some (.week w)
  | .dayOpen => oneValue (ranged (Token.as formMinutes)) .time l
  | .minutePulse => oneValue (asOne onOffWords) .flag l
  | .override => oneValue (asOne yesNoWords) .flag l
  | .quietLevel _ => oneValue (asOne [("HIGH", true), ("LOW", false)]) .flag l
  | .zoneGroup _ => oneValue (asOne groupWords) .group l
  | .relayPol _ => oneValue polarity .polarity l
  | .wakePol _ => oneValue polarity .polarity l
  | .quietMask _ => oneValue (ranged asSet) .zones l
  | .buttonZones => oneValue (ranged asSet) .zones l
  | .buttonMode =>
    oneValue (asOne [("OFF", .off), ("FOLLOW", .follow), ("SINGLE", .single), ("GATE", .gate), ("RESYNC", .resync)]) .mode l
  | .latePolicy => oneValue (asOne [("NONE", .never), ("AFTER_CUT", .afterCut), ("ALL", .always)]) .policy l
  | _ => oneValue (ranged asNum) .num l

def parseSet (strap : Bool) : Args → Option Instr :=
  inPlace fun
    | .plain t :: rest => do
      let t ← formWord t
      let r := settingOf t rest
      if r.1 = .unknown then some (.setSetting .unknown none strap)
      else
        let v ← settingValue r.1 r.2
        some (.setSetting r.1 v strap)
    | _ => none

def parseGet (strap : Bool) : Args → Option Instr :=
  inPlace fun
    | .plain t :: rest => do
      let t ← formWord t
      let r := settingOf t rest
      if t == ascii "STORE" then
        if rest.isEmpty then some (.getSetting .store strap) else none
      else if r.1 = .unknown ∨ r.2.isEmpty then some (.getSetting (.setting r.1) strap)
      else none
    | _ => none

/-! ### The catalogue (R192) -/

/-- The words of the catalogue with the reading of their arguments. -/
def catalogue (strap : Bool) : List (String × (Args → Option Instr)) :=
  [("ENROL", parseEnrol), ("AMEND", parseAmend), ("WITHDRAW", oneNumber .withdraw), ("PUPIL", oneNumber .pupil),
    ("FIND", parseFind), ("MARKS", parseMarks), ("MARK", parseMark), ("CENSUS", parseCensus), ("AWAY", parseAway),
    ("UNAWAY", parseUnaway), ("AWAYS", parseAways), ("ARRIVE", parseArrive), ("CLOCK", parseClock),
    ("DATEPUT", parseDatePut), ("DATEDROP", parseDateDrop), ("DATES", onlyOptional "START" formDate .dates),
    ("OPEN", onlyOptional "BANK" formNumber .openDay), ("CLOSE", noArguments .closeDay),
    ("CLOSURE", oneNumber .closure), ("DAY", onlyOptional "FROM" formNumber fun n => .day (n.getD 0)),
    ("ENTRYPUT", parseEntryPut), ("ENTRYDROP", parseEntryDrop), ("BANKCLEAR", oneNumber .bankClear),
    ("HEADER", parseHeader), ("BANK", parseBank), ("ADOPT", oneNumber .adopt),
    ("TODAY", onlyOptional "START" formNumber fun n => .today (n.getD 0))] ++
  [("PATTERNPUT", parsePatternPut), ("PATTERN", oneNumber .pattern), ("VOLUME", parseVolume), ("MUTE", parseMute),
    ("PLAY", parsePlay), ("HUSH", parseHush), ("SEEKALL", noArguments .seekAll), ("ADMIT", parseAdmit),
    ("RETIRE", oneNumber .retire), ("TERMINALS", onlyOptional "FROM" formNumber fun n => .terminals (n.getD 0)),
    ("CLASS", parseClass), ("HOLD", parseHold), ("QUIET", oneNumber .quiet), ("CANCEL", oneNumber .cancel),
    ("TEXT", parseText), ("POST", parsePost), ("BROADCAST", parseBroadcast), ("NOTICES", parseNotices),
    ("INBOX", parseInbox), ("DISCARD", parseDiscard), ("STATUS", parseStatus), ("ACK", parseAck),
    ("LEVEL", parseLevel), ("FLOOR", parseFloor), ("SAVE", parseAreas .save), ("LOAD", parseAreas (.load · strap)),
    ("DEFAULTS", parseAreas (.defaults · strap)), ("SET", parseSet strap), ("GET", parseGet strap),
    ("RESTART", noArguments .restart)]

/-- What a request line spells. -/
inductive Parsed where
  | unknown
  | bad
  | request (i : Instr)
  deriving DecidableEq, Repr

/-- The command that a word and its arguments spell (R192, R209). -/
def parseRequest (strap : Bool) (word : Text) (args : List Token) : Parsed :=
  match named (catalogue strap) word with
  | none => .unknown
  | some f =>
    match (splitArgs args).bind f with
    | none => .bad
    | some i => .request i

end Sys2Proof.Machine
end

