-- ==== Sys2Proof/Machine/Office.lean ====
section
/-! DEFINITION. The Office Port: the receiver and its judgement of a line (R190), placing, service and output (R191, R192), the
short replies and the overrun (R191). -/

namespace Sys2Proof.Machine

/-! ### Service -/

/-- What the owner of a request does with it (R192, step 3); `none` for a command that is no request. -/
def requestEffect : Instr → Option (State → State × Reply)
  | .enrol a => some (enrol a)
  | .amend a => some (amend a)
  | .withdraw n => some (withdraw n)
  | .pupil n => some (pupil n)
  | .find q => some (findPupil q)
  | .marks a => some (marks a)
  | .mark a => some (mark a)
  | .census c n => some (census c n)
  | .away n f l r => some (away n f l r)
  | .unaway n f => some (unaway n f)
  | .aways n d => some (aways n d)
  | .arrive n t => some (arrive n t)
  | .clock => some clockRead
  | .setClock t d => some (setClock t d)
  | .datePut d t => some (datePut d t)
  | .dateDrop d => some (dateDrop d)
  | .dates d => some (dates d)
  | .openDay b => some (openDay b)
  | .closeDay => some closeDay
  | .closure n => some (closure n)
  | .day n => some (dayRead n)
  | .entryPut a => some (entryPut a)
  | .entryDrop b p => some (entryDrop b p)
  | .bankClear b => some (bankClear b)
  | .header b w => some (header b w)
  | .bank b n => some (bankRead b n)
  | .adopt b => some (adopt b)
  | .today n => some (todayRead n)
  | .patternPut p l => some (patternPut p l)
  | .pattern p => some (patternRead p)
  | .volume g v => some (volume g v)
  | .mute w => some (mute w)
  | .play a => some (play a)
  | .hush t => some (hush t)
  | .seekAll => some seekAll
  | .admitTerminal i e => some (admitRequest i e)
  | .retire n => some (retire n)
  | .terminals n => some (terminals n)
  | .classTable t w => some (classTable t w)
  | .hold v => some (hold v)
  | .quiet m => some (quiet m)
  | .cancel n => some (cancel n)
  | .text n a => some (text n a)
  | .post a => some (post a)
  | .broadcast a => some (broadcast a)
  | .notices k n m => some (notices k n m)
  | .inbox a => some (inbox a)
  | .discard a => some (discard a)
  | .status n => some (status n)
  | .ack n c => some (ack n c)
  | .level n w => some (level n w)
  | .floor v => some (floor v)
  | .save a => some (storeRequest .save a)
  | .load a strap => some fun s => storeRequest .load a (withStrap strap s)
  | .defaults a strap => some fun s => storeRequest .defaults a (withStrap strap s)
  | .setSetting r v strap => some fun s => setValue r v (withStrap strap s)
  | .getSetting t strap => some fun s => getSetting t (withStrap strap s)
  | .restart => some restart
  | _ => none

/-- The request a word and its arguments spell, taken by its owner (R192, steps 2 and 3). -/
def askOwner (strap : Bool) (word : Text) (args : List Token) (s : State) : State × Reply :=
  match parseRequest strap word args with
  | .unknown => refuse .unknown s
  | .bad => refuse .badValue s
  | .request i =>
    match requestEffect i with
    | none => refuse .unknown s
    | some f =>
      let r := f s
      ({ r.1 with office := { r.1.office with result := some r.2 } }, r.2)

/-- The tag of a reply to a line: its own where it may be trusted, else `??` (R192). -/
def replyTag (body : Text) : Text := (lineTag body).getD (ascii "??")

/-- A line's request and its reply (R192). -/
def answerLine (strap : Bool) (body : Text) (s : State) : State × Reply :=
  match lexLine body with
  | none => (s, .fault .form)
  | some (word, args) => askOwner strap word args s

/-- What the output sends next (R191): the oldest short reply, else the reply of the line being served. -/
def nextOutput (o : OfficePort) : Output :=
  if !o.short.isEmpty then .short else if o.served.isSome then .served else .free

/-- The output begins a reply if it is free (R191). -/
def startOutput (s : State) : State :=
  if s.office.output = .free then { s with office := { s.office with output := nextOutput s.office } } else s

/-- The output has sent its reply and turns to the next one (R191). -/
def turnOutput (s : State) : State := { s with office := { s.office with output := nextOutput s.office } }

/-- A line taken into service (R192): `body` is the line before its last `*`. -/
def serveLine (strap : Bool) (body : Text) (s : State) : State :=
  let r := answerLine strap body s
  { r.1 with office := { r.1.office with served := some ⟨replyTag body, r.2⟩ } }

/-- A short reply joins those that wait (R190, R191). -/
def addShort (tag : Text) (r : Reply) (s : State) : State :=
  startOutput { s with office := { s.office with short := s.office.short ++ [⟨tag, r⟩] } }

/-- A received line placed (R191). -/
def placeLine (strap : Bool) (body : Text) (s : State) : State :=
  if s.office.served.isNone then startOutput (serveLine strap body s)
  else if s.office.waiting.isNone then { s with office := { s.office with waiting := some body } }
  else addShort (replyTag body) (.refused .busy) s

/-! ### The receiver -/

/-- The line before its last `*`, where the line passes the check test (R190, R208). -/
def checkedBody (line : Text) : Option Text :=
  match splitLastStar line with
  | none => none
  | some (body, check) =>
    if check.length = 4 && check.all isHex && check == checkText (body ++ [chr '*']) then some body else none

/-- The receiver begins a new line. -/
def newLine (s : State) : State :=
  { s with office := { s.office with buffer := [], framing := false, overlong := false } }

/-- The characters collected, judged at their CR (R190). -/
def judgeLine (strap : Bool) (s : State) : State :=
  if s.office.overlong then addShort (ascii "??") (.fault .length) (newLine s)
  else if s.office.buffer.isEmpty then newLine s
  else if s.office.framing then addShort (ascii "??") (.fault .check) (newLine s)
  else
    match checkedBody s.office.buffer with
    | none => addShort (ascii "??") (.fault .check) (newLine s)
    | some body => placeLine strap body (newLine s)

/-- The receiver takes no character while four short replies wait (R191). -/
def receiverFull (s : State) : Bool := shortReplyLimit ≤ s.office.short.length

/-- A character dropped (R191). -/
def dropCharacter (s : State) : State := { s with office := { s.office with overrun := satInc s.office.overrun } }

/-- A CR arrives (R190, R191). -/
def takeCr (strap : Bool) (s : State) : State :=
  if receiverFull s then dropCharacter s
  else if s.office.resync then { newLine s with office := { (newLine s).office with resync := false } }
  else judgeLine strap s

/-- A character other than CR and LF collected (R190): the 250th makes the line over-long. -/
def collect (c : Byte) (framingError : Bool) (s : State) : State :=
  if s.office.overlong then s
  else if 249 ≤ s.office.buffer.length then
    { s with office := { s.office with buffer := [], framing := false, overlong := true } }
  else
    { s with
      office := { s.office with buffer := s.office.buffer ++ [c], framing := s.office.framing || framingError } }

/-- A character arrives (R190, R191; log 24). -/
def takeCharacter (c : Byte) (framingError : Bool) (s : State) : State :=
  if receiverFull s then dropCharacter s
  else if c = 0x0D#8 then
    takeCr s.pins.install { s with office := { s.office with framing := s.office.framing || framingError } }
  else if s.office.resync || c = 0x0A#8 then s
  else collect c framingError s

/-! ### The output -/

/-- The waiting line taken into service, if there is one (R191). -/
def serveWaiting (strap : Bool) (s : State) : State :=
  match s.office.waiting with
  | none => s
  | some body => serveLine strap body { s with office := { s.office with waiting := none } }

/-- The reply of the line being served has been sent (R191); of RESTART, the part is held (R206; log 35). -/
def replySent (strap : Bool) (s : State) : State :=
  if s.office.output = .served then
    let s1 := { s with office := { s.office with served := none } }
    if s.office.restart then holdPart s1 else turnOutput (serveWaiting strap s1)
  else if s.office.restart && s.office.served.isNone then holdPart s
  else s

/-- A short reply has been sent (R191): where four waited, the receiver resumes after the next CR. -/
def shortSent (s : State) : State :=
  if s.office.output = .short then
    let s1 := if receiverFull s then { newLine s with office := { (newLine s).office with resync := true } } else s
    turnOutput { s1 with office := { s1.office with short := s1.office.short.tail } }
  else s

/-! ### Meanings -/

/-- LINE_RECEIVED (R190–R192). -/
def execLineReceived (strap : Bool) (s : State) : Host.Outcome State Fault Refusal := event (takeCr strap) s

/-- REPLY_SENT (R191, R192, R206). -/
def execReplySent (strap : Bool) (s : State) : Host.Outcome State Fault Refusal := event (replySent strap) s

/-- OFFICE_CHARACTER_RECEIVED (R190, R191). -/
def execOfficeCharacterReceived (c : Byte) (framingError : Bool) (s : State) : Host.Outcome State Fault Refusal :=
  event (takeCharacter c framingError) s

/-- SHORT_REPLY_SENT (R191). -/
def execShortReplySent (s : State) : Host.Outcome State Fault Refusal := event shortSent s

end Sys2Proof.Machine
end

