-- ==== Sys2Proof/Machine/Dispatch.lean ====
section
/-! DEFINITION. The meaning of each command: one arm for each row of spec/opcode_table.json. -/

namespace Sys2Proof.Machine

def exec (i : Instr) (s : State) : Host.Outcome State Fault Refusal :=
  match i with
  | .lineReceived strap => Sys2Proof.Machine.execLineReceived strap s
  | .replySent strap => Sys2Proof.Machine.execReplySent strap s
  | .enrol a => Sys2Proof.Machine.execEnrol a s
  | .amend a => Sys2Proof.Machine.execAmend a s
  | .withdraw slot => Sys2Proof.Machine.execWithdraw slot s
  | .pupil slot => Sys2Proof.Machine.execPupil slot s
  | .find q => Sys2Proof.Machine.execFind q s
  | .marks a => Sys2Proof.Machine.execMarks a s
  | .mark a => Sys2Proof.Machine.execMark a s
  | .census cohort start => Sys2Proof.Machine.execCensus cohort start s
  | .away slot first last reason => Sys2Proof.Machine.execAway slot first last reason s
  | .unaway slot first => Sys2Proof.Machine.execUnaway slot first s
  | .aways slot start => Sys2Proof.Machine.execAways slot start s
  | .arrive slot time => Sys2Proof.Machine.execArrive slot time s
  | .clock => Sys2Proof.Machine.execClock s
  | .setClock time date => Sys2Proof.Machine.execSetClock time date s
  | .datePut date dayType => Sys2Proof.Machine.execDatePut date dayType s
  | .dateDrop date => Sys2Proof.Machine.execDateDrop date s
  | .dates start => Sys2Proof.Machine.execDates start s
  | .openDay bank => Sys2Proof.Machine.execOpenDay bank s
  | .closeDay => Sys2Proof.Machine.execCloseDay s
  | .closure textSlot => Sys2Proof.Machine.execClosure textSlot s
  | .day start => Sys2Proof.Machine.execDay start s
  | .entryPut a => Sys2Proof.Machine.execEntryPut a s
  | .entryDrop bank position => Sys2Proof.Machine.execEntryDrop bank position s
  | .bankClear bank => Sys2Proof.Machine.execBankClear bank s
  | .header bank write => Sys2Proof.Machine.execHeader bank write s
  | .bank bank start => Sys2Proof.Machine.execBank bank start s
  | .adopt bank => Sys2Proof.Machine.execAdopt bank s
  | .today start => Sys2Proof.Machine.execToday start s
  | .patternPut pattern steps => Sys2Proof.Machine.execPatternPut pattern steps s
  | .pattern pattern => Sys2Proof.Machine.execPattern pattern s
  | .volume group value => Sys2Proof.Machine.execVolume group value s
  | .mute write => Sys2Proof.Machine.execMute write s
  | .play a => Sys2Proof.Machine.execPlay a s
  | .hush t => Sys2Proof.Machine.execHush t s
  | .seekAll => Sys2Proof.Machine.execSeekAll s
  | .admitTerminal identity entrance => Sys2Proof.Machine.execAdmitTerminal identity entrance s
  | .retire entry => Sys2Proof.Machine.execRetire entry s
  | .terminals start => Sys2Proof.Machine.execTerminals start s
  | .classTable table write => Sys2Proof.Machine.execClassTable table write s
  | .hold value => Sys2Proof.Machine.execHold value s
  | .quiet minutes => Sys2Proof.Machine.execQuiet minutes s
  | .cancel number => Sys2Proof.Machine.execCancel number s
  | .text slot action => Sys2Proof.Machine.execText slot action s
  | .post a => Sys2Proof.Machine.execPost a s
  | .broadcast a => Sys2Proof.Machine.execBroadcast a s
  | .notices kind slot start => Sys2Proof.Machine.execNotices kind slot start s
  | .inbox a => Sys2Proof.Machine.execInbox a s
  | .discard a => Sys2Proof.Machine.execDiscard a s
  | .status source => Sys2Proof.Machine.execStatus source s
  | .ack source count => Sys2Proof.Machine.execAck source count s
  | .level source write => Sys2Proof.Machine.execLevel source write s
  | .floor value => Sys2Proof.Machine.execFloor value s
  | .save areas => Sys2Proof.Machine.execSave areas s
  | .load areas strap => Sys2Proof.Machine.execLoad areas strap s
  | .defaults areas strap => Sys2Proof.Machine.execDefaults areas strap s
  | .setSetting setting value strap => Sys2Proof.Machine.execSetSetting setting value strap s
  | .getSetting target strap => Sys2Proof.Machine.execGetSetting target strap s
  | .restart => Sys2Proof.Machine.execRestart s
  | .secondAdvance => Sys2Proof.Machine.execSecondAdvance s
  | .minutePulseEdge level => Sys2Proof.Machine.execMinutePulseEdge level s
  | .automaticOpening => Sys2Proof.Machine.execAutomaticOpening s
  | .openingSweepVisit => Sys2Proof.Machine.execOpeningSweepVisit s
  | .entryReached => Sys2Proof.Machine.execEntryReached s
  | .wakingEnd channel => Sys2Proof.Machine.execWakingEnd channel s
  | .stepEnd channel => Sys2Proof.Machine.execStepEnd channel s
  | .tailEnd channel => Sys2Proof.Machine.execTailEnd channel s
  | .waitExpiry place => Sys2Proof.Machine.execWaitExpiry place s
  | .quietInputChange input level => Sys2Proof.Machine.execQuietInputChange input level s
  | .bellButtonPress => Sys2Proof.Machine.execBellButtonPress s
  | .bellButtonRelease => Sys2Proof.Machine.execBellButtonRelease s
  | .alertNoAnswer => Sys2Proof.Machine.execAlertNoAnswer s
  | .missedAnswer => Sys2Proof.Machine.execMissedAnswer s
  | .seekStepResult z o => Sys2Proof.Machine.execSeekStepResult z o s
  | .readTapsHeader bytes => Sys2Proof.Machine.execReadTapsHeader bytes s
  | .tapBlock bytes => Sys2Proof.Machine.execTapBlock bytes s
  | .blockTimeout => Sys2Proof.Machine.execBlockTimeout s
  | .giveVerdictsConfirm bytes => Sys2Proof.Machine.execGiveVerdictsConfirm bytes s
  | .readStateReply bytes => Sys2Proof.Machine.execReadStateReply bytes s
  | .livenessDue => Sys2Proof.Machine.execLivenessDue s
  | .sweepVisit => Sys2Proof.Machine.execSweepVisit s
  | .frameDiscarded => Sys2Proof.Machine.execFrameDiscarded s
  | .frameGap => Sys2Proof.Machine.execFrameGap s
  | .receipt key answer => Sys2Proof.Machine.execReceipt key answer s
  | .outcome key delivered => Sys2Proof.Machine.execOutcome key delivered s
  | .takeTimeout key => Sys2Proof.Machine.execTakeTimeout key s
  | .outcomeLimit key => Sys2Proof.Machine.execOutcomeLimit key s
  | .busyPauseEnd => Sys2Proof.Machine.execBusyPauseEnd s
  | .nextPing => Sys2Proof.Machine.execNextPing s
  | .pong number => Sys2Proof.Machine.execPong number s
  | .reply r => Sys2Proof.Machine.execReply r s
  | .absentDeadlineExpiry number => Sys2Proof.Machine.execAbsentDeadlineExpiry number s
  | .generalDeadline number => Sys2Proof.Machine.execGeneralDeadline number s
  | .quietWindowEnd => Sys2Proof.Machine.execQuietWindowEnd s
  | .storeStepEnd agrees => Sys2Proof.Machine.execStoreStepEnd agrees s
  | .holdBegins => Sys2Proof.Machine.execHoldBegins s
  | .coldStart pins => Sys2Proof.Machine.execColdStart pins s
  | .warmStart pins => Sys2Proof.Machine.execWarmStart pins s
  | .officeCharacterReceived c framingError => Sys2Proof.Machine.execOfficeCharacterReceived c framingError s
  | .shortReplySent => Sys2Proof.Machine.execShortReplySent s
  | .gatewayByteReceived b => Sys2Proof.Machine.execGatewayByteReceived b s
  | .outboundFrameSent => Sys2Proof.Machine.execOutboundFrameSent s
  | .alertAnswered => Sys2Proof.Machine.execAlertAnswered s
  | .backupDomainLost => Sys2Proof.Machine.execBackupDomainLost s

end Sys2Proof.Machine
end

