-- ==== Sys2Proof/WellFormed.lean ====
section
/-! DEFINITION. The operands that can reach the block: what a line, a frame or an answer can spell (12_formats_and_pins.md), and
the channels, places and keys that exist. A request's values may lie outside their ranges; such a request is well formed, and
its owner refuses it (R193). -/

namespace Sys2Proof

/-- A Number of a line: at most ten digits (Formats and Pins). -/
def numberOk (n : Nat) : Bool := n < 10000000000

/-- A Time of a line, 86,400 for one that does not exist. -/
def timeOperandOk (t : SchoolTime) : Bool := t ≤ 86400

/-- A Date of a line, 36,525 for one that does not exist. -/
def dateOperandOk (d : Date) : Bool := d ≤ 36525

/-- A Set of a line: no member twice. -/
def setOk (l : List Nat) : Bool := l.Nodup && l.all numberOk

/-- A character of a quoted argument: 0x20 to 0x7E excluding the quote. -/
def quotedCharOk (b : Byte) : Bool := 0x20 ≤ b.toNat && b.toNat ≤ 0x7E && b.toNat ≠ 0x22

/-- The characters of a quoted argument, as many as a line can hold. -/
def quotedOk (t : Text) : Bool := t.length < 250 && t.all quotedCharOk

/-- An optional value. -/
def optOperandOk {α : Type} (ok : α → Bool) : Option α → Bool
  | none => true
  | some a => ok a

/-- Contacts of a line. -/
def contactsOperandOk (l : List Contact) : Bool := l.all fun c => numberOk c.id

/-- A step of a line. -/
def stepOperandOk : PatternStep → Bool
  | .tone p l v => numberOk p && numberOk l && numberOk v
  | .rest l => numberOk l
  | .strike w => numberOk w
  | .loop b c => numberOk b && numberOk c
  | .stop => true

/-- A day type of a line. -/
def dayTypeOperandOk : DayType → Bool
  | .school b => numberOk b
  | .closed => true

/-- A send key a record of good contents carries (R210). -/
def keyOk (k : SendKey) : Bool := 1 ≤ k.number && k.number ≤ 65535 && k.slot < 2048 && k.position ≤ 2

/-- The code of a REPLY of good contents (R210). -/
def replyCodeOk : ReplyCode → Bool
  | .ill d => 1 ≤ d && d ≤ 9
  | .appointment b => optOperandOk (fun t => decide (t < 86400)) b
  | .onWay => true
  | .text => true

/-- A REPLY of good contents (R210). -/
def parentReplyOk (r : ParentReply) : Bool :=
  1 ≤ r.contact && r.contact ≤ 65535 && optOperandOk (fun n => 1 ≤ n && decide (n ≤ 999999)) r.reference && replyCodeOk r.code &&
    r.text.length ≤ 320

/-- A value of SET. -/
def settingValueOk : SettingValue → Bool
  | .num n => numberOk n
  | .time t => timeOperandOk t
  | .zones l => setOk l
  | .week l => l.all dayTypeOperandOk
  | _ => true

/-- A setting's zone number. -/
def settingRefOk : SettingRef → Bool
  | .zoneGroup z => numberOk z
  | .relayPol z => numberOk z
  | _ => true

/-- The operands of a command can reach the block. -/
def Instr.wellFormed : Instr → Bool
  | .enrol a =>
    numberOk a.card && numberOk a.reference && numberOk a.cohort && numberOk a.form && contactsOperandOk a.contacts &&
      optOperandOk timeOperandOk a.permit && optOperandOk numberOk a.slot
  | .amend a =>
    numberOk a.slot && optOperandOk numberOk a.card && optOperandOk numberOk a.reference && optOperandOk numberOk a.cohort &&
      optOperandOk numberOk a.form && optOperandOk (optOperandOk timeOperandOk) a.permit && optOperandOk contactsOperandOk a.contacts
  | .withdraw n | .pupil n | .retire n | .quiet n | .cancel n | .closure n | .bankClear n | .adopt n | .pattern n
  | .terminals n | .day n | .today n => numberOk n
  | .find (.card n) => numberOk n
  | .find (.reference n) => numberOk n
  | .find (.contact n m) => numberOk n && numberOk m
  | .marks a => numberOk a.cohort && optOperandOk numberOk a.form && numberOk a.start
  | .mark a => numberOk a.slot && optOperandOk timeOperandOk a.back
  | .census c n => optOperandOk numberOk c && numberOk n
  | .away n f l _ => numberOk n && dateOperandOk f && dateOperandOk l
  | .unaway n f => numberOk n && dateOperandOk f
  | .aways n d => optOperandOk numberOk n && optOperandOk dateOperandOk d
  | .arrive n t => numberOk n && optOperandOk timeOperandOk t
  | .setClock t d => timeOperandOk t && optOperandOk dateOperandOk d
  | .datePut d t => dateOperandOk d && dayTypeOperandOk t
  | .dateDrop d => dateOperandOk d
  | .dates d => optOperandOk dateOperandOk d
  | .openDay b => optOperandOk numberOk b
  | .entryPut a =>
    numberOk a.bank && timeOperandOk a.time && optOperandOk numberOk a.pattern && optOperandOk setOk a.zones && optOperandOk numberOk a.priority &&
      optOperandOk setOk a.cohorts && optOperandOk numberOk a.grace && optOperandOk numberOk a.hold
  | .entryDrop b p => numberOk b && numberOk p
  | .header b w => numberOk b && optOperandOk (fun x => quotedOk x.1) w
  | .bank b n => numberOk b && numberOk n
  | .patternPut p l => numberOk p && optOperandOk (fun l => l.all stepOperandOk) l
  | .volume _ v => optOperandOk numberOk v
  | .mute w => optOperandOk (fun x => setOk x.1) w
  | .play (.request p z pr) => numberOk p && setOk z && numberOk pr
  | .play (.read n) => numberOk n
  | .hush (.channel n) => numberOk n
  | .admitTerminal _ e => numberOk e
  | .classTable _ w => optOperandOk (fun x => numberOk x.1 && numberOk x.2.1 && numberOk x.2.2) w
  | .text n a =>
    numberOk n &&
      match a with
      | .write t => quotedOk t
      | _ => true
  | .post a => numberOk a.slot && numberOk a.cls && numberOk a.textSlot && numberOk a.position && optOperandOk timeOperandOk a.deadline
  | .broadcast a => setOk a.cohorts && numberOk a.cls && numberOk a.textSlot && optOperandOk timeOperandOk a.deadline
  | .notices _ n m => optOperandOk numberOk n && numberOk m
  | .inbox (.summary n) => optOperandOk numberOk n
  | .inbox (.text n p) => numberOk n && numberOk p
  | .discard (.number n) => numberOk n
  | .status n => optOperandOk numberOk n
  | .ack n c => numberOk n && optOperandOk numberOk c
  | .level n w => numberOk n && optOperandOk (fun x => numberOk x.1) w
  | .floor v => optOperandOk numberOk v
  | .setSetting r v _ => settingRefOk r && optOperandOk settingValueOk v
  | .getSetting (.setting r) _ => settingRefOk r
  | .wakingEnd n | .stepEnd n | .tailEnd n => n < 4
  | .waitExpiry n => 1 ≤ n && n ≤ 8
  | .readTapsHeader b => b.length = 3
  | .tapBlock b => b.length ≤ 30
  | .giveVerdictsConfirm b => b.length = 3
  | .readStateReply b => b.length = 4
  | .receipt k _ | .outcome k _ | .takeTimeout k | .outcomeLimit k => keyOk k
  | .pong n => n < 256
  | .reply r => parentReplyOk r
  | .absentDeadlineExpiry n | .generalDeadline n => 1 ≤ n && n ≤ 65535
  | _ => true

end Sys2Proof
end

