-- ==== Sys2Proof/Safety.lean ====
section
/-! DEFINITION. What the block's state always satisfies, block by block; what an operation leaves, in the words of its rule; the checks of
each request in their order (R193); how a request line is written (R190, R192, R209); and what it is for the block to stop. The
relations are the model's reading of the sizes and relations the rules name; obligations say that every step keeps them. -/

namespace Sys2Proof.Machine

/-- The block stops: the next step gives no next state. -/
def Stops (s : State) : Prop := ∀ t, step s ≠ .next t

/-- The Roll Unit's relations: the Roster Table in canonical form within its 2,048 slots, every cohort 0–7, and each census
count equal to a count of the ENROLLED pupils (R1, R2, R18). -/
def RollOk (s : State) : Prop :=
  tableWf slotCount s.roll.roster ∧ (∀ e ∈ s.roll.roster, e.2.enrolment.cohort < 8) ∧ s.roll.census = censusOf s.roll.roster

/-- Enrolments as the ROSTER area keeps them: slots strictly rising below 2,048, every cohort 0–7 (R1, R2). -/
def RosterCopyOk (l : List (Slot × Enrolment)) : Prop := tableWf slotCount l ∧ ∀ e ∈ l, e.2.cohort < 8

/-- No two enrolments of a roster hold one card key or one pupil reference (R2). -/
def KeysDistinct (l : List (Slot × Enrolment)) : Prop :=
  ∀ e ∈ l, ∀ f ∈ l, e.2.card = f.2.card ∨ e.2.reference = f.2.reference → e.1 = f.1

/-- The Roster Table, the stored copy of ROSTER and the snapshot a SAVE of it took each hold a card key and a pupil reference once (R2). -/
def KeysOk (s : State) : Prop :=
  KeysDistinct (s.roll.roster.map fun e => (e.1, e.2.enrolment)) ∧ (∀ l, s.store.stored.roster = some l → KeysDistinct l) ∧
    ∀ o l, s.store.operation = some o → o.snapshot.roster = some l → KeysDistinct l

/-- The stored copy of ROSTER, and the snapshot a SAVE of it took, are such enrolments (R200, R202). -/
def CopiesOk (s : State) : Prop :=
  (∀ l, s.store.stored.roster = some l → RosterCopyOk l) ∧
    ∀ o l, s.store.operation = some o → o.snapshot.roster = some l → RosterCopyOk l

/-- The Attention Unit's relations: fourteen sources, counts of 0–255, a flag set exactly while its count is above 0 (R194). -/
def AttentionOk (s : State) : Prop :=
  s.attention.length = 14 ∧ ∀ x ∈ s.attention, x.count ≤ 255 ∧ (x.flag = true ↔ 0 < x.count)

/-- The Office Port's relations: at most four short replies, a line waits only behind one being served (until a
RESTART holds the part), at most 249 characters collected, the overrun count saturated (R190, R191). -/
def OfficeOk (s : State) : Prop :=
  s.office.short.length ≤ shortReplyLimit ∧ (s.power.held = false → s.office.waiting.isSome = true → s.office.served.isSome = true) ∧
    s.office.buffer.length ≤ 249 ∧ s.office.overrun ≤ 65535

/-- Zones are owned as R79 says: by at most one channel, by no IDLE or TAILING channel, and, where the owner's priority is below
12, only while the zone is neither quiet nor muted. -/
def ZonesOwned (s : State) : Prop :=
  s.chime.channels.length = 4 ∧
    (∀ m n z, z ∈ (channelAt m s).zones → z ∈ (channelAt n s).zones → m = n) ∧
    (∀ n, (channelAt n s).state = .idle ∨ (channelAt n s).state = .tailing → (channelAt n s).zones = []) ∧
    ∀ n z p, z ∈ (channelAt n s).zones → (channelAt n s).priority = some p → p < 12 →
      zoneQuiet z s = false ∧ zoneMuted z s = false

/-- The addressee that a notice of a kind has (R153): CLOSURE is always a broadcast, ABSENT, LATE and ARRIVED always a pupil. -/
def Addresses : NoticeKind → Addressee → Prop
  | .absent, .broadcast _ | .late, .broadcast _ | .arrived, .broadcast _ | .closure, .pupil _ _ => False
  | _, _ => True

/-- R6, with what it stands on. A pupil holds ABSENT_PENDING exactly while the Notice Queue holds an ABSENT notice addressed to it without
cancel-on-result, and never two such; every notice has the addressee of its kind (R153), only an IN_WINDOW pupil notice carries
cancel-on-result (R168), no held mark is ABSENT_PENDING (R16), ABSENT_PENDING and a sweep that is not IDLE stand on an OPEN day alone
(R41, R147), and a LOAD of ROSTER, PLANS or AWAY on a CLOSED one (R201). -/
def PendingOk (s : State) : Prop :=
  (∀ slot, s.notices.queue.countP (·.isAbsentOf slot) = if markAt slot s = some .absentPending then 1 else 0) ∧
    (∀ n ∈ s.notices.queue, Addresses n.kind n.addressee) ∧
    (∀ n ∈ s.notices.queue, ∀ slot i, n.addressee = .pupil slot i → n.cancel = true → n.inWindow = true) ∧
    (∀ slot p, pupilAt slot s = some p → p.day.heldMark ≠ some .absentPending) ∧
    (∀ slot, markAt slot s = some .absentPending → s.day.state = .open_) ∧
    (s.sweep.state ≠ .idle → s.day.state = .open_) ∧ (rollLoadUnderWay s = true → s.day.state = .closed)

/-- A pupil notice, not a broadcast (R153). -/
def Notice.isPupil (n : Notice) : Bool :=
  match n.addressee with
  | .pupil _ _ => true
  | .broadcast _ => false

/-- A send of the Send Window is a notice's (R153, R161): it carries the notice's number, and where a pupil is addressed, the notice is
IN_WINDOW and the send goes to its slot and contact position. -/
def Notice.Sends (n : Notice) (x : Send) : Prop :=
  n.number = x.key.number ∧
    ∀ slot i, n.addressee = .pupil slot i → n.inWindow = true ∧ x.key.slot = slot ∧ x.key.position = i

/-- The Notice Queue's relations: at most 128 notices, at most 120 of them ABSENT, no two of one number (R153, R154); at most four sends in
the Send Window, each that of a notice of the queue (R153, R161, R168), and at most one for a pupil notice (R153); and no broadcast with
more than four steps returned or in the window (R170). -/
def QueueOk (s : State) : Prop :=
  s.notices.queue.length ≤ 128 ∧ s.notices.queue.countP (·.kind = .absent) ≤ 120 ∧ (s.notices.queue.map (·.number)).Nodup ∧
    s.notices.window.length ≤ 4 ∧ (∀ x ∈ s.notices.window, ∃ n ∈ s.notices.queue, n.Sends x) ∧
    (∀ n ∈ s.notices.queue, n.isPupil = true → s.notices.window.countP (·.key.number = n.number) ≤ 1) ∧
    ∀ n ∈ s.notices.queue, ∀ b, n.addressee = .broadcast b →
      b.returned.length + s.notices.window.countP (·.key.number = n.number) ≤ 4

/-! ### Numbers -/

/-- The number a running counter issues next (R154, R188): the counter steps by one, from 65,535 to 1, and passes over the numbers
in use; the first free one is issued. -/
def NumberIssued (counter : Nat) (used : List Nat) (n : Nat) : Prop :=
  ∃ k, n = (counter + k) % 65535 + 1 ∧ n ∉ used ∧ ∀ j < k, (counter + j) % 65535 + 1 ∈ used

/-- A number in `k` bytes, low byte first (12_formats_and_pins.md). -/
def lowFirst (k n : Nat) : Text := (List.range k).map fun i => BitVec.ofNat 8 (n / 256 ^ i)

/-- Bytes followed by their 16-bit check, low byte first (R208). -/
def checkedBytes (t : Text) : Text := t ++ lowFirst 2 (check16 t).toNat

/-! ### Bells -/

/-- The time a step takes, in units of 10 ms; none for LOOP and END (R73). -/
def stepTime : PatternStep → Option Nat
  | .tone _ l _ => some l
  | .rest l => some l
  | .strike w => some w
  | .loop _ _ => none
  | .stop => none

/-- The zones a request takes (R78, R92): those of its mask that are neither quiet nor muted, in the override band its whole mask. -/
def zonesTaken (r : ChimeRequest) (s : State) : List Nat :=
  r.mask.filter fun z => 12 ≤ r.priority || !(zoneQuiet z s || zoneMuted z s)

/-- A channel owns a zone that the request takes (R80). -/
def conflicts (r : ChimeRequest) (s : State) (n : Nat) : Bool := (channelAt n s).zones.any (zonesTaken r s).contains

/-- A channel's priority for the choice of a channel; a TAILING one counts as 0 (R80). -/
def rank (s : State) (n : Nat) : Nat := if (channelAt n s).state = .tailing then 0 else (channelAt n s).priority.getD 0

/-- A request can start, on channel `k` (R80): every conflicting channel is of lower priority, and `k` is the lowest-numbered IDLE
channel; without one, the channel of lowest priority, below the request's, among the conflicting ones, or among all where none
conflicts, ties to the lowest-numbered. -/
abbrev GivenChannel (r : ChimeRequest) (s : State) (k : Nat) : Prop :=
  let clash := (List.range 4).filter (conflicts r s)
  let choice := if clash = [] then List.range 4 else clash
  k < 4 ∧ (∀ n ∈ clash, rank s n < r.priority) ∧
    if (List.range 4).any fun n => (channelAt n s).state = .idle then
      (channelAt k s).state = .idle ∧ ∀ n < k, (channelAt n s).state ≠ .idle
    else k ∈ choice ∧ rank s k < r.priority ∧ ∀ n ∈ choice, rank s k < rank s n ∨ rank s k = rank s n ∧ k ≤ n

/-- The channels that a request's start on channel `k` stops (R80): the conflicting ones, and `k` if it holds a request. -/
def stoppedFor (r : ChimeRequest) (k : Nat) (s : State) : List Nat :=
  (List.range 4).filter fun n =>
    conflicts r s n || (n = k && ((channelAt n s).state = .waking || (channelAt n s).state = .playing))

/-- The requests of some channels reported PREEMPTED (R81), in this order (log 40). -/
def stopsTold (l : List Nat) (s : State) : State :=
  l.foldl
    (fun v n =>
      match (channelAt n s).origin, (channelAt n s).pattern with
      | some origin, some p => report origin p .preempted v
      | _, _ => v)
    s

/-- What a request leaves that starts on channel `k` (R76, R80, R81). Each stopped request is reported PREEMPTED, and its channel,
unless it is `k`, tails; the request is reported PLAYING. Channel `k` wakes with the request's zones and, if its pattern holds a
TONE, their audio groups; a group held is awake, from now on if none held it (R87). Where each group has been awake for the lead
time, it plays step 0 at once, the held strike until its release (R94), and a pattern that begins with END ends (R77). -/
def Started (r : ChimeRequest) (k : Nat) (s u : State) : Prop :=
  let zones := zonesTaken r s
  let steps := stepsOf r.pattern s
  let groups :=
    if steps.any isToneStep then
      [Group.a, .b].filter fun g => zones.any fun z => groupOfZone s.settings.zoneGroup z = g
    else []
  let waking : ToneChannel :=
    { ToneChannel.idle with
      state := .waking, pattern := some r.pattern, steps := steps, priority := some r.priority, origin := some r.origin,
      late := r.late, zones := zones, groups := groups, zoneGroups := s.settings.zoneGroup, gate := r.gate }
  let ready := groups.all fun g => (awakeOf g u).any fun t => t + s.settings.lead * 100 ≤ s.time.running
  let playing := fun e : StepEnd => { waking with state := .playing, step := some 0, stepEnd := some e, passTimed := e ≠ .atRelease }
  let told := report r.origin r.pattern .playing (stopsTold (stoppedFor r k s) s)
  let ended := report r.origin r.pattern (if r.late then .playedLate else .played) told
  let reported := if ready = true ∧ r.pattern ≠ .heldStrike ∧ steps.head? = some .stop then ended else told
  u =
    { reported with
      chime := { reported.chime with channels := u.chime.channels }
      zone := { s.zone with awake := u.zone.awake } } ∧
  u.chime.channels.length = 4 ∧
  (∀ n < 4, n ≠ k → channelAt n u = if n ∈ stoppedFor r k s then (channelAt n s).tailing s else channelAt n s) ∧
  channelAt k u =
    (if ready = false then waking
    else if r.pattern = .heldStrike then playing .atRelease
    else
      match steps.head?.bind stepTime with
      | some d => playing (.timed (s.time.running + d))
      | none => { waking with state := .tailing, zones := [], tailEnd := some (s.time.running + s.settings.tail * 100) }) ∧
  ∀ g, awakeOf g u = if u.chime.channels.any (·.holds g) then some ((awakeOf g s).getD s.time.running) else none

/-- An examination of entries of the Bell Wait List, head first (R83), from one state to another: those kept, in their order, and
whether it released zones. -/
inductive Examined : List WaitEntry → State → List WaitEntry → State → Bool → Prop
  /-- No entry is left to take. -/
  | over (s : State) : Examined [] s [] s false
  /-- An entry whose pattern is empty leaves, DROPPED. -/
  | drops {e : WaitEntry} {l kept : List WaitEntry} {s t : State} {again : Bool} :
      stepsOf e.request.pattern s = [] →
      Examined l (report e.request.origin e.request.pattern .dropped s) kept t again → Examined (e :: l) s kept t again
  /-- An entry without effective zones, or one that cannot start, stays. -/
  | stays {e : WaitEntry} {l kept : List WaitEntry} {s t : State} {again : Bool} :
      stepsOf e.request.pattern s ≠ [] → (zonesTaken e.request s = [] ∨ ∀ k, ¬GivenChannel e.request s k) →
      Examined l s kept t again → Examined (e :: l) s (e :: kept) t again
  /-- An entry that can start leaves, its zones taken before the next is tried. -/
  | starts {e : WaitEntry} {l kept : List WaitEntry} {s u t : State} {again : Bool} {k : Nat} :
      stepsOf e.request.pattern s ≠ [] → zonesTaken e.request s ≠ [] → GivenChannel e.request s k →
      Started e.request k s u → Examined l u kept t again →
      Examined (e :: l) s kept t (stoppedFor e.request k s ≠ [] || (channelAt k u).zones.isEmpty || again)

/-- The Bell Wait List is examined (R83), and examined again for the zones that the examination itself released. -/
inductive Examination : State → State → Prop
  /-- The examination released no zone. -/
  | once {s u : State} {kept : List WaitEntry} :
      Examined s.chime.waits s kept u false → Examination s { u with chime := { u.chime with waits := kept } }
  /-- It released a zone. -/
  | again {s u t : State} {kept : List WaitEntry} :
      Examined s.chime.waits s kept u true → Examination { u with chime := { u.chime with waits := kept } } t → Examination s t

/-- The zones a channel owns that are neither quiet nor muted (R90). -/
def zonesKept (n : Nat) (s : State) : List Nat := (channelAt n s).zones.filter fun z => !(zoneQuiet z s || zoneMuted z s)

/-- A WAKING or PLAYING channel of priority below 12 owns a zone that is quiet or muted, and loses it (R90). -/
def losesZones (n : Nat) (s : State) : Bool :=
  let c := channelAt n s
  (c.state = .waking || c.state = .playing) && c.priority.getD 0 < 12 && zonesKept n s ≠ c.zones

/-- Quiet and muted zones taken from ordinary channels, from a state `s` in which they are quiet or muted already (R90). A channel that
loses zones keeps the others, with the audio groups that one of them is in, by the zone groups of its start; a WAKING one whose groups
left have been awake for the lead time plays step 0, as at a start (R76). One with no zone left is stopped with CUT_SHORT and tails (R81).
The reports come in order of channel number (log 40). -/
def ZonesTaken (s u : State) : Prop :=
  let lost := fun n => { channelAt n s with
    zones := zonesKept n s
    groups := (channelAt n s).groups.filter fun g => (zonesKept n s).any fun z => groupOfZone (channelAt n s).zoneGroups z = g }
  let ready := fun n =>
    (channelAt n s).state = .waking &&
      (lost n).groups.all fun g => (awakeOf g u).any fun t => t + s.settings.lead * 100 ≤ s.time.running
  let first := fun n => if (channelAt n s).pattern = some .heldStrike then none else (channelAt n s).steps.head?.bind stepTime
  let ended : Nat → Option ChimeOutcome := fun n =>
    if zonesKept n s = [] then some .cutShort
    else if ready n = true ∧ (channelAt n s).pattern ≠ some .heldStrike ∧ first n = none then
      some (if (channelAt n s).late then .playedLate else .played)
    else none
  let told := ((List.range 4).filter (losesZones · s)).foldl
    (fun v n =>
      match ended n, (channelAt n s).origin, (channelAt n s).pattern with
      | some o, some origin, some p => report origin p o v
      | _, _, _ => v)
    s
  u =
    { told with
      chime := { told.chime with channels := u.chime.channels }
      zone := { s.zone with awake := u.zone.awake } } ∧
  u.chime.channels.length = 4 ∧
  (∀ n < 4,
    channelAt n u =
      (if losesZones n s = false then channelAt n s
      else if (ended n).isSome = true then (lost n).tailing s
      else if ready n = true then
        { lost n with
          state := .playing, step := some 0
          stepEnd := some (((first n).map fun d => .timed (s.time.running + d)).getD .atRelease)
          passTimed := (lost n).passTimed || (first n).isSome }
      else lost n)) ∧
  ∀ g, awakeOf g u =
    (if ((List.range 4).any (losesZones · s)) = false then awakeOf g s
    else if u.chime.channels.any (·.holds g) then some ((awakeOf g s).getD s.time.running)
    else none)

/-- Four channels, of which a WAKING one has yet to play a pattern that begins, as every pattern of R74 does, with no LOOP. -/
def ChannelsReady (s : State) : Prop :=
  s.chime.channels.length = 4 ∧
    ∀ c ∈ s.chime.channels, c.state = .waking →
      c.passTimed = false ∧ ∀ first, c.steps.head? = some first → isLoopStep first = false

/-- What a change of the quiet set or of the mutes, from `old` to `s`, leaves (R83, R89–R91): quiet and muted zones are taken from
ordinary channels, and the Bell Wait List is examined where a zone was taken, or is quiet or muted no more. -/
def Silenced (old s u : State) : Prop :=
  ∃ w, ZonesTaken s w ∧
    u =
      if (List.range 4).any (losesZones · s) ||
          (List.range' 1 6).any fun z => (zoneQuiet z old && !zoneQuiet z s) || (zoneMuted z old && !zoneMuted z s) then
        examine w
      else w

/-- What a release, or a SET of the button mode that acts as one, leaves of the request the latest press made (R83, R93–R95). A waiting
held strike or GATE request leaves the Bell Wait List DROPPED. A held strike on a channel ends, its channel releasing its zones and tailing,
with the examination that follows (R77); a GATE request on a channel has its ending marked; any other request goes on. -/
def Released (s t : State) : Prop :=
  let mine := fun e : WaitEntry =>
    decide (e.request.origin = .button s.zone.press ∧ (e.request.pattern = .heldStrike ∨ e.request.gate = true))
  let told :=
    (s.chime.waits.filter mine).foldl (fun v e => report e.request.origin e.request.pattern .dropped v)
      { s with chime := { s.chime with waits := s.chime.waits.filter (!mine ·) } }
  let held := fun n =>
    (channelAt n s).origin = some (.button s.zone.press) ∧ ((channelAt n s).state = .waking ∨ (channelAt n s).state = .playing)
  let withChannel := fun (n : Nat) (c : ToneChannel) =>
    { told with chime := { told.chime with channels := s.chime.channels.set n c } }
  ((∀ n < 4, held n → (channelAt n s).pattern ≠ some .heldStrike ∧ (channelAt n s).gate = false) → t = told) ∧
  ∀ n < 4, held n → (∀ m < 4, m ≠ n → ¬held m) →
    ((channelAt n s).pattern = some .heldStrike →
      ∃ v, t = examine v ∧
        (let ended := withChannel n ((channelAt n s).tailing s)
        let outcome : ChimeOutcome := if (channelAt n s).late then .playedLate else .played
        v =
          { ended with
            chime := { ended.chime with lastButton := some ⟨.heldStrike, outcome⟩ }
            zone := { s.zone with awake := v.zone.awake } }) ∧
        ∀ g, awakeOf g v =
          if v.chime.channels.any (·.holds g) then some ((awakeOf g s).getD s.time.running) else none) ∧
    ((channelAt n s).pattern ≠ some .heldStrike → (channelAt n s).gate = true →
      t = withChannel n { channelAt n s with gateEnding := true })

/-! ### Plan entries -/

/-- What the entry `e` at an index of Today's Plan leaves where it is taken (R58–R60, R66): it is DONE, or MISSED where its lateness is
above the catch-up window, taken now. Its chime part, but for a MISSED entry, is first requested under the plan's copy number and the
index, with its zones and priority, a priority of the override band as 11 without permission, the late flag set where the lateness is
above 0; then the roll part is applied. -/
def entryTaken (i : Nat) (e : PlanEntry) (s : State) : State :=
  let lateness := s.time.school - e.entry.time
  let missed := s.settings.catchUp < lateness
  let noted :=
    { s with
      plan :=
        { s.plan with
          today :=
            { s.plan.today with
              entries :=
                s.plan.today.entries.set i
                  { e with firing := if missed then .missed else .done, taken := some s.time.school } } } }
  applyRoll e.entry
    (match e.entry.chime with
    | none => noted
    | some c =>
      if missed then noted
      else
        let priority := if 12 ≤ c.priority ∧ s.limits.override = false then 11 else c.priority
        (decideRequest
          ⟨.table c.pattern, c.zones, priority, .plan s.plan.today.copyNumber i, decide (0 < lateness), false⟩ noted).1)

/-- An entry of Today's Plan is to be taken (R58, R60): the day is OPEN, the entry AHEAD, and its time one of those picked. -/
def EntryDue (pick : SchoolTime → Prop) (s : State) (i : Nat) (e : PlanEntry) : Prop :=
  s.day.state = .open_ ∧ s.plan.today.entries[i]? = some e ∧ e.firing = .ahead ∧ pick e.entry.time

/-- Today's Plan gone through at some indexes, in their order, from one state to another (R58, R60): each entry that is to be taken when
its turn comes is taken, with all its effects, before the next. -/
inductive PlanRun (pick : SchoolTime → Prop) : List Nat → State → State → Prop
  /-- No index is left. -/
  | over (s : State) : PlanRun pick [] s s
  /-- The entry at the index is taken. -/
  | takes {i : Nat} {l : List Nat} {e : PlanEntry} {s t : State} :
      EntryDue pick s i e → PlanRun pick l (entryTaken i e s) t → PlanRun pick (i :: l) s t
  /-- The entry at the index is not to be taken. -/
  | passes {i : Nat} {l : List Nat} {s t : State} :
      (∀ e, ¬EntryDue pick s i e) → PlanRun pick l s t → PlanRun pick (i :: l) s t

/-! ### The entrance line -/

/-- The running time at which a terminal's liveness check falls due (R118): 10 s after it was last heard and after its last attempt. -/
def checkFallsAt (t : Terminal) : RunTime := max (t.lastHeard + 1000) ((t.lastLiveness.map (· + 1000)).getD 0)

/-- A liveness check is due for an entry (R118): its terminal is ACTIVE or SILENT, was last heard at least 10 s before the present
running time, and had no liveness attempt, or none later than 10 s before it. -/
def LivenessDue (s : State) (n : Nat) : Prop :=
  ∃ t, terminalAt n s = some t ∧ (t.state = .active ∨ t.state = .silent) ∧ t.lastHeard + 1000 ≤ s.time.running ∧
    ∀ a, t.lastLiveness = some a → a + 1000 ≤ s.time.running

/-- A job begun: its first transaction begins with ALERT, and its answer is to be recorded (R103, R111). -/
def jobBegun (job : Job) (t : Transaction) (s : State) : State :=
  { s with line := { s.line with job := job, phase := .alert t, orphan := false, leftEntrance := none } }

/-- The job a free line takes next (R111): a pending enumeration, which is pending no more (R119); else a display-clock broadcast that
is due, with a valid clock (R110; log 27); else the liveness check of the due entry with the lowest number, its attempt recorded now
(R118); else a poll round, a walk of SEEK WAITING with condition EITHER, unless the day is OPENING (R112); else none. -/
def JobChosen (s u : State) : Prop :=
  (s.line.enumerationPending = true →
    u = jobBegun (.enumeration ⟨none, [], [], [], 0⟩) .seek { s with line := { s.line with enumerationPending := false } }) ∧
  (s.line.enumerationPending = false →
    (s.line.clockDue = true ∧ s.time.valid = true → u = jobBegun .broadcast .displayClock s) ∧
    (s.line.clockDue = false ∨ s.time.valid = false →
      (∀ n t, n < 8 → LivenessDue s n → (∀ m < n, ¬LivenessDue s m) → terminalAt n s = some t →
        u =
          jobBegun (.liveness n t.identity) (.readState false)
            { s with
              line := { s.line with table := s.line.table.set n (some { t with lastLiveness := some s.time.running }) } }) ∧
      ((∀ n < 8, ¬LivenessDue s n) →
        u =
          if s.day.state = .opening then s
          else jobBegun (.pollWalk ⟨some .either, [], [], [], 0⟩) .seek s)))

/-- What the 2610 sends in a transaction of the job under way, from the selection byte through the function's last byte (R104, R211):
`PICK` of the terminal in hand with the function, `ALL` with SET DISPLAY CLOCK, or SEEK of the walk's prefix, in ⌈k/8⌉ bytes with bit
i of the prefix as bit i and bits from k onward 0. A school time goes low byte first (log 44). -/
def SendsOnLine (t : Transaction) (s : State) (bytes : Text) : Prop :=
  let pick := fun i : Identity => (1 : Byte) :: (List.range 7).map fun k => (i >>> (8 * k)).setWidth 8
  let bit := fun b : Bool => if b then (1 : Byte) else 0
  match s.line.job, t with
  | .broadcast, .displayClock =>
    let day := yearMonthDay s.time.date
    bytes =
      [2, 0x13] ++ lowFirst 3 s.time.school ++
        [BitVec.ofNat 8 (day.1 - 2000), BitVec.ofNat 8 day.2.1, BitVec.ofNat 8 day.2.2]
  | .liveness _ i, .readState false => bytes = pick i ++ [0x12, 0]
  | .pollServe p, .readTaps => bytes = pick p.identity ++ [0x10]
  | .pollServe p, .readState clear => bytes = pick p.identity ++ [0x12, bit clear]
  | .pollServe p, .giveVerdicts =>
    ∀ x, terminalAt p.entry s = some x → s.line.leftEntrance = none →
      bytes =
        pick p.identity ++ [0x11, BitVec.ofNat 8 p.verdicts.length, BitVec.ofNat 8 x.entrance, bit s.day.closureFlag] ++
          p.verdicts.flatMap fun v =>
            [BitVec.ofNat 8 v.1,
              match v.2 with
              | .onTime => 1
              | .lateGoToClass => 2
              | .lateReportOffice => 3
              | .alreadyIn => 4
              | .welcomeBack => 5
              | .seeOffice => 6
              | .unknownCard => 7
              | .dayClosed => 8]
  | .enumeration w, .seek | .pollWalk w, .seek =>
    w.path.length < 56 →
      ∃ prefix_ : Text,
        bytes =
          (match w.condition with
            | none => [3]
            | some .taps => [4, 1]
            | some .fault => [4, 2]
            | some .either => [4, 3]) ++ BitVec.ofNat 8 w.path.length :: prefix_ ∧
        prefix_.length = (w.path.length + 7) / 8 ∧
        ∀ i < 8 * prefix_.length, (prefix_.getD (i / 8) 0).getLsbD (i % 8) = w.path.getD i false
  | _, _ => True

/-- The taps of a good block of `n` taps, oldest first (R113, R211): its check is good, and no card key is 0 or FFFFFFFF and no age
above 4,095. Card key and age go low byte first (log 44), and a block of another length is a bad one (log 28). -/
def BlockHolds (n : Nat) (bytes : Text) (taps : List Tap) : Prop :=
  bytes.length = 7 * n + 2 ∧ goodCheck bytes = true ∧ taps.length = n ∧
    ∀ i tap, taps[i]? = some tap →
      let b := fun k => (bytes.getD (7 * i + k) 0).toNat
      tap = ⟨b 0 + 256 * b 1 + 65536 * b 2 + 16777216 * b 3, b 4, b 5 + 256 * b 6⟩ ∧ 1 ≤ tap.card ∧
        tap.card ≤ 4294967294 ∧ tap.age ≤ 4095

/-! ### Gateway records -/

/-- The five bytes of a send key (12_formats_and_pins.md). -/
def keyInFrame (k : SendKey) : Text := lowFirst 2 k.number ++ lowFirst 2 k.slot ++ lowFirst 1 k.position

/-- The record kind and payload of an outbound frame (R161, R179, R210). -/
def Frame.contents : Frame → Text
  | .send r =>
    let kind : Byte := match r.kind with | .absent => 1 | .late => 2 | .arrived => 3 | .general => 4 | .closure => 5
    let channel : Byte := match r.channel with | .text => 0 | .voice => 1
    [0x01] ++ lowFirst 2 r.key.number ++ [kind] ++ lowFirst 2 r.key.slot ++ lowFirst 3 r.reference ++
      lowFirst 1 r.key.position ++ lowFirst 2 r.contact ++ [channel] ++ lowFirst 3 (r.arrival.getD 0xFFFFFF) ++
      lowFirst 1 r.text.length ++ r.text
  | .ping n => [0x02, BitVec.ofNat 8 n]
  | .answer about word =>
    let answer : Byte := match word with | .known => 1 | .stale => 2 | .taken => 3 | .busy => 4 | .inboxFull => 5
    [0x03] ++
      (match about with
        | .receipt k => [0x11] ++ keyInFrame k
        | .outcome k => [0x12] ++ keyInFrame k
        | .pong n => [0x13, BitVec.ofNat 8 n, 0, 0, 0, 0]
        | .reply c => [0x14] ++ lowFirst 2 c ++ [0, 0, 0]) ++ [answer]

/-- A body made even by a pad byte of 00 (R210). -/
def evened (b : Text) : Text := if b.length % 2 = 1 then b ++ [0] else b

/-- The body of an inbound record, pad included (R182, R210). -/
def Inbound.contents : Inbound → Text
  | .receipt k a => [0x11] ++ keyInFrame k ++ [match a with | .take => 1 | .busy => 2 | .refuse => 3, 0]
  | .outcome k delivered => [0x12] ++ keyInFrame k ++ [if delivered then 1 else 2, 0]
  | .pong n => [0x13, BitVec.ofNat 8 n]
  | .reply r =>
    evened
      ([0x14] ++ lowFirst 2 r.contact ++ lowFirst 3 (r.reference.getD 0) ++
        (match r.code with
          | .ill days => [1, BitVec.ofNat 8 days, 0, 0]
          | .appointment back => [2] ++ lowFirst 3 (back.getD 0xFFFFFF)
          | .onWay => [3, 0, 0, 0]
          | .text => [4, 0, 0, 0]) ++ lowFirst 2 r.text.length ++ r.text)

/-- The fields of an inbound record are in range (R182, R210). -/
def Inbound.InRange : Inbound → Prop
  | .receipt k _ | .outcome k _ => 1 ≤ k.number ∧ k.number ≤ 65535 ∧ k.slot < 2048 ∧ k.position ≤ 2
  | .pong n => n < 256
  | .reply r =>
    1 ≤ r.contact ∧ r.contact ≤ 65535 ∧ (∀ n, r.reference = some n → 1 ≤ n ∧ n ≤ 999999) ∧ r.text.length ≤ 320 ∧
      (∀ days, r.code = .ill days → 1 ≤ days ∧ days ≤ 9) ∧ ∀ t, r.code = .appointment (some t) → t < 86400

/-- The command of a completed record. -/
def Inbound.command : Inbound → Instr
  | .receipt k a => .receipt k a
  | .outcome k d => .outcome k d
  | .pong n => .pong n
  | .reply r => .reply r

/-! ### Broadcasts -/

/-- The contact position at which a broadcast's walk looks in a slot (R170): the cursor's in the cursor's slot, else the first. -/
def walkPosition (b : BroadcastState) (slot : Slot) : Nat := if slot = b.cursorSlot then b.cursorPosition else 0

/-- A slot offers a broadcast's walk a step (R170): it is at the cursor or past it and ENROLLED in a cohort of the mask, with a contact
at a position not yet passed; with FIRST only position 0 counts. -/
def OffersStep (b : BroadcastState) (s : State) (slot : Slot) : Prop :=
  b.cursorSlot ≤ slot ∧
    ∃ p, pupilAt slot s = some p ∧ p.enrolment.cohort ∈ b.mask ∧ walkPosition b slot < p.enrolment.contacts.length ∧
      (b.reach = .all ∨ walkPosition b slot = 0)

/-- The next step at a broadcast's cursor (R170): that of the first slot which offers one. -/
def NextStep (b : BroadcastState) (s : State) (slot : Slot) (position : Nat) : Prop :=
  OffersStep b s slot ∧ position = walkPosition b slot ∧ ∀ k < slot, ¬OffersStep b s k

/-- A broadcast has a send left (R170). -/
def HasSendLeft (n : Notice) (b : BroadcastState) (s : State) : Prop :=
  n.cancel = false ∧ b.expired = false ∧ (b.returned ≠ [] ∨ ∃ slot, OffersStep b s slot)

/-! ### The shape of a request's answer -/

/-- The state a request leaves: `t` as its owner left it, with the reply handed back to the Office Port (R192; log 1). -/
def replied (r : Reply) (t : State) : State := { t with office := { t.office with result := some r } }

/-- The pupil in every slot but one is as it was. -/
def OthersKept (slot : Slot) (s t : State) : Prop := ∀ k, k ≠ slot → pupilAt k t = pupilAt k s

/-- The census moved one count from one mark and cohort to another; `none` for a pupil that came or left (R5, R7, R9). -/
def CensusMoved (from_ to_ : Option (Nat × Mark)) (s t : State) : Prop :=
  ∀ c m,
    censusAt c m t.roll.census + (if from_ = some (c, m) then 1 else 0) =
      censusAt c m s.roll.census + (if to_ = some (c, m) then 1 else 0)

/-- The notices of a queue were withdrawn where they meet a test (R168): a WAITING one left, an IN_WINDOW one carries
cancel-on-result, and every other is as it was. -/
def Withdrawn (p : Notice → Bool) (before after : List Notice) : Prop :=
  after = (before.filter fun n => !p n || n.inWindow).map fun n => if p n then { n with cancel := true } else n

/-- A notice that R6 withdraws in a change from `s` to `u`: an ABSENT notice without cancel-on-result of a pupil that left
ABSENT_PENDING. -/
def leftPending (s u : State) (n : Notice) : Bool :=
  match n.addressee with
  | .pupil k _ =>
    n.kind = .absent && !n.cancel && (pupilAt k s).any (·.day.mark = .absentPending) &&
      !(pupilAt k u).any (·.day.mark = .absentPending)
  | .broadcast _ => false

/-- A notice left the queue, in a change in which none joins it. -/
abbrev NoticeLeft (s u : State) : Prop := u.notices.queue.length < s.notices.queue.length

/-- The Cut Sweeper after a change of the queue: a PAUSED sweep is RUNNING where a notice left, and else it is as it was (R145). -/
def SweepHeard (left : Prop) [Decidable left] (s u : State) : Prop :=
  u.sweep = { s.sweep with state := if s.sweep.state = .paused ∧ left then .running else s.sweep.state }

/-- A pupil notice is exhausted (R164): it leaves the queue, and a PAUSED sweep is RUNNING (R145). For ABSENT a pupil of ABSENT_PENDING
becomes ABSENT_UNREACHED with source NOTICE and UNREACHED is raised with the slot; for another kind UNREACHED is raised with the notice
number and no mark changes. -/
def Exhausted (n : Notice) (slot : Slot) (s u : State) : Prop :=
  u =
    { s with
      roll := { s.roll with roster := u.roll.roster, census := u.roll.census }
      notices := { s.notices with queue := u.notices.queue }
      sweep := u.sweep
      attention := (raise .unreached (some (if n.kind = .absent then .slot slot else .notice n.number)) s).attention } ∧
  SweepHeard (NoticeLeft s u) s u ∧
  (n.kind ≠ .absent → u.roll = s.roll ∧ u.notices.queue = s.notices.queue.filter (·.number ≠ n.number)) ∧
  (n.kind = .absent →
    Withdrawn (fun m => (pupilAt slot s).any (·.day.mark = .absentPending) && m.isAbsentOf slot)
      (s.notices.queue.filter (·.number ≠ n.number)) u.notices.queue ∧
    ∀ k, pupilAt k u =
      (pupilAt k s).map fun p =>
        if k = slot ∧ p.day.mark = .absentPending then
          { p with day := { p.day with mark := .absentUnreached, source := some .notice } }
        else p)

/-- The values of a page (R192; log 11): after a head, entries of a list in order from its first, at most `limit` of them, then what
names the first left out. None is left out that the limit allows and that fits in the line with what follows it. Of a head that
does not fit with what follows it, the first values that do, and no entry (log 45). -/
def PageOf {α : Type} (limit : Nat) (head : List Item) (show_ : α → List Item) (next : Option α → List Item) (l : List α)
    (items : List Item) : Prop :=
  let reply := fun page rest : List α => head ++ page.flatMap show_ ++ next rest.head?
  ∃ page rest, l = page ++ rest ∧ page.length ≤ limit ∧
    (rest = [] ∨ page.length = limit ∨ ∃ x more, rest = x :: more ∧ fits (reply (page ++ [x]) more) = false) ∧
    if fits (reply page rest) then items = reply page rest
    else
      page = [] ∧
        ∃ n ≤ head.length, items = head.take n ++ next rest.head? ∧ (n = 0 ∨ fits items = true) ∧
          (n = head.length ∨ fits (head.take (n + 1) ++ next rest.head?) = false)

/-- The values of a reply without pages (R192; log 10): its parts in order from the one asked for, as many as fit in the line, and
MORE with the number of the first left out. -/
def MoreOf (start : Nat) (parts : List (List Item)) (items : List Item) : Prop :=
  let reply := fun page rest : List (List Item) =>
    page.flatten ++ if rest = [] then [] else [Item.named "MORE" (.num (start + page.length))]
  ∃ page rest, parts.drop start = page ++ rest ∧ items = reply page rest ∧ (page = [] ∨ fits items = true) ∧
    (rest = [] ∨ ∃ x more, rest = x :: more ∧ fits (reply (page ++ [x]) more) = false)

/-! ### Refusals -/

/-- The checks of a request in the order of the owning rule, each with the reason it gives where it holds (R193). -/
abbrev Checks := List (Prop × Reason)

/-- The reason some checks give: that of the first that holds (R193). -/
def Checks.Give : Checks → Reason → Prop
  | [], _ => False
  | c :: rest, r => (c.1 ∧ r = c.2) ∨ (¬c.1 ∧ Give rest r)

/-- A contacts list that ENROL and AMEND take: at most three entries, each ID in range, none twice (R2, R7). -/
def ContactsAllowed (l : List Contact) : Prop :=
  l.length ≤ 3 ∧ (∀ c ∈ l, 1 ≤ c.id ∧ c.id ≤ 65535) ∧ (l.map Contact.id).Nodup

/-- The enrolment values that ENROL and AMEND take (R2). -/
def EnrolmentAllowed (card reference cohort form : Option Nat) (permit : Option SchoolTime) (office : Option (Option Bool))
    (contacts : Option (List Contact)) : Prop :=
  (∀ n, card = some n → 1 ≤ n ∧ n ≤ 4294967294) ∧ (∀ n, reference = some n → 1 ≤ n ∧ n ≤ 999999) ∧
    (∀ n, cohort = some n → n < 8) ∧ (∀ n, form = some n → n < 64) ∧ (∀ t, permit = some t → t < 86400) ∧
    office ≠ some none ∧ ∀ l, contacts = some l → ContactsAllowed l

/-- A slot is in use (R7): ENROLLED, or addressed by a notice of the queue or a send of the window. -/
def SlotUsed (slot : Slot) (s : State) : Prop :=
  (∃ e ∈ s.roll.roster, e.1 = slot) ∨ (∃ n ∈ s.notices.queue, ∃ i, n.addressee = .pupil slot i) ∨
    ∃ x ∈ s.notices.window, x.key.slot = slot

/-- The target, reason and back time that MARK takes (R13). -/
def MarkAllowed (a : MarkArgs) : Prop :=
  (∀ t, a.back = some t → t < 86400) ∧
    match a.target with
    | some .excused =>
      ∃ r, a.reason = some (some r) ∧ (r = .ill ∨ r = .appointment ∨ r = .family ∨ r = .authorised) ∧
        (a.back = none ∨ r = .appointment)
    | some .unseen | some .expected | some .signedOut => a.reason = none ∧ a.back = none
    | _ => False

/-- The entry that a request gives (R51, R52): its fields in range, those of its kind and no other, a mask not empty. -/
def EntryGiven (a : EntryPutArgs) (e : BankEntry) : Prop :=
  a.amiss = false ∧ a.bank < 4 ∧ a.time < 86400 ∧ e.time = a.time ∧
    (match e.chime with
    | none => a.pattern = none ∧ a.zones = none ∧ a.priority = none ∧ e.roll ≠ .chime
    | some c =>
      a.pattern = some c.pattern ∧ c.pattern < 32 ∧ a.priority = some c.priority ∧ 1 ≤ c.priority ∧ c.priority ≤ 15 ∧
        ∃ zones, a.zones = some zones ∧ zones ≠ [] ∧ (∀ z ∈ zones, 1 ≤ z ∧ z ≤ 6) ∧
          c.zones = (List.range' 1 6).filter (· ∈ zones)) ∧
    let mask := fun m : List Nat =>
      ∃ cohorts, a.cohorts = some cohorts ∧ cohorts ≠ [] ∧ (∀ c ∈ cohorts, c ≤ 7) ∧ m = (List.range 8).filter (· ∈ cohorts)
    match e.roll with
    | .chime => a.kind = some .chime ∧ a.cohorts = none ∧ a.grace = none ∧ a.hold = none
    | .registration m grace =>
      a.kind = some .registration ∧ mask m ∧ a.grace = some grace ∧ grace ≤ 30 ∧ a.hold = none
    | .absenceCut m => a.kind = some .absenceCut ∧ mask m ∧ a.grace = none ∧ a.hold = none
    | .noticeDeadline => a.kind = some .noticeDeadline ∧ a.cohorts = none ∧ a.grace = none ∧ a.hold = none
    | .noticeHold minutes =>
      a.kind = some .noticeHold ∧ a.cohorts = none ∧ a.grace = none ∧ a.hold = some minutes ∧ 1 ≤ minutes ∧ minutes ≤ 240
    | .dayClose => a.kind = some .dayClose ∧ a.cohorts = none ∧ a.grace = none ∧ a.hold = none

/-- The steps that PATTERNPUT takes (R72–R74): 1 to 24, their fields in range, each LOOP back to a lower index over no other LOOP. -/
def StepsAllowed (l : List PatternStep) : Prop :=
  1 ≤ l.length ∧ l.length ≤ 24 ∧
    ∀ (i : Nat) (x : PatternStep), l[i]? = some x →
      match x with
      | .tone pitch length level => 1 ≤ pitch ∧ pitch ≤ 63 ∧ 1 ≤ length ∧ length ≤ 255 ∧ level ≤ 15
      | .rest length => 1 ≤ length ∧ length ≤ 255
      | .strike width => 1 ≤ width ∧ width ≤ 255
      | .loop back count =>
        back < i ∧ 1 ≤ count ∧ count ≤ 15 ∧ ∀ j, back ≤ j → j < i → ∀ b c, l[j]? ≠ some (.loop b c)
      | .stop => True

/-- The sizes of the lists of SETTINGS: seven weekdays, six zones, fourteen sources. -/
def SettingsSized (x : Settings) : Prop :=
  x.weekMap.length = 7 ∧ x.zoneGroup.length = 6 ∧ x.relayPol.length = 6 ∧ x.enables.length = 14 ∧ x.levels.length = 14

/-- A Pattern Table: 32 patterns, each empty or of steps that PATTERNPUT takes (R72, R73). -/
def PatternsSound (l : List (List PatternStep)) : Prop := l.length = 32 ∧ ∀ p ∈ l, p = [] ∨ StepsAllowed p

/-- The sizes and forms of the areas that some copies hold (R200). -/
def CopiesSized (c : AreaCopies) : Prop :=
  (∀ x, c.settings = some x → SettingsSized x) ∧ (∀ l, c.plans = some l → l.length = 4) ∧
    (∀ l, c.patterns = some l → PatternsSound l) ∧ (∀ l, c.calendar = some l → (l.map Prod.fst).Pairwise (· < ·)) ∧
    ∀ l, c.texts = some l → l.length = 16

/-- The sizes and forms of the tables: SETTINGS, four Plan Banks (R50), 32 patterns (R72), a Calendar Table in order of date (R33), sixteen
texts (R172), eight cohorts (R46), eight terminals (R100), six mutes (R91), nine fingerprints (R200), the channels (R75), at most eight
requests waiting in order of priority (R82); the same of the stored copies, and of the snapshot that a SAVE took. -/
def TablesOk (s : State) : Prop :=
  SettingsSized s.settings ∧ s.plan.banks.length = 4 ∧ PatternsSound s.chime.patterns ∧
    (s.day.calendar.map Prod.fst).Pairwise (· < ·) ∧ s.notices.texts.length = 16 ∧ s.day.cohorts.length = 8 ∧
    s.line.table.length = 8 ∧ s.zone.mutes.length = 6 ∧ s.store.fingerprints.length = 9 ∧ ChannelsReady s ∧
    s.chime.waits.length ≤ 8 ∧ (s.chime.waits.map (·.request.priority)).Pairwise (· ≥ ·) ∧
    CopiesSized s.store.stored ∧ ∀ o, s.store.operation = some o → CopiesSized o.snapshot

/-- A set of zones that a request takes: one or more of 1–6. -/
def ZonesAllowed (zones : List Nat) : Prop := zones ≠ [] ∧ ∀ z ∈ zones, 1 ≤ z ∧ z ≤ 6

/-- The zone, group or input of a setting exists (R204). -/
def PlaceAllowed : SettingRef → Prop
  | .zoneGroup z | .relayPol z => 1 ≤ z ∧ z ≤ 6
  | .wakePol g | .groupVolume g | .ceiling g => g ≠ none
  | .quietMask i | .quietLevel i => i ≠ none
  | _ => True

/-- A value in the range of a setting (R204). -/
def ValueAllowed : SettingRef → SettingValue → Prop
  | .dayOpen, .time t => t < 86400 ∧ t % 60 = 0
  | .weekMap, .week l => l.length = 7 ∧ ∀ b, .school b ∈ l → b < 4
  | .catchUp, .num n => n ≤ 600
  | .waitLimit, .num n => 5 ≤ n ∧ n ≤ 120
  | .lead, .num n | .tail, .num n => n ≤ 10
  | .groupVolume _, .num n | .ceiling _, .num n => n ≤ 15
  | .quietMask _, .zones l => ∀ z ∈ l, 1 ≤ z ∧ z ≤ 6
  | .buttonZones, .zones l => ZonesAllowed l
  | .buttonPrio, .num n => 1 ≤ n ∧ n ≤ 15
  | .buttonPattern, .num n => n < 32
  | .minutePulse, .flag _ | .quietLevel _, .flag _ | .override, .flag _ | .zoneGroup _, .group _ | .relayPol _, .polarity _
  | .wakePol _, .polarity _ | .buttonMode, .mode _ | .latePolicy, .policy _ => True
  | _, _ => False

/-- The setting is of LIMITS (R204). -/
def OfLimits (r : SettingRef) : Prop := r = .override ∨ ∃ g, r = .ceiling g

/-- A request of the Settings Store names an area (R201). -/
def NamesArea (areas : AreasArg) (a : Area) : Prop := areas = .all ∨ ∃ l, areas = .list l ∧ some a ∈ l

/-- The checks of a deadline, which POST and BROADCAST make behind that of their values (R173, R174). -/
def deadlineChecks (deadline : Option SchoolTime) (s : State) : Checks :=
  [(deadline ≠ none ∧ s.time.valid = false, .clockInvalid), (∃ d, deadline = some d ∧ d ≤ s.time.school, .badValue)]

/-- A class, text slot and deadline in range (R173). -/
def PostAllowed (cls textSlot : Nat) (deadline : Option SchoolTime) : Prop :=
  1 ≤ cls ∧ cls ≤ 14 ∧ textSlot < 16 ∧ ∀ d, deadline = some d → d < 86400

/-- The checks of a request, in the order of its rule (R193). A check of the range of an argument that the rule's list does not place
comes first (R193; log 31). -/
def checksOf : Instr → State → Checks
  | .enrol a, s =>
    [(saveHolds .roster s = true, .storeBusy),
      (¬(EnrolmentAllowed (some a.card) (some a.reference) (some a.cohort) (some a.form) a.permit a.office (some a.contacts) ∧
          ∀ k, a.slot = some k → k < 2048),
        .badValue),
      (∃ k, a.slot = some k ∧ SlotUsed k s, .wrongState),
      (a.slot = none ∧ ∀ k < 2048, SlotUsed k s, .full),
      (∃ e ∈ s.roll.roster, e.2.enrolment.card = a.card ∨ e.2.enrolment.reference = a.reference, .duplicate)]
  | .amend a, s =>
    [(saveHolds .roster s = true, .storeBusy),
      (a.slot < 2048 ∧ pupilAt a.slot s = none, .noSuch),
      (¬(a.slot < 2048 ∧
          EnrolmentAllowed a.card a.reference a.cohort a.form (a.permit.bind id) a.office a.contacts),
        .badValue),
      (∃ e ∈ s.roll.roster, e.1 ≠ a.slot ∧ (a.card = some e.2.enrolment.card ∨ a.reference = some e.2.enrolment.reference),
        .duplicate)]
  | .withdraw slot, s =>
    [(2048 ≤ slot, .badValue), (saveHolds .roster s = true ∨ saveHolds .away s = true, .storeBusy),
      (pupilAt slot s = none, .noSuch)]
  | .pupil slot, _ => [(2048 ≤ slot, .badValue)]
  | .find (.card key), s =>
    [(¬(1 ≤ key ∧ key ≤ 4294967294), .badValue), (∀ e ∈ s.roll.roster, e.2.enrolment.card ≠ key, .noSuch)]
  | .find (.reference r), s =>
    [(¬(1 ≤ r ∧ r ≤ 999999), .badValue), (∀ e ∈ s.roll.roster, e.2.enrolment.reference ≠ r, .noSuch)]
  | .find (.contact id start), _ => [(¬(1 ≤ id ∧ id ≤ 65535 ∧ start < 2048), .badValue)]
  | .marks a, _ =>
    [(8 ≤ a.cohort ∨ a.mark = some none ∨ (∃ f, a.form = some f ∧ 64 ≤ f) ∨ a.disputed = some false ∨ 2048 ≤ a.start, .badValue)]
  | .mark a, s =>
    [(2048 ≤ a.slot, .badValue), (s.day.state ≠ .open_, .dayNotOpen), (¬MarkAllowed a, .badValue),
      (pupilAt a.slot s = none, .noSuch),
      (a.target = some .signedOut ∧
          ∀ p, pupilAt a.slot s = some p →
            p.day.mark ≠ .present ∧ p.day.mark ≠ .late ∧ p.day.mark ≠ .lateAfterCut ∧ p.day.mark ≠ .arrivedExcused,
        .wrongState)]
  | .census cohort _, _ => [(∃ c, cohort = some c ∧ 8 ≤ c, .badValue)]
  | .away slot first last reason, s =>
    [(2048 ≤ slot, .badValue), (saveHolds .away s = true, .storeBusy), (s.time.valid = false, .clockInvalid),
      (36525 ≤ first ∨ 36525 ≤ last ∨ last < first ∨ last < s.time.date ∨ reason = none ∨ reason = some .closure, .badValue),
      (pupilAt slot s = none, .noSuch),
      (∃ e ∈ s.roll.away, e.slot = slot ∧ e.first ≤ last ∧ first ≤ e.last, .overlap),
      (256 ≤ s.roll.away.length, .full)]
  | .unaway slot first, s =>
    [(2048 ≤ slot ∨ 36525 ≤ first, .badValue), (saveHolds .away s = true, .storeBusy),
      (∀ e ∈ s.roll.away, ¬(e.slot = slot ∧ e.first = first), .noSuch)]
  | .aways slot start, _ =>
    [((∃ k, slot = some k ∧ 2048 ≤ k) ∨ ∃ d, start = some d ∧ 36525 ≤ d, .badValue)]
  | .arrive slot time, s =>
    [(s.day.state ≠ .open_, .dayNotOpen), (2048 ≤ slot ∨ ∃ t, time = some t ∧ 86400 ≤ t, .badValue),
      (∃ t, time = some t ∧ (s.time.school < t ∨ t < s.day.openingTime.getD 0), .badValue),
      (pupilAt slot s = none, .noSuch)]
  | .setClock time date, s =>
    [(86400 ≤ time ∨ (∃ d, date = some d ∧ 36525 ≤ d) ∨ date = none ∧ s.time.valid = false, .badValue)]
  | .datePut date dayType, s =>
    [(saveHolds .calendar s = true, .storeBusy),
      (36525 ≤ date ∨ (∃ b, dayType = .school b ∧ 4 ≤ b) ∨ s.time.valid = true ∧ date < s.time.date, .badValue),
      (tableGet date s.day.calendar = none ∧ 64 ≤ s.day.calendar.length, .full)]
  | .dateDrop date, s =>
    [(36525 ≤ date, .badValue), (saveHolds .calendar s = true, .storeBusy), (tableGet date s.day.calendar = none, .noSuch)]
  | .dates start, _ => [(∃ d, start = some d ∧ 36525 ≤ d, .badValue)]
  | .openDay bank, s =>
    [(s.time.valid = false, .clockInvalid), (s.day.state ≠ .closed, .wrongState), (∃ b, bank = some b ∧ 4 ≤ b, .badValue),
      (rollLoadUnderWay s = true, .storeBusy), (bank = none ∧ dayTypeOf s.time.date s = .closed, .badValue)]
  | .closeDay, s => [(s.day.state ≠ .open_, .wrongState)]
  | .closure textSlot, s =>
    [(s.day.state ≠ .open_, .dayNotOpen), (16 ≤ textSlot, .badValue), (s.notices.texts.getD textSlot [] = [], .noSuch),
      (s.day.closureFlag = true, .wrongState),
      (128 ≤ s.notices.queue.length ∧ ∀ n ∈ s.notices.queue, n.kind = .absent → n.inWindow = true, .full)]
  | .entryPut a, s =>
    [(storeHolds .plans s = true, .storeBusy), (∀ e, ¬EntryGiven a e, .badValue),
      (∃ e c, EntryGiven a e ∧ e.chime = some c ∧ 12 ≤ c.priority ∧ s.limits.override = false, .notAllowed),
      (96 ≤ (s.plan.banks.getD a.bank .empty).entries.length, .full)]
  | .entryDrop bank position, s =>
    [(storeHolds .plans s = true, .storeBusy), (4 ≤ bank, .badValue),
      ((s.plan.banks.getD bank .empty).entries.length ≤ position, .noSuch)]
  | .bankClear bank, s => [(storeHolds .plans s = true, .storeBusy), (4 ≤ bank, .badValue)]
  | .header bank none, _ => [(4 ≤ bank, .badValue)]
  | .header bank (some (name, select)), s =>
    [(storeHolds .plans s = true, .storeBusy),
      (4 ≤ bank ∨ 12 < name.length ∨ (∃ c ∈ name, isNameChar c = false) ∨ select = none, .badValue)]
  | .bank bank start, _ => [(4 ≤ bank ∨ 96 ≤ start, .badValue)]
  | .adopt bank, s =>
    [(s.day.state ≠ .open_, .dayNotOpen), (4 ≤ bank, .badValue), (s.day.closureFlag = true, .wrongState)]
  | .today start, _ => [(96 ≤ start, .badValue)]
  | .patternPut pattern steps, s =>
    [(storeHolds .patterns s = true, .storeBusy), (32 ≤ pattern ∨ ∃ l, steps = some l ∧ ¬StepsAllowed l, .badValue)]
  | .pattern pattern, _ => [(32 ≤ pattern, .badValue)]
  | .volume group value, s =>
    [(group = none ∨ ∃ v, value = some v ∧ 15 < v, .badValue), (value ≠ none ∧ saveHolds .settings s = true, .storeBusy)]
  | .mute write, _ => [(∃ zones on, write = some (zones, on) ∧ (¬ZonesAllowed zones ∨ on = none), .badValue)]
  | .play (.request pattern zones priority), s =>
    [(32 ≤ pattern ∨ ¬ZonesAllowed zones ∨ priority < 1 ∨ 15 < priority, .badValue),
      (12 ≤ priority ∧ s.limits.override = false, .notAllowed), (s.chime.patterns.getD pattern [] = [], .noSuch)]
  | .hush (.channel n), s => [(4 ≤ n, .badValue), ((channelAt n s).state = .idle, .wrongState)]
  | .hush .other, _ => [(True, .badValue)]
  | .seekAll, s => [(s.line.enumerationPending = true ∨ ∃ w, s.line.job = .enumeration w, .wrongState)]
  | .admitTerminal i entrance, s =>
    [(storeHolds .terminals s = true, .storeBusy), (identityValid i = false ∨ 8 < entrance, .badValue),
      (∀ n < 8, ∃ t, terminalAt n s = some t ∧ t.identity ≠ i, .full)]
  | .retire n, s =>
    [(storeHolds .terminals s = true, .storeBusy), (8 ≤ n, .badValue), (terminalAt n s = none, .noSuch)]
  | .classTable table none, _ => [(table = none, .badValue)]
  | .classTable table (some (a, l, r)), s =>
    [(storeHolds .settings s = true, .storeBusy), (table = none ∨ 15 < a ∨ 15 < l ∨ 15 < r, .badValue)]
  | .hold value, _ => [(value = some none, .badValue)]
  | .quiet minutes, s => [(0 < minutes ∧ s.time.valid = false, .clockInvalid), (240 < minutes, .badValue)]
  | .cancel number, s =>
    [(number < 1 ∨ 65535 < number, .badValue), (∀ n ∈ s.notices.queue, n.number ≠ number, .noSuch),
      (∃ n, noticeAt number s = some n ∧ n.cancel = true, .wrongState)]
  | .text slot .read, _ => [(16 ≤ slot, .badValue)]
  | .text slot (.write t), s =>
    [(storeHolds .texts s = true, .storeBusy),
      (16 ≤ slot ∨ t = [] ∨ 160 < t.length ∨ ∃ c ∈ t, isTextChar c = false, .badValue)]
  | .text slot .empty, s =>
    [(storeHolds .texts s = true, .storeBusy), (16 ≤ slot, .badValue),
      (∃ n ∈ s.notices.queue, n.textSlot = some slot, .wrongState)]
  | .post a, s =>
    [(2048 ≤ a.slot ∨ 2 < a.position ∨ ¬PostAllowed a.cls a.textSlot a.deadline, .badValue)] ++ deadlineChecks a.deadline s ++
      [(pupilAt a.slot s = none, .noSuch),
        ((∀ p, pupilAt a.slot s = some p → p.enrolment.contacts.length ≤ a.position) ∨ s.notices.texts.getD a.textSlot [] = [],
          .noSuch),
        (128 ≤ s.notices.queue.length, .full)]
  | .broadcast a, s =>
    [(a.cohorts = [] ∨ (∃ c ∈ a.cohorts, 7 < c) ∨ a.reach = none ∨ ¬PostAllowed a.cls a.textSlot a.deadline, .badValue)] ++
      deadlineChecks a.deadline s ++
      [(s.notices.texts.getD a.textSlot [] = [], .noSuch), (128 ≤ s.notices.queue.length, .full)]
  | .notices kind slot start, _ =>
    [(kind = some none ∨ (∃ k, slot = some k ∧ 2048 ≤ k) ∨ start < 1 ∨ 65535 < start, .badValue)]
  | .inbox (.summary start), _ => [(∃ n, start = some n ∧ (n < 1 ∨ 65535 < n), .badValue)]
  | .inbox (.text number part), s =>
    [(number < 1 ∨ 65535 < number, .badValue), (∀ m ∈ s.gateway.inbox, m.number ≠ number, .noSuch), (3 < part, .badValue)]
  | .discard (.number number), s =>
    [(number < 1 ∨ 65535 < number, .badValue), (∀ m ∈ s.gateway.inbox, m.number ≠ number, .noSuch)]
  | .status source, _ => [(∃ n, source = some n ∧ 14 ≤ n, .badValue)]
  | .ack source count, s =>
    [(14 ≤ source ∨ ∃ c, count = some c ∧ 255 < c, .badValue),
      (∃ c, count = some c ∧ c ≠ (sourceAt source s).count, .wrongState)]
  | .level source none, _ => [(14 ≤ source, .badValue)]
  | .level source (some (level, enable)), s =>
    [(storeHolds .settings s = true, .storeBusy), (14 ≤ source ∨ 7 < level ∨ enable = none, .badValue),
      (source < 2, .notAllowed)]
  | .floor value, s =>
    [(value ≠ none ∧ storeHolds .settings s = true, .storeBusy), (∃ f, value = some f ∧ 7 < f, .badValue)]
  | .save areas, s =>
    [(s.store.operation ≠ none, .storeBusy), (∃ l, areas = .list l ∧ (l = [] ∨ none ∈ l ∨ ¬l.Nodup), .badValue)]
  | .load areas strap, s | .defaults areas strap, s =>
    [(s.store.operation ≠ none, .storeBusy), (∃ l, areas = .list l ∧ (l = [] ∨ none ∈ l ∨ ¬l.Nodup), .badValue),
      ((NamesArea areas .roster ∨ NamesArea areas .plans ∨ NamesArea areas .away) ∧ s.day.state ≠ .closed, .dayOpen),
      (NamesArea areas .limits ∧ strap = false, .locked)]
  | .setSetting r value strap, s =>
    [(r = .unknown, .noSuch), (¬PlaceAllowed r, .badValue),
      ((OfLimits r ∧ storeHolds .limits s = true) ∨ (¬OfLimits r ∧ storeHolds .settings s = true), .storeBusy),
      (∀ v, value = some v → ¬ValueAllowed r v, .badValue), (OfLimits r ∧ strap = false, .locked)]
  | .getSetting (.setting r) _, _ => [(r = .unknown, .noSuch), (¬PlaceAllowed r, .badValue)]
  | _, _ => []

/-- The strap's level as a request with that operand reads it (R205; log 7). -/
def strapRead : Instr → State → State
  | .load _ strap, s | .defaults _ strap, s | .setSetting _ _ strap, s | .getSetting _ strap, s =>
    { s with pins := { s.pins with install := strap } }
  | _, s => s

/-- No check of a request holds: it is taken. -/
abbrev Passes (c : Instr) (s : State) : Prop := ∀ x ∈ checksOf c s, ¬x.1

/-- A request is refused as its checks say (R193): with the reason of the first that holds, every block as it was; and where none
holds it is not refused. -/
def RefusedByItsChecks (c : Instr) (s : State) : Prop :=
  (∀ r, (checksOf c s).Give r → exec c s = .next (replied (.refused r) (strapRead c s))) ∧
    (Passes c s → ∀ t r, exec c s = .next t → t.office.result ≠ some (.refused r))

/-! ### Request lines as they are written (R190, R192, R209) -/

/-- Every character lies in one of the ranges. -/
def CharsIn (ranges : List (Char × Char)) (t : Text) : Prop :=
  ∀ b ∈ t, ∃ r ∈ ranges, r.1.toNat ≤ b.toNat ∧ b.toNat ≤ r.2.toNat

/-- How an argument stands in a line: a plain one is a run of characters from 0x21 to 0x7E without `"` and `*`; a quoted one stands
between two quotes and holds none (of any length and other characters: log 51). -/
def ArgumentWritten : Token → Text → Prop
  | .plain x, t => t = x ∧ x ≠ [] ∧ CharsIn [('!', '~')] x ∧ chr '"' ∉ x ∧ chr '*' ∉ x
  | .quoted x, t => t = chr '"' :: x ++ [chr '"'] ∧ chr '"' ∉ x

/-- A line up to its check mark: the tag, which is not `??`, one space, the request word, and the arguments, each preceded by one
space. -/
def LineWritten (body word : Text) (args : List Token) : Prop :=
  ∃ (tag : Text) (parts : List Text),
    tag.length = 2 ∧ CharsIn [('A', 'Z'), ('a', 'z'), ('0', '9'), ('?', '?')] tag ∧ tag ≠ ascii "??" ∧
    2 ≤ word.length ∧ word.length ≤ 12 ∧ CharsIn [('A', 'Z')] word ∧
    List.Forall₂ ArgumentWritten args parts ∧ body = tag ++ chr ' ' :: word ++ parts.flatMap (chr ' ' :: ·)

/-- `k` decimal digits and the number they give. -/
def DigitsFor (k n : Nat) (t : Text) : Prop :=
  t.length = k ∧ CharsIn [('0', '9')] t ∧ n = Nat.ofDigits 10 (t.reverse.map fun b => b.toNat - '0'.toNat)

/-- A Number: decimal digits, leading zeros allowed, at most 10. -/
def NumberFor (n : Nat) (t : Text) : Prop := ∃ k, 1 ≤ k ∧ k ≤ 10 ∧ DigitsFor k n t

/-- A Time hh:mm:ss; one that does not exist stands for no time of the day. -/
def TimeFor (v : SchoolTime) (t : Text) : Prop :=
  ∃ h m s x y z,
    DigitsFor 2 h x ∧ DigitsFor 2 m y ∧ DigitsFor 2 s z ∧ t = x ++ chr ':' :: y ++ chr ':' :: z ∧
    v = if h < 24 ∧ m < 60 ∧ s < 60 then h * 3600 + m * 60 + s else 86400

/-- A late permit or the Word NONE. -/
def PermitFor : Option SchoolTime → Text → Prop
  | none, t => t = ascii "NONE"
  | some v, t => TimeFor v t

/-- A Time hh:mm, where a rule takes whole minutes. -/
def MinutesFor (v : SchoolTime) (t : Text) : Prop :=
  ∃ h m x y, DigitsFor 2 h x ∧ DigitsFor 2 m y ∧ t = x ++ chr ':' :: y ∧
    v = if h < 24 ∧ m < 60 then h * 3600 + m * 60 else 86400

/-- A Date yyyy-mm-dd. -/
def DateFor (v : Date) (t : Text) : Prop :=
  ∃ y m d a b c,
    DigitsFor 4 y a ∧ DigitsFor 2 m b ∧ DigitsFor 2 d c ∧ t = a ++ chr '-' :: b ++ chr '-' :: c ∧ v = dateOf y m d

/-- A Word: uppercase letters, digits and `_`. -/
def IsWordText (t : Text) : Prop := t ≠ [] ∧ CharsIn [('A', 'Z'), ('0', '9'), ('_', '_')] t

/-- A Word of a list of named values: the value of the first entry it names, none where it names none of them. -/
def WordFor {α : Type} (l : List (String × α)) (v : Option α) (t : Text) : Prop :=
  IsWordText t ∧
    ((∃ before e after, l = before ++ e :: after ∧ (∀ x ∈ before, t ≠ ascii x.1) ∧ t = ascii e.1 ∧ v = some e.2) ∨
      (∀ x ∈ l, t ≠ ascii x.1) ∧ v = none)

/-- Parts joined by commas. -/
def JoinedFor {α : Type} (part : α → Text → Prop) (l : List α) (t : Text) : Prop :=
  ∃ ps : List Text, ps ≠ [] ∧ t = [chr ','].intercalate ps ∧ List.Forall₂ part l ps

/-- A member of a Set, or a range of it whose low end is not above its high end. -/
def RangeFor (r : Nat × Nat) (t : Text) : Prop :=
  (NumberFor r.1 t ∧ r.2 = r.1) ∨ ∃ x y, t = x ++ chr '-' :: y ∧ NumberFor r.1 x ∧ NumberFor r.2 y ∧ r.1 ≤ r.2

/-- A Set: members and ranges, none of which meet; NONE for the empty set (log 9). A range that reaches past 255 stands for its high
end, which is a member of no set of the part. -/
def SetFor (l : List Nat) (t : Text) : Prop :=
  (t = ascii "NONE" ∧ l = []) ∨
    ∃ ranges : List (Nat × Nat), JoinedFor RangeFor ranges t ∧ ranges.Pairwise (fun r q => r.2 < q.1 ∨ q.2 < r.1) ∧
      l = ranges.flatMap fun r => if r.2 < 256 then List.range' r.1 (r.2 + 1 - r.1) else [r.2]

/-- An entry of Contacts. -/
def ContactFor (c : Contact) (t : Text) : Prop :=
  ∃ x, NumberFor c.id x ∧ t = x ++ chr ':' :: ascii (if c.channel = .text then "TEXT" else "VOICE")

/-- Contacts, or NONE. -/
def ContactsFor (l : List Contact) (t : Text) : Prop := (t = ascii "NONE" ∧ l = []) ∨ JoinedFor ContactFor l t

/-- A step of a pattern. -/
def StepFor : PatternStep → Text → Prop
  | .tone p n v, t =>
    ∃ x y z, NumberFor p x ∧ NumberFor n y ∧ NumberFor v z ∧ t = ascii "TONE:" ++ x ++ chr ':' :: y ++ chr ':' :: z
  | .rest n, t => ∃ x, NumberFor n x ∧ t = ascii "REST:" ++ x
  | .strike w, t => ∃ x, NumberFor w x ∧ t = ascii "STRIKE:" ++ x
  | .loop b c, t => ∃ x y, NumberFor b x ∧ NumberFor c y ∧ t = ascii "LOOP:" ++ x ++ chr ':' :: y
  | .stop, t => t = ascii "END"

/-- A bank number or CLOSED, as an entry of the weekday map (log 9). -/
def DayTypeFor : DayType → Text → Prop
  | .closed, t => t = ascii "CLOSED"
  | .school b, t => NumberFor b t

/-- An argument in place in one of the forms above. -/
def inForm (p : Text → Prop) : Token → Prop
  | .plain t => p t
  | .quoted _ => False

/-- The arguments of a request: those in place, in order; then those of the optional ones that are given, as NAME=value, in any
order. -/
def ArgumentsFor (place : List (Token → Prop)) (optional : List (String × Option (Text → Prop))) (args : List Token) : Prop :=
  ∃ pos given named,
    args = pos ++ named ∧ List.Forall₂ (fun p t => p t) place pos ∧
    given.Perm (optional.filterMap fun o => o.2.map fun p => (o.1, p)) ∧
    List.Forall₂ (fun (g : String × (Text → Prop)) t => ∃ x, g.2 x ∧ t = .plain (ascii g.1 ++ chr '=' :: x)) given named

/-! An argument in place that is a Number, a Time, a Date, a Set, the given Word, a Word of a list, a Text or Name. -/

def numberArg (n : Nat) : Token → Prop := inForm (NumberFor n)
def timeArg (t : SchoolTime) : Token → Prop := inForm (TimeFor t)
def dateArg (d : Date) : Token → Prop := inForm (DateFor d)
def setArg (l : List Nat) : Token → Prop := inForm (SetFor l)
def wordArg (w : String) : Token → Prop := inForm (· = ascii w)
def oneOfArg {α : Type} (l : List (String × α)) (v : Option α) : Token → Prop := inForm (WordFor l v)
def textArg (t : Text) (x : Token) : Prop := x = .quoted t

/-- A setting by its word, and by the zone, group or input it is held for (R204; log 9). -/
def SettingFor : SettingRef → List (Token → Prop)
  | .dayOpen => [wordArg "DAYOPEN"]
  | .weekMap => [wordArg "WEEKMAP"]
  | .minutePulse => [wordArg "MINUTEPULSE"]
  | .catchUp => [wordArg "CATCHUP"]
  | .waitLimit => [wordArg "WAITLIMIT"]
  | .lead => [wordArg "LEAD"]
  | .tail => [wordArg "TAIL"]
  | .zoneGroup z => [wordArg "ZONEGROUP", numberArg z]
  | .relayPol z => [wordArg "RELAYPOL", numberArg z]
  | .wakePol g => [wordArg "WAKEPOL", oneOfArg groupWords g]
  | .groupVolume g => [wordArg "GROUPVOLUME", oneOfArg groupWords g]
  | .quietMask i => [wordArg "QUIETMASK", oneOfArg inputWords i]
  | .quietLevel i => [wordArg "QUIETLEVEL", oneOfArg inputWords i]
  | .buttonMode => [wordArg "BUTTONMODE"]
  | .buttonZones => [wordArg "BUTTONZONES"]
  | .buttonPrio => [wordArg "BUTTONPRIO"]
  | .buttonPattern => [wordArg "BUTTONPATTERN"]
  | .latePolicy => [wordArg "LATEPOLICY"]
  | .ceiling g => [wordArg "CEILING", oneOfArg groupWords g]
  | .override => [wordArg "OVERRIDE"]
  | .unknown => []

/-- The zone, group or input of a setting is one (a zone is not 0). -/
def SettingNamed : SettingRef → Prop
  | .zoneGroup z | .relayPol z => 0 < z
  | .wakePol g | .groupVolume g | .ceiling g => g.isSome = true
  | .quietMask i | .quietLevel i => i.isSome = true
  | .unknown => False
  | _ => True

/-- The value of a setting (R204). -/
def SettingValueFor : SettingRef → SettingValue → Option (List (Token → Prop))
  | .weekMap, .week l => if l = [] ∨ 7 < l.length then none else some (l.map fun d => inForm (DayTypeFor d))
  | .dayOpen, .time t => some [inForm (MinutesFor t)]
  | .minutePulse, .flag b => some [oneOfArg onOffWords (some b)]
  | .override, .flag b => some [oneOfArg yesNoWords (some b)]
  | .quietLevel _, .flag b => some [wordArg (if b then "HIGH" else "LOW")]
  | .zoneGroup _, .group g => some [oneOfArg groupWords (some g)]
  | .relayPol _, .polarity p | .wakePol _, .polarity p => some [wordArg (if p = .activeHigh then "ACTIVE_HIGH" else "ACTIVE_LOW")]
  | .quietMask _, .zones l | .buttonZones, .zones l => some [setArg l]
  | .buttonMode, .mode m =>
    some [oneOfArg [("OFF", .off), ("FOLLOW", .follow), ("SINGLE", .single), ("GATE", .gate), ("RESYNC", .resync)] (some m)]
  | .latePolicy, .policy p => some [oneOfArg [("NONE", .never), ("AFTER_CUT", .afterCut), ("ALL", .always)] (some p)]
  | .catchUp, .num n | .waitLimit, .num n | .lead, .num n | .tail, .num n | .groupVolume _, .num n | .buttonPrio, .num n
  | .buttonPattern, .num n | .ceiling _, .num n => some [numberArg n]
  | _, _ => none

/-- The areas of SAVE, LOAD and DEFAULTS: ALL, or area names, one to an argument or joined by commas (log 9). -/
def AreasFor (a : AreasArg) (args : List Token) : Prop :=
  match a with
  | .all => ArgumentsFor [wordArg "ALL"] [] args
  | .list x =>
    ∃ parts : List (List (Option Area)),
      x = parts.flatten ∧ args ≠ [.plain (ascii "ALL")] ∧
        ArgumentsFor (parts.map fun p => inForm (JoinedFor (WordFor areaWords) p)) [] args

/-- A request as its word and its arguments spell it, in the forms of its rule and of R209's table (the places of the arguments that R209
does not give: log 9). -/
def RequestWritten (strap : Bool) (word : Text) (args : List Token) : Instr → Prop
  | .enrol a =>
    word = ascii "ENROL" ∧
      ArgumentsFor [numberArg a.card, numberArg a.reference, numberArg a.cohort, numberArg a.form, inForm (ContactsFor a.contacts)]
        [("PERMIT", a.permit.map TimeFor), ("OFFICE", a.office.map (WordFor yesNoWords)), ("SLOT", a.slot.map NumberFor)] args
  | .amend a =>
    word = ascii "AMEND" ∧
      ArgumentsFor [numberArg a.slot]
        [("CARD", a.card.map NumberFor), ("REF", a.reference.map NumberFor), ("COHORT", a.cohort.map NumberFor),
          ("FORM", a.form.map NumberFor),
          ("PERMIT", a.permit.map PermitFor),
          ("OFFICE", a.office.map (WordFor yesNoWords)), ("CONTACTS", a.contacts.map ContactsFor)] args
  | .withdraw n => word = ascii "WITHDRAW" ∧ ArgumentsFor [numberArg n] [] args
  | .pupil n => word = ascii "PUPIL" ∧ ArgumentsFor [numberArg n] [] args
  | .find (.card n) => word = ascii "FIND" ∧ ArgumentsFor [wordArg "CARD", numberArg n] [] args
  | .find (.reference n) => word = ascii "FIND" ∧ ArgumentsFor [wordArg "REF", numberArg n] [] args
  | .find (.contact n start) =>
    word = ascii "FIND" ∧ ∃ o : Option Nat, start = o.getD 0 ∧
      ArgumentsFor [wordArg "CONTACT", numberArg n] [("START", o.map NumberFor)] args
  | .marks a =>
    word = ascii "MARKS" ∧ ∃ o : Option Nat, a.start = o.getD 0 ∧
      ArgumentsFor [numberArg a.cohort]
        [("MARK", a.mark.map (WordFor markWords)), ("FORM", a.form.map NumberFor),
          ("DISPUTED", a.disputed.map fun d => WordFor [("YES", true)] (if d then some true else none)),
          ("START", o.map NumberFor)] args
  | .mark a =>
    word = ascii "MARK" ∧
      ArgumentsFor ([numberArg a.slot, oneOfArg markWords a.target] ++ (a.reason.map (oneOfArg reasonWords)).toList)
        [("BACK", a.back.map TimeFor)] args
  | .census c start =>
    word = ascii "CENSUS" ∧ ∃ o : Option Nat, start = o.getD 0 ∧
      ArgumentsFor [match c with | none => wordArg "ALL" | some n => numberArg n] [("FROM", o.map NumberFor)] args
  | .away slot first last reason =>
    word = ascii "AWAY" ∧ ArgumentsFor [numberArg slot, dateArg first, dateArg last, oneOfArg reasonWords reason] [] args
  | .unaway slot first => word = ascii "UNAWAY" ∧ ArgumentsFor [numberArg slot, dateArg first] [] args
  | .aways slot start =>
    word = ascii "AWAYS" ∧ ArgumentsFor [] [("SLOT", slot.map NumberFor), ("START", start.map DateFor)] args
  | .arrive slot time => word = ascii "ARRIVE" ∧ ArgumentsFor [numberArg slot] [("TIME", time.map TimeFor)] args
  | .clock => word = ascii "CLOCK" ∧ args = []
  | .setClock time date => word = ascii "CLOCK" ∧ ArgumentsFor [timeArg time] [("DATE", date.map DateFor)] args
  | .datePut d .closed => word = ascii "DATEPUT" ∧ ArgumentsFor [dateArg d, wordArg "CLOSED"] [] args
  | .datePut d (.school b) => word = ascii "DATEPUT" ∧ ArgumentsFor [dateArg d, wordArg "SCHOOL", numberArg b] [] args
  | .dateDrop d => word = ascii "DATEDROP" ∧ ArgumentsFor [dateArg d] [] args
  | .dates start => word = ascii "DATES" ∧ ArgumentsFor [] [("START", start.map DateFor)] args
  | .openDay b => word = ascii "OPEN" ∧ ArgumentsFor [] [("BANK", b.map NumberFor)] args
  | .closeDay => word = ascii "CLOSE" ∧ args = []
  | .closure n => word = ascii "CLOSURE" ∧ ArgumentsFor [numberArg n] [] args
  | .day start =>
    word = ascii "DAY" ∧ ∃ o : Option Nat, start = o.getD 0 ∧ ArgumentsFor [] [("FROM", o.map NumberFor)] args
  | .entryPut e =>
    word = ascii "ENTRYPUT" ∧ ∃ k, e.kind = some k ∧
      let fields := fun (l : List (Token → Prop)) (byName : List (String × Option (Text → Prop))) =>
        ArgumentsFor ([numberArg e.bank, timeArg e.time, oneOfArg entryKindWords (some k)] ++ l) byName args
      let chime :=
        [("PATTERN", e.pattern.map NumberFor), ("ZONES", e.zones.map SetFor), ("PRIORITY", e.priority.map NumberFor)]
      match k with
      | .chime =>
        ∃ p z r, e.pattern = some p ∧ e.zones = some z ∧ e.priority = some r ∧ fields [numberArg p, setArg z, numberArg r] []
      | .registration => ∃ c g, e.cohorts = some c ∧ e.grace = some g ∧ fields [setArg c, numberArg g] chime
      | .absenceCut => ∃ c, e.cohorts = some c ∧ fields [setArg c] chime
      | .noticeHold => ∃ h, e.hold = some h ∧ fields [numberArg h] chime
      | .noticeDeadline | .dayClose => fields [] chime
  | .entryDrop b n => word = ascii "ENTRYDROP" ∧ ArgumentsFor [numberArg b, numberArg n] [] args
  | .bankClear b => word = ascii "BANKCLEAR" ∧ ArgumentsFor [numberArg b] [] args
  | .header b none => word = ascii "HEADER" ∧ ArgumentsFor [numberArg b] [] args
  | .header b (some (name, select)) =>
    word = ascii "HEADER" ∧ ArgumentsFor [numberArg b, textArg name, oneOfArg selectWords select] [] args
  | .bank b start =>
    word = ascii "BANK" ∧ ∃ o : Option Nat, start = o.getD 0 ∧ ArgumentsFor [numberArg b] [("START", o.map NumberFor)] args
  | .adopt b => word = ascii "ADOPT" ∧ ArgumentsFor [numberArg b] [] args
  | .today start =>
    word = ascii "TODAY" ∧ ∃ o : Option Nat, start = o.getD 0 ∧ ArgumentsFor [] [("START", o.map NumberFor)] args
  | .patternPut p none => word = ascii "PATTERNPUT" ∧ ArgumentsFor [numberArg p, wordArg "NONE"] [] args
  | .patternPut p (some l) => word = ascii "PATTERNPUT" ∧ ArgumentsFor [numberArg p, inForm (JoinedFor StepFor l)] [] args
  | .pattern p => word = ascii "PATTERN" ∧ ArgumentsFor [numberArg p] [] args
  | .volume g v =>
    word = ascii "VOLUME" ∧ ArgumentsFor (oneOfArg groupWords g :: (v.map numberArg).toList) [] args
  | .mute none => word = ascii "MUTE" ∧ args = []
  | .mute (some (z, w)) => word = ascii "MUTE" ∧ ArgumentsFor [setArg z, oneOfArg onOffWords w] [] args
  | .play (.request p z r) => word = ascii "PLAY" ∧ ArgumentsFor [numberArg p, setArg z, numberArg r] [] args
  | .play (.read start) =>
    word = ascii "PLAY" ∧ ∃ o : Option Nat, start = o.getD 0 ∧ ArgumentsFor [] [("FROM", o.map NumberFor)] args
  | .hush (.channel n) => word = ascii "HUSH" ∧ ArgumentsFor [numberArg n] [] args
  | .hush .all => word = ascii "HUSH" ∧ ArgumentsFor [wordArg "ALL"] [] args
  | .hush .other =>
    word = ascii "HUSH" ∧ ∃ t, args = [t] ∧ (∀ n v, n ≠ [] → chr '=' ∉ n → t ≠ .plain (n ++ chr '=' :: v)) ∧
      ¬wordArg "ALL" t ∧ ∀ n, ¬numberArg n t
  | .seekAll => word = ascii "SEEKALL" ∧ args = []
  | .admitTerminal i n => word = ascii "ADMIT" ∧ ArgumentsFor [inForm (· = itemText (.identity i)), numberArg n] [] args
  | .retire n => word = ascii "RETIRE" ∧ ArgumentsFor [numberArg n] [] args
  | .terminals start =>
    word = ascii "TERMINALS" ∧ ∃ o : Option Nat, start = o.getD 0 ∧ ArgumentsFor [] [("FROM", o.map NumberFor)] args
  | .classTable t none => word = ascii "CLASS" ∧ ArgumentsFor [oneOfArg selectWords t] [] args
  | .classTable t (some (x, y, z)) =>
    word = ascii "CLASS" ∧ ArgumentsFor [oneOfArg selectWords t, numberArg x, numberArg y, numberArg z] [] args
  | .hold v => word = ascii "HOLD" ∧ ArgumentsFor (v.map (oneOfArg onOffWords)).toList [] args
  | .quiet n => word = ascii "QUIET" ∧ ArgumentsFor [numberArg n] [] args
  | .cancel n => word = ascii "CANCEL" ∧ ArgumentsFor [numberArg n] [] args
  | .text n .read => word = ascii "TEXT" ∧ ArgumentsFor [numberArg n] [] args
  | .text n .empty => word = ascii "TEXT" ∧ ArgumentsFor [numberArg n, wordArg "NONE"] [] args
  | .text n (.write t) => word = ascii "TEXT" ∧ ArgumentsFor [numberArg n, textArg t] [] args
  | .post a =>
    word = ascii "POST" ∧ ∃ o : Option Nat, a.position = o.getD 0 ∧
      ArgumentsFor [numberArg a.slot, numberArg a.cls, numberArg a.textSlot]
        [("POSITION", o.map NumberFor), ("DEADLINE", a.deadline.map TimeFor)] args
  | .broadcast a =>
    word = ascii "BROADCAST" ∧
      ArgumentsFor [setArg a.cohorts, oneOfArg reachWords a.reach, numberArg a.cls, numberArg a.textSlot]
        [("DEADLINE", a.deadline.map TimeFor)] args
  | .notices kind slot start =>
    word = ascii "NOTICES" ∧ ∃ o : Option Nat, start = o.getD 1 ∧
      ArgumentsFor []
        [("KIND", kind.map (WordFor noticeKindWords)), ("SLOT", slot.map NumberFor), ("START", o.map NumberFor)] args
  | .inbox (.summary n) => word = ascii "INBOX" ∧ ArgumentsFor (n.map numberArg).toList [] args
  | .inbox (.text n p) => word = ascii "INBOX" ∧ ArgumentsFor [numberArg n, numberArg p] [] args
  | .discard (.number n) => word = ascii "DISCARD" ∧ ArgumentsFor [numberArg n] [] args
  | .discard .read => word = ascii "DISCARD" ∧ ArgumentsFor [wordArg "READ"] [] args
  | .status n => word = ascii "STATUS" ∧ ArgumentsFor (n.map numberArg).toList [] args
  | .ack n c => word = ascii "ACK" ∧ ArgumentsFor (numberArg n :: (c.map numberArg).toList) [] args
  | .level n none => word = ascii "LEVEL" ∧ ArgumentsFor [numberArg n] [] args
  | .level n (some (l, w)) => word = ascii "LEVEL" ∧ ArgumentsFor [numberArg n, numberArg l, oneOfArg onOffWords w] [] args
  | .floor n => word = ascii "FLOOR" ∧ ArgumentsFor (n.map numberArg).toList [] args
  | .save a => word = ascii "SAVE" ∧ AreasFor a args
  | .load a st => word = ascii "LOAD" ∧ st = strap ∧ AreasFor a args
  | .defaults a st => word = ascii "DEFAULTS" ∧ st = strap ∧ AreasFor a args
  | .setSetting r v st =>
    word = ascii "SET" ∧ st = strap ∧ ∃ x l, v = some x ∧ SettingValueFor r x = some l ∧ ArgumentsFor (SettingFor r ++ l) [] args
  | .getSetting .store st => word = ascii "GET" ∧ st = strap ∧ ArgumentsFor [wordArg "STORE"] [] args
  | .getSetting (.setting r) st => word = ascii "GET" ∧ st = strap ∧ ArgumentsFor (SettingFor r) [] args
  | .restart => word = ascii "RESTART" ∧ args = []
  | _ => False

/-- The words of the catalogue (R192). -/
def catalogueWords : List String :=
  ["ENROL", "AMEND", "WITHDRAW", "PUPIL", "FIND", "MARKS", "MARK", "CENSUS", "AWAY", "UNAWAY", "AWAYS", "ARRIVE", "CLOCK", "DATEPUT",
    "DATEDROP", "DATES", "OPEN", "CLOSE", "CLOSURE", "DAY", "ENTRYPUT", "ENTRYDROP", "BANKCLEAR", "HEADER", "BANK", "ADOPT", "TODAY",
    "PATTERNPUT", "PATTERN", "VOLUME", "MUTE", "PLAY", "HUSH", "SEEKALL", "ADMIT", "RETIRE", "TERMINALS", "CLASS", "HOLD", "QUIET",
    "CANCEL", "TEXT", "POST", "BROADCAST", "NOTICES", "INBOX", "DISCARD", "STATUS", "ACK", "LEVEL", "FLOOR", "SAVE", "LOAD", "DEFAULTS",
    "SET", "GET", "RESTART"]

/-- Every field that its kind requires is given and none that it does not hold (R51, R52). -/
def EntryWhole (e : EntryPutArgs) : Prop :=
  e.amiss = false ∧
    match e.kind with
    | some .chime =>
      e.pattern.isSome ∧ e.zones.isSome ∧ e.priority.isSome ∧ e.cohorts = none ∧ e.grace = none ∧ e.hold = none
    | some .registration => e.cohorts.isSome ∧ e.grace.isSome ∧ e.hold = none
    | some .absenceCut => e.cohorts.isSome ∧ e.grace = none ∧ e.hold = none
    | some .noticeHold => e.hold.isSome ∧ e.cohorts = none ∧ e.grace = none
    | some .noticeDeadline | some .dayClose => e.cohorts = none ∧ e.grace = none ∧ e.hold = none
    | none => False

/-- ENTRYPUT gives the fields of its kind, SET and GET name a setting and a zone, group or input of it, and SET gives a value. The other
lines of these words are taken as the operands of the command show, for the owner to refuse in its order (log 31). -/
def RequestWhole : Instr → Prop
  | .entryPut e => EntryWhole e
  | .setSetting r v _ => SettingNamed r ∧ v.isSome
  | .getSetting (.setting r) _ => SettingNamed r
  | _ => True

end Sys2Proof.Machine
end

