-- ==== Sys2Proof/Certificates/Slice0/Obligations.lean ====
section
/-! DEFINITION. The statements about the model, in the order of the spec's files. A request's statement gives the state `u` its
owner leaves; where the Notice Dispatcher acts on the change in the same step, the next state is `settle u`, and
`DispatchTouchesOnlyItsOwn` says what that part may change. -/

open Sys2Proof Sys2Proof.Machine

/-! ### The machine -/

/-- A step takes the command at the front of the queue and runs it on the state with the queue's rest; on an empty queue the block
idles (log 4, the model's choice). -/
def Obligations.StepRunsTheFrontCommand : Prop :=
  (∀ (c : Instr) (rest : List Instr) (s : State),
     step { s with pending := c :: rest } = exec c { s with pending := rest }) ∧
  (∀ s : State, s.pending = [] → step s = .next s)

/-- Every command gives a next state, whatever its operands and the state, and leaves the queue of those that wait as it is. -/
def Obligations.CommandsAnswerANextState : Prop :=
  ∀ (c : Instr) (s : State), ∃ t, exec c s = .next t ∧ t.pending = s.pending

/-- A refused request leaves every block as it was: the reply is all it leaves (R193). That SET, GET, LOAD and DEFAULTS carry the level of
INSTALL as they read it, and leave it in the pins also where they are refused (`strapRead`), is the model's choice (log 7). -/
def Obligations.RefusedRequestsChangeNothing : Prop :=
  ∀ (c : Instr) (s t : State) (r : Reason), (requestEffect c).isSome = true → s.power.held = false →
    exec c s = .next t → t.office.result = some (.refused r) → t = replied (.refused r) (strapRead c s)

/-- The state after reset has every relation that a step keeps: `RollOk`, `CopiesOk`, `KeysOk`, `AttentionOk`, `OfficeOk`, `ZonesOwned`,
`TablesOk`, `PendingOk` and `QueueOk`; and its queue of commands is empty. -/
def Obligations.ResetStateIsSound : Prop :=
  RollOk State.reset ∧ CopiesOk State.reset ∧ KeysOk State.reset ∧ AttentionOk State.reset ∧ OfficeOk State.reset ∧
    ZonesOwned State.reset ∧ TablesOk State.reset ∧ PendingOk State.reset ∧ QueueOk State.reset ∧ State.reset.pending = []

/-- What the emptied Send Window leaves of a notice (R176): a pupil notice with a send returns to WAITING, or leaves with
cancel-on-result; a broadcast that goes on has each of its steps back, in the window's order (log 47). -/
def givenBack (window : List Send) (n : Notice) : Option Notice :=
  match window.filter (·.key.number = n.number), n.addressee with
  | [], _ => some n
  | _ :: _, .pupil _ _ => if n.cancel then none else some { n with inWindow := false }
  | x :: more, .broadcast b =>
    some
      (if n.cancel = true ∨ b.expired = true then n
      else
        { n with
          addressee :=
            .broadcast { b with returned := b.returned ++ (x :: more).map fun y => (y.key.slot, y.key.position) } })

/-- While the part is held nothing but the clock's count, the two starts and the loss of the backup domain acts; RESTART is taken
and marks that the part is held once its reply has gone; a lost backup domain leaves the stored copies alone (R206). That every
other command acts on nothing while held is the model's choice (log 18), as is RESTART's mark, with the hold and the warm start as
steps of their own (log 35), and what a lost domain leaves (log 17).
A warm start keeps what the backup domain held and drops the work under way. In `w`, before the Day Controller acts, whatever the day's
state: the four channels are IDLE, the Bell Wait List is empty, the last-outcome records and the awake-since times are absent, and the mutes
are kept (R84, R98); bells that waited or played end DROPPED or CUT_SHORT with BELL once each (R68), the Send Window is emptied (R176), a
quiet window whose end is not ahead ends (R158), every terminal is kept with count 0, a SILENT one ACTIVE, its hold empty (R100, R117); the
line's job is dropped (R123). In `v`, after it: a
CLOSED day stands; a day of another date closes (R35) and its Sweep List is empty (R148); an OPENING sweep starts again at slot 0
(R35); an OPEN day's head sweep starts again (R148) and its plan is evaluated (R62). Then automatic opening and Dispatcher act.
This order of effects is the model's choice (log 36), and so is that a broadcast's steps come back oldest send first (log 47). In both
starts the pins are as the start's operand gives them, and the latches take its levels: that the inputs are an operand, kept in a field, is
the model's choice (log 7). The line is free after either start, its job and phase the model's form of R111's free line (log 13); what it
keeps of the bytes last sent, as of the port's last result, is a field the model adds (log 6).
A cold start gives every block the values the rules give (R1, R22, R27, R35, R46, R56, R84, R87, R91, R98, R100, R148, R176, R177, R191): a
CLOSED day without date, bank, opening time, closure and close cause, each cohort BEFORE_REGISTRATION, channels IDLE, mutes clear, both
last-outcome records absent, an empty queue and window. Each of the nine areas is its good stored copy or its default, with STORE raised
once for each bad one, the last its subject (R200, R207); every other source is clear but CLOCK, flagged once, and ATTN is active where the
floor is in its range (R194). The opening-sweep cursor of the CLOSED day is 0 (log 6) and no press has been counted (log 20): the model's
choices.
That the starts and the loss of the backup domain act on nothing where the part is not held, and a start on nothing where the retention
mark calls for the other, is the model's choice (log 17, log 18). -/
def Obligations.HoldAndStartsActAsStated : Prop :=
  (∀ (c : Instr) (s : State), s.power.held = true →
     c ≠ .secondAdvance → (∀ p, c ≠ .coldStart p) → (∀ p, c ≠ .warmStart p) → c ≠ .backupDomainLost →
     exec c s = .next s) ∧
  (∀ s : State,
     (s.power.held = false → exec .restart s = .next (replied (.ok []) { s with office := { s.office with restart := true } })) ∧
     exec .holdBegins s = .next { s with power := { s.power with held := true } } ∧
     (s.power.held = false → exec .backupDomainLost s = .next s) ∧
     (∀ pins,
       (s.power.held = false ∨ s.power.retention = true → exec (.coldStart pins) s = .next s) ∧
       (s.power.held = false ∨ s.power.retention = false → exec (.warmStart pins) s = .next s)) ∧
     (s.power.held = true →
       ∃ t, exec .backupDomainLost s = .next t ∧ t.power = { s.power with retention := false } ∧
         t.store = { s.store with operation := none, lastOperation := none } ∧ t.pins = s.pins)) ∧
  (∀ (pins : Pins) (s : State), s.power.held = true → s.power.retention = true →
     ∃ w v t, exec (.warmStart pins) s = .next t ∧ t = settle (autoOpen v) ∧
       w.day = s.day ∧ w.roll = s.roll ∧ w.sweep.list = s.sweep.list ∧
       w.plan =
         { s.plan with
           today :=
             { s.plan.today with
               entries :=
                 s.plan.today.entries.map fun e =>
                   { e with
                     outcome :=
                       match e.outcome with
                       | .waiting => .dropped
                       | .playing => .cutShort
                       | o => o } } } ∧
       (AttentionOk s →
         (sourceAt 4 w).count =
           min
             ((sourceAt 4 s).count + s.plan.today.entries.countP fun e => e.outcome = .waiting ∨ e.outcome = .playing) 255) ∧
       w.chime =
         { s.chime with channels := List.replicate 4 .idle, waits := [], lastOffice := none, lastButton := none } ∧
       w.zone = ⟨s.zone.mutes, ⟨none, none⟩, ⟨pins.qa, pins.qb⟩, pins.bell, s.zone.press⟩ ∧
       w.notices.window = [] ∧ w.notices.quietEnd = s.notices.quietEnd.filter (s.time.school < ·) ∧
       w.notices.deadline = s.notices.deadline ∧
       ((s.notices.queue.map (·.number)).Nodup →
         w.notices.queue = s.notices.queue.filterMap (givenBack s.notices.window)) ∧
       w.line.table =
         s.line.table.map
           (·.map fun x =>
             { x with
               state := if x.state = .silent then .active else x.state, missed := 0, lastHeard := s.time.running, hold := [] }) ∧
       (s.day.state = .closed → v = w) ∧
       (s.day.state ≠ .closed → s.day.date ≠ some s.time.date →
         v = closeDayNow .dateChange w ∧ v.day.state = .closed ∧ v.day.closeCause = some .dateChange ∧
           v.sweep = ⟨[], none, .idle⟩) ∧
       (s.day.state = .opening → s.day.date = some s.time.date → v = { w with day := { w.day with cursor := 0 } }) ∧
       (s.day.state = .open_ → s.day.date = some s.time.date →
         v =
           evaluatePlan
             { w with
               sweep := if s.sweep.list = [] then w.sweep else { w.sweep with cursor := some 0, state := .running } }) ∧
       t.power = ⟨false, true, .warm⟩ ∧ t.pins = pins ∧
       t.time = { s.time with minutePulseLatch := pins.minutePulse } ∧ t.settings = s.settings ∧ t.limits = s.limits ∧
       t.plan.banks = s.plan.banks ∧ t.chime.patterns = s.chime.patterns ∧ t.zone.mutes = s.zone.mutes ∧
       t.zone.quietLatch = ⟨pins.qa, pins.qb⟩ ∧ t.zone.buttonLatch = pins.bell ∧
       t.office = .start ∧ t.line.job = .idle ∧ t.line.phase = .free ∧ t.line.enumerationPending = false ∧
       t.gateway.link = .up ∧ t.gateway.timeouts = 0 ∧ t.gateway.inbox = s.gateway.inbox ∧ t.gateway.frame = none ∧
       t.notices.globalHold = s.notices.globalHold ∧ t.notices.busyEnd = none ∧ t.notices.texts = s.notices.texts ∧
       t.store.stored = s.store.stored ∧ t.store.fingerprints = s.store.fingerprints ∧ t.store.operation = none ∧
       (s.store.operation = none → t.store.lastOperation = s.store.lastOperation) ∧
       (∀ o a rest, s.store.operation = some o → o.rest = a :: rest →
         t.store.lastOperation =
           some
             ⟨o.kind, o.ended ++ (a, .abandoned) :: rest.map (fun b => (b, .notReached)), o.start, s.time.school⟩ ∧
         (s.attention.length = 14 → sourceAt 12 t = (sourceAt 12 s).raised (some (.area a)))) ∧
       (s.day.state = .closed → t.chime.channels = List.replicate 4 .idle ∧ t.chime.waits = [])) ∧
  (∀ (pins : Pins) (s : State), s.power.held = true → s.power.retention = false →
     let good := s.store.good
     let bad := allAreas.filter fun a => !s.store.isGood a
     let roster := freshRoster (good.roster.getD [])
     ∃ t, exec (.coldStart pins) s = .next t ∧
       t.time = ⟨0, 0, false, pins.minutePulse, 0⟩ ∧
       t.day =
         ⟨.closed, none, none, none, 0, false, none, none, good.calendar.getD [],
           List.replicate 8 ⟨.beforeRegistration, none, 0, none⟩⟩ ∧
       t.plan = ⟨good.plans.getD (List.replicate 4 .empty), ⟨none, none, 0, []⟩⟩ ∧
       t.roll = ⟨roster, censusOf roster, good.away.getD []⟩ ∧ t.sweep = ⟨[], none, .idle⟩ ∧
       t.chime = ⟨good.patterns.getD defaultPatterns, List.replicate 4 .idle, [], none, none⟩ ∧
       t.zone = ⟨List.replicate 6 false, ⟨none, none⟩, ⟨pins.qa, pins.qb⟩, pins.bell, 0⟩ ∧
       t.line = { EntranceLine.cold with table := t.line.table } ∧ t.line.table.length = 8 ∧
       (∀ n < 8, terminalAt n t =
         ((good.terminals.getD []).find? (·.entry = n)).map fun x => .new x.identity x.entrance .active 0) ∧
       t.notices = ⟨[], [], 0, false, none, none, none, none, good.texts.getD (List.replicate 16 [])⟩ ∧
       t.gateway = ⟨.up, 0, 0, none, 0, none, [], [], 0, false⟩ ∧ t.office = .start ∧
       t.settings = good.settings.getD .default ∧ t.limits = good.limits.getD .default ∧
       t.store = { s.store with operation := none, lastOperation := none } ∧ t.power = ⟨false, true, .cold⟩ ∧ t.pins = pins ∧
       t.pending = s.pending ∧
       sourceAt 0 t = ⟨bad ≠ [], bad.length, bad.getLast?.map .area⟩ ∧ sourceAt 1 t = ⟨true, 1, none⟩ ∧
       (∀ n, 2 ≤ n → n < 14 → sourceAt n t = .clear) ∧ (t.settings.floor ≤ 7 → attnActive t = true))

/-! ### The roll -/

/-- The Roll Unit's relations are kept by every step: the Roster Table's form and every census count equal to a count of the
pupils (R1, R2, R18), with the same form of the copies of ROSTER that a LOAD or a cold start puts in force (R200, R202). So is that no two
ENROLLED records hold one card key or one pupil reference (R2). -/
def Obligations.CensusFollowsTheRoll : Prop :=
  (∀ s t : State, RollOk s → CopiesOk s → step s = .next t → RollOk t ∧ CopiesOk t) ∧
  ∀ s t : State, RollOk s → CopiesOk s → KeysOk s → step s = .next t → KeysOk t

/-- ENROL and AMEND are refused as their checks say, in their order, with DUPLICATE where another record has the card key or the pupil
reference (R2, R7, R8, R193). ENROL creates the record in the named slot, or else in the lowest slot not in use, and counts it UNSEEN
(R7). AMEND replaces every given field of the enrolment part and touches no day part; a change of cohort moves the pupil's census count
(R8). -/
def Obligations.EnrolAndAmendWriteTheRecord : Prop :=
  (∀ (s : State), s.power.held = false →
     (∀ a, RefusedByItsChecks (.enrol a) s) ∧ ∀ a, RefusedByItsChecks (.amend a) s) ∧
  (∀ (a : EnrolArgs) (slot : Slot) (s : State),
     s.power.held = false → RollOk s → Passes (.enrol a) s →
     (a.slot = some slot ∨ a.slot = none ∧ slot < 2048 ∧ ¬SlotUsed slot s ∧ ∀ k < slot, SlotUsed k s) →
     ∃ u, exec (.enrol a) s = .next (replied (.ok [.num slot]) (settle u)) ∧
       u = { s with roll := u.roll } ∧ u.roll.away = s.roll.away ∧ OthersKept slot s u ∧
       pupilAt slot u =
         some ⟨⟨a.card, a.reference, a.cohort, a.form, a.contacts, a.permit, (a.office.getD none).getD false⟩, .fresh⟩ ∧
       CensusMoved none (some (a.cohort, .unseen)) s u) ∧
  (∀ (a : AmendArgs) (p : Pupil) (s : State),
     s.power.held = false → RollOk s → Passes (.amend a) s → pupilAt a.slot s = some p →
     ∃ u e, exec (.amend a) s = .next (replied (.ok []) (settle u)) ∧
       u = { s with roll := u.roll } ∧ u.roll.away = s.roll.away ∧ OthersKept a.slot s u ∧
       pupilAt a.slot u = some ⟨e, p.day⟩ ∧ e.card = a.card.getD p.enrolment.card ∧
       e.reference = a.reference.getD p.enrolment.reference ∧ e.cohort = a.cohort.getD p.enrolment.cohort ∧
       e.form = a.form.getD p.enrolment.form ∧ e.contacts = a.contacts.getD p.enrolment.contacts ∧
       e.permit = a.permit.getD p.enrolment.permit ∧ e.office = (a.office.getD none).getD p.enrolment.office ∧
       CensusMoved (some (p.enrolment.cohort, p.day.mark)) (some (e.cohort, p.day.mark)) s u)

/-- A notice as the withdrawal of a pupil leaves it: a broadcast drops the returned steps that name the slot (R9). -/
def withoutReturned (slot : Slot) (n : Notice) : Notice :=
  match n.addressee with
  | .pupil _ _ => n
  | .broadcast b => { n with addressee := .broadcast { b with returned := b.returned.filter (·.1 ≠ slot) } }

/-- WITHDRAW empties the slot, takes its pupil from the census, removes its Away entries, withdraws the notices addressed to
it, a WAITING one at once and an IN_WINDOW one by cancel-on-result (R168), and drops the returned broadcast steps that name it; every
other notice and broadcast is as it was, and a PAUSED sweep is RUNNING where a notice left the queue (R9, R145). It is refused as its
checks say (R9, R193; that the slot's range comes first is the model's reading, log 31). -/
def Obligations.WithdrawEmptiesTheSlot : Prop :=
  (∀ (slot : Slot) (s : State), s.power.held = false → RefusedByItsChecks (.withdraw slot) s) ∧
  ∀ (slot : Slot) (p : Pupil) (s : State),
    s.power.held = false → RollOk s → saveHolds .roster s = false → saveHolds .away s = false → pupilAt slot s = some p →
    ∃ u q, exec (.withdraw slot) s = .next (replied (.ok []) (settle u)) ∧
      u =
        { s with
          roll := u.roll
          notices := { s.notices with queue := q.map (withoutReturned slot) }
          sweep := u.sweep } ∧
      SweepHeard (NoticeLeft s u) s u ∧
      Withdrawn (·.isTo slot) s.notices.queue q ∧
      pupilAt slot u = none ∧ OthersKept slot s u ∧ CensusMoved (some (p.enrolment.cohort, p.day.mark)) none s u ∧
      u.roll.away = s.roll.away.filter (fun e => e.slot ≠ slot)

/-- MARK to UNSEEN, EXCUSED or EXPECTED replaces the mark with source OFFICE, removes the arrival's fields, sets reason and back time
from the request, sets disputed and raises DISPUTE when it overrules a tap, and withdraws the pupil's ABSENT notice from ABSENT_PENDING
(R13, R14); a PAUSED sweep is RUNNING where the notice left the queue (R145). MARK to SIGNED_OUT holds the present arrival mark and
keeps the arrival's time, terminal, reason and back time (R16); another mark refuses it with WRONG_STATE (R13). It is refused as its
checks say (R13, R193; that the slot's range comes first is the model's reading, log 31). -/
def Obligations.MarkReplacesTheMark : Prop :=
  (∀ (a : MarkArgs) (s : State), s.power.held = false → RefusedByItsChecks (.mark a) s) ∧
  (∀ (a : MarkArgs) (m : Mark) (p : Pupil) (s : State),
     s.power.held = false → RollOk s → s.day.state = .open_ → MarkAllowed a → a.target = some m → m ≠ .signedOut →
     pupilAt a.slot s = some p →
     ∃ u, exec (.mark a) s = .next (replied (.ok [.word (markWord m)]) (settle u)) ∧
       u = { s with roll := u.roll, notices := { s.notices with queue := u.notices.queue }, sweep := u.sweep,
                    attention := u.attention } ∧
       SweepHeard (NoticeLeft s u) s u ∧ u.roll.away = s.roll.away ∧ OthersKept a.slot s u ∧
       pupilAt a.slot u =
         some ⟨p.enrolment,
           { mark := m, source := some .office, arrival := none, terminal := none, reason := a.reason.getD none,
             back := a.back, asked := p.day.asked, heldMark := none,
             disputed := p.day.disputed || (isArrivalMark p.day.mark && p.day.source = some .tap) }⟩ ∧
       CensusMoved (some (p.enrolment.cohort, p.day.mark)) (some (p.enrolment.cohort, m)) s u ∧
       u.attention =
         (if isArrivalMark p.day.mark = true ∧ p.day.source = some .tap then
           (raise .dispute (some (.slot a.slot)) s).attention else s.attention) ∧
       (if p.day.mark = .absentPending then Withdrawn (·.isAbsentOf a.slot) s.notices.queue u.notices.queue
         else u.notices.queue = s.notices.queue)) ∧
  (∀ (a : MarkArgs) (p : Pupil) (s : State),
     s.power.held = false → RollOk s → s.day.state = .open_ → MarkAllowed a → a.target = some .signedOut →
     pupilAt a.slot s = some p →
     if p.day.mark = .present ∨ p.day.mark = .late ∨ p.day.mark = .lateAfterCut ∨ p.day.mark = .arrivedExcused then
       ∃ u, exec (.mark a) s = .next (replied (.ok [.word "SIGNED_OUT"]) (settle u)) ∧
         u = { s with roll := u.roll } ∧ u.roll.away = s.roll.away ∧ OthersKept a.slot s u ∧
         pupilAt a.slot u =
           some ⟨p.enrolment,
             { p.day with mark := .signedOut, source := some .office, heldMark := some p.day.mark }⟩ ∧
         CensusMoved (some (p.enrolment.cohort, p.day.mark)) (some (p.enrolment.cohort, .signedOut)) s u
     else exec (.mark a) s = .next (replied (.refused .wrongState) s))

/-- PUPIL answers EMPTY, with IN_USE while a notice or send is addressed to the slot, or the record's fields (R10). FIND by card or
by reference answers the slot that holds the key; FIND by contact answers how many records hold the contact, then the slot and list
position of up to 16 of them from the start slot on (R11). CENSUS of one cohort answers its eleven counts, their sum and its disputed
pupils; CENSUS ALL answers the same for the eight cohorts in order, from the item asked for, as many as fit (R19, R192), numbered as
the model chooses (log 10, log 39). The eleven counts sum to the enrolled pupils of the cohort (R18). The reading requests that page
their result answer entries in order from the start asked for, as many as their rule allows and fit in the line, then what names the
first left out, or END (R192): MARKS (R12), AWAYS (R26), DATES (R34), BANK (R55), TODAY (R71). That a page takes every entry that
fits is the model's reading (log 11), as are the names of the values (log 8) and how a head is cut that is longer than a line (log 45).
Nothing changes. Each is refused as its checks say, with NO_SUCH where FIND meets no record with the key (R11, R12, R19, R55, R71, R193;
log 31). -/
def Obligations.RollAndPlanReadsChangeNothing : Prop :=
  (∀ (s : State), s.power.held = false →
     (∀ slot, RefusedByItsChecks (.pupil slot) s) ∧ (∀ q, RefusedByItsChecks (.find q) s) ∧
     (∀ a, RefusedByItsChecks (.marks a) s) ∧ (∀ c start, RefusedByItsChecks (.census c start) s) ∧
     (∀ slot start, RefusedByItsChecks (.aways slot start) s) ∧ (∀ start, RefusedByItsChecks (.dates start) s) ∧
     (∀ bank start, RefusedByItsChecks (.bank bank start) s) ∧ ∀ start, RefusedByItsChecks (.today start) s) ∧
  (∀ (slot : Slot) (s : State), s.power.held = false → RollOk s → slot < 2048 →
     (pupilAt slot s = none →
       exec (.pupil slot) s =
         .next (replied (.ok (.word "EMPTY" :: if slotAddressed slot s then [.word "IN_USE"] else [])) s)) ∧
     (∀ p, pupilAt slot s = some p →
       exec (.pupil slot) s = .next (replied (.ok (pupilItems p)) s) ∧
       ((∀ k q, k ≠ slot → pupilAt k s = some q → q.enrolment.card ≠ p.enrolment.card) → cardOk p.enrolment.card = true →
         exec (.find (.card p.enrolment.card)) s = .next (replied (.ok [.num slot]) s)) ∧
       ((∀ k q, k ≠ slot → pupilAt k s = some q → q.enrolment.reference ≠ p.enrolment.reference) →
         referenceOk p.enrolment.reference = true →
         exec (.find (.reference p.enrolment.reference)) s = .next (replied (.ok [.num slot]) s)))) ∧
  (∀ (id : Nat) (start : Slot) (s : State), s.power.held = false → RollOk s → 1 ≤ id → id ≤ 65535 → start < 2048 →
     ∃ all : List (Slot × Nat),
       exec (.find (.contact id start)) s =
         .next
           (replied
             (.ok (.num all.length :: ((all.filter (start ≤ ·.1)).take 16).flatMap fun r => [.num r.1, .num r.2])) s) ∧
       (all.map Prod.fst).Pairwise (· < ·) ∧
       ∀ k i, (k, i) ∈ all ↔
         ∃ p, pupilAt k s = some p ∧ (∃ c, p.enrolment.contacts[i]? = some c ∧ c.id = id) ∧
           ∀ j < i, ∀ c, p.enrolment.contacts[j]? = some c → c.id ≠ id) ∧
  (∀ (c : Nat) (s : State), s.power.held = false → RollOk s → c < 8 →
     fits (censusItems c s) = true →
     exec (.census (some c) 0) s =
       .next
         (replied
           (.ok
             (.num c :: (s.roll.census.getD c []).map .num ++
               [.num (s.roll.roster.countP fun e => e.2.enrolment.cohort = c),
                 .num (s.roll.roster.countP fun e => e.2.enrolment.cohort = c && e.2.day.disputed)]))
           s)) ∧
  (∀ (start : Nat) (s : State), s.power.held = false → RollOk s →
     ∃ items, exec (.census none start) s = .next (replied (.ok items) s) ∧
       MoreOf start
         ((List.range 8).map fun c =>
           .num c :: (s.roll.census.getD c []).map .num ++
             [.num (s.roll.roster.countP fun e => e.2.enrolment.cohort = c),
               .num (s.roll.roster.countP fun e => e.2.enrolment.cohort = c && e.2.day.disputed)])
         items) ∧
  (∀ (s : State) (c : Nat), RollOk s →
     (s.roll.census.getD c []).sum = s.roll.roster.countP fun e => e.2.enrolment.cohort = c) ∧
  (∀ (s : State), s.power.held = false →
     (∀ a : MarksArgs, a.cohort < 8 → optOk Option.isSome a.mark = true → optOk formOk a.form = true →
       a.disputed ≠ some false → a.start < 2048 →
       ∃ items, exec (.marks a) s = .next (replied (.ok items) s) ∧
         PageOf 16 [] marksEntry (nextNumber Prod.fst) (s.roll.roster.filter (marksSelect a)) items) ∧
     (∀ (slot : Option Slot) (start : Option Date), optOk slotOk slot = true → optOk dateOk start = true →
       ∃ items, exec (.aways slot start) s = .next (replied (.ok items) s) ∧
         PageOf 12 [] awayItems nextAway
           (s.roll.away.filter fun e => start.getD s.time.date ≤ e.last && slot.all (· = e.slot)) items) ∧
     ∀ start : Option Date, optOk dateOk start = true →
       ∃ items, exec (.dates start) s = .next (replied (.ok items) s) ∧
         PageOf 16 [] (fun e => .date e.1 :: dayTypeItems e.2) nextDate
           (s.day.calendar.filter fun e => start.getD s.time.date ≤ e.1) items) ∧
  (∀ (start : Nat) (s : State), s.power.held = false → start < 96 →
     (∀ bank < 4, ∃ items, exec (.bank bank start) s = .next (replied (.ok items) s) ∧
       PageOf 8 [] (fun e => entryItems e.2 e.1) (nextNumber Prod.snd) ((bankAt bank s).entries.zipIdx.drop start) items) ∧
     ∃ items, exec (.today start) s = .next (replied (.ok items) s) ∧
       PageOf 8 (todayHead s) planItems (nextNumber Prod.snd) (s.plan.today.entries.zipIdx.drop start) items)

/-- AWAY adds an OFFICE entry in the list's order; while the day is OPEN, or OPENING with the slot already passed by the opening sweep,
and the range covers today, a pupil not yet accounted for becomes EXCUSED with source AWAY and the entry's reason, and the ABSENT
notice of one that leaves ABSENT_PENDING is withdrawn (R6, R23, R24), a PAUSED sweep RUNNING where it left the queue (R145). UNAWAY
removes the entry that begins on the date and changes no mark (R26). Both are refused as their checks say (R23, R26, R193; that the
slot's range, and UNAWAY's date, come first is the model's reading, log 31). -/
def Obligations.AwayListIsEdited : Prop :=
  (∀ (s : State), s.power.held = false →
     (∀ slot first last reason, RefusedByItsChecks (.away slot first last reason) s) ∧
     ∀ slot first, RefusedByItsChecks (.unaway slot first) s) ∧
  (∀ (slot : Slot) (first last : Date) (reason : ExcuseReason) (p : Pupil) (s : State),
     s.power.held = false → RollOk s → saveHolds .away s = false → s.time.valid = true → slot < 2048 →
     first ≤ last → last < 36525 → s.time.date ≤ last → reason ≠ .closure → pupilAt slot s = some p →
     (∀ e ∈ s.roll.away, e.slot = slot → e.last < first ∨ last < e.first) → s.roll.away.length < 256 →
     ∃ u, exec (.away slot first last (some reason)) s = .next (replied (.ok []) (settle u)) ∧
       u = { s with roll := u.roll, notices := { s.notices with queue := u.notices.queue }, sweep := u.sweep } ∧
       SweepHeard (NoticeLeft s u) s u ∧
       (∃ l r, s.roll.away = l ++ r ∧ u.roll.away = l ++ ⟨slot, first, last, reason, .office⟩ :: r ∧
         (∀ e ∈ l, e.first < first ∨ e.first = first ∧ e.slot ≤ slot) ∧
         (∀ e, r.head? = some e → ¬(e.first < first ∨ e.first = first ∧ e.slot ≤ slot))) ∧
       OthersKept slot s u ∧
       Withdrawn (leftPending s u) s.notices.queue u.notices.queue ∧
       pupilAt slot u =
         some
           (if (s.day.state = .open_ ∨ s.day.state = .opening ∧ slot < s.day.cursor) ∧ first ≤ today s ∧ today s ≤ last ∧
               isUnaccountedMark p.day.mark = true then
             ⟨p.enrolment, { p.day with mark := .excused, source := some .away, reason := some reason, back := none }⟩
           else p)) ∧
  (∀ (e : AwayEntry) (s : State), s.power.held = false → saveHolds .away s = false → e ∈ s.roll.away → e.slot < 2048 →
     e.first < 36525 →
     exec (.unaway e.slot e.first) s =
       .next
         (replied (.ok [])
           { s with
             roll := { s.roll with away := s.roll.away.filter fun x => !(x.slot = e.slot && x.first = e.first) } }))

/-! ### The school day -/

/-- The day closed (R41): sweeps abandoned with their cohorts CUT_DONE (R147), day-kind notices withdrawn, every ABSENT_PENDING pupil
ABSENT_UNREACHED with UNREACHED raised once for each in slot order (log 43), DAY raised; nothing else changed. -/
def DayClosed (cause : CloseCause) (s u : State) : Prop :=
  u =
    { s with
      day := { s.day with state := .closed, closeCause := some cause, cohorts := u.day.cohorts }
      sweep := ⟨[], none, .idle⟩
      roll := { s.roll with roster := u.roll.roster, census := u.roll.census }
      notices := { s.notices with queue := u.notices.queue }
      attention := u.attention } ∧
  Withdrawn (fun n => n.kind = .absent || n.kind = .late || n.kind = .arrived) s.notices.queue u.notices.queue ∧
  (∀ c < 8, (∃ w ∈ s.sweep.list, w.cohort = c) →
    u.day.cohorts[c]? = (s.day.cohorts[c]?).map fun x => { x with phase := .cutDone }) ∧
  (∀ c < 8, (¬∃ w ∈ s.sweep.list, w.cohort = c) → u.day.cohorts[c]? = s.day.cohorts[c]?) ∧
  (∀ k, pupilAt k u =
    (pupilAt k s).map fun p =>
      if p.day.mark = .absentPending then
        { p with day := { p.day with mark := .absentUnreached, source := some .notice } }
      else p) ∧
  (s.attention.length = 14 →
    sourceAt 2 u = (sourceAt 2 s).raised none ∧
    sourceAt 7 u =
      (s.roll.roster.filter fun e => e.2.day.mark = .absentPending).foldl (fun x e => x.raised (some (.slot e.1)))
        (sourceAt 7 s)) ∧
  ∀ n, n ≠ 2 → n ≠ 7 → sourceAt n u = sourceAt n s

/-- What a SET CLOCK, a snap or a rollover leaves once it is handed on (R32), with the new time and date in `c`: on another date than
the day's an OPEN or OPENING day closes; on the same date an OPEN day's plan is evaluated after a forward jump, and the opening time
falls to a new time that is earlier. -/
def HandedOn (old c u : State) : Prop :=
  if c.day.state = .closed then u = c
  else if c.day.date ≠ some c.time.date then DayClosed .dateChange c u
  else if c.day.state = .open_ ∧ old.time.school < c.time.school then u = evaluatePlan c
  else if c.day.state = .open_ ∧ c.time.school < old.time.school then
    u = { c with day := { c.day with openingTime := c.day.openingTime.map (min c.time.school) } }
  else u = c

/-- The quiet window's end after a change of school time (R158): absent after a change of date and once the end is reached. -/
def quietAfter (old u : State) : Option SchoolTime :=
  if u.time.date ≠ old.time.date then none
  else if u.time.school ≠ old.time.school then u.notices.quietEnd.filter (u.time.school < ·)
  else u.notices.quietEnd

/-- What a change of school time brings after the plan entries it reached (R36, R110, R111, R158, R166, R167): the quiet window ends,
the Dispatcher tests the deadlines and makes the choice, the day begins opening where the six conditions hold, a display-clock broadcast
is due in a new minute of a valid clock, and a free line takes the next job (log 3). -/
def timePassed (old u : State) : State :=
  let v := autoOpen (settle { u with notices := { u.notices with quietEnd := quietAfter old u } })
  let newMinute := u.time.school / 60 ≠ old.time.school / 60 ∨ u.time.date ≠ old.time.date
  chooseIfFree (if newMinute ∧ u.time.valid = true then { v with line := { v.line with clockDue := true } } else v)

/-- The date one day later with school time 0; past 2099-12-31 the date 2000-01-01, the clock invalid and CLOCK raised (R31). -/
def nextDay (s : State) : State :=
  if s.time.date + 1 < 36525 then { s with time := { s.time with school := 0, date := s.time.date + 1 } }
  else
    { s with time := { s.time with school := 0, date := 0, valid := false }, attention := (raise .clock none s).attention }

/-- What a rising edge of the minute pulse leaves (R30, R32): with the setting ON and the clock valid, and away from a whole minute, school
time goes back to the start of the minute for seconds 0–29 and forward to the next for 30–59, past 23:59:59 as a rollover (R31), and the
change is handed on; else nothing changes. -/
def Snapped (s t : State) : Prop :=
  let minute := s.time.school - s.time.school % 60
  let c :=
    if s.time.school % 60 < 30 then { s with time := { s.time with school := minute } }
    else if minute + 60 < 86400 then { s with time := { s.time with school := minute + 60 } }
    else nextDay s
  (s.settings.minutePulse = false ∨ s.time.valid = false ∨ s.time.school % 60 = 0 → t = s) ∧
  (s.settings.minutePulse = true → s.time.valid = true → s.time.school % 60 ≠ 0 → RollOk s →
    ∃ u, HandedOn s c u ∧ t = timePassed s u)

/-- SET CLOCK: school time takes the given time, the date the given date or its own, the flag is set (R29). A new date closes an
OPEN or OPENING day with cause DATE_CHANGE and empties the Sweep List (R32, R41); the automatic-opening rule, evaluated after the
change, then begins the new date's day where its conditions hold, and the day stays CLOSED where they do not (R32, R36), in the
same step (the model's choice, log 3). On an OPEN day and the same date an earlier time changes no plan entry and lowers the
opening time to it (R32). The whole change is `HandedOn` and then `timePassed`, with a display-clock broadcast due (R110). It is refused
with BAD_VALUE for a time or date that does not exist, or without a date while the clock is invalid (R29). -/
def Obligations.SetClockWritesTheTimeBase : Prop :=
  (∀ (time : SchoolTime) (date : Option Date) (s : State),
    s.power.held = false → RefusedByItsChecks (.setClock time date) s) ∧
  ∀ (time : SchoolTime) (date : Option Date) (s : State),
    s.power.held = false → time < 86400 → (∀ d, date = some d → d < 36525) → (date = none → s.time.valid = true) →
    let d := date.getD s.time.date
    ∃ u, exec (.setClock time date) s = .next (replied (.ok (clockItems u)) u) ∧
      u.time = { s.time with school := time, date := d, valid := true } ∧
      (s.day.state ≠ .closed → s.day.date ≠ some d →
        u.day.closeCause = some .dateChange ∧ u.sweep = ⟨[], none, .idle⟩ ∧
        (∀ bank, dayTypeOf d s = .school bank → s.settings.dayOpen ≤ time → rollLoadUnderWay s = false →
          u.day.state = .opening ∧ u.day.date = some d ∧ u.day.bank = some bank) ∧
        (dayTypeOf d s = .closed ∨ time < s.settings.dayOpen ∨ rollLoadUnderWay s = true →
          u.day.state = .closed ∧ u.day.date = s.day.date)) ∧
      (s.day.state = .open_ → s.day.date = some (date.getD s.time.date) → time < s.time.school →
        u.plan = s.plan ∧ u.day = { s.day with openingTime := s.day.openingTime.map (min time) }) ∧
      (RollOk s →
        ∃ h, HandedOn s { s with time := { s.time with school := time, date := d, valid := true } } h ∧
          u = timePassed s { h with line := { h.line with clockDue := true } }) ∧
      u.office = s.office ∧ u.settings = s.settings ∧ u.limits = s.limits ∧ u.store = s.store ∧ u.zone.mutes = s.zone.mutes

/-- School time advances by one each second; from 86,399 it becomes 0 and the date advances, past 2099-12-31 to 2000-01-01 with
the clock made invalid (R27, R31). In the same step the AHEAD entries of the new second are taken on time (R58), a rollover closes an
OPEN or OPENING day with cause DATE_CHANGE (R31, R32), and then follows what each change of school time brings (R36, R110, R158, R166,
R167): that all this stands in the step is the model's choice (log 3). While the part is held the Time Base counts so too, and a quiet
window ends, and nothing else happens (R158, R206; log 18). Running time goes to the next whole second of its count, wherever a timed
event has moved it within the second: that clause is the model's choice (log 2). A rising edge of the minute pulse, with the setting ON
and the clock valid, snaps school time to the nearest whole minute: back for seconds 0–29, forward for 30–59, and the change is handed
on as SET CLOCK's is; the latch takes the level (R30, R32). -/
def Obligations.TheTimeBaseCounts : Prop :=
  (∀ s : State, s.power.held = false ∨ s.power.retention = true →
     ∃ t, exec .secondAdvance s = .next t ∧
       t.time.running = (s.time.running / 100 + 1) * 100 ∧ t.time.minutePulseLatch = s.time.minutePulseLatch ∧
       (if s.time.school + 1 < 86400 then
         t.time.school = s.time.school + 1 ∧ t.time.date = s.time.date ∧ t.time.valid = s.time.valid
       else
         t.time.school = 0 ∧
           (if s.time.date + 1 < 36525 then t.time.date = s.time.date + 1 ∧ t.time.valid = s.time.valid
           else t.time.date = 0 ∧ t.time.valid = false))) ∧
  (∀ s : State,
     let v := { s with time := { s.time with running := (s.time.running / 100 + 1) * 100 } }
     let next := { v with time := { v.time with school := s.time.school + 1 } }
     (s.power.held = false →
       (s.time.school + 1 < 86400 → exec .secondAdvance s = .next (timePassed s (takeOnTime next))) ∧
       (86400 ≤ s.time.school + 1 → RollOk s →
         ∃ u, HandedOn s (nextDay v) u ∧ exec .secondAdvance s = .next (timePassed s u))) ∧
     (s.power.held = true → s.power.retention = true →
       let c := if s.time.school + 1 < 86400 then next else nextDay v
       exec .secondAdvance s = .next { c with notices := { c.notices with quietEnd := quietAfter s c } })) ∧
  (∀ (level : Bool) (s : State), s.power.held = false → s.time.school < 86400 → s.time.date < 36525 →
     ∃ t, exec (.minutePulseEdge level) s = .next t ∧ t.time.minutePulseLatch = level ∧
       t.time.running = s.time.running ∧ t.pins = { s.pins with minutePulse := level } ∧
       (if level = true ∧ s.time.minutePulseLatch = false ∧ s.settings.minutePulse = true ∧ s.time.valid = true then
         if s.time.school % 60 < 30 then
           t.time.school = s.time.school - s.time.school % 60 ∧ t.time.date = s.time.date ∧ t.time.valid = true
         else if s.time.school < 86370 then
           t.time.school = s.time.school - s.time.school % 60 + 60 ∧ t.time.date = s.time.date ∧ t.time.valid = true
         else
           t.time.school = 0 ∧ t.time.date = (s.time.date + 1) % 36525 ∧ t.time.valid = decide (s.time.date + 1 < 36525)
       else t = { s with time := { s.time with minutePulseLatch := level }, pins := t.pins })) ∧
  (∀ s : State, Snapped s (snap s)) ∧
  (∀ s : State,
     s.power.held = false → s.time.minutePulseLatch = false →
     exec (.minutePulseEdge true) s =
       .next
         (snap { s with time := { s.time with minutePulseLatch := true }, pins := { s.pins with minutePulse := true } }))

/-- What a day that begins opening becomes (R38). -/
def BegunOpening (bank : Nat) (s t : State) : Prop :=
  t =
    { s with
      day :=
        { s.day with
          state := .opening, date := some s.time.date, bank := some bank, openingTime := none, closureFlag := false,
          closureText := none, cursor := 0, calendar := s.day.calendar.filter fun e => s.time.date ≤ e.1 }
      roll := { s.roll with away := s.roll.away.filter fun e => s.time.date ≤ e.last }
      line := { s.line with table := s.line.table.map (·.map Terminal.newDay) } }

/-- The day type of a date is that of the Calendar Table's entry for it, else the weekday map's for its weekday, Monday first; date 0,
2000-01-01, is a Saturday (R27, R33). The day begins opening by itself exactly when the six conditions hold (R36), and then as R38 says; OPEN
begins it with the given bank, or the date's, and replies the date and the bank (R37). OPEN is refused as its checks say (R37, R193). -/
def Obligations.DayBeginsOpening : Prop :=
  (∀ (d : Date) (s : State),
    dayTypeOf d s =
      match s.day.calendar.find? (·.1 = d) with
      | some e => e.2
      | none => s.settings.weekMap.getD ((d + 5) % 7) .closed) ∧
  ∀ s : State, s.power.held = false →
    (∀ bank, RefusedByItsChecks (.openDay bank) s) ∧
    (∃ t, exec .automaticOpening s = .next t ∧ t = autoOpen s ∧
      ((∃ bank, s.day.state = .closed ∧ s.time.valid = true ∧ s.day.date ≠ some s.time.date ∧
          dayTypeOf s.time.date s = .school bank ∧ s.settings.dayOpen ≤ s.time.school ∧ rollLoadUnderWay s = false ∧
          BegunOpening bank s t) ∨
        (¬(s.day.state = .closed ∧ s.time.valid = true ∧ s.day.date ≠ some s.time.date ∧
            dayTypeOf s.time.date s ≠ .closed ∧ s.settings.dayOpen ≤ s.time.school ∧ rollLoadUnderWay s = false) ∧
          t = s))) ∧
    (∀ (given : Option Nat) (bank : Nat), s.time.valid = true → s.day.state = .closed → rollLoadUnderWay s = false →
      (given = some bank ∧ bank < 4 ∨ given = none ∧ dayTypeOf s.time.date s = .school bank) →
      ∃ u, exec (.openDay given) s = .next (replied (.ok [.date s.time.date, .num bank]) u) ∧ BegunOpening bank s u)

/-- What the visit of a slot does to the roll (R20, R39): an EMPTY slot is passed over; an ENROLLED one takes a fresh day part, EXCUSED with
source AWAY and the reason of the Away entry that covers today, where one does; its census count moves, the ABSENT notice of a pupil that
leaves ABSENT_PENDING is withdrawn (R6), with a PAUSED sweep RUNNING where it left (R145), and nothing else changes. -/
def DayPartSet (slot : Slot) (s t : State) : Prop :=
  t =
    { s with
      roll := { s.roll with roster := t.roll.roster, census := t.roll.census }
      notices := { s.notices with queue := t.notices.queue }
      sweep := t.sweep } ∧
  OthersKept slot s t ∧ SweepHeard (NoticeLeft s t) s t ∧ (pupilAt slot s = none → t = s) ∧
  ∀ p, pupilAt slot s = some p →
    let d : DayPart :=
      match s.roll.away.find? fun e => e.slot = slot && e.first ≤ today s && today s ≤ e.last with
      | none => .fresh
      | some e => { DayPart.fresh with mark := .excused, source := some .away, reason := some e.reason }
    pupilAt slot t = some ⟨p.enrolment, d⟩ ∧
      CensusMoved (some (p.enrolment.cohort, p.day.mark)) (some (p.enrolment.cohort, d.mark)) s t ∧
      Withdrawn (fun n => decide (p.day.mark = .absentPending) && n.isAbsentOf slot) s.notices.queue t.notices.queue

/-- The opening sweep sets the day part of an ENROLLED slot at the cursor by the day-open rule, passes over an EMPTY one, and
moves the cursor (R20, R39), with nothing else changed (`DayPartSet`). After the visit of slot 2047 the day becomes OPEN: the Cohort Table
reset, the opening time the present school time, the ABSENT deadline absent, Today's Plan a copy of the day's bank with every entry AHEAD
and the copy number one higher, from 65,535 to 0 (R56), DAY raised; then Today's Plan is evaluated (R40). -/
def Obligations.OpeningSweepSetsTheDayParts : Prop :=
  (∀ (slot : Slot) (s : State), RollOk s → DayPartSet slot s (dayOpenMark slot s)) ∧
  (∀ s : State, s.power.held = false → RollOk s → s.day.state = .opening → s.day.cursor < 2047 →
     ∃ t, exec .openingSweepVisit s = .next t ∧
       t = { dayOpenMark s.day.cursor s with day := { s.day with cursor := s.day.cursor + 1 } }) ∧
  (∀ (bank : Nat) (s : State), s.power.held = false → s.day.state = .opening → s.day.cursor = 2047 →
     s.day.bank = some bank →
     ∃ u, exec .openingSweepVisit s = .next (chooseIfFree (settle (evaluatePlan u))) ∧
       u =
         { dayOpenMark 2047 s with
           day :=
             { s.day with
               state := .open_, cursor := 2048, openingTime := some s.time.school, cohorts := List.replicate 8 .fresh }
           notices := { (dayOpenMark 2047 s).notices with deadline := none }
           plan := { s.plan with today := u.plan.today }
           attention := (raise .day none s).attention } ∧
       u.plan.today.source = some bank ∧ u.plan.today.copyNumber = (s.plan.today.copyNumber + 1) % 65536 ∧
       u.plan.today.header = some ((s.plan.banks.getD bank .empty).name, (s.plan.banks.getD bank .empty).select) ∧
       u.plan.today.entries = (s.plan.banks.getD bank .empty).entries.map fun e => ⟨e, .ahead, .none_, none⟩)

/-- CLOSE while OPEN closes the day with cause CLOSE: sweeps abandoned with their cohorts CUT_DONE, day-kind notices withdrawn,
every ABSENT_PENDING pupil ABSENT_UNREACHED with UNREACHED raised once for each, its slot the subject, and DAY raised (R41); in slot
order, which is the model's choice (log 43). In another state it is refused with WRONG_STATE (R42). -/
def Obligations.CloseEndsTheDay : Prop :=
  ∀ s : State, s.power.held = false → RollOk s →
    RefusedByItsChecks .closeDay s ∧
    (s.day.state ≠ .open_ → exec .closeDay s = .next (replied (.refused .wrongState) s)) ∧
    (s.day.state = .open_ →
      ∃ u, exec .closeDay s = .next (replied (.ok []) (settle u)) ∧ DayClosed .close s u)

/-- CLOSURE sets the flag and the text slot, cancels every AHEAD entry but DAY_CLOSE, empties the Sweep List with the listed
cohorts made CUT_DONE (R147), excuses every pupil not yet accounted for, withdraws the ABSENT notice of each that leaves
ABSENT_PENDING (R6), queues one CLOSURE broadcast of class 15 to the first contacts of all eight cohorts under a free number, and
raises DAY; nothing else changes before the Dispatcher acts (R43, R44). That a cancelled entry's taken time is the present one is the
model's choice (log 37). It is refused as its checks say, with FULL where the queue is full and no WAITING ABSENT notice stands in it (R43,
R193). -/
def Obligations.ClosureDeclaresTheSchoolClosed : Prop :=
  (∀ (textSlot : Nat) (s : State), s.power.held = false → RefusedByItsChecks (.closure textSlot) s) ∧
  ∀ (textSlot : Nat) (s : State),
    s.power.held = false → RollOk s → s.day.state = .open_ → textSlot < 16 → s.notices.texts.getD textSlot [] ≠ [] →
    s.day.closureFlag = false →
    (s.notices.queue.length < 128 ∨ ∃ n ∈ s.notices.queue, n.kind = .absent ∧ n.inWindow = false) →
    ∃ u q number, exec (.closure textSlot) s = .next (replied (.ok [.num number]) (settle u)) ∧
      u =
        { s with
          day := { s.day with closureFlag := true, closureText := some textSlot, cohorts := u.day.cohorts }
          sweep := ⟨[], none, .idle⟩
          roll := { s.roll with roster := u.roll.roster, census := u.roll.census }
          notices :=
            { s.notices with
              counter := number
              queue :=
                q ++
                  [⟨number, .closure, .broadcast ⟨[0, 1, 2, 3, 4, 5, 6, 7], .first, 0, 0, [], 0, 0, 0, false⟩, 15, s.time.date,
                    s.time.school, none, some textSlot, false, false⟩] }
          plan :=
            { s.plan with
              today :=
                { s.plan.today with
                  entries :=
                    s.plan.today.entries.map fun e =>
                      if e.firing = .ahead ∧ e.entry.roll ≠ .dayClose then
                        { e with firing := .cancelled, taken := some s.time.school }
                      else e } }
          attention := (raise .day none s).attention } ∧
      (∀ c < 8, (∃ w ∈ s.sweep.list, w.cohort = c) →
        u.day.cohorts[c]? = (s.day.cohorts[c]?).map fun x => { x with phase := .cutDone }) ∧
      (∀ c < 8, (¬∃ w ∈ s.sweep.list, w.cohort = c) → u.day.cohorts[c]? = s.day.cohorts[c]?) ∧
      Withdrawn (leftPending s u) s.notices.queue q ∧
      (s.notices.counter ≤ 65535 → q.length < 65535 → NumberIssued s.notices.counter (q.map (·.number)) number) ∧
      ∀ k, pupilAt k u =
        (pupilAt k s).map fun p =>
          if isUnaccountedMark p.day.mark then
            { p with day := { p.day with mark := .excused, source := some .closure, reason := some .closure, back := none } }
          else p

/-- DATEPUT writes the Calendar Table's entry for the date and leaves the others, in date order; DATEDROP removes it (R34); then the
automatic-opening rule is evaluated (R36). Both are refused as their checks say (R34, R193; that DATEDROP's date comes first is the model's
reading, log 31). -/
def Obligations.CalendarRequestsEditOneDate : Prop :=
  (∀ (date : Date) (s : State), s.power.held = false →
    (∀ dayType, RefusedByItsChecks (.datePut date dayType) s) ∧ RefusedByItsChecks (.dateDrop date) s) ∧
  ∀ (date : Date) (s : State), s.power.held = false → saveHolds .calendar s = false → date < 36525 →
    (s.day.calendar.map Prod.fst).Pairwise (· < ·) →
    (∀ dayType : DayType, (∀ b, dayType = .school b → b < 4) → (s.time.valid = true → s.time.date ≤ date) →
      ((tableGet date s.day.calendar).isSome = true ∨ s.day.calendar.length < 64) →
      ∃ u, exec (.datePut date dayType) s = .next (replied (.ok []) (autoOpen u)) ∧
        u = { s with day := { s.day with calendar := u.day.calendar } } ∧
        tableGet date u.day.calendar = some dayType ∧
        (∀ d, d ≠ date → tableGet d u.day.calendar = tableGet d s.day.calendar) ∧
        (u.day.calendar.map Prod.fst).Pairwise (· < ·)) ∧
    (∀ dayType : DayType, tableGet date s.day.calendar = some dayType →
      ∃ u, exec (.dateDrop date) s = .next (replied (.ok []) (autoOpen u)) ∧
        u = { s with day := { s.day with calendar := u.day.calendar } } ∧ tableGet date u.day.calendar = none ∧
        (∀ d, d ≠ date → tableGet d u.day.calendar = tableGet d s.day.calendar) ∧
        (u.day.calendar.map Prod.fst).Pairwise (· < ·))

/-! ### Day plans -/

/-- ENTRYPUT places the entry it gives, as R51 says of its kind, after every entry whose time is at or before its own and replies the
position it takes (R51, R52); ENTRYDROP removes the entry at a position, BANKCLEAR every entry of a bank with their number in the reply
(R53); the header and the other banks stay. They are refused as their checks say (R51–R53, R193). -/
def Obligations.BankEntriesArePutAndRemoved : Prop :=
  (∀ s : State, s.power.held = false →
     (∀ a, RefusedByItsChecks (.entryPut a) s) ∧ (∀ bank position, RefusedByItsChecks (.entryDrop bank position) s) ∧
     ∀ bank, RefusedByItsChecks (.bankClear bank) s) ∧
  (∀ (a : EntryPutArgs) (e : BankEntry) (b : Bank) (s : State),
     s.power.held = false → storeHolds .plans s = false → EntryGiven a e → s.plan.banks[a.bank]? = some b →
     (s.limits.override = true ∨ ∀ c, e.chime = some c → c.priority < 12) → b.entries.length < 96 →
     ∃ l r u, exec (.entryPut a) s = .next (replied (.ok [.num l.length]) u) ∧
       u = { s with plan := { s.plan with banks := u.plan.banks } } ∧
       b.entries = l ++ r ∧ u.plan.banks[a.bank]? = some { b with entries := l ++ e :: r } ∧
       (∀ k, k ≠ a.bank → u.plan.banks[k]? = s.plan.banks[k]?) ∧
       (∀ x ∈ l, x.time ≤ e.time) ∧ (∀ x, r.head? = some x → e.time < x.time)) ∧
  (∀ (bank : Nat) (b : Bank) (s : State),
     s.power.held = false → storeHolds .plans s = false → bank < 4 → s.plan.banks[bank]? = some b →
     (∀ position < b.entries.length,
       exec (.entryDrop bank position) s =
         .next
           (replied (.ok [])
             { s with
               plan := { s.plan with banks := s.plan.banks.set bank { b with entries := b.entries.eraseIdx position } } })) ∧
     exec (.bankClear bank) s =
       .next
         (replied (.ok [.num b.entries.length])
           { s with plan := { s.plan with banks := s.plan.banks.set bank { b with entries := [] } } }))

/-- HEADER reads and writes a bank's header; a write is refused with STORE_BUSY while a store operation includes PLANS and with
BAD_VALUE for a bank, a name or a select outside its values, and changes no class table in force (R54). A name is of A–Z, a–z, 0–9,
space, `-` and `.`. -/
def Obligations.HeaderReadsAndWrites : Prop :=
  (∀ c : Byte,
    isNameChar c = true ↔
      (48 ≤ c.toNat ∧ c.toNat ≤ 57) ∨ (65 ≤ c.toNat ∧ c.toNat ≤ 90) ∨ (97 ≤ c.toNat ∧ c.toNat ≤ 122) ∨ c = 0x20#8 ∨
        c = 0x2D#8 ∨ c = 0x2E#8) ∧
  ∀ (bank : Nat) (s : State), s.power.held = false →
    (∀ write, RefusedByItsChecks (.header bank write) s) ∧
    (∀ b, bank < 4 → s.plan.banks[bank]? = some b →
      exec (.header bank none) s =
        .next
          (replied (.ok [.num bank, .quoted b.name, .word (selectWord b.select), .num b.entries.length]) s)) ∧
    (∀ name select, storeHolds .plans s = true →
      exec (.header bank (some (name, select))) s = .next (replied (.refused .storeBusy) s)) ∧
    (∀ name select, storeHolds .plans s = false →
      (4 ≤ bank ∨ 12 < name.length ∨ (∃ c ∈ name, isNameChar c = false) ∨ select = none) →
      exec (.header bank (some (name, select))) s = .next (replied (.refused .badValue) s)) ∧
    (∀ name select b, storeHolds .plans s = false → bank < 4 → name.length ≤ 12 → (∀ c ∈ name, isNameChar c = true) →
      s.plan.banks[bank]? = some b →
      ∃ u, exec (.header bank (some (name, some select))) s = .next (replied (.ok []) u) ∧
        u =
          { s with
            plan :=
              { s.plan with banks := s.plan.banks.set bank { b with name := name, select := select } } } ∧
        tableInForce u = tableInForce s)

/-- The entry at an index is taken (R58, R60): the day is OPEN, the entry is AHEAD and of a time that is picked, and no such entry
before it in plan order closes the day. -/
def EntryTaken (pick : SchoolTime → Prop) (s : State) (i : Nat) : Prop :=
  let due := fun e : PlanEntry => e.firing = .ahead ∧ pick e.entry.time
  s.day.state = .open_ ∧ (∃ e, s.plan.today.entries[i]? = some e ∧ due e) ∧
    ∀ j < i, ∀ e, s.plan.today.entries[j]? = some e → due e → e.entry.roll ≠ .dayClose

/-- The entries of Today's Plan that an event takes (R58, R60, R66): each is DONE, or MISSED above the catch-up window, taken now; every
other keeps its state; a DAY_CLOSE entry among them closes the day with cause DAY_CLOSE, and without one the day stays. -/
def PlanTaken (pick : SchoolTime → Prop) (s u : State) : Prop :=
  let now := u.time.school
  let closes := ∃ i e, EntryTaken pick s i ∧ s.plan.today.entries[i]? = some e ∧ e.entry.roll = .dayClose
  u.plan.today.entries.length = s.plan.today.entries.length ∧
  (∀ (i : Nat) (e : PlanEntry), s.plan.today.entries[i]? = some e →
    ∃ x, u.plan.today.entries[i]? = some x ∧ x.entry = e.entry ∧
      (EntryTaken pick s i →
        x.firing = (if s.settings.catchUp < now - e.entry.time then .missed else .done) ∧ x.taken = some now) ∧
      (¬EntryTaken pick s i → x.firing = e.firing ∧ x.taken = e.taken)) ∧
  (closes → u.day.state = .closed ∧ u.day.closeCause = some .dayClose) ∧
  (¬closes → u.day.state = s.day.state ∧ u.day.closeCause = s.day.closeCause)

/-- The entries of the present second (R58, R69), and those of the present second and before (R60, R62), are taken in plan order while
the day is OPEN, each with all it does before the next (`PlanRun`, `entryTaken`): it is DONE, or MISSED above the catch-up window, with
the present time as its taken time; its chime part is requested but for a MISSED entry, late or on time, its priority held to 11
without permission for override (R59); then its roll part is applied. A DAY_CLOSE entry taken so closes the day, and the entries after
it stay AHEAD (R58, R60, R66). Every other entry keeps its state. ENTRY_REACHED takes those of the present second; a SET CLOCK forward
takes every one it reaches. The roll parts of REGISTRATION and ABSENCE_CUT move a cohort of the mask only from the phases their rules
name, with the planned time, and each cohort cut has a sweep added at the tail of the Sweep List, in cohort order, with the planned time as
its cut time and its pause record clear; an empty list begins, RUNNING at slot 0; nothing else changes (R47, R48, R141). NOTICE_DEADLINE sets
today's ABSENT deadline to the planned time (R64). NOTICE_HOLD hands its end, the planned time plus its minutes held at 23:59:59, where
it is later than the present time: a window opens, or an open one takes the later end (R65). DAY_CLOSE closes the day as R41 says, in
slot order (log 43), with cause DAY_CLOSE (R66). CHIME has no roll part. -/
def Obligations.EntriesAreTaken : Prop :=
  (∀ s : State,
     let takes := fun (pick : SchoolTime → Prop) (u : State) =>
       PlanRun pick (List.range s.plan.today.entries.length) s u ∧ PlanTaken pick s u ∧ (s.day.state ≠ .open_ → u = s) ∧
         u.time = s.time ∧ u.office = s.office ∧ u.settings = s.settings
     takes (· = s.time.school) (takeOnTime s) ∧ takes (· ≤ s.time.school) (evaluatePlan s) ∧
       (s.power.held = false → exec .entryReached s = .next (settle (takeOnTime s)))) ∧
  (∀ (time : SchoolTime) (s : State),
     s.power.held = false → s.time.valid = true → s.day.state = .open_ → s.day.date = some s.time.date →
     s.time.school < time → time < 86400 →
     ∃ u, exec (.setClock time none) s = .next (replied (.ok (clockItems u)) u) ∧ u.time.school = time ∧
       PlanTaken (· ≤ time) s u) ∧
  (∀ (time : SchoolTime) (chime : Option ChimePart) (s : State),
     applyRoll ⟨time, .chime, chime⟩ s = s ∧
     applyRoll ⟨time, .noticeDeadline, chime⟩ s = { s with notices := { s.notices with deadline := some time } } ∧
     (∀ minutes,
       let e := min (time + 60 * minutes) 86399
       applyRoll ⟨time, .noticeHold minutes, chime⟩ s =
         if s.time.school < e then
           { s with
             notices :=
               { s.notices with
                 quietEnd :=
                   some
                     (match s.notices.quietEnd with
                     | none => e
                     | some q => max e q) } }
         else s) ∧
     (RollOk s → DayClosed .dayClose s (applyRoll ⟨time, .dayClose, chime⟩ s))) ∧
  (∀ (mask : List Nat) (time : SchoolTime) (grace : Nat) (s : State), s.day.cohorts.length = 8 →
     let uncut := fun x : Cohort => decide (x.phase = .beforeRegistration ∨ x.phase = .registrationOpen)
     let new : List Sweep :=
       ((List.range 8).filter fun c => decide (c ∈ mask) && (s.day.cohorts[c]?).any uncut).map fun c => ⟨c, time, false⟩
     ∀ chime : Option ChimePart, ∃ u v : State,
       applyRoll ⟨time, .registration mask grace, chime⟩ s = u ∧ u = { s with day := { s.day with cohorts := u.day.cohorts } } ∧
       applyRoll ⟨time, .absenceCut mask, chime⟩ s = v ∧
       v =
         { s with
           day := { s.day with cohorts := v.day.cohorts }
           sweep :=
             if new = [] then s.sweep
             else if s.sweep.list = [] then ⟨new, some 0, .running⟩
             else { s.sweep with list := s.sweep.list ++ new } } ∧
       u.day.cohorts.length = 8 ∧ v.day.cohorts.length = 8 ∧
       ∀ c (x : Cohort), s.day.cohorts[c]? = some x →
         u.day.cohorts[c]? =
             some
               (if c ∈ mask ∧ x.phase = .beforeRegistration then
                 { x with phase := .registrationOpen, registration := some time, grace := grace }
               else x) ∧
           v.day.cohorts[c]? = some (if c ∈ mask ∧ uncut x = true then { x with phase := .cutListed, cut := some time } else x))

/-- ADOPT replaces Today's Plan with a copy of the bank: entries before the present time PASSED, the others AHEAD, a new copy
number, the day's bank the adopted one; the Cohort Table, the sweeps, the notices and the marks stand; then the entries of the
present second are taken on time (R69, R70). It is refused as its checks say (R69, R193). -/
def Obligations.AdoptCopiesTheBank : Prop :=
  (∀ (bank : Nat) (s : State), s.power.held = false → RefusedByItsChecks (.adopt bank) s) ∧
  ∀ (bank : Nat) (b : Bank) (s : State),
    s.power.held = false → s.day.state = .open_ → bank < 4 → s.plan.banks[bank]? = some b → s.day.closureFlag = false →
    ∃ u, exec (.adopt bank) s =
        .next
          (replied
            (.ok
              [.num ((s.plan.today.copyNumber + 1) % 65536),
                .num (b.entries.countP fun e => e.time < s.time.school),
                .num (b.entries.countP fun e => s.time.school ≤ e.time)])
            (settle (takeOnTime u))) ∧
      u =
        { s with
          plan :=
            { s.plan with
              today :=
                ⟨some bank, some (b.name, b.select), (s.plan.today.copyNumber + 1) % 65536,
                  b.entries.map fun e => ⟨e, if e.time < s.time.school then .passed else .ahead, .none_, none⟩⟩ }
          day := { s.day with bank := some bank } }

/-! ### Chimes, zones and bell outputs -/

/-- PATTERNPUT replaces one pattern whole, or empties it, and replies its step count; the other patterns and every channel stay;
PATTERN reads and changes nothing (R72, R74). VOLUME writes a group's volume, kept as given; both forms reply the group, its
volume, its ceiling, the lower of the two and whether its wake output is active (R88). MUTE and PLAY's read forms change nothing
(R91, R96); PLAY's gives as many of its parts from FROM on as fit in the line (R192). That a FROM past PLAY's last part is answered
OK with no items is the model's choice (log 39), and so are that MORE counts from the whole reply's first item (log 10), that a
PATTERN reply longer than a line is cut with MORE (log 11), that PLAY leaves out an empty set of zones or groups (log 46), and the
words of MUTE's, PLAY's and PATTERN's items (log 8). They are refused as their checks say: of a pattern, 1 to 24 steps are taken, each
field in its range, each LOOP back to a lower step over no other LOOP (R73, R74, R88, R91, R193; log 31). -/
def Obligations.BellTablesAreWrittenAndRead : Prop :=
  (∀ s : State, s.power.held = false →
     (∀ pattern steps, RefusedByItsChecks (.patternPut pattern steps) s) ∧ (∀ pattern, RefusedByItsChecks (.pattern pattern) s) ∧
     (∀ g v, RefusedByItsChecks (.volume g v) s) ∧ RefusedByItsChecks (.mute none) s ∧
     ∀ start, RefusedByItsChecks (.play (.read start)) s) ∧
  (∀ (pattern : Nat) (steps : Option (List PatternStep)) (s : State),
     s.power.held = false → storeHolds .patterns s = false → pattern < 32 → (∀ l, steps = some l → StepsAllowed l) →
     s.chime.patterns.length = 32 →
     ∃ u, exec (.patternPut pattern steps) s = .next (replied (.ok [.num (steps.getD []).length]) u) ∧
       u = { s with chime := { s.chime with patterns := u.chime.patterns } } ∧
       u.chime.patterns[pattern]? = some (steps.getD []) ∧
       ∀ k, k ≠ pattern → u.chime.patterns[k]? = s.chime.patterns[k]?) ∧
  (∀ (g : Group) (v : Nat) (s : State), s.power.held = false →
     exec (.volume (some g) none) s =
       .next
         (replied
           (.ok
             [groupItem g, .num (volumeOf g s), .num (ceilingOf g s), .num (min (volumeOf g s) (ceilingOf g s)),
               onOff (awakeOf g s).isSome]) s) ∧
     (v ≤ 15 → saveHolds .settings s = false →
       ∃ u,
         exec (.volume (some g) (some v)) s =
           .next
             (replied
               (.ok
                 [groupItem g, .num v, .num (ceilingOf g s), .num (min v (ceilingOf g s)), onOff (awakeOf g s).isSome])
               u) ∧
         u = { s with settings := { s.settings with groupVolume := u.settings.groupVolume } } ∧ volumeOf g u = v ∧
         ∀ h, h ≠ g → volumeOf h u = volumeOf h s)) ∧
  (∀ (s : State), s.power.held = false →
     (∀ pattern < 32, s.chime.patterns.getD pattern [] = [] →
       exec (.pattern pattern) s = .next (replied (.ok [.word "EMPTY"]) s)) ∧
     (∀ pattern < 32, s.chime.patterns.getD pattern [] ≠ [] →
       ∃ items, exec (.pattern pattern) s = .next (replied (.ok items) s) ∧
         MoreOf 0 ((s.chime.patterns.getD pattern []).zipIdx.map fun e => [.num e.2, .step e.1]) items) ∧
     exec (.mute none) s = .next (replied (.ok (muteItems s)) s) ∧
     ∀ start, ∃ items, exec (.play (.read start)) s = .next (replied (.ok items) s) ∧ MoreOf start (playParts s) items)

/-- MUTE sets or clears the mutes of the zones named and no other, takes silenced zones from ordinary channels, and replies the
read form (R90, R91). A debounced change of a quiet input is latched; ordinary channels then own no quiet zone (R89, R90). What either
leaves is `Silenced`, and what a channel becomes that loses zones is `ZonesTaken`: it keeps the others, or is stopped with CUT_SHORT (R76, R81, R90; that several report
in order of number is the model's choice, log 40), where a WAKING channel has yet to play a pattern that begins, as every
pattern of R74 does, with no LOOP. Where a zone was taken, or is quiet or muted no more, the Bell Wait List is examined
(R83, R89, R91). A channel none of whose zones is silent after the change, one of priority 12–15, and one that is IDLE or TAILING stays
as it is, where no request waits that the change could start (R90). MUTE is refused with BAD_VALUE for an empty set, a zone that does not
exist, or a word other than ON or OFF (R91). -/
def Obligations.MutesAndQuietInputsTakeZones : Prop :=
  let untouched := fun (s u : State) =>
    ∀ n, (∀ z ∈ (channelAt n s).zones, zoneQuiet z u = false ∧ zoneMuted z u = false) ∨
        (∃ p, (channelAt n s).priority = some p ∧ 12 ≤ p) ∨ (channelAt n s).state = .idle ∨ (channelAt n s).state = .tailing →
      channelAt n u = channelAt n s
  (∀ s v : State, ChannelsReady v → Silenced s v (silenceChanged s v)) ∧
  (∀ (write : List Nat × Option Bool) (s : State), s.power.held = false → RefusedByItsChecks (.mute (some write)) s) ∧
  (∀ (zones : List Nat) (on : Bool) (s : State),
     s.power.held = false → zones ≠ [] → (∀ z ∈ zones, 1 ≤ z ∧ z ≤ 6) → s.zone.mutes.length = 6 → ChannelsReady s →
     ∃ v u, exec (.mute (some (zones, some on))) s = .next (replied (.ok (muteItems u)) u) ∧ u = silenceChanged s v ∧
       Silenced s v u ∧
       v = { s with zone := { s.zone with mutes := v.zone.mutes } } ∧ v.zone.mutes.length = 6 ∧
       ∀ z, 1 ≤ z → z ≤ 6 → zoneMuted z v = if z ∈ zones then on else zoneMuted z s) ∧
  (∀ (i : QuietInput) (level : Bool) (s : State), s.power.held = false → ChannelsReady s →
     ∃ v u, exec (.quietInputChange i level) s = .next u ∧ u = silenceChanged s v ∧ Silenced s v u ∧
       v =
         match i with
         | .qa =>
           { s with
             zone := { s.zone with quietLatch := { s.zone.quietLatch with qa := level } }, pins := { s.pins with qa := level } }
         | .qb =>
           { s with
             zone := { s.zone with quietLatch := { s.zone.quietLatch with qb := level } }, pins := { s.pins with qb := level } }) ∧
  (∀ (zones : List Nat) (on : Bool) (s : State),
     s.power.held = false → zones ≠ [] → (∀ z ∈ zones, 1 ≤ z ∧ z ≤ 6) → s.zone.mutes.length = 6 → ZonesOwned s →
     ∃ u, exec (.mute (some (zones, some on))) s = .next (replied (.ok (muteItems u)) u) ∧
       (∀ z, 1 ≤ z → z ≤ 6 → zoneMuted z u = if z ∈ zones then on else zoneMuted z s) ∧ ZonesOwned u ∧
       u.settings = s.settings ∧ u.roll = s.roll ∧ u.notices = s.notices ∧ u.zone.quietLatch = s.zone.quietLatch ∧
       u.office = s.office ∧ u.time = s.time ∧ (s.chime.waits = [] → untouched s u)) ∧
  (∀ (i : QuietInput) (level : Bool) (s : State), s.power.held = false → ZonesOwned s →
     ∃ t, exec (.quietInputChange i level) s = .next t ∧ ZonesOwned t ∧
       t.zone.quietLatch = (match i with
         | .qa => { s.zone.quietLatch with qa := level }
         | .qb => { s.zone.quietLatch with qb := level }) ∧
       t.zone.mutes = s.zone.mutes ∧ t.settings = s.settings ∧ t.roll = s.roll ∧ t.time = s.time ∧
       (s.chime.waits = [] → untouched s t))

/-- A step keeps the ownership of the zones (R79). -/
def Obligations.ZoneOwnershipIsKept : Prop := ∀ s t : State, ZonesOwned s → step s = .next t → ZonesOwned t

/-- A request that cannot start goes to the Bell Wait List with its expiry (R82): where the list has room it is WAITING behind every
entry of its priority or a higher one; in a full list it takes a place so only where it ranks higher than the last entry, which leaves
DROPPED, and is else DROPPED itself. Its place counts the entries it waits behind. -/
def Waits (r : ChimeRequest) (s : State) (d : State × ChimeDecision) : Prop :=
  let place := (s.chime.waits.countP fun w => r.priority ≤ w.request.priority) + 1
  let joins := fun (l : List WaitEntry) (v : State) =>
    ∃ before behind, l = before ++ behind ∧ (∀ w ∈ before, r.priority ≤ w.request.priority) ∧
      (∀ w, behind.head? = some w → w.request.priority < r.priority) ∧
      d =
        (report r.origin r.pattern .waiting
            { v with
              chime :=
                { v.chime with waits := before ++ ⟨r, s.time.running + s.settings.waitLimit * 100⟩ :: behind } },
          .waiting place)
  (s.chime.waits.length < 8 → joins s.chime.waits s) ∧
  ∀ l last, s.chime.waits = l ++ [last] → 8 ≤ s.chime.waits.length →
    if last.request.priority < r.priority then joins l (report last.request.origin last.request.pattern .dropped s)
    else d = (report r.origin r.pattern .dropped s, .dropped)

/-- PLAY is decided by R78: with no effective zone left the outcome is SILENCED; with no conflicting channel and an IDLE one it
starts on the lowest-numbered IDLE channel with its effective zones; the reply carries the decision (R96). A request of any origin is
DROPPED with an empty pattern, SILENCED without an effective zone (R78); where every conflicting channel is of lower priority and a
channel can be chosen, it starts there at once, the conflicting requests stopped PREEMPTED and those not chosen tailing, and a release
of zones has the Bell Wait List examined (R76, R80, R81, R83); else it waits, in order of priority and age, until its expiry, or is
DROPPED (R82). A change of outcome is written into the plan entry of the copy that stands, with BELL for PREEMPTED, CUT_SHORT and
DROPPED, and a final one into the office's or the button's last-outcome record (R67, R84). That stopped channels report in order of
number is the model's choice (log 40); the held strike has its own step (log 19). PLAY is refused as its checks say (R96, R193). -/
def Obligations.PlayIsDecided : Prop :=
  (∀ (p : Nat) (zones : List Nat) (priority : Nat) (s : State),
     s.power.held = false → RefusedByItsChecks (.play (.request p zones priority)) s) ∧
  (∀ (p : PatternRef) (o : ChimeOutcome) (s : State),
     let final := o ≠ .none_ ∧ o ≠ .waiting ∧ o ≠ .playing
     report .office p o s = (if final then { s with chime := { s.chime with lastOffice := some ⟨p, o⟩ } } else s) ∧
     (∀ k, report (.button k) p o s =
       if final then { s with chime := { s.chime with lastButton := some ⟨p, o⟩ } } else s) ∧
     (∀ copy i, copy ≠ s.plan.today.copyNumber → report (.plan copy i) p o s = s) ∧
     ∀ i,
       let v :=
         { s with
           plan :=
             { s.plan with
               today :=
                 { s.plan.today with
                   entries := s.plan.today.entries.modify i fun x => { x with outcome := o } } } }
       report (.plan s.plan.today.copyNumber i) p o s =
         if o = .preempted ∨ o = .cutShort ∨ o = .dropped then raise .bell (some (.entry i)) v else v) ∧
  (∀ (r : ChimeRequest) (s : State), s.chime.channels.length = 4 →
     (stepsOf r.pattern s = [] → decideRequest r s = (report r.origin r.pattern .dropped s, .dropped)) ∧
     (∀ first rest, stepsOf r.pattern s = first :: rest → isLoopStep first = false →
       (zonesTaken r s = [] → decideRequest r s = (report r.origin r.pattern .silenced s, .silenced)) ∧
       (∀ k, zonesTaken r s ≠ [] → GivenChannel r s k →
         ∃ u, Started r k s u ∧
           decideRequest r s =
             (if stoppedFor r k s = [] ∧ (channelAt k u).zones ≠ [] then u else examine u, .playing k)) ∧
       (zonesTaken r s ≠ [] → (∀ k, ¬GivenChannel r s k) → Waits r s (decideRequest r s)))) ∧
  ∀ (p : Nat) (zones : List Nat) (priority : Nat) (s : State),
    s.power.held = false → p < 32 → zones ≠ [] → (∀ z ∈ zones, 1 ≤ z ∧ z ≤ 6) → 1 ≤ priority → priority ≤ 15 →
    (priority < 12 ∨ s.limits.override = true) → s.chime.patterns.getD p [] ≠ [] →
    (∀ d, d = decideRequest ⟨.table p, setWithin 1 6 zones, priority, .office, false, false⟩ s →
      exec (.play (.request p zones priority)) s = .next (replied (.ok (decisionItems d.2)) d.1)) ∧
    (priority < 12 → (∀ z ∈ zones, zoneQuiet z s = true ∨ zoneMuted z s = true) →
      exec (.play (.request p zones priority)) s =
        .next
          (replied (.ok [.word "SILENCED"]) { s with chime := { s.chime with lastOffice := some ⟨.table p, .silenced⟩ } })) ∧
    (∀ (n : Nat) (first : PatternStep) (rest : List PatternStep), s.chime.patterns.getD p [] = first :: rest →
      first ≠ .stop → isLoopStep first = false → s.chime.channels.length = 4 → n < 4 →
      (channelAt n s).state = .idle → (∀ m < n, (channelAt m s).state ≠ .idle) →
      (∀ m z, z ∈ (channelAt m s).zones → z ∉ zones) →
      (∃ z ∈ zones, 12 ≤ priority ∨ (zoneQuiet z s = false ∧ zoneMuted z s = false)) →
      ∃ u, exec (.play (.request p zones priority)) s = .next (replied (.ok [.word "PLAYING", .num n]) u) ∧
        ((channelAt n u).state = .waking ∨ (channelAt n u).state = .playing ∧ (channelAt n u).step = some 0) ∧
        (channelAt n u).pattern = some (.table p) ∧ (channelAt n u).priority = some priority ∧
        (channelAt n u).origin = some .office ∧
        (∀ z, z ∈ (channelAt n u).zones ↔
          z ∈ zones ∧ (12 ≤ priority ∨ (zoneQuiet z s = false ∧ zoneMuted z s = false))) ∧
        ∀ m, m ≠ n → channelAt m u = channelAt m s)

/-- The request of a channel, as it stands in `s`, reported CUT_SHORT to its origin (R81, R84). -/
def cutTold (n : Nat) (s v : State) : State :=
  match (channelAt n s).origin, (channelAt n s).pattern with
  | some origin, some p => report origin p .cutShort v
  | _, _ => v

/-- HUSH stops a WAKING or PLAYING channel with CUT_SHORT, reported to its origin whichever it is: the plan entry of the copy that stands,
with BELL, or the office's or the button's last-outcome record (R67, R81, R84, R97); it ends a TAILING channel's tail, the wake outputs
found anew (R77, R87), and is refused for an IDLE one; the Bell Wait List is then examined (R83). HUSH ALL drops every waiting request with
DROPPED and stops every such channel with CUT_SHORT, each reported to its origin, and examines nothing (R81, R84, R97); that the waits report
first, head first, and then the channels by number is the model's choice (log 40). Nothing else changes. HUSH is refused with BAD_VALUE for a
channel outside 0–3 or another word (R97). -/
def Obligations.HushStopsChannels : Prop :=
  ∀ s : State, s.power.held = false → s.chime.channels.length = 4 →
    (∀ t, RefusedByItsChecks (.hush t) s) ∧
    (∀ n < 4,
      ((channelAt n s).state = .waking ∨ (channelAt n s).state = .playing →
        exec (.hush (.channel n)) s =
          .next
            (replied (.ok [])
              (examine
                (cutTold n s
                  { s with
                    chime := { s.chime with channels := s.chime.channels.set n ((channelAt n s).tailing s) } })))) ∧
      ((channelAt n s).state = .tailing →
        ∃ u, exec (.hush (.channel n)) s = .next (replied (.ok []) (examine u)) ∧
          u =
            { s with
              chime := { s.chime with channels := s.chime.channels.set n .idle }
              zone := { s.zone with awake := u.zone.awake } } ∧
          ∀ g, awakeOf g u =
            if u.chime.channels.any (·.holds g) then some ((awakeOf g s).getD s.time.running) else none) ∧
      ((channelAt n s).state = .idle → exec (.hush (.channel n)) s = .next (replied (.refused .wrongState) s))) ∧
    let busy := fun n : Nat => decide ((channelAt n s).state = .waking ∨ (channelAt n s).state = .playing)
    let dropped :=
      s.chime.waits.foldl (fun v e => report e.request.origin e.request.pattern .dropped v)
        { s with chime := { s.chime with waits := [] } }
    let told := ((List.range 4).filter busy).foldl (fun v n => cutTold n s v) dropped
    ∃ u,
      exec (.hush .all) s =
        .next (replied (.ok [.num ((List.range 4).countP busy), .num s.chime.waits.length]) u) ∧
      u = { told with chime := { told.chime with channels := u.chime.channels } } ∧ u.chime.channels.length = 4 ∧
      u.chime.waits = [] ∧ ∀ n < 4, channelAt n u = if busy n then (channelAt n s).tailing s else channelAt n s

/-- Where play stands after step `i` once LOOP steps whose counter is 0 are passed (R73): the step, and the counter, absent past
such a LOOP. -/
def PlayStands (c : ToneChannel) (i k : Nat) (counter : Option Nat) : Prop :=
  (k = i + 1 ∧ counter = c.loopCounter) ∨
    ((∃ back count, c.steps[i + 1]? = some (.loop back count)) ∧ c.loopCounter = some 0 ∧ k = i + 2 ∧ counter = none)

/-- WAKING ends once every group of the channel has been awake for the lead time: the channel plays step 0 until its time has passed
(R76), the held strike until its release (R94). At a step's end play moves to the next step; a LOOP met first goes back with the
counter one lower, and one whose counter is 0 makes it absent and is passed; past the last step, or at END, the pattern ends: the zones
are released, the outcome is PLAYED or PLAYED_LATE, reported to the office's or the button's last-outcome record, or to the plan entry
of the copy that stands, and the channel tails (R67, R73, R77, R84). A GATE request whose ending is not marked goes back to step 0
instead (R95). A zone's relay is active exactly while its owner plays a STRIKE step or the held strike, and drives its pin at the level
its polarity names (R86); a wake pin so follows its group's wake output (R87); a group's audio output carries the tones of the channels
that play a TONE step and hold the group, their levels summed and held at 15, and nothing while the part is held (R88, R206; that
outputs are given so is the model's choice, log 32). That running time goes to the due time of the event, or stays where it is already
past it, for an event due before the next whole second is the model's choice (log 2); the held strike's step end is its form in the
model (log 19). -/
def Obligations.PlayMovesFromStepToStep : Prop :=
  (∀ s : State,
     let at_ := fun (c : ToneChannel) (step : PatternStep) =>
       c.state = .playing ∧ ∃ i, c.step = some i ∧ c.steps[i]? = some step
     let strikes := fun c : ToneChannel => c.state = .playing ∧ c.pattern = some .heldStrike ∨ ∃ w, at_ c (.strike w)
     (∀ z polarity, 1 ≤ z → s.settings.relayPol[z - 1]? = some polarity →
       (relayPin z s = decide (polarity = .activeHigh) ↔
         s.power.held = false ∧ ∃ c ∈ s.chime.channels, z ∈ c.zones ∧ strikes c)) ∧
     (wakePin .a s = decide (s.settings.wakePol.a = .activeHigh) ↔ s.power.held = false ∧ s.zone.awake.a ≠ none) ∧
     (wakePin .b s = decide (s.settings.wakePol.b = .activeHigh) ↔ s.power.held = false ∧ s.zone.awake.b ≠ none) ∧
     ∀ g,
       groupTones g s =
         (if s.power.held then []
         else
           s.chime.channels.flatMap fun c =>
             if c.state = .playing ∧ g ∈ c.groups then
               match c.step.bind (c.steps[·]?) with
               | some (.tone pitch _ level) => [(pitch, level)]
               | _ => []
             else []) ∧
       mixedLevel g s = min 15 ((groupTones g s).map Prod.snd).sum) ∧
  (∀ (n : Nat) (c : ToneChannel) (d : Nat) (s : State),
     s.power.held = false → s.chime.channels[n]? = some c → c.state = .waking →
     (∀ g ∈ c.groups, (awakeOf g s).isSome = true) → wakingEndAt c s < nextSecond s → c.zones ≠ [] →
     let now := max s.time.running (wakingEndAt c s)
     let playing := fun e : StepEnd =>
       { s with
         time := { s.time with running := now }
         chime :=
           { s.chime with
             channels :=
               s.chime.channels.set n
                 { c with
                   state := .playing, step := some 0, stepEnd := some e,
                   passTimed := if e = .atRelease then c.passTimed else true } } }
     (c.pattern = some .heldStrike → exec (.wakingEnd n) s = .next (playing .atRelease)) ∧
     (c.pattern ≠ some .heldStrike → (∃ first, c.steps[0]? = some first ∧ stepTime first = some d) →
       exec (.wakingEnd n) s = .next (playing (.timed (now + d))))) ∧
  (∀ (n : Nat) (c : ToneChannel) (i k : Nat) (counter : Option Nat) (e : RunTime) (s : State),
     s.power.held = false → s.chime.channels[n]? = some c → c.state = .playing → c.step = some i → c.stepEnd = some (.timed e) →
     e < nextSecond s → c.zones ≠ [] → PlayStands c i k counter →
     let now := max s.time.running e
     let moved := fun x : ToneChannel =>
       { s with
         time := { s.time with running := now }
         chime := { s.chime with channels := s.chime.channels.set n x } }
     (∀ next d, c.steps[k]? = some next → stepTime next = some d →
       exec (.stepEnd n) s =
         .next
           (moved { c with step := some k, stepEnd := some (.timed (now + d)), loopCounter := counter, passTimed := true })) ∧
     (∀ back count next d, c.steps[k]? = some (.loop back count) → 0 < counter.getD count →
       c.steps[back]? = some next → stepTime next = some d →
       exec (.stepEnd n) s =
         .next
           (moved
             { c with
               step := some back, stepEnd := some (.timed (now + d)), loopCounter := some (counter.getD count - 1),
               passTimed := true })) ∧
     (c.steps.length ≤ k ∨ c.steps[k]? = some .stop →
       (∀ first d, c.gate = true → c.gateEnding = false → c.passTimed = true → c.steps[0]? = some first →
         stepTime first = some d →
         exec (.stepEnd n) s =
           .next
             (moved { c with step := some 0, stepEnd := some (.timed (now + d)), loopCounter := none, passTimed := true })) ∧
       (∀ p origin, c.gate = false ∨ c.gateEnding = true → c.pattern = some p → c.origin = some origin →
         let outcome : ChimeOutcome := if c.late then .playedLate else .played
         let ended :=
           moved
             { c with
               state := .tailing, zones := [], step := none, stepEnd := none, loopCounter := none,
               tailEnd := some (now + s.settings.tail * 100) }
         exec (.stepEnd n) s =
           .next
             (examine
               (match origin with
               | .office => { ended with chime := { ended.chime with lastOffice := some ⟨p, outcome⟩ } }
               | .button _ => { ended with chime := { ended.chime with lastButton := some ⟨p, outcome⟩ } }
               | .plan copy index =>
                 if copy = s.plan.today.copyNumber then
                   { ended with
                     plan :=
                       { s.plan with
                         today :=
                           { s.plan.today with
                             entries := s.plan.today.entries.modify index fun x => { x with outcome := outcome } } } }
                 else ended)))))

/-- An examination takes the waiting requests head first: one whose pattern is empty leaves DROPPED, one that can start leaves and
starts as R80 says, its zones taken before the next is tried, and any other stays, in the order it had; where it released zones itself,
the list is examined again (R80, R83). At its tail end a TAILING channel becomes IDLE, the wake outputs are found anew, and the Wait
List is examined (R77, R83, R87). At its expiry a waiting request leaves the Bell Wait List with outcome DROPPED: a plan entry's is
written into Today's Plan and raises BELL with the entry's index (R67, R83). That running time goes to the due time of the event, or
stays where it is already past it, is the model's choice (log 2), and so is that the channels stopped for one request report in order
of number (log 40). -/
def Obligations.ChannelAndWaitTimersEnd : Prop :=
  (∀ s : State, s.chime.channels.length = 4 → s.chime.waits.length ≤ 8 →
     (∀ l ∈ s.chime.patterns, ∀ first rest, l = first :: rest → isLoopStep first = false) →
     Examination s (examine s) ∧ (s.chime.waits = [] → examine s = s)) ∧
  (∀ (n : Nat) (c : ToneChannel) (e : RunTime) (s : State),
     s.power.held = false → s.chime.channels[n]? = some c → c.state = .tailing → c.tailEnd = some e → e < nextSecond s →
     ∃ u, exec (.tailEnd n) s = .next (examine u) ∧
       u =
         { s with
           time := { s.time with running := max s.time.running e }
           chime := { s.chime with channels := s.chime.channels.set n .idle }
           zone := { s.zone with awake := u.zone.awake } } ∧
       ∀ g, (awakeOf g u).isSome = (s.chime.channels.set n .idle).any (·.holds g)) ∧
  (∀ (place : Nat) (e : WaitEntry) (s : State),
     s.power.held = false → 1 ≤ place → s.chime.waits[place - 1]? = some e → e.expiry < nextSecond s →
     ∃ t, exec (.waitExpiry place) s = .next t ∧ t.chime.waits = s.chime.waits.eraseIdx (place - 1) ∧
       t.chime.channels = s.chime.channels ∧ t.time = { s.time with running := max s.time.running e.expiry } ∧
       (e.request.origin = .office → t.chime.lastOffice = some ⟨e.request.pattern, .dropped⟩ ∧ t.plan = s.plan ∧
         t.attention = s.attention) ∧
       (∀ k, e.request.origin = .button k → t.chime.lastButton = some ⟨e.request.pattern, .dropped⟩ ∧ t.plan = s.plan) ∧
       (∀ index x, e.request.origin = .plan s.plan.today.copyNumber index → s.plan.today.entries[index]? = some x →
         t.plan.today.entries[index]? = some { x with outcome := .dropped } ∧
         t.attention = (raise .bell (some (.entry index)) s).attention) ∧
       (∀ copy index, e.request.origin = .plan copy index → copy ≠ s.plan.today.copyNumber →
         t.plan = s.plan ∧ t.attention = s.attention))

/-- A press acts by the button mode: nothing, a request for the held strike, a request for the button pattern once or repeated, or
a rising edge of the minute pulse, which snaps the clock as R30 says and leaves its latch alone (R30, R93); its priority is held to 11
without permission for override (R92). A release clears the latch and ends what the latest press asked, as `Released` says: a waiting held
strike or GATE request leaves DROPPED, which the button's last-outcome record keeps (R84, R94, R95), a held strike on a channel ends PLAYED,
its channel releasing its zones and tailing, with the examination that follows (R77, R83, R94), a GATE channel's ending is marked, and with
no such request nothing else changes (R93–R95). A level that the latch has is no change (R93). That a request carries the number of its
press is the model's (log 20). -/
def Obligations.TheButtonActsByItsMode : Prop :=
  (∀ s : State, s.power.held = false → s.zone.buttonLatch = false →
     let u := { s with zone := { s.zone with buttonLatch := true }, pins := { s.pins with bell := true } }
     let v := { u with zone := { u.zone with press := s.zone.press + 1 } }
     let priority := if 12 ≤ s.settings.buttonPrio ∧ s.limits.override = false then 11 else s.settings.buttonPrio
     let asked := fun (p : PatternRef) (gate : Bool) =>
       (decideRequest ⟨p, s.settings.buttonZones, priority, .button (s.zone.press + 1), false, gate⟩ v).1
     exec .bellButtonPress s =
       .next
         (match s.settings.buttonMode with
           | .off => u
           | .follow => asked .heldStrike false
           | .single => asked (.table s.settings.buttonPattern) false
           | .gate => asked (.table s.settings.buttonPattern) true
           | .resync => snap u) ∧
      Snapped u (snap u)) ∧
  (∀ s : State, s.power.held = false → s.zone.buttonLatch = true → s.chime.channels.length = 4 →
     let u := { s with zone := { s.zone with buttonLatch := false }, pins := { s.pins with bell := false } }
     ∃ t, exec .bellButtonRelease s = .next t ∧ t.zone.buttonLatch = false ∧ t.zone.press = s.zone.press ∧
       (∀ w ∈ t.chime.waits, ¬(w.request.origin = .button s.zone.press ∧
         (w.request.pattern = .heldStrike ∨ w.request.gate = true))) ∧
       ((∀ w ∈ s.chime.waits, w.request.origin ≠ .button s.zone.press) →
         (∀ n, (channelAt n s).origin ≠ some (.button s.zone.press)) → t = u) ∧
       (∀ (n : Nat) (c : ToneChannel), s.chime.channels[n]? = some c → c.origin = some (.button s.zone.press) →
         (c.state = .waking ∨ c.state = .playing) → c.gate = true → c.pattern ≠ some .heldStrike →
         (∀ m, m ≠ n → (channelAt m s).origin ≠ some (.button s.zone.press)) →
         (∀ w ∈ s.chime.waits, w.request.origin ≠ .button s.zone.press) →
         t = { u with chime := { u.chime with channels := s.chime.channels.set n { c with gateEnding := true } } }) ∧
       ∀ (n : Nat) (c : ToneChannel), s.chime.channels[n]? = some c → c.origin = some (.button s.zone.press) →
         c.state = .playing → c.pattern = some .heldStrike → c.late = false →
         (∀ m, m ≠ n → (channelAt m s).origin ≠ some (.button s.zone.press)) →
         (∀ w ∈ s.chime.waits, w.request.origin ≠ .button s.zone.press) →
         ∃ v, t = examine v ∧
           v =
             { u with
               chime :=
                 { u.chime with
                   lastButton := some ⟨.heldStrike, .played⟩
                   channels :=
                     s.chime.channels.set n
                       { c with
                         state := .tailing, zones := [], step := none, stepEnd := none, loopCounter := none,
                         tailEnd := some (s.time.running + s.settings.tail * 100) } }
               zone := { u.zone with awake := v.zone.awake } } ∧
           ∀ g, (awakeOf g v).isSome = v.chime.channels.any (·.holds g)) ∧
  (∀ s : State, s.chime.channels.length = 4 → Released s (releaseButton s)) ∧
  (∀ s : State, s.power.held = false →
     (s.zone.buttonLatch = true →
       exec .bellButtonRelease s =
           .next
             (releaseButton
               { s with zone := { s.zone with buttonLatch := false }, pins := { s.pins with bell := false } }) ∧
         exec .bellButtonPress s = .next s) ∧
     (s.zone.buttonLatch = false → exec .bellButtonRelease s = .next s))

/-! ### The entrance line -/

/-- A free line takes the next job as `JobChosen` says: a pending enumeration, else a display-clock broadcast that is due, with a valid
clock, else a liveness check that is due, else a poll round unless the day is OPENING (R110–R112, R118, R119); a line that is not free
keeps its job, and a job that ends frees the line, which then takes the next (R111). That a broadcast is made only with a valid clock at
its making is the model's reading (log 27). When a liveness check falls due, running time goes to that time, or stays where it is
already past it, for a check due before the next whole second, which is the model's choice (log 2), and a free line chooses (R118).
SEEKALL is refused with WRONG_STATE exactly while an enumeration is pending or under way; else one becomes pending, and a free line
begins its walk at once (R111, R119). -/
def Obligations.JobsBeginOnAFreeLine : Prop :=
  (∀ s : State,
     (s.line.job = .idle ∧ s.line.phase = .free → JobChosen s (chooseIfFree s)) ∧
     (¬(s.line.job = .idle ∧ s.line.phase = .free) → chooseIfFree s = s) ∧
     JobChosen
       { s with
         line := { s.line with job := .idle, phase := .free, orphan := false, dropJob := false, leftEntrance := none } }
       (endJob s) ∧
     ∀ (job : Job) (t : Transaction), begin_ job t s = jobBegun job t s) ∧
  (∀ (d : RunTime) (s : State), s.power.held = false →
     let served := fun t : Terminal => t.state = .active ∨ t.state = .silent
     (∃ n t, terminalAt n s = some t ∧ served t ∧ checkFallsAt t = d) →
     (∀ n t, terminalAt n s = some t → served t → d ≤ checkFallsAt t) →
     exec .livenessDue s =
       .next
         (if d < nextSecond s then chooseIfFree { s with time := { s.time with running := max s.time.running d } } else s)) ∧
  (∀ s : State, s.power.held = false →
     RefusedByItsChecks .seekAll s ∧
     (s.line.enumerationPending = true ∨ enumerating s = true →
       exec .seekAll s = .next (replied (.refused .wrongState) s)) ∧
     (s.line.enumerationPending = false → enumerating s = false →
       ∃ u, exec .seekAll s = .next (replied (.started []) u) ∧
         u =
           { s with
             line :=
               if lineFree s then
                 { s.line with
                   job := .enumeration (.start none), phase := .alert .seek, orphan := false, leftEntrance := none,
                   enumerationPending := false }
               else { s.line with enumerationPending := true } })) ∧
  (∀ (n : Nat) (t : Terminal) (s : State),
     s.power.held = false → lineFree s = true → s.line.enumerationPending = false → s.line.clockDue = false →
     terminalAt n s = some t → n < 8 → LivenessDue s n → (∀ m < n, ¬LivenessDue s m) → s.line.table.length = 8 →
     ∃ u, exec .livenessDue s = .next u ∧ u = { s with line := u.line } ∧ u.line.job = .liveness n t.identity ∧
       u.line.phase = .alert (.readState false) ∧
       terminalAt n u = some { t with lastLiveness := some s.time.running } ∧
       ∀ m, m ≠ n → terminalAt m u = terminalAt m s)

/-- ADMIT makes a NEW or LOST entry ACTIVE with count 0, replaces an ACTIVE or SILENT entry's entrance, and puts an unlisted
identity into the lowest free entry (R120). RETIRE frees the entry with its Verdict Hold and makes the refused-identity record
absent; no further transaction is made with the terminal in a round under way, and its present answer is not recorded (R121; log
14); a verdict list sent in that transaction still carries the terminal's entrance number (R108). Both are refused as their checks say
(R120, R121, R193). -/
def Obligations.AdmitAndRetireWriteOneEntry : Prop :=
  (∀ s : State, s.power.held = false →
     (∀ i entrance, RefusedByItsChecks (.admitTerminal i entrance) s) ∧ ∀ n, RefusedByItsChecks (.retire n) s) ∧
  (∀ (i : Identity) (entrance n : Nat) (s : State),
     s.power.held = false → storeHolds .terminals s = false → identityValid i = true → entrance ≤ 8 →
     s.line.table.length = 8 →
     (∀ t : Terminal, entryWith i s = some n → terminalAt n s = some t →
       ∃ u, exec (.admitTerminal i entrance) s = .next (replied (.ok [.num n]) u) ∧
         u = { s with line := { s.line with table := u.line.table } } ∧
         (∀ m, m ≠ n → terminalAt m u = terminalAt m s) ∧
         terminalAt n u =
           some
             (if t.state = .new ∨ t.state = .lost then
               { t with state := .active, missed := 0, lastHeard := s.time.running, entrance := entrance }
             else { t with entrance := entrance })) ∧
     (entryWith i s = none → n < 8 → terminalAt n s = none → (∀ m < n, terminalAt m s ≠ none) →
       ∃ u, exec (.admitTerminal i entrance) s = .next (replied (.ok [.num n]) u) ∧
         u = { s with line := { s.line with table := u.line.table } } ∧
         (∀ m, m ≠ n → terminalAt m u = terminalAt m s) ∧
         terminalAt n u = some (.new i entrance .active s.time.running)) ∧
     (entryWith i s = none → (∀ m < 8, terminalAt m s ≠ none) →
       exec (.admitTerminal i entrance) s = .next (replied (.refused .full) s))) ∧
  (∀ (n : Nat) (t : Terminal) (s : State),
     s.power.held = false → storeHolds .terminals s = false → n < 8 → terminalAt n s = some t →
     ∃ u, exec (.retire n) s = .next (replied (.ok []) u) ∧ terminalAt n u = none ∧
       (∀ m, m ≠ n → terminalAt m u = terminalAt m s) ∧ u.line.refused = none ∧
       u = { s with line := u.line } ∧
       (∀ p, s.line.job = .pollServe p → p.entry = n →
         u.line.job = .pollServe { p with live := false } ∧ u.line.orphan = true ∧
         (s.line.leftEntrance = none →
           verdictBytes p u =
             0x11#8 :: BitVec.ofNat 8 p.verdicts.length :: BitVec.ofNat 8 t.entrance :: flagByte s.day.closureFlag ::
               p.verdicts.flatMap fun v => [BitVec.ofNat 8 v.1, verdictCode v.2])) ∧
       ((∀ p, s.line.job = .pollServe p → p.entry ≠ n) → (∀ i, s.line.job ≠ .liveness n i) →
         u.line.job = s.line.job ∧ u.line.orphan = s.line.orphan))

/-- What an answer leaves in an entry: a good one makes an ACTIVE or SILENT terminal ACTIVE with count 0 and is heard now
(R102). -/
def heardNow (now : RunTime) (t : Terminal) : Terminal :=
  if t.state = .active ∨ t.state = .silent then { t with lastHeard := now, state := .active, missed := 0 }
  else { t with lastHeard := now }

/-- What a missed answer leaves in an entry: one or two make it SILENT, the third LOST with its hold emptied (R102). -/
def missedOnce (t : Terminal) : Terminal :=
  if t.state = .active ∨ t.state = .silent then
    if t.missed + 1 < 3 then { t with missed := t.missed + 1, state := .silent }
    else { t with missed := 3, state := .lost, hold := [] }
  else t

/-- What a missed answer of the terminal in an entry leaves of the attention sources: the third in a row raises TERMINAL with the entry
(R102). -/
def missedRaises (n : Nat) (t : Terminal) (s : State) : List Source :=
  if (t.state = .active ∨ t.state = .silent) ∧ 2 ≤ t.missed then (raise .terminal (some (.terminal n)) s).attention
  else s.attention

/-- The answer of the transaction under way, recorded for the terminal in an entry (R102, R103): what it leaves of the terminal and of the
attention sources, and nothing else. Nothing is recorded where the terminal was retired or replaced meanwhile (R121, R123; log 14), or the
entry is free. -/
def AnswerRecorded (n : Nat) (leaves : Terminal → Terminal) (sources : Terminal → List Source) (s u : State) : Prop :=
  (s.line.orphan = true ∨ terminalAt n s = none → u = s) ∧
  ∀ t, s.line.orphan = false → terminalAt n s = some t →
    terminalAt n u = some (leaves t) ∧ (∀ m, m ≠ n → terminalAt m u = terminalAt m s) ∧
    u = { s with line := { s.line with table := u.line.table }, attention := sources t }

/-- What follows a transaction: the job ends where a LOAD of TERMINALS dropped it, and else goes on (R123). -/
def thenGoesOn (s u goesOn : State) : State := if s.line.dropJob then endJob u else goesOn

/-- The terminal in an entry takes part in the collecting of taps: it is ACTIVE or SILENT (R101, R112). -/
def InService (n : Nat) (s : State) : Prop := ∃ t, terminalAt n s = some t ∧ (t.state = .active ∨ t.state = .silent)

/-- ANSWER came to ALERT: the selection and function go out as `SendsOnLine` gives them, with their check, low byte first, and the answer
is awaited; a display-clock broadcast has been made (R103, R110, R208, R211; the order of a school time's bytes is the model's reading,
log 44). One whose ALERT nobody answered has been made too, and is due no more: the model's reading (log 27). No ANSWER to the PICK of a
liveness check, or no answer to its function, is a missed answer of the entry; the third in a row raises TERMINAL with the entry (R102,
R103); then the job ends. The same holds of the PICKs of a poll round, of a missed header, confirm or state reply: the round then goes on
with the next found terminal (R103, R107–R109, R112). In all of them the answer of a terminal retired or replaced meanwhile is not
recorded (R121, R123; log 14), and a round that a LOAD dropped ends with its transaction (R123). No ANSWER to the ALERT of a walk's
step ends the walk with the identities found so far (R103, R106), and a dropped job with it (R123). -/
def Obligations.AlertsAreAnsweredOrMissed : Prop :=
  (∀ (t : Transaction) (s : State), s.power.held = false → s.line.phase = .alert t →
     SendsOnLine t s (sendingOf t s) ∧
     (t ≠ .displayClock →
       exec .alertAnswered s =
         .next
           { s with
             line :=
               { s.line with
                 sent := checkedBytes (sendingOf t s)
                 phase :=
                   match t with
                   | .seek => .windows
                   | .readTaps => .header
                   | .giveVerdicts => .confirm
                   | .readState _ => .stateReply
                   | .displayClock => .free } }) ∧
     (t = .displayClock →
       (∃ u, exec .alertAnswered s = .next (endJob u) ∧ u.line.clockDue = false ∧
         u.line.sent = checkedBytes (sendingOf t s) ∧ u.line.table = s.line.table ∧ u = { s with line := u.line }) ∧
       exec .alertNoAnswer s = .next (endJob { s with line := { s.line with clockDue := false } }))) ∧
  (∀ (n : Nat) (i : Identity) (s : State), s.power.held = false → s.line.job = .liveness n i →
     ∃ u,
       (s.line.phase = .alert (.readState false) → exec .alertNoAnswer s = .next (endJob u)) ∧
       (s.line.phase = .stateReply → exec .missedAnswer s = .next (endJob u)) ∧
       AnswerRecorded n missedOnce (missedRaises n · s) s u) ∧
  (∀ (p : PollRound) (s : State), s.power.held = false → s.line.job = .pollServe p →
     ∃ u,
       (∀ t, s.line.phase = .alert t → t ≠ .seek → t ≠ .displayClock →
         exec .alertNoAnswer s = .next (thenGoesOn s u (serve p.rest u))) ∧
       (s.line.phase = .header ∨ s.line.phase = .confirm ∨ s.line.phase = .stateReply →
         exec .missedAnswer s = .next (thenGoesOn s u (serve p.rest u))) ∧
       AnswerRecorded p.entry missedOnce (missedRaises p.entry · s) s u) ∧
  (∀ s : State, s.power.held = false → s.line.phase = .alert .seek →
     (∀ w, s.line.job = .enumeration w → exec .alertNoAnswer s = .next (thenGoesOn s s (finishEnumeration w s))) ∧
     (∀ w, s.line.job = .pollWalk w → exec .alertNoAnswer s = .next (thenGoesOn s s (serve w.found s))))

/-- What an enumeration leaves of an entry that holds a terminal (R119): one found is heard now, and ACTIVE with count 0 unless it
is NEW; of those not found a NEW one leaves, an ACTIVE or SILENT one counts a missed answer (R102), a LOST one stays. -/
def enumerated (found : List Identity) (now : RunTime) (t : Terminal) : Option Terminal :=
  if t.identity ∈ found then
    some
      (if t.state = .new then { t with lastHeard := now }
      else { t with lastHeard := now, state := .active, missed := 0 })
  else if t.state = .new then none
  else some (missedOnce t)

/-- The step of a walk: Z lengthens the prefix by 0, O by 1, both put the O branch aside, neither goes on with the branch put aside
last (R105, R106). A whole identity ends its branch: a valid one is found, another is counted as bad; the walk goes on with the branch
put aside last, and ends where none is left or 16 identities are found (R106). A walk that a LOAD of TERMINALS dropped ends with its
step (R123). When the walk of a poll round has ended, its found terminals are taken in order: one that is served is picked for READ TAPS, a NEW or LOST one passed over, an unlisted one added as NEW
in the lowest free entry with TERMINAL, or, with the table full, put into the refused-identity record with FULL unless the record has
it (R112). When the walk of an enumeration has ended, every listed terminal is as `enumerated` says (R102, R119), the unlisted ones are
added in the order found to the free entries in order, those left over go to the refused-identity record, which a removed NEW entry
makes absent, the enumeration record is written, and TERMINAL is raised for each entry added, restored or lost and once more with no
subject (R119). That the record says stopped at 16 wherever 16 were found is the model's reading (log 15). -/
def Obligations.SeekStepsWalkTheTree : Prop :=
  (∀ (w : Walk) (job : Walk → Job) (s : State),
     s.power.held = false → s.line.phase = .windows → s.line.dropJob = false → (job = .enumeration ∨ job = .pollWalk) →
     s.line.job = job w → w.path.length < 55 →
     exec (.seekStepResult true false) s = .next (begin_ (job { w with path := w.path ++ [false] }) .seek s) ∧
     exec (.seekStepResult false true) s = .next (begin_ (job { w with path := w.path ++ [true] }) .seek s) ∧
     exec (.seekStepResult true true) s =
       .next (begin_ (job { w with path := w.path ++ [false], aside := (w.path ++ [true]) :: w.aside }) .seek s) ∧
     (∀ p rest, w.aside = p :: rest → p.length < 56 →
       exec (.seekStepResult false false) s = .next (begin_ (job { w with path := p, aside := rest }) .seek s))) ∧
  (∀ (w : Walk) (z o : Bool) (job : Walk → Job) (s : State),
     s.power.held = false → s.line.phase = .windows → s.line.dropJob = true → (job = .enumeration ∨ job = .pollWalk) →
     s.line.job = job w → exec (.seekStepResult z o) s = .next (endJob s)) ∧
  (∀ (w : Walk) (z o : Bool) (job : Walk → Job) (s : State),
     s.power.held = false → s.line.phase = .windows → s.line.dropJob = false → (job = .enumeration ∨ job = .pollWalk) →
     s.line.job = job w → (∀ p, w.aside.head? = some p → p.length < 56) →
     w.path.length = 55 ∨ w.path.length < 55 ∧ z = false ∧ o = false ∧ w.aside = [] →
     let whole := fun (b : Bool) (x : Walk) =>
       let i := identityOfBits (w.path ++ [b])
       if identityValid i then { x with found := x.found ++ [i] } else { x with bad := x.bad + 1 }
     let low := if z then whole false w else w
     let stops := fun b : Bool => b = true ∧ 16 ≤ low.found.length
     let x := if o = true ∧ ¬stops z then whole true low else low
     let ended := ((z = true ∨ o = true) ∧ 16 ≤ x.found.length) ∨ w.aside = []
     (∀ p rest, ¬ended → w.aside = p :: rest →
       exec (.seekStepResult z o) s = .next (begin_ (job { x with path := p, aside := rest }) .seek s)) ∧
     (ended →
       ∃ v : Walk, v.found = x.found ∧ v.bad = x.bad ∧
         let u := { s with line := { s.line with job := job v } }
         (job = .pollWalk → exec (.seekStepResult z o) s = .next (serve v.found u)) ∧
         (job = .enumeration → exec (.seekStepResult z o) s = .next (finishEnumeration v u)))) ∧
  (∀ (w : Walk) (s : State),
     s.power.held = false → s.line.phase = .alert .seek → s.line.dropJob = false → s.line.job = .pollWalk w →
     s.line.table.length = 8 →
     (w.found = [] → exec .alertNoAnswer s = .next (endJob s)) ∧
     ∀ i rest, w.found = i :: rest →
       (∀ n t, entryWith i s = some n → terminalAt n s = some t →
         (t.state = .active ∨ t.state = .silent →
           exec .alertNoAnswer s = .next (begin_ (.pollServe ⟨rest, n, i, true, [], []⟩) .readTaps s)) ∧
         (t.state = .new ∨ t.state = .lost → exec .alertNoAnswer s = .next (serve rest s))) ∧
       (∀ n < 8, entryWith i s = none → terminalAt n s = none → (∀ m < n, terminalAt m s ≠ none) →
         ∃ u, exec .alertNoAnswer s = .next (serve rest u) ∧ terminalAt n u = some (.new i 0 .new s.time.running) ∧
           (∀ m, m ≠ n → terminalAt m u = terminalAt m s) ∧
           u =
             { s with
               line := { s.line with table := u.line.table }
               attention := (raise .terminal (some (.terminal n)) s).attention }) ∧
       (entryWith i s = none → (∀ m < 8, terminalAt m s ≠ none) →
         exec .alertNoAnswer s =
           .next
             (serve rest
               (if s.line.refused = some i then s
               else raise .full none { s with line := { s.line with refused := some i } })))) ∧
  (∀ (w : Walk) (s : State),
     s.power.held = false → s.line.phase = .alert .seek → s.line.dropJob = false → s.line.job = .enumeration w →
     s.line.table.length = 8 → s.attention.length = 14 → w.found.Nodup →
     (∀ m n t u, terminalAt m s = some t → terminalAt n s = some u → t.identity = u.identity → m = n) →
     let unlisted := w.found.filter fun i => (entryWith i s).isNone
     let free := (List.range 8).filter fun n => (terminalAt n s).isNone
     let extra := unlisted.drop free.length
     let added := min unlisted.length free.length
     let count := fun p : Terminal → Bool => (List.range 8).countP fun n => (terminalAt n s).any p
     let restored := count fun t => t.state = .lost ∧ t.identity ∈ w.found
     let removed := count fun t => t.state = .new ∧ t.identity ∉ w.found
     let lost := count fun t => (t.state = .active ∨ t.state = .silent) ∧ 2 ≤ t.missed ∧ t.identity ∉ w.found
     let refusals := extra.length - if extra.head? = s.line.refused then 1 else 0
     ∃ u, exec .alertNoAnswer s = .next (endJob u) ∧
       u =
         { s with
           line :=
             { s.line with
               table := u.line.table, refused := u.line.refused, lastEnumeration := u.line.lastEnumeration }
           attention := u.attention } ∧
       (∀ n t, terminalAt n s = some t → terminalAt n u = enumerated w.found s.time.running t) ∧
       (∀ (k n : Nat), free[k]? = some n → terminalAt n u = unlisted[k]?.map fun i => .new i 0 .new s.time.running) ∧
       u.line.refused = (if 0 < removed then none else extra.getLast?.or s.line.refused) ∧
       u.line.lastEnumeration =
         some ⟨s.time.school, w.found.length, added, restored, removed, w.bad, extra.length, decide (16 ≤ w.found.length)⟩ ∧
       sourceAt 10 u = ⟨true, min ((sourceAt 10 s).count + (added + restored + lost + 1)) 255, none⟩ ∧
       sourceAt 11 u =
         (if refusals = 0 then sourceAt 11 s else ⟨true, min ((sourceAt 11 s).count + refusals) 255, none⟩) ∧
       ∀ n, n ≠ 10 → n ≠ 11 → sourceAt n u = sourceAt n s)

/-- A READ TAPS header with a good check and a count of 1–16 is a good answer and its blocks follow; with a count of 0 the read is
complete and READ STATE with clear follows (R112, R113, R117); one of another length, with a bad check or a count above 16 is a
missed answer and ends the read (R107). A good block's taps are taken oldest first with the present school time as its collection
time, and the next block is awaited; after the last announced one the read is complete: the hold keeps the records of the taps
read, and GIVE VERDICTS follows if a tap was taken (R112, R113, R117). A bad block, or one that did not arrive whole, counts one
block fault and ends the read (R113). A confirm with a good check is a good answer and takes the records of the list from the hold
(R108, R117); another is a missed answer. A READ STATE reply with a good check and a count of at most 16 is a good answer; its
flags are recorded, and TERMINAL is raised with the entry when one of them changes from clear to set; another is a missed answer, and
the recorded flags stay (R109). It ends a liveness check, and in a poll round the terminal's turn (R112, R118). The third missed answer
in a row raises TERMINAL with the entry (R102). Each tap taken joins the taps read and, with its verdict, the verdict list, oldest first
(R113, R116). The answer of a terminal retired or replaced meanwhile is not recorded, its taps not taken, and no further transaction is
made with a retired one (R121; the rest is the model's reading, log 14); a round that a LOAD dropped ends with its transaction (R123). The
byte order of a tap's card key and age is the model's choice (log 44), and so is the length a block must have (log 28). -/
def Obligations.PollAnswersAreTaken : Prop :=
  (∀ (n : Nat) (bytes : Text) (taps : List Tap), goodBlock n bytes = some taps ↔ BlockHolds n bytes taps) ∧
  (∀ (p : PollRound) (s : State),
     takeTaps [] p s = (s, p) ∧
     ∀ tap rest,
       let r := takeTap p.entry tap s
       takeTaps (tap :: rest) p s =
         takeTaps rest
           { p with read := p.read ++ [(tap.serial, tap.card)], verdicts := p.verdicts ++ [(tap.serial, r.2)] } r.1) ∧
  (∀ (bytes : Text) (p : PollRound) (s : State), s.power.held = false → s.line.phase = .header → s.line.job = .pollServe p →
     (bytes.length = 3 → goodCheck bytes = true → 1 ≤ (bytes.getD 0 0).toNat → (bytes.getD 0 0).toNat ≤ 16 →
       ∃ u,
         exec (.readTapsHeader bytes) s =
           .next { u with line := { u.line with phase := .blocks (bytes.getD 0 0).toNat } } ∧
         AnswerRecorded p.entry (heardNow s.time.running) (fun _ => s.attention) s u) ∧
     (bytes.length = 3 → goodCheck bytes = true → (bytes.getD 0 0).toNat = 0 →
       ∃ u,
         (p.live = true ∧ InService p.entry s →
           exec (.readTapsHeader bytes) s = .next (thenGoesOn s u (begin_ (.pollServe p) (.readState true) u))) ∧
         (¬(p.live = true ∧ InService p.entry s) →
           exec (.readTapsHeader bytes) s = .next (thenGoesOn s u (serve p.rest u))) ∧
         AnswerRecorded p.entry
           (fun t =>
             { heardNow s.time.running t with
               hold := t.hold.filter fun r => p.read.contains (r.serial, r.card) })
           (fun _ => s.attention) s u) ∧
     (bytes.length ≠ 3 ∨ goodCheck bytes = false ∨ 16 < (bytes.getD 0 0).toNat →
       ∃ u, exec (.readTapsHeader bytes) s = .next (thenGoesOn s u (serve p.rest u)) ∧
         AnswerRecorded p.entry missedOnce (missedRaises p.entry · s) s u)) ∧
  (∀ (bytes : Text) (left : Nat) (p : PollRound) (s : State),
     s.power.held = false → s.line.phase = .blocks left → s.line.job = .pollServe p →
     (∀ taps, goodBlock (min 4 left) bytes = some taps →
       ∃ r u,
         AnswerRecorded p.entry (fun t => { t with lastCollection := some s.time.school }) (fun _ => s.attention) s u ∧
         r = (if s.line.orphan then (s, p) else takeTaps taps p u) ∧
         (4 < left →
           exec (.tapBlock bytes) s =
             .next (settle { r.1 with line := { r.1.line with job := .pollServe r.2, phase := .blocks (left - 4) } })) ∧
         (left ≤ 4 →
           ∃ v,
             let w := { r.1 with line := { r.1.line with job := .pollServe r.2, phase := .free } }
             AnswerRecorded p.entry
               (fun x => { x with hold := x.hold.filter fun h => r.2.read.contains (h.serial, h.card) })
               (fun _ => w.attention) w v ∧
             (r.2.verdicts ≠ [] ∧ p.live = true ∧ InService p.entry s →
               exec (.tapBlock bytes) s = .next (settle (thenGoesOn s v (begin_ (.pollServe r.2) .giveVerdicts v)))) ∧
             (¬(r.2.verdicts ≠ [] ∧ p.live = true ∧ InService p.entry s) →
               exec (.tapBlock bytes) s = .next (settle (thenGoesOn s v (serve p.rest v)))))) ∧
     ∃ u next,
       AnswerRecorded p.entry (fun t => { t with faultsToday := min (t.faultsToday + 1) 65535 }) (fun _ => s.attention) s u ∧
       (p.verdicts ≠ [] ∧ p.live = true ∧ InService p.entry s →
         next = thenGoesOn s u (begin_ (.pollServe p) .giveVerdicts u)) ∧
       (¬(p.verdicts ≠ [] ∧ p.live = true ∧ InService p.entry s) → next = thenGoesOn s u (serve p.rest u)) ∧
       (goodBlock (min 4 left) bytes = none → exec (.tapBlock bytes) s = .next (settle next)) ∧
       exec .blockTimeout s = .next next) ∧
  (∀ (bytes : Text) (p : PollRound) (s : State), s.power.held = false → s.line.phase = .confirm → s.line.job = .pollServe p →
     let good := bytes.length = 3 ∧ goodCheck bytes = true ∧ bytes.getD 0 0 = 0xC3#8
     ∃ u, exec (.giveVerdictsConfirm bytes) s = .next (thenGoesOn s u (serve p.rest u)) ∧
       AnswerRecorded p.entry
         (fun t =>
           if good then
             { heardNow s.time.running t with
               hold := t.hold.filter fun r => !(p.verdicts.map Prod.fst).contains r.serial }
           else missedOnce t)
         (fun t => if good then s.attention else missedRaises p.entry t s) s u) ∧
  (∀ (bytes : Text) (n : Nat) (s : State), s.power.held = false → s.line.phase = .stateReply →
     ((∃ i, s.line.job = .liveness n i) ∨ ∃ p, s.line.job = .pollServe p ∧ p.entry = n) →
     let overflow := (bytes.getD 1 0).getLsbD 0
     let fault := (bytes.getD 1 0).getLsbD 1
     let good := bytes.length = 4 ∧ goodCheck bytes = true ∧ (bytes.getD 0 0).toNat ≤ 16
     ∃ u,
       exec (.readStateReply bytes) s =
         .next
           (match s.line.job with
           | .pollServe p => thenGoesOn s u (serve p.rest u)
           | _ => endJob u) ∧
       AnswerRecorded n
         (fun t =>
           if good then { heardNow s.time.running t with overflow := overflow, fault := fault } else missedOnce t)
         (fun t =>
           if good then
             if overflow = true ∧ t.overflow = false ∨ fault = true ∧ t.fault = false then
               (raise .terminal (some (.terminal n)) s).attention
             else s.attention
           else missedRaises n t s)
         s u)

/-- The records a Verdict Hold keeps as one for a serial joins it (R116): one with the same serial goes, and the oldest goes where
16 would stay. -/
def heldBefore (serial : Nat) (l : List HoldRecord) : List HoldRecord :=
  let others := l.filter fun r => r.serial ≠ serial
  if others.length < 16 then others else others.tail

/-- The verdict of a classified arrival (R131). -/
def verdictOf (m : Mark) (office closure : Bool) : Verdict :=
  if m = .present then if office then .seeOffice else .onTime
  else if m = .late ∧ office = false ∧ closure = false then .lateGoToClass
  else .lateReportOffice

/-- What a classified arrival of the pupil `p` at a slot, classified `m`, does to the notices, with the number of a notice it creates.
One that finds ABSENT_PENDING withdraws the ABSENT notice (R127, R135). One that finds ABSENT_ASKED creates an ARRIVED notice to the
asked contact (R134); any other creates a LATE notice to the first contact of a pupil with contacts where the late-notice policy calls
for one (R133); each is of its class in the class table in force. With 128 notices in the queue none is created and FULL is raised with
the slot. That a LATE notice is created from ABSENT_UNREACHED too is log 42's choice. -/
def NoticesOfArrival (slot : Slot) (p : Pupil) (m : Mark) (s u : State) (number : Option Nat) : Prop :=
  let classes := classTableOf (tableInForce s) s
  let late :=
    p.enrolment.contacts ≠ [] ∧
      (s.settings.latePolicy = .always ∧ (m = .late ∨ m = .lateAfterCut) ∨ s.settings.latePolicy = .afterCut ∧ m = .lateAfterCut)
  let made : Option (NoticeKind × Nat × Nat) :=
    if p.day.mark = .absentAsked then some (.arrived, p.day.asked.getD 0, classes.arrived)
    else if late then some (.late, 0, classes.late)
    else none
  ∃ q, Withdrawn (fun n => decide (p.day.mark = .absentPending) && n.isAbsentOf slot) s.notices.queue q ∧
    match made with
    | none =>
      number = none ∧ u.notices.queue = q ∧ u.notices.counter = s.notices.counter ∧ sourceAt 11 u = sourceAt 11 s
    | some (kind, position, cls) =>
      if q.length < 128 then
        let k := nextNoticeNumber { s with notices := { s.notices with queue := q } }
        number = some k ∧ u.notices.counter = k ∧ sourceAt 11 u = sourceAt 11 s ∧
          u.notices.queue =
            q ++ [⟨k, kind, .pupil slot position, cls, s.time.date, s.time.school, none, none, false, false⟩]
      else
        number = none ∧ u.notices.queue = q ∧ u.notices.counter = s.notices.counter ∧
          (s.attention.length = 14 → sourceAt 11 u = (sourceAt 11 s).raised (some (.slot slot)))

/-- A tap whose serial and card key stand in the Verdict Hold is answered with the held verdict, and nothing changes (R116); another
is handed to the Roll Unit with its arrival time, counted, and its record joins the hold, which keeps every other record unless it is
full (R115, R116). The arrival time is the present school time less the age, held at the opening time, and is absent while the day is
not OPEN (R114). A tap while the day is not OPEN is answered DAY_CLOSED, a card of no ENROLLED record UNKNOWN_CARD, and the roll does
not change (R124). Else the tap is an arrival with source TAP, its terminal and its time against the pupil's mark, as ARRIVE is
(R126–R130), with its verdict (R131), and LATE_REPORT_OFFICE and SEE_OFFICE raise ARRIVAL with the slot (R132); a PAUSED sweep is
RUNNING where it takes the pupil's WAITING ABSENT notice from the queue (R145). What it does to the notices is `NoticesOfArrival` (R127,
R133–R135; log 42); an arrival that is not classified creates and withdraws none. The marks that an arrival classifies are UNSEEN,
EXPECTED and the three absent marks; the arrival marks are PRESENT, LATE, LATE_AFTER_CUT, ARRIVED_EXCUSED and SIGNED_OUT (R4, R126). -/
def Obligations.TapsAreAnsweredOnce : Prop :=
  (∀ m : Mark,
     (isUnaccountedMark m = true ↔
       m = .unseen ∨ m = .expected ∨ m = .absentPending ∨ m = .absentAsked ∨ m = .absentUnreached) ∧
     (isArrivalMark m = true ↔ m = .present ∨ m = .late ∨ m = .lateAfterCut ∨ m = .arrivedExcused ∨ m = .signedOut)) ∧
  (∀ (n : Nat) (tap : Tap) (t : Terminal) (s : State), terminalAt n s = some t →
     (∀ r ∈ t.hold, r.serial = tap.serial → r.card = tap.card →
       ∃ q ∈ t.hold, q.serial = tap.serial ∧ q.card = tap.card ∧ takeTap n tap s = (s, q.verdict)) ∧
     ((∀ r ∈ t.hold, ¬(r.serial = tap.serial ∧ r.card = tap.card)) →
       ∃ r u, r = tapClaim tap.card (tapTime tap.age s) n s ∧ takeTap n tap s = (u, r.2) ∧
         u = { r.1 with line := { s.line with table := u.line.table } } ∧
         (∀ m, m ≠ n → terminalAt m u = terminalAt m s) ∧
         terminalAt n u =
           some
             { t with
               tapsToday := min (t.tapsToday + 1) 65535
               unknownToday := if r.2 = .unknownCard then min (t.unknownToday + 1) 65535 else t.unknownToday
               hold := heldBefore tap.serial t.hold ++ [⟨tap.serial, tap.card, r.2⟩] })) ∧
  (∀ (age : Nat) (s : State),
     (s.day.state = .open_ → tapTime age s = some (max (s.time.school - age) (s.day.openingTime.getD 0))) ∧
     (s.day.state ≠ .open_ → tapTime age s = none)) ∧
  (∀ (card : Nat) (time : Option SchoolTime) (n : Nat) (s : State),
     (s.day.state ≠ .open_ → tapClaim card time n s = (s, .dayClosed)) ∧
     (s.day.state = .open_ → (∀ e ∈ s.roll.roster, e.2.enrolment.card ≠ card) →
       tapClaim card time n s = (s, .unknownCard))) ∧
  (∀ (at_ : SchoolTime) (n : Nat) (slot : Slot) (p : Pupil) (s : State),
     RollOk s → s.day.state = .open_ → pupilAt slot s = some p →
     (∀ k q, k ≠ slot → pupilAt k s = some q → q.enrolment.card ≠ p.enrolment.card) →
     let m := classify (s.day.cohorts.getD p.enrolment.cohort .fresh) p.enrolment.permit at_
     ∃ u v, tapClaim p.enrolment.card (some at_) n s = (u, v) ∧
       u = { s with roll := u.roll, notices := { s.notices with queue := u.notices.queue, counter := u.notices.counter },
                    sweep := u.sweep, attention := u.attention } ∧
       SweepHeard (p.day.mark = .absentPending ∧ s.notices.queue.any fun x => x.isAbsentOf slot && !x.inWindow) s u ∧
       u.roll.away = s.roll.away ∧ OthersKept slot s u ∧
       (p.day.mark = .present ∨ p.day.mark = .late ∨ p.day.mark = .lateAfterCut ∨ p.day.mark = .arrivedExcused →
         u = s ∧ v = .alreadyIn) ∧
       (p.day.mark = .excused →
         pupilAt slot u =
           some { p with day := { p.day with
             mark := .arrivedExcused, source := some .tap, arrival := some at_, terminal := some n } } ∧
         v = .seeOffice) ∧
       (∀ h, p.day.mark = .signedOut → p.day.heldMark = some h →
         pupilAt slot u = some { p with day := { p.day with mark := h, source := some .tap, heldMark := none } } ∧
         v = .welcomeBack) ∧
       (isUnaccountedMark p.day.mark = true →
         pupilAt slot u =
           some { p with day := { p.day with mark := m, source := some .tap, arrival := some at_, terminal := some n } } ∧
         v = verdictOf m p.enrolment.office s.day.closureFlag ∧ ∃ number, NoticesOfArrival slot p m s u number) ∧
       (isUnaccountedMark p.day.mark = false → u.notices = s.notices ∧ sourceAt 11 u = sourceAt 11 s) ∧
       (∀ n, n ≠ 5 → n ≠ 11 → sourceAt n u = sourceAt n s) ∧
       (s.attention.length = 14 →
         sourceAt 5 u =
           if v = .lateReportOffice ∨ v = .seeOffice then (sourceAt 5 s).raised (some (.slot slot)) else sourceAt 5 s))

/-! ### Arrivals -/

/-- The classification of an arrival at `t`: PRESENT before registration and up to the cutoff, else LATE_AFTER_CUT after the cut
time, else LATE; the cutoff is the late permit, else the registration time plus the grace held at 23:59:59, else the cut time
(R49). -/
def Obligations.ArrivalsAreClassified : Prop :=
  ∀ (c : Cohort) (permit : Option SchoolTime) (t : SchoolTime),
    (c.phase = .beforeRegistration → classify c permit t = .present) ∧
    (∀ cutoff, c.phase ≠ .beforeRegistration →
      (permit = some cutoff ∨
        permit = none ∧ (∃ r, c.registration = some r ∧ cutoff = min (r + 60 * c.grace) 86399) ∨
        permit = none ∧ c.registration = none ∧ c.cut = some cutoff) →
      (t ≤ cutoff → classify c permit t = .present) ∧
      (cutoff < t → (∃ k, c.cut = some k ∧ k < t) → classify c permit t = .lateAfterCut) ∧
      (cutoff < t → (∀ k, c.cut = some k → t ≤ k) → classify c permit t = .late))

/-- ARRIVE against each mark: an arrived pupil is ALREADY_IN and nothing changes; EXCUSED becomes ARRIVED_EXCUSED; SIGNED_OUT takes
back its held mark; any other mark takes the classification, with source OFFICE and the arrival time (R125–R130), and a PAUSED sweep is
RUNNING where the arrival takes the pupil's WAITING ABSENT notice from the queue (R145). What a classified arrival does to the notices
is `NoticesOfArrival`: ABSENT withdrawn from ABSENT_PENDING (R127, R135), ARRIVED from ABSENT_ASKED (R134), LATE by the policy from any
other mark (R133), FULL where the queue has no place. That LATE is created from ABSENT_UNREACHED too is the model's choice between R133
and R137 (log 42). The reply gives the mark, the verdict and the number of a notice created (R125, R131, R133); that it is named NOTICE
is log 8's choice. It is refused as its checks say (R125, R193). -/
def Obligations.ArriveTakesTheArrival : Prop :=
  (∀ (slot : Slot) (time : Option SchoolTime) (s : State), s.power.held = false → RefusedByItsChecks (.arrive slot time) s) ∧
  ∀ (slot : Slot) (time : Option SchoolTime) (p : Pupil) (s : State),
    s.power.held = false → RollOk s → s.day.state = .open_ → pupilAt slot s = some p →
    (∀ t, time = some t → t < 86400 ∧ t ≤ s.time.school ∧ s.day.openingTime.getD 0 ≤ t) →
    let at_ := time.getD s.time.school
    let m := classify (s.day.cohorts.getD p.enrolment.cohort .fresh) p.enrolment.permit at_
    ∃ u items,
      exec (.arrive slot time) s = .next (replied (.ok items) (settle u)) ∧
      u = { s with roll := u.roll, notices := { s.notices with queue := u.notices.queue, counter := u.notices.counter },
                   sweep := u.sweep, attention := u.attention } ∧
      SweepHeard (p.day.mark = .absentPending ∧ s.notices.queue.any fun x => x.isAbsentOf slot && !x.inWindow) s u ∧
      u.roll.away = s.roll.away ∧ OthersKept slot s u ∧
      (p.day.mark = .present ∨ p.day.mark = .late ∨ p.day.mark = .lateAfterCut ∨ p.day.mark = .arrivedExcused →
        u = s ∧ items = [.word (markWord p.day.mark), .word "ALREADY_IN"]) ∧
      (p.day.mark = .excused →
        pupilAt slot u =
          some { p with day := { p.day with
            mark := .arrivedExcused, source := some .office, arrival := some at_, terminal := none } } ∧
        items = [.word "ARRIVED_EXCUSED", .word "SEE_OFFICE"]) ∧
      (∀ h, p.day.mark = .signedOut → p.day.heldMark = some h →
        pupilAt slot u = some { p with day := { p.day with mark := h, source := some .office, heldMark := none } } ∧
        items = [.word (markWord h), .word "WELCOME_BACK"]) ∧
      (isUnaccountedMark p.day.mark = true →
        pupilAt slot u =
          some { p with day := { p.day with mark := m, source := some .office, arrival := some at_, terminal := none } } ∧
        ∃ number, NoticesOfArrival slot p m s u number ∧
          items =
            [.word (markWord m), .word (verdictWord (verdictOf m p.enrolment.office s.day.closureFlag))] ++
              optItem "NOTICE" .num number) ∧
      (isUnaccountedMark p.day.mark = false → u.notices = s.notices ∧ sourceAt 11 u = sourceAt 11 s) ∧
      ∀ n, n ≠ 11 → sourceAt n u = sourceAt n s

/-! ### The absence sweep -/

/-- A visit passes over a slot that is not due; a due slot without contacts becomes ABSENT_UNREACHED; a due slot with contacts
becomes ABSENT_PENDING with its notice while the queue has room, and else the sweep pauses there, raising SWEEP at its first
pause (R142–R144). A visit of slot 2047 that moves on completes the sweep (R146). -/
def Obligations.SweepVisitActsOnTheSlot : Prop :=
  ∀ (head : Sweep) (rest : List Sweep) (slot : Slot) (s : State),
    s.power.held = false → RollOk s → s.sweep = ⟨head :: rest, some slot, .running⟩ → slot < 2048 →
    let due := fun p : Pupil =>
      p.enrolment.cohort = head.cohort ∧ p.day.mark = .unseen ∧ ∀ t, p.enrolment.permit = some t → t ≤ head.cut
    let room := (s.notices.queue.countP fun n => n.kind = .absent) < 120 ∧ s.notices.queue.length < 128
    ∃ u, exec .sweepVisit s = .next (settle u) ∧ OthersKept slot s u ∧ u.roll.away = s.roll.away ∧
      (∀ p, pupilAt slot s = some p → due p → p.enrolment.contacts ≠ [] → ¬room →
        u =
          { s with
            sweep := ⟨{ head with pauseRecord := true } :: rest, some slot, .paused⟩
            attention := if head.pauseRecord then s.attention else (raise .sweep (some (.slot slot)) s).attention }) ∧
      ((∀ p, pupilAt slot s = some p → due p → p.enrolment.contacts = [] ∨ room) →
        ∃ v : State,
          u =
            (if slot < 2047 then { v with sweep := { s.sweep with cursor := some (slot + 1) } }
            else
              raise .sweep none
                { v with
                  day := { s.day with cohorts := s.day.cohorts.modify head.cohort fun c => { c with phase := .cutDone } }
                  sweep := if rest = [] then ⟨[], none, .idle⟩ else ⟨rest, some 0, .running⟩ }) ∧
          ((∀ p, pupilAt slot s = some p → ¬due p) → v = s) ∧
          ∀ p, pupilAt slot s = some p → due p →
            (p.enrolment.contacts = [] →
              v = { s with roll := v.roll, attention := (raise .unreached (some (.slot slot)) s).attention } ∧
              pupilAt slot v =
                some { p with day := { p.day with mark := .absentUnreached, source := some .sweep } } ∧
              CensusMoved (some (p.enrolment.cohort, .unseen)) (some (p.enrolment.cohort, .absentUnreached)) s v) ∧
            (p.enrolment.contacts ≠ [] →
              v =
                { s with
                  roll := v.roll
                  notices :=
                    { s.notices with
                      counter := nextNoticeNumber s
                      queue :=
                        s.notices.queue ++
                          [⟨nextNoticeNumber s, .absent, .pupil slot 0, (classTableOf (tableInForce s) s).absent,
                            s.time.date, s.time.school, none, none, false, false⟩] } } ∧
              pupilAt slot v =
                some { p with day := { p.day with mark := .absentPending, source := some .sweep } } ∧
              CensusMoved (some (p.enrolment.cohort, .unseen)) (some (p.enrolment.cohort, .absentPending)) s v))

/-! ### Parent notices -/

/-- What the Dispatcher's work on its queue may change in a notice that stays: a pupil notice sent in it is IN_WINDOW, a broadcast's
cursor, returned steps, sent count and expired flag move, and an ABSENT notice of a pupil made ABSENT_UNREACHED in it, one of
`seven`, takes cancel-on-result (R6, R160, R161, R166, R167, R170). -/
def RunsOn (new : List SendRecord) (seven : List Subject) (n m : Notice) : Prop :=
  m = { n with addressee := m.addressee, inWindow := m.inWindow, cancel := m.cancel } ∧
  (∀ k i, n.addressee = .pupil k i → m.addressee = n.addressee) ∧
  (∀ b, n.addressee = .broadcast b →
    ∃ c : BroadcastState,
      m.addressee =
        .broadcast
          { b with
            cursorSlot := c.cursorSlot, cursorPosition := c.cursorPosition, returned := c.returned, sent := c.sent,
            expired := c.expired }) ∧
  (m.inWindow = n.inWindow ∨ m.inWindow = true ∧ ∃ r ∈ new, r.key.number = n.number) ∧
  (m.cancel = n.cancel ∨ m.cancel = true ∧ n.kind = .absent ∧ ∃ k i, n.addressee = .pupil k i ∧ .slot k ∈ seven)

/-- What the Notice Dispatcher does after a change, in the same step (that it acts there is the model's choice, log 12; which of the
removals of one change comes last, log 43). Its sends join the window and the outbound queue while sending is allowed and a place is
free, each of a notice of the queue to a contact of an ENROLLED pupil (R160, R161, R170). Notices leave the queue and none joins it;
each that stays keeps its place and is as it was but for what its own sends and deadline move. Each that leaves raises UNREACHED, with
the slot for an ABSENT notice and the notice number for another, or, a broadcast, BROADCAST with its number (R164, R166, R167, R171);
two notices of one number, which no run brings about, would leave together. A pupil of ABSENT_PENDING whose slot UNREACHED names
becomes ABSENT_UNREACHED with source NOTICE; a PAUSED sweep is RUNNING where a notice left (R145); nothing else changes (R153). -/
def Obligations.DispatchTouchesOnlyItsOwn : Prop :=
  ∀ s : State,
    ∃ (t : State) (new : List SendRecord) (seven thirteen : List Subject) (kept : List Notice), t = settle s ∧
      t =
        { s with
          roll := { s.roll with roster := t.roll.roster, census := t.roll.census }
          sweep := t.sweep
          notices :=
            { s.notices with
              queue := t.notices.queue
              window := s.notices.window ++ new.map fun r => ⟨r.key, s.time.running, .awaitTake⟩
              lastBroadcast := t.notices.lastBroadcast }
          gateway := { s.gateway with outbound := s.gateway.outbound ++ new.map .send }
          attention := t.attention } ∧
      (new ≠ [] → sendingAllowed s = true ∧ s.notices.window.length + new.length ≤ 4) ∧
      (∀ r ∈ new, ∃ n ∈ s.notices.queue, ∃ p c, r.key.number = n.number ∧ r.kind = n.kind ∧
        (n.addressee = .pupil r.key.slot r.key.position ∨ ∃ b, n.addressee = .broadcast b) ∧
        pupilAt r.key.slot s = some p ∧ p.enrolment.contacts[r.key.position]? = some c ∧
        r.reference = p.enrolment.reference ∧ r.contact = c.id ∧ r.channel = c.channel) ∧
      kept.Sublist s.notices.queue ∧ List.Forall₂ (RunsOn new seven) kept t.notices.queue ∧
      (let left := fun n : Notice => n ∈ s.notices.queue ∧ ∀ m ∈ t.notices.queue, m.number ≠ n.number
       (∀ n, left n → ∃ m ∈ s.notices.queue, m.number = n.number ∧
         ((m.kind ≠ .absent ∧ .notice m.number ∈ seven) ∨
           (m.kind = .absent ∧ ∃ k i, m.addressee = .pupil k i ∧ .slot k ∈ seven) ∨
           ((∃ b, m.addressee = .broadcast b) ∧ .notice m.number ∈ thirteen))) ∧
       (∀ y ∈ seven, ∃ n, left n ∧ ∃ k i, n.addressee = .pupil k i ∧
         y = if n.kind = .absent then .slot k else .notice n.number) ∧
       ∀ y ∈ thirteen, ∃ n, left n ∧ (∃ b, n.addressee = .broadcast b) ∧ y = .notice n.number) ∧
      (s.attention.length = 14 →
        sourceAt 7 t = seven.foldl (fun x y => x.raised (some y)) (sourceAt 7 s) ∧
        sourceAt 13 t = thirteen.foldl (fun x y => x.raised (some y)) (sourceAt 13 s)) ∧
      (thirteen = [] → t.notices.lastBroadcast = s.notices.lastBroadcast) ∧
      (∀ k, thirteen.getLast? = some (.notice k) → t.notices.lastBroadcast.map BroadcastRecord.number = some k) ∧
      SweepHeard (NoticeLeft s t) s t ∧
      (∀ n, n ≠ 7 → n ≠ 13 → sourceAt n t = sourceAt n s) ∧
      ∀ k,
        pupilAt k t =
          (pupilAt k s).map fun p =>
            if .slot k ∈ seven ∧ p.day.mark = .absentPending then
              { p with day := { p.day with mark := .absentUnreached, source := some .notice } }
            else p

/-- The notice that ranks above every other candidate is chosen (R160). Of a pupil notice one SEND record is issued (R161); one whose
position lies beyond the contacts list the record then holds is exhausted at its send, and no record is issued (R161, R164). Of a
broadcast, the oldest returned step is sent, or dropped where it names no contact now; without one, the next step at the cursor is, and
the cursor moves just past it; a send raises the sent count by one (R170; which pair is just past is the model's choice, log 52). A
broadcast with no send left and none in the window is removed, with its record and attention BROADCAST (R171; that one both cancelled
and expired is recorded as cancelled is the model's choice, log 22). After a change no candidate is left while a place is free and
sending is allowed (R159, R160). -/
def Obligations.TheChoiceTakesTheHighestRanked : Prop :=
  (∀ s : State, sendingAllowed s = true → s.notices.window.length < 4 →
    let first := fun n : Notice =>
      n ∈ s.notices.queue ∧ n.cls ≠ 0 ∧ (s.notices.globalHold = true → 7 < n.cls) ∧ (s.notices.quietEnd ≠ none → 6 < n.cls) ∧
        ∀ m ∈ s.notices.queue, isCandidate s m = true → m ≠ n →
          m.cls < n.cls ∨
            m.cls = n.cls ∧
              (n.createdDate < m.createdDate ∨
                n.createdDate = m.createdDate ∧
                  (n.createdTime < m.createdTime ∨ n.createdTime = m.createdTime ∧ n.number < m.number))
    let queueWith := fun (n : Notice) (f : Notice → Notice) => s.notices.queue.map fun m => if m.number = n.number then f m else m
    let sent := fun (n : Notice) (f : Notice → Notice) (slot : Slot) (position : Nat) (p : Pupil) (c : Contact) =>
      { s with
        notices :=
          { s.notices with
            queue := queueWith n f
            window := s.notices.window ++ [⟨⟨n.number, slot, position⟩, s.time.running, .awaitTake⟩] }
        gateway :=
          { s.gateway with
            outbound :=
              s.gateway.outbound ++
                [.send
                  ⟨⟨n.number, slot, position⟩, n.kind, p.enrolment.reference, c.id, c.channel,
                    if n.kind = .late ∨ n.kind = .arrived then p.day.arrival else none,
                    (n.textSlot.map fun k => s.notices.texts.getD k []).getD []⟩] } }
    ∀ n : Notice, first n →
      (∀ (slot : Slot) (position : Nat) (p : Pupil) (c : Contact),
        n.addressee = .pupil slot position → n.inWindow = false → pupilAt slot s = some p →
        p.enrolment.contacts[position]? = some c →
        chooseOnce s = some (sent n (fun m => { m with inWindow := true }) slot position p c)) ∧
      (∀ (slot : Slot) (position : Nat), RollOk s → n.addressee = .pupil slot position → n.inWindow = false →
        (∀ p, pupilAt slot s = some p → p.enrolment.contacts.length ≤ position) →
        ∃ u, chooseOnce s = some u ∧ Exhausted n slot s u) ∧
      ∀ b, n.addressee = .broadcast b → RollOk s → (s.notices.queue.map (·.number)).Nodup → HasSendLeft n b s →
        let moved := fun (b : BroadcastState) (m : Notice) => { m with addressee := .broadcast b }
        let counted := fun b : BroadcastState => moved { b with sent := min (b.sent + 1) 65535 }
        (∀ slot position rest, b.returned = (slot, position) :: rest →
          (∀ p c, pupilAt slot s = some p → p.enrolment.contacts[position]? = some c →
            chooseOnce s = some (finishBroadcasts (sent n (counted { b with returned := rest }) slot position p c))) ∧
          ((∀ p, pupilAt slot s = some p → p.enrolment.contacts.length ≤ position) →
            chooseOnce s =
              some
                (finishBroadcasts
                  { s with notices := { s.notices with queue := queueWith n (moved { b with returned := rest }) } }))) ∧
        (b.returned = [] → ∀ slot position, NextStep b s slot position →
          ∃ p c, pupilAt slot s = some p ∧ p.enrolment.contacts[position]? = some c ∧
            chooseOnce s =
              some
                (finishBroadcasts
                  (sent n
                    (counted
                      (if b.reach = .all ∧ position < 2 then { b with cursorSlot := slot, cursorPosition := position + 1 }
                      else { b with cursorSlot := slot + 1, cursorPosition := 0 }))
                    slot position p c)))) ∧
  (∀ s : State, (s.notices.queue.map (·.number)).Nodup →
    let finished := fun n : Notice =>
      ∃ b, n.addressee = .broadcast b ∧ ¬HasSendLeft n b s ∧ ∀ x ∈ s.notices.window, x.key.number ≠ n.number
    RollOk s →
      ((∀ n ∈ s.notices.queue, ¬finished n) → finishBroadcasts s = s) ∧
      ∀ n b, n ∈ s.notices.queue → n.addressee = .broadcast b → finished n → (∀ m ∈ s.notices.queue, m ≠ n → ¬finished m) →
        finishBroadcasts s =
          { s with
            sweep := { s.sweep with state := if s.sweep.state = .paused then .running else s.sweep.state }
            notices :=
              { s.notices with
                queue := s.notices.queue.filter (·.number ≠ n.number)
                lastBroadcast :=
                  some
                    ⟨n.number, n.kind, b.sent, b.delivered, b.failed,
                      if n.cancel then .cancelled else if b.expired then .expired else .complete⟩ }
            attention := (raise .broadcast (some (.notice n.number)) s).attention }) ∧
  (∀ s : State, sendingAllowed s = true → RollOk s → s.notices.queue.length ≤ 128 →
    (∀ n ∈ s.notices.queue, ∀ b, n.addressee = .broadcast b → b.returned.length ≤ 4) →
    (settle s).notices.window.length < 4 → ∀ n ∈ (settle s).notices.queue, isCandidate (settle s) n = false)

/-- CLASS reads and writes one class table (R156); HOLD reads and writes the global hold, and replies it with the end of an open
quiet window (R157), under a name that is the model's choice (log 8); QUIET opens a window of n minutes from now, held at
23:59:59, or ends it (R158); the Dispatcher then acts. TEXT reads, writes and empties one slot of the Text Table, and touches no
other (R172); a text is of characters 20 to 7E but the quote. They are refused as their checks say (R156–R158, R172, R193; log 31). The
class table in force is the one that the header copy of Today's Plan names, and NORMAL without one (R155). -/
def Obligations.HoldsClassesAndTextsAreWritten : Prop :=
  (∀ c : Byte, isTextChar c = true ↔ 0x20 ≤ c.toNat ∧ c.toNat ≤ 0x7E ∧ c.toNat ≠ 0x22) ∧
  (∀ s : State,
     tableInForce s =
         (match s.plan.today.header with
         | none => .normal
         | some (_, select) => select) ∧
       classTableOf .normal s = s.settings.classNormal ∧ classTableOf .alternate s = s.settings.classAlternate) ∧
  (∀ s : State, s.power.held = false →
     (∀ table write, RefusedByItsChecks (.classTable table write) s) ∧ (∀ value, RefusedByItsChecks (.hold value) s) ∧
     (∀ minutes, RefusedByItsChecks (.quiet minutes) s) ∧ ∀ slot action, RefusedByItsChecks (.text slot action) s) ∧
  (∀ s : State, s.power.held = false →
     (∀ t : Select,
       exec (.classTable (some t) none) s =
         .next
           (replied
             (.ok
               [.word (selectWord t), .num (classTableOf t s).absent, .num (classTableOf t s).late,
                 .num (classTableOf t s).arrived, .word (selectWord (tableInForce s))]) s)) ∧
     (∀ (t : Select) (a l r : Nat), storeHolds .settings s = false → a ≤ 15 → l ≤ 15 → r ≤ 15 →
       ∃ u,
         exec (.classTable (some t) (some (a, l, r))) s =
           .next
             (replied
               (.ok [.word (selectWord t), .num a, .num l, .num r, .word (selectWord (tableInForce s))]) u) ∧
         classTableOf t u = ⟨a, l, r⟩ ∧ (∀ k, k ≠ t → classTableOf k u = classTableOf k s) ∧
         u =
           { s with
             settings :=
               { s.settings with classNormal := u.settings.classNormal, classAlternate := u.settings.classAlternate } }) ∧
     exec (.hold none) s =
       .next (replied (.ok (onOff s.notices.globalHold :: optItem "QUIET" .time s.notices.quietEnd)) s) ∧
     (∀ b : Bool,
       exec (.hold (some (some b))) s =
         .next
           (replied (.ok (onOff b :: optItem "QUIET" .time s.notices.quietEnd))
             (settle { s with notices := { s.notices with globalHold := b } }))) ∧
     ∀ minutes ≤ 240, (minutes = 0 ∨ s.time.valid = true) →
       let e := if minutes = 0 then none else some (min (s.time.school + 60 * minutes) 86399)
       exec (.quiet minutes) s =
         .next
           (replied (.ok [(e.map Item.time).getD (.word "NONE")])
             (settle { s with notices := { s.notices with quietEnd := e } }))) ∧
  (∀ (slot : Nat) (s : State), s.power.held = false → slot < 16 → s.notices.texts.length = 16 →
     (∀ t, s.notices.texts[slot]? = some t →
       exec (.text slot .read) s = .next (replied (.ok [if t = [] then .word "EMPTY" else .quoted t]) s)) ∧
     (∀ t : Text, storeHolds .texts s = false → 1 ≤ t.length → t.length ≤ 160 → (∀ c ∈ t, isTextChar c = true) →
       exec (.text slot (.write t)) s =
         .next (replied (.ok []) { s with notices := { s.notices with texts := s.notices.texts.set slot t } })) ∧
     (storeHolds .texts s = false →
       exec (.text slot .empty) s =
         if ∃ n ∈ s.notices.queue, n.textSlot = some slot then .next (replied (.refused .wrongState) s)
         else .next (replied (.ok []) { s with notices := { s.notices with texts := s.notices.texts.set slot [] } })))

/-- POST and BROADCAST add one WAITING GENERAL notice at the tail of the queue, created now, with the given class, text slot and
deadline, and reply its number (R173, R174); the number is the first free one past the last issued, in 1–65,535, and stays in the
counter (R154). Both are refused as their checks say (R173, R174, R193). -/
def Obligations.PostAndBroadcastAddANotice : Prop :=
  (∀ s : State, s.power.held = false →
     (∀ a, RefusedByItsChecks (.post a) s) ∧ ∀ a, RefusedByItsChecks (.broadcast a) s) ∧
  ∀ (s : State) (cls textSlot : Nat) (deadline : Option SchoolTime),
    s.power.held = false → 1 ≤ cls → cls ≤ 14 → textSlot < 16 → s.notices.texts.getD textSlot [] ≠ [] →
    (∀ d, deadline = some d → d < 86400 ∧ s.time.valid = true ∧ s.time.school < d) → s.notices.queue.length < 128 →
    let number := nextNoticeNumber s
    let added := fun to_ : Addressee =>
      settle
        { s with
          notices :=
            { s.notices with
              counter := number
              queue :=
                s.notices.queue ++
                  [⟨number, .general, to_, cls, s.time.date, s.time.school, deadline, some textSlot, false, false⟩] } }
    (∀ (slot : Slot) (position : Nat) (p : Pupil), slot < 2048 → pupilAt slot s = some p →
      position < p.enrolment.contacts.length → position ≤ 2 →
      exec (.post ⟨slot, cls, textSlot, position, deadline⟩) s =
        .next (replied (.ok [.num number]) (added (.pupil slot position)))) ∧
    (∀ (mask : List Nat) (reach : Reach), mask ≠ [] → mask.Pairwise (· < ·) → (∀ c ∈ mask, c ≤ 7) →
      exec (.broadcast ⟨mask, some reach, cls, textSlot, deadline⟩) s =
        .next (replied (.ok [.num number]) (added (.broadcast ⟨mask, reach, 0, 0, [], 0, 0, 0, false⟩)))) ∧
    (s.notices.counter ≤ 65535 → NumberIssued s.notices.counter (s.notices.queue.map (·.number)) number)

/-- CANCEL withdraws a pupil notice, a WAITING one at once, an IN_WINDOW one at its result; of an ABSENT notice it makes the pupil
ABSENT_UNREACHED with source OFFICE and raises UNREACHED; a broadcast makes no further send and is removed at once where none of its sends
stands in the window, whatever else is queued that still has a send to make (R169, R171). A PAUSED sweep is RUNNING where a notice left the
queue (R145). It is refused as its checks say (R169, R193). -/
def Obligations.CancelWithdrawsOneNotice : Prop :=
  (∀ (number : Nat) (s : State), s.power.held = false → RefusedByItsChecks (.cancel number) s) ∧
  ∀ (n : Notice) (s : State),
    s.power.held = false → 1 ≤ n.number → n.number ≤ 65535 → noticeAt n.number s = some n →
    (∀ m ∈ s.notices.queue, m.number = n.number → m = n) →
    (n.cancel = true → exec (.cancel n.number) s = .next (replied (.refused .wrongState) s)) ∧
    (∀ slot position, n.cancel = false → n.addressee = .pupil slot position →
      ∃ u,
        exec (.cancel n.number) s =
          .next
            (replied (.ok [.num n.number, .word (if n.inWindow then "AWAITING_RESULT" else "REMOVED")]) (settle u)) ∧
        noticeAt n.number u = (if n.inWindow then some { n with cancel := true } else none) ∧ SweepHeard (NoticeLeft s u) s u ∧
        (n.kind ≠ .absent → u.roll = s.roll ∧ u.attention = s.attention ∧
          Withdrawn (·.number = n.number) s.notices.queue u.notices.queue) ∧
        (n.kind = .absent → OthersKept slot s u ∧ u.attention = (raise .unreached (some (.slot slot)) s).attention ∧
          ∀ p, pupilAt slot s = some p → p.day.mark = .absentPending →
            pupilAt slot u = some { p with day := { p.day with mark := .absentUnreached, source := some .office } })) ∧
    (∀ b, n.cancel = false → n.addressee = .broadcast b →
      RollOk s → (∀ x ∈ s.notices.window, x.key.number ≠ n.number) →
      (∀ m ∈ s.notices.queue, m ≠ n → ∀ c, m.addressee = .broadcast c →
        HasSendLeft m c s ∨ ∃ x ∈ s.notices.window, x.key.number = m.number) →
      ∃ u,
        exec (.cancel n.number) s = .next (replied (.ok [.num n.number, .word "REMOVED"]) (settle u)) ∧
        u.notices =
          { s.notices with
            queue := s.notices.queue.filter (·.number ≠ n.number)
            lastBroadcast := some ⟨n.number, n.kind, b.sent, b.delivered, b.failed, .cancelled⟩ } ∧
        SweepHeard (NoticeLeft s u) s u ∧ u.roll = s.roll ∧ u.attention = (raise .broadcast (some (.notice n.number)) s).attention) ∧
    (∀ b, n.cancel = false → n.addressee = .broadcast b → (∃ x ∈ s.notices.window, x.key.number = n.number) →
      ∃ u,
        exec (.cancel n.number) s = .next (replied (.ok [.num n.number, .word "AWAITING_RESULT"]) (settle u)) ∧
        noticeAt n.number u = some { n with cancel := true, addressee := .broadcast { b with returned := [] } } ∧
        SweepHeard (NoticeLeft s u) s u ∧ u.roll = s.roll)

/-- The level a source counts with (R194, R196): 8 for a fixed source, the level of an enabled one, 0 for one not enabled. -/
def levelInForce (s : State) (n : Nat) : Nat :=
  if n < 2 then 8 else if s.settings.enables.getD n true then s.settings.levels.getD n 0 else 0

/-- A source is pending: its flag is set and its level in force is above the floor (R196). -/
def SourcePending (s : State) (n : Nat) : Prop :=
  n < 14 ∧ (sourceAt n s).flag = true ∧ s.settings.floor < levelInForce s n

/-- The top source (R197): of the pending ones the one of highest effective level, the lowest number first among equals; none where
none is pending. -/
def TopSource (s : State) : Option Nat → Prop
  | none => ∀ n, ¬SourcePending s n
  | some n =>
    SourcePending s n ∧
      ∀ m, SourcePending s m →
        levelInForce s m < levelInForce s n ∨ (levelInForce s m = levelInForce s n ∧ n ≤ m)

/-- NOTICES, and the other reports with no part of their own to change: CLOCK (R29), DAY (R45), TERMINALS (R122), NOTICES (R175),
INBOX's summary (R189), STATUS (R197), GET (R204) and GET STORE (R205) reply and change nothing; both forms of GET leave the strap's
level as read (that it is an operand is the model's choice, log 7). A page of NOTICES or of INBOX holds as many entries, at most eight,
as fit in the line behind its summary (R192; log 11). DAY and TERMINALS are answered OK from every start: that a FROM past the last
item gives no items is the model's choice (log 39), and so is the number that MORE gives in a reply that itself began at FROM (log 10).
GET STORE gives the whole of its values, which fit in a line (R192, R205). How a NOTICES summary is cut that is longer than a line, and
the words, names and units of the values that no rule gives, are the model's choices (log 45, log 8), as are the number of sends
before them, their order oldest first and the bare name of the class table in that summary (log 50, log 55), the cohort's number before
each Cohort Table entry of DAY (log 54), and that a message without matched slots is shown without SLOTS (log 53). STATUS's top source
is the pending source of highest effective level, the lowest number first (R196, R197). They are refused as their checks say (R175,
R189, R193, R197, R204; log 31). -/
def Obligations.ReportsChangeNothing : Prop :=
  ∀ s : State, s.power.held = false →
    (RefusedByItsChecks .clock s ∧ (∀ start, RefusedByItsChecks (.day start) s) ∧
      (∀ start, RefusedByItsChecks (.terminals start) s) ∧
      (∀ kind slot start, RefusedByItsChecks (.notices kind slot start) s) ∧
      (∀ start, RefusedByItsChecks (.inbox (.summary start)) s) ∧ (∀ source, RefusedByItsChecks (.status source) s) ∧
      ∀ target strap, RefusedByItsChecks (.getSetting target strap) s) ∧
    exec .clock s =
      .next
        (replied
          (.ok
            [.time s.time.school, .date s.time.date, .word (weekdayWord (weekday s.time.date)),
              .word (if s.time.valid then "VALID" else "INVALID"), onOff s.settings.minutePulse])
          s) ∧
    (∀ start, exec (.day start) s =
      .next (replied (.ok (moreItems start (dayPart s :: (List.range 8).map fun n =>
        cohortItems n (s.day.cohorts.getD n .fresh)))) s)) ∧
    (∀ start, exec (.terminals start) s = .next (replied (.ok (moreItems start (terminalsParts s))) s)) ∧
    (∀ (kind : Option NoticeKind) (slot : Option Slot) (start : Nat), (∀ k, slot = some k → k < 2048) → 1 ≤ start →
      start ≤ 65535 →
      ∃ items, exec (.notices (kind.map some) slot start) s = .next (replied (.ok items) s) ∧
        PageOf 8 (noticesHead s) noticeItems (nextNumber (·.number))
          (byNumber (s.notices.queue.filter fun n =>
            start ≤ n.number && kind.all (· = n.kind) && slot.all fun k => noticeMatchesSlot k s n))
          items) ∧
    (∀ start : Option Nat, (∀ n, start = some n → 1 ≤ n ∧ n ≤ 65535) →
      ∃ items, exec (.inbox (.summary start)) s = .next (replied (.ok items) s) ∧
        PageOf 8 (inboxHead s) messageItems (nextNumber (·.number))
          ((s.gateway.inbox.foldr placeMessage []).filter fun m => start.getD 1 ≤ m.number) items) ∧
    (∀ top : Option Nat, TopSource s top →
      exec (.status none) s =
        .next
          (replied
            (.ok
              ((match top with
                  | none => [Item.word "NONE"]
                  | some n =>
                    [.num n, .word (sourceName n), .num (levelInForce s n), .num (sourceAt n s).count] ++
                      subjectItems (sourceAt n s).subject) ++
                ((List.range 14).filter fun n => (sourceAt n s).flag).flatMap
                  (fun n => [.num n, .num (sourceAt n s).count]) ++
                [.num s.settings.floor, yesNo (attnActive s), .num s.office.overrun, .word (startWord s.power.lastStart)]))
            s)) ∧
    (∃ top : Option Nat, TopSource s top) ∧
    (∀ n < 14,
      exec (.status (some n)) s =
        .next
          (replied
            (.ok
              ([.num n, .word (sourceName n), yesNo (sourceAt n s).flag, .num (sourceAt n s).count] ++
                subjectItems (sourceAt n s).subject ++
                [onOff (n < 2 || s.settings.enables.getD n true),
                  .num (if n < 2 then 8 else s.settings.levels.getD n 0), .num (levelInForce s n)]))
            s)) ∧
    (∀ (r : SettingRef) (strap : Bool) (v d : SettingValue), readSetting r s.settings s.limits = some v →
      readSetting r .default .default = some d →
      exec (.getSetting (.setting r) strap) s =
        .next
          (replied (.ok (settingItems r ++ valueItems r v ++ valueItems r d))
            { s with pins := { s.pins with install := strap } })) ∧
    ∀ strap : Bool,
      let items :=
        (match s.store.operation with
          | none => [Item.word "IDLE"]
          | some o =>
            [.word (storeKindWord o.kind), .set ((allAreas.filter o.areas.contains).map areaNumber)] ++
              optItem "RUNNING" (fun a => .word (areaWord a)) o.rest.head?) ++
          [yesNo strap] ++
          match s.store.lastOperation with
          | none => []
          | some r =>
            .named "LAST" (.word (storeKindWord r.kind)) ::
                (allAreas.filterMap fun a =>
                  (r.results.find? (·.1 = a)).map fun e => .named (areaTag a) (.word (resultWord e.2))) ++
              [.named "START" (.time r.start), .named "END" (.time r.finish)]
      exec (.getSetting .store strap) s =
        .next (replied (.ok items) { s with pins := { s.pins with install := strap } }) ∧
      ((∀ r, s.store.lastOperation = some r → r.start < 86400 ∧ r.finish < 86400) → fits items = true)

/-- A send was taken back (R162, R168, R170): it left the window; its pupil notice returned to WAITING unchanged, or left the queue
where it carried cancel-on-result, and a PAUSED sweep is then RUNNING (R145); a broadcast that goes on has its step back at the
tail. -/
def SendReturned (key : SendKey) (s u : State) : Prop :=
  u =
    { s with
      notices := { s.notices with queue := u.notices.queue, window := s.notices.window.filter (·.key ≠ key) }
      sweep := u.sweep } ∧
  SweepHeard (NoticeLeft s u) s u ∧
  ∀ n, noticeAt key.number s = some n →
    (∀ slot position, n.addressee = .pupil slot position →
      u.notices.queue =
        if n.cancel then s.notices.queue.filter (·.number ≠ key.number)
        else s.notices.queue.map fun m => if m.number = key.number then { m with inWindow := false } else m) ∧
    (∀ b, n.addressee = .broadcast b →
      noticeAt key.number u =
        some
          (if n.cancel = true ∨ b.expired = true then n
          else { n with addressee := .broadcast { b with returned := b.returned ++ [(key.slot, key.position)] } }) ∧
      ∀ m, m ≠ key.number → noticeAt m u = noticeAt m s)

/-- A send failed (R164, R168, R171): it left the window; its pupil notice moved to the next contact, or was exhausted (`Exhausted`), or
left the queue where it carried cancel-on-result, and a PAUSED sweep is RUNNING where it left (R145); a broadcast counted it. -/
def SendFailed (key : SendKey) (s u : State) : Prop :=
  u =
    { s with
      notices := { s.notices with queue := u.notices.queue, window := s.notices.window.filter (·.key ≠ key) }
      roll := { s.roll with roster := u.roll.roster, census := u.roll.census }
      sweep := u.sweep
      attention := u.attention } ∧
  SweepHeard (NoticeLeft s u) s u ∧
  ∀ n, noticeAt key.number s = some n →
    (∀ b, n.addressee = .broadcast b → u.roll = s.roll ∧ u.attention = s.attention ∧
      noticeAt key.number u = some { n with addressee := .broadcast { b with failed := min (b.failed + 1) 65535 } } ∧
      ∀ m, m ≠ key.number → noticeAt m u = noticeAt m s) ∧
    (∀ slot position, n.addressee = .pupil slot position →
      (n.cancel = true → u.notices.queue = s.notices.queue.filter (·.number ≠ key.number) ∧ u.roll = s.roll ∧
        u.attention = s.attention) ∧
      (n.cancel = false → position + 1 < (contactsAt slot s).length →
        u.roll = s.roll ∧ u.attention = s.attention ∧
        u.notices.queue =
          s.notices.queue.map fun m =>
            if m.number = key.number then { m with addressee := .pupil slot (position + 1), inWindow := false } else m) ∧
      (n.cancel = false → (contactsAt slot s).length ≤ position + 1 → noticeAt key.number u = none ∧
        Exhausted n slot
          { s with notices := { s.notices with window := s.notices.window.filter (·.key ≠ key) } } u))

/-- A send was delivered (R165, R168, R171, R136): it left the window, and its notice the queue, in which every other notice stands as it
was; an ABSENT notice's pupil was asked, and leaves ABSENT_PENDING with every ABSENT notice to it withdrawn (R6); a cancel-marked ABSENT
notice of a pupil who has arrived brought the ARRIVED correction, numbered as every new notice (R154), and took a WAITING LATE notice of the
pupil with it; a broadcast counted it. Where a notice left, a PAUSED sweep is RUNNING (R145). -/
def SendDelivered (key : SendKey) (s u : State) : Prop :=
  u =
    { s with
      notices :=
        { s.notices with
          queue := u.notices.queue, window := s.notices.window.filter (·.key ≠ key), counter := u.notices.counter }
      roll := { s.roll with roster := u.roll.roster, census := u.roll.census }
      sweep := u.sweep } ∧
  SweepHeard ((noticeAt key.number s).any Notice.isPupil) s u ∧
  ∀ n, noticeAt key.number s = some n →
    (∀ b, n.addressee = .broadcast b → u.roll = s.roll ∧ u.notices.counter = s.notices.counter ∧
      noticeAt key.number u = some { n with addressee := .broadcast { b with delivered := min (b.delivered + 1) 65535 } } ∧
      ∀ m, m ≠ key.number → noticeAt m u = noticeAt m s) ∧
    (∀ slot position, n.addressee = .pupil slot position →
      (n.kind ≠ .absent → u.roll = s.roll ∧ u.notices.counter = s.notices.counter ∧
        u.notices.queue = s.notices.queue.filter (·.number ≠ key.number)) ∧
      (n.kind = .absent → n.cancel = false →
        noticeAt key.number u = none ∧ u.notices.counter = s.notices.counter ∧
        Withdrawn (fun m => (pupilAt slot s).any (·.day.mark = .absentPending) && m.isAbsentOf slot)
          (s.notices.queue.filter (·.number ≠ key.number)) u.notices.queue ∧
        ∀ k, pupilAt k u =
          (pupilAt k s).map fun p =>
            if k = slot ∧ p.day.mark = .absentPending then
              { p with day := { p.day with mark := .absentAsked, source := some .notice, asked := some key.position } }
            else p) ∧
      (n.kind = .absent → n.cancel = true →
        ((∀ p, pupilAt slot s = some p → isArrivalMark p.day.mark = false) →
          u.roll = s.roll ∧ u.notices.counter = s.notices.counter ∧
          u.notices.queue = s.notices.queue.filter (·.number ≠ key.number)) ∧
        ∀ p, pupilAt slot s = some p → isArrivalMark p.day.mark = true →
          let others :=
            s.notices.queue.filter fun m => m.number ≠ key.number && !(m.kind = .late && m.isTo slot && !m.inWindow)
          OthersKept slot s u ∧ pupilAt slot u = some { p with day := { p.day with asked := some key.position } } ∧
          (s.notices.counter ≤ 65535 → others.length < 65535 →
            NumberIssued s.notices.counter (others.map (·.number)) u.notices.counter) ∧
          u.notices.queue =
            others ++
              [⟨u.notices.counter, .arrived, .pupil slot key.position, (classTableOf (tableInForce s) s).arrived,
                s.time.date, s.time.school, none, none, false, false⟩]))

/-- The Gateway Port may answer a record: fewer than 16 ANSWER frames wait (R178). -/
def MayAnswer (s : State) : Prop := (s.gateway.outbound.countP fun f => f.isAnswer) < 16

/-- No frame is in hand any more. -/
def frameTaken (s : State) : State := { s with gateway := { s.gateway with frame := none } }

/-- A record's answer joins the outbound queue and the Dispatcher acts (R179, R160). -/
def answeredBy (about : Answered) (word : AnswerWord) (u : State) : State :=
  settle { u with gateway := { u.gateway with outbound := u.gateway.outbound ++ [.answer about word] } }

/-- An answer from the gateway to a send returns the Port's count to 0 while the link is UP (R162, R180). -/
def countCleared (u : State) : State :=
  { u with
    gateway := { u.gateway with timeouts := if u.gateway.link = .up then 0 else u.gateway.timeouts } }

/-- A RECEIPT acts by its send's state: TAKE makes it AWAIT_OUTCOME, BUSY takes the send back and begins a busy pause of 30 s,
REFUSE is a failure; any but TAKE in AWAIT_OUTCOME, or a key of no send, is STALE (R162, R179). What a send taken back leaves is
`SendReturned` (R168, R170), what a failure leaves is `SendFailed` (R164, R168, R171). That the ANSWER joins the outbound
queue before the SEND records of the choice in the same step is the model's choice (log 26). -/
def Obligations.ReceiptsActOnTheSend : Prop :=
  ∀ (key : SendKey) (s : State), s.power.held = false → MayAnswer s → Machine.keyOk key = true →
    let s0 := frameTaken s
    (sendAt key s = none →
      ∀ a, exec (.receipt key a) s = .next (answeredBy (.receipt key) .stale s0)) ∧
    (∀ x, sendAt key s = some x → x.state = .awaitOutcome →
      exec (.receipt key .take) s = .next (answeredBy (.receipt key) .known s0) ∧
      exec (.receipt key .busy) s = .next (answeredBy (.receipt key) .stale s0) ∧
      exec (.receipt key .refuse) s = .next (answeredBy (.receipt key) .stale s0)) ∧
    (∀ x, sendAt key s = some x → x.state = .awaitTake →
      exec (.receipt key .take) s =
        .next
          (answeredBy (.receipt key) .known
            (countCleared
              { s0 with
                notices :=
                  { s0.notices with
                    window := s.notices.window.map fun y => if y.key = key then { y with state := .awaitOutcome } else y } })) ∧
      (∃ u, SendReturned key s0 u ∧
        exec (.receipt key .busy) s =
          .next
            (answeredBy (.receipt key) .known
              (countCleared { u with notices := { u.notices with busyEnd := some (s.time.running + 3000) } }))) ∧
      ∃ u, SendFailed key s0 u ∧
        exec (.receipt key .refuse) s = .next (answeredBy (.receipt key) .known (countCleared u)))

/-- An OUTCOME is taken for a send in either state, DELIVERED or as a failure, and is STALE for a key of no send (R163, R179); a
send in AWAIT_OUTCOME meets the outcome limit 900 s after its sent time, as a failure (R163). That OUTCOME_LIMIT before its time
changes nothing, and where running time goes at it, is the model's choice (log 2). That the ANSWER joins the outbound queue before
the SEND records of the choice in the same step is the model's choice (log 26). What a failure leaves is `SendFailed` (R164, R168,
R171), what a delivery leaves is `SendDelivered` (R136, R165, R168, R171): a cancel-marked ABSENT notice delivered for a pupil who
has arrived brings the ARRIVED correction in every day state, CLOSED included, which is the model's reading of R21 beside R136 (log
38). -/
def Obligations.OutcomesEndTheSend : Prop :=
  ∀ (key : SendKey) (s : State), s.power.held = false →
    (MayAnswer s → Machine.keyOk key = true →
      (sendAt key s = none →
        ∀ d, exec (.outcome key d) s = .next (answeredBy (.outcome key) .stale (frameTaken s))) ∧
      (∀ x, sendAt key s = some x →
        (∃ u, SendDelivered key (frameTaken s) u ∧
          exec (.outcome key true) s = .next (answeredBy (.outcome key) .known u)) ∧
        ∃ u, SendFailed key (frameTaken s) u ∧
          exec (.outcome key false) s = .next (answeredBy (.outcome key) .known u))) ∧
    ∀ x, sendAt key s = some x →
      (x.state = .awaitOutcome → x.sentAt + 90000 < nextSecond s →
        ∃ u, exec (.outcomeLimit key) s = .next (settle u) ∧
          SendFailed key
            { s with time := { s.time with running := max s.time.running (x.sentAt + 90000) } } u) ∧
      (x.state = .awaitTake ∨ nextSecond s ≤ x.sentAt + 90000 → exec (.outcomeLimit key) s = .next s)

/-- A deadline reached removes a WAITING notice: an ABSENT one makes its pupil ABSENT_UNREACHED, a GENERAL one raises UNREACHED with
its number, a GENERAL broadcast expires (R166, R167), a PAUSED sweep is RUNNING where the notice left (R145); the busy pause and the
quiet window end at their times (R158, R159). That BUSY_PAUSE_END before its time changes nothing, and where running time goes at it,
is the model's choice (log 2), and so is that QUIET_WINDOW_END before its time changes nothing (log 3). -/
def Obligations.DeadlinesAndPausesEnd : Prop :=
  ∀ s : State, s.power.held = false →
    (∀ (n : Notice) (slot : Slot) (position : Nat), noticeAt n.number s = some n → n.addressee = .pupil slot position →
      n.inWindow = false →
      (∀ d, n.kind = .absent → s.notices.deadline = some d → d ≤ s.time.school →
        ∃ u, exec (.absentDeadlineExpiry n.number) s = .next (settle u) ∧ noticeAt n.number u = none ∧
          SweepHeard (NoticeLeft s u) s u ∧ OthersKept slot s u ∧
          u.attention = (raise .unreached (some (.slot slot)) s).attention ∧
          ∀ p, pupilAt slot s = some p → p.day.mark = .absentPending →
            pupilAt slot u = some { p with day := { p.day with mark := .absentUnreached, source := some .notice } }) ∧
      (∀ d, n.kind = .general → n.deadline = some d → (d ≤ s.time.school ∨ s.time.date ≠ n.createdDate) →
        ∃ u, exec (.generalDeadline n.number) s = .next (settle u) ∧ u.roll = s.roll ∧
          u.notices = { s.notices with queue := s.notices.queue.filter (·.number ≠ n.number) } ∧
          SweepHeard (NoticeLeft s u) s u ∧ u.attention = (raise .unreached (some (.notice n.number)) s).attention)) ∧
    (∀ (n : Notice) (b : BroadcastState) (d : SchoolTime), noticeAt n.number s = some n → n.addressee = .broadcast b →
      n.kind = .general → n.deadline = some d → (d ≤ s.time.school ∨ s.time.date ≠ n.createdDate) → b.expired = false →
      ∃ u, exec (.generalDeadline n.number) s = .next (settle u) ∧
        u = { s with notices := { s.notices with queue := u.notices.queue } } ∧
        noticeAt n.number u = some { n with addressee := .broadcast { b with expired := true, returned := [] } }) ∧
    (∀ t, s.notices.busyEnd = some t →
      (t < nextSecond s →
        exec .busyPauseEnd s =
          .next
            (settle
              { s with
                time := { s.time with running := max s.time.running t }
                notices := { s.notices with busyEnd := none } })) ∧
      (nextSecond s ≤ t → exec .busyPauseEnd s = .next s)) ∧
    ∀ e, s.notices.quietEnd = some e →
      (e ≤ s.time.school →
        exec .quietWindowEnd s = .next (settle { s with notices := { s.notices with quietEnd := none } })) ∧
      (s.time.school < e → exec .quietWindowEnd s = .next s)

/-! ### The gateway link and parent replies -/

/-- The third take timeout in a row makes an UP link DOWN with a PING and attention GATEWAY (R162, R180); while DOWN a PING
follows every 30 s, and a PONG of its number makes the link UP; any other PONG is STALE (R181). That running time goes to the due
time of the timeout or the ping is the model's choice (log 2). That the ANSWER joins the outbound queue before the SEND records of
the choice in the same step is the model's choice (log 26). -/
def Obligations.TheLinkFallsAndReturns : Prop :=
  ∀ s : State, s.power.held = false →
    let ping := (s.gateway.pingNumber + 1) % 256
    (∀ (key : SendKey) (x : Send), sendAt key s = some x → x.state = .awaitTake → x.sentAt + 200 < nextSecond s →
      let now := max s.time.running (x.sentAt + 200)
      ∃ v, SendReturned key { s with time := { s.time with running := now } } v ∧
        exec (.takeTimeout key) s =
          .next
            (settle
              (if s.gateway.link = .down then v
              else if s.gateway.timeouts < 2 then
                { v with gateway := { s.gateway with timeouts := s.gateway.timeouts + 1 } }
              else
                { v with
                  gateway :=
                    { s.gateway with
                      link := .down, timeouts := 3, pingNumber := ping, nextPing := some (now + 3000),
                      outbound := s.gateway.outbound ++ [.ping ping] }
                  attention := (raise .gateway none s).attention }))) ∧
    (∀ t, s.gateway.link = .down → s.gateway.nextPing = some t → t < nextSecond s →
      exec .nextPing s =
        .next
          { s with
            time := { s.time with running := max s.time.running t }
            gateway :=
              { s.gateway with
                pingNumber := ping, nextPing := some (t + 3000), outbound := s.gateway.outbound ++ [.ping ping] } }) ∧
    (s.gateway.link = .up → exec .nextPing s = .next s) ∧
    ∀ number < 256, MayAnswer s →
      exec (.pong number) s =
        .next
          (if s.gateway.link = .down ∧ number = s.gateway.pingNumber then
            answeredBy (.pong number) .known
              { frameTaken s with
                gateway := { (frameTaken s).gateway with link := .up, timeouts := 0, nextPing := none }
                attention := (raise .gateway none s).attention }
          else answeredBy (.pong number) .stale (frameTaken s))

/-- The Port assembles frames byte by byte: a start byte begins one, others are passed over; a whole frame with a good check is the
record its body spells, every other is discarded and counted, as is one broken off by a gap; sent frames leave the queue (R178, R179).
A body spells a record in range exactly where it is `Inbound.contents` of it, pad included (R210). A record with a field out of its
range, or one that comes while 16 ANSWER frames wait, is discarded and counted too, gets no ANSWER and acts on no block (R178, R210);
that the rows of the four records are completed frames that may be discarded so is the model's reading (log 25). An outbound frame is
the start byte, its length and body, and their check; the Port sends the oldest, and nothing while the part is held (R179, R206, R208,
R210). -/
def Obligations.FramesAreAssembled : Prop :=
  (∀ f : Frame,
     let body := evened f.contents
     f.bytes = 0x7E :: checkedBytes (BitVec.ofNat 8 (body.length / 2) :: body)) ∧
  (∀ s : State,
     (s.power.held = true → outboundBytes s = []) ∧
     (s.power.held = false → outboundBytes s = match s.gateway.outbound with | [] => [] | f :: _ => f.bytes)) ∧
  (∀ r : Inbound, (inboundOk r = true ↔ r.InRange) ∧ (r.InRange → ∀ body, inboundOf body = some r ↔ body = r.contents)) ∧
  ∀ s : State, s.power.held = false →
    let dropped := { s with gateway := { s.gateway with frame := none, discarded := min (s.gateway.discarded + 1) 65535 } }
    (∀ r : Inbound, ¬r.InRange ∨ 16 ≤ (s.gateway.outbound.countP fun f => f.isAnswer) → exec r.command s = .next dropped) ∧
    exec .frameDiscarded s = .next dropped ∧
    (exec .frameGap s = .next (if s.gateway.frame = none then s else dropped)) ∧
    (exec .outboundFrameSent s = .next { s with gateway := { s.gateway with outbound := s.gateway.outbound.tail } }) ∧
    ∀ b : Byte,
      (s.gateway.frame = none →
        exec (.gatewayByteReceived b) s =
          .next (if b = 0x7E#8 then { s with gateway := { s.gateway with frame := some [] } } else s)) ∧
      ∀ t l, s.gateway.frame = some t → l = t ++ [b] →
        (l.length ≠ 2 * (l.getD 0 0).toNat + 3 →
          exec (.gatewayByteReceived b) s = .next { s with gateway := { s.gateway with frame := some l } }) ∧
        (l.length = 2 * (l.getD 0 0).toNat + 3 →
          (goodCheck l = false ∨ inboundOf ((l.drop 1).take (l.length - 3)) = none →
            exec (.gatewayByteReceived b) s = .next dropped) ∧
          (goodCheck l = true →
            ∀ r, inboundOf ((l.drop 1).take (l.length - 3)) = some r →
              exec (.gatewayByteReceived b) s = exec r.command s))

/-- The Away List after a range is offered for a slot (R25): a new entry in its place, nothing where the list is full, or one entry
from the earliest first date to the latest last date of those it overlaps and its own, with the earliest one's reason and source. -/
def awayAfter (first last : Date) (l : List AwayEntry) (slot : Slot) : List AwayEntry :=
  let hit := fun e : AwayEntry => e.slot = slot && e.first ≤ last && first ≤ e.last
  match l.filter hit with
  | [] => if l.length < 256 then placeAway ⟨slot, first, last, .ill, .parent⟩ l else l
  | h :: t =>
    placeAway { h with first := min first h.first, last := t.foldl (fun d e => max d e.last) (max last h.last) }
      (l.filter (!hit ·))

/-- A REPLY is matched to the pupil of its reference, or else to every pupil of the contact not yet accounted for, in slot order (R182);
an ILL reply of two days or more offers each a range from tomorrow, or from today while the day is not OPEN, to today + n − 1, cut at
2099-12-31, none with the clock invalid (R185); it needs the Inbox for the first reason that holds of TEXT, NO_MATCH, NO_EFFECT and
WITH_TEXT (R183); it is answered BUSY, INBOX_FULL or TAKEN (R183). Taken, its code marks each matched pupil not yet accounted for while the day is OPEN
(R184); the range it offers, if any, is added to the Away List of each matched slot, refused with FULL, or merged with the slot's
entries that it overlaps (R25, R185), and acts on today, while the day is OPENING, for a slot the opening sweep has passed (R24);
the ABSENT notice of a pupil that leaves ABSENT_PENDING is withdrawn (R6, R184), and a PAUSED sweep is RUNNING where one left the queue
(R145); and what needs the office joins the Parent Inbox
under the first free number past the last issued, with attention INBOX (R188). How a merged range acts on today is the model's choice (log 29). That the ANSWER joins the outbound
queue before the SEND records of the choice in the same step is the model's choice (log 26). -/
def Obligations.RepliesMarkTheMatchedPupils : Prop :=
  ∀ (r : ParentReply) (s : State),
    s.power.held = false → RollOk s → MayAnswer s → inboundOk (.reply r) = true →
    let matched := (matchSet r s).map Prod.fst
    let s0 := frameTaken s
    (∀ k p, pupilAt k s = some p → r.reference = some p.enrolment.reference →
      (∀ j q, pupilAt j s = some q → q.enrolment.reference = p.enrolment.reference → j = k) → matched = [k]) ∧
    ((∀ k p, pupilAt k s = some p → r.reference ≠ some p.enrolment.reference) →
      matched.Pairwise (· < ·) ∧
      ∀ k, k ∈ matched ↔
        ∃ p, pupilAt k s = some p ∧ isUnaccountedMark p.day.mark = true ∧ ∃ c ∈ p.enrolment.contacts, c.id = r.contact) ∧
    (let present := if s.day.state = .closed then s.time.date else s.day.date.getD s.time.date
     let from_ := if s.day.state = .open_ then present + 1 else present
     (∀ n, r.code = .ill n → 2 ≤ n → s.time.valid = true → from_ ≤ 36524 →
       rangeOffered r.code s = some (from_, min (present + n - 1) 36524)) ∧
     ((∀ n, r.code = .ill n → n < 2 ∨ s.time.valid = false ∨ 36524 < from_) → rangeOffered r.code s = none)) ∧
    inboxReason r s =
      (if r.code = .text then some .text
      else if matched = [] then some .noMatch
      else if rangeOffered r.code s = none ∧
          ¬(s.day.state = .open_ ∧ ∃ e ∈ matchSet r s, isUnaccountedMark e.2.day.mark = true) then
        some .noEffect
      else if r.text ≠ [] then some .withText
      else none) ∧
    (s.gateway.inboxCounter ≤ 65535 → s.gateway.inbox.length < 65535 →
      NumberIssued s.gateway.inboxCounter (s.gateway.inbox.map (·.number)) (nextMessageNumber s)) ∧
    (rangeOffered r.code s ≠ none → matched ≠ [] → storeHolds .away s = true →
      exec (.reply r) s = .next (answeredBy (.reply r.contact) .busy s0)) ∧
    (rangeOffered r.code s = none ∨ matched = [] ∨ storeHolds .away s = false →
      (inboxReason r s ≠ none → 32 ≤ s.gateway.inbox.length →
        exec (.reply r) s =
          .next
            (answeredBy (.reply r.contact) .inboxFull
              (if s.gateway.inboxFull then s0
              else
                { s0 with
                  gateway := { s0.gateway with inboxFull := true }
                  attention := (raise .full none s).attention }))) ∧
      (inboxReason r s = none ∨ s.gateway.inbox.length < 32 →
        ∃ u, exec (.reply r) s = .next (answeredBy (.reply r.contact) .taken u) ∧
          u =
            { s0 with
              roll := u.roll
              notices := { s.notices with queue := u.notices.queue }
              sweep := u.sweep
              gateway := u.gateway
              attention := u.attention } ∧
          SweepHeard (NoticeLeft s u) s u ∧ (rangeOffered r.code s = none → u.roll.away = s.roll.away) ∧
          (∀ first last, rangeOffered r.code s = some (first, last) →
            u.roll.away = matched.foldl (awayAfter first last) s.roll.away ∧
            (∀ k, matched = [k] → (∀ e ∈ s.roll.away, e.slot = k → last < e.first ∨ e.last < first) →
              256 ≤ s.roll.away.length → s.attention.length = 14 →
              sourceAt 11 u = (sourceAt 11 s).raised (some (.slot k)))) ∧
          (s.day.state ≠ .opening ∨ rangeOffered r.code s = none →
            ∀ k, pupilAt k u =
              (pupilAt k s).map fun p =>
                if k ∈ matched ∧ s.day.state = .open_ ∧ isUnaccountedMark p.day.mark = true then
                  match r.code with
                  | .ill _ =>
                    { p with day := { p.day with mark := .excused, source := some .reply, reason := some .ill, back := none } }
                  | .appointment b =>
                    { p with day := { p.day with
                      mark := .excused, source := some .reply, reason := some .appointment, back := b } }
                  | .onWay =>
                    if p.day.mark = .expected then p
                    else { p with day := { p.day with mark := .expected, source := some .reply } }
                  | .text => p
                else p) ∧
          (s.day.state = .opening → rangeOffered r.code s ≠ none →
            ∀ k, pupilAt k u =
              (pupilAt k s).map fun p =>
                match u.roll.away.find? fun e => e.slot = k && e.first ≤ today s && today s ≤ e.last with
                | some e =>
                  if k ∈ matched ∧ k < s.day.cursor ∧ isUnaccountedMark p.day.mark = true then
                    { p with day := { p.day with
                      mark := .excused, source := some .away, reason := some e.reason, back := none } }
                  else p
                | none => p) ∧
          Withdrawn (leftPending s u) s.notices.queue u.notices.queue ∧
          (inboxReason r s = none → u.gateway = s0.gateway) ∧
          ∀ x, inboxReason r s = some x →
            u.gateway =
              { s0.gateway with
                inboxCounter := nextMessageNumber s
                inbox :=
                  s.gateway.inbox ++
                    [⟨nextMessageNumber s, s.time.date, s.time.school, r.contact, r.reference, matched.take 3,
                      matched.length, r.code, x, r.text, false⟩] } ∧
            (s.attention.length = 14 → sourceAt 8 u = (sourceAt 8 s).raised (matched.head?.map .slot))))

/-- INBOX's text form answers one part of 80 bytes and sets the read flag; DISCARD removes a message, or every read one, and clears
the inbox-full flag when one leaves (R188, R189). Both are refused as their checks say (R189, R193). -/
def Obligations.InboxMessagesAreReadAndDiscarded : Prop :=
  (∀ s : State, s.power.held = false →
     (∀ number part, RefusedByItsChecks (.inbox (.text number part)) s) ∧ ∀ a, RefusedByItsChecks (.discard a) s) ∧
  ∀ (m : InboxMessage) (s : State), s.power.held = false → 1 ≤ m.number → m.number ≤ 65535 →
    s.gateway.inbox.find? (·.number = m.number) = some m →
    (∀ part ≤ 3,
      exec (.inbox (.text m.number part)) s =
        .next
          (replied
            (.ok
              (.num m.number ::
                if (m.text.drop (80 * part)).take 80 = [] then [] else [.hex ((m.text.drop (80 * part)).take 80)]))
            { s with
              gateway :=
                { s.gateway with
                  inbox := s.gateway.inbox.map fun x => if x.number = m.number then { x with read := true } else x } })) ∧
    exec (.discard (.number m.number)) s =
      .next
        (replied (.ok [])
          { s with
            gateway :=
              { s.gateway with inbox := s.gateway.inbox.filter (·.number ≠ m.number), inboxFull := false } }) ∧
    (exec (.discard .read) s =
      .next
        (replied (.ok [.num (s.gateway.inbox.countP (·.read))])
          { s with
            gateway :=
              { s.gateway with
                inbox := s.gateway.inbox.filter (!·.read)
                inboxFull := s.gateway.inboxFull && s.gateway.inbox.all (!·.read) } }))

/-! ### Attention -/

/-- A raising counts up to 255, sets the flag and takes its subject, whatever the enable and level (R195); a source is pending while
its flag is set and its effective level is above the floor, and ATTN is active while one is (R196) and the part is not held, for
every output is inactive while it is (R206). -/
def Obligations.RaisingCountsAndDrivesAttn : Prop :=
  ∀ s : State, s.attention.length = 14 →
    (∀ (id : SourceId) (subject : Option Subject),
      sourceAt id.num (raise id subject s) = ⟨true, min ((sourceAt id.num s).count + 1) 255, subject⟩ ∧
      (∀ n, n ≠ id.num → sourceAt n (raise id subject s) = sourceAt n s) ∧
      raise id subject s = { s with attention := (raise id subject s).attention }) ∧
    (attnActive s = true ↔
      s.power.held = false ∧
        ∃ n, SourcePending s n)

/-- ACK clears a source and replies the count it held; the form with a count acts only where the count still is that, and is else
refused with WRONG_STATE; a source outside 0–13 or a count outside 0–255 is BAD_VALUE (R198). LEVEL reads and writes a user
source's level and enable together, FLOOR the floor; a write is refused with STORE_BUSY while the store holds SETTINGS, with
BAD_VALUE for a value outside its range, with NOT_ALLOWED for STORE and CLOCK (R199). -/
def Obligations.AttentionRequestsAct : Prop :=
  (∀ s : State, s.power.held = false →
     (∀ source count, RefusedByItsChecks (.ack source count) s) ∧ (∀ source write, RefusedByItsChecks (.level source write) s) ∧
     ∀ value, RefusedByItsChecks (.floor value) s) ∧
  (∀ (source : Nat) (s : State), s.power.held = false →
     (source < 14 →
       exec (.ack source none) s =
         .next
           (replied (.ok [.num source, .num (sourceAt source s).count])
             { s with attention := s.attention.set source ⟨false, 0, none⟩ }) ∧
       ∀ count ≤ 255,
         exec (.ack source (some count)) s =
           if count = (sourceAt source s).count then exec (.ack source none) s
           else .next (replied (.refused .wrongState) s)) ∧
     (∀ count : Option Nat, 14 ≤ source ∨ (∃ c, count = some c ∧ 255 < c) →
       exec (.ack source count) s = .next (replied (.refused .badValue) s))) ∧
  (∀ s : State, s.power.held = false →
     (∀ n < 14,
       exec (.level n none) s =
         .next (replied (.ok [onOff (n < 2 || s.settings.enables.getD n true),
           .num (if n < 2 then 8 else s.settings.levels.getD n 0), .num (levelInForce s n)]) s)) ∧
     exec (.floor none) s = .next (replied (.ok [.num s.settings.floor]) s) ∧
     (storeHolds .settings s = true → (∀ n w, exec (.level n (some w)) s = .next (replied (.refused .storeBusy) s)) ∧
       ∀ f, exec (.floor (some f)) s = .next (replied (.refused .storeBusy) s)) ∧
     (storeHolds .settings s = false →
       (∀ n l e, 14 ≤ n ∨ 7 < l ∨ e = none → exec (.level n (some (l, e))) s = .next (replied (.refused .badValue) s)) ∧
       (∀ f, 7 < f → exec (.floor (some f)) s = .next (replied (.refused .badValue) s)) ∧
       (∀ n l b, n < 2 → l ≤ 7 → exec (.level n (some (l, some b))) s = .next (replied (.refused .notAllowed) s)) ∧
       (∀ n l b, 2 ≤ n → n < 14 → l ≤ 7 → s.settings.levels.length = 14 → s.settings.enables.length = 14 →
         exec (.level n (some (l, some b))) s =
           .next
             (replied (.ok [onOff b, .num l, .num (if b then l else 0)])
               { s with
                 settings :=
                   { s.settings with
                     enables := s.settings.enables.set n b, levels := s.settings.levels.set n l } })) ∧
       ∀ f ≤ 7,
         exec (.floor (some f)) s =
           .next (replied (.ok [.num f]) { s with settings := { s.settings with floor := f } })))

/-! ### The Settings Store -/

/-- SAVE, LOAD and DEFAULTS begin an operation over the areas named, in area-number order; a SAVE takes its snapshot of them; while one
is under way, a further one is refused with STORE_BUSY (R201). It includes the areas it names until it ends, which is what the conditions
of the other rules ask: any operation, a SAVE alone, or a LOAD or DEFAULTS of ROSTER, PLANS or AWAY (R36, R203). At the end of an area's step a SAVE step that agrees replaces the stored
copy and its fingerprint, and the area's stored copy is then good; one that does not raises STORE; a LOAD step puts a good stored copy
in force, and raises STORE at a bad one; a DEFAULTS step puts the default in force; the last step writes the operation record and
raises DONE (R202). ROSTER put in force gives every pupil a fresh day part and the census anew; for each slot that is EMPTY now, or of
another card key or pupil reference, the pupil notices are withdrawn, the returned steps and the Away entries go, and a PAUSED sweep is
RUNNING where a notice left (R1, R145; that a slot only now ENROLLED keeps them is the model's reading, log 34). TERMINALS put in force
fills the table with ACTIVE terminals of empty holds, empties the refused-identity record, and ends the job under way with its
transaction (R100, R112, R117, R123); that the answer of that transaction is not recorded, and that its verdict list keeps the entrance
number, is the model's reading (log 14), and that their last heard is the present running time its choice (log 49). A LOAD and a
DEFAULTS leave the strap's level as read, their operand by log 7. SETTINGS
is put in force as log 41 chooses; the other areas replace their working copies and nothing else (R22, R33, R50, R72, R172, R202). A
stored copy is good exactly when its fingerprint is the 16-bit check over the area's number, length and contents (R200); the bytes
these make are a free value (log 16). That no copy is good after reset, the first cold start of a part whose copies were never written,
is the model's choice (log 5), and so is that the step's end carries whether the read-back agrees (log 30). The three are refused as
their checks say (R193, R201). -/
def Obligations.StoreOperationsBeginAndEnd : Prop :=
  (∀ s : State, s.power.held = false →
     (∀ areas, RefusedByItsChecks (.save areas) s) ∧ (∀ areas strap, RefusedByItsChecks (.load areas strap) s) ∧
     ∀ areas strap, RefusedByItsChecks (.defaults areas strap) s) ∧
  (∀ (a : Area) (s : State),
     let holds := fun p : StoreOperation → Prop => ∃ o, s.store.operation = some o ∧ p o
     let names := fun (o : StoreOperation) (b : Area) => b ∈ o.rest ∨ ∃ e ∈ o.ended, e.1 = b
     (storeHolds a s = true ↔ holds fun o => names o a) ∧
     (saveHolds a s = true ↔ holds fun o => o.kind = .save ∧ names o a) ∧
     (rollLoadUnderWay s = true ↔
       holds fun o => o.kind ≠ .save ∧ (names o .roster ∨ names o .plans ∨ names o .away))) ∧
  (∀ (areas : AreasArg) (l : List Area) (strap : Bool) (s : State), s.power.held = false →
     (areas = .all ∧ l = allAreas ∨
       ∃ named : List Area, areas = .list (named.map some) ∧ named ≠ [] ∧ named.Nodup ∧ l = allAreas.filter (· ∈ named)) →
     let pinned := { s with pins := { s.pins with install := strap } }
     let begun := fun (kind : StoreKind) (snapshot : AreaCopies) (u : State) =>
       { u with store := { s.store with operation := some ⟨kind, [], l, snapshot, s.time.school⟩ } }
     let named := fun word : String => Reply.started (.word word :: l.map fun a => .word (areaWord a))
     let closed := (Area.roster ∈ l ∨ Area.plans ∈ l ∨ Area.away ∈ l) → s.day.state = .closed
     let locked := Area.limits ∈ l → strap = true
     (s.store.operation ≠ none →
       exec (.save areas) s = .next (replied (.refused .storeBusy) s) ∧
       exec (.load areas strap) s = .next (replied (.refused .storeBusy) pinned) ∧
       exec (.defaults areas strap) s = .next (replied (.refused .storeBusy) pinned)) ∧
     (s.store.operation = none →
       exec (.save areas) s = .next (replied (named "SAVE") (begun .save ((workingCopies s).only l) s)) ∧
       (closed → locked →
         exec (.load areas strap) s = .next (replied (named "LOAD") (begun .load .none_ pinned)) ∧
         exec (.defaults areas strap) s = .next (replied (named "DEFAULTS") (begun .defaults .none_ pinned))) ∧
       (¬closed →
         exec (.load areas strap) s = .next (replied (.refused .dayOpen) pinned) ∧
         exec (.defaults areas strap) s = .next (replied (.refused .dayOpen) pinned)) ∧
       (closed → ¬locked →
         exec (.load areas strap) s = .next (replied (.refused .locked) pinned) ∧
         exec (.defaults areas strap) s = .next (replied (.refused .locked) pinned)))) ∧
  (∀ (o : StoreOperation) (a : Area) (rest : List Area) (agrees : Bool) (s : State),
     s.power.held = false → s.store.operation = some o → o.rest = a :: rest →
     let good := s.store.isGood a
     let result : StepResult :=
       if o.kind = .save ∧ agrees = false ∨ o.kind = .load ∧ good = false then .failed else .ok
     let ended := o.ended ++ [(a, result)]
     let base : State :=
       match o.kind with
       | .save => s
       | .load => if good then install a s.store.stored s else s
       | .defaults => install a defaultCopies s
     let raised := if result = .failed then raise .store (some (.area a)) base else base
     let store : SettingsStore :=
       if o.kind = .save ∧ agrees = true then
         { s.store with
           stored := AreaCopies.put a o.snapshot s.store.stored
           fingerprints := s.store.fingerprints.set (areaNumber a) ((o.snapshot.fingerprint a).getD 0) }
       else s.store
     (o.kind = .save → agrees = true → o.snapshot.bytes a ≠ none → s.store.fingerprints.length = 9 →
       store.isGood a = true) ∧
     exec (.storeStepEnd agrees) s =
       .next
         (settle
           (autoOpen
             (if rest = [] then
               raise .done
                 (match ended.find? (·.2 ≠ .ok) with
                   | some e => some (.area e.1)
                   | none => some (.area a))
                 { raised with
                   store :=
                     { store with
                       operation := none, lastOperation := some ⟨o.kind, ended, o.start, base.time.school⟩ } }
             else
               { raised with store := { store with operation := some { o with ended := ended, rest := rest } } })))) ∧
  (∀ (new : List (Slot × Enrolment)) (c : AreaCopies) (s : State), c.roster = some new →
     let gone := fun slot : Slot =>
       match tableGet slot new, pupilAt slot s with
       | none, _ => true
       | some e, some p => e.card ≠ p.enrolment.card || e.reference ≠ p.enrolment.reference
       | some _, none => false
     ∃ u q, install .roster c s = u ∧
       u =
         { s with
           roll :=
             { roster := new.map fun e => (e.1, ⟨e.2, .fresh⟩)
               census := censusOf u.roll.roster
               away := s.roll.away.filter fun e => !gone e.slot }
           notices :=
             { s.notices with
               queue :=
                 q.map fun n =>
                   match n.addressee with
                   | .pupil _ _ => n
                   | .broadcast b =>
                     { n with addressee := .broadcast { b with returned := b.returned.filter (!gone ·.1) } } }
           sweep := u.sweep } ∧
       Withdrawn (fun n => match n.addressee with | .pupil k _ => gone k | .broadcast _ => false) s.notices.queue q ∧
       SweepHeard (NoticeLeft s u) s u) ∧
  (∀ (l : List StoredTerminal) (c : AreaCopies) (s : State), c.terminals = some l →
     let busy := decide (¬(s.line.job = .idle ∧ s.line.phase = .free))
     ∃ u, install .terminals c s = u ∧
       u =
         { s with
           line :=
             { s.line with
               table := u.line.table, refused := none, orphan := s.line.orphan || busy, dropJob := s.line.dropJob || busy,
               leftEntrance := u.line.leftEntrance } } ∧
       u.line.table.length = 8 ∧
       (∀ n < 8, terminalAt n u =
         (l.find? (·.entry = n)).map fun x => .new x.identity x.entrance .active s.time.running) ∧
       (∀ p t, s.line.job = .pollServe p → s.line.leftEntrance = none → terminalAt p.entry s = some t →
         u.line.leftEntrance = some t.entrance) ∧
       ((∀ p, s.line.job ≠ .pollServe p) → u.line.leftEntrance = s.line.leftEntrance)) ∧
  (∀ (x : Settings) (c : AreaCopies) (s : State), c.settings = some x →
     let v := if x.buttonMode = s.settings.buttonMode then s else releaseButton s
     install .settings c s = silenceChanged v { v with settings := x }) ∧
  (∀ (c : AreaCopies) (s : State),
     (∀ x, c.limits = some x → install .limits c s = { s with limits := x }) ∧
     (∀ x, c.plans = some x → install .plans c s = { s with plan := { s.plan with banks := x } }) ∧
     (∀ x, c.patterns = some x → install .patterns c s = { s with chime := { s.chime with patterns := x } }) ∧
     (∀ x, c.calendar = some x → install .calendar c s = { s with day := { s.day with calendar := x } }) ∧
     (∀ x, c.texts = some x → install .texts c s = { s with notices := { s.notices with texts := x } }) ∧
     ∀ x, c.away = some x → install .away c s = { s with roll := { s.roll with away := x } }) ∧
  (∀ (a : Area) (st : SettingsStore),
     st.isGood a = true ↔
       ∃ b, st.stored.bytes a = some b ∧
         st.fingerprints[areaNumber a]? = some (check16 (Config.areaHead (areaNumber a) b.length ++ b))) ∧
  ∀ a : Area, State.reset.store.isGood a = false

/-- A LOAD brings back of an area exactly what a SAVE's snapshot took of it (R200–R202): the working copy it leaves is the one the
snapshot was taken from. -/
def Obligations.LoadedAreasAreAsSaved : Prop :=
  ∀ (a : Area) (s t : State),
    AreaCopies.only [a] (workingCopies (install a (workingCopies t) s)) = AreaCopies.only [a] (workingCopies t)

/-- SET writes the setting named and no other, so that GET reads the given value, and replies as GET; CEILING and OVERRIDE are LOCKED
without the INSTALL strap (R204, R205). Of a set of zones, GET reads the set in order. It acts as the owning rule states: of DAYOPEN and
WEEKMAP, the automatic-opening rule is evaluated (R33, R36); of QUIETMASK and QUIETLEVEL, the quiet set is found anew and zones that became
quiet are taken (R89, R90); of BUTTONMODE, it acts first as a release on the request of the latest press (R93). It is refused as its checks
say (R193, R204; that a zone, group or input that does not exist comes first is the model's reading, log 31). Every SET leaves the strap's
level as read, its operand: R205 reads it only for CEILING and OVERRIDE, and the operand is the model's choice (log 7). -/
def Obligations.SetWritesOneSetting : Prop :=
  (∀ (r : SettingRef) (v : Option SettingValue) (strap : Bool) (s : State),
    s.power.held = false → RefusedByItsChecks (.setSetting r v strap) s) ∧
  ∀ (r : SettingRef) (v : SettingValue) (strap : Bool) (s : State), s.power.held = false →
    s.settings.zoneGroup.length = 6 → s.settings.relayPol.length = 6 →
    (∀ l, v = .zones l → l.Pairwise (· < ·)) →
    let ok := fun d : SettingValue => Reply.ok (settingItems r ++ valueItems r v ++ valueItems r d)
    (∀ new, storeHolds .settings s = false → writeSetting r v s.settings = some new →
      ∃ u d, exec (.setSetting r (some v) strap) s = .next (replied (ok d) u) ∧ readSetting r .default .default = some d ∧
        u.settings = new ∧ readSetting r u.settings u.limits = some v ∧ u.limits = s.limits ∧ u.time = s.time ∧
        u.notices = s.notices ∧ u.office = s.office ∧ u.store = s.store ∧
        (let read := { s with pins := { s.pins with install := strap } }
        let written := { read with settings := new }
        (r ≠ .dayOpen → r ≠ .weekMap → (∀ i, r ≠ .quietMask i) → (∀ i, r ≠ .quietLevel i) → r ≠ .buttonMode → u = written) ∧
        (r = .dayOpen ∨ r = .weekMap → exec .automaticOpening written = .next u) ∧
        ((∃ i, r = .quietMask i) ∨ (∃ i, r = .quietLevel i) →
          u = silenceChanged read written ∧ (ChannelsReady s → Silenced read written u)) ∧
        (r = .buttonMode →
          ∃ t, u = { t with settings := new } ∧ t = releaseButton read ∧ (s.chime.channels.length = 4 → Released read t))) ∧
        ∀ q, q ≠ r → readSetting q new s.limits = readSetting q s.settings s.limits) ∧
    (∀ new, storeHolds .limits s = false → writeLimit r v s.limits = some new →
      (strap = true →
        ∃ d, exec (.setSetting r (some v) strap) s =
            .next (replied (ok d) { s with limits := new, pins := { s.pins with install := true } }) ∧
          readSetting r .default .default = some d ∧ readSetting r s.settings new = some v ∧
          ∀ q, q ≠ r → readSetting q s.settings new = readSetting q s.settings s.limits) ∧
      (strap = false →
        exec (.setSetting r (some v) strap) s =
          .next (replied (.refused .locked) { s with pins := { s.pins with install := false } })))

/-! ### The Office Port -/

/-- Every step keeps the Office Port's relations (R190, R191), and the Attention Unit's: fourteen sources, counts of 0–255, a flag
set exactly while its count is above 0 (R194, R195). It keeps the sizes and forms of the tables and of the stored areas (R33, R46, R50,
R72, R73, R82, R91, R100, R172, R200). And it keeps marks and notices together: a pupil holds ABSENT_PENDING exactly while the Notice Queue
holds one ABSENT notice addressed to it without cancel-on-result (R6), each notice has the addressee of its kind, at most 120 of the at
most 128 notices are ABSENT, no two have one number, and each of the at most four sends of the Send Window is that of a notice of the
queue, to its slot and contact where it is a pupil's, which is IN_WINDOW and has no other send (R153, R154, R161, R168, R170). -/
def Obligations.PortAndSourcesStaySound : Prop :=
  (∀ s t : State, OfficeOk s → step s = .next t → OfficeOk t) ∧
  (∀ s t : State, AttentionOk s → step s = .next t → AttentionOk t) ∧
  (∀ s t : State, TablesOk s → step s = .next t → TablesOk t) ∧
  (∀ s t : State, RollOk s → PendingOk s → QueueOk s → step s = .next t → PendingOk t ∧ QueueOk t)

/-- The receiver with a new line begun. -/
def lineBegun (s : State) : State :=
  { s with office := { s.office with buffer := [], framing := false, overlong := false } }

/-- The output takes up what it sends next, where it is free (R191). -/
def outputBegun (s : State) : State :=
  { s with
    office :=
      { s.office with
        output :=
          if s.office.output ≠ .free then s.office.output
          else if s.office.short ≠ [] then .short
          else if s.office.served ≠ none then .served
          else .free } }

/-- A line taken into service in `s` leaves `t` (R192): one that breaks the grammar is answered FAULT FORM, an unknown word UNKNOWN, a
value its form does not take BAD_VALUE, and nothing else changes; a request acts as its command does. The reply is the one being
served. -/
def Served (strap : Bool) (body : Text) (s t : State) : Prop :=
  let serving := fun (r : Reply) (u : State) =>
    { u with office := { u.office with served := some ⟨(lineTag body).getD (ascii "??"), r⟩ } }
  match lexLine body with
  | none => t = serving (.fault .form) s
  | some (word, args) =>
    match parseRequest strap word args with
    | .unknown => t = serving (.refused .unknown) s
    | .bad => t = serving (.refused .badValue) s
    | .request i => ∃ u r, exec i s = .next (replied r u) ∧ t = serving r (replied r u)

/-- The last `k` decimal digits of a number, as characters. -/
def digitsOf (n : Nat) : Nat → Text
  | 0 => []
  | k + 1 => digitsOf (n / 10) k ++ [BitVec.ofNat 8 (48 + n % 10)]

/-- The uppercase hexadecimal character of a digit. -/
def hexDigit (n : Nat) : Byte := (ascii "0123456789ABCDEF").getD n 0

/-- A check as four uppercase hexadecimal characters, most significant first (R208). -/
def FourHex (c : BitVec 16) : Text := [12, 8, 4, 0].map fun k => hexDigit (c.toNat / 2 ^ k % 16)

/-- What a value is written as in a reply line (Formats and Pins; R209): a number without leading zeros, a time, a date, a word, a set as
its members and ranges in rising order, contacts, a step, a quoted text, bytes as hexadecimal, a Named value. -/
def ValuesWritten : Prop :=
  (∀ n, ∃ k, itemText (.num n) = digitsOf n (k + 1) ∧ n < 10 ^ (k + 1) ∧ (k = 0 ∨ 10 ^ k ≤ n)) ∧
  (∀ t < 86400,
    itemText (.minutes t) = digitsOf (t / 3600) 2 ++ chr ':' :: digitsOf (t / 60 % 60) 2 ∧
    itemText (.time t) = itemText (.minutes t) ++ chr ':' :: digitsOf (t % 60) 2) ∧
  (∀ y m d, dateOf y m d < dateCount →
    itemText (.date (dateOf y m d)) = digitsOf y 4 ++ chr '-' :: digitsOf m 2 ++ chr '-' :: digitsOf d 2) ∧
  (∀ w, itemText (.word w) = ascii w) ∧
  itemText (.set []) = ascii "NONE" ∧
  (∀ l : List Nat, l ≠ [] → l.Pairwise (· < ·) →
    ∃ ranges : List (Nat × Nat),
      (∀ r ∈ ranges, r.1 ≤ r.2) ∧ ranges.Pairwise (fun r q => r.2 + 1 < q.1) ∧
      (ranges.flatMap fun r => List.range' r.1 (r.2 + 1 - r.1)) = l ∧
      itemText (.set l) =
        [chr ','].intercalate
          (ranges.map fun r =>
            if r.1 = r.2 then itemText (.num r.1) else itemText (.num r.1) ++ chr '-' :: itemText (.num r.2))) ∧
  itemText (.contacts []) = ascii "NONE" ∧
  (∀ l : List Contact, l ≠ [] →
    itemText (.contacts l) =
      [chr ','].intercalate
        (l.map fun c => itemText (.num c.id) ++ chr ':' :: ascii (if c.channel = .text then "TEXT" else "VOICE"))) ∧
  (∀ p n v,
    itemText (.step (.tone p n v)) =
        ascii "TONE:" ++ itemText (.num p) ++ chr ':' :: itemText (.num n) ++ chr ':' :: itemText (.num v) ∧
      itemText (.step (.rest n)) = ascii "REST:" ++ itemText (.num n) ∧
      itemText (.step (.strike n)) = ascii "STRIKE:" ++ itemText (.num n) ∧
      itemText (.step (.loop n v)) = ascii "LOOP:" ++ itemText (.num n) ++ chr ':' :: itemText (.num v)) ∧
  itemText (.step .stop) = ascii "END" ∧
  (∀ t : Text,
    itemText (.quoted t) = chr '"' :: t ++ [chr '"'] ∧ itemText (.plain t) = t ∧
      itemText (.hex t) = t.flatMap fun b => [hexDigit (b.toNat / 16), hexDigit (b.toNat % 16)]) ∧
  (∀ i : Identity, itemText (.identity i) = itemText (.hex ((List.range 7).map fun k => BitVec.ofNat 8 (i.toNat / 256 ^ k)))) ∧
  ∀ name v, itemText (.named name v) = ascii name ++ chr '=' :: itemText v

/-- The words that arguments name their values by (R3, R4, R33, R51, R87, R89, R153, R155, R170, R199, R200; R209), which are those that
replies name them by. -/
def WordsNameValues : Prop :=
  markWords =
      [("UNSEEN", .unseen), ("PRESENT", .present), ("LATE", .late), ("LATE_AFTER_CUT", .lateAfterCut), ("EXPECTED", .expected),
        ("ABSENT_PENDING", .absentPending), ("ABSENT_ASKED", .absentAsked), ("ABSENT_UNREACHED", .absentUnreached),
        ("EXCUSED", .excused), ("ARRIVED_EXCUSED", .arrivedExcused), ("SIGNED_OUT", .signedOut)] ∧
  reasonWords = [("ILL", .ill), ("APPOINTMENT", .appointment), ("FAMILY", .family), ("AUTHORISED", .authorised)] ∧
  entryKindWords =
      [("CHIME", .chime), ("REGISTRATION", .registration), ("ABSENCE_CUT", .absenceCut), ("NOTICE_DEADLINE", .noticeDeadline),
        ("NOTICE_HOLD", .noticeHold), ("DAY_CLOSE", .dayClose)] ∧
  noticeKindWords =
      [("ABSENT", .absent), ("LATE", .late), ("ARRIVED", .arrived), ("GENERAL", .general), ("CLOSURE", .closure)] ∧
  areaWords =
      [("SETTINGS", .settings), ("LIMITS", .limits), ("PLANS", .plans), ("PATTERNS", .patterns), ("CALENDAR", .calendar),
        ("TEXTS", .texts), ("ROSTER", .roster), ("AWAY", .away), ("TERMINALS", .terminals)] ∧
  selectWords = [("NORMAL", .normal), ("ALTERNATE", .alternate)] ∧ reachWords = [("FIRST", .first), ("ALL", .all)] ∧
  groupWords = [("A", .a), ("B", .b)] ∧ inputWords = [("QA", .qa), ("QB", .qb)] ∧
  yesNoWords = [("YES", true), ("NO", false)] ∧ onOffWords = [("ON", true), ("OFF", false)] ∧
  (∀ e ∈ markWords, markWord e.2 = e.1) ∧ (∀ e ∈ reasonWords, reasonWord e.2 = e.1) ∧
  (∀ e ∈ noticeKindWords, noticeKindWord e.2 = e.1) ∧ (∀ e ∈ areaWords, areaWord e.2 = e.1) ∧
  ∀ e ∈ selectWords, selectWord e.2 = e.1

/-- Which lines the port takes, and as what (R190, R192, R209). A line passes the check test where its last `*` is followed by the check
over the characters through it, and then what stands before is its body. A body follows the grammar where it is written as Formats and
Pins say, and is told into those parts. A word outside the catalogue is unknown. A request is read from its word and arguments exactly
where these are written in its forms, required ones in place and optional ones by name in any order, each value as its form gives it. An
ENTRYPUT, SET or GET that lacks what `RequestWhole` names is refused, however its line reads (R52, R193, R204; log 31). -/
def LinesAreRead : Prop :=
  (∀ line body, checkedBody line = some body ↔ line = body ++ chr '*' :: FourHex (check16 (body ++ [chr '*']))) ∧
  (∀ body word args, lexLine body = some (word, args) ↔ LineWritten body word args) ∧
  (∀ strap word args, parseRequest strap word args = .unknown ↔ ∀ w ∈ catalogueWords, word ≠ ascii w) ∧
  (∀ (strap : Bool) (word : Text) (args : List Token) (i : Instr), RequestWhole i →
    (parseRequest strap word args = .request i ↔ RequestWritten strap word args i)) ∧
  (∀ (i : Instr) (s : State), s.power.held = false → ¬RequestWhole i →
    ∃ r, exec i s = .next (replied (.refused r) (strapRead i s))) ∧
  WordsNameValues

/-- A line that spells a request, received with its good check while none is served, acts as that request does, and its reply is
the one being served (R190–R192, R208, R209). Lines are taken and read as `LinesAreRead` says. That a quoted argument, once closed, breaks
the grammar by no length and no character is the model's reading (log 51); the places of the arguments that R209 does not give, the empty
set as NONE and an identity's characters are the model's choice (log 9). An ENTRYPUT, SET or GET that is not whole is refused, and that
its line is read for its owner to refuse is the model's reading (log 31). The line of a reply is the request's tag, a space, one of the
four reply words with what follows it, each value preceded by one space, `*`, the check over the tag through the `*` as four uppercase
hexadecimal characters, and CR (R192, R193, R208); each value is written in its form (R209; an empty set as NONE is the model's choice,
log 8, and an identity as its bytes in line order, log 9). The two checks give D64E and F4 over 123456789 (R208). -/
def Obligations.AReceivedLineActsAsItsRequest : Prop :=
  (∀ r : TaggedReply,
    let body :=
      r.tag ++ chr ' ' ::
        (match r.reply with
          | .ok l => ascii "OK" ++ l.flatMap fun i => chr ' ' :: itemText i
          | .started l => ascii "STARTED" ++ l.flatMap fun i => chr ' ' :: itemText i
          | .refused w => ascii "REFUSED " ++ ascii w.word
          | .fault k => ascii "FAULT " ++ ascii k.word) ++
        [chr '*']
    replyLine r = body ++ FourHex (check16 body) ++ [0x0D#8]) ∧
  (∀ t, checkText t = FourHex (check16 t)) ∧
  check16 (ascii "123456789") = 0xD64E#16 ∧ check8 (ascii "123456789") = 0xF4#8 ∧
  [Reason.busy, .unknown, .badValue, .noSuch, .duplicate, .full, .overlap, .dayNotOpen, .dayOpen, .wrongState, .storeBusy,
      .locked, .clockInvalid, .notAllowed].map Reason.word =
    ["BUSY", "UNKNOWN", "BAD_VALUE", "NO_SUCH", "DUPLICATE", "FULL", "OVERLAP", "DAY_NOT_OPEN", "DAY_OPEN", "WRONG_STATE",
      "STORE_BUSY", "LOCKED", "CLOCK_INVALID", "NOT_ALLOWED"] ∧
  [FaultKind.check, .length, .form].map FaultKind.word = ["CHECK", "LENGTH", "FORM"] ∧
  ValuesWritten ∧
  LinesAreRead ∧
  ∀ (body word : Text) (args : List Token) (i : Instr) (strap : Bool) (s : State),
    s.power.held = false → s.office.short.length < 4 → s.office.resync = false → s.office.overlong = false →
    s.office.framing = false → s.office.served = none →
    s.office.buffer = body ++ chr '*' :: checkText (body ++ [chr '*']) →
    lexLine body = some (word, args) → parseRequest strap word args = .request i →
    ∃ u r, exec i (lineBegun s) = .next (replied r u) ∧
      exec (.lineReceived strap) s =
        .next
          (outputBegun
            { replied r u with
              office := { (replied r u).office with served := some ⟨(lineTag body).getD (ascii "??"), r⟩ } })

/-- The receiver collects characters, passes over LF, makes a line of 250 characters over-long, and while four short replies wait drops
every character and counts it (R190, R191). At a CR, a line taken into service is `Served`; one received while another is served waits,
a third is refused BUSY by a short reply; a line without a good check is FAULT CHECK, an over-long one FAULT LENGTH; an empty one, and
one resumed after an overrun, are passed over (R190, R191). When the served reply's last character has gone, service ends, and the part
is held where the request was RESTART (R206), or a waiting line is taken into service as a received one is (R191, R192); a short reply
sent leaves, and where four waited the receiver resumes after the next CR (R191). That the short reply being sent counts among the
four, that the receiver resumes after the next CR, and that a BUSY line whose tag is not to be trusted gets ?? is the model's choice
(log 23), as is the order of the overrun, LF and CR tests (log 24), that RESTART's hold begins with the reply's last character (log
35), and that a CR taken as a character is judged with the strap level last seen (log 7). -/
def Obligations.TheOfficePortReceivesAndSends : Prop :=
  (∀ (c : Byte) (bad : Bool) (s : State), s.power.held = false →
     (s.office.short.length < 4 →
       (c = 0x0A#8 → exec (.officeCharacterReceived c bad) s = .next s) ∧
       (c ≠ 0x0A#8 → c ≠ 0x0D#8 → s.office.resync = false → s.office.overlong = false →
         exec (.officeCharacterReceived c bad) s =
           .next
             { s with
               office :=
                 if s.office.buffer.length < 249 then
                   { s.office with buffer := s.office.buffer ++ [c], framing := s.office.framing || bad }
                 else { s.office with buffer := [], framing := false, overlong := true } }) ∧
       (c ≠ 0x0D#8 → s.office.resync = true ∨ s.office.overlong = true →
         exec (.officeCharacterReceived c bad) s = .next s) ∧
       (c = 0x0D#8 → bad = false → exec (.officeCharacterReceived c bad) s = exec (.lineReceived s.pins.install) s)) ∧
     (4 ≤ s.office.short.length →
       exec (.officeCharacterReceived c bad) s =
         .next { s with office := { s.office with overrun := min (s.office.overrun + 1) 65535 } })) ∧
  (∀ (strap : Bool) (s : State), s.power.held = false → s.office.short.length < 4 →
     let short := fun (tag : Text) (r : Reply) =>
       outputBegun { lineBegun s with office := { (lineBegun s).office with short := s.office.short ++ [⟨tag, r⟩] } }
     (s.office.resync = true →
       exec (.lineReceived strap) s =
         .next { lineBegun s with office := { (lineBegun s).office with resync := false } }) ∧
     (s.office.resync = false →
       (s.office.overlong = true → exec (.lineReceived strap) s = .next (short (ascii "??") (.fault .length))) ∧
       (s.office.overlong = false →
         (s.office.buffer = [] → exec (.lineReceived strap) s = .next (lineBegun s)) ∧
         (s.office.buffer ≠ [] → s.office.framing = true ∨ checkedBody s.office.buffer = none →
           exec (.lineReceived strap) s = .next (short (ascii "??") (.fault .check))) ∧
         (∀ body, s.office.buffer ≠ [] → s.office.framing = false → checkedBody s.office.buffer = some body →
           (s.office.served = none →
             ∃ t, Served strap body (lineBegun s) t ∧ exec (.lineReceived strap) s = .next (outputBegun t)) ∧
           (s.office.served ≠ none →
             exec (.lineReceived strap) s =
               .next
                 (if s.office.waiting = none then
                   { lineBegun s with office := { (lineBegun s).office with waiting := some body } }
                 else short ((lineTag body).getD (ascii "??")) (.refused .busy))))))) ∧
  (∀ (strap : Bool) (s : State), s.power.held = false →
     (s.office.output = .served →
       (s.office.restart = true →
         exec (.replySent strap) s =
           .next { s with office := { s.office with served := none }, power := { s.power with held := true } }) ∧
       (s.office.restart = false → s.office.waiting = none →
         exec (.replySent strap) s =
           .next
             { s with
               office :=
                 { s.office with served := none, output := if s.office.short = [] then .free else .short } }) ∧
       (∀ body, s.office.restart = false → s.office.waiting = some body →
         ∃ t, Served strap body { s with office := { s.office with served := none, waiting := none } } t ∧
           exec (.replySent strap) s =
             .next { t with office := { t.office with output := if t.office.short = [] then .served else .short } })) ∧
     (s.office.output = .short →
       ∃ t, exec .shortReplySent s = .next t ∧ t = { s with office := t.office } ∧
         t.office.short = s.office.short.tail ∧ t.office.served = s.office.served ∧ t.office.waiting = s.office.waiting ∧
         (s.office.short.length < 4 → t.office.buffer = s.office.buffer ∧ t.office.resync = s.office.resync) ∧
         (4 ≤ s.office.short.length → t.office.buffer = [] ∧ t.office.resync = true) ∧
         t.office.output =
           if s.office.short.tail ≠ [] then .short else if s.office.served ≠ none then .served else .free))
end

