-- ==== Sys2Proof/Laws/Tables.lean ====
section
/-! SUPPORT. The tables keyed by number: what a read gives after a write and after a removal, and that both keep the canonical
form. -/

namespace Sys2Proof.Machine

variable {α : Type}

theorem tableGet_put_self (k : Nat) (v : α) (l : List (Nat × α)) : tableGet k (tablePut k v l) = some v := by
  induction l with
  | nil => simp [tablePut, tableGet]
  | cons h t ih =>
    obtain ⟨j, w⟩ := h
    by_cases h1 : k < j
    · simp [tablePut, tableGet, h1]
    · by_cases h2 : k = j
      · simp [tablePut, tableGet, h2]
      · have h3 : j ≠ k := fun e => h2 e.symm
        simp [tablePut, tableGet, h1, h2, h3, ih]

theorem tableGet_put_ne {k j : Nat} (hne : j ≠ k) (v : α) (l : List (Nat × α)) :
    tableGet j (tablePut k v l) = tableGet j l := by
  induction l with
  | nil => simp [tablePut, tableGet, Ne.symm hne]
  | cons h t ih =>
    obtain ⟨i, w⟩ := h
    by_cases h1 : k < i
    · simp [tablePut, tableGet, h1, Ne.symm hne]
    · by_cases h2 : k = i
      · subst h2; simp [tablePut, tableGet, Ne.symm hne]
      · simp [tablePut, tableGet, h1, h2, ih]

theorem tableGet_drop_ne {k j : Nat} (hne : j ≠ k) (l : List (Nat × α)) : tableGet j (tableDrop k l) = tableGet j l := by
  induction l with
  | nil => rfl
  | cons h t ih =>
    obtain ⟨i, w⟩ := h
    by_cases h2 : i = k
    · subst h2; simp [tableDrop, tableGet, Ne.symm hne]
    · simp [tableDrop, tableGet, h2, ih]

theorem mem_of_tableGet {k : Nat} {v : α} {l : List (Nat × α)} (h : tableGet k l = some v) : (k, v) ∈ l := by
  induction l with
  | nil => simp [tableGet] at h
  | cons e t ih =>
    obtain ⟨j, w⟩ := e
    by_cases hj : j = k
    · simp only [tableGet, if_pos hj, Option.some.injEq] at h; simp [hj, h]
    · simp only [tableGet, if_neg hj] at h; exact List.mem_cons_of_mem _ (ih h)

theorem tableGet_of_mem {k : Nat} {v : α} {l : List (Nat × α)} (hp : (l.map Prod.fst).Pairwise (· < ·)) (h : (k, v) ∈ l) :
    tableGet k l = some v := by
  induction l with
  | nil => simp at h
  | cons e t ih =>
    obtain ⟨j, w⟩ := e
    rw [List.map_cons, List.pairwise_cons] at hp
    rcases List.mem_cons.1 h with h | h
    · cases h; simp [tableGet]
    · have := hp.1 k (List.mem_map.2 ⟨_, h, rfl⟩)
      have hne : j ≠ k := Nat.ne_of_lt this
      simp [tableGet, hne, ih hp.2 h]

theorem tableGet_eq_none {k : Nat} {l : List (Nat × α)} : tableGet k l = none ↔ ∀ e ∈ l, e.1 ≠ k := by
  induction l with
  | nil => simp [tableGet]
  | cons e t ih =>
    obtain ⟨j, w⟩ := e
    by_cases hj : j = k <;> simp [tableGet, hj, ih]

theorem tableGet_drop_self {k : Nat} {l : List (Nat × α)} (hp : (l.map Prod.fst).Pairwise (· < ·)) :
    tableGet k (tableDrop k l) = none := by
  induction l with
  | nil => rfl
  | cons e t ih =>
    obtain ⟨j, w⟩ := e
    rw [List.map_cons, List.pairwise_cons] at hp
    by_cases hj : j = k
    · simp only [tableDrop, if_pos hj]
      exact tableGet_eq_none.2 fun e he =>
        Nat.ne_of_gt (hj ▸ hp.1 e.1 (List.mem_map.2 ⟨e, he, rfl⟩))
    · simp [tableDrop, tableGet, hj, ih hp.2]

theorem mem_tablePut {k : Nat} {v : α} {l : List (Nat × α)} {e : Nat × α} (h : e ∈ tablePut k v l) :
    e = (k, v) ∨ e ∈ l := by
  induction l with
  | nil => simp only [tablePut, List.mem_singleton] at h; exact .inl h
  | cons x t ih =>
    obtain ⟨j, w⟩ := x
    simp only [tablePut] at h
    split at h
    · rcases List.mem_cons.1 h with h | h
      · exact .inl h
      · exact .inr h
    · split at h
      · rcases List.mem_cons.1 h with h | h
        · exact .inl h
        · exact .inr (List.mem_cons_of_mem _ h)
      · rcases List.mem_cons.1 h with h | h
        · exact .inr (h ▸ List.mem_cons_self)
        · exact (ih h).imp id (List.mem_cons_of_mem _)

theorem mem_tableDrop {k : Nat} {l : List (Nat × α)} {e : Nat × α} (h : e ∈ tableDrop k l) : e ∈ l := by
  induction l with
  | nil => simp [tableDrop] at h
  | cons x t ih =>
    obtain ⟨j, w⟩ := x
    simp only [tableDrop] at h
    split at h
    · exact List.mem_cons_of_mem _ h
    · rcases List.mem_cons.1 h with h | h
      · exact h ▸ List.mem_cons_self
      · exact List.mem_cons_of_mem _ (ih h)

theorem tablePut_pairwise {k : Nat} {v : α} {l : List (Nat × α)} (hp : (l.map Prod.fst).Pairwise (· < ·)) :
    ((tablePut k v l).map Prod.fst).Pairwise (· < ·) := by
  induction l with
  | nil => simp [tablePut]
  | cons x t ih =>
    obtain ⟨j, w⟩ := x
    have hp' := hp
    rw [List.map_cons, List.pairwise_cons] at hp'
    simp only [tablePut]
    split
    · rename_i hkj
      rw [List.map_cons, List.pairwise_cons]
      refine ⟨fun n hn => ?_, hp⟩
      rcases List.mem_cons.1 hn with h | h
      · exact h ▸ hkj
      · exact Nat.lt_trans hkj (hp'.1 n h)
    · split
      · rename_i h; subst h; exact hp
      · rename_i h1 h2
        rw [List.map_cons, List.pairwise_cons]
        refine ⟨fun n hn => ?_, ih hp'.2⟩
        obtain ⟨e, he, rfl⟩ := List.mem_map.1 hn
        rcases mem_tablePut he with h | h
        · subst h; show j < k; omega
        · exact hp'.1 _ (List.mem_map.2 ⟨e, h, rfl⟩)

theorem tableDrop_pairwise {k : Nat} {l : List (Nat × α)} (hp : (l.map Prod.fst).Pairwise (· < ·)) :
    ((tableDrop k l).map Prod.fst).Pairwise (· < ·) := by
  induction l with
  | nil => exact hp
  | cons x t ih =>
    obtain ⟨j, w⟩ := x
    rw [List.map_cons, List.pairwise_cons] at hp
    simp only [tableDrop]
    split
    · exact hp.2
    · rw [List.map_cons, List.pairwise_cons]
      refine ⟨fun n hn => ?_, ih hp.2⟩
      obtain ⟨e, he, rfl⟩ := List.mem_map.1 hn
      exact hp.1 _ (List.mem_map.2 ⟨e, mem_tableDrop he, rfl⟩)

theorem tablePut_wf {bound k : Nat} {v : α} {l : List (Nat × α)} (h : tableWf bound l) (hk : k < bound) :
    tableWf bound (tablePut k v l) :=
  ⟨tablePut_pairwise h.1, fun e he => (mem_tablePut he).elim (fun x => x ▸ hk) (h.2 e)⟩

theorem tableDrop_wf {bound k : Nat} {l : List (Nat × α)} (h : tableWf bound l) : tableWf bound (tableDrop k l) :=
  ⟨tableDrop_pairwise h.1, fun e he => h.2 e (mem_tableDrop he)⟩

/-- Two tables in canonical form that read alike have the same entries. -/
theorem tableGet_ext {l m : List (Nat × α)} (hl : (l.map Prod.fst).Pairwise (· < ·)) (hm : (m.map Prod.fst).Pairwise (· < ·))
    (h : ∀ k, tableGet k l = tableGet k m) (e : Nat × α) : e ∈ l ↔ e ∈ m :=
  ⟨fun he => mem_of_tableGet ((h e.1).symm.trans (tableGet_of_mem hl he)),
    fun he => mem_of_tableGet ((h e.1).trans (tableGet_of_mem hm he))⟩

end Sys2Proof.Machine
end

