-- ==== Sys2Proof/Laws/Census.lean ====
section
/-! SUPPORT. The census: its shape, what one count reads after a move, and that the counts of a roster are counts of its pupils
(R5, R18). -/

namespace Sys2Proof.Machine

/-- Eight rows of eleven counts. -/
def CensusShape (c : List (List Nat)) : Prop := c.length = 8 ∧ ∀ r ∈ c, r.length = 11

theorem markColumn_lt (m : Mark) : markColumn m < 11 := by cases m <;> decide

theorem markColumn_inj {m n : Mark} (h : markColumn m = markColumn n) : m = n := by
  cases m <;> cases n <;> first | rfl | (exact absurd h (by decide))

/-- The mark of each column. -/
theorem exists_mark {k : Nat} (h : k < 11) : ∃ m, markColumn m = k := by
  match k, h with
  | 0, _ => exact ⟨.unseen, rfl⟩
  | 1, _ => exact ⟨.present, rfl⟩
  | 2, _ => exact ⟨.late, rfl⟩
  | 3, _ => exact ⟨.lateAfterCut, rfl⟩
  | 4, _ => exact ⟨.expected, rfl⟩
  | 5, _ => exact ⟨.absentPending, rfl⟩
  | 6, _ => exact ⟨.absentAsked, rfl⟩
  | 7, _ => exact ⟨.absentUnreached, rfl⟩
  | 8, _ => exact ⟨.excused, rfl⟩
  | 9, _ => exact ⟨.arrivedExcused, rfl⟩
  | 10, _ => exact ⟨.signedOut, rfl⟩

theorem modify_shape {c : List (List Nat)} {k : Nat} {f : List Nat → List Nat} (h : CensusShape c)
    (hf : ∀ r : List Nat, (f r).length = r.length) : CensusShape (c.modify k f) := by
  refine ⟨by simp [h.1], fun r hr => ?_⟩
  obtain ⟨i, hi, rfl⟩ := List.mem_iff_getElem.1 hr
  rw [List.getElem_modify]
  split
  · rw [hf]; exact h.2 _ (List.getElem_mem _)
  · exact h.2 _ (List.getElem_mem _)

theorem censusUp_shape {c : List (List Nat)} {k : Nat} {m : Mark} (h : CensusShape c) : CensusShape (censusUp k m c) :=
  modify_shape h fun r => by simp

theorem censusDown_shape {c : List (List Nat)} {k : Nat} {m : Mark} (h : CensusShape c) : CensusShape (censusDown k m c) :=
  modify_shape h fun r => by simp

/-- One count after one cell was changed by `g`. -/
theorem censusAt_modify {c : List (List Nat)} {g : Nat → Nat} {j k : Nat} {m n : Mark} (h : CensusShape c) (hj : j < 8) :
    censusAt k n (c.modify j (·.modify (markColumn m) g)) =
      if k = j ∧ n = m then g (censusAt k n c) else censusAt k n c := by
  unfold censusAt
  by_cases hk : k = j
  · subst hk
    have hk8 : k < c.length := by rw [h.1]; exact hj
    have hrow : (c.modify k (·.modify (markColumn m) g)).getD k [] = (c.getD k []).modify (markColumn m) g := by
      simp [List.getD_eq_getElem?_getD, hk8]
    rw [hrow]
    have hlen : (c.getD k []).length = 11 := by
      simp only [List.getD_eq_getElem?_getD, List.getElem?_eq_getElem hk8, Option.getD_some]
      exact h.2 _ (List.getElem_mem _)
    by_cases hm : n = m
    · subst hm
      have : markColumn n < (c.getD k []).length := by rw [hlen]; exact markColumn_lt n
      simp [List.getD_eq_getElem?_getD] at this ⊢
      simp [this]
    · have hne : markColumn m ≠ markColumn n := fun e => hm (markColumn_inj e).symm
      simp [List.getD_eq_getElem?_getD, hm, hne]
  · simp [List.getD_eq_getElem?_getD, hk, Ne.symm hk]

theorem censusAt_up {c : List (List Nat)} {j k : Nat} {m n : Mark} (h : CensusShape c) (hj : j < 8) :
    censusAt k n (censusUp j m c) = censusAt k n c + if k = j ∧ n = m then 1 else 0 := by
  rw [censusUp, censusAt_modify h hj]; split <;> rfl

theorem censusAt_down {c : List (List Nat)} {j k : Nat} {m n : Mark} (h : CensusShape c) (hj : j < 8) :
    censusAt k n (censusDown j m c) = censusAt k n c - if k = j ∧ n = m then 1 else 0 := by
  rw [censusDown, censusAt_modify h hj]; split <;> rfl

/-- Two censuses of the right shape that read alike are equal. -/
theorem census_ext {c d : List (List Nat)} (hc : CensusShape c) (hd : CensusShape d)
    (h : ∀ k < 8, ∀ m, censusAt k m c = censusAt k m d) : c = d := by
  apply List.ext_getElem (by rw [hc.1, hd.1])
  intro i hi hi'
  have hi8 : i < 8 := hc.1 ▸ hi
  apply List.ext_getElem (by rw [hc.2 _ (List.getElem_mem _), hd.2 _ (List.getElem_mem _)])
  intro k hk hk'
  obtain ⟨m, hm⟩ := exists_mark (k := k) (by rw [← hc.2 _ (List.getElem_mem hi)]; exact hk)
  have := h i hi8 m
  simp only [censusAt, List.getD_eq_getElem?_getD, List.getElem?_eq_getElem hi, List.getElem?_eq_getElem hi',
    Option.getD_some, hm, List.getElem?_eq_getElem hk, List.getElem?_eq_getElem hk'] at this
  exact this

theorem censusOf_shape (l : List (Slot × Pupil)) : CensusShape (censusOf l) := by
  induction l with
  | nil => exact ⟨by simp [censusOf], fun r hr => by simp [censusOf] at hr; simp [hr]⟩
  | cons e t ih => exact censusUp_shape ih

/-- Every pupil of a roster has a cohort 0–7. -/
def CohortsOk (l : List (Slot × Pupil)) : Prop := ∀ e ∈ l, e.2.enrolment.cohort < 8

/-- Each count of a roster's census is the number of its pupils of the cohort who hold the mark. -/
theorem censusAt_of {l : List (Slot × Pupil)} (h : CohortsOk l) (c : Nat) (m : Mark) :
    censusAt c m (censusOf l) = l.countP fun e => e.2.enrolment.cohort = c ∧ e.2.day.mark = m := by
  induction l with
  | nil =>
    simp only [censusOf, List.foldr_nil, List.countP_nil, censusAt, List.getD_eq_getElem?_getD]
    rw [List.getElem?_replicate]
    split
    · simp only [Option.getD_some, List.getElem?_replicate]; split <;> rfl
    · rfl
  | cons e t ih =>
    have ht : CohortsOk t := fun x hx => h x (List.mem_cons_of_mem _ hx)
    show censusAt c m (censusUp e.2.enrolment.cohort e.2.day.mark (censusOf t)) = _
    rw [censusAt_up (censusOf_shape t) (h e List.mem_cons_self), ih ht, List.countP_cons]
    congr 1
    simp [eq_comm (a := c), eq_comm (a := m)]

/-- How many pupils that meet a test stand under a key. -/
def countAt (f : Pupil → Bool) (k : Slot) (l : List (Slot × Pupil)) : Nat :=
  ((tableGet k l).map fun q => if f q then 1 else 0).getD 0

/-- How the number of pupils that meet a test moves when one record is written. -/
theorem countP_put (f : Pupil → Bool) (k : Slot) (v : Pupil) {l : List (Slot × Pupil)}
    (hp : (l.map Prod.fst).Pairwise (· < ·)) :
    (tablePut k v l).countP (fun e => f e.2) + countAt f k l = l.countP (fun e => f e.2) + if f v then 1 else 0 := by
  induction l with
  | nil => simp [tablePut, tableGet, countAt, List.countP_cons]
  | cons x t ih =>
    obtain ⟨j, w⟩ := x
    rw [List.map_cons, List.pairwise_cons] at hp
    by_cases h1 : k < j
    · have hn : tableGet k ((j, w) :: t) = none := tableGet_eq_none.2 fun e he => by
        rcases List.mem_cons.1 he with h | h
        · subst h; exact Nat.ne_of_gt h1
        · exact Nat.ne_of_gt (Nat.lt_trans h1 (hp.1 _ (List.mem_map.2 ⟨e, h, rfl⟩)))
      simp [tablePut, if_pos h1, countAt, hn, List.countP_cons]
    · by_cases h2 : k = j
      · subst h2
        simp only [tablePut, if_neg h1, if_true, countAt, tableGet, Option.map_some, Option.getD_some, List.countP_cons]
        exact Nat.add_right_comm _ _ _
      · have ih' := ih hp.2
        have hg : countAt f k ((j, w) :: t) = countAt f k t := by simp [countAt, tableGet, Ne.symm h2]
        simp only [tablePut, if_neg h1, if_neg h2, List.countP_cons, hg]
        rw [Nat.add_right_comm, ih', Nat.add_right_comm]

/-- How the number of pupils that meet a test moves when one record is removed. -/
theorem countP_drop (f : Pupil → Bool) (k : Slot) (l : List (Slot × Pupil)) :
    (tableDrop k l).countP (fun e => f e.2) + countAt f k l = l.countP (fun e => f e.2) := by
  induction l with
  | nil => rfl
  | cons x t ih =>
    obtain ⟨j, w⟩ := x
    by_cases h2 : j = k
    · subst h2; simp [tableDrop, countAt, tableGet, List.countP_cons]
    · have hg : countAt f k ((j, w) :: t) = countAt f k t := by simp [countAt, tableGet, h2]
      simp only [tableDrop, if_neg h2, List.countP_cons, hg]
      rw [Nat.add_right_comm, ih]

theorem countAt_le (f : Pupil → Bool) (k : Slot) (l : List (Slot × Pupil)) :
    countAt f k l ≤ l.countP fun e => f e.2 := by
  have := countP_drop f k l; omega

end Sys2Proof.Machine
end

