-- ==== Sys2Proof/Laws/State.lean ====
section
/-! SUPPORT. What each of the primitive updates leaves in every field of the state, so that no proof unfolds a record update. -/

namespace Sys2Proof.Machine

/-! ### raise -/

@[simp] theorem raise_time (id : SourceId) (x : Option Subject) (s : State) : (raise id x s).time = s.time := rfl
@[simp] theorem raise_day (id : SourceId) (x : Option Subject) (s : State) : (raise id x s).day = s.day := rfl
@[simp] theorem raise_plan (id : SourceId) (x : Option Subject) (s : State) : (raise id x s).plan = s.plan := rfl
@[simp] theorem raise_roll (id : SourceId) (x : Option Subject) (s : State) : (raise id x s).roll = s.roll := rfl
@[simp] theorem raise_sweep (id : SourceId) (x : Option Subject) (s : State) : (raise id x s).sweep = s.sweep := rfl
@[simp] theorem raise_chime (id : SourceId) (x : Option Subject) (s : State) : (raise id x s).chime = s.chime := rfl
@[simp] theorem raise_zone (id : SourceId) (x : Option Subject) (s : State) : (raise id x s).zone = s.zone := rfl
@[simp] theorem raise_line (id : SourceId) (x : Option Subject) (s : State) : (raise id x s).line = s.line := rfl
@[simp] theorem raise_notices (id : SourceId) (x : Option Subject) (s : State) : (raise id x s).notices = s.notices := rfl
@[simp] theorem raise_gateway (id : SourceId) (x : Option Subject) (s : State) : (raise id x s).gateway = s.gateway := rfl
@[simp] theorem raise_attention (id : SourceId) (x : Option Subject) (s : State) : (raise id x s).attention = s.attention.modify id.num (Source.raised x) := rfl
@[simp] theorem raise_office (id : SourceId) (x : Option Subject) (s : State) : (raise id x s).office = s.office := rfl
@[simp] theorem raise_settings (id : SourceId) (x : Option Subject) (s : State) : (raise id x s).settings = s.settings := rfl
@[simp] theorem raise_limits (id : SourceId) (x : Option Subject) (s : State) : (raise id x s).limits = s.limits := rfl
@[simp] theorem raise_store (id : SourceId) (x : Option Subject) (s : State) : (raise id x s).store = s.store := rfl
@[simp] theorem raise_power (id : SourceId) (x : Option Subject) (s : State) : (raise id x s).power = s.power := rfl
@[simp] theorem raise_pins (id : SourceId) (x : Option Subject) (s : State) : (raise id x s).pins = s.pins := rfl
@[simp] theorem raise_pending (id : SourceId) (x : Option Subject) (s : State) : (raise id x s).pending = s.pending := rfl

/-! ### putPupil -/

@[simp] theorem putPupil_time (k : Slot) (p : Pupil) (s : State) : (putPupil k p s).time = s.time := rfl
@[simp] theorem putPupil_day (k : Slot) (p : Pupil) (s : State) : (putPupil k p s).day = s.day := rfl
@[simp] theorem putPupil_plan (k : Slot) (p : Pupil) (s : State) : (putPupil k p s).plan = s.plan := rfl
@[simp] theorem putPupil_roll (k : Slot) (p : Pupil) (s : State) : (putPupil k p s).roll = s.roll.put k p := rfl
@[simp] theorem putPupil_sweep (k : Slot) (p : Pupil) (s : State) : (putPupil k p s).sweep = s.sweep := rfl
@[simp] theorem putPupil_chime (k : Slot) (p : Pupil) (s : State) : (putPupil k p s).chime = s.chime := rfl
@[simp] theorem putPupil_zone (k : Slot) (p : Pupil) (s : State) : (putPupil k p s).zone = s.zone := rfl
@[simp] theorem putPupil_line (k : Slot) (p : Pupil) (s : State) : (putPupil k p s).line = s.line := rfl
@[simp] theorem putPupil_notices (k : Slot) (p : Pupil) (s : State) : (putPupil k p s).notices = s.notices := rfl
@[simp] theorem putPupil_gateway (k : Slot) (p : Pupil) (s : State) : (putPupil k p s).gateway = s.gateway := rfl
@[simp] theorem putPupil_attention (k : Slot) (p : Pupil) (s : State) : (putPupil k p s).attention = s.attention := rfl
@[simp] theorem putPupil_office (k : Slot) (p : Pupil) (s : State) : (putPupil k p s).office = s.office := rfl
@[simp] theorem putPupil_settings (k : Slot) (p : Pupil) (s : State) : (putPupil k p s).settings = s.settings := rfl
@[simp] theorem putPupil_limits (k : Slot) (p : Pupil) (s : State) : (putPupil k p s).limits = s.limits := rfl
@[simp] theorem putPupil_store (k : Slot) (p : Pupil) (s : State) : (putPupil k p s).store = s.store := rfl
@[simp] theorem putPupil_power (k : Slot) (p : Pupil) (s : State) : (putPupil k p s).power = s.power := rfl
@[simp] theorem putPupil_pins (k : Slot) (p : Pupil) (s : State) : (putPupil k p s).pins = s.pins := rfl
@[simp] theorem putPupil_pending (k : Slot) (p : Pupil) (s : State) : (putPupil k p s).pending = s.pending := rfl

/-! ### reach -/

@[simp] theorem reach_time (t : RunTime) (s : State) : (reach t s).time = { s.time with running := max s.time.running t } := rfl
@[simp] theorem reach_day (t : RunTime) (s : State) : (reach t s).day = s.day := rfl
@[simp] theorem reach_plan (t : RunTime) (s : State) : (reach t s).plan = s.plan := rfl
@[simp] theorem reach_roll (t : RunTime) (s : State) : (reach t s).roll = s.roll := rfl
@[simp] theorem reach_sweep (t : RunTime) (s : State) : (reach t s).sweep = s.sweep := rfl
@[simp] theorem reach_chime (t : RunTime) (s : State) : (reach t s).chime = s.chime := rfl
@[simp] theorem reach_zone (t : RunTime) (s : State) : (reach t s).zone = s.zone := rfl
@[simp] theorem reach_line (t : RunTime) (s : State) : (reach t s).line = s.line := rfl
@[simp] theorem reach_notices (t : RunTime) (s : State) : (reach t s).notices = s.notices := rfl
@[simp] theorem reach_gateway (t : RunTime) (s : State) : (reach t s).gateway = s.gateway := rfl
@[simp] theorem reach_attention (t : RunTime) (s : State) : (reach t s).attention = s.attention := rfl
@[simp] theorem reach_office (t : RunTime) (s : State) : (reach t s).office = s.office := rfl
@[simp] theorem reach_settings (t : RunTime) (s : State) : (reach t s).settings = s.settings := rfl
@[simp] theorem reach_limits (t : RunTime) (s : State) : (reach t s).limits = s.limits := rfl
@[simp] theorem reach_store (t : RunTime) (s : State) : (reach t s).store = s.store := rfl
@[simp] theorem reach_power (t : RunTime) (s : State) : (reach t s).power = s.power := rfl
@[simp] theorem reach_pins (t : RunTime) (s : State) : (reach t s).pins = s.pins := rfl
@[simp] theorem reach_pending (t : RunTime) (s : State) : (reach t s).pending = s.pending := rfl

/-! ### setTime -/

@[simp] theorem setTime_time (f : TimeBase → TimeBase) (s : State) : (setTime f s).time = f s.time := rfl
@[simp] theorem setTime_day (f : TimeBase → TimeBase) (s : State) : (setTime f s).day = s.day := rfl
@[simp] theorem setTime_plan (f : TimeBase → TimeBase) (s : State) : (setTime f s).plan = s.plan := rfl
@[simp] theorem setTime_roll (f : TimeBase → TimeBase) (s : State) : (setTime f s).roll = s.roll := rfl
@[simp] theorem setTime_sweep (f : TimeBase → TimeBase) (s : State) : (setTime f s).sweep = s.sweep := rfl
@[simp] theorem setTime_chime (f : TimeBase → TimeBase) (s : State) : (setTime f s).chime = s.chime := rfl
@[simp] theorem setTime_zone (f : TimeBase → TimeBase) (s : State) : (setTime f s).zone = s.zone := rfl
@[simp] theorem setTime_line (f : TimeBase → TimeBase) (s : State) : (setTime f s).line = s.line := rfl
@[simp] theorem setTime_notices (f : TimeBase → TimeBase) (s : State) : (setTime f s).notices = s.notices := rfl
@[simp] theorem setTime_gateway (f : TimeBase → TimeBase) (s : State) : (setTime f s).gateway = s.gateway := rfl
@[simp] theorem setTime_attention (f : TimeBase → TimeBase) (s : State) : (setTime f s).attention = s.attention := rfl
@[simp] theorem setTime_office (f : TimeBase → TimeBase) (s : State) : (setTime f s).office = s.office := rfl
@[simp] theorem setTime_settings (f : TimeBase → TimeBase) (s : State) : (setTime f s).settings = s.settings := rfl
@[simp] theorem setTime_limits (f : TimeBase → TimeBase) (s : State) : (setTime f s).limits = s.limits := rfl
@[simp] theorem setTime_store (f : TimeBase → TimeBase) (s : State) : (setTime f s).store = s.store := rfl
@[simp] theorem setTime_power (f : TimeBase → TimeBase) (s : State) : (setTime f s).power = s.power := rfl
@[simp] theorem setTime_pins (f : TimeBase → TimeBase) (s : State) : (setTime f s).pins = s.pins := rfl
@[simp] theorem setTime_pending (f : TimeBase → TimeBase) (s : State) : (setTime f s).pending = s.pending := rfl

/-! ### setAway -/

@[simp] theorem setAway_time (f : List AwayEntry → List AwayEntry) (s : State) : (setAway f s).time = s.time := rfl
@[simp] theorem setAway_day (f : List AwayEntry → List AwayEntry) (s : State) : (setAway f s).day = s.day := rfl
@[simp] theorem setAway_plan (f : List AwayEntry → List AwayEntry) (s : State) : (setAway f s).plan = s.plan := rfl
@[simp] theorem setAway_roll (f : List AwayEntry → List AwayEntry) (s : State) : (setAway f s).roll = { s.roll with away := f s.roll.away } := rfl
@[simp] theorem setAway_sweep (f : List AwayEntry → List AwayEntry) (s : State) : (setAway f s).sweep = s.sweep := rfl
@[simp] theorem setAway_chime (f : List AwayEntry → List AwayEntry) (s : State) : (setAway f s).chime = s.chime := rfl
@[simp] theorem setAway_zone (f : List AwayEntry → List AwayEntry) (s : State) : (setAway f s).zone = s.zone := rfl
@[simp] theorem setAway_line (f : List AwayEntry → List AwayEntry) (s : State) : (setAway f s).line = s.line := rfl
@[simp] theorem setAway_notices (f : List AwayEntry → List AwayEntry) (s : State) : (setAway f s).notices = s.notices := rfl
@[simp] theorem setAway_gateway (f : List AwayEntry → List AwayEntry) (s : State) : (setAway f s).gateway = s.gateway := rfl
@[simp] theorem setAway_attention (f : List AwayEntry → List AwayEntry) (s : State) : (setAway f s).attention = s.attention := rfl
@[simp] theorem setAway_office (f : List AwayEntry → List AwayEntry) (s : State) : (setAway f s).office = s.office := rfl
@[simp] theorem setAway_settings (f : List AwayEntry → List AwayEntry) (s : State) : (setAway f s).settings = s.settings := rfl
@[simp] theorem setAway_limits (f : List AwayEntry → List AwayEntry) (s : State) : (setAway f s).limits = s.limits := rfl
@[simp] theorem setAway_store (f : List AwayEntry → List AwayEntry) (s : State) : (setAway f s).store = s.store := rfl
@[simp] theorem setAway_power (f : List AwayEntry → List AwayEntry) (s : State) : (setAway f s).power = s.power := rfl
@[simp] theorem setAway_pins (f : List AwayEntry → List AwayEntry) (s : State) : (setAway f s).pins = s.pins := rfl
@[simp] theorem setAway_pending (f : List AwayEntry → List AwayEntry) (s : State) : (setAway f s).pending = s.pending := rfl

/-! ### setSweep -/

@[simp] theorem setSweep_time (f : CutSweeper → CutSweeper) (s : State) : (setSweep f s).time = s.time := rfl
@[simp] theorem setSweep_day (f : CutSweeper → CutSweeper) (s : State) : (setSweep f s).day = s.day := rfl
@[simp] theorem setSweep_plan (f : CutSweeper → CutSweeper) (s : State) : (setSweep f s).plan = s.plan := rfl
@[simp] theorem setSweep_roll (f : CutSweeper → CutSweeper) (s : State) : (setSweep f s).roll = s.roll := rfl
@[simp] theorem setSweep_sweep (f : CutSweeper → CutSweeper) (s : State) : (setSweep f s).sweep = f s.sweep := rfl
@[simp] theorem setSweep_chime (f : CutSweeper → CutSweeper) (s : State) : (setSweep f s).chime = s.chime := rfl
@[simp] theorem setSweep_zone (f : CutSweeper → CutSweeper) (s : State) : (setSweep f s).zone = s.zone := rfl
@[simp] theorem setSweep_line (f : CutSweeper → CutSweeper) (s : State) : (setSweep f s).line = s.line := rfl
@[simp] theorem setSweep_notices (f : CutSweeper → CutSweeper) (s : State) : (setSweep f s).notices = s.notices := rfl
@[simp] theorem setSweep_gateway (f : CutSweeper → CutSweeper) (s : State) : (setSweep f s).gateway = s.gateway := rfl
@[simp] theorem setSweep_attention (f : CutSweeper → CutSweeper) (s : State) : (setSweep f s).attention = s.attention := rfl
@[simp] theorem setSweep_office (f : CutSweeper → CutSweeper) (s : State) : (setSweep f s).office = s.office := rfl
@[simp] theorem setSweep_settings (f : CutSweeper → CutSweeper) (s : State) : (setSweep f s).settings = s.settings := rfl
@[simp] theorem setSweep_limits (f : CutSweeper → CutSweeper) (s : State) : (setSweep f s).limits = s.limits := rfl
@[simp] theorem setSweep_store (f : CutSweeper → CutSweeper) (s : State) : (setSweep f s).store = s.store := rfl
@[simp] theorem setSweep_power (f : CutSweeper → CutSweeper) (s : State) : (setSweep f s).power = s.power := rfl
@[simp] theorem setSweep_pins (f : CutSweeper → CutSweeper) (s : State) : (setSweep f s).pins = s.pins := rfl
@[simp] theorem setSweep_pending (f : CutSweeper → CutSweeper) (s : State) : (setSweep f s).pending = s.pending := rfl

/-! ### setNotices -/

@[simp] theorem setNotices_time (f : Dispatcher → Dispatcher) (s : State) : (setNotices f s).time = s.time := rfl
@[simp] theorem setNotices_day (f : Dispatcher → Dispatcher) (s : State) : (setNotices f s).day = s.day := rfl
@[simp] theorem setNotices_plan (f : Dispatcher → Dispatcher) (s : State) : (setNotices f s).plan = s.plan := rfl
@[simp] theorem setNotices_roll (f : Dispatcher → Dispatcher) (s : State) : (setNotices f s).roll = s.roll := rfl
@[simp] theorem setNotices_sweep (f : Dispatcher → Dispatcher) (s : State) : (setNotices f s).sweep = s.sweep := rfl
@[simp] theorem setNotices_chime (f : Dispatcher → Dispatcher) (s : State) : (setNotices f s).chime = s.chime := rfl
@[simp] theorem setNotices_zone (f : Dispatcher → Dispatcher) (s : State) : (setNotices f s).zone = s.zone := rfl
@[simp] theorem setNotices_line (f : Dispatcher → Dispatcher) (s : State) : (setNotices f s).line = s.line := rfl
@[simp] theorem setNotices_notices (f : Dispatcher → Dispatcher) (s : State) : (setNotices f s).notices = f s.notices := rfl
@[simp] theorem setNotices_gateway (f : Dispatcher → Dispatcher) (s : State) : (setNotices f s).gateway = s.gateway := rfl
@[simp] theorem setNotices_attention (f : Dispatcher → Dispatcher) (s : State) : (setNotices f s).attention = s.attention := rfl
@[simp] theorem setNotices_office (f : Dispatcher → Dispatcher) (s : State) : (setNotices f s).office = s.office := rfl
@[simp] theorem setNotices_settings (f : Dispatcher → Dispatcher) (s : State) : (setNotices f s).settings = s.settings := rfl
@[simp] theorem setNotices_limits (f : Dispatcher → Dispatcher) (s : State) : (setNotices f s).limits = s.limits := rfl
@[simp] theorem setNotices_store (f : Dispatcher → Dispatcher) (s : State) : (setNotices f s).store = s.store := rfl
@[simp] theorem setNotices_power (f : Dispatcher → Dispatcher) (s : State) : (setNotices f s).power = s.power := rfl
@[simp] theorem setNotices_pins (f : Dispatcher → Dispatcher) (s : State) : (setNotices f s).pins = s.pins := rfl
@[simp] theorem setNotices_pending (f : Dispatcher → Dispatcher) (s : State) : (setNotices f s).pending = s.pending := rfl

/-! ### setGateway -/

@[simp] theorem setGateway_time (f : GatewayPort → GatewayPort) (s : State) : (setGateway f s).time = s.time := rfl
@[simp] theorem setGateway_day (f : GatewayPort → GatewayPort) (s : State) : (setGateway f s).day = s.day := rfl
@[simp] theorem setGateway_plan (f : GatewayPort → GatewayPort) (s : State) : (setGateway f s).plan = s.plan := rfl
@[simp] theorem setGateway_roll (f : GatewayPort → GatewayPort) (s : State) : (setGateway f s).roll = s.roll := rfl
@[simp] theorem setGateway_sweep (f : GatewayPort → GatewayPort) (s : State) : (setGateway f s).sweep = s.sweep := rfl
@[simp] theorem setGateway_chime (f : GatewayPort → GatewayPort) (s : State) : (setGateway f s).chime = s.chime := rfl
@[simp] theorem setGateway_zone (f : GatewayPort → GatewayPort) (s : State) : (setGateway f s).zone = s.zone := rfl
@[simp] theorem setGateway_line (f : GatewayPort → GatewayPort) (s : State) : (setGateway f s).line = s.line := rfl
@[simp] theorem setGateway_notices (f : GatewayPort → GatewayPort) (s : State) : (setGateway f s).notices = s.notices := rfl
@[simp] theorem setGateway_gateway (f : GatewayPort → GatewayPort) (s : State) : (setGateway f s).gateway = f s.gateway := rfl
@[simp] theorem setGateway_attention (f : GatewayPort → GatewayPort) (s : State) : (setGateway f s).attention = s.attention := rfl
@[simp] theorem setGateway_office (f : GatewayPort → GatewayPort) (s : State) : (setGateway f s).office = s.office := rfl
@[simp] theorem setGateway_settings (f : GatewayPort → GatewayPort) (s : State) : (setGateway f s).settings = s.settings := rfl
@[simp] theorem setGateway_limits (f : GatewayPort → GatewayPort) (s : State) : (setGateway f s).limits = s.limits := rfl
@[simp] theorem setGateway_store (f : GatewayPort → GatewayPort) (s : State) : (setGateway f s).store = s.store := rfl
@[simp] theorem setGateway_power (f : GatewayPort → GatewayPort) (s : State) : (setGateway f s).power = s.power := rfl
@[simp] theorem setGateway_pins (f : GatewayPort → GatewayPort) (s : State) : (setGateway f s).pins = s.pins := rfl
@[simp] theorem setGateway_pending (f : GatewayPort → GatewayPort) (s : State) : (setGateway f s).pending = s.pending := rfl

/-! ### updateNotice -/

@[simp] theorem updateNotice_time (n : Nat) (f : Notice → Notice) (s : State) : (updateNotice n f s).time = s.time := rfl
@[simp] theorem updateNotice_day (n : Nat) (f : Notice → Notice) (s : State) : (updateNotice n f s).day = s.day := rfl
@[simp] theorem updateNotice_plan (n : Nat) (f : Notice → Notice) (s : State) : (updateNotice n f s).plan = s.plan := rfl
@[simp] theorem updateNotice_roll (n : Nat) (f : Notice → Notice) (s : State) : (updateNotice n f s).roll = s.roll := rfl
@[simp] theorem updateNotice_sweep (n : Nat) (f : Notice → Notice) (s : State) : (updateNotice n f s).sweep = s.sweep := rfl
@[simp] theorem updateNotice_chime (n : Nat) (f : Notice → Notice) (s : State) : (updateNotice n f s).chime = s.chime := rfl
@[simp] theorem updateNotice_zone (n : Nat) (f : Notice → Notice) (s : State) : (updateNotice n f s).zone = s.zone := rfl
@[simp] theorem updateNotice_line (n : Nat) (f : Notice → Notice) (s : State) : (updateNotice n f s).line = s.line := rfl
@[simp] theorem updateNotice_notices (n : Nat) (f : Notice → Notice) (s : State) : (updateNotice n f s).notices = { s.notices with queue := s.notices.queue.map fun x => if x.number = n then f x else x } := rfl
@[simp] theorem updateNotice_gateway (n : Nat) (f : Notice → Notice) (s : State) : (updateNotice n f s).gateway = s.gateway := rfl
@[simp] theorem updateNotice_attention (n : Nat) (f : Notice → Notice) (s : State) : (updateNotice n f s).attention = s.attention := rfl
@[simp] theorem updateNotice_office (n : Nat) (f : Notice → Notice) (s : State) : (updateNotice n f s).office = s.office := rfl
@[simp] theorem updateNotice_settings (n : Nat) (f : Notice → Notice) (s : State) : (updateNotice n f s).settings = s.settings := rfl
@[simp] theorem updateNotice_limits (n : Nat) (f : Notice → Notice) (s : State) : (updateNotice n f s).limits = s.limits := rfl
@[simp] theorem updateNotice_store (n : Nat) (f : Notice → Notice) (s : State) : (updateNotice n f s).store = s.store := rfl
@[simp] theorem updateNotice_power (n : Nat) (f : Notice → Notice) (s : State) : (updateNotice n f s).power = s.power := rfl
@[simp] theorem updateNotice_pins (n : Nat) (f : Notice → Notice) (s : State) : (updateNotice n f s).pins = s.pins := rfl
@[simp] theorem updateNotice_pending (n : Nat) (f : Notice → Notice) (s : State) : (updateNotice n f s).pending = s.pending := rfl

/-! ### dropSend -/

@[simp] theorem dropSend_time (key : SendKey) (s : State) : (dropSend key s).time = s.time := rfl
@[simp] theorem dropSend_day (key : SendKey) (s : State) : (dropSend key s).day = s.day := rfl
@[simp] theorem dropSend_plan (key : SendKey) (s : State) : (dropSend key s).plan = s.plan := rfl
@[simp] theorem dropSend_roll (key : SendKey) (s : State) : (dropSend key s).roll = s.roll := rfl
@[simp] theorem dropSend_sweep (key : SendKey) (s : State) : (dropSend key s).sweep = s.sweep := rfl
@[simp] theorem dropSend_chime (key : SendKey) (s : State) : (dropSend key s).chime = s.chime := rfl
@[simp] theorem dropSend_zone (key : SendKey) (s : State) : (dropSend key s).zone = s.zone := rfl
@[simp] theorem dropSend_line (key : SendKey) (s : State) : (dropSend key s).line = s.line := rfl
@[simp] theorem dropSend_notices (key : SendKey) (s : State) : (dropSend key s).notices = { s.notices with window := s.notices.window.filter (·.key ≠ key) } := rfl
@[simp] theorem dropSend_gateway (key : SendKey) (s : State) : (dropSend key s).gateway = s.gateway := rfl
@[simp] theorem dropSend_attention (key : SendKey) (s : State) : (dropSend key s).attention = s.attention := rfl
@[simp] theorem dropSend_office (key : SendKey) (s : State) : (dropSend key s).office = s.office := rfl
@[simp] theorem dropSend_settings (key : SendKey) (s : State) : (dropSend key s).settings = s.settings := rfl
@[simp] theorem dropSend_limits (key : SendKey) (s : State) : (dropSend key s).limits = s.limits := rfl
@[simp] theorem dropSend_store (key : SendKey) (s : State) : (dropSend key s).store = s.store := rfl
@[simp] theorem dropSend_power (key : SendKey) (s : State) : (dropSend key s).power = s.power := rfl
@[simp] theorem dropSend_pins (key : SendKey) (s : State) : (dropSend key s).pins = s.pins := rfl
@[simp] theorem dropSend_pending (key : SendKey) (s : State) : (dropSend key s).pending = s.pending := rfl

/-! ### modifyTerminal -/

@[simp] theorem modifyTerminal_time (n : Nat) (f : Terminal → Terminal) (s : State) : (modifyTerminal n f s).time = s.time := rfl
@[simp] theorem modifyTerminal_day (n : Nat) (f : Terminal → Terminal) (s : State) : (modifyTerminal n f s).day = s.day := rfl
@[simp] theorem modifyTerminal_plan (n : Nat) (f : Terminal → Terminal) (s : State) : (modifyTerminal n f s).plan = s.plan := rfl
@[simp] theorem modifyTerminal_roll (n : Nat) (f : Terminal → Terminal) (s : State) : (modifyTerminal n f s).roll = s.roll := rfl
@[simp] theorem modifyTerminal_sweep (n : Nat) (f : Terminal → Terminal) (s : State) : (modifyTerminal n f s).sweep = s.sweep := rfl
@[simp] theorem modifyTerminal_chime (n : Nat) (f : Terminal → Terminal) (s : State) : (modifyTerminal n f s).chime = s.chime := rfl
@[simp] theorem modifyTerminal_zone (n : Nat) (f : Terminal → Terminal) (s : State) : (modifyTerminal n f s).zone = s.zone := rfl
@[simp] theorem modifyTerminal_line (n : Nat) (f : Terminal → Terminal) (s : State) : (modifyTerminal n f s).line = { s.line with table := s.line.table.modify n (·.map f) } := rfl
@[simp] theorem modifyTerminal_notices (n : Nat) (f : Terminal → Terminal) (s : State) : (modifyTerminal n f s).notices = s.notices := rfl
@[simp] theorem modifyTerminal_gateway (n : Nat) (f : Terminal → Terminal) (s : State) : (modifyTerminal n f s).gateway = s.gateway := rfl
@[simp] theorem modifyTerminal_attention (n : Nat) (f : Terminal → Terminal) (s : State) : (modifyTerminal n f s).attention = s.attention := rfl
@[simp] theorem modifyTerminal_office (n : Nat) (f : Terminal → Terminal) (s : State) : (modifyTerminal n f s).office = s.office := rfl
@[simp] theorem modifyTerminal_settings (n : Nat) (f : Terminal → Terminal) (s : State) : (modifyTerminal n f s).settings = s.settings := rfl
@[simp] theorem modifyTerminal_limits (n : Nat) (f : Terminal → Terminal) (s : State) : (modifyTerminal n f s).limits = s.limits := rfl
@[simp] theorem modifyTerminal_store (n : Nat) (f : Terminal → Terminal) (s : State) : (modifyTerminal n f s).store = s.store := rfl
@[simp] theorem modifyTerminal_power (n : Nat) (f : Terminal → Terminal) (s : State) : (modifyTerminal n f s).power = s.power := rfl
@[simp] theorem modifyTerminal_pins (n : Nat) (f : Terminal → Terminal) (s : State) : (modifyTerminal n f s).pins = s.pins := rfl
@[simp] theorem modifyTerminal_pending (n : Nat) (f : Terminal → Terminal) (s : State) : (modifyTerminal n f s).pending = s.pending := rfl

/-! ### keepEntrance -/

@[simp] theorem keepEntrance_time (s : State) : (keepEntrance s).time = s.time := rfl
@[simp] theorem keepEntrance_day (s : State) : (keepEntrance s).day = s.day := rfl
@[simp] theorem keepEntrance_plan (s : State) : (keepEntrance s).plan = s.plan := rfl
@[simp] theorem keepEntrance_roll (s : State) : (keepEntrance s).roll = s.roll := rfl
@[simp] theorem keepEntrance_sweep (s : State) : (keepEntrance s).sweep = s.sweep := rfl
@[simp] theorem keepEntrance_chime (s : State) : (keepEntrance s).chime = s.chime := rfl
@[simp] theorem keepEntrance_zone (s : State) : (keepEntrance s).zone = s.zone := rfl
@[simp] theorem keepEntrance_notices (s : State) : (keepEntrance s).notices = s.notices := rfl
@[simp] theorem keepEntrance_gateway (s : State) : (keepEntrance s).gateway = s.gateway := rfl
@[simp] theorem keepEntrance_attention (s : State) : (keepEntrance s).attention = s.attention := rfl
@[simp] theorem keepEntrance_office (s : State) : (keepEntrance s).office = s.office := rfl
@[simp] theorem keepEntrance_settings (s : State) : (keepEntrance s).settings = s.settings := rfl
@[simp] theorem keepEntrance_limits (s : State) : (keepEntrance s).limits = s.limits := rfl
@[simp] theorem keepEntrance_store (s : State) : (keepEntrance s).store = s.store := rfl
@[simp] theorem keepEntrance_power (s : State) : (keepEntrance s).power = s.power := rfl
@[simp] theorem keepEntrance_pins (s : State) : (keepEntrance s).pins = s.pins := rfl
@[simp] theorem keepEntrance_pending (s : State) : (keepEntrance s).pending = s.pending := rfl
@[simp] theorem keepEntrance_line_table (s : State) : (keepEntrance s).line.table = s.line.table := rfl
@[simp] theorem keepEntrance_line_job (s : State) : (keepEntrance s).line.job = s.line.job := rfl
@[simp] theorem keepEntrance_line_phase (s : State) : (keepEntrance s).line.phase = s.line.phase := rfl
@[simp] theorem keepEntrance_line_orphan (s : State) : (keepEntrance s).line.orphan = s.line.orphan := rfl
@[simp] theorem keepEntrance_line_dropJob (s : State) : (keepEntrance s).line.dropJob = s.line.dropJob := rfl
@[simp] theorem keepEntrance_line_enumerationPending (s : State) : (keepEntrance s).line.enumerationPending = s.line.enumerationPending := rfl
@[simp] theorem keepEntrance_line_clockDue (s : State) : (keepEntrance s).line.clockDue = s.line.clockDue := rfl
@[simp] theorem keepEntrance_line_refused (s : State) : (keepEntrance s).line.refused = s.line.refused := rfl
@[simp] theorem keepEntrance_line_lastEnumeration (s : State) : (keepEntrance s).line.lastEnumeration = s.line.lastEnumeration := rfl
@[simp] theorem keepEntrance_line_sent (s : State) : (keepEntrance s).line.sent = s.line.sent := rfl

/-! ### SettingsStore.write -/

@[simp] theorem write_operation (a : Area) (c : AreaCopies) (st : SettingsStore) : (st.write a c).operation = st.operation := rfl
@[simp] theorem write_lastOperation (a : Area) (c : AreaCopies) (st : SettingsStore) :
    (st.write a c).lastOperation = st.lastOperation := rfl
@[simp] theorem write_stored (a : Area) (c : AreaCopies) (st : SettingsStore) :
    (st.write a c).stored = AreaCopies.put a c st.stored := rfl

/-! ### AreaCopies.keep -/

@[simp] theorem keep_settings (p : Area → Bool) (c : AreaCopies) : (c.keep p).settings = c.settings.filter fun _ => p .settings := rfl
@[simp] theorem keep_limits (p : Area → Bool) (c : AreaCopies) : (c.keep p).limits = c.limits.filter fun _ => p .limits := rfl
@[simp] theorem keep_plans (p : Area → Bool) (c : AreaCopies) : (c.keep p).plans = c.plans.filter fun _ => p .plans := rfl
@[simp] theorem keep_patterns (p : Area → Bool) (c : AreaCopies) : (c.keep p).patterns = c.patterns.filter fun _ => p .patterns := rfl
@[simp] theorem keep_calendar (p : Area → Bool) (c : AreaCopies) : (c.keep p).calendar = c.calendar.filter fun _ => p .calendar := rfl
@[simp] theorem keep_texts (p : Area → Bool) (c : AreaCopies) : (c.keep p).texts = c.texts.filter fun _ => p .texts := rfl
@[simp] theorem keep_roster (p : Area → Bool) (c : AreaCopies) : (c.keep p).roster = c.roster.filter fun _ => p .roster := rfl
@[simp] theorem keep_away (p : Area → Bool) (c : AreaCopies) : (c.keep p).away = c.away.filter fun _ => p .away := rfl
@[simp] theorem keep_terminals (p : Area → Bool) (c : AreaCopies) : (c.keep p).terminals = c.terminals.filter fun _ => p .terminals := rfl

/-! ### replied -/

@[simp] theorem replied_time (r : Reply) (s : State) : (replied r s).time = s.time := rfl
@[simp] theorem replied_day (r : Reply) (s : State) : (replied r s).day = s.day := rfl
@[simp] theorem replied_plan (r : Reply) (s : State) : (replied r s).plan = s.plan := rfl
@[simp] theorem replied_roll (r : Reply) (s : State) : (replied r s).roll = s.roll := rfl
@[simp] theorem replied_sweep (r : Reply) (s : State) : (replied r s).sweep = s.sweep := rfl
@[simp] theorem replied_chime (r : Reply) (s : State) : (replied r s).chime = s.chime := rfl
@[simp] theorem replied_zone (r : Reply) (s : State) : (replied r s).zone = s.zone := rfl
@[simp] theorem replied_line (r : Reply) (s : State) : (replied r s).line = s.line := rfl
@[simp] theorem replied_notices (r : Reply) (s : State) : (replied r s).notices = s.notices := rfl
@[simp] theorem replied_gateway (r : Reply) (s : State) : (replied r s).gateway = s.gateway := rfl
@[simp] theorem replied_attention (r : Reply) (s : State) : (replied r s).attention = s.attention := rfl
@[simp] theorem replied_office (r : Reply) (s : State) : (replied r s).office = { s.office with result := some r } := rfl
@[simp] theorem replied_settings (r : Reply) (s : State) : (replied r s).settings = s.settings := rfl
@[simp] theorem replied_limits (r : Reply) (s : State) : (replied r s).limits = s.limits := rfl
@[simp] theorem replied_store (r : Reply) (s : State) : (replied r s).store = s.store := rfl
@[simp] theorem replied_power (r : Reply) (s : State) : (replied r s).power = s.power := rfl
@[simp] theorem replied_pins (r : Reply) (s : State) : (replied r s).pins = s.pins := rfl
@[simp] theorem replied_pending (r : Reply) (s : State) : (replied r s).pending = s.pending := rfl

/-! ### withStrap -/

@[simp] theorem withStrap_time (b : Bool) (s : State) : (withStrap b s).time = s.time := rfl
@[simp] theorem withStrap_day (b : Bool) (s : State) : (withStrap b s).day = s.day := rfl
@[simp] theorem withStrap_plan (b : Bool) (s : State) : (withStrap b s).plan = s.plan := rfl
@[simp] theorem withStrap_roll (b : Bool) (s : State) : (withStrap b s).roll = s.roll := rfl
@[simp] theorem withStrap_sweep (b : Bool) (s : State) : (withStrap b s).sweep = s.sweep := rfl
@[simp] theorem withStrap_chime (b : Bool) (s : State) : (withStrap b s).chime = s.chime := rfl
@[simp] theorem withStrap_zone (b : Bool) (s : State) : (withStrap b s).zone = s.zone := rfl
@[simp] theorem withStrap_line (b : Bool) (s : State) : (withStrap b s).line = s.line := rfl
@[simp] theorem withStrap_notices (b : Bool) (s : State) : (withStrap b s).notices = s.notices := rfl
@[simp] theorem withStrap_gateway (b : Bool) (s : State) : (withStrap b s).gateway = s.gateway := rfl
@[simp] theorem withStrap_attention (b : Bool) (s : State) : (withStrap b s).attention = s.attention := rfl
@[simp] theorem withStrap_office (b : Bool) (s : State) : (withStrap b s).office = s.office := rfl
@[simp] theorem withStrap_settings (b : Bool) (s : State) : (withStrap b s).settings = s.settings := rfl
@[simp] theorem withStrap_limits (b : Bool) (s : State) : (withStrap b s).limits = s.limits := rfl
@[simp] theorem withStrap_store (b : Bool) (s : State) : (withStrap b s).store = s.store := rfl
@[simp] theorem withStrap_power (b : Bool) (s : State) : (withStrap b s).power = s.power := rfl
@[simp] theorem withStrap_pins (b : Bool) (s : State) : (withStrap b s).pins = { s.pins with install := b } := rfl
@[simp] theorem withStrap_pending (b : Bool) (s : State) : (withStrap b s).pending = s.pending := rfl

/-! ### holdPart -/

@[simp] theorem holdPart_time (s : State) : (holdPart s).time = s.time := rfl
@[simp] theorem holdPart_day (s : State) : (holdPart s).day = s.day := rfl
@[simp] theorem holdPart_plan (s : State) : (holdPart s).plan = s.plan := rfl
@[simp] theorem holdPart_roll (s : State) : (holdPart s).roll = s.roll := rfl
@[simp] theorem holdPart_sweep (s : State) : (holdPart s).sweep = s.sweep := rfl
@[simp] theorem holdPart_chime (s : State) : (holdPart s).chime = s.chime := rfl
@[simp] theorem holdPart_zone (s : State) : (holdPart s).zone = s.zone := rfl
@[simp] theorem holdPart_line (s : State) : (holdPart s).line = s.line := rfl
@[simp] theorem holdPart_notices (s : State) : (holdPart s).notices = s.notices := rfl
@[simp] theorem holdPart_gateway (s : State) : (holdPart s).gateway = s.gateway := rfl
@[simp] theorem holdPart_attention (s : State) : (holdPart s).attention = s.attention := rfl
@[simp] theorem holdPart_office (s : State) : (holdPart s).office = s.office := rfl
@[simp] theorem holdPart_settings (s : State) : (holdPart s).settings = s.settings := rfl
@[simp] theorem holdPart_limits (s : State) : (holdPart s).limits = s.limits := rfl
@[simp] theorem holdPart_store (s : State) : (holdPart s).store = s.store := rfl
@[simp] theorem holdPart_power (s : State) : (holdPart s).power = { s.power with held := true } := rfl
@[simp] theorem holdPart_pins (s : State) : (holdPart s).pins = s.pins := rfl
@[simp] theorem holdPart_pending (s : State) : (holdPart s).pending = s.pending := rfl

end Sys2Proof.Machine
end

