-- ==== Sys2Proof/Laws/Roll.lean ====
section
/-! SUPPORT. The Roster Table: what a record written or removed leaves in the roster and the census (R5, R7–R9, R18), and what a
claim on a mark does (R5, R6). -/

namespace Sys2Proof.Machine

/-! ### Records written and removed -/

@[simp] theorem put_roster (k : Slot) (p : Pupil) (r : RollUnit) : (r.put k p).roster = tablePut k p r.roster := rfl
@[simp] theorem put_away (k : Slot) (p : Pupil) (r : RollUnit) : (r.put k p).away = r.away := rfl

theorem remove_away (k : Slot) (r : RollUnit) : (r.remove k).away = r.away := by
  unfold RollUnit.remove; split <;> rfl

@[simp] theorem pupilAt_put_self (k : Slot) (p : Pupil) (s : State) : pupilAt k (putPupil k p s) = some p :=
  tableGet_put_self k p s.roll.roster

theorem pupilAt_put_ne {j k : Slot} (h : j ≠ k) (p : Pupil) (s : State) : pupilAt j (putPupil k p s) = pupilAt j s :=
  tableGet_put_ne h p s.roll.roster

theorem pupilAt_congr {s t : State} (h : t.roll.roster = s.roll.roster) (k : Slot) : pupilAt k t = pupilAt k s := by
  unfold pupilAt; rw [h]

theorem RollOk.wf {s : State} (h : RollOk s) : (s.roll.roster.map Prod.fst).Pairwise (· < ·) := h.1.1

theorem RollOk.cohort {s : State} (h : RollOk s) {k : Slot} {p : Pupil} (hp : pupilAt k s = some p) :
    p.enrolment.cohort < 8 := h.2.1 _ (mem_of_tableGet hp)

theorem RollOk.slot_lt {s : State} (h : RollOk s) {k : Slot} {p : Pupil} (hp : pupilAt k s = some p) : k < 2048 :=
  h.1.2 _ (mem_of_tableGet hp)

theorem RollOk.shape {s : State} (h : RollOk s) : CensusShape s.roll.census := h.2.2 ▸ censusOf_shape _

theorem RollOk.congr {s t : State} (h : RollOk s) (h1 : t.roll.roster = s.roll.roster) (h2 : t.roll.census = s.roll.census) :
    RollOk t := by
  unfold RollOk at *; rw [h1, h2]; exact h

/-- A pupil holds the mark in the cohort. -/
def holds (c : Nat) (m : Mark) (p : Pupil) : Bool := p.enrolment.cohort = c ∧ p.day.mark = m

theorem holds_iff {c : Nat} {m : Mark} {p : Pupil} : holds c m p = true ↔ p.enrolment.cohort = c ∧ p.day.mark = m := by
  simp [holds]

theorem RollOk.censusAt {s : State} (h : RollOk s) (c : Nat) (m : Mark) :
    censusAt c m s.roll.census = s.roll.roster.countP fun e => holds c m e.2 := by
  rw [h.2.2, censusAt_of h.2.1]; rfl

/-- A record written keeps the Roll Unit's relations. -/
theorem RollOk.put {s : State} (h : RollOk s) {k : Slot} {p : Pupil} (hk : k < 2048) (hc : p.enrolment.cohort < 8) :
    RollOk (putPupil k p s) := by
  have hco : CohortsOk (tablePut k p s.roll.roster) := fun e he =>
    (mem_tablePut he).elim (fun x => x ▸ hc) (h.2.1 e)
  refine ⟨tablePut_wf h.1 hk, hco, ?_⟩
  show (s.roll.put k p).census = censusOf (tablePut k p s.roll.roster)
  have hs := h.shape
  have key (c : Nat) (m : Mark) := countP_put (holds c m) k p h.wf
  unfold RollUnit.put
  simp only
  cases hg : tableGet k s.roll.roster with
  | none =>
    refine census_ext (censusUp_shape hs) (censusOf_shape _) fun c _ m => ?_
    rw [censusAt_up hs hc, h.censusAt, censusAt_of hco]
    have := key c m
    simp only [countAt, hg, Option.map_none, Option.getD_none, Nat.add_zero] at this
    rw [show (fun e : Slot × Pupil => decide (e.2.enrolment.cohort = c ∧ e.2.day.mark = m)) = fun e => holds c m e.2 from rfl,
      this]
    congr 1
    simp [holds, eq_comm (a := c), eq_comm (a := m)]
  | some q =>
    have hq : q.enrolment.cohort < 8 := h.cohort hg
    simp only
    split
    · rename_i heq
      refine census_ext hs (censusOf_shape _) fun c _ m => ?_
      rw [h.censusAt, censusAt_of hco]
      have := key c m
      have e : holds c m q = holds c m p := by simp [holds, heq.1, heq.2]
      simp only [countAt, hg, Option.map_some, Option.getD_some, e] at this
      exact (Nat.add_right_cancel this).symm
    · refine census_ext (censusUp_shape (censusDown_shape hs)) (censusOf_shape _) fun c _ m => ?_
      rw [censusAt_up (censusDown_shape hs) hc, censusAt_down hs hq, h.censusAt, censusAt_of hco]
      have k1 := key c m
      have k2 := countAt_le (holds c m) k s.roll.roster
      simp only [countAt, hg, Option.map_some, Option.getD_some] at k1 k2
      have e1 : (c = q.enrolment.cohort ∧ m = q.day.mark) ↔ holds c m q = true := by
        simp [holds, eq_comm (a := c), eq_comm (a := m)]
      have e2 : (c = p.enrolment.cohort ∧ m = p.day.mark) ↔ holds c m p = true := by
        simp [holds, eq_comm (a := c), eq_comm (a := m)]
      simp only [e1, e2]
      show _ = List.countP (fun e : Slot × Pupil => holds c m e.2) _
      by_cases h1 : holds c m q = true <;> by_cases h2 : holds c m p = true <;> simp only [h1, h2, if_true, if_false,
        Bool.false_eq_true, Slot] at k1 k2 ⊢ <;> omega

/-- A record removed keeps the Roll Unit's relations. -/
theorem RollOk.remove {s : State} (h : RollOk s) (k : Slot) : RollOk { s with roll := s.roll.remove k } := by
  unfold RollUnit.remove
  cases hg : tableGet k s.roll.roster with
  | none => exact h
  | some q =>
    have hq : q.enrolment.cohort < 8 := h.cohort hg
    have hco : CohortsOk (tableDrop k s.roll.roster) := fun e he => h.2.1 e (mem_tableDrop he)
    refine ⟨tableDrop_wf h.1, hco, ?_⟩
    refine census_ext (censusDown_shape h.shape) (censusOf_shape _) fun c _ m => ?_
    rw [censusAt_down h.shape hq, h.censusAt, censusAt_of hco]
    have k1 := countP_drop (holds c m) k s.roll.roster
    simp only [countAt, hg, Option.map_some, Option.getD_some] at k1
    have e1 : (c = q.enrolment.cohort ∧ m = q.day.mark) ↔ holds c m q = true := by
      simp [holds, eq_comm (a := c), eq_comm (a := m)]
    simp only [e1]
    show _ = List.countP (fun e : Slot × Pupil => holds c m e.2) _
    by_cases h1 : holds c m q = true <;> simp only [h1, if_true, if_false, Bool.false_eq_true, Slot] at k1 ⊢ <;> omega

/-- The census moves by the difference of the two records of the one slot in which two sound rolls differ. -/
theorem censusMoved_of {s t : State} (hs : RollOk s) (ht : RollOk t) {k : Slot} (ho : OthersKept k s t)
    (a b : Option (Nat × Mark)) (ha : a = (pupilAt k s).map fun p => (p.enrolment.cohort, p.day.mark))
    (hb : b = (pupilAt k t).map fun p => (p.enrolment.cohort, p.day.mark)) : CensusMoved a b s t := by
  have count (u : State) (hu : RollOk u) (c : Nat) (m : Mark) (x : Option (Nat × Mark))
      (hx : x = (pupilAt k u).map fun p => (p.enrolment.cohort, p.day.mark)) :
      censusAt c m u.roll.census =
        (tableDrop k u.roll.roster).countP (fun e => holds c m e.2) + if x = some (c, m) then 1 else 0 := by
    rw [hu.censusAt, ← countP_drop (holds c m) k u.roll.roster, hx]
    congr 1
    unfold countAt pupilAt
    cases tableGet k u.roll.roster with
    | none => simp
    | some q => simp [holds]
  have hd : tableDrop k t.roll.roster = tableDrop k s.roll.roster := by
    have wt := tableDrop_pairwise (k := k) ht.wf
    have ws := tableDrop_pairwise (k := k) hs.wf
    have nd {l : List (Slot × Pupil)} (w : (l.map Prod.fst).Pairwise (· < ·)) : l.Pairwise fun x y => x.1 < y.1 :=
      List.pairwise_map.1 w
    refine (nd wt).eq_of_mem_iff (nd ws) (tableGet_ext wt ws fun j => ?_)
    by_cases hj : j = k
    · subst hj; rw [tableGet_drop_self ht.wf, tableGet_drop_self hs.wf]
    · rw [tableGet_drop_ne hj, tableGet_drop_ne hj]; exact ho j hj
  intro c m
  rw [count t ht c m b hb, count s hs c m a ha, hd]
  omega

end Sys2Proof.Machine
end

