-- ==== Sys2Proof/Laws/Notices.lean ====
section
/-! SUPPORT. The marks and the Notice Queue (R6): what `PendingOk` and `QueueOk` say together, with some slots for which the notice is
already withdrawn and the mark has yet to follow, and what each change of the queue, of a mark and of the Send Window leaves of it. -/

namespace Sys2Proof.Machine

/-- `PendingOk` and `QueueOk`, but for the slots of `D`, whose ABSENT notice has left before their mark. -/
structure Owing (D : Slot → Prop) (s : State) : Prop where
  one : ∀ k, (s.notices.queue.countP (·.isAbsentOf k) = 1 ∧ markAt k s = some .absentPending ∧ s.day.state = .open_) ∨
    (s.notices.queue.countP (·.isAbsentOf k) = 0 ∧ (markAt k s = some .absentPending → D k))
  addressed : ∀ n ∈ s.notices.queue, Addresses n.kind n.addressee
  cancel : ∀ n ∈ s.notices.queue, ∀ k i, n.addressee = .pupil k i → n.cancel = true → n.inWindow = true
  held : ∀ k p, pupilAt k s = some p → p.day.heldMark ≠ some .absentPending
  sweep : s.sweep.state ≠ .idle → s.day.state = .open_
  load : rollLoadUnderWay s = true → s.day.state = .closed
  length : s.notices.queue.length ≤ 128
  few : s.notices.queue.countP (·.kind = .absent) ≤ 120
  numbers : (s.notices.queue.map (·.number)).Nodup
  window : s.notices.window.length ≤ 4
  sends : ∀ x ∈ s.notices.window, ∃ n ∈ s.notices.queue, n.Sends x
  once : ∀ n ∈ s.notices.queue, n.isPupil = true → s.notices.window.countP (·.key.number = n.number) ≤ 1
  steps : ∀ n ∈ s.notices.queue, ∀ b, n.addressee = .broadcast b →
    b.returned.length + s.notices.window.countP (·.key.number = n.number) ≤ 4

/-- No slot is owing. -/
abbrev NoticesOk (s : State) : Prop := Owing (fun _ => False) s

theorem noticesOk_iff {s : State} : NoticesOk s ↔ PendingOk s ∧ QueueOk s := by
  constructor
  · intro h
    refine ⟨⟨fun k => ?_, h.addressed, h.cancel, h.held, fun k hk => ?_, h.sweep, h.load⟩, h.length, h.few, h.numbers, h.window,
      h.sends, h.once, h.steps⟩
    · rcases h.one k with ⟨e, m, _⟩ | ⟨e, m⟩
      · rw [e, if_pos m]
      · rw [e, if_neg fun x => m x]
    · rcases h.one k with ⟨_, _, d⟩ | ⟨_, m⟩
      · exact d
      · exact (m hk).elim
  · rintro ⟨⟨h1, h2, h3, h4, h5, h6, h7⟩, h8, h9, h10, h11, h12, h13, h14⟩
    refine ⟨fun k => ?_, h2, h3, h4, h6, h7, h8, h9, h10, h11, h12, h13, h14⟩
    by_cases m : markAt k s = some .absentPending
    · exact .inl ⟨by rw [h1 k, if_pos m], m, h5 k m⟩
    · exact .inr ⟨by rw [h1 k, if_neg m], fun x => m x⟩

/-- What the relations look at. -/
def noticePart (s : State) :=
  (s.roll.roster, s.notices.queue, s.notices.window, s.day.state, s.sweep.state, s.store)

theorem markAt_congr {s t : State} (h : t.roll.roster = s.roll.roster) (k : Slot) : markAt k t = markAt k s := by
  unfold markAt; rw [pupilAt_congr h]

theorem rollLoad_congr {s t : State} (h : t.store = s.store) : rollLoadUnderWay t = rollLoadUnderWay s := by
  unfold rollLoadUnderWay; rw [h]

theorem Owing.mono {D E : Slot → Prop} {s : State} (h : Owing D s) (hd : ∀ k, markAt k s = some .absentPending → D k → E k) :
    Owing E s :=
  { h with one := fun k => (h.one k).imp_right fun x => ⟨x.1, fun m => hd k m (x.2 m)⟩ }

theorem Owing.congr {D : Slot → Prop} {s t : State} (h : Owing D s) (e : noticePart t = noticePart s) : Owing D t := by
  simp only [noticePart, Prod.mk.injEq] at e
  obtain ⟨e1, e2, e3, e4, e5, e6⟩ := e
  refine ⟨fun k => ?_, ?_, ?_, fun k p hp => ?_, ?_, ?_, ?_, ?_, ?_, ?_, ?_, ?_, ?_⟩
  · rw [e2, markAt_congr e1, e4]; exact h.one k
  · rw [e2]; exact h.addressed
  · rw [e2]; exact h.cancel
  · rw [pupilAt_congr e1] at hp; exact h.held k p hp
  · rw [e5, e4]; exact h.sweep
  · rw [rollLoad_congr e6, e4]; exact h.load
  · rw [e2]; exact h.length
  · rw [e2]; exact h.few
  · rw [e2]; exact h.numbers
  · rw [e3]; exact h.window
  · rw [e2, e3]; exact h.sends
  · rw [e2, e3]; exact h.once
  · rw [e2, e3]; exact h.steps

/-- No ABSENT notice without cancel-on-result is addressed to a pupil of another mark. -/
theorem Owing.none {D : Slot → Prop} {s : State} (h : Owing D s) {k : Slot} (hm : markAt k s ≠ some .absentPending) :
    s.notices.queue.countP (·.isAbsentOf k) = 0 := ((h.one k).resolve_left fun y => hm y.2.1).1

theorem markAt_eq {k : Slot} {s : State} {p : Pupil} (h : pupilAt k s = some p) : markAt k s = some p.day.mark := by
  unfold markAt; rw [h]; rfl

/-! ### Marks -/

/-- A change of a day part that sets neither ABSENT_PENDING nor a held mark of it. -/
def SafeDay (d e : DayPart) : Prop :=
  (e.mark = .absentPending → d.mark = .absentPending) ∧
    (d.heldMark ≠ some .absentPending → e.heldMark ≠ some .absentPending)

theorem markAt_put_self (k : Slot) (p : Pupil) (s : State) : markAt k (putPupil k p s) = some p.day.mark := by
  unfold markAt; rw [pupilAt_put_self]; rfl

theorem markAt_put_ne {j k : Slot} (h : j ≠ k) (p : Pupil) (s : State) : markAt j (putPupil k p s) = markAt j s := by
  unfold markAt; rw [pupilAt_put_ne h]

/-- A record written whose mark is another than ABSENT_PENDING, or was ABSENT_PENDING before. -/
theorem Owing.put {D : Slot → Prop} {s : State} (h : Owing D s) {k : Slot} {p : Pupil}
    (hm : p.day.mark = .absentPending → markAt k s = some .absentPending)
    (hn : p.day.mark ≠ .absentPending → s.notices.queue.countP (·.isAbsentOf k) = 0)
    (hh : p.day.heldMark ≠ some .absentPending) : Owing D (putPupil k p s) :=
  { h with
    one := fun j => by
      by_cases hj : j = k
      · subst hj
        by_cases e : p.day.mark = .absentPending
        · rw [markAt_put_self, e]; have := h.one j; rw [hm e] at this; exact this
        · exact .inr ⟨hn e, fun x => absurd (by rw [markAt_put_self] at x; exact Option.some.inj x) e⟩
      · rw [markAt_put_ne hj]; exact h.one j
    held := fun j q hq => by
      by_cases hj : j = k
      · subst hj; rw [pupilAt_put_self] at hq; cases hq; exact hh
      · rw [pupilAt_put_ne hj] at hq; exact h.held j q hq }

/-! ### The queue -/

/-- A form that a notice may take: its number, its kind and its addressee stay, and cancel-on-result stays set and is set on a pupil notice
only IN_WINDOW. -/
structure Follows (n m : Notice) : Prop where
  number : m.number = n.number
  kind : m.kind = n.kind
  toSlot : ∀ k, m.isTo k = n.isTo k
  cancel : n.cancel = true → m.cancel = true
  flag : (∀ k i, n.addressee = .pupil k i → n.cancel = true → n.inWindow = true) →
    ∀ k i, m.addressee = .pupil k i → m.cancel = true → m.inWindow = true

/-- No returned step is added. -/
def NoMore (n m : Notice) : Prop :=
  ∀ c, m.addressee = .broadcast c → ∃ b, n.addressee = .broadcast b ∧ c.returned.length ≤ b.returned.length

theorem Follows.refl (n : Notice) : Follows n n := ⟨rfl, rfl, fun _ => rfl, id, id⟩

theorem NoMore.of_eq {n m : Notice} (h : m.addressee = n.addressee) : NoMore n m := fun c hc => ⟨c, h ▸ hc, Nat.le_refl _⟩

theorem NoMore.refl (n : Notice) : NoMore n n := .of_eq rfl

theorem isTo_iff {n : Notice} {k : Slot} : n.isTo k = true ↔ ∃ i, n.addressee = .pupil k i := by
  unfold Notice.isTo
  cases n.addressee <;> simp

theorem isPupil_iff {n : Notice} : n.isPupil = true ↔ ∃ k i, n.addressee = .pupil k i := by
  unfold Notice.isPupil
  cases n.addressee <;> simp

theorem isPupil_of_isTo {n m : Notice} (h : ∀ k, m.isTo k = n.isTo k) (hm : m.isPupil = true) : n.isPupil = true := by
  obtain ⟨k, i, e⟩ := isPupil_iff.1 hm
  obtain ⟨j, hj⟩ := isTo_iff.1 ((h k).symm.trans (isTo_iff.2 ⟨i, e⟩))
  exact isPupil_iff.2 ⟨k, j, hj⟩

theorem addresses_iff {k : NoticeKind} {x : Addressee} :
    Addresses k x ↔ match x with
      | .pupil _ _ => k ≠ .closure
      | .broadcast _ => k = .general ∨ k = .closure := by
  cases k <;> cases x <;> simp [Addresses]

/-- A notice of one of the day's kinds is addressed to a pupil. -/
theorem Addresses.toPupil {n : Notice} (h : Addresses n.kind n.addressee) (hk : n.kind ≠ .general) (hc : n.kind ≠ .closure) :
    ∃ k i, n.addressee = .pupil k i := by
  rw [addresses_iff] at h
  cases e : n.addressee with
  | pupil k i => exact ⟨k, i, rfl⟩
  | broadcast b => rw [e] at h; exact absurd h (by simp [hk, hc])

theorem Addresses.of_isTo {n m : Notice} (h : Addresses n.kind n.addressee) (hk : m.kind = n.kind) (ht : ∀ k, m.isTo k = n.isTo k) :
    Addresses m.kind m.addressee := by
  rw [addresses_iff] at h ⊢
  rw [hk]
  cases e : m.addressee with
  | pupil k i =>
    obtain ⟨j, l, e'⟩ := isPupil_iff.1 (isPupil_of_isTo ht (isPupil_iff.2 ⟨k, i, e⟩))
    rw [e'] at h; exact h
  | broadcast b =>
    cases e' : n.addressee with
    | pupil k i =>
      obtain ⟨j, l⟩ := isTo_iff.1 ((ht k).trans (isTo_iff.2 ⟨i, e'⟩))
      rw [e] at l; cases l
    | broadcast c => rw [e'] at h; exact h

/-- No send of the number stands in the window. -/
def Unsent (number : Nat) (s : State) : Prop := ∀ x ∈ s.notices.window, x.key.number ≠ number

theorem Notice.Sends.congr {n m : Notice} {x : Send} (h : n.Sends x) (e1 : m.number = n.number)
    (e2 : ∀ k i, m.addressee = .pupil k i → n.addressee = .pupil k i ∧ (n.inWindow = true → m.inWindow = true)) : m.Sends x :=
  ⟨e1.trans h.1, fun k i hi => by
    obtain ⟨a, b⟩ := e2 k i hi
    obtain ⟨c, d⟩ := h.2 k i a
    exact ⟨b c, d⟩⟩

theorem isAbsentOf_iff {n : Notice} {k : Slot} :
    n.isAbsentOf k = true ↔ n.kind = .absent ∧ n.isTo k = true ∧ n.cancel = false := by
  simp [Notice.isAbsentOf, and_assoc]

theorem Follows.absentOf {n m : Notice} (f : Follows n m) {k : Slot} (h : m.isAbsentOf k = true) : n.isAbsentOf k = true := by
  rw [isAbsentOf_iff] at h ⊢
  refine ⟨f.kind ▸ h.1, f.toSlot k ▸ h.2.1, ?_⟩
  cases e : n.cancel
  · rfl
  · rw [f.cancel e] at h; simp at h

theorem countP_filterMap_le {q : List Notice} {g : Notice → Option Notice} (hg : ∀ n ∈ q, ∀ m, g n = some m → Follows n m) (k : Slot) :
    (q.filterMap g).countP (·.isAbsentOf k) ≤ q.countP (·.isAbsentOf k) := by
  induction q with
  | nil => simp
  | cons n t ih =>
    have ih := ih fun x hx => hg x (List.mem_cons_of_mem _ hx)
    rw [List.countP_cons]
    cases e : g n with
    | none => rw [List.filterMap_cons_none e]; omega
    | some m =>
      rw [List.filterMap_cons_some e, List.countP_cons]
      by_cases hm : m.isAbsentOf k = true
      · rw [if_pos hm, if_pos ((hg n List.mem_cons_self m e).absentOf hm)]; omega
      · rw [if_neg hm]; omega

/-- An ABSENT notice of the slot is in the queue and not in what the change leaves. -/
def Loses (g : Notice → Option Notice) (q : List Notice) (k : Slot) : Prop :=
  ∃ n ∈ q, n.isAbsentOf k = true ∧ ∀ m, g n = some m → m.isAbsentOf k = false

theorem countP_filterMap_eq {q : List Notice} {g : Notice → Option Notice} (hg : ∀ n ∈ q, ∀ m, g n = some m → Follows n m) {k : Slot}
    (hl : ¬Loses g q k) : (q.filterMap g).countP (·.isAbsentOf k) = q.countP (·.isAbsentOf k) := by
  induction q with
  | nil => simp
  | cons n t ih =>
    have ih := ih (fun x hx => hg x (List.mem_cons_of_mem _ hx)) fun ⟨x, hx, h⟩ => hl ⟨x, List.mem_cons_of_mem _ hx, h⟩
    have hn : ¬(n.isAbsentOf k = true ∧ ∀ m, g n = some m → m.isAbsentOf k = false) :=
      fun h => hl ⟨n, List.mem_cons_self, h⟩
    rw [List.countP_cons]
    cases e : g n with
    | none =>
      rw [List.filterMap_cons_none e, ih]
      simp only [e, reduceCtorEq, false_implies, implies_true, and_true] at hn
      rw [if_neg hn]; omega
    | some m =>
      rw [List.filterMap_cons_some e, List.countP_cons, ih]
      by_cases hm : m.isAbsentOf k = true
      · rw [if_pos hm, if_pos ((hg n List.mem_cons_self m e).absentOf hm)]
      · have : ¬n.isAbsentOf k = true := fun h => hn ⟨h, fun m' h' => by
          rw [e] at h'; cases h'; exact Bool.eq_false_iff.2 hm⟩
        rw [if_neg hm, if_neg this]

theorem few_filterMap {q : List Notice} {g : Notice → Option Notice} (hg : ∀ n ∈ q, ∀ m, g n = some m → Follows n m) :
    (q.filterMap g).countP (·.kind = .absent) ≤ q.countP (·.kind = .absent) := by
  induction q with
  | nil => simp
  | cons n t ih =>
    have ih := ih fun x hx => hg x (List.mem_cons_of_mem _ hx)
    rw [List.countP_cons]
    cases e : g n with
    | none => rw [List.filterMap_cons_none e]; omega
    | some m => rw [List.filterMap_cons_some e, List.countP_cons, (hg n List.mem_cons_self m e).kind]; omega

theorem numbers_filterMap {q : List Notice} {g : Notice → Option Notice} (hg : ∀ n ∈ q, ∀ m, g n = some m → Follows n m) :
    ((q.filterMap g).map (·.number)).Sublist (q.map (·.number)) := by
  induction q with
  | nil => simp
  | cons n t ih =>
    have ih := ih fun x hx => hg x (List.mem_cons_of_mem _ hx)
    cases e : g n with
    | none => rw [List.filterMap_cons_none e, List.map_cons]; exact ih.cons _
    | some m =>
      rw [List.filterMap_cons_some e, List.map_cons, List.map_cons, (hg n List.mem_cons_self m e).number]
      exact ih.cons_cons _

/-- A change of the queue in which every notice goes or takes a form that follows it: the slots whose ABSENT notice went owe their
mark. -/
theorem Owing.queue {D : Slot → Prop} {s t : State} (h : Owing D s) (g : Notice → Option Notice)
    (hq : t.notices.queue = s.notices.queue.filterMap g) (hg : ∀ n ∈ s.notices.queue, ∀ m, g n = some m → Follows n m)
    (hs : ∀ n ∈ s.notices.queue, ∀ m, g n = some m → ∀ b, m.addressee = .broadcast b →
      b.returned.length + s.notices.window.countP (·.key.number = n.number) ≤ 4)
    (hw : ∀ n ∈ s.notices.queue, ∀ x ∈ s.notices.window, n.Sends x → ∃ m, g n = some m ∧ m.Sends x)
    (e1 : t.roll.roster = s.roll.roster) (e3 : t.notices.window = s.notices.window) (e4 : t.day.state = s.day.state)
    (e5 : t.sweep.state ≠ .idle → s.sweep.state ≠ .idle) (e6 : t.store = s.store) :
    Owing (fun k => D k ∨ Loses g s.notices.queue k) t where
  one k := by
    rw [hq, markAt_congr e1, e4]
    by_cases hl : Loses g s.notices.queue k
    · obtain ⟨n, hn, h1, h2⟩ := hl
      have hle := countP_filterMap_le hg k
      rcases h.one k with ⟨c, m, d⟩ | ⟨c, m⟩
      · refine .inr ⟨?_, fun _ => .inr ⟨n, hn, h1, h2⟩⟩
        obtain ⟨l1, l2, hl⟩ := List.mem_iff_append.1 hn
        rw [hl, List.countP_append, List.countP_cons, if_pos h1] at c
        have c1 : l1.countP (·.isAbsentOf k) = 0 := by omega
        have c2 : l2.countP (·.isAbsentOf k) = 0 := by omega
        have z1 := countP_filterMap_le (q := l1) (fun x hx => hg x (hl ▸ List.mem_append_left _ hx)) k
        have z2 := countP_filterMap_le (q := l2) (fun x hx => hg x (hl ▸ List.mem_append_right _ (List.mem_cons_of_mem _ hx))) k
        rw [hl, List.filterMap_append, List.countP_append]
        cases e : g n with
        | none => rw [List.filterMap_cons_none e]; omega
        | some x => rw [List.filterMap_cons_some e, List.countP_cons, h2 x e, if_neg Bool.false_ne_true]; omega
      · exact .inr ⟨Nat.le_zero.1 (c ▸ hle), fun x => .inl (m x)⟩
    · rw [countP_filterMap_eq hg hl]
      exact (h.one k).imp_right fun x => ⟨x.1, fun m => .inl (x.2 m)⟩
  addressed m hm := by
    rw [hq] at hm
    obtain ⟨n, hn, e⟩ := List.mem_filterMap.1 hm
    exact (h.addressed n hn).of_isTo (hg n hn m e).kind (hg n hn m e).toSlot
  cancel m hm := by
    rw [hq] at hm
    obtain ⟨n, hn, e⟩ := List.mem_filterMap.1 hm
    exact (hg n hn m e).flag (h.cancel n hn)
  held k p hp := h.held k p (pupilAt_congr e1 k ▸ hp)
  sweep x := e4 ▸ h.sweep (e5 x)
  load x := e4 ▸ h.load (rollLoad_congr e6 ▸ x)
  length := by
    rw [hq]; exact Nat.le_trans (List.length_filterMap_le _ _) h.length
  few := by
    rw [hq]; exact Nat.le_trans (few_filterMap hg) h.few
  sends x hx := by
    rw [e3] at hx
    obtain ⟨n, hn, e⟩ := h.sends x hx
    obtain ⟨m, hm, e'⟩ := hw n hn x hx e
    exact ⟨m, hq ▸ List.mem_filterMap.2 ⟨n, hn, hm⟩, e'⟩
  once m hm hp := by
    rw [hq] at hm
    obtain ⟨n, hn, e⟩ := List.mem_filterMap.1 hm
    rw [e3, (hg n hn m e).number]
    exact h.once n hn (isPupil_of_isTo (hg n hn m e).toSlot hp)
  numbers := by
    rw [hq]; exact (numbers_filterMap hg).nodup h.numbers
  window := e3 ▸ h.window
  steps m hm b hb := by
    rw [hq] at hm
    obtain ⟨n, hn, e⟩ := List.mem_filterMap.1 hm
    rw [e3, (hg n hn m e).number]
    exact hs n hn m e b hb

theorem Owing.noMore {D : Slot → Prop} {s : State} (h : Owing D s) {n m : Notice} (hn : n ∈ s.notices.queue) (e : NoMore n m)
    (b : BroadcastState) (hb : m.addressee = .broadcast b) :
    b.returned.length + s.notices.window.countP (·.key.number = n.number) ≤ 4 := by
  obtain ⟨c, hc, hl⟩ := e b hb
  have := h.steps n hn c hc
  omega

theorem sweepResume_idle {s : State} (h : (sweepResume s).sweep.state ≠ .idle) : s.sweep.state ≠ .idle := by
  unfold sweepResume at h
  split at h
  · rename_i e; rw [e]; simp
  · exact h

theorem setQueue_idle {q : List Notice} {s : State} (h : (setQueue q s).sweep.state ≠ .idle) : s.sweep.state ≠ .idle := by
  unfold setQueue at h
  dsimp only at h
  split at h
  · exact fun e => sweepResume_idle h e
  · exact h

theorem setQueue_parts (q : List Notice) (s : State) :
    (setQueue q s).notices.queue = q ∧ (setQueue q s).notices.window = s.notices.window ∧ (setQueue q s).roll = s.roll ∧
      (setQueue q s).day = s.day ∧ (setQueue q s).store = s.store := by
  unfold setQueue sweepResume
  dsimp only
  repeat' split
  all_goals exact ⟨rfl, rfl, rfl, rfl, rfl⟩

theorem withdrawWhere_queue (p : Notice → Bool) (s : State) :
    (withdrawWhere p s).notices.queue = s.notices.queue.filterMap fun n =>
      if p n then (if n.inWindow then some { n with cancel := true } else none) else some n := (setQueue_parts _ s).1

theorem Owing.setQueue {D : Slot → Prop} {s : State} (h : Owing D s) (g : Notice → Option Notice)
    (hg : ∀ n ∈ s.notices.queue, ∀ m, g n = some m → Follows n m ∧ NoMore n m)
    (hw : ∀ n ∈ s.notices.queue, ∀ x ∈ s.notices.window, n.Sends x → ∃ m, g n = some m ∧ m.Sends x) :
    Owing (fun k => D k ∨ Loses g s.notices.queue k) (setQueue (s.notices.queue.filterMap g) s) := by
  obtain ⟨p1, p2, p3, p4, p5⟩ := setQueue_parts (s.notices.queue.filterMap g) s
  exact h.queue g p1 (fun n hn m e => (hg n hn m e).1) (fun n hn m e => h.noMore hn (hg n hn m e).2) hw (by rw [p3]) p2 (by rw [p4])
    setQueue_idle p5

theorem filterMap_filter (q : List Notice) (p : Notice → Bool) :
    q.filter p = q.filterMap fun n => if p n then some n else none := by
  induction q with
  | nil => rfl
  | cons n t ih => by_cases h : p n = true <;> simp [h, ih]

/-- A queue filtered: the ABSENT notices that went leave their slots owing. -/
theorem Owing.filter {D : Slot → Prop} {s : State} (h : Owing D s) (p : Notice → Bool)
    (hw : ∀ n ∈ s.notices.queue, ∀ x ∈ s.notices.window, n.Sends x → p n = true) :
    Owing (fun k => D k ∨ ∃ n ∈ s.notices.queue, n.isAbsentOf k = true ∧ p n = false)
      (Machine.setQueue (s.notices.queue.filter p) s) := by
  rw [filterMap_filter]
  refine (h.setQueue _ (fun n _ m e => ?_) fun n hn x hx e => ⟨n, if_pos (hw n hn x hx e), e⟩).mono fun k _ x => x.imp_right ?_
  · split at e
    · cases e; exact ⟨.refl n, .refl n⟩
    · cases e
  · rintro ⟨n, hn, h1, h2⟩
    refine ⟨n, hn, h1, ?_⟩
    cases e : p n
    · rfl
    · have := h2 n (by simp [e]); rw [h1] at this; exact this

theorem Owing.removeNotice {D : Slot → Prop} {s : State} (h : Owing D s) (number : Nat) (hu : Unsent number s) :
    Owing (fun k => D k ∨ ∃ n ∈ s.notices.queue, n.isAbsentOf k = true ∧ n.number = number) (removeNotice number s) :=
  (h.filter _ fun _ _ x hx e => by simpa [e.1] using hu x hx).mono fun k _ x => x.imp_right fun ⟨n, hn, h1, h2⟩ => ⟨n, hn, h1, by simpa using h2⟩

theorem Owing.withdrawWhere {D : Slot → Prop} {s : State} (h : Owing D s) (p : Notice → Bool)
    (hp : ∀ n ∈ s.notices.queue, p n = true → n.isPupil = true) :
    Owing (fun k => D k ∨ ∃ n ∈ s.notices.queue, n.isAbsentOf k = true ∧ p n = true) (withdrawWhere p s) := by
  refine (h.setQueue _ (fun n _ m e => ?_) fun n hn x _ e => ?_).mono fun k _ x => x.imp_right ?_
  · split at e
    · split at e
      · rename_i hw
        cases e
        exact ⟨⟨rfl, rfl, fun _ => rfl, fun _ => rfl, fun _ _ _ _ _ => hw⟩, .of_eq rfl⟩
      · cases e
    · cases e; exact ⟨.refl n, .refl n⟩
  · by_cases c : p n = true
    · obtain ⟨k, i, hi⟩ := isPupil_iff.1 (hp n hn c)
      rw [if_pos c, if_pos (e.2 k i hi).1]
      exact ⟨_, rfl, e⟩
    · rw [if_neg c]; exact ⟨n, rfl, e⟩
  · rintro ⟨n, hn, h1, h2⟩
    refine ⟨n, hn, h1, ?_⟩
    cases e : p n
    · have := h2 n (by simp [e]); rw [h1] at this; simp at this
    · rfl

theorem Owing.withdrawAbsent {D : Slot → Prop} {s : State} (h : Owing D s) (k : Slot) :
    Owing (fun j => D j ∨ j = k) (Machine.withdrawWhere (·.isAbsentOf k) s) := by
  refine (h.withdrawWhere _ fun n _ e => ?_).mono fun j _ x => x.imp_right ?_
  · obtain ⟨i, hi⟩ := isTo_iff.1 (isAbsentOf_iff.1 e).2.1
    exact isPupil_iff.2 ⟨_, _, hi⟩
  rintro ⟨n, _, h1, h2⟩
  obtain ⟨i, hi⟩ := isTo_iff.1 (isAbsentOf_iff.1 h1).2.1
  obtain ⟨l, hl⟩ := isTo_iff.1 (isAbsentOf_iff.1 h2).2.1
  rw [hi] at hl; cases hl; rfl

/-- A queue whose notices change their form under the same number, kind, addressee and cancel-on-result. -/
theorem Owing.mapQueue {D : Slot → Prop} {s t : State} (h : Owing D s) (g : Notice → Notice)
    (hq : t.notices.queue = s.notices.queue.map g) (hg : ∀ n ∈ s.notices.queue, Follows n (g n))
    (hc : ∀ n ∈ s.notices.queue, n.kind = .absent → (g n).cancel = n.cancel)
    (hs : ∀ n ∈ s.notices.queue, ∀ b, (g n).addressee = .broadcast b →
      b.returned.length + s.notices.window.countP (·.key.number = n.number) ≤ 4)
    (hw : ∀ n ∈ s.notices.queue, ∀ x ∈ s.notices.window, n.Sends x → (g n).Sends x)
    (e1 : t.roll.roster = s.roll.roster) (e3 : t.notices.window = s.notices.window) (e4 : t.day.state = s.day.state)
    (e5 : t.sweep.state = s.sweep.state) (e6 : t.store = s.store) : Owing D t := by
  refine (h.queue (fun n => some (g n)) (by rw [hq, List.filterMap_eq_map']) (fun n hn m e => ?_) (fun n hn m e => ?_)
    (fun n hn x hx e => ⟨_, rfl, hw n hn x hx e⟩) e1 e3 e4 (by rw [e5]; exact id) e6).mono fun k _ x => ?_
  · cases e; exact hg n hn
  · cases e; exact hs n hn
  · refine x.resolve_right fun ⟨n, hn, h1, h2⟩ => ?_
    have := h2 _ rfl
    obtain ⟨a, b, c⟩ := isAbsentOf_iff.1 h1
    rw [isAbsentOf_iff.2 ⟨(hg n hn).kind.trans a, ((hg n hn).toSlot k).trans b, (hc n hn a).trans c⟩] at this
    simp at this

/-! ### A claim -/

theorem claim_owing {D : Slot → Prop} {s : State} {k : Slot} {f : DayPart → DayPart} (h : Owing D s)
    (hf : ∀ p, pupilAt k s = some p → SafeDay p.day (f p.day)) :
    Owing (fun j => D j ∧ markAt j (claim k f s) = some .absentPending) (claim k f s) := by
  have main : Owing D (claim k f s) := by
    unfold claim
    cases hp : pupilAt k s with
    | none => exact h
    | some p =>
      obtain ⟨s1, s2⟩ := hf p hp
      have mk : markAt k s = some p.day.mark := by unfold markAt; rw [hp]; rfl
      dsimp only
      split
      · rename_i e
        have w := h.withdrawAbsent k
        have c0 : (Machine.withdrawWhere (·.isAbsentOf k) s).notices.queue.countP (·.isAbsentOf k) = 0 := by
          rw [show (Machine.withdrawWhere (·.isAbsentOf k) s).notices.queue = _ from (setQueue_parts _ s).1]
          rw [List.countP_eq_zero]
          intro m hm
          obtain ⟨n, _, e⟩ := List.mem_filterMap.1 hm
          split at e
          · split at e
            · cases e; simp [Notice.isAbsentOf]
            · cases e
          · rename_i hn; cases e; exact hn
        have q := w.put (k := k) (p := { p with day := f p.day }) (fun x => absurd x e.2) (fun _ => c0) (s2 (h.held k p hp))
        have same : noticePart (Machine.withdrawWhere (·.isAbsentOf k) (putPupil k { p with day := f p.day } s)) =
            noticePart (putPupil k { p with day := f p.day } (Machine.withdrawWhere (·.isAbsentOf k) s)) := by
          unfold noticePart Machine.withdrawWhere Machine.setQueue sweepResume putPupil
          dsimp only
          split
          · split <;> rfl
          · rfl
        refine (q.congr same).mono fun j m x => x.resolve_right fun e' => ?_
        subst e'
        rw [markAt_congr (t := Machine.withdrawWhere _ _) (s := putPupil j { p with day := f p.day } s)
          (by rw [show (Machine.withdrawWhere _ _).roll = _ from (setQueue_parts _ _).2.2.1]), markAt_put_self] at m
        exact e.2 (Option.some.inj m)
      · rename_i e
        refine h.put (fun x => by rw [mk, s1 x]) (fun x => ?_) (s2 (h.held k p hp))
        rcases h.one k with ⟨_, m, _⟩ | c
        · rw [mk] at m
          exact absurd ⟨Option.some.inj m, x⟩ e
        · exact c.1
  exact main.mono fun j m d => ⟨d, m⟩

/-! ### A notice added -/

theorem nextFree_spec (used : List Nat) (fuel n : Nat) :
    nextFree used fuel n ∉ used ∨ ∀ j ≤ fuel, (n + j) % 65535 + 1 ∈ used ∨ 65535 < n := by
  induction fuel generalizing n with
  | zero =>
    by_cases h : nextFree used 0 n ∈ used
    · refine .inr fun j hj => ?_
      have : j = 0 := by omega
      subst this
      by_cases hn : 65535 < n
      · exact .inr hn
      · refine .inl ?_
        simp only [nextFree, stepNumber] at h
        by_cases e : n < 65535
        · rw [if_pos e] at h; rw [show n + 0 = n from rfl, Nat.mod_eq_of_lt e]; exact h
        · have : n = 65535 := by omega
          subst this; simpa using h
    · exact .inl h
  | succ f ih =>
    simp only [nextFree]
    by_cases c : used.contains (stepNumber n) = true
    · rw [if_pos c]
      have c' : stepNumber n ∈ used := by simpa using c
      rcases ih (stepNumber n) with h | h
      · exact .inl h
      · refine .inr fun j hj => ?_
        by_cases hn : 65535 < n
        · exact .inr hn
        · refine .inl ?_
          have hs : stepNumber n ≤ 65535 := by unfold stepNumber; split <;> omega
          have e (i : Nat) : (n + (i + 1)) % 65535 = (stepNumber n + i) % 65535 := by
            unfold stepNumber; split <;> omega
          cases j with
          | zero =>
            have : (n + 0) % 65535 + 1 = stepNumber n := by unfold stepNumber; split <;> omega
            rw [this]; exact c'
          | succ i =>
            rw [e i]
            exact (h i (by omega)).resolve_right (by omega)
    · rw [if_neg c]; exact .inl (by simpa using c)

theorem nextFree_fresh {used : List Nat} {n : Nat} (hl : used.length < 65535) : nextFree used used.length n ∉ used := by
  rcases nextFree_spec used used.length n with h | h
  · exact h
  · intro hin
    by_cases hn : 65535 < n
    · -- the first number tried is 1, and the search goes on from there
      cases hu : used.length with
      | zero => rw [List.length_eq_zero_iff.1 hu] at hin; simp at hin
      | succ f =>
        have e : stepNumber n = 1 := by unfold stepNumber; rw [if_neg (by omega)]
        rw [hu] at hin
        simp only [nextFree] at hin
        split at hin
        · rename_i c
          rw [e] at hin c
          rcases nextFree_spec used f 1 with x | x
          · exact x hin
          · have all : ∀ y ∈ (List.range (f + 2)).map (· + 1), y ∈ used := by
              intro y hy
              obtain ⟨i, hi, rfl⟩ := List.mem_map.1 hy
              have hi := List.mem_range.1 hi
              cases i with
              | zero => simpa using c
              | succ i =>
                have := (x i (by omega)).resolve_right (by omega)
                rwa [Nat.mod_eq_of_lt (by omega), Nat.add_comm 1 i] at this
            have nd : ((List.range (f + 2)).map (· + 1)).Nodup :=
              List.nodup_range.map fun a b (h : a + 1 = b + 1) => by omega
            have := (List.subperm_of_subset nd all).length_le
            simp at this; omega
        · rename_i c; rw [e] at hin c; exact c (by simpa using hin)
    · have all : ∀ y ∈ (List.range (used.length + 1)).map (fun j => (n + j) % 65535 + 1), y ∈ used := by
        intro y hy
        obtain ⟨j, hj, rfl⟩ := List.mem_map.1 hy
        exact (h j (by have := List.mem_range.1 hj; omega)).resolve_right hn
      have nd : ((List.range (used.length + 1)).map fun j => (n + j) % 65535 + 1).Nodup := by
        refine List.Nodup.map_on (fun a ha b hb h => ?_) List.nodup_range
        have ha := List.mem_range.1 ha
        have hb := List.mem_range.1 hb
        omega
      have := (List.subperm_of_subset nd all).length_le
      simp at this

theorem nextNoticeNumber_fresh {s : State} (h : s.notices.queue.length ≤ 128) :
    nextNoticeNumber s ∉ s.notices.queue.map (·.number) := by
  unfold nextNoticeNumber
  have := nextFree_fresh (used := s.notices.queue.map (·.number)) (n := s.notices.counter) (by rw [List.length_map]; omega)
  rwa [List.length_map] at this

theorem addNotice_numbers {D : Slot → Prop} {s : State} (h : Owing D s) (kind : NoticeKind) (to_ : Addressee) (c : Nat)
    (d : Option SchoolTime) (x : Option Nat) : ((addNotice kind to_ c d x s).notices.queue.map (·.number)).Nodup := by
  simp only [addNotice, List.map_append, List.map_cons, List.map_nil]
  refine List.nodup_append.2 ⟨h.numbers, by simp, fun a ha b hb => ?_⟩
  rw [List.mem_singleton.1 hb]
  exact fun e => nextNoticeNumber_fresh h.length (e ▸ ha)

theorem addNotice_sends {D : Slot → Prop} {s : State} (h : Owing D s) (kind : NoticeKind) (to_ : Addressee) (c : Nat)
    (d : Option SchoolTime) (x : Option Nat) : ∀ y ∈ s.notices.window, ∃ n ∈ (addNotice kind to_ c d x s).notices.queue, n.Sends y :=
  fun y hy => by
    obtain ⟨n, hn, e⟩ := h.sends y hy
    exact ⟨n, List.mem_append_left _ hn, e⟩

/-- A new notice has no send yet. -/
theorem addNotice_once {D : Slot → Prop} {s : State} (h : Owing D s) (kind : NoticeKind) (to_ : Addressee) (c : Nat)
    (d : Option SchoolTime) (x : Option Nat) : ∀ n ∈ (addNotice kind to_ c d x s).notices.queue, n.isPupil = true →
      s.notices.window.countP (·.key.number = n.number) ≤ 1 := fun n hn hp => by
  rcases List.mem_append.1 hn with hn | hn
  · exact h.once n hn hp
  · refine (Nat.le_of_eq (List.countP_eq_zero.2 fun y hy e => ?_)).trans (Nat.zero_le 1)
    obtain ⟨m, hm, e'⟩ := h.sends y hy
    rw [List.mem_singleton.1 hn] at e
    refine nextNoticeNumber_fresh h.length (List.mem_map.2 ⟨m, hm, ?_⟩)
    rw [e'.1]; simpa using e

/-- A notice added that is no ABSENT notice, to a queue with room. -/
theorem Owing.addNotice {D : Slot → Prop} {s : State} (h : Owing D s) {kind : NoticeKind} {to_ : Addressee} (c : Nat)
    (d : Option SchoolTime) (x : Option Nat) (hk : kind ≠ .absent) (hl : s.notices.queue.length < 128)
    (hb : ∀ b, to_ = .broadcast b → b.returned = []) (ha : Addresses kind to_) : Owing D (Machine.addNotice kind to_ c d x s) where
  one k := by
    have : ((Machine.addNotice kind to_ c d x s).notices.queue.countP (·.isAbsentOf k)) = s.notices.queue.countP (·.isAbsentOf k) := by
      simp [Machine.addNotice, List.countP_append, Notice.isAbsentOf, hk]
    rw [this]; exact h.one k
  addressed n hn := by
    rcases List.mem_append.1 hn with hn | hn
    · exact h.addressed n hn
    · rw [List.mem_singleton.1 hn]; exact ha
  cancel n hn k i hi hc := by
    rcases List.mem_append.1 hn with hn | hn
    · exact h.cancel n hn k i hi hc
    · rw [List.mem_singleton.1 hn] at hc; simp at hc
  held := h.held
  sweep := h.sweep
  load := h.load
  length := by simp only [Machine.addNotice, List.length_append, List.length_singleton]; omega
  few := by
    have := h.few
    simpa [Machine.addNotice, List.countP_append, hk] using this
  numbers := addNotice_numbers h kind to_ c d x
  window := h.window
  sends := addNotice_sends h kind to_ c d x
  once := addNotice_once h kind to_ c d x
  steps n hn b hb' := by
    have hw := h.window
    rcases List.mem_append.1 hn with hn | hn
    · exact h.steps n hn b hb'
    · rw [List.mem_singleton.1 hn] at hb' ⊢
      have := List.countP_le_length (p := fun x : Send => x.key.number = nextNoticeNumber s) (l := s.notices.window)
      rw [hb b hb']
      simp only [Machine.addNotice, List.length_nil]; omega

/-- An ABSENT notice added for a pupil whose record takes ABSENT_PENDING with it, on an OPEN day (R144). -/
theorem Owing.pend {D : Slot → Prop} {s : State} (h : Owing D s) {k : Slot} {p : Pupil} (i c : Nat) (d : Option SchoolTime)
    (x : Option Nat) (hm : markAt k s ≠ some .absentPending) (hf : s.notices.queue.countP (·.kind = .absent) < 120) (ho : s.day.state = .open_) (hl : s.notices.queue.length < 128)
    (hp : p.day.mark = .absentPending) (hh : p.day.heldMark ≠ some .absentPending) :
    Owing D (putPupil k p (Machine.addNotice .absent (.pupil k i) c d x s)) where
  one j := by
    have e : (putPupil k p (Machine.addNotice .absent (.pupil k i) c d x s)).notices.queue.countP (·.isAbsentOf j) =
        s.notices.queue.countP (·.isAbsentOf j) + if j = k then 1 else 0 := by
      by_cases hj : j = k <;>
        simp [Machine.addNotice, List.countP_append, Notice.isAbsentOf, Notice.isTo, hj, eq_comm (a := k)]
    rw [e]
    by_cases hj : j = k
    · subst hj
      rcases h.one j with y | y
      · exact absurd y.2.1 hm
      · refine .inl ⟨by rw [y.1, if_pos rfl], by rw [markAt_put_self, hp], ho⟩
    · rw [if_neg hj, Nat.add_zero, markAt_put_ne hj]; exact h.one j
  addressed n hn := by
    rcases List.mem_append.1 hn with hn | hn
    · exact h.addressed n hn
    · rw [List.mem_singleton.1 hn]; trivial
  cancel n hn k i hi hc := by
    rcases List.mem_append.1 hn with hn | hn
    · exact h.cancel n hn k i hi hc
    · rw [List.mem_singleton.1 hn] at hc; simp at hc
  held j q hq := by
    by_cases hj : j = k
    · subst hj; rw [pupilAt_put_self] at hq; cases hq; exact hh
    · rw [pupilAt_put_ne hj] at hq; exact h.held j q hq
  sweep := h.sweep
  load := h.load
  length := by
    show (s.notices.queue ++ [_]).length ≤ 128
    rw [List.length_append, List.length_singleton]; omega
  few := by
    show (s.notices.queue ++ [_]).countP _ ≤ 120
    rw [List.countP_append, List.countP_singleton]
    simpa using hf
  numbers := addNotice_numbers h .absent (.pupil k i) c d x
  window := h.window
  sends := addNotice_sends h .absent (.pupil k i) c d x
  once := addNotice_once h .absent (.pupil k i) c d x
  steps n hn b hb' := by
    rcases List.mem_append.1 hn with hn | hn
    · exact h.steps n hn b hb'
    · rw [List.mem_singleton.1 hn] at hb'; cases hb'

/-! ### The Send Window -/

theorem Owing.windowShrinks {D : Slot → Prop} {s t : State} (h : Owing D s) (e1 : t.roll.roster = s.roll.roster)
    (e2 : t.notices.queue = s.notices.queue) (hs : (t.notices.window.map (·.key)).Sublist (s.notices.window.map (·.key)))
    (e4 : t.day.state = s.day.state) (e5 : t.sweep.state = s.sweep.state) (e6 : t.store = s.store) : Owing D t := by
  have hc (n : Nat) : t.notices.window.countP (·.key.number = n) ≤ s.notices.window.countP (·.key.number = n) := by
    have := hs.countP_le (p := fun k => k.number = n)
    simpa only [List.countP_map, Function.comp_def] using this
  refine ⟨fun k => ?_, ?_, ?_, fun k p hp => ?_, ?_, ?_, ?_, ?_, ?_, ?_, fun x hx => ?_, fun n hn hp => ?_, fun n hn b hb => ?_⟩
  · rw [e2, markAt_congr e1, e4]; exact h.one k
  · rw [e2]; exact h.addressed
  · rw [e2]; exact h.cancel
  · rw [pupilAt_congr e1] at hp; exact h.held k p hp
  · rw [e5, e4]; exact h.sweep
  · rw [rollLoad_congr e6, e4]; exact h.load
  · rw [e2]; exact h.length
  · rw [e2]; exact h.few
  · rw [e2]; exact h.numbers
  · have := hs.length_le
    simp only [List.length_map] at this
    exact Nat.le_trans this h.window
  · obtain ⟨y, hy, e⟩ := List.mem_map.1 (hs.mem (List.mem_map_of_mem hx))
    obtain ⟨n, hn, h1, h2⟩ := h.sends y hy
    rw [e] at h1 h2
    exact ⟨n, e2 ▸ hn, h1, h2⟩
  · exact Nat.le_trans (hc n.number) (h.once n (e2 ▸ hn) hp)
  · rw [e2] at hn
    have h1 := h.steps n hn b hb
    have h2 := hc n.number
    omega

/-- The notice a send is issued for stands in the queue, IN_WINDOW for that slot and position and with no send yet where it is a pupil
notice. -/
def Issues (number : Nat) (k : Slot) (i : Nat) (s : State) : Prop :=
  ∃ m ∈ s.notices.queue, m.number = number ∧
    ∀ j l, m.addressee = .pupil j l → m.inWindow = true ∧ j = k ∧ l = i ∧ Unsent number s

theorem Owing.issueSend {D : Slot → Prop} {s : State} (h : Owing D s) (n : Notice) (k : Slot) (i : Nat) (p : Pupil) (c : Contact)
    (hw : s.notices.window.length < 4) (hi : Issues n.number k i s)
    (hb : ∀ m ∈ s.notices.queue, m.number = n.number → ∀ b, m.addressee = .broadcast b →
      b.returned.length + s.notices.window.countP (·.key.number = n.number) < 4) :
    Owing D (Machine.issueSend n k i p c s) :=
  { h with
    window := by simp only [Machine.issueSend, List.length_append, List.length_singleton]; omega
    sends := fun x hx => by
      rcases List.mem_append.1 hx with hx | hx
      · exact h.sends x hx
      · obtain ⟨m, hm, e, hp⟩ := hi
        rw [List.mem_singleton.1 hx]
        refine ⟨m, hm, e, fun j l ha => ?_⟩
        obtain ⟨a, b, c, _⟩ := hp j l ha
        exact ⟨a, b.symm, c.symm⟩
    once := fun m hm hp => by
      have h1 := h.once m hm hp
      simp only [Machine.issueSend, List.countP_append, List.countP_singleton]
      by_cases e : n.number = m.number
      · obtain ⟨y, hy, e', hu⟩ := hi
        rw [List.inj_on_of_nodup_map h.numbers hy hm (e'.trans e)] at hu
        obtain ⟨j, l, ha⟩ := isPupil_iff.1 hp
        have z : s.notices.window.countP (·.key.number = m.number) = 0 :=
          List.countP_eq_zero.2 fun x hx e'' => (hu j l ha).2.2.2 x hx (e ▸ by simpa using e'')
        rw [if_pos (by simpa using e), z]
      · rw [if_neg (by simpa using e)]; omega
    steps := fun m hm b hb' => by
      have h1 := h.steps m hm b hb'
      simp only [Machine.issueSend, List.countP_append, List.countP_singleton]
      by_cases e : n.number = m.number
      · have := hb m hm e.symm b hb'
        rw [e] at this
        rw [if_pos (by simpa using e)]; omega
      · rw [if_neg (by simpa using e)]; omega }

/-! ### The notices of one number -/

/-- Every notice of the number is of the kind and of the addressee of `n`, and as much IN_WINDOW. -/
def Named (n : Notice) (s : State) : Prop :=
  ∀ m ∈ s.notices.queue, m.number = n.number → m.kind = n.kind ∧ (∀ k, m.isTo k = n.isTo k) ∧ m.inWindow = n.inWindow

theorem Owing.unique {D : Slot → Prop} {s : State} (h : Owing D s) {n m : Notice} (hn : n ∈ s.notices.queue) (hm : m ∈ s.notices.queue)
    (e : m.number = n.number) : m = n := List.inj_on_of_nodup_map h.numbers hm hn e

theorem Owing.named {D : Slot → Prop} {s : State} (h : Owing D s) {n : Notice} (hn : n ∈ s.notices.queue) : Named n s := fun m hm e => by
  rw [h.unique hn hm e]; exact ⟨rfl, fun _ => rfl, rfl⟩

/-- A notice addressed to a pupil and WAITING has no send. -/
theorem Owing.unsent {D : Slot → Prop} {s : State} (h : Owing D s) {n : Notice} (hn : Named n s) (hp : n.isPupil = true)
    (hw : n.inWindow = false) : Unsent n.number s := fun x hx e => by
  obtain ⟨m, hm, e1, e2⟩ := h.sends x hx
  obtain ⟨_, ht, hi⟩ := hn m hm (e1.trans e)
  obtain ⟨k, i, ha⟩ := isPupil_iff.1 (isPupil_of_isTo (n := m) (fun k => (ht k).symm) hp)
  rw [hi, hw] at e2
  exact Bool.false_ne_true (e2 k i ha).1

/-- Every notice of `t` was one of `s`, of the same number, kind and addressee, and as much IN_WINDOW. -/
def QueueFrom (s t : State) : Prop :=
  ∀ m ∈ t.notices.queue, ∃ n ∈ s.notices.queue, m.number = n.number ∧ m.kind = n.kind ∧ (∀ k, m.isTo k = n.isTo k) ∧
    m.inWindow = n.inWindow

theorem QueueFrom.refl (s : State) : QueueFrom s s := fun m hm => ⟨m, hm, rfl, rfl, fun _ => rfl, rfl⟩

theorem QueueFrom.trans {s t u : State} (h : QueueFrom s t) (g : QueueFrom t u) : QueueFrom s u := fun m hm => by
  obtain ⟨n, hn, a, b, c, i⟩ := g m hm
  obtain ⟨x, hx, d, e, f, j⟩ := h n hn
  exact ⟨x, hx, a.trans d, b.trans e, fun k => (c k).trans (f k), i.trans j⟩

theorem QueueFrom.of_eq {s t : State} (e : t.notices.queue = s.notices.queue) : QueueFrom s t := fun m hm =>
  ⟨m, e ▸ hm, rfl, rfl, fun _ => rfl, rfl⟩

theorem QueueFrom.named {s t : State} (h : QueueFrom s t) {n : Notice} (hn : Named n s) : Named n t := fun m hm e => by
  obtain ⟨x, hx, a, b, c, i⟩ := h m hm
  obtain ⟨d, f, j⟩ := hn x hx (a.symm.trans e)
  exact ⟨b.trans d, fun k => (c k).trans (f k), i.trans j⟩

theorem setQueue_from {s : State} {q : List Notice}
    (hq : ∀ m ∈ q, ∃ n ∈ s.notices.queue, m.number = n.number ∧ m.kind = n.kind ∧ (∀ k, m.isTo k = n.isTo k) ∧
      m.inWindow = n.inWindow) :
    QueueFrom s (setQueue q s) := fun m hm => by
  rw [(setQueue_parts q s).1] at hm; exact hq m hm

theorem removeNotice_from (n : Nat) (s : State) : QueueFrom s (removeNotice n s) :=
  setQueue_from fun m hm => ⟨m, (List.mem_filter.1 hm).1, rfl, rfl, fun _ => rfl, rfl⟩

theorem withdrawWhere_from (p : Notice → Bool) (s : State) : QueueFrom s (withdrawWhere p s) :=
  setQueue_from fun m hm => by
    obtain ⟨n, hn, e⟩ := List.mem_filterMap.1 hm
    split at e
    · split at e
      · cases e; exact ⟨n, hn, rfl, rfl, fun _ => rfl, rfl⟩
      · cases e
    · cases e; exact ⟨_, hn, rfl, rfl, fun _ => rfl, rfl⟩

theorem claim_from (k : Slot) (f : DayPart → DayPart) (s : State) : QueueFrom s (claim k f s) := by
  unfold claim
  split
  · exact .refl s
  · dsimp only
    split
    · exact (QueueFrom.of_eq rfl).trans (withdrawWhere_from _ _)
    · exact .of_eq rfl

theorem updateNotice_from {n : Nat} {f : Notice → Notice} {s : State}
    (hf : ∀ m, (f m).number = m.number ∧ (f m).kind = m.kind ∧ (∀ k, (f m).isTo k = m.isTo k) ∧ (f m).inWindow = m.inWindow) :
    QueueFrom s (updateNotice n f s) := fun m hm => by
  obtain ⟨x, hx, e⟩ := List.mem_map.1 hm
  split at e
  · cases e; exact ⟨x, hx, hf x⟩
  · cases e; exact ⟨_, hx, rfl, rfl, fun _ => rfl, rfl⟩

theorem updateBroadcast_from (n : Nat) (f : BroadcastState → BroadcastState) (s : State) :
    QueueFrom s (updateBroadcast n f s) := updateNotice_from fun m => by
  cases e : m.addressee <;> simp [Notice.isTo, e]

theorem exhaust_from (n : Notice) (k : Slot) (s : State) : QueueFrom s (exhaust n k s) := by
  unfold exhaust makeUnreached
  dsimp only
  split
  · exact (removeNotice_from _ _).trans ((claim_from _ _ _).trans (.of_eq rfl))
  · exact (removeNotice_from _ _).trans (.of_eq rfl)

/-! ### Room in the Send Window -/

/-- The window has a free place, and a broadcast of the number may fill it. -/
def HasPlace (number : Nat) (s : State) : Prop :=
  s.notices.window.length < 4 ∧
    ∀ m ∈ s.notices.queue, m.number = number → ∀ b, m.addressee = .broadcast b →
      b.returned.length + s.notices.window.countP (·.key.number = number) < 4

theorem HasPlace.updateBroadcast {number n : Nat} {f : BroadcastState → BroadcastState} {s : State} (h : HasPlace number s)
    (hf : ∀ b, (f b).returned.length ≤ b.returned.length) : HasPlace number (updateBroadcast n f s) := by
  refine ⟨h.1, fun m hm e b hb => ?_⟩
  obtain ⟨x, hx, ex⟩ := List.mem_map.1 hm
  split at ex
  · dsimp only at ex
    cases hxa : x.addressee with
    | pupil k i =>
      rw [hxa] at ex; subst ex; rw [hxa] at hb; cases hb
    | broadcast c =>
      rw [hxa] at ex; subst ex
      cases hb
      have := h.2 x hx e c hxa
      exact Nat.lt_of_le_of_lt (Nat.add_le_add_right (hf c) _) this
  · subst ex; exact h.2 x hx e b hb

theorem dropSend_place {D : Slot → Prop} {key : SendKey} {s : State} {x : Send} (h : Owing D s) (hx : sendAt key s = some x) :
    HasPlace key.number (dropSend key s) := by
  have hm := List.mem_of_find?_eq_some hx
  have hk : x.key = key := by simpa using List.find?_some hx
  have lt (p : Send → Bool) (hp : p x = true) :
      (s.notices.window.filter (·.key ≠ key)).countP p < s.notices.window.countP p := by
    obtain ⟨l1, l2, hl⟩ := List.mem_iff_append.1 hm
    have e1 := (List.filter_sublist (p := fun y : Send => decide (y.key ≠ key)) (l := l1)).countP_le (p := p)
    have e2 := (List.filter_sublist (p := fun y : Send => decide (y.key ≠ key)) (l := l2)).countP_le (p := p)
    rw [hl, List.filter_append, List.filter_cons_of_neg (by simp [hk]), List.countP_append, List.countP_append, List.countP_cons,
      if_pos hp]
    omega
  have hw := h.window
  refine ⟨?_, fun m hm' e b hb => ?_⟩
  · have := lt (fun _ => true) rfl
    simp only [List.countP_true] at this
    exact Nat.lt_of_lt_of_le this hw
  · have h1 := h.steps m hm' b hb
    have h2 := lt (·.key.number = key.number) (by simp [hk])
    rw [e] at h1
    show b.returned.length + (s.notices.window.filter (·.key ≠ key)).countP (·.key.number = key.number) < 4
    omega

/-- A pupil notice of the number has no send in the window. -/
def Spent (number : Nat) (s : State) : Prop := ∀ n ∈ s.notices.queue, n.number = number → n.isPupil = true → Unsent n.number s

/-- A send dropped was the one send of a pupil notice. -/
theorem dropSend_spent {D : Slot → Prop} {key : SendKey} {s : State} {x : Send} (h : Owing D s) (hx : sendAt key s = some x) :
    Spent key.number (dropSend key s) := fun n hn e hp y hy ey => by
  have hm := List.mem_of_find?_eq_some hx
  have hk : x.key = key := by simpa using List.find?_some hx
  obtain ⟨hy, hne⟩ := List.mem_filter.1 hy
  obtain ⟨k, i, ha⟩ := isPupil_iff.1 hp
  have one (z : Send) (hz : z ∈ s.notices.window) (ez : z.key.number = n.number) : z.key.slot = k ∧ z.key.position = i := by
    obtain ⟨m, hm, e1, e2⟩ := h.sends z hz
    rw [h.unique hn hm (e1.trans ez)] at e2
    exact (e2 k i ha).2
  have a := one x hm (by rw [hk, e])
  have b := one y hy ey
  refine (by simpa using hne : y.key ≠ key) ?_
  rw [← hk]
  have c : y.key.number = x.key.number := by rw [ey, e, hk]
  cases hy' : y.key; cases hx' : x.key
  rw [hy'] at b c; rw [hx'] at a c
  simp only at a b c
  rw [a.1, a.2, b.1, b.2, c]

theorem dropSend_room {D : Slot → Prop} {key : SendKey} {s : State} {x : Send} (h : Owing D s) (hx : sendAt key s = some x) :
    HasPlace key.number (dropSend key s) ∧ Spent key.number (dropSend key s) := ⟨dropSend_place h hx, dropSend_spent h hx⟩

end Sys2Proof.Machine
end

