-- ==== Sys2Proof/Laws/Kept.lean ====
section
/-! SUPPORT. What every change of a block but the Office Port and the starts keeps: the queue of commands, the Office Port, the hold,
the Settings Store's own state, and the relations of the Attention Unit, the Roll Unit, the zones, and the marks with the Notice Queue.
The first part is the relation with the primitive updates. -/

namespace Sys2Proof.Machine

/-- `t` keeps what a change that is no output or start keeps of `s`, but for the marks of the slots of `D`, which their ABSENT notices
have left. -/
structure KeptOwing (D : Slot → Prop) (s t : State) : Prop where
  pending : t.pending = s.pending
  office : t.office = s.office
  power : t.power = s.power
  store : t.store = s.store
  attention : AttentionOk s → AttentionOk t
  roll : RollOk s → RollOk t
  zones : ZonesOwned s → ZonesOwned t
  notices : RollOk s → NoticesOk s → Owing D t

/-- `t` keeps what a change that is no output or start keeps of `s`. -/
abbrev Kept (s t : State) : Prop := KeptOwing (fun _ => False) s t

/-- What `Kept` looks at beside the notices. -/
def keptRest (s : State) :=
  (s.pending, s.office, s.power, s.store, s.attention, s.roll.roster, s.roll.census, s.chime.channels, s.zone.quietLatch,
    s.zone.mutes, s.settings.quietMask, s.settings.quietLevel)

/-- What `Kept` looks at. -/
def keptPart (s : State) := (keptRest s, s.notices.queue, s.notices.window, s.day.state, s.sweep.state)

/-- What the ownership of the zones looks at. -/
def zonePart (s : State) :=
  (s.chime.channels, s.zone.quietLatch, s.zone.mutes, s.settings.quietMask, s.settings.quietLevel)

theorem ZonesOwned.congr {s t : State} (h : ZonesOwned s) (e : zonePart t = zonePart s) : ZonesOwned t := by
  simp only [zonePart, Prod.mk.injEq] at e
  obtain ⟨e1, e2, e3, e4, e5⟩ := e
  have hc (n : Nat) : channelAt n t = channelAt n s := by unfold channelAt; rw [e1]
  have hq (z : Nat) : zoneQuiet z t = zoneQuiet z s := by
    unfold zoneQuiet quietBy quietInputActive quietMaskOf; simp only [e2, e4, e5]
  have hm (z : Nat) : zoneMuted z t = zoneMuted z s := by unfold zoneMuted; rw [e3]
  unfold ZonesOwned
  simp only [hc, hq, hm, e1]
  exact h

namespace Kept

theorem refl (s : State) : Kept s s := ⟨rfl, rfl, rfl, rfl, id, id, id, fun _ n => n⟩

end Kept

namespace KeptOwing

variable {D E : Slot → Prop}

theorem trans {s t u : State} (h : Kept s t) (g : KeptOwing D t u) : KeptOwing D s u :=
  ⟨g.pending.trans h.pending, g.office.trans h.office, g.power.trans h.power, g.store.trans h.store,
    g.attention ∘ h.attention, g.roll ∘ h.roll, g.zones ∘ h.zones, fun r n => g.notices (h.roll r) (h.notices r n)⟩

/-- The relation with fewer slots owing. -/
theorem mono {s t : State} (h : KeptOwing D s t)
    (hd : RollOk s → NoticesOk s → ∀ k, markAt k t = some .absentPending → D k → E k) : KeptOwing E s t :=
  { h with notices := fun r n => (h.notices r n).mono (hd r n) }

/-- An update that the notices' relations alone look at. -/
theorem setNotices {a s t : State} (h : KeptOwing D a s) (e : keptRest t = keptRest s)
    (hn : RollOk a → NoticesOk a → Owing E t) : KeptOwing E a t := by
  simp only [keptRest, Prod.mk.injEq] at e
  obtain ⟨e1, e2, e3, e4, e5, e6, e7, e8, e9, e10, e11, e12⟩ := e
  refine ⟨e1.trans h.pending, e2.trans h.office, e3.trans h.power, e4.trans h.store, fun x => ?_, fun x => (h.roll x).congr e6 e7,
    fun x => (h.zones x).congr ?_, hn⟩
  · have := h.attention x
    unfold AttentionOk at *; rw [e5]; exact this
  · unfold zonePart; rw [e8, e9, e10, e11, e12]

/-- An update of nothing that the relation looks at. -/
theorem set {a s t : State} (h : KeptOwing D a s) (e : keptPart t = keptPart s) : KeptOwing D a t := by
  obtain ⟨e1, e2⟩ := Prod.mk.inj e
  refine h.setNotices e1 fun r n => (h.notices r n).congr ?_
  simp only [keptRest, Prod.mk.injEq] at e1 e2
  unfold noticePart; rw [e1.2.2.2.2.2.1, e2.1, e2.2.1, e2.2.2.1, e2.2.2.2, e1.2.2.2.1]

theorem ite {a s t : State} {p : Prop} [Decidable p] (h : KeptOwing D a s) (g : KeptOwing D a t) :
    KeptOwing D a (if p then s else t) := by
  split
  · exact h
  · exact g

end KeptOwing

namespace Kept

theorem set {a s t : State} (h : Kept a s) (e : keptPart t = keptPart s) : Kept a t := KeptOwing.set h e

theorem ite {a s t : State} {p : Prop} [Decidable p] (h : Kept a s) (g : Kept a t) : Kept a (if p then s else t) :=
  KeptOwing.ite h g

theorem foldl {α : Type} {f : State → α → State} (hf : ∀ s x, Kept s (f s x)) {a : State} (l : List α) {s : State}
    (h : Kept a s) : Kept a (l.foldl f s) := by
  induction l generalizing s with
  | nil => exact h
  | cons x t ih => exact ih (h.trans (hf s x))

/-- A fold over notices, each of which still names what it named. -/
theorem foldlNotices {f : State → Notice → State} (hq : ∀ s n, QueueFrom s (f s n)) {a : State}
    (hf : ∀ {s : State} (n : Notice), (RollOk a → NoticesOk a → Named n s) → Kept a s → Kept a (f s n)) (l : List Notice) {s : State}
    (hl : RollOk a → NoticesOk a → ∀ n ∈ l, Named n s) (h : Kept a s) : Kept a (l.foldl f s) := by
  induction l generalizing s with
  | nil => exact h
  | cons x t ih =>
    exact ih (fun r n m hm => (hq s x).named (hl r n m (List.mem_cons_of_mem _ hm)))
      (hf x (fun r n => hl r n x List.mem_cons_self) h)

end Kept

/-! ### Attention -/

theorem attentionOk_raise {id : SourceId} {x : Option Subject} {s : State} (h : AttentionOk s) :
    AttentionOk (raise id x s) := by
  refine ⟨by simp [h.1], fun y hy => ?_⟩
  obtain ⟨i, hi, rfl⟩ := List.mem_iff_getElem.1 hy
  simp only [raise_attention, List.getElem_modify]
  have hi' : i < s.attention.length := by simpa using hi
  split
  · exact ⟨Nat.min_le_right _ _, by simp [Source.raised]⟩
  · exact h.2 _ (List.getElem_mem hi')

theorem raise_kept {D : Slot → Prop} {a s : State} (id : SourceId) (x : Option Subject) (h : KeptOwing D a s) :
    KeptOwing D a (raise id x s) :=
  { h.set (t := s) rfl with
    attention := fun y => attentionOk_raise (h.attention y)
    roll := fun y => (h.roll y).congr rfl rfl
    zones := fun y => (h.zones y).congr rfl
    notices := fun r n => (h.notices r n).congr rfl }

/-! ### The Notice Queue -/

theorem setQueue_rest (q : List Notice) (s : State) : keptRest (setQueue q s) = keptRest s := by
  unfold setQueue sweepResume
  dsimp only
  repeat' split
  all_goals rfl

theorem setQueue_roster (q : List Notice) (s : State) (k : Slot) : markAt k (setQueue q s) = markAt k s :=
  markAt_congr (by rw [(setQueue_parts q s).2.2.1]) k

theorem withdrawWhere_kept {D : Slot → Prop} {a s : State} (p : Notice → Bool)
    (hp : RollOk a → NoticesOk a → ∀ n ∈ s.notices.queue, p n = true → n.isPupil = true) (h : KeptOwing D a s) :
    KeptOwing (fun k => D k ∨ ∃ n ∈ s.notices.queue, n.isAbsentOf k = true ∧ p n = true) a (withdrawWhere p s) :=
  h.setNotices (setQueue_rest _ s) fun r n => (h.notices r n).withdrawWhere p (hp r n)

theorem removeOwing_kept {D : Slot → Prop} {a s : State} (number : Nat) (hu : RollOk a → NoticesOk a → Unsent number s)
    (h : KeptOwing D a s) :
    KeptOwing (fun k => D k ∨ ∃ n ∈ s.notices.queue, n.isAbsentOf k = true ∧ n.number = number) a (removeNotice number s) :=
  h.setNotices (setQueue_rest _ s) fun r n => (h.notices r n).removeNotice number (hu r n)

/-- A notice removed that no ABSENT_PENDING mark waits for. -/
theorem removeNotice_kept {D : Slot → Prop} {a s : State} (number : Nat)
    (hu : RollOk a → NoticesOk a → Unsent number s)
    (hn : RollOk a → NoticesOk a → ∀ m ∈ s.notices.queue, m.number = number → m.kind ≠ .absent ∨ m.cancel = true)
    (h : KeptOwing D a s) : KeptOwing D a (removeNotice number s) :=
  (removeOwing_kept number hu h).mono fun r n k _ x => x.resolve_right fun ⟨m, hm, e1, e2⟩ => by
    have e := isAbsentOf_iff.1 e1
    rcases hn r n m hm e2 with c | c
    · exact c e.1
    · rw [e.2.2] at c; simp at c

theorem mapQueue_kept {D : Slot → Prop} {a s t : State} (g : Notice → Notice) (hq : t.notices.queue = s.notices.queue.map g)
    (hg : RollOk a → NoticesOk a → ∀ n ∈ s.notices.queue,
      Follows n (g n) ∧ (n.kind = .absent → (g n).cancel = n.cancel) ∧ NoMore n (g n) ∧
        ∀ x ∈ s.notices.window, n.Sends x → (g n).Sends x)
    (e : (keptRest t, t.notices.window, t.day.state, t.sweep.state) = (keptRest s, s.notices.window, s.day.state, s.sweep.state))
    (h : KeptOwing D a s) : KeptOwing D a t := by
  simp only [keptRest, Prod.mk.injEq] at e
  obtain ⟨⟨e1, e2, e3, e4, e5, e6, e7⟩, e8, e9, e10⟩ := e
  exact h.setNotices (by simp only [keptRest, Prod.mk.injEq]; exact ⟨e1, e2, e3, e4, e5, e6, e7⟩) fun r n =>
    (h.notices r n).mapQueue g hq (fun m hm => (hg r n m hm).1) (fun m hm => (hg r n m hm).2.1)
      (fun m hm => (h.notices r n).noMore hm (hg r n m hm).2.2.1) (fun m hm => (hg r n m hm).2.2.2) e6 e8 e9 e10 e4

/-- A notice that takes a form that follows it. -/
theorem updateNotice_kept {D : Slot → Prop} {a s : State} (number : Nat) (f : Notice → Notice)
    (hf : RollOk a → NoticesOk a → ∀ m ∈ s.notices.queue, m.number = number →
      Follows m (f m) ∧ (m.kind = .absent → (f m).cancel = m.cancel) ∧ NoMore m (f m) ∧
        ∀ x ∈ s.notices.window, m.Sends x → (f m).Sends x)
    (h : KeptOwing D a s) : KeptOwing D a (updateNotice number f s) := by
  refine mapQueue_kept _ rfl (fun r n m hm => ?_) rfl h
  split
  · rename_i e; exact hf r n m hm e
  · exact ⟨.refl m, fun _ => rfl, .refl m, fun _ _ => id⟩

/-- A broadcast's own state changed. -/
def ofBroadcast (f : BroadcastState → BroadcastState) (x : Notice) : Notice :=
  match x.addressee with
  | .broadcast b => { x with addressee := .broadcast (f b) }
  | .pupil _ _ => x

theorem ofBroadcast_follows (f : BroadcastState → BroadcastState) (m : Notice) :
    Follows m (ofBroadcast f m) ∧ (m.kind = .absent → (ofBroadcast f m).cancel = m.cancel) ∧
      ∀ c, (ofBroadcast f m).addressee = .broadcast c → ∃ b, m.addressee = .broadcast b ∧ c = f b := by
  unfold ofBroadcast
  cases e : m.addressee with
  | pupil k i => exact ⟨.refl m, fun _ => rfl, fun c hc => by rw [e] at hc; cases hc⟩
  | broadcast b =>
    exact ⟨⟨rfl, rfl, fun k => by simp [Notice.isTo, e], id, fun x k i hk => by simp at hk⟩, fun _ => rfl,
      fun c hc => ⟨b, rfl, by cases hc; rfl⟩⟩

theorem ofBroadcast_sends (f : BroadcastState → BroadcastState) {m : Notice} {x : Send} (h : m.Sends x) : (ofBroadcast f m).Sends x := by
  unfold ofBroadcast
  cases e : m.addressee with
  | pupil k i => exact h
  | broadcast b => exact h.congr rfl fun k i hk => by cases hk

theorem updateBroadcast_kept {D : Slot → Prop} {a s : State} (number : Nat) (f : BroadcastState → BroadcastState)
    (hf : RollOk a → NoticesOk a → ∀ m ∈ s.notices.queue, m.number = number → ∀ b, m.addressee = .broadcast b →
      (f b).returned.length ≤ b.returned.length)
    (h : KeptOwing D a s) : KeptOwing D a (updateBroadcast number f s) :=
  updateNotice_kept number (ofBroadcast f) (fun r n m hm hn => by
    obtain ⟨f1, f2, f3⟩ := ofBroadcast_follows f m
    refine ⟨f1, f2, fun c hc => ?_, fun _ _ => ofBroadcast_sends f⟩
    obtain ⟨b, hb, rfl⟩ := f3 c hc
    exact ⟨b, hb, hf r n m hm hn b hb⟩) h

theorem addNotice_kept {D : Slot → Prop} {a s : State} {kind : NoticeKind} {to_ : Addressee} (c : Nat) (d : Option SchoolTime)
    (x : Option Nat) (hk : kind ≠ .absent) (hb : ∀ b, to_ = .broadcast b → b.returned = [])
    (ha : Addresses kind to_) (hl : RollOk a → NoticesOk a → s.notices.queue.length < 128) (h : KeptOwing D a s) :
    KeptOwing D a (addNotice kind to_ c d x s) :=
  h.setNotices rfl fun r n => (h.notices r n).addNotice c d x hk (hl r n) hb ha

/-! ### Marks -/

theorem claim_kept {D : Slot → Prop} {a s : State} (k : Slot) (f : DayPart → DayPart)
    (hf : RollOk a → NoticesOk a → ∀ p, pupilAt k s = some p → SafeDay p.day (f p.day)) (h : KeptOwing D a s) :
    KeptOwing (fun j => D j ∧ markAt j (claim k f s) = some .absentPending) a (claim k f s) := by
  have hr : (RollOk a → RollOk (claim k f s)) ∧ (claim k f s).pending = s.pending ∧ (claim k f s).office = s.office ∧
      (claim k f s).power = s.power ∧ (claim k f s).store = s.store ∧ (claim k f s).attention = s.attention ∧
      zonePart (claim k f s) = zonePart s := by
    unfold claim
    cases hp : pupilAt k s with
    | none => exact ⟨h.roll, rfl, rfl, rfl, rfl, rfl, rfl⟩
    | some p =>
      have ok (x : RollOk a) : RollOk (putPupil k { p with day := f p.day } s) :=
        (h.roll x).put ((h.roll x).slot_lt hp) (p := { p with day := f p.day }) (RollOk.cohort (h.roll x) (p := p) hp)
      dsimp only
      split
      · have e := setQueue_rest ((putPupil k { p with day := f p.day } s).notices.queue.filterMap fun n =>
          if n.isAbsentOf k then (if n.inWindow then some { n with cancel := true } else none) else some n)
          (putPupil k { p with day := f p.day } s)
        simp only [keptRest, Prod.mk.injEq] at e
        obtain ⟨e1, e2, e3, e4, e5, e6, e7, e8, e9, e10, e11, e12⟩ := e
        refine ⟨fun x => (ok x).congr e6 e7, e1, e2, e3, e4, e5, ?_⟩
        simp only [zonePart, Prod.mk.injEq]
        exact ⟨e8, e9, e10, e11, e12⟩
      · exact ⟨ok, rfl, rfl, rfl, rfl, rfl, rfl⟩
  obtain ⟨e0, e1, e2, e3, e4, e5, e6⟩ := hr
  refine ⟨e1.trans h.pending, e2.trans h.office, e3.trans h.power, e4.trans h.store, fun x => ?_, e0, fun x => (h.zones x).congr e6,
    fun r n => claim_owing (h.notices r n) (hf r n)⟩
  have := h.attention x
  unfold AttentionOk at *; rw [e5]; exact this

/-- A claim while no slot is owing. -/
theorem claimSafe_kept {a s : State} (k : Slot) (f : DayPart → DayPart)
    (hf : RollOk a → NoticesOk a → ∀ p, pupilAt k s = some p → SafeDay p.day (f p.day)) (h : Kept a s) : Kept a (claim k f s) :=
  (claim_kept k f hf h).mono fun _ _ _ _ x => x.1

theorem markAt_claim_self {k : Slot} {f : DayPart → DayPart} {s : State} :
    markAt k (claim k f s) = (pupilAt k s).map fun p => (f p.day).mark := by
  unfold claim
  cases hp : pupilAt k s with
  | none => unfold markAt; rw [hp]; rfl
  | some p =>
    dsimp only
    split
    · rw [show markAt k (withdrawWhere _ _) = markAt k _ from setQueue_roster _ _ k, markAt_put_self]; rfl
    · rw [markAt_put_self]; rfl

theorem markAt_claim_ne {j k : Slot} (hj : j ≠ k) (f : DayPart → DayPart) (s : State) : markAt j (claim k f s) = markAt j s := by
  unfold claim
  split
  · rfl
  · dsimp only
    split
    · rw [show markAt j (withdrawWhere _ _) = markAt j _ from setQueue_roster _ _ j, markAt_put_ne hj]
    · rw [markAt_put_ne hj]

theorem claim_day (k : Slot) (f : DayPart → DayPart) (s : State) : (claim k f s).day = s.day := by
  unfold claim
  split
  · rfl
  · dsimp only
    split
    · exact (setQueue_parts _ _).2.2.2.1
    · rfl

theorem makeUnreached_kept {D : Slot → Prop} {a s : State} (src : MarkSource) (k : Slot) (h : KeptOwing D a s) :
    KeptOwing (fun j => D j ∧ j ≠ k) a (makeUnreached src k s) := by
  refine (raise_kept .unreached (some (.slot k)) (claim_kept k _ (fun _ _ p _ => ?_) h)).mono fun _ _ j _ x => ⟨x.1, fun e => ?_⟩
  · unfold SafeDay; split <;> simp_all
  · subst e
    have := x.2
    rw [markAt_claim_self] at this
    cases hp : pupilAt j s with
    | none => rw [hp] at this; simp at this
    | some p => rw [hp] at this; simp only [Option.map_some, Option.some.injEq] at this; split at this <;> simp_all

theorem excuseUnaccounted_kept {a s : State} (src : MarkSource) (r : ExcuseReason) (k : Slot) (h : Kept a s) :
    Kept a (excuseUnaccounted src r k s) :=
  claimSafe_kept _ _ (fun _ _ p _ => by unfold SafeDay; split <;> simp_all) h

/-! ### The Send Window -/

theorem issueSend_kept {D : Slot → Prop} {a s : State} (n : Notice) (k : Slot) (i : Nat) (p : Pupil) (c : Contact)
    (hw : RollOk a → NoticesOk a → HasPlace n.number s ∧ Issues n.number k i s) (h : KeptOwing D a s) :
    KeptOwing D a (issueSend n k i p c s) :=
  h.setNotices rfl fun r x => (h.notices r x).issueSend n k i p c (hw r x).1.1 (hw r x).2 (hw r x).1.2

theorem dropSend_kept {D : Slot → Prop} {a s : State} (k : SendKey) (h : KeptOwing D a s) : KeptOwing D a (dropSend k s) :=
  h.setNotices rfl fun r n => (h.notices r n).windowShrinks rfl rfl (List.filter_sublist.map _) rfl rfl rfl

theorem setNotices_kept {a s : State} (f : Dispatcher → Dispatcher)
    (hf : (f s.notices).queue = s.notices.queue ∧ ((f s.notices).window.map (·.key)).Sublist (s.notices.window.map (·.key)))
    (h : Kept a s) : Kept a (setNotices f s) :=
  h.setNotices rfl fun r n => (h.notices r n).windowShrinks rfl hf.1 hf.2 rfl rfl rfl

/-! ### The rest -/

theorem setGateway_kept {a s : State} (f : GatewayPort → GatewayPort) (h : Kept a s) : Kept a (setGateway f s) := h.set rfl
theorem sendFrame_kept {a s : State} (f : Frame) (h : Kept a s) : Kept a (sendFrame f s) := h.set rfl
theorem reach_kept {a s : State} (t : RunTime) (h : Kept a s) : Kept a (reach t s) := h.set rfl
theorem setTime_kept {a s : State} (f : TimeBase → TimeBase) (h : Kept a s) : Kept a (setTime f s) := h.set rfl
theorem setSweep_kept {a s : State} (f : CutSweeper → CutSweeper) (hf : (f s.sweep).state ≠ .idle → s.sweep.state ≠ .idle)
    (h : Kept a s) : Kept a (setSweep f s) :=
  h.setNotices rfl fun r n => { h.notices r n with sweep := fun x => (h.notices r n).sweep (hf x) }
theorem setAway_kept {a s : State} (f : List AwayEntry → List AwayEntry) (h : Kept a s) : Kept a (setAway f s) := h.set rfl
theorem setCalendar_kept {a s : State} (f : List (Date × DayType) → List (Date × DayType)) (h : Kept a s) :
    Kept a (setCalendar f s) := h.set rfl
theorem setTerminal_kept {a s : State} (n : Nat) (t : Option Terminal) (h : Kept a s) : Kept a (setTerminal n t s) := h.set rfl
theorem modifyTerminal_kept {a s : State} (n : Nat) (f : Terminal → Terminal) (h : Kept a s) : Kept a (modifyTerminal n f s) :=
  h.set rfl
theorem begin_kept {a s : State} (j : Job) (t : Transaction) (h : Kept a s) : Kept a (begin_ j t s) := h.set rfl
theorem modifyEntry_kept {a s : State} (i : Nat) (f : PlanEntry → PlanEntry) (h : Kept a s) : Kept a (modifyEntry i f s) :=
  h.set rfl
theorem setWaits_kept {a s : State} (l : List WaitEntry) (h : Kept a s) : Kept a (setWaits l s) := h.set rfl
theorem updateWake_kept {a s : State} (h : Kept a s) : Kept a (updateWake s) := h.set rfl

end Sys2Proof.Machine
end

