-- ==== Sys2Proof/Laws/KeptChimes.lean ====
section
/-! SUPPORT. The changes of the Chime Unit and the Zone Driver keep what `Kept` says: the ownership of the zones (R79) above all. -/

namespace Sys2Proof.Machine

/-! ### Reports -/

theorem writeOutcome_kept {a s : State} (c i : Nat) (o : ChimeOutcome) (h : Kept a s) : Kept a (writeOutcome c i o s) := by
  unfold writeOutcome
  split
  · exact h
  · dsimp only
    split
    · exact raise_kept _ _ (h.set rfl)
    · exact h.set rfl

theorem report_kept {a s : State} (g : Origin) (p : PatternRef) (o : ChimeOutcome) (h : Kept a s) :
    Kept a (report g p o s) := by
  unfold report
  split
  · exact writeOutcome_kept _ _ _ h
  · exact Kept.ite (h.set rfl) h
  · exact Kept.ite (h.set rfl) h

theorem report_zonePart (g : Origin) (p : PatternRef) (o : ChimeOutcome) (s : State) :
    zonePart (report g p o s) = zonePart s := by
  unfold report writeOutcome
  split
  · split
    · rfl
    · dsimp only; split <;> rfl
  · split <;> rfl
  · split <;> rfl

/-! ### Channels -/

theorem channelAt_set {n m : Nat} {c : ToneChannel} {s : State} (hn : n < s.chime.channels.length) :
    channelAt m (setChannel n c s) = if m = n then c else channelAt m s := by
  unfold channelAt setChannel
  by_cases h : m = n
  · subst h; simp [List.getD_eq_getElem?_getD, hn]
  · simp [List.getD_eq_getElem?_getD, h, Ne.symm h]

theorem channelAt_congr {s t : State} (h : t.chime.channels = s.chime.channels) (n : Nat) : channelAt n t = channelAt n s := by
  unfold channelAt; rw [h]

theorem channelAt_oob {n : Nat} {s : State} (h : s.chime.channels.length ≤ n) : channelAt n s = .idle := by
  unfold channelAt; simp [List.getD_eq_getElem?_getD, h]

/-- Setting a channel that does not exist changes nothing. -/
theorem setChannel_oob {n : Nat} {c : ToneChannel} {s : State} (h : s.chime.channels.length ≤ n) : setChannel n c s = s := by
  unfold setChannel; rw [List.set_eq_of_length_le h]

theorem setChannel_kept {a s : State} (n : Nat) (c : ToneChannel)
    (hc : n < s.chime.channels.length →
      (∀ z ∈ c.zones, z ∈ (channelAt n s).zones) ∧ (c.priority = (channelAt n s).priority ∨ c.zones = []) ∧
        (c.state = .idle ∨ c.state = .tailing → c.zones = []))
    (h : Kept a s) : Kept a (setChannel n c s) := by
  rcases Nat.lt_or_ge n s.chime.channels.length with hn | hn
  · obtain ⟨h1, h2, h3⟩ := hc hn
    refine h.trans ⟨rfl, rfl, rfl, rfl, id, fun r => r.congr rfl rfl, fun z => ?_, fun _ n => n.congr rfl⟩
    obtain ⟨z1, z2, z3, z4⟩ := z
    have sub (m x : Nat) (hx : x ∈ (channelAt m (setChannel n c s)).zones) : x ∈ (channelAt m s).zones := by
      rw [channelAt_set hn] at hx
      split at hx
      · rename_i e; subst e; exact h1 x hx
      · exact hx
    refine ⟨by simp [setChannel, z1], fun m k x hm hk => z2 m k x (sub m x hm) (sub k x hk), fun m hm => ?_,
      fun m x p hx hp hlt => ?_⟩
    · rw [channelAt_set hn] at hm ⊢
      split
      · rename_i e; rw [if_pos e] at hm; exact h3 hm
      · rename_i e; rw [if_neg e] at hm; exact z3 m hm
    · have hx' := sub m x hx
      rw [channelAt_set hn] at hx hp
      have : (channelAt m s).priority = some p := by
        split at hp
        · rename_i e
          rw [if_pos e] at hx
          rcases h2 with h2 | h2
          · rw [e, ← h2]; exact hp
          · rw [h2] at hx; simp at hx
        · exact hp
      exact z4 m x p hx' this hlt
  · rw [setChannel_oob hn]; exact h

theorem channelNumbers_eq : channelNumbers = [0, 1, 2, 3] := rfl

theorem mem_channelNumbers {n : Nat} : n ∈ channelNumbers ↔ n < 4 := by
  simp only [channelNumbers, List.mem_cons, List.not_mem_nil, or_false]; omega

theorem endRequest_kept {a s : State} (n : Nat) (o : ChimeOutcome) (h : Kept a s) : Kept a (endRequest n o s) := by
  unfold endRequest
  have h1 : Kept a (setChannel n ((channelAt n s).tailing s) s) :=
    setChannel_kept n _ (fun _ => ⟨by simp [ToneChannel.tailing], .inr rfl, fun _ => rfl⟩) h
  dsimp only
  split
  · exact report_kept _ _ _ h1
  · exact h1

theorem endPattern_kept {a s : State} (n : Nat) (h : Kept a s) : Kept a (endPattern n s) := endRequest_kept n _ h
theorem stopChannel_kept {a s : State} (n : Nat) (o : ChimeOutcome) (h : Kept a s) : Kept a (stopChannel n o s) :=
  endRequest_kept n o h

/-- Play changes only the step, its end, the loop counter and the mark that time has passed. -/
theorem playSteps_same (now : RunTime) (fuel i : Nat) (c : ToneChannel) :
    (playSteps now fuel i c).1.zones = c.zones ∧ (playSteps now fuel i c).1.priority = c.priority ∧
      (playSteps now fuel i c).1.state = c.state := by
  induction fuel generalizing i c with
  | zero => exact ⟨rfl, rfl, rfl⟩
  | succ k ih =>
    unfold playSteps
    split <;> try exact ⟨rfl, rfl, rfl⟩
    dsimp only
    split
    · exact ih _ _
    · exact ih _ _

theorem playFrom_kept {a s : State} (n i : Nat) (hs : n < s.chime.channels.length → (channelAt n s).state = .playing ∨
    (channelAt n s).zones = [])
    (h : Kept a s) : Kept a (playFrom n i s) := by
  unfold playFrom
  have ok (c : ToneChannel) (e1 : c.zones = (channelAt n s).zones) (e2 : c.priority = (channelAt n s).priority)
      (e3 : c.state = (channelAt n s).state) : Kept a (setChannel n c s) :=
    setChannel_kept n c (fun hn => ⟨fun z hz => e1 ▸ hz, .inl e2, fun hst => by
      rw [e3] at hst
      rcases hs hn with hp | hz
      · rw [hp] at hst; simp at hst
      · rw [e1, hz]⟩) h
  obtain ⟨r1, r2, r3⟩ := playSteps_same s.time.running playFuel i (channelAt n s)
  obtain ⟨q1, q2, q3⟩ := playSteps_same s.time.running playFuel 0
    { (playSteps s.time.running playFuel i (channelAt n s)).1 with loopCounter := none, passTimed := false }
  dsimp only
  split
  · exact ok _ r1 r2 r3
  · split
    · split
      · exact ok _ (q1.trans r1) (q2.trans r2) (q3.trans r3)
      · exact endPattern_kept n (ok _ (q1.trans r1) (q2.trans r2) (q3.trans r3))
    · exact endPattern_kept n (ok _ r1 r2 r3)

theorem wakingTest_kept {a s : State} (n : Nat) (h : Kept a s) : Kept a (wakingTest n s) := by
  unfold wakingTest
  dsimp only
  split
  · rename_i hw
    have h1 (e : Option StepEnd) :
        Kept a (setChannel n { channelAt n s with state := .playing, step := some 0, stepEnd := e } s) :=
      setChannel_kept n _ (fun _ => ⟨fun z hz => hz, .inl rfl, fun hst => by simp at hst⟩) h
    split
    · exact h1 _
    · refine playFrom_kept n 0 (fun hn => .inl ?_) (h1 _)
      rw [channelAt_set (by simpa [setChannel] using hn)]; simp
  · exact h

/-! ### The arbiter -/

theorem chosenChannel_lt {p : Nat} {zones : List Nat} {s : State} {n : Nat} (h : chosenChannel p zones s = some n) : n < 4 := by
  have low (l : List Nat) (hl : ∀ x ∈ l, x < 4) (m : Nat) (hm : lowestOf s l = some m) : m < 4 := by
    induction l generalizing m with
    | nil => simp [lowestOf] at hm
    | cons x t ih =>
      simp only [lowestOf] at hm
      have hx := hl x List.mem_cons_self
      have ht := ih fun y hy => hl y (List.mem_cons_of_mem _ hy)
      split at hm
      · cases hm; exact hx
      · rename_i k hk
        split at hm <;> cases hm
        · exact ht _ hk
        · exact hx
  have hconf : ∀ x ∈ conflicting zones s, x < 4 := fun x hx => mem_channelNumbers.1 (List.mem_filter.1 hx).1
  unfold chosenChannel at h
  dsimp only at h
  split at h
  · split at h
    · rename_i k hk
      cases h
      exact mem_channelNumbers.1 (List.mem_of_find?_eq_some hk)
    · split at h
      · split at h
        · rename_i k hk
          split at h
          · cases h; exact low _ (fun x hx => mem_channelNumbers.1 hx) _ hk
          · cases h
        · cases h
      · exact low _ hconf _ h
  · cases h

theorem report_channels (g : Origin) (p : PatternRef) (o : ChimeOutcome) (s : State) :
    (report g p o s).chime.channels = s.chime.channels := by
  have := report_zonePart g p o s
  simp only [zonePart, Prod.mk.injEq] at this
  exact this.1

theorem endRequest_channels (n : Nat) (o : ChimeOutcome) (s : State) :
    (endRequest n o s).chime.channels = s.chime.channels.set n ((channelAt n s).tailing s) := by
  unfold endRequest
  dsimp only
  split
  · rw [report_channels]; rfl
  · rfl

theorem stopChannel_zones (n m : Nat) (o : ChimeOutcome) (s : State) :
    (channelAt m (stopChannel n o s)).zones = if m = n then [] else (channelAt m s).zones := by
  rw [channelAt_congr (t := stopChannel n o s) (s := setChannel n ((channelAt n s).tailing s) s) (endRequest_channels n o s)]
  rcases Nat.lt_or_ge n s.chime.channels.length with hn | hn
  · rw [channelAt_set hn]; split <;> simp [ToneChannel.tailing]
  · rw [setChannel_oob hn]
    split
    · rename_i e; rw [e, channelAt_oob hn]; rfl
    · rfl

theorem stopChannel_length (n : Nat) (o : ChimeOutcome) (s : State) :
    (stopChannel n o s).chime.channels.length = s.chime.channels.length := by
  rw [stopChannel, endRequest_channels]; simp

theorem stopChannel_silent (n : Nat) (o : ChimeOutcome) (s : State) :
    ∀ z, zoneSilent z (stopChannel n o s) = zoneSilent z s := by
  intro z
  have : (zonePart (stopChannel n o s)).2 = (zonePart s).2 := by
    unfold stopChannel endRequest
    dsimp only
    split
    · rw [report_zonePart]; rfl
    · rfl
  simp only [zonePart, Prod.mk.injEq] at this
  obtain ⟨e2, e3, e4, e5⟩ := this
  unfold zoneSilent zoneQuiet quietBy quietInputActive quietMaskOf zoneMuted
  simp only [e2, e3, e4, e5]

/-- The channels stopped own nothing; the others own what they owned. -/
theorem stops_zones (l : List Nat) (o : ChimeOutcome) (s : State) :
    let t := l.foldl (fun s n => stopChannel n o s) s
    t.chime.channels.length = s.chime.channels.length ∧ (∀ z, zoneSilent z t = zoneSilent z s) ∧
      ∀ m, (channelAt m t).zones = if m ∈ l then [] else (channelAt m s).zones := by
  induction l generalizing s with
  | nil => exact ⟨rfl, fun _ => rfl, fun m => by simp⟩
  | cons n t ih =>
    obtain ⟨i1, i2, i3⟩ := ih (stopChannel n o s)
    refine ⟨i1.trans (stopChannel_length n o s), fun z => (i2 z).trans (stopChannel_silent n o s z), fun m => ?_⟩
    simp only [List.foldl_cons]
    rw [i3 m, stopChannel_zones]
    by_cases h1 : m ∈ t <;> by_cases h2 : m = n <;> simp [h1, h2]

theorem startOn_kept {a s : State} (n : Nat) (r : ChimeRequest) (zones : List Nat) (hn : n < 4)
    (hfree : ZonesOwned s → ∀ m, m ≠ n → ∀ z ∈ zones, z ∉ (channelAt m s).zones)
    (hsil : r.priority < 12 → ∀ z ∈ zones, zoneSilent z s = false)
    (h : Kept a s) : Kept a (startOn n r zones s) := by
  unfold startOn
  apply wakingTest_kept
  apply updateWake_kept
  apply report_kept
  refine h.trans ⟨rfl, rfl, rfl, rfl, id, fun r => r.congr rfl rfl, fun z => ?_, fun _ n => n.congr rfl⟩
  have free := hfree z
  obtain ⟨z1, z2, z3, z4⟩ := z
  have hn' : n < s.chime.channels.length := z1 ▸ hn
  refine ⟨by simp [setChannel, z1], fun m k x hm hk => ?_, fun m hm => ?_, fun m x p hx hp hlt => ?_⟩
  · rw [channelAt_set hn'] at hm hk
    by_cases e1 : m = n <;> by_cases e2 : k = n
    · rw [e1, e2]
    · rw [if_pos e1] at hm; rw [if_neg e2] at hk; exact absurd hk (free k e2 x hm)
    · rw [if_neg e1] at hm; rw [if_pos e2] at hk; exact absurd hm (free m e1 x hk)
    · rw [if_neg e1] at hm; rw [if_neg e2] at hk; exact z2 m k x hm hk
  · rw [channelAt_set hn'] at hm ⊢
    split
    · rename_i e; rw [if_pos e] at hm; simp [startedChannel] at hm
    · rename_i e; rw [if_neg e] at hm; exact z3 m hm
  · rw [channelAt_set hn'] at hx hp
    split at hp
    · rename_i e
      rw [if_pos e] at hx
      simp only [startedChannel, Option.some.injEq] at hp hx
      have := hsil (hp ▸ hlt) x hx
      exact Bool.or_eq_false_iff.1 this
    · rename_i e
      rw [if_neg e] at hx
      exact z4 m x p hx hp hlt

theorem tryRequest_kept {a s : State} {r : ChimeRequest} {zones : List Nat} {t : State × Nat × Bool}
    (ht : tryRequest r zones s = some t) (hsil : r.priority < 12 → ∀ z ∈ zones, zoneSilent z s = false)
    (h : Kept a s) : Kept a t.1 := by
  unfold tryRequest at ht
  split at ht
  · cases ht
  · rename_i n hn
    cases ht
    dsimp only
    have hn4 := chosenChannel_lt hn
    have hstops : ∀ m ∈ preempted n zones s, m < 4 := fun m hm => mem_channelNumbers.1 (List.mem_filter.1 hm).1
    have h1 : Kept a ((preempted n zones s).foldl (fun s m => stopChannel m .preempted s) s) :=
      Kept.foldl (fun s m => stopChannel_kept m _ (Kept.refl s)) _ h
    obtain ⟨s1, s2, s3⟩ := stops_zones (preempted n zones s) .preempted s
    refine startOn_kept n r zones hn4 (fun zo m hm z hz hin => ?_) (fun hp z hz => (s2 z).trans (hsil hp z hz)) h1
    rw [s3 m] at hin
    split at hin
    · simp at hin
    · rename_i hnot
      rcases Nat.lt_or_ge m 4 with hm4 | hm4
      · refine hnot (List.mem_filter.2 ⟨mem_channelNumbers.2 hm4, ?_⟩)
        simp only [Bool.or_eq_true, List.contains_iff_mem]
        refine .inl (List.mem_filter.2 ⟨mem_channelNumbers.2 hm4, ?_⟩)
        exact List.any_eq_true.2 ⟨z, hin, by simpa using hz⟩
      · rw [channelAt_oob (by rw [← s1, zo.1]; exact hm4)] at hin
        simp [ToneChannel.idle] at hin

/-! ### The Wait List -/

theorem effectiveZones_silent {mask : List Nat} {p : Nat} {s : State} (hp : p < 12) :
    ∀ z ∈ effectiveZones mask p s, zoneSilent z s = false := by
  intro z hz
  unfold effectiveZones at hz
  rw [if_neg (by simp [overridePriority]; omega)] at hz
  simpa using (List.mem_filter.1 hz).2

theorem tryEffective_kept {a s : State} {r : ChimeRequest} {t : State × Nat × Bool}
    (ht : tryRequest r (effectiveZones r.mask r.priority s) s = some t) (h : Kept a s) : Kept a t.1 :=
  tryRequest_kept ht (fun hp => effectiveZones_silent hp) h

theorem examineEntries_kept {a : State} (l : List WaitEntry) {s : State} (h : Kept a s) :
    Kept a (examineEntries l s).2.1 := by
  induction l generalizing s with
  | nil => exact h
  | cons e t ih =>
    unfold examineEntries
    split
    · exact ih (report_kept _ _ _ h)
    · dsimp only
      split
      · exact ih h
      · rename_i hm
        split at hm
        · cases hm
        · exact ih (tryEffective_kept hm h)

theorem examineFuel_kept {a : State} (n : Nat) {s : State} (h : Kept a s) : Kept a (examineFuel n s) := by
  induction n generalizing s with
  | zero => exact h
  | succ k ih =>
    unfold examineFuel
    dsimp only
    have h1 := setWaits_kept (examineEntries s.chime.waits s).1 (examineEntries_kept s.chime.waits h)
    split
    · exact ih h1
    · exact h1

theorem examine_kept {a s : State} (h : Kept a s) : Kept a (examine s) := examineFuel_kept _ h
theorem examineIf_kept {a s : State} (b : Bool) (h : Kept a s) : Kept a (examineIf b s) := Kept.ite (examine_kept h) h

theorem joinWait_kept {a s : State} (r : ChimeRequest) (h : Kept a s) : Kept a (joinWait r s).1 := by
  unfold joinWait
  dsimp only
  split
  · exact report_kept _ _ _ (setWaits_kept _ h)
  · split
    · exact report_kept _ _ _ h
    · split
      · exact report_kept _ _ _ (setWaits_kept _ (report_kept _ _ _ h))
      · exact report_kept _ _ _ h

theorem decideRequest_kept {a s : State} (r : ChimeRequest) (h : Kept a s) : Kept a (decideRequest r s).1 := by
  unfold decideRequest
  split
  · exact report_kept _ _ _ h
  · dsimp only
    split
    · exact report_kept _ _ _ h
    · split
      · rename_i ht
        exact examineIf_kept _ (tryEffective_kept ht h)
      · exact joinWait_kept r h

theorem tailEnds_kept {a s : State} (n : Nat) (h : Kept a s) : Kept a (tailEnds n s) :=
  examine_kept (updateWake_kept (setChannel_kept n _ (fun _ => ⟨by simp [ToneChannel.idle], .inr rfl, fun _ => rfl⟩) h))

theorem dropWaits_kept {a s : State} (h : Kept a s) : Kept a (dropWaits s) :=
  Kept.foldl (fun s _ => report_kept _ _ _ (Kept.refl s)) _ (setWaits_kept _ h)

theorem buttonRequest_kept {a s : State} (p : PatternRef) (g : Bool) (h : Kept a s) : Kept a (buttonRequest p g s) :=
  decideRequest_kept _ (h.set rfl)

theorem releaseChannel_kept {a s : State} (n : Nat) (h : Kept a s) : Kept a (releaseChannel n s).1 := by
  unfold releaseChannel
  dsimp only
  split
  · rename_i hc
    split
    · exact updateWake_kept (endPattern_kept n h)
    · split
      · refine setChannel_kept n _ (fun _ => ⟨fun z hz => hz, .inl rfl, fun hst => ?_⟩) h
        rcases hc.2 with e | e <;> simp [e] at hst
      · exact h
  · exact h

theorem foldPair_kept {a : State} {f : Nat → State → State × Bool} (hf : ∀ n s, Kept s (f n s).1) (l : List Nat)
    {r : State × Bool} (h : Kept a r.1) :
    Kept a (l.foldl (fun r n => let x := f n r.1; (x.1, x.2 || r.2)) r).1 := by
  induction l generalizing r with
  | nil => exact h
  | cons n t ih => exact ih (h.trans (hf n r.1))

theorem releaseButton_kept {a s : State} (h : Kept a s) : Kept a (releaseButton s) := by
  unfold releaseButton
  dsimp only
  apply examineIf_kept
  refine foldPair_kept (fun n s => releaseChannel_kept n (Kept.refl s)) _ ?_
  exact Kept.foldl (fun s _ => report_kept _ _ _ (Kept.refl s)) _ (setWaits_kept _ h)

end Sys2Proof.Machine
end

