-- ==== Sys2Proof/Laws/KeptSilence.lean ====
section
/-! SUPPORT. A change of the quiet set or of the mutes: after the zones that became silent were taken from ordinary channels, the
zones are owned as R79 says (R90). -/

namespace Sys2Proof.Machine

/-- The channels of `t` own no zone they did not own in `s`, under the same silence. -/
structure Shrinks (s t : State) : Prop where
  length : t.chime.channels.length = s.chime.channels.length
  quiet : ∀ z, zoneQuiet z t = zoneQuiet z s
  muted : ∀ z, zoneMuted z t = zoneMuted z s
  sub : ∀ m z, z ∈ (channelAt m t).zones → z ∈ (channelAt m s).zones
  priority : ∀ m, (channelAt m t).priority = (channelAt m s).priority ∨ (channelAt m t).zones = []
  free : ∀ m, ((channelAt m s).state = .idle ∨ (channelAt m s).state = .tailing → (channelAt m s).zones = []) →
    (channelAt m t).state = .idle ∨ (channelAt m t).state = .tailing → (channelAt m t).zones = []

namespace Shrinks

theorem refl (s : State) : Shrinks s s := ⟨rfl, fun _ => rfl, fun _ => rfl, fun _ _ h => h, fun _ => .inl rfl, fun _ h => h⟩

theorem trans {s t u : State} (h : Shrinks s t) (g : Shrinks t u) : Shrinks s u where
  length := g.length.trans h.length
  quiet z := (g.quiet z).trans (h.quiet z)
  muted z := (g.muted z).trans (h.muted z)
  sub m z hz := h.sub m z (g.sub m z hz)
  priority m := by
    rcases g.priority m with e | e
    · rcases h.priority m with e' | e'
      · exact .inl (e.trans e')
      · exact .inr (List.eq_nil_iff_forall_not_mem.2 fun z hz => by
          have := g.sub m z hz; rw [e'] at this; simp at this)
    · exact .inr e
  free m hs := g.free m (h.free m hs)

theorem of_zonePart {s t : State} (e : zonePart t = zonePart s) : Shrinks s t := by
  simp only [zonePart, Prod.mk.injEq] at e
  obtain ⟨e1, e2, e3, e4, e5⟩ := e
  have hc (n : Nat) : channelAt n t = channelAt n s := by unfold channelAt; rw [e1]
  refine ⟨by rw [e1], fun z => ?_, fun z => ?_, fun m z h => hc m ▸ h, fun m => .inl (by rw [hc]), fun m h => by rw [hc]; exact h⟩
  · unfold zoneQuiet quietBy quietInputActive quietMaskOf; simp only [e2, e4, e5]
  · unfold zoneMuted; rw [e3]

theorem setChannel {s : State} (n : Nat) (c : ToneChannel)
    (h1 : ∀ z ∈ c.zones, z ∈ (channelAt n s).zones) (h2 : c.priority = (channelAt n s).priority ∨ c.zones = [])
    (h3 : ((channelAt n s).state = .idle ∨ (channelAt n s).state = .tailing → (channelAt n s).zones = []) →
      c.state = .idle ∨ c.state = .tailing → c.zones = []) : Shrinks s (setChannel n c s) := by
  rcases Nat.lt_or_ge n s.chime.channels.length with hn | hn
  · refine ⟨by simp [Machine.setChannel], fun _ => rfl, fun _ => rfl, fun m z hz => ?_, fun m => ?_, fun m hm => ?_⟩
    · rw [channelAt_set hn] at hz
      split at hz
      · rename_i e; subst e; exact h1 z hz
      · exact hz
    · rw [channelAt_set hn]
      split
      · rename_i e; subst e; exact h2
      · exact .inl rfl
    · rw [channelAt_set hn]
      split
      · rename_i e; subst e; exact h3 hm
      · exact hm
  · rw [setChannel_oob hn]; exact refl s

end Shrinks

theorem endRequest_shrinks (n : Nat) (o : ChimeOutcome) (s : State) : Shrinks s (endRequest n o s) := by
  unfold endRequest
  have h : Shrinks s (setChannel n ((channelAt n s).tailing s) s) :=
    Shrinks.setChannel n _ (by simp [ToneChannel.tailing]) (.inr rfl) fun _ _ => rfl
  dsimp only
  split
  · exact h.trans (.of_zonePart (report_zonePart ..))
  · exact h

theorem playFrom_shrinks (n i : Nat) (s : State) : Shrinks s (playFrom n i s) := by
  unfold playFrom
  have ok (c : ToneChannel) (e1 : c.zones = (channelAt n s).zones) (e2 : c.priority = (channelAt n s).priority)
      (e3 : c.state = (channelAt n s).state) : Shrinks s (setChannel n c s) :=
    Shrinks.setChannel n c (fun z hz => e1 ▸ hz) (.inl e2) fun h hst => by rw [e3] at hst; rw [e1]; exact h hst
  obtain ⟨r1, r2, r3⟩ := playSteps_same s.time.running playFuel i (channelAt n s)
  obtain ⟨q1, q2, q3⟩ := playSteps_same s.time.running playFuel 0
    { (playSteps s.time.running playFuel i (channelAt n s)).1 with loopCounter := none, passTimed := false }
  dsimp only
  split
  · exact ok _ r1 r2 r3
  · split
    · split
      · exact ok _ (q1.trans r1) (q2.trans r2) (q3.trans r3)
      · exact (ok _ (q1.trans r1) (q2.trans r2) (q3.trans r3)).trans (endRequest_shrinks ..)
    · exact (ok _ r1 r2 r3).trans (endRequest_shrinks ..)

theorem wakingTest_shrinks (n : Nat) (s : State) : Shrinks s (wakingTest n s) := by
  unfold wakingTest
  dsimp only
  split
  · have h1 (e : Option StepEnd) :
        Shrinks s (setChannel n { channelAt n s with state := .playing, step := some 0, stepEnd := e } s) :=
      Shrinks.setChannel n _ (fun z hz => hz) (.inl rfl) fun _ hst => by simp at hst
    split
    · exact h1 _
    · exact (h1 _).trans (playFrom_shrinks n 0 _)
  · exact Shrinks.refl s

/-- Zones owned by at most one channel, and by none that holds no request. -/
def ZonesExclusive (s : State) : Prop :=
  s.chime.channels.length = 4 ∧
    (∀ m n z, z ∈ (channelAt m s).zones → z ∈ (channelAt n s).zones → m = n) ∧
    ∀ n, (channelAt n s).state = .idle ∨ (channelAt n s).state = .tailing → (channelAt n s).zones = []

/-- An ordinary channel owns no silent zone. -/
def HeardOnly (n : Nat) (s : State) : Prop :=
  ∀ z p, z ∈ (channelAt n s).zones → (channelAt n s).priority = some p → p < 12 → zoneQuiet z s = false ∧ zoneMuted z s = false

theorem zonesOwned_iff {s : State} : ZonesOwned s ↔ ZonesExclusive s ∧ ∀ n, HeardOnly n s :=
  ⟨fun h => ⟨⟨h.1, h.2.1, h.2.2.1⟩, h.2.2.2⟩, fun h => ⟨h.1.1, h.1.2.1, h.1.2.2, h.2⟩⟩

theorem ZonesExclusive.shrink {s t : State} (h : ZonesExclusive s) (g : Shrinks s t) : ZonesExclusive t :=
  ⟨g.length.trans h.1, fun m n z hm hn => h.2.1 m n z (g.sub m z hm) (g.sub n z hn), fun n => g.free n (h.2.2 n)⟩

theorem HeardOnly.shrink {s t : State} {n : Nat} (h : HeardOnly n s) (g : Shrinks s t) : HeardOnly n t := by
  intro z p hz hp hlt
  rw [g.quiet, g.muted]
  rcases g.priority n with e | e
  · exact h z p (g.sub n z hz) (e ▸ hp) hlt
  · rw [e] at hz; simp at hz

/-- A channel that gave up its silent zones. -/
theorem releaseSilent_spec (n : Nat) {s : State} (h : ZonesExclusive s) :
    ZonesExclusive (releaseSilent n s).1 ∧ HeardOnly n (releaseSilent n s).1 ∧ Shrinks s (releaseSilent n s).1 := by
  unfold releaseSilent
  dsimp only
  split
  · rename_i hc
    obtain ⟨hst, hp, hk⟩ := hc
    have key (c' : ToneChannel) (e1 : c'.zones = (channelAt n s).zones.filter (!zoneSilent · s))
        (e2 : c'.priority = (channelAt n s).priority) (e3 : c'.state = (channelAt n s).state) :
        Shrinks s (setChannel n c' s) ∧ HeardOnly n (setChannel n c' s) := by
      have g : Shrinks s (setChannel n c' s) :=
        Shrinks.setChannel n c' (fun z hz => (List.mem_filter.1 (e1 ▸ hz)).1) (.inl e2) fun _ h2 => by
          rw [e3] at h2; rcases hst with e | e <;> rw [e] at h2 <;> simp at h2
      refine ⟨g, fun z p hz _ _ => ?_⟩
      rw [g.quiet, g.muted]
      rcases Nat.lt_or_ge n s.chime.channels.length with hn | hn
      · rw [channelAt_set hn, if_pos rfl, e1] at hz
        have := (List.mem_filter.1 hz).2
        simpa [zoneSilent] using this
      · rw [setChannel_oob hn, channelAt_oob hn] at hz; simp [ToneChannel.idle] at hz
    obtain ⟨g, ho⟩ := key
      { channelAt n s with
        zones := (channelAt n s).zones.filter (!zoneSilent · s)
        groups := (channelAt n s).groups.filter fun g =>
          ((channelAt n s).zones.filter (!zoneSilent · s)).any fun z => groupOfZone (channelAt n s).zoneGroups z = g }
      rfl rfl rfl
    split
    · have g2 := g.trans ((endRequest_shrinks n .cutShort _).trans (.of_zonePart (t := updateWake _) rfl))
      exact ⟨h.shrink g2, ho.shrink ((endRequest_shrinks n .cutShort _).trans (.of_zonePart (t := updateWake _) rfl)), g2⟩
    · have g1 (u : State) : Shrinks u (updateWake (wakingTest n (updateWake u))) :=
        Shrinks.trans (t := updateWake u) (.of_zonePart rfl) ((wakingTest_shrinks n _).trans (.of_zonePart rfl))
      exact ⟨h.shrink (g.trans (g1 _)), ho.shrink (g1 _), g.trans (g1 _)⟩
  · rename_i hc
    refine ⟨h, fun z p hz hp hlt => ?_, Shrinks.refl s⟩
    by_cases hst : (channelAt n s).state = .waking ∨ (channelAt n s).state = .playing
    · have hp0 : (channelAt n s).priority.getD 0 < overridePriority := by rw [hp]; exact hlt
      have hk : (channelAt n s).zones.filter (!zoneSilent · s) = (channelAt n s).zones := by
        by_contra hk; exact hc ⟨hst, hp0, hk⟩
      rw [← hk] at hz
      have := (List.mem_filter.1 hz).2
      simpa [zoneSilent] using this
    · have : (channelAt n s).zones = [] := h.2.2 n (by cases e : (channelAt n s).state <;> simp [e] at hst ⊢)
      rw [this] at hz; simp at hz

theorem releaseAllSilent_owned {s : State} (h : ZonesExclusive s) : ZonesOwned (releaseAllSilent s).1 := by
  have main (l : List Nat) (r : State × Bool) (done : Nat → Prop) (hr : ZonesExclusive r.1) (hd : ∀ n, done n → HeardOnly n r.1) :
      let t := l.foldl (fun r n => let x := releaseSilent n r.1; (x.1, x.2 || r.2)) r
      ZonesExclusive t.1 ∧ ∀ n, done n ∨ n ∈ l → HeardOnly n t.1 := by
    induction l generalizing r done with
    | nil => exact ⟨hr, fun n hn => hd n (by simpa using hn)⟩
    | cons k t ih =>
      obtain ⟨s1, s2, s3⟩ := releaseSilent_spec k hr
      have := ih ((releaseSilent k r.1).1, (releaseSilent k r.1).2 || r.2) (fun n => done n ∨ n = k) s1 fun n hn => by
        rcases hn with e | e
        · exact (hd n e).shrink s3
        · exact e ▸ s2
      refine ⟨this.1, fun n hn => this.2 n ?_⟩
      rcases hn with e | e
      · exact .inl (.inl e)
      · rcases List.mem_cons.1 e with e | e
        · exact .inl (.inr e)
        · exact .inr e
  have m := main channelNumbers (s, false) (fun _ => False) h (by simp)
  unfold releaseAllSilent
  dsimp only at m ⊢
  generalize channelNumbers.foldl _ _ = r at m ⊢
  refine zonesOwned_iff.2 ⟨m.1, fun n => ?_⟩
  by_cases hn : n < 4
  · exact m.2 n (.inr (mem_channelNumbers.2 hn))
  · intro z p hz
    rw [channelAt_oob (by rw [m.1.1]; omega)] at hz
    simp [ToneChannel.idle] at hz

theorem releaseSilent_kept (n : Nat) {a s : State} (h : Kept a s) : Kept a (releaseSilent n s).1 := by
  unfold releaseSilent
  dsimp only
  split
  · rename_i hc
    have h1 (c' : ToneChannel) (e1 : ∀ z ∈ c'.zones, z ∈ (channelAt n s).zones) (e2 : c'.priority = (channelAt n s).priority)
        (e3 : c'.state = (channelAt n s).state) : Kept a (setChannel n c' s) :=
      setChannel_kept n c' (fun _ => ⟨e1, .inl e2, fun h2 => by
        rw [e3] at h2; rcases hc.1 with e | e <;> rw [e] at h2 <;> simp at h2⟩) h
    split
    · exact updateWake_kept (stopChannel_kept _ _ (h1 _ (fun z hz => (List.mem_filter.1 hz).1) rfl rfl))
    · exact updateWake_kept (wakingTest_kept _ (updateWake_kept (h1 _ (fun z hz => (List.mem_filter.1 hz).1) rfl rfl)))
  · exact h

/-- The zones after a change of the quiet set or of the mutes (R90): `s` is the state before, `t` the one with the new levels. -/
theorem silenceChanged_kept {a s t : State} (old : State) (h : Kept a s)
    (e : (t.pending, t.office, t.power, t.store, t.attention, t.roll, t.chime, t.notices, t.day, t.sweep) =
      (s.pending, s.office, s.power, s.store, s.attention, s.roll, s.chime, s.notices, s.day, s.sweep)) :
    Kept a (silenceChanged old t) := by
  simp only [Prod.mk.injEq] at e
  obtain ⟨e1, e2, e3, e4, e5, e6, e7, e8, e9, e10⟩ := e
  refine examineIf_kept _ (h.trans ?_)
  have k : Kept t (releaseAllSilent t).1 := foldPair_kept (fun n s => releaseSilent_kept n (Kept.refl s)) _ (Kept.refl t)
  refine ⟨k.pending.trans e1, k.office.trans e2, k.power.trans e3, k.store.trans e4, fun x => k.attention ?_,
    fun x => k.roll (x.congr (by rw [e6]) (by rw [e6])), fun x => releaseAllSilent_owned ?_,
    fun r n => k.notices (r.congr (by rw [e6]) (by rw [e6])) (n.congr (by unfold noticePart; rw [e4, e6, e8, e9, e10]))⟩
  · unfold AttentionOk at *; rw [e5]; exact x
  · have hc (n : Nat) : channelAt n t = channelAt n s := channelAt_congr (by rw [e7]) n
    unfold ZonesExclusive
    simp only [hc, e7]
    exact ⟨x.1, x.2.1, x.2.2.1⟩

end Sys2Proof.Machine
end

