-- ==== Sys2Proof/Laws/ChimeFrame.lean ====
section
/-! SUPPORT. What the Chime Unit's operations leave alone: everything but the channels, the Wait List, the last-outcome records,
the awake-since times, the entries of Today's Plan (their outcomes) and the attention sources. -/

namespace Sys2Proof.Machine

/-- What the Chime Unit's operations leave alone. -/
def chimeRest (s : State) :=
  ((s.time, s.day, s.plan.banks, s.plan.today.source, s.plan.today.header, s.plan.today.copyNumber, s.roll, s.sweep),
    (s.chime.patterns, s.zone.mutes, s.zone.quietLatch, s.zone.buttonLatch, s.zone.press, s.line, s.notices, s.gateway),
    s.office, s.settings, s.limits, s.store, s.power, s.pins, s.pending)

theorem report_rest (g : Origin) (p : PatternRef) (o : ChimeOutcome) (s : State) : chimeRest (report g p o s) = chimeRest s := by
  unfold report
  split
  · unfold writeOutcome
    split
    · rfl
    · dsimp only
      split <;> rfl
  · split <;> rfl
  · split <;> rfl

theorem setChannel_rest (n : Nat) (c : ToneChannel) (s : State) : chimeRest (setChannel n c s) = chimeRest s := rfl
theorem updateWake_rest (s : State) : chimeRest (updateWake s) = chimeRest s := rfl
theorem setWaits_rest (l : List WaitEntry) (s : State) : chimeRest (setWaits l s) = chimeRest s := rfl

theorem endRequest_rest (n : Nat) (o : ChimeOutcome) (s : State) : chimeRest (endRequest n o s) = chimeRest s := by
  unfold endRequest
  dsimp only
  split
  · rw [report_rest, setChannel_rest]
  · rfl

theorem stopChannel_rest (n : Nat) (o : ChimeOutcome) (s : State) : chimeRest (stopChannel n o s) = chimeRest s :=
  endRequest_rest n o s

theorem endPattern_rest (n : Nat) (s : State) : chimeRest (endPattern n s) = chimeRest s := endRequest_rest n _ s

theorem playFrom_rest (n i : Nat) (s : State) : chimeRest (playFrom n i s) = chimeRest s := by
  unfold playFrom
  dsimp only
  repeat' split
  all_goals first | rfl | rw [endPattern_rest, setChannel_rest]

theorem wakingTest_rest (n : Nat) (s : State) : chimeRest (wakingTest n s) = chimeRest s := by
  unfold wakingTest
  dsimp only
  repeat' split
  · rfl
  · rw [playFrom_rest, setChannel_rest]
  · rfl

theorem startOn_rest (n : Nat) (r : ChimeRequest) (z : List Nat) (s : State) : chimeRest (startOn n r z s) = chimeRest s := by
  unfold startOn
  rw [wakingTest_rest, updateWake_rest, report_rest, setChannel_rest]

theorem foldl_rest {α : Type} {f : State → α → State} (hf : ∀ s x, chimeRest (f s x) = chimeRest s) (l : List α) (s : State) :
    chimeRest (l.foldl f s) = chimeRest s := by
  induction l generalizing s with
  | nil => rfl
  | cons x t ih => exact (ih _).trans (hf s x)

theorem tryRequest_rest {r : ChimeRequest} {z : List Nat} {s : State} {t : State × Nat × Bool} (h : tryRequest r z s = some t) :
    chimeRest t.1 = chimeRest s := by
  unfold tryRequest at h
  split at h
  · simp at h
  · simp only [Option.some.injEq] at h
    subst h
    dsimp only
    rw [startOn_rest, foldl_rest fun s m => stopChannel_rest m _ s]

theorem examineEntries_rest (l : List WaitEntry) (s : State) : chimeRest (examineEntries l s).2.1 = chimeRest s := by
  induction l generalizing s with
  | nil => rfl
  | cons e t ih =>
    unfold examineEntries
    split
    · rw [ih, report_rest]
    · dsimp only
      split
      · exact ih s
      · rename_i h
        dsimp only
        split at h
        · simp at h
        · rw [ih, tryRequest_rest h]

theorem examineFuel_rest (n : Nat) (s : State) : chimeRest (examineFuel n s) = chimeRest s := by
  induction n generalizing s with
  | zero => rfl
  | succ n ih =>
    unfold examineFuel
    dsimp only
    split
    · rw [ih, setWaits_rest, examineEntries_rest]
    · rw [setWaits_rest, examineEntries_rest]

theorem examine_rest (s : State) : chimeRest (examine s) = chimeRest s := examineFuel_rest _ s

theorem examineIf_rest (b : Bool) (s : State) : chimeRest (examineIf b s) = chimeRest s := by
  unfold examineIf; split
  · exact examine_rest s
  · rfl

theorem joinWait_rest (r : ChimeRequest) (s : State) : chimeRest (joinWait r s).1 = chimeRest s := by
  unfold joinWait
  dsimp only
  repeat' split
  all_goals dsimp only; simp only [report_rest, setWaits_rest]

theorem decideRequest_rest (r : ChimeRequest) (s : State) : chimeRest (decideRequest r s).1 = chimeRest s := by
  unfold decideRequest
  split
  · exact report_rest _ _ _ s
  · dsimp only
    split
    · exact report_rest _ _ _ s
    · split
      · rename_i h
        dsimp only
        rw [examineIf_rest, tryRequest_rest h]
      · exact joinWait_rest _ _

theorem releaseSilent_rest (n : Nat) (s : State) : chimeRest (releaseSilent n s).1 = chimeRest s := by
  unfold releaseSilent
  dsimp only
  split
  · dsimp only
    split
    · rw [updateWake_rest, stopChannel_rest, setChannel_rest]
    · rw [updateWake_rest, wakingTest_rest, updateWake_rest, setChannel_rest]
  · rfl

theorem foldPair_rest {f : Nat → State → State × Bool} (hf : ∀ n s, chimeRest (f n s).1 = chimeRest s) (l : List Nat)
    (r : State × Bool) :
    chimeRest (l.foldl (fun r n => let x := f n r.1; (x.1, x.2 || r.2)) r).1 = chimeRest r.1 := by
  induction l generalizing r with
  | nil => rfl
  | cons n t ih => exact (ih _).trans (hf n r.1)

theorem releaseAllSilent_rest (s : State) : chimeRest (releaseAllSilent s).1 = chimeRest s :=
  foldPair_rest releaseSilent_rest channelNumbers (s, false)

theorem silenceChanged_rest (old s : State) : chimeRest (silenceChanged old s) = chimeRest s := by
  unfold silenceChanged
  dsimp only
  rw [examineIf_rest, releaseAllSilent_rest]

theorem tailEnds_rest (n : Nat) (s : State) : chimeRest (tailEnds n s) = chimeRest s := by
  unfold tailEnds
  rw [examine_rest, updateWake_rest, setChannel_rest]

theorem dropWaits_rest (s : State) : chimeRest (dropWaits s) = chimeRest s := by
  unfold dropWaits
  rw [foldl_rest fun s e => report_rest _ _ _ s, setWaits_rest]

theorem releaseChannel_rest (n : Nat) (s : State) : chimeRest (releaseChannel n s).1 = chimeRest s := by
  unfold releaseChannel
  dsimp only
  repeat' split
  · rw [updateWake_rest, endPattern_rest]
  · rfl
  · rfl
  · rfl

theorem releaseButton_rest (s : State) : chimeRest (releaseButton s) = chimeRest s := by
  unfold releaseButton
  dsimp only
  rw [examineIf_rest, foldPair_rest releaseChannel_rest, foldl_rest fun s e => report_rest _ _ _ s, setWaits_rest]

end Sys2Proof.Machine
end

