-- ==== Sys2Proof/Laws/Exec.lean ====
section
/-! SUPPORT. What `exec` is on a request: the owner's effect with its result handed back (R192; log 1). -/

namespace Sys2Proof.Machine

/-- A request is its owner's effect, taken while the part is not held. -/
theorem exec_of_request {c : Instr} {f : State → State × Reply} (h : requestEffect c = some f) (s : State) :
    exec c s = request f s := by
  cases c <;> simp only [requestEffect, Option.some.injEq, reduceCtorEq] at h <;> subst h <;> rfl

/-- A request while the part is not held. -/
theorem request_next {s : State} (h : s.power.held = false) (f : State → State × Reply) :
    request f s = .next (replied (f s).2 (f s).1) := by
  unfold request event
  rw [h]; rfl

/-- An event while the part is not held. -/
theorem event_next {s : State} (h : s.power.held = false) (f : State → State) : event f s = .next (f s) := by
  unfold event
  rw [h]; rfl

/-- Nothing but the clock, the starts and the loss of the backup domain acts while the part is held (R206). -/
theorem event_held {s : State} (h : s.power.held = true) (f : State → State) : event f s = .next s := by
  unfold event
  rw [h]; rfl

end Sys2Proof.Machine
end

