-- ==== Sys2Proof/Laws/Heard.lean ====
section
/-! SUPPORT. The Cut Sweeper hears of each notice that leaves the queue (R145, R153): what a claim, a withdrawal and the Dispatcher's
work, in which no notice joins the queue, do to the sweep. -/

namespace Sys2Proof.Machine

/-- From one state to another no notice joined the queue, and the sweep heard of those that left (R145). -/
structure Heard (s t : State) : Prop where
  shrinks : t.notices.queue.length ≤ s.notices.queue.length
  heard : SweepHeard (NoticeLeft s t) s t

namespace Heard

theorem refl (s : State) : Heard s s := ⟨Nat.le_refl _, by unfold SweepHeard; rw [if_neg fun h => Nat.lt_irrefl _ h.2]⟩

theorem trans {s t u : State} (h : Heard s t) (g : Heard t u) : Heard s u := by
  refine ⟨g.1.trans h.1, ?_⟩
  have h1 := h.1
  have g1 := g.1
  have h2 := h.2
  have g2 := g.2
  unfold SweepHeard NoticeLeft at *
  rw [g2, h2]
  by_cases p : s.sweep.state = .paused
  · by_cases a : t.notices.queue.length < s.notices.queue.length
    · have b : u.notices.queue.length < s.notices.queue.length := by omega
      simp [p, a, b]
    · by_cases b : u.notices.queue.length < t.notices.queue.length
      · have c : u.notices.queue.length < s.notices.queue.length := by omega
        simp [p, a, b, c]
      · have c : ¬u.notices.queue.length < s.notices.queue.length := by omega
        simp [p, a, b, c]
  · simp [p]

/-- A change that touches neither the sweep nor how many notices the queue holds. -/
theorem set {a s t : State} (h : Heard a s) (e : (t.sweep, t.notices.queue.length) = (s.sweep, s.notices.queue.length)) :
    Heard a t := by
  obtain ⟨e1, e2⟩ := Prod.mk.inj e
  refine h.trans ⟨Nat.le_of_eq e2, ?_⟩
  unfold SweepHeard NoticeLeft
  rw [e1, e2, if_neg fun h => Nat.lt_irrefl _ h.2]

theorem ite {a s t : State} {p : Prop} [Decidable p] (h : Heard a s) (g : Heard a t) : Heard a (if p then s else t) := by
  split
  · exact h
  · exact g

theorem foldl {α : Type} {f : State → α → State} (hf : ∀ s x, Heard s (f s x)) {a : State} (l : List α) {s : State}
    (h : Heard a s) : Heard a (l.foldl f s) := by
  induction l generalizing s with
  | nil => exact h
  | cons x t ih => exact ih (h.trans (hf s x))

end Heard

/-- A shorter queue put in place. -/
theorem setQueue_heard {a s : State} {q : List Notice} (hq : q.length ≤ s.notices.queue.length) (h : Heard a s) :
    Heard a (setQueue q s) := by
  refine h.trans ?_
  unfold setQueue sweepResume
  by_cases b : q.length < s.notices.queue.length
  · by_cases p : s.sweep.state = .paused
    · simp only [b, p, if_true]
      exact ⟨hq, by unfold SweepHeard NoticeLeft; simp [b, p]⟩
    · simp only [b, p, if_true, if_false]
      exact ⟨hq, by unfold SweepHeard NoticeLeft; simp [p]⟩
  · simp only [b, if_false]
    exact ⟨hq, by unfold SweepHeard NoticeLeft; simp [b]⟩

theorem withdrawWhere_heard {a s : State} (p : Notice → Bool) (h : Heard a s) : Heard a (withdrawWhere p s) :=
  setQueue_heard (List.length_filterMap_le ..) h

theorem removeNotice_heard {a s : State} (n : Nat) (h : Heard a s) : Heard a (removeNotice n s) :=
  setQueue_heard (List.length_filter_le ..) h

theorem claim_heard {a s : State} (k : Slot) (f : DayPart → DayPart) (h : Heard a s) : Heard a (claim k f s) := by
  unfold claim
  split
  · exact h
  · exact .ite (withdrawWhere_heard _ (h.set rfl)) (h.set rfl)

theorem makeUnreached_heard {a s : State} (src : MarkSource) (k : Slot) (h : Heard a s) : Heard a (makeUnreached src k s) :=
  (claim_heard k _ h).set rfl

theorem exhaust_heard {a s : State} (n : Notice) (k : Slot) (h : Heard a s) : Heard a (exhaust n k s) :=
  .ite (makeUnreached_heard _ k (removeNotice_heard _ h)) ((removeNotice_heard _ h).set rfl)

theorem updateNotice_heard {a s : State} (n : Nat) (f : Notice → Notice) (h : Heard a s) : Heard a (updateNotice n f s) :=
  h.set (by unfold updateNotice; simp)

theorem updateBroadcast_heard {a s : State} (n : Nat) (f : BroadcastState → BroadcastState) (h : Heard a s) :
    Heard a (updateBroadcast n f s) := updateNotice_heard n _ h

theorem sendPupilNotice_heard {a s : State} (n : Notice) (k : Slot) (i : Nat) (h : Heard a s) :
    Heard a (sendPupilNotice n k i s) := by
  unfold sendPupilNotice
  split
  · exact exhaust_heard n k h
  · split
    · exact exhaust_heard n k h
    · exact (updateNotice_heard _ _ h).set rfl

theorem sendStep_heard {a s : State} (n : Notice) (k : Slot) (i : Nat) (h : Heard a s) : Heard a (sendStep n k i s) := by
  unfold sendStep
  split
  · exact h
  · split
    · exact h
    · exact (updateBroadcast_heard _ _ h).set rfl

theorem sendBroadcast_heard {a s : State} (n : Notice) (b : BroadcastState) (h : Heard a s) : Heard a (sendBroadcast n b s) := by
  unfold sendBroadcast
  split
  · exact sendStep_heard n _ _ (updateBroadcast_heard _ _ h)
  · split
    · exact h
    · exact sendStep_heard n _ _ (updateBroadcast_heard _ _ h)

theorem finishBroadcast_heard {a s : State} (n : Notice) (h : Heard a s) : Heard a (finishBroadcast s n) := by
  unfold finishBroadcast
  split
  · exact h
  · exact .ite h ((removeNotice_heard n.number h).set rfl)

theorem finishBroadcasts_heard {a s : State} (h : Heard a s) : Heard a (finishBroadcasts s) :=
  .foldl (fun s n => finishBroadcast_heard n (.refl s)) _ h

theorem chooseOnce_heard {a s t : State} (h : Heard a s) (e : chooseOnce s = some t) : Heard a t := by
  unfold chooseOnce at e
  split at e
  · split at e
    · nomatch e
    · split at e
      · cases e; exact sendPupilNotice_heard _ _ _ h
      · cases e; exact finishBroadcasts_heard (sendBroadcast_heard _ _ h)
  · nomatch e

theorem choose_heard {a s : State} (h : Heard a s) : Heard a (choose s) := by
  unfold choose
  generalize 1024 = k
  induction k generalizing s with
  | zero => exact h
  | succ k ih =>
    unfold chooseFuel
    split
    · exact h
    · rename_i e
      exact ih (chooseOnce_heard h e)

theorem testDeadline_heard {a s : State} (n : Notice) (h : Heard a s) : Heard a (testDeadline s n) := by
  unfold testDeadline
  refine .ite h ?_
  split
  · exact .ite h (exhaust_heard n _ h)
  · exact .ite h (updateBroadcast_heard _ _ h)

/-- The Dispatcher's work: a PAUSED sweep is RUNNING after it where a notice left (R145). -/
theorem settle_heard {a s : State} (h : Heard a s) : Heard a (settle s) :=
  choose_heard (finishBroadcasts_heard (.foldl (fun s n => testDeadline_heard n (.refl s)) _ h))

theorem returnSend_heard {a s : State} (key : SendKey) (h : Heard a s) : Heard a (returnSend key s) := by
  unfold returnSend
  split
  · exact h
  · split
    · exact .ite h (updateBroadcast_heard _ _ h)
    · exact .ite (removeNotice_heard _ h) (updateNotice_heard _ _ h)

theorem failSend_heard {a s : State} (key : SendKey) (h : Heard a s) : Heard a (failSend key s) := by
  unfold failSend
  split
  · exact h
  · split
    · exact updateBroadcast_heard _ _ h
    · exact .ite (removeNotice_heard _ h) (.ite (updateNotice_heard _ _ h) (exhaust_heard _ _ h))

theorem dropReturned_heard {a s : State} (gone : Slot → Bool) (h : Heard a s) : Heard a (dropReturned gone s) :=
  h.set (by unfold dropReturned; simp)

/-- What the roll and the notices lose with the pupils of a set of slots (R1, R9). -/
theorem forgetSlots_heard {a s : State} (gone : Slot → Bool) (h : Heard a s) : Heard a (forgetSlots gone s) :=
  dropReturned_heard gone (withdrawWhere_heard _ (h.set rfl))

end Sys2Proof.Machine
end

