-- ==== Sys2Proof/Laws/KeptSends.lean ====
section
/-! SUPPORT. The Notice Dispatcher and the school day keep what `Kept` says. -/

namespace Sys2Proof.Machine

/-! ### The Notice Dispatcher -/

theorem exhaust_kept {a s : State} (n : Notice) (k : Slot) (hn : RollOk a → NoticesOk a → Named n s)
    (hk : ∃ i, n.addressee = .pupil k i) (hu : RollOk a → NoticesOk a → Unsent n.number s) (h : Kept a s) :
    Kept a (exhaust n k s) := by
  unfold exhaust
  dsimp only
  split
  · refine (makeUnreached_kept _ k (removeOwing_kept n.number hu h)).mono fun r x j _ y => ?_
    obtain ⟨y, hj⟩ := y
    obtain ⟨m, hm, e1, e2⟩ := y.resolve_left id
    have e3 := ((hn r x) m hm e2).2.1 j
    rw [(isAbsentOf_iff.1 e1).2.1] at e3
    obtain ⟨i, hi⟩ := isTo_iff.1 e3.symm
    obtain ⟨l, hl⟩ := hk
    rw [hi] at hl; cases hl
    exact hj rfl
  · rename_i hkind
    exact raise_kept _ _ (removeNotice_kept _ hu (fun r x m hm e => .inl (((hn r x) m hm e).1 ▸ hkind)) h)

theorem sendPupilNotice_kept {a s : State} (n : Notice) (k : Slot) (i : Nat)
    (hn : RollOk a → NoticesOk a → n ∈ s.notices.queue ∧ s.notices.window.length < 4) (hk : n.addressee = .pupil k i)
    (hw : n.inWindow = false) (h : Kept a s) : Kept a (sendPupilNotice n k i s) := by
  have hx : RollOk a → NoticesOk a → Named n s := fun r x => (h.notices r x).named (hn r x).1
  have hu : RollOk a → NoticesOk a → Unsent n.number s := fun r x => (h.notices r x).unsent (hx r x) (isPupil_iff.2 ⟨k, i, hk⟩) hw
  unfold sendPupilNotice
  split
  · exact exhaust_kept _ _ hx ⟨i, hk⟩ hu h
  · split
    · exact exhaust_kept _ _ hx ⟨i, hk⟩ hu h
    · refine issueSend_kept _ _ _ _ _ (fun r x => ⟨⟨(hn r x).2, fun m hm e b hb => ?_⟩, { n with inWindow := true },
          List.mem_map.2 ⟨n, (hn r x).1, if_pos rfl⟩, rfl, fun j l hj => ?_⟩)
        (updateNotice_kept _ _ (fun _ _ m _ _ =>
          ⟨⟨rfl, rfl, fun _ => rfl, id, fun _ _ _ _ _ => rfl⟩, fun _ => rfl, .of_eq rfl,
            fun _ _ e => e.congr rfl fun _ _ hj => ⟨hj, fun _ => rfl⟩⟩) h)
      · obtain ⟨y, hy, ey⟩ := List.mem_map.1 hm
        split at ey
        · rename_i hyn
          rw [(h.notices r x).unique (hn r x).1 hy hyn] at ey
          subst ey; rw [hk] at hb; cases hb
        · rename_i hyn
          subst ey; exact absurd e hyn
      · rw [hk] at hj; cases hj
        exact ⟨rfl, rfl, rfl, hu r x⟩

/-- A broadcast of the number stands in the queue. -/
def Broadcasts (number : Nat) (s : State) : Prop := ∃ m ∈ s.notices.queue, m.number = number ∧ ∃ b, m.addressee = .broadcast b

theorem Broadcasts.updateBroadcast {number n : Nat} {f : BroadcastState → BroadcastState} {s : State} (h : Broadcasts number s) :
    Broadcasts number (updateBroadcast n f s) := by
  obtain ⟨m, hm, e, b, hb⟩ := h
  refine ⟨_, List.mem_map.2 ⟨m, hm, rfl⟩, ?_⟩
  split
  · dsimp only; rw [hb]; exact ⟨e, f b, rfl⟩
  · exact ⟨e, b, hb⟩

theorem Broadcasts.issues {number : Nat} {k : Slot} {i : Nat} {s : State} (h : Broadcasts number s) : Issues number k i s := by
  obtain ⟨m, hm, e, b, hb⟩ := h
  exact ⟨m, hm, e, fun j l hj => by rw [hb] at hj; cases hj⟩

theorem sendStep_kept {a s : State} (n : Notice) (k : Slot) (i : Nat)
    (hp : RollOk a → NoticesOk a → HasPlace n.number s ∧ Broadcasts n.number s) (h : Kept a s) : Kept a (sendStep n k i s) := by
  unfold sendStep
  split
  · exact h
  · split
    · exact h
    · exact issueSend_kept _ _ _ _ _ (fun r x =>
        ⟨(hp r x).1.updateBroadcast fun _ => Nat.le_refl _, (hp r x).2.updateBroadcast.issues⟩)
        (updateBroadcast_kept _ _ (fun _ _ _ _ _ _ _ => Nat.le_refl _) h)

theorem sendBroadcast_kept {a s : State} (n : Notice) (b : BroadcastState)
    (hn : RollOk a → NoticesOk a → n ∈ s.notices.queue ∧ s.notices.window.length < 4) (hb : n.addressee = .broadcast b) (h : Kept a s) :
    Kept a (sendBroadcast n b s) := by
  have one (r : RollOk a) (x : NoticesOk a) {m : Notice} (hm : m ∈ s.notices.queue) (e : m.number = n.number) {c : BroadcastState}
      (hc : m.addressee = .broadcast c) : c = b := by
    rw [(h.notices r x).unique (hn r x).1 hm e, hb] at hc
    cases hc; rfl
  unfold sendBroadcast
  split
  · rename_i k i rest hr
    refine sendStep_kept _ _ _
      (fun r x => ⟨⟨(hn r x).2, fun m hm e c hc => ?_⟩, Broadcasts.updateBroadcast ⟨n, (hn r x).1, rfl, b, hb⟩⟩)
      (updateBroadcast_kept _ _ (fun r x m hm e c hc => by rw [one r x hm e hc, hr]; simp) h)
    have hs := (h.notices r x).steps n (hn r x).1 b hb
    obtain ⟨y, hy, ey⟩ := List.mem_map.1 hm
    split at ey
    · rename_i hyn
      have := (h.notices r x).unique (hn r x).1 hy hyn
      subst this
      dsimp only at ey
      rw [hb] at ey; subst ey; cases hc
      rw [hr] at hs
      simp only [List.length_cons] at hs
      show rest.length + s.notices.window.countP _ < 4
      omega
    · rename_i hyn
      subst ey; exact absurd e hyn
  · rename_i hr
    split
    · exact h
    · rename_i k i _
      refine sendStep_kept _ _ _ (fun r x => ⟨HasPlace.updateBroadcast ⟨(hn r x).2, fun m hm e c hc => ?_⟩ fun c => ?_,
          Broadcasts.updateBroadcast ⟨n, (hn r x).1, rfl, b, hb⟩⟩)
        (updateBroadcast_kept _ _ (fun _ _ _ _ _ c _ => ?_) h)
      · rw [one r x hm e hc, hr]
        exact Nat.lt_of_le_of_lt (by simpa using List.countP_le_length) (hn r x).2
      all_goals unfold pastStep; split <;> exact Nat.le_refl _

theorem endBroadcast_kept {a s : State} (n : Notice) (b : BroadcastState) (hn : RollOk a → NoticesOk a → Named n s)
    (hb : n.addressee = .broadcast b) (hu : Unsent n.number s) (h : Kept a s) : Kept a (endBroadcast n b s) := by
  refine raise_kept _ _ ((removeNotice_kept _ (fun _ _ => hu) (fun r x m hm e => .inl fun hk => ?_) h).set rfl)
  obtain ⟨k, i, hi⟩ := ((h.notices r x).addressed m hm).toPupil (by simp [hk]) (by simp [hk])
  have := ((hn r x) m hm e).2.1 k
  rw [isTo_iff.2 ⟨i, hi⟩] at this
  obtain ⟨l, hl⟩ := isTo_iff.1 this.symm
  rw [hb] at hl; cases hl

theorem finishBroadcast_kept {a s : State} (n : Notice) (hn : RollOk a → NoticesOk a → Named n s) (h : Kept a s) :
    Kept a (finishBroadcast s n) := by
  unfold finishBroadcast
  split
  · exact h
  · rename_i b hb
    split
    · exact h
    · rename_i hs
      simp only [Bool.or_eq_true, not_or, Bool.not_eq_true] at hs
      exact endBroadcast_kept _ _ hn hb (fun x hx => by simpa using List.any_eq_false.1 hs.2 x hx) h

theorem finishBroadcast_from (s : State) (n : Notice) : QueueFrom s (finishBroadcast s n) := by
  unfold finishBroadcast
  split
  · exact .refl s
  · split
    · exact .refl s
    · exact (removeNotice_from _ _).trans (.of_eq rfl)

theorem finishBroadcasts_kept {a s : State} (h : Kept a s) : Kept a (finishBroadcasts s) :=
  Kept.foldlNotices finishBroadcast_from (fun _ hn h => finishBroadcast_kept _ hn h) _
    (fun r x _ hn => (h.notices r x).named hn) h

theorem bestCandidate_mem {s : State} {l : List Notice} {n : Notice} (h : bestCandidate s l = some n) :
    n ∈ l ∧ isCandidate s n = true := by
  induction l generalizing n with
  | nil => simp [bestCandidate] at h
  | cons x t ih =>
    simp only [bestCandidate] at h
    split at h
    · split at h
      · rename_i hc; cases h; exact ⟨List.mem_cons_self, hc⟩
      · cases h
    · rename_i m hm
      split at h
      · rename_i hc; cases h; exact ⟨List.mem_cons_self, (Bool.and_eq_true _ _ ▸ hc).1⟩
      · cases h; exact ⟨List.mem_cons_of_mem _ (ih hm).1, (ih hm).2⟩

theorem chooseOnce_kept {a s t : State} (h : Kept a s) (e : chooseOnce s = some t) : Kept a t := by
  unfold chooseOnce at e
  split at e
  · rename_i hw
    split at e
    · simp at e
    · rename_i n hb
      have hn : RollOk a → NoticesOk a → n ∈ s.notices.queue ∧ s.notices.window.length < 4 :=
        fun _ _ => ⟨(bestCandidate_mem hb).1, hw.1⟩
      split at e <;> (rename_i ha; simp only [Option.some.injEq] at e; subst e)
      · have hc := (bestCandidate_mem hb).2
        simp only [isCandidate, ha, Bool.and_eq_true, Bool.not_eq_true'] at hc
        exact sendPupilNotice_kept _ _ _ hn ha hc.2 h
      · exact finishBroadcasts_kept (sendBroadcast_kept _ _ hn ha h)
  · simp at e

theorem choose_kept {a s : State} (h : Kept a s) : Kept a (choose s) := by
  unfold choose
  generalize 1024 = fuel
  induction fuel generalizing s with
  | zero => exact h
  | succ fuel ih =>
    unfold chooseFuel
    split
    · exact h
    · rename_i e; exact ih (chooseOnce_kept h e)

theorem testDeadline_kept {a s : State} (n : Notice) (hn : RollOk a → NoticesOk a → Named n s) (h : Kept a s) :
    Kept a (testDeadline s n) := by
  unfold testDeadline
  split
  · exact h
  · split
    · rename_i hk
      split
      · exact h
      · rename_i hw
        exact exhaust_kept _ _ hn ⟨_, hk⟩
          (fun r x => (h.notices r x).unsent (hn r x) (isPupil_iff.2 ⟨_, _, hk⟩) (by simpa using hw)) h
    · exact Kept.ite h (updateBroadcast_kept _ _ (fun _ _ _ _ _ _ _ => Nat.zero_le _) h)

theorem testDeadline_from (s : State) (n : Notice) : QueueFrom s (testDeadline s n) := by
  unfold testDeadline
  split
  · exact .refl s
  · split
    · split
      · exact .refl s
      · exact exhaust_from _ _ s
    · split
      · exact .refl s
      · exact updateBroadcast_from _ _ s

theorem settle_kept {a s : State} (h : Kept a s) : Kept a (settle s) :=
  choose_kept (finishBroadcasts_kept (Kept.foldlNotices testDeadline_from (fun _ hn h => testDeadline_kept _ hn h) _
    (fun r x _ hn => (h.notices r x).named hn) h))

/-! ### Results of sends -/

theorem noticeAt_mem {number : Nat} {s : State} {n : Notice} (h : noticeAt number s = some n) :
    n ∈ s.notices.queue ∧ n.number = number :=
  ⟨List.mem_of_find?_eq_some h, by simpa using List.find?_some h⟩

theorem claim_length (k : Slot) (f : DayPart → DayPart) (s : State) :
    (claim k f s).notices.queue.length ≤ s.notices.queue.length := by
  unfold claim
  split
  · exact Nat.le_refl _
  · dsimp only
    split
    · rw [show (withdrawWhere _ _).notices.queue = _ from (setQueue_parts _ _).1]
      exact List.length_filterMap_le _ _
    · exact Nat.le_refl _

theorem removeNotice_length {number : Nat} {s : State} {n : Notice} (hn : n ∈ s.notices.queue) (e : n.number = number) :
    (removeNotice number s).notices.queue.length < s.notices.queue.length := by
  rw [show (removeNotice number s).notices.queue = _ from (setQueue_parts _ _).1]
  exact List.length_filter_lt_length_iff_exists.2 ⟨n, hn, by simp [e]⟩

theorem correctArrival_kept {a s : State} (k : Slot) (i : Nat)
    (hl : RollOk a → NoticesOk a → s.notices.queue.length < 128) (h : Kept a s) : Kept a (correctArrival k i s) := by
  have h1 : Kept a (claim k (fun d => { d with asked := some i }) s) := claimSafe_kept _ _ (fun _ _ _ _ => ⟨id, id⟩) h
  have h2 := h1.setNotices (E := fun _ => False) (setQueue_rest ((claim k (fun d => { d with asked := some i }) s).notices.queue.filter
      fun n => !(n.kind = .late && n.isTo k && !n.inWindow)) (claim k (fun d => { d with asked := some i }) s)) fun r x =>
    ((h1.notices r x).filter _ fun n _ y _ (e : n.Sends y) => by
      cases c : n.isTo k
      · simp
      · obtain ⟨l, hl⟩ := isTo_iff.1 c
        simp [(e.2 k l hl).1]).mono fun j _ y => y.resolve_right fun ⟨n, _, e1, e2⟩ => by
      have := (isAbsentOf_iff.1 e1).1
      simp [this] at e2
  refine addNotice_kept _ _ _ (by simp) (fun b hb => by cases hb) (by simp [Addresses]) (fun r x => ?_) h2
  rw [(setQueue_parts _ _).1]
  exact Nat.lt_of_le_of_lt (List.length_filter_le _ _) (Nat.lt_of_le_of_lt (claim_length _ _ _) (hl r x))

theorem failSend_kept {a s : State} (key : SendKey) (hu : RollOk a → NoticesOk a → Spent key.number s) (h : Kept a s) : Kept a (failSend key s) := by
  unfold failSend
  split
  · exact h
  · rename_i n hn
    obtain ⟨hm, hnum⟩ := noticeAt_mem hn
    have one : RollOk a → NoticesOk a → ∀ m ∈ s.notices.queue, m.number = n.number → m = n :=
      fun r x m hm' e => (h.notices r x).unique hm hm' e
    have un {k : Slot} {i : Nat} (ha : n.addressee = .pupil k i) (r : RollOk a) (x : NoticesOk a) : Unsent n.number s :=
      hu r x n hm hnum (isPupil_iff.2 ⟨k, i, ha⟩)
    split
    · exact updateBroadcast_kept _ _ (fun _ _ _ _ _ _ _ => Nat.le_refl _) h
    · rename_i k i ha
      split
      · rename_i hc
        exact removeNotice_kept _ (un ha) (fun r x m hm' e => .inr (one r x m hm' e ▸ hc)) h
      · rename_i hc
        refine Kept.ite (updateNotice_kept _ _ (fun r x m hm' e => ?_) h)
          (exhaust_kept _ _ (fun r x => (h.notices r x).named hm) ⟨_, ha⟩ (un ha) h)
        rw [one r x m hm' e]
        exact ⟨⟨rfl, rfl, fun j => by simp [Notice.isTo, ha], id, fun _ _ _ _ hc' => absurd hc' hc⟩, fun _ => rfl,
          (fun c hc' => by cases hc'), fun y hy (e' : Notice.Sends _ y) => absurd e'.1.symm (un ha r x y hy)⟩

theorem returnSend_kept {a s : State} (key : SendKey)
    (hp : RollOk a → NoticesOk a → HasPlace key.number s ∧ Spent key.number s) (h : Kept a s) :
    Kept a (returnSend key s) := by
  unfold returnSend
  split
  · exact h
  · rename_i n hn
    obtain ⟨hm, hnum⟩ := noticeAt_mem hn
    have one : RollOk a → NoticesOk a → ∀ m ∈ s.notices.queue, m.number = n.number → m = n :=
      fun r x m hm' e => (h.notices r x).unique hm hm' e
    split
    · rename_i b ha
      refine Kept.ite h ?_
      refine h.setNotices rfl fun r x => ?_
      have hx := h.notices r x
      refine hx.mapQueue (fun m => if m.number = n.number then ofBroadcast _ m else m) rfl (fun m _ => ?_) (fun m _ hk => ?_)
        (fun m hm' c hc => ?_) (fun m _ y _ e => ?_) rfl rfl rfl rfl rfl
      · split
        · exact (ofBroadcast_follows _ m).1
        · exact .refl m
      · split
        · exact (ofBroadcast_follows _ m).2.1 hk
        · rfl
      · split at hc
        · rename_i e
          obtain ⟨d, hd, rfl⟩ := (ofBroadcast_follows _ m).2.2 c hc
          have := (hp r x).1.2 m hm' (e.trans hnum) d hd
          simp only [List.length_append, List.length_singleton]
          rw [e, hnum]; omega
        · exact hx.steps m hm' c hc
      · split
        · exact ofBroadcast_sends _ e
        · exact e
    · rename_i k i ha
      have un (r : RollOk a) (x : NoticesOk a) : Unsent n.number s := (hp r x).2 n hm hnum (isPupil_iff.2 ⟨k, i, ha⟩)
      split
      · rename_i hc
        exact removeNotice_kept _ un (fun r x m hm' e => .inr (one r x m hm' e ▸ hc)) h
      · rename_i hc
        refine updateNotice_kept _ _ (fun r x m hm' e => ?_) h
        rw [one r x m hm' e]
        exact ⟨⟨rfl, rfl, fun _ => rfl, id, fun _ _ _ _ hc' => absurd hc' hc⟩, fun _ => rfl, .of_eq rfl,
          fun y hy e' => absurd e'.1.symm (un r x y hy)⟩

theorem deliverSend_kept {a s : State} (key : SendKey) (hu : RollOk a → NoticesOk a → Spent key.number s) (h : Kept a s) : Kept a (deliverSend key s) := by
  unfold deliverSend
  split
  · exact h
  · rename_i n hn
    obtain ⟨hm, hnum⟩ := noticeAt_mem hn
    have one : RollOk a → NoticesOk a → ∀ m ∈ s.notices.queue, m.number = n.number → m = n :=
      fun r x m hm' e => (h.notices r x).unique hm hm' e
    split
    · exact updateBroadcast_kept _ _ (fun _ _ _ _ _ _ _ => Nat.le_refl _) h
    · rename_i k i ha
      have un (r : RollOk a) (x : NoticesOk a) : Unsent n.number s := hu r x n hm hnum (isPupil_iff.2 ⟨k, i, ha⟩)
      dsimp only
      split
      · rename_i hk
        exact removeNotice_kept _ un (fun r x m hm' e => .inl (one r x m hm' e ▸ hk)) h
      · split
        · rename_i hc
          have h1 : Kept a (removeNotice n.number s) := removeNotice_kept _ un (fun r x m hm' e => .inr (one r x m hm' e ▸ hc)) h
          exact Kept.ite (correctArrival_kept _ _ (fun r x =>
            Nat.lt_of_lt_of_le (removeNotice_length hm rfl) (h.notices r x).length) h1) h1
        · refine (claim_kept k _ (fun _ _ p _ => ?_) (removeOwing_kept n.number un h)).mono fun r x j _ y => ?_
          · unfold SafeDay; split <;> simp_all
          · obtain ⟨y, hmark⟩ := y
            obtain ⟨m, hm', e1, e2⟩ := y.resolve_left id
            rw [one r x m hm' e2] at e1
            obtain ⟨l, hl⟩ := isTo_iff.1 (isAbsentOf_iff.1 e1).2.1
            rw [ha] at hl; cases hl
            rw [markAt_claim_self] at hmark
            cases hp : pupilAt k (removeNotice n.number s) with
            | none => rw [hp] at hmark; simp at hmark
            | some p =>
              rw [hp] at hmark; simp only [Option.map_some, Option.some.injEq] at hmark; split at hmark <;> simp_all

/-! ### The school day -/

theorem abandonSweeps_kept {a s : State} (h : Kept a s) : Kept a (abandonSweeps s) :=
  h.setNotices rfl fun r x => { h.notices r x with sweep := fun e => absurd rfl e }

theorem makeAllUnreached_kept {D : Slot → Prop} {a s : State} (src : MarkSource) (l : List Slot) (h : KeptOwing D a s) :
    KeptOwing (fun j => D j ∧ j ∉ l) a (l.foldl (fun s k => makeUnreached src k s) s) := by
  induction l generalizing s D with
  | nil => exact h.mono fun _ _ _ _ x => ⟨x, by simp⟩
  | cons k t ih =>
    exact (ih (makeUnreached_kept src k h)).mono fun _ _ _ _ x => ⟨x.1.1, by simp [x.1.2, x.2]⟩

theorem makeUnreached_pending {src : MarkSource} {j k : Slot} {s : State} (h : markAt j (makeUnreached src k s) = some .absentPending) :
    markAt j s = some .absentPending := by
  by_cases e : j = k
  · subst e
    rw [show markAt j (makeUnreached src j s) = markAt j (claim j _ s) from rfl, markAt_claim_self] at h
    cases hp : pupilAt j s with
    | none => rw [hp] at h; simp at h
    | some p => rw [hp] at h; simp only [Option.map_some, Option.some.injEq] at h; split at h <;> simp_all
  · rw [show markAt j (makeUnreached src k s) = markAt j (claim k _ s) from rfl, markAt_claim_ne e] at h
    exact h

theorem makeAllUnreached_pending {src : MarkSource} {j : Slot} {l : List Slot} {s : State}
    (h : markAt j (l.foldl (fun s k => makeUnreached src k s) s) = some .absentPending) : markAt j s = some .absentPending := by
  induction l generalizing s with
  | nil => exact h
  | cons k t ih => exact makeUnreached_pending (ih h)

theorem mem_slotsWhere {p : Pupil → Bool} {s : State} {k : Slot} {x : Pupil} (hx : pupilAt k s = some x) (hp : p x = true) :
    k ∈ slotsWhere p s :=
  List.mem_map.2 ⟨(k, x), List.mem_filter.2 ⟨mem_of_tableGet hx, hp⟩, rfl⟩

/-- The day as a close leaves it before the marks follow: CLOSED, the sweeps abandoned, the notices of the day kinds withdrawn. -/
def closing (c : CloseCause) (s : State) : State :=
  withdrawWhere (fun n => isDayKind n.kind) (abandonSweeps { s with day := { s.day with state := .closed, closeCause := some c } })

/-- On a day that closes no ABSENT notice stands, and each ABSENT_PENDING mark is owing. -/
theorem closing_owing {s : State} (c : CloseCause) (h : NoticesOk s) : Owing (fun _ => True) (closing c s) := by
  have w := h.withdrawWhere (fun n => isDayKind n.kind) fun n hn e =>
    isPupil_iff.2 ((h.addressed n hn).toPupil (fun hk => by simp [hk, isDayKind] at e) fun hk => by simp [hk, isDayKind] at e)
  have hq : (closing c s).notices.queue = (withdrawWhere (fun n => isDayKind n.kind) s).notices.queue := by
    unfold closing; rw [withdrawWhere_queue, withdrawWhere_queue]; rfl
  have hw : (closing c s).notices.window = (withdrawWhere (fun n => isDayKind n.kind) s).notices.window :=
    (setQueue_parts _ _).2.1.trans (setQueue_parts _ s).2.1.symm
  have hr : (closing c s).roll.roster = s.roll.roster := by
    rw [show (closing c s).roll = _ from (setQueue_parts _ _).2.2.1]; rfl
  refine ⟨fun k => .inr ⟨?_, fun _ => trivial⟩, ?_, ?_, fun k x hx => ?_, fun e => ?_, fun _ => ?_, ?_, ?_, ?_, ?_, ?_, ?_, ?_⟩
  · rw [hq, withdrawWhere_queue, List.countP_eq_zero]
    intro m hm
    obtain ⟨n, _, e⟩ := List.mem_filterMap.1 hm
    split at e
    · split at e
      · cases e; simp [Notice.isAbsentOf]
      · cases e
    · rename_i hk
      cases e
      intro x
      rw [(isAbsentOf_iff.1 x).1] at hk
      exact hk rfl
  · rw [hq]; exact w.addressed
  · rw [hq]; exact w.cancel
  · rw [pupilAt_congr hr] at hx; exact h.held k x hx
  · exact absurd rfl (setQueue_idle e)
  · rw [show (closing c s).day = _ from (setQueue_parts _ _).2.2.2.1]; rfl
  · rw [hq]; exact w.length
  · rw [hq]; exact w.few
  · rw [hq]; exact w.numbers
  · rw [hw]; exact w.window
  · rw [hq, hw]; exact w.sends
  · rw [hq, hw]; exact w.once
  · rw [hq, hw]; exact w.steps

theorem closeDayNow_kept {a s : State} (c : CloseCause) (h : Kept a s) : Kept a (closeDayNow c s) := by
  have h2 : KeptOwing (fun _ => True) a (closing c s) :=
    h.setNotices ((setQueue_rest _ _).trans rfl) fun r x => closing_owing c (h.notices r x)
  refine (raise_kept .day none (makeAllUnreached_kept .notice (slotsWhere (·.day.mark = .absentPending) (closing c s)) h2)).mono
    fun _ _ j hm x => ?_
  have hj : markAt j (closing c s) = some .absentPending := makeAllUnreached_pending hm
  unfold markAt at hj
  cases hp : pupilAt j (closing c s) with
  | none => rw [hp] at hj; cases hj
  | some p =>
    rw [hp] at hj
    exact x.2 (mem_slotsWhere hp (by simpa using hj))

theorem applyRoll_kept {a s : State} (e : BankEntry) (ho : s.day.state = .open_) (h : Kept a s) : Kept a (applyRoll e s) := by
  unfold applyRoll
  split
  · exact h
  · exact h.set rfl
  · exact h.setNotices rfl fun r x => { h.notices r x with sweep := fun _ => ho }
  · exact h.set rfl
  · exact Kept.ite (h.set rfl) h
  · exact closeDayNow_kept _ h

theorem requestChime_kept {a s : State} (i : Nat) (late : Bool) (c : ChimePart) (h : Kept a s) :
    Kept a (requestChime i late c s) := decideRequest_kept _ h

theorem requestChime_day (i : Nat) (late : Bool) (c : ChimePart) (s : State) : (requestChime i late c s).day = s.day := by
  have := decideRequest_rest ⟨.table c.pattern, c.zones, allowedPriority c.priority s, .plan s.plan.today.copyNumber i, late, false⟩ s
  simp only [chimeRest, Prod.mk.injEq] at this
  exact this.1.2.1

theorem takeEntry_kept {a s : State} (i : Nat) (e : PlanEntry) (ho : s.day.state = .open_) (h : Kept a s) :
    Kept a (takeEntry i e s) := by
  unfold takeEntry
  dsimp only
  refine applyRoll_kept _ ?_ ?_
  · split
    · exact ho
    · split
      · exact ho
      · rw [requestChime_day]; exact ho
  · split
    · exact modifyEntry_kept _ _ h
    · exact Kept.ite (modifyEntry_kept _ _ h) (requestChime_kept _ _ _ (modifyEntry_kept _ _ h))

theorem takeIf_kept {a s : State} (ready : SchoolTime → Bool) (i : Nat) (h : Kept a s) : Kept a (takeIf ready s i) := by
  unfold takeIf
  split
  · exact h
  · split
    · rename_i ho
      simp only [Bool.and_eq_true, dayIsOpen, decide_eq_true_eq] at ho
      exact takeEntry_kept _ _ ho.1.1 h
    · exact h

theorem takeEntries_kept {a s : State} (ready : SchoolTime → Bool) (h : Kept a s) : Kept a (takeEntries ready s) :=
  Kept.foldl (fun s i => takeIf_kept ready i (Kept.refl s)) _ h

theorem evaluatePlan_kept {a s : State} (h : Kept a s) : Kept a (evaluatePlan s) := takeEntries_kept _ h
theorem takeOnTime_kept {a s : State} (h : Kept a s) : Kept a (takeOnTime s) := takeEntries_kept _ h
theorem makeCopy_kept {a s : State} (b : Nat) (f : SchoolTime → Firing) (h : Kept a s) : Kept a (makeCopy b f s) := h.set rfl

/-- While the day is not OPEN no mark is ABSENT_PENDING and no sweep listed, so its state may change, but for the LOADs. -/
theorem notOpen_kept {a s t : State} (ho : s.day.state ≠ .open_) (e : keptRest t = keptRest s)
    (en : (t.notices.queue, t.notices.window, t.sweep.state) = (s.notices.queue, s.notices.window, s.sweep.state))
    (hl : RollOk a → NoticesOk a → rollLoadUnderWay s = true → t.day.state = .closed) (h : Kept a s) : Kept a t := by
  refine h.setNotices e fun r x => ?_
  have n := h.notices r x
  simp only [keptRest, Prod.mk.injEq] at e en
  obtain ⟨e1, e2, e3, e4, e5, e6, e7⟩ := e
  obtain ⟨q1, q2, q3⟩ := en
  refine ⟨fun k => .inr ?_, ?_, ?_, fun k p hp => ?_, fun y => ?_, fun y => ?_, ?_, ?_, ?_, ?_, ?_, ?_, ?_⟩
  · rw [q1, markAt_congr e6]
    exact (n.one k).resolve_left fun y => ho y.2.2
  · rw [q1]; exact n.addressed
  · rw [q1]; exact n.cancel
  · rw [pupilAt_congr e6] at hp; exact n.held k p hp
  · rw [q3] at y; exact absurd (n.sweep y) ho
  · rw [rollLoad_congr e4] at y; exact hl r x y
  · rw [q1]; exact n.length
  · rw [q1]; exact n.few
  · rw [q1]; exact n.numbers
  · rw [q2]; exact n.window
  · rw [q1, q2]; exact n.sends
  · rw [q1, q2]; exact n.once
  · rw [q1, q2]; exact n.steps

theorem beginOpening_kept {a s : State} (b : Nat) (hc : s.day.state = .closed) (hl : rollLoadUnderWay s = false) (h : Kept a s) :
    Kept a (beginOpening b s) :=
  notOpen_kept (s := s) (by rw [hc]; simp) rfl rfl (fun _ _ x => by rw [hl] at x; cases x) h

theorem autoOpen_kept {a s : State} (h : Kept a s) : Kept a (autoOpen s) := by
  unfold autoOpen
  split
  · exact h
  · split
    · rename_i hc
      exact beginOpening_kept _ hc.1 (by simpa using hc.2.2.2.2) h
    · exact h

theorem becomeOpen_kept {a s : State} (ho : s.day.state = .opening) (h : Kept a s) : Kept a (becomeOpen s) := by
  refine evaluatePlan_kept (raise_kept _ _ (makeCopy_kept _ _ (notOpen_kept (s := s) (by rw [ho]; simp) rfl rfl (fun r x y => ?_) h)))
  have := (h.notices r x).load y
  rw [ho] at this; cases this

theorem dayOpenMark_kept {a s : State} (k : Slot) (h : Kept a s) : Kept a (dayOpenMark k s) :=
  claimSafe_kept _ _ (fun _ _ _ _ => by unfold SafeDay; split <;> simp [DayPart.fresh]) h

theorem openingVisit_kept {a s : State} (h : Kept a s) : Kept a (openingVisit s) := by
  unfold openingVisit
  split
  · exact h
  · rename_i ho
    have hd : (dayOpenMark s.day.cursor s).day = s.day := claim_day _ _ s
    have h1 : Kept a { dayOpenMark s.day.cursor s with
        day := { (dayOpenMark s.day.cursor s).day with cursor := s.day.cursor + 1 } } :=
      Kept.set (dayOpenMark_kept s.day.cursor h) rfl
    dsimp only
    split
    · refine becomeOpen_kept ?_ h1
      rw [hd]
      exact Decidable.not_not.1 ho
    · exact h1

end Sys2Proof.Machine
end

