-- ==== Sys2Proof/Laws/KeptLine.lean ====
section
/-! SUPPORT. The Time Base, the entrance line, arrivals and the sweep keep what `Kept` says. -/

namespace Sys2Proof.Machine

/-! ### The entrance line's jobs -/

theorem setTerminal_raise_kept {a s : State} (n : Nat) (t : Option Terminal) (id : SourceId) (x : Option Subject)
    (h : Kept a s) : Kept a (raise id x (setTerminal n t s)) := raise_kept _ _ (setTerminal_kept _ _ h)

theorem goodAnswer_kept {a s : State} (n : Nat) (h : Kept a s) : Kept a (goodAnswer n s) := by
  unfold goodAnswer
  split
  · exact h
  · exact setTerminal_kept _ _ h

theorem missedAnswer_kept {a s : State} (n : Nat) (h : Kept a s) : Kept a (missedAnswer n s) := by
  unfold missedAnswer
  split
  · exact h
  · exact Kept.ite h (Kept.ite (setTerminal_kept _ _ h) (setTerminal_raise_kept _ _ _ _ h))

theorem addFound_kept {a s : State} (i : Identity) (h : Kept a s) : Kept a (addFound i s) := by
  unfold addFound
  split
  · exact setTerminal_raise_kept _ _ _ _ h
  · exact Kept.ite h (raise_kept _ _ (h.set rfl))

theorem beginLiveness_kept {a s : State} (n : Nat) (h : Kept a s) : Kept a (beginLiveness n s) := by
  unfold beginLiveness
  split
  · exact h
  · exact begin_kept _ _ (setTerminal_kept _ _ h)

theorem chooseJob_kept {a s : State} (h : Kept a s) : Kept a (chooseJob s) := by
  unfold chooseJob
  refine Kept.ite (begin_kept _ _ (h.set rfl)) (Kept.ite (begin_kept _ _ h) ?_)
  split
  · exact beginLiveness_kept _ h
  · exact Kept.ite (begin_kept _ _ h) h

theorem chooseIfFree_kept {a s : State} (h : Kept a s) : Kept a (chooseIfFree s) := Kept.ite (chooseJob_kept h) h
theorem endJob_kept {a s : State} (h : Kept a s) : Kept a (endJob s) := chooseJob_kept (h.set rfl)

theorem serve_kept {a s : State} (l : List Identity) (h : Kept a s) : Kept a (serve l s) := by
  induction l generalizing s with
  | nil => exact endJob_kept h
  | cons i t ih =>
    unfold serve
    split
    · exact ih (addFound_kept _ h)
    · exact Kept.ite (begin_kept _ _ h) (ih h)

theorem serveOn_kept {a s : State} (t : Transaction) (p : PollRound) (h : Kept a s) : Kept a (serveOn t p s) :=
  Kept.ite (begin_kept _ _ h) (serve_kept _ h)

theorem enumerateOne_kept {r : State × Nat × Nat × Nat} (i : Identity) : Kept r.1 (enumerateOne r i).1 := by
  unfold enumerateOne
  dsimp only
  split
  · split <;> exact addFound_kept _ (Kept.refl _)
  · split
    · exact Kept.refl _
    · split
      · exact setTerminal_raise_kept _ _ _ _ (Kept.refl _)
      · exact goodAnswer_kept _ (Kept.refl _)

theorem enumerateUnfound_kept (l : List Identity) {r : State × Nat} (n : Nat) : Kept r.1 (enumerateUnfound l r n).1 := by
  unfold enumerateUnfound
  split
  · exact Kept.refl _
  · split
    · exact Kept.refl _
    · split
      · exact (Kept.refl _).set rfl
      · exact missedAnswer_kept _ (Kept.refl _)

theorem foldl_fst_kept {α β : Type} {f : State × β → α → State × β} (hf : ∀ r x, Kept r.1 (f r x).1) (l : List α)
    {a : State} {r : State × β} (h : Kept a r.1) : Kept a (l.foldl f r).1 := by
  induction l generalizing r with
  | nil => exact h
  | cons x t ih => exact ih (h.trans (hf r x))

theorem finishEnumeration_kept {a s : State} (w : Walk) (h : Kept a s) : Kept a (finishEnumeration w s) := by
  have h1 : Kept a (w.found.foldl enumerateOne (s, 0, 0, 0)).1 := foldl_fst_kept (fun r x => enumerateOne_kept x) _ h
  have h2 := foldl_fst_kept (β := Nat) (fun r x => enumerateUnfound_kept w.found x) (List.range 8)
    (r := ((w.found.foldl enumerateOne (s, 0, 0, 0)).1, 0)) h1
  unfold finishEnumeration
  dsimp only
  generalize (List.range 8).foldl (enumerateUnfound w.found) _ = u at h2 ⊢
  exact endJob_kept (raise_kept _ _ (Kept.set h2 rfl))

theorem walkEnds_kept {a s : State} (h : Kept a s) : Kept a (walkEnds s) := by
  unfold walkEnds
  split
  · exact finishEnumeration_kept _ h
  · exact serve_kept _ h
  · exact endJob_kept h

/-! ### The Time Base -/

theorem rollover_kept {a s : State} (h : Kept a s) : Kept a (rollover s) :=
  Kept.ite (setTime_kept _ h) (raise_kept _ _ (setTime_kept _ h))

theorem handOn_kept {a s : State} (old : State) (h : Kept a s) : Kept a (handOn old s) :=
  Kept.ite h (Kept.ite (closeDayNow_kept _ h) (Kept.ite (evaluatePlan_kept h) (Kept.ite (h.set rfl) h)))

theorem endQuiet_kept {a s : State} (old : State) (h : Kept a s) : Kept a (endQuiet old s) := Kept.ite (h.set rfl) h
theorem displayDue_kept {a s : State} (h : Kept a s) : Kept a (displayDue s) := Kept.ite (h.set rfl) h

theorem afterTime_kept {a s : State} (old : State) (h : Kept a s) : Kept a (afterTime old s) := by
  unfold afterTime
  have h1 := autoOpen_kept (settle_kept (endQuiet_kept old h))
  exact chooseIfFree_kept (Kept.ite (displayDue_kept h1) h1)

theorem countSecond_kept {a s : State} (h : Kept a s) : Kept a (countSecond s) :=
  Kept.ite (setTime_kept _ (setTime_kept _ h)) (rollover_kept (setTime_kept _ h))

theorem secondAdvance_kept {a s : State} (h : Kept a s) : Kept a (secondAdvance s) :=
  afterTime_kept _ (Kept.ite (takeOnTime_kept (countSecond_kept h)) (handOn_kept _ (countSecond_kept h)))

theorem snap_kept {a s : State} (h : Kept a s) : Kept a (snap s) :=
  Kept.ite h (afterTime_kept _ (handOn_kept _
    (Kept.ite (setTime_kept _ h) (Kept.ite (setTime_kept _ h) (rollover_kept h)))))

theorem minutePulseEdge_kept {a s : State} (b : Bool) (h : Kept a s) : Kept a (minutePulseEdge b s) :=
  have h1 : Kept a (setTime (fun t => { t with minutePulseLatch := b }) { s with pins := { s.pins with minutePulse := b } }) :=
    h.set rfl
  Kept.ite (snap_kept h1) h1

theorem setClock_kept {a s : State} (t : SchoolTime) (d : Option Date) (h : Kept a s) : Kept a (setClock t d s).1 := by
  unfold setClock
  split
  · exact h
  · exact afterTime_kept _ (displayDue_kept (handOn_kept _ (setTime_kept _ h)))

/-! ### Arrivals -/

theorem tryNotice_kept {a s : State} (kind : NoticeKind) (k : Slot) (i c : Nat) (hk : kind ≠ .absent)
    (hc : kind ≠ .closure) (h : Kept a s) : Kept a (tryNotice kind k i c s).1 := by
  unfold tryNotice
  split
  · exact raise_kept _ _ h
  · rename_i hf
    exact addNotice_kept _ _ _ hk (fun b hb => by cases hb) (addresses_iff.2 hc) (fun _ _ =>
      Nat.lt_of_not_le (of_decide_eq_false (Bool.eq_false_iff.2 hf))) h

theorem arrivalNotice_kept {a s : State} (k : Slot) (d : DayPart) (l : List Contact) (m : Mark) (h : Kept a s) :
    Kept a (arrivalNotice k d l m s).1 := by
  unfold arrivalNotice
  dsimp only
  split
  · exact tryNotice_kept _ _ _ _ (by simp) (by simp) h
  · split
    · exact tryNotice_kept _ _ _ _ (by simp) (by simp) h
    · exact h

theorem classify_safe (c : Cohort) (permit : Option SchoolTime) (t : SchoolTime) : classify c permit t ≠ .absentPending := by
  unfold classify
  repeat' split
  all_goals simp

theorem arrivalChange_kept {a s : State} (src : MarkSource) (k : Slot) (p : Pupil) (t : SchoolTime) (n : Option Nat)
    (h : Kept a s) : Kept a (arrivalChange src k p t n s).state := by
  have h1 : Kept a (classifiedArrival src k p t n s).state := by
    unfold classifiedArrival
    exact arrivalNotice_kept _ _ _ _ (claimSafe_kept _ _ (fun _ _ _ _ => ⟨fun e => (classify_safe _ _ _ e).elim, id⟩) h)
  unfold arrivalChange
  cases p.day.mark <;> dsimp only <;> first | exact h | exact h1 | skip
  · exact claimSafe_kept _ _ (fun _ _ _ _ => ⟨fun e => by simp at e, id⟩) h
  · refine claimSafe_kept _ _ (fun r x q hq => ⟨fun e => ?_, fun _ => by simp⟩) h
    have := (h.notices r x).held k q hq
    cases e' : q.day.heldMark with
    | none => simp [e'] at e
    | some m => simp only [e', Option.getD_some] at e this; exact absurd (by rw [e]) this

theorem tapClaim_kept {a s : State} (card : Nat) (t : Option SchoolTime) (n : Nat) (h : Kept a s) :
    Kept a (tapClaim card t n s).1 := by
  unfold tapClaim
  split
  · exact h
  · split
    · exact h
    · exact Kept.ite (raise_kept _ _ (arrivalChange_kept _ _ _ _ _ h)) (arrivalChange_kept _ _ _ _ _ h)

theorem arrive_kept {a s : State} (k : Slot) (t : Option SchoolTime) (h : Kept a s) : Kept a (arrive k t s).1 := by
  unfold arrive
  split
  · exact h
  · split
    · exact h
    · split
      · exact h
      · split
        · exact h
        · exact settle_kept (arrivalChange_kept _ _ _ _ _ h)

/-! ### The line's events -/

theorem recordAnswer_kept {a s : State} {f : Nat → State → State} (hf : ∀ n, Kept a (f n s)) (h : Kept a s) :
    Kept a (recordAnswer f s) := by
  unfold recordAnswer
  split
  · exact h
  · exact hf _

theorem leaveTerminal_kept {a s : State} (h : Kept a s) : Kept a (leaveTerminal s) := by
  unfold leaveTerminal
  split
  · exact serve_kept _ h
  · exact endJob_kept h

theorem afterTransaction_kept {a s : State} {f : State → State} (hf : Kept a (f s)) (h : Kept a s) :
    Kept a (afterTransaction f s) := Kept.ite (endJob_kept h) hf

theorem missTransaction_kept {a s : State} (h : Kept a s) : Kept a (missTransaction s) :=
  have h1 := recordAnswer_kept (fun n => missedAnswer_kept n h) h
  afterTransaction_kept (leaveTerminal_kept h1) h1

theorem broadcastMade_kept {a s : State} (h : Kept a s) : Kept a (broadcastMade s) := endJob_kept (h.set rfl)

theorem alertUnanswered_kept {a s : State} (h : Kept a s) : Kept a (alertUnanswered s) := by
  unfold alertUnanswered
  split
  · exact afterTransaction_kept (walkEnds_kept h) h
  · exact broadcastMade_kept h
  · exact missTransaction_kept h
  · exact h

theorem alertAnswered_kept {a s : State} (h : Kept a s) : Kept a (alertAnswered s) := by
  unfold alertAnswered
  split
  · exact Kept.ite (broadcastMade_kept (h.set rfl)) (h.set rfl)
  · exact h

theorem answerMissed_kept {a s : State} (h : Kept a s) : Kept a (answerMissed s) := by
  unfold answerMissed
  split
  · exact missTransaction_kept h
  · exact missTransaction_kept h
  · exact missTransaction_kept h
  · exact h

theorem seekResult_kept {a s : State} (z o : Bool) (h : Kept a s) : Kept a (seekResult z o s) := by
  unfold seekResult
  split
  · exact afterTransaction_kept (Kept.ite (walkEnds_kept (h.set rfl)) (begin_kept _ _ h)) h
  · exact h

theorem takeTap_kept {a s : State} (n : Nat) (t : Tap) (h : Kept a s) : Kept a (takeTap n t s).1 := by
  unfold takeTap
  split
  · exact h
  · exact modifyTerminal_kept _ _ (tapClaim_kept _ _ _ h)

theorem takeTaps_kept {a s : State} (l : List Tap) (p : PollRound) (h : Kept a s) : Kept a (takeTaps l p s).1 :=
  by
    unfold takeTaps
    refine foldl_fst_kept (fun r t => ?_) l (r := (s, p)) h
    exact takeTap_kept _ _ (Kept.refl _)

theorem afterRead_kept {a s : State} (p : PollRound) (h : Kept a s) : Kept a (afterRead p s) :=
  afterTransaction_kept (Kept.ite (serve_kept _ h) (serveOn_kept _ _ h)) h

theorem completeRead_kept {a s : State} (p : PollRound) (h : Kept a s) : Kept a (completeRead p s) :=
  recordAnswer_kept (fun _ => modifyTerminal_kept _ _ h) h

theorem blockFails_kept {a s : State} (p : PollRound) (h : Kept a s) : Kept a (blockFails p s) :=
  afterRead_kept _ (recordAnswer_kept (fun _ => modifyTerminal_kept _ _ h) h)

theorem blockTaken_kept {a s : State} (l : List Tap) (p : PollRound) (h : Kept a s) : Kept a (blockTaken l p s).1 := by
  unfold blockTaken
  split
  · exact h
  · exact takeTaps_kept _ _ (modifyTerminal_kept _ _ h)

theorem setRound_kept {a s : State} (p : PollRound) (x : LinePhase) (h : Kept a s) : Kept a (setRound p x s) := h.set rfl

theorem tapBlock_kept {a s : State} (b : Text) (h : Kept a s) : Kept a (tapBlock b s) := by
  unfold tapBlock
  split
  · dsimp only
    split
    · exact settle_kept (blockFails_kept _ h)
    · split
      · exact settle_kept (afterRead_kept _ (completeRead_kept _ (setRound_kept _ _ (blockTaken_kept _ _ h))))
      · exact settle_kept (setRound_kept _ _ (blockTaken_kept _ _ h))
  · exact h

theorem blockTimedOut_kept {a s : State} (h : Kept a s) : Kept a (blockTimedOut s) := by
  unfold blockTimedOut
  split
  · exact blockFails_kept _ h
  · exact h

theorem tapsHeader_kept {a s : State} (b : Text) (h : Kept a s) : Kept a (tapsHeader b s) := by
  unfold tapsHeader
  have h1 := recordAnswer_kept (fun n => goodAnswer_kept n h) h
  split
  · split
    · exact missTransaction_kept h
    · exact afterTransaction_kept (serveOn_kept _ _ (completeRead_kept _ h1)) (completeRead_kept _ h1)
    · exact h1.set rfl
  · exact h

theorem verdictsConfirm_kept {a s : State} (b : Text) (h : Kept a s) : Kept a (verdictsConfirm b s) := by
  unfold verdictsConfirm
  split
  · have h1 (p : PollRound) : Kept a (recordAnswer (confirmTaken p) s) :=
      recordAnswer_kept (fun n => modifyTerminal_kept _ _ (goodAnswer_kept _ h)) h
    exact Kept.ite (afterTransaction_kept (leaveTerminal_kept (h1 _)) (h1 _)) (missTransaction_kept h)
  · exact h

theorem recordFlags_kept {a s : State} (o f : Bool) (n : Nat) (h : Kept a s) : Kept a (recordFlags o f n s) := by
  unfold recordFlags
  split
  · exact h
  · exact Kept.ite (raise_kept _ _ (modifyTerminal_kept _ _ h)) (modifyTerminal_kept _ _ h)

theorem stateReply_kept {a s : State} (b : Text) (h : Kept a s) : Kept a (stateReply b s) := by
  unfold stateReply
  split
  · split
    · exact missTransaction_kept h
    · have h1 := recordAnswer_kept (fun n => goodAnswer_kept n h) h
      have h2 (o f : Bool) : Kept a (recordAnswer (recordFlags o f) (recordAnswer goodAnswer s)) :=
        recordAnswer_kept (fun n => recordFlags_kept o f n h1) h1
      exact afterTransaction_kept (leaveTerminal_kept (h2 _ _)) (h2 _ _)
  · exact h

theorem livenessFalls_kept {a s : State} (h : Kept a s) : Kept a (livenessFalls s) := by
  unfold livenessFalls
  split
  · exact h
  · exact Kept.ite (chooseIfFree_kept (reach_kept _ h)) h

theorem seekAll_kept {a s : State} (h : Kept a s) : Kept a (seekAll s).1 := by
  unfold seekAll
  split
  · exact h
  · exact chooseIfFree_kept (h.set rfl)

theorem admitRequest_kept {a s : State} (i : Identity) (e : Nat) (h : Kept a s) : Kept a (admitRequest i e s).1 := by
  unfold admitRequest
  split
  · exact h
  · split
    · exact h
    · split
      · exact modifyTerminal_kept _ _ h
      · split
        · exact h
        · exact setTerminal_kept _ _ h

theorem retireFromJob_kept {a s : State} (n : Nat) (h : Kept a s) : Kept a (retireFromJob n s) := by
  unfold retireFromJob
  split
  · exact Kept.ite (h.set rfl) h
  · exact Kept.ite (h.set rfl) h
  · exact h

theorem retire_kept {a s : State} (n : Nat) (h : Kept a s) : Kept a (retire n s).1 := by
  unfold retire
  split
  · exact h
  · split
    · exact h
    · split
      · exact h
      · exact Kept.set (setTerminal_kept n none (retireFromJob_kept n h)) rfl

/-! ### The sweep -/

theorem completeSweep_kept {a s : State} (w : Sweep) (l : List Sweep) (ho : RollOk a → NoticesOk a → s.day.state = .open_)
    (h : Kept a s) : Kept a (completeSweep w l s) :=
  raise_kept _ _ (h.setNotices rfl fun r x => { h.notices r x with sweep := fun _ => ho r x })

theorem moveOn_kept {a s : State} (w : Sweep) (l : List Sweep) (k : Slot) (ho : RollOk a → NoticesOk a → s.day.state = .open_)
    (h : Kept a s) : Kept a (moveOn w l k s) := Kept.ite (completeSweep_kept _ _ ho h) (setSweep_kept _ id h)

theorem sweepPending_kept {a s : State} {k : Slot} {p : Pupil} (hp : pupilAt k s = some p) (hm : p.day.mark = .unseen)
    (hf : absentCount s < 120) (hl : s.notices.queue.length < 128) (ho : RollOk a → NoticesOk a → s.day.state = .open_) (h : Kept a s) :
    Kept a (sweepPending k s) := by
  unfold sweepPending claim
  rw [show pupilAt k (addNotice _ _ _ _ _ s) = some p from hp]
  dsimp only
  rw [if_neg (by simp [hm])]
  refine { h.setNotices (t := s) rfl h.notices with
    roll := fun x => ((h.roll x).congr (t := addNotice _ _ _ _ _ s) rfl rfl).put ((h.roll x).slot_lt hp)
      (p := ⟨p.enrolment, { p.day with mark := .absentPending, source := some .sweep }⟩) (RollOk.cohort (h.roll x) (p := p) hp)
    zones := fun x => (h.zones x).congr rfl
    notices := fun r x => (h.notices r x).pend 0 _ none none ?_ hf (ho r x) hl rfl ((h.notices r x).held k p hp) }
  unfold markAt
  rw [hp]
  simp [hm]

theorem sweepVisit_kept {a s : State} (h : Kept a s) : Kept a (sweepVisit s) := by
  unfold sweepVisit
  split
  · rename_i hs _ _
    have ho : RollOk a → NoticesOk a → s.day.state = .open_ := fun r x => (h.notices r x).sweep (by rw [hs]; simp)
    unfold visitSlot
    split
    · exact moveOn_kept _ _ _ ho h
    · rename_i p hp
      split
      · exact moveOn_kept _ _ _ ho h
      · rename_i hd
        simp only [isDue, Bool.not_eq_true', Bool.not_eq_false, Bool.and_eq_true, decide_eq_true_eq] at hd
        split
        · refine moveOn_kept _ _ _ (fun r x => ?_) (raise_kept _ _ (claimSafe_kept _ _ (fun _ _ _ _ => ⟨fun e => by simp at e, id⟩) h))
          exact (congrArg DayController.state (claim_day _ _ s)).trans (ho r x)
        · split
          · rename_i hr
            simp only [absentRoom, queueFull, Bool.and_eq_true, Bool.not_eq_true', decide_eq_false_iff_not, Nat.not_le] at hr
            refine moveOn_kept _ _ _ (fun r x => ?_) (sweepPending_kept hp hd.1.2 (of_decide_eq_true hr.1) hr.2 ho h)
            exact (congrArg DayController.state (claim_day _ _ _)).trans (ho r x)
          · have h1 := fun f (hf : (f s.sweep).state = .paused) => setSweep_kept (a := a) (s := s) f (fun _ => by rw [hs]; simp) h
            exact Kept.ite (h1 _ rfl) (raise_kept _ _ (h1 _ rfl))
  · exact h

end Sys2Proof.Machine
end

