-- ==== Sys2Proof/Laws/KeptRequests.lean ====
section
/-! SUPPORT. The requests and the events of the bells, the notices and the gateway keep what `Kept` says. -/

namespace Sys2Proof.Machine

/-! ### The roll -/

theorem slotOk_iff {n : Nat} : slotOk n = true ↔ n < 2048 := decide_eq_true_iff
theorem cohortOk_iff {n : Nat} : cohortOk n = true ↔ n < 8 := by simp only [cohortOk, decide_eq_true_eq]

theorem enrolSlot_lt {a : EnrolArgs} {s : State} {k : Slot} (ha : enrolOk a = true) (h : enrolSlot a s = some k) : k < 2048 := by
  unfold enrolSlot at h
  split at h
  · rename_i e
    simp only [Option.some.injEq] at h; subst h
    have : optOk slotOk a.slot = true := by simp only [enrolOk, Bool.and_eq_true] at ha; exact ha.2
    rw [e] at this
    exact slotOk_iff.1 this
  · have := List.mem_of_find?_eq_some h
    simpa [slotCount] using this

theorem enrolSlot_free {a : EnrolArgs} {s : State} {k : Slot} (hu : ¬a.slot.any (slotInUse · s) = true)
    (h : enrolSlot a s = some k) : pupilAt k s = none := by
  have hk : slotInUse k s = false := by
    unfold enrolSlot at h
    split at h
    · rename_i e
      cases h
      rw [e] at hu
      simpa using hu
    · simpa using List.find?_some h
  unfold slotInUse at hk
  cases e : pupilAt k s with
  | none => rfl
  | some p => rw [e] at hk; simp at hk

theorem enrol_kept {a s : State} (x : EnrolArgs) (h : Kept a s) : Kept a (enrol x s).1 := by
  unfold enrol
  split
  · exact h
  · split
    · exact h
    · rename_i hok
      simp only [Bool.not_eq_true', Bool.not_eq_false] at hok
      split
      · exact h
      · rename_i hu
        split
        · exact h
        · rename_i k hk
          split
          · exact h
          · refine settle_kept (h.trans ⟨rfl, rfl, rfl, rfl, fun x => x, fun r => r.put (enrolSlot_lt hok hk) ?_, fun z => z.congr rfl,
              fun _ n => n.put (fun e => by cases e) (fun _ => n.none fun e => ?_) (by simp [enrolled, DayPart.fresh])⟩)
            rotate_left
            · unfold markAt at e
              rw [enrolSlot_free hu hk] at e
              cases e
            have : cohortOk x.cohort = true := by simp only [enrolOk, Bool.and_eq_true] at hok; exact hok.1.1.1.1.1.2
            exact cohortOk_iff.1 this

theorem amend_kept {a s : State} (x : AmendArgs) (h : Kept a s) : Kept a (amend x s).1 := by
  unfold amend
  split
  · exact h
  · split
    · exact h
    · split
      · exact h
      · rename_i hok
        simp only [Bool.not_eq_true', Bool.not_eq_false] at hok
        split
        · exact h
        · split
          · exact h
          · rename_i p hp
            have hm := markAt_eq hp
            refine settle_kept (h.trans ⟨rfl, rfl, rfl, rfl, fun x => x, fun r => r.put (r.slot_lt hp) ?_, fun z => z.congr rfl,
              fun _ n => n.put (fun e => by rw [hm]; exact congrArg some e)
                (fun e => n.none fun y => e (Option.some.inj (hm.symm.trans y))) (n.held x.slot p hp)⟩)
            have : optOk cohortOk x.cohort = true := by simp only [amendOk, Bool.and_eq_true] at hok; exact hok.1.1.1.1.2
            show x.cohort.getD p.enrolment.cohort < 8
            cases e : x.cohort with
            | none => exact r.cohort hp
            | some c => rw [e] at this; exact cohortOk_iff.1 this

theorem forgetSlots_kept {a s : State} (gone : Slot → Bool) (h : Kept a s) :
    KeptOwing (fun k => gone k = true) a (forgetSlots gone s) := by
  have h1 : Kept a (dropAway gone s) := h.set rfl
  refine (mapQueue_kept (t := forgetSlots gone s) _ rfl (fun _ _ n _ => ?_) rfl (withdrawWhere_kept _ (fun _ _ n _ e => ?_) h1)).mono fun _ _ k _ x => ?_
  · cases e : n.addressee with
    | pupil k i => exact ⟨.refl n, fun _ => rfl, .refl n, fun _ _ => id⟩
    | broadcast b =>
      exact ⟨⟨rfl, rfl, fun k => by simp [Notice.isTo, e], id, fun _ k i hk => by cases hk⟩, fun _ => rfl,
        (fun c hc => by cases hc; exact ⟨b, e, List.length_filter_le _ _⟩),
        fun _ _ (x : Notice.Sends n _) => x.congr rfl fun _ _ hj => by cases hj⟩
  · exact isPupil_iff.2 (by cases ha : n.addressee <;> simp_all)
  · obtain ⟨n, _, e1, e2⟩ := x.resolve_left id
    obtain ⟨i, hi⟩ := isTo_iff.1 (isAbsentOf_iff.1 e1).2.1
    rw [hi] at e2
    exact e2

theorem forgetSlots_none (gone : Slot → Bool) (s : State) {k : Slot} (hk : gone k = true) :
    (forgetSlots gone s).notices.queue.countP (·.isAbsentOf k) = 0 := by
  rw [List.countP_eq_zero]
  intro m hm hx
  obtain ⟨x, hx', rfl⟩ := List.mem_map.1 hm
  rw [withdrawWhere_queue] at hx'
  obtain ⟨n, _, e⟩ := List.mem_filterMap.1 hx'
  obtain ⟨_, h2, h3⟩ := isAbsentOf_iff.1 hx
  cases ha : n.addressee with
  | pupil j i =>
    rw [ha] at e
    dsimp only at e
    by_cases hj : gone j = true
    · rw [if_pos hj] at e
      split at e
      · cases e; simp at h3
      · cases e
    · rw [if_neg hj] at e
      cases e
      simp only [ha] at h2
      obtain ⟨l, hl⟩ := isTo_iff.1 h2
      rw [ha] at hl; cases hl
      exact hj hk
  | broadcast b =>
    rw [ha] at e
    simp only [Bool.false_eq_true, if_false, Option.some.injEq] at e
    subst e
    simp only [ha] at h2
    obtain ⟨l, hl⟩ := isTo_iff.1 h2
    cases hl

theorem remove_kept {a s : State} (k : Slot) (hk : s.notices.queue.countP (·.isAbsentOf k) = 0)
    (h : KeptOwing (fun j => j = k) a s) : Kept a { s with roll := s.roll.remove k } := by
  have ho : ∀ j, j ≠ k → pupilAt j { s with roll := s.roll.remove k } = pupilAt j s := fun j hj => by
    unfold pupilAt RollUnit.remove
    cases e : tableGet k s.roll.roster with
    | none => rfl
    | some q => exact tableGet_drop_ne hj _
  have hs (r : RollOk a) : pupilAt k { s with roll := s.roll.remove k } = none := by
    unfold pupilAt RollUnit.remove
    cases e : tableGet k s.roll.roster with
    | none => exact e
    | some q => exact tableGet_drop_self (h.roll r).wf
  refine ⟨h.pending, h.office, h.power, h.store, h.attention, fun r => (h.roll r).remove k, fun z => (h.zones z).congr rfl,
    fun r n => ?_⟩
  have w := h.notices r n
  refine { w with one := fun j => ?_, held := fun j p hp => ?_ }
  · by_cases hj : j = k
    · subst hj
      exact .inr ⟨hk, fun e => by unfold markAt at e; rw [hs r] at e; cases e⟩
    · have := (w.one j).imp_right fun y => And.intro y.1 fun m => hj (y.2 m)
      unfold markAt at this ⊢
      rw [ho j hj]
      exact this
  · by_cases hj : j = k
    · subst hj; rw [hs r] at hp; cases hp
    · rw [ho j hj] at hp; exact w.held j p hp

theorem withdraw_kept {a s : State} (k : Slot) (h : Kept a s) : Kept a (withdraw k s).1 := by
  unfold withdraw
  split
  · exact h
  · split
    · exact h
    · split
      · exact h
      · exact settle_kept (remove_kept k (forgetSlots_none _ s (by simp)) ((forgetSlots_kept _ h).mono fun _ _ _ _ x => by simpa using x))

theorem mark_kept {a s : State} (x : MarkArgs) (h : Kept a s) : Kept a (mark x s).1 := by
  unfold mark
  split
  · exact h
  · split
    · exact h
    · split
      · exact h
      · split
        · split
          · rename_i p hp _ hs
            refine settle_kept (claimSafe_kept _ _ (fun _ _ q hq => ⟨fun e => by simp [signedOut] at e, fun _ e => ?_⟩) h)
            rw [hp] at hq; cases hq
            simp only [signedOut, Option.some.injEq] at e
            rw [e] at hs; simp [maySignOut, isArrivalMark] at hs
          · exact h
        · rename_i hok _ _ p m _ hp hm
          have hm' : m ≠ .absentPending := by
            rintro rfl
            simp only [Bool.not_eq_true', Bool.not_eq_false, markArgsOk, Bool.and_eq_true] at hok
            have := hok.2
            rw [hm] at this
            cases hr : x.reason <;> simp [hr, markTarget] at this
          have h1 := claimSafe_kept (a := a) (s := s) x.slot (markedAs m (x.reason.getD none) x.back)
            (fun _ _ _ _ => ⟨fun e => absurd e hm', fun _ => by simp [markedAs]⟩) h
          exact settle_kept (Kept.ite (raise_kept _ _ h1) h1)
        · exact h
        · exact h

theorem awayActs_kept {a s : State} (e : AwayEntry) (h : Kept a s) : Kept a (awayActs e s) :=
  Kept.ite (excuseUnaccounted_kept _ _ _ h) h

theorem addAway_kept {a s : State} (e : AwayEntry) (h : Kept a s) : Kept a (addAway e s) := awayActs_kept _ (setAway_kept _ h)

theorem away_kept {a s : State} (k : Slot) (f l : Date) (r : Option ExcuseReason) (h : Kept a s) : Kept a (away k f l r s).1 := by
  unfold away
  repeat' split
  all_goals first | exact h | exact settle_kept (addAway_kept _ h)

theorem takeRange_kept {a s : State} (f l : Date) (k : Slot) (h : Kept a s) : Kept a (takeRange f l s k) := by
  unfold takeRange
  split
  · exact Kept.ite (addAway_kept _ h) (raise_kept _ _ h)
  · exact awayActs_kept _ (setAway_kept _ h)

theorem unaway_kept {a s : State} (k : Slot) (f : Date) (h : Kept a s) : Kept a (unaway k f s).1 := by
  unfold unaway
  repeat' split
  all_goals first | exact h | exact setAway_kept _ h

/-! ### The school day and its plans -/

theorem datePut_kept {a s : State} (d : Date) (t : DayType) (h : Kept a s) : Kept a (datePut d t s).1 := by
  unfold datePut
  repeat' split
  all_goals first | exact h | exact autoOpen_kept (setCalendar_kept _ h)

theorem dateDrop_kept {a s : State} (d : Date) (h : Kept a s) : Kept a (dateDrop d s).1 := by
  unfold dateDrop
  repeat' split
  all_goals first | exact h | exact autoOpen_kept (setCalendar_kept _ h)

theorem openDay_kept {a s : State} (b : Option Nat) (h : Kept a s) : Kept a (openDay b s).1 := by
  unfold openDay
  split
  · exact h
  · split
    · exact h
    · rename_i hc
      split
      · exact h
      · split
        · exact h
        · rename_i hl
          split
          · exact h
          · exact beginOpening_kept _ (by simpa using hc) (by simpa using hl) h

theorem closeDay_kept {a s : State} (h : Kept a s) : Kept a (closeDay s).1 := by
  unfold closeDay
  split
  · exact settle_kept (closeDayNow_kept _ h)
  · exact h

theorem excuse_length {k : Slot} {n : Notice} {s : State} (hn : n ∈ s.notices.queue) (ha : n.isAbsentOf k = true)
    (hw : n.inWindow = false) (hm : markAt k s = some .absentPending) :
    (excuseUnaccounted .closure .closure k s).notices.queue.length < s.notices.queue.length := by
  unfold markAt at hm
  unfold excuseUnaccounted claim
  cases hp : pupilAt k s with
  | none => rw [hp] at hm; cases hm
  | some p =>
    rw [hp] at hm
    simp only [Option.map_some, Option.some.injEq] at hm
    dsimp only
    rw [if_pos ⟨hm, by simp [hm, isUnaccountedMark]⟩, withdrawWhere_queue]
    exact List.length_filterMap_lt_length_iff_exists.2 ⟨n, hn, by simp [ha, hw]⟩

theorem excuse_stays {j : Slot} {n : Notice} {s : State} (hn : n ∈ s.notices.queue) (hw : n.inWindow = false) :
    (excuseUnaccounted .closure .closure j s).notices.queue.length < s.notices.queue.length ∨
      n ∈ (excuseUnaccounted .closure .closure j s).notices.queue := by
  unfold excuseUnaccounted
  generalize (fun d : DayPart => _) = f
  unfold claim
  split
  · exact .inr hn
  · dsimp only
    split
    · rw [withdrawWhere_queue]
      by_cases ha : n.isAbsentOf j = true
      · exact .inl (List.length_filterMap_lt_length_iff_exists.2 ⟨n, hn, by simp [ha, hw]⟩)
      · exact .inr (List.mem_filterMap.2 ⟨n, hn, by simp [ha]⟩)
    · exact .inr hn

/-- The pupils that a closure excuses leave room for its notice, if one of them has a WAITING ABSENT notice (R43, R44). -/
theorem excuse_room {l : List Slot} {s : State} (r : RollOk s) (x : NoticesOk s)
    (h : s.notices.queue.length < 128 ∨
      ∃ n ∈ s.notices.queue, ∃ k ∈ l, n.isAbsentOf k = true ∧ n.inWindow = false) :
    (l.foldl (fun s k => excuseUnaccounted .closure .closure k s) s).notices.queue.length < 128 := by
  induction l generalizing s with
  | nil => exact h.resolve_right fun ⟨_, _, _, hk, _⟩ => by simp at hk
  | cons j t ih =>
    have k1 := excuseUnaccounted_kept .closure .closure j (Kept.refl s)
    refine ih (k1.roll r) (k1.notices r x) ?_
    rcases h with h | ⟨n, hn, k, hk, ha, hw⟩
    · exact .inl (Nat.lt_of_le_of_lt (claim_length _ _ _) h)
    · by_cases hj : k = j
      · subst hj
        have hm : markAt k s = some .absentPending := by
          rcases x.one k with y | y
          · exact y.2.1
          · exact absurd ha (List.countP_eq_zero.1 y.1 n hn)
        exact .inl (Nat.lt_of_lt_of_le (excuse_length hn ha hw hm) x.length)
      · rcases excuse_stays (j := j) hn hw with e | e
        · exact .inl (Nat.lt_of_lt_of_le e x.length)
        · exact .inr ⟨n, e, k, (List.mem_cons.1 hk).resolve_left hj, ha, hw⟩

theorem declareClosure_kept {a s : State} (k : Nat)
    (hr : s.notices.queue.length < 128 ∨ ∃ n ∈ s.notices.queue, n.isWaitingAbsent = true) (h : Kept a s) :
    Kept a (declareClosure k s) := by
  unfold declareClosure
  dsimp only
  have h1 : Kept a (abandonSweeps (cancelEntries { s with day := { s.day with closureFlag := true, closureText := some k } })) :=
    abandonSweeps_kept (h.set rfl)
  refine raise_kept _ _ (addNotice_kept _ _ _ (by simp) (fun b hb => by cases hb; rfl) trivial (fun r x => ?_)
    (Kept.foldl (fun s k => excuseUnaccounted_kept _ _ k (Kept.refl s)) _ h1))
  refine excuse_room (h1.roll r) (h1.notices r x) (hr.imp_right fun ⟨n, hn, hw⟩ => ?_)
  have w := h.notices r x
  simp only [Notice.isWaitingAbsent, Bool.and_eq_true, decide_eq_true_eq, Bool.not_eq_true'] at hw
  obtain ⟨j, i, hi⟩ := (w.addressed n hn).toPupil (by simp [hw.1]) (by simp [hw.1])
  have ha : n.isAbsentOf j = true := isAbsentOf_iff.2 ⟨hw.1, isTo_iff.2 ⟨i, hi⟩, by
    cases e : n.cancel
    · rfl
    · rw [w.cancel n hn j i hi e] at hw; simp at hw⟩
  have hm : markAt j s = some .absentPending := by
    rcases w.one j with y | y
    · exact y.2.1
    · exact absurd ha (List.countP_eq_zero.1 y.1 n hn)
  refine ⟨n, hn, j, ?_, ha, hw.2⟩
  unfold markAt at hm
  cases hp : pupilAt j s with
  | none => rw [hp] at hm; cases hm
  | some p =>
    rw [hp] at hm
    simp only [Option.map_some, Option.some.injEq] at hm
    exact mem_slotsWhere (x := p) hp (by simp [hm, isUnaccountedMark])

theorem closure_kept {a s : State} (k : Nat) (h : Kept a s) : Kept a (closure k s).1 := by
  unfold closure
  split
  · exact h
  · split
    · exact h
    · split
      · exact h
      · split
        · exact h
        · split
          · exact h
          · rename_i hf
            refine settle_kept (declareClosure_kept _ ?_ h)
            by_cases hq : queueFull s = true
            · refine .inr ?_
              have : s.notices.queue.any (·.isWaitingAbsent) = true := by
                by_contra hw; exact hf ⟨hq, hw⟩
              exact List.any_eq_true.1 this
            · exact .inl (Nat.lt_of_not_le (of_decide_eq_false (Bool.eq_false_iff.2 hq)))

theorem modifyBank_kept {a s : State} (n : Nat) (f : Bank → Bank) (h : Kept a s) : Kept a (modifyBank n f s) := h.set rfl

theorem entryPut_kept {a s : State} (x : EntryPutArgs) (h : Kept a s) : Kept a (entryPut x s).1 := by
  unfold entryPut
  repeat' (first | split | dsimp only)
  all_goals first | exact h | exact modifyBank_kept _ _ h

theorem entryDrop_kept {a s : State} (b p : Nat) (h : Kept a s) : Kept a (entryDrop b p s).1 := by
  unfold entryDrop
  repeat' split
  all_goals first | exact h | exact modifyBank_kept _ _ h

theorem bankClear_kept {a s : State} (b : Nat) (h : Kept a s) : Kept a (bankClear b s).1 := by
  unfold bankClear
  repeat' split
  all_goals first | exact h | exact modifyBank_kept _ _ h

theorem header_kept {a s : State} (b : Nat) (w : Option (Text × Option Select)) (h : Kept a s) : Kept a (header b w s).1 := by
  unfold header
  repeat' split
  all_goals first | exact h | exact modifyBank_kept _ _ h

theorem adoptCopy_kept {a s : State} (b : Nat) (h : Kept a s) : Kept a (adoptCopy b s) := h.set rfl

theorem adopt_kept {a s : State} (b : Nat) (h : Kept a s) : Kept a (adopt b s).1 := by
  unfold adopt
  repeat' split
  all_goals first | exact h | exact settle_kept (takeOnTime_kept (adoptCopy_kept _ h))

/-! ### Bells -/

theorem mute_kept {a s : State} (w : Option (List Nat × Option Bool)) (h : Kept a s) : Kept a (mute w s).1 := by
  unfold mute
  split
  · exact h
  · exact h
  · rename_i zones on
    have h1 : Kept a (silenceChanged s (setMutes zones on s)) := silenceChanged_kept s h (by unfold setMutes; rfl)
    dsimp only
    split
    · exact h
    · dsimp only; exact h1

theorem play_kept {a s : State} (x : PlayArgs) (h : Kept a s) : Kept a (play x s).1 := by
  unfold play
  repeat' split
  all_goals first | exact h | exact decideRequest_kept _ h

theorem hush_kept {a s : State} (t : HushTarget) (h : Kept a s) : Kept a (hush t s).1 := by
  unfold hush
  split
  · split
    · unfold hushChannel
      split
      · exact examine_kept (stopChannel_kept _ _ h)
      · exact examine_kept (stopChannel_kept _ _ h)
      · exact tailEnds_kept _ h
      · exact h
    · exact h
  · exact Kept.foldl (fun s n => stopChannel_kept n _ (Kept.refl s)) _ (dropWaits_kept h)
  · exact h

theorem wakingEnds_kept {a s : State} (n : Nat) (h : Kept a s) : Kept a (wakingEnds n s) :=
  Kept.ite (examineIf_kept _ (wakingTest_kept _ (reach_kept _ h))) h

theorem stepEnds_kept {a s : State} (n : Nat) (h : Kept a s) : Kept a (stepEnds n s) := by
  unfold stepEnds
  dsimp only
  split
  · rename_i e _ _
    exact Kept.ite (examineIf_kept _ (playFrom_kept _ _ (fun _ => .inl e) (reach_kept _ h))) h
  · exact h

theorem tailReached_kept {a s : State} (n : Nat) (h : Kept a s) : Kept a (tailReached n s) := by
  unfold tailReached
  dsimp only
  split
  · exact Kept.ite (tailEnds_kept _ (reach_kept _ h)) h
  · exact h

theorem waitExpires_kept {a s : State} (n : Nat) (h : Kept a s) : Kept a (waitExpires n s) := by
  unfold waitExpires
  split
  · exact h
  · exact Kept.ite (report_kept _ _ _ (setWaits_kept _ (reach_kept _ h))) h

theorem quietChange_kept {a s : State} (i : QuietInput) (b : Bool) (h : Kept a s) : Kept a (quietChange i b s) :=
  silenceChanged_kept _ h (by cases i <;> rfl)

theorem bellPress_kept {a s : State} (h : Kept a s) : Kept a (bellPress s) := by
  unfold bellPress
  split
  · exact h
  · unfold pressAction
    have h1 : Kept a (setBell true s) := h.set rfl
    split
    · exact h1
    · exact buttonRequest_kept _ _ h1
    · exact buttonRequest_kept _ _ h1
    · exact buttonRequest_kept _ _ h1
    · exact snap_kept h1

theorem bellRelease_kept {a s : State} (h : Kept a s) : Kept a (bellRelease s) := by
  unfold bellRelease
  split
  · exact releaseButton_kept (h.set rfl)
  · exact h

/-! ### Notices -/

theorem setSettings_rest_kept {a s : State} (f : Settings → Settings) (e : (f s.settings).quietMask = s.settings.quietMask ∧
    (f s.settings).quietLevel = s.settings.quietLevel) (h : Kept a s) : Kept a { s with settings := f s.settings } :=
  h.set (by unfold keptPart keptRest; simp only [e.1, e.2])

theorem classTable_kept {a s : State} (t : Option Select) (w : Option (Nat × Nat × Nat)) (h : Kept a s) :
    Kept a (classTable t w s).1 := by
  have h1 (t : Select) (c : ClassTable) : Kept a (setClassTable t c s) := by cases t <;> exact h.set rfl
  unfold classTable
  repeat' split
  all_goals first | exact h | exact h1 _ _

theorem hold_kept {a s : State} (v : Option (Option Bool)) (h : Kept a s) : Kept a (hold v s).1 := by
  unfold hold
  repeat' split
  all_goals first | exact h | exact settle_kept (setNotices_kept _ ⟨rfl, .refl _⟩ h)

theorem quiet_kept {a s : State} (m : Nat) (h : Kept a s) : Kept a (quiet m s).1 := by
  unfold quiet
  repeat' split
  all_goals first | exact h | exact settle_kept (setNotices_kept _ ⟨rfl, .refl _⟩ h)

theorem cancelPupil_kept {a s : State} {n : Notice} {k : Slot} {i : Nat} (hn : n ∈ s.notices.queue) (ha : n.addressee = .pupil k i)
    (h : Kept a s) : Kept a (cancelPupil n k s) := by
  have h1 := withdrawWhere_kept (·.number = n.number)
    (fun r x m hm e => by rw [(h.notices r x).unique hn hm (by simpa using e)]; exact isPupil_iff.2 ⟨k, i, ha⟩) h
  have one (r : RollOk a) (x : NoticesOk a) (j : Slot)
      (y : False ∨ ∃ m ∈ s.notices.queue, m.isAbsentOf j = true ∧ decide (m.number = n.number) = true) :
      n.kind = .absent ∧ j = k := by
    obtain ⟨m, hm, e1, e2⟩ := y.resolve_left id
    rw [(h.notices r x).unique hn hm (by simpa using e2)] at e1
    obtain ⟨c, d, _⟩ := isAbsentOf_iff.1 e1
    obtain ⟨l, hl⟩ := isTo_iff.1 d
    rw [ha] at hl; cases hl
    exact ⟨c, rfl⟩
  unfold cancelPupil
  dsimp only
  split
  · refine (raise_kept _ _ (claim_kept k _ (fun _ _ p _ => ?_) h1)).mono fun r x j _ y => ?_
    · unfold SafeDay; split <;> simp_all
    · obtain ⟨y, hm⟩ := y
      obtain ⟨_, rfl⟩ := one r x j y
      rw [markAt_claim_self] at hm
      cases hp : pupilAt j (withdrawWhere (·.number = n.number) s) with
      | none => rw [hp] at hm; cases hm
      | some p =>
        rw [hp] at hm
        simp only [Option.map_some, Option.some.injEq] at hm
        split at hm
        · exact nomatch hm
        · contradiction
  · rename_i hk
    exact h1.mono fun r x j _ y => hk (one r x j y).1

theorem cancel_kept {a s : State} (n : Nat) (h : Kept a s) : Kept a (cancel n s).1 := by
  unfold cancel
  split
  · exact h
  · split
    · exact h
    · split
      · exact h
      · rename_i n hn _
        obtain ⟨hm, _⟩ := noticeAt_mem hn
        refine settle_kept ?_
        split
        · rename_i ha
          exact cancelPupil_kept hm ha h
        · rename_i b ha
          refine finishBroadcasts_kept (updateBroadcast_kept _ _ (fun _ _ _ _ _ _ _ => Nat.zero_le _)
            (updateNotice_kept _ _ (fun r x m hm' e => ?_) h))
          rw [(h.notices r x).unique hm hm' e]
          refine ⟨⟨rfl, rfl, fun _ => rfl, fun _ => rfl, fun _ k i hi => ?_⟩, fun hk => ?_, .of_eq rfl,
            fun _ _ e => e.congr rfl fun _ _ hj => ⟨hj, id⟩⟩
          · rw [ha] at hi; cases hi
          · obtain ⟨k, i, hi⟩ := ((h.notices r x).addressed n hm).toPupil (by simp [hk]) (by simp [hk])
            rw [ha] at hi; cases hi

theorem text_kept {a s : State} (k : Nat) (x : TextAction) (h : Kept a s) : Kept a (text k x s).1 := by
  unfold text
  repeat' split
  all_goals first | exact h | exact h.set rfl

theorem post_kept {a s : State} (x : PostArgs) (h : Kept a s) : Kept a (post x s).1 := by
  unfold post
  repeat' split
  all_goals first
    | exact h
    | exact settle_kept (addNotice_kept _ _ _ (by simp) (fun b hb => by cases hb) trivial
        (fun _ _ => Nat.lt_of_not_le (of_decide_eq_false (Bool.eq_false_iff.2 (by assumption)))) h)

theorem broadcast_kept {a s : State} (x : BroadcastArgs) (h : Kept a s) : Kept a (broadcast x s).1 := by
  unfold broadcast
  repeat' split
  all_goals first
    | exact h
    | exact settle_kept (addNotice_kept _ _ _ (by simp) (fun b hb => by cases hb; rfl) trivial
        (fun _ _ => Nat.lt_of_not_le (of_decide_eq_false (Bool.eq_false_iff.2 (by assumption)))) h)

theorem outcomeLimitMet_kept {a s : State} (k : SendKey) (h : Kept a s) : Kept a (outcomeLimitMet k s) := by
  unfold outcomeLimitMet
  split
  · exact h
  · rename_i x hx
    have h1 := reach_kept (x.sentAt + outcomeLimitAfter) h
    exact Kept.ite (settle_kept (failSend_kept _ (fun r y => dropSend_spent (h1.notices r y) hx) (dropSend_kept _ h1))) h

theorem busyPauseEnds_kept {a s : State} (h : Kept a s) : Kept a (busyPauseEnds s) := by
  unfold busyPauseEnds
  split
  · exact h
  · exact Kept.ite (settle_kept (setNotices_kept _ ⟨rfl, .refl _⟩ (reach_kept _ h))) h

theorem deadlineOf_kept {a s : State} (kind : NoticeKind) (n : Nat) (h : Kept a s) : Kept a (deadlineOf kind n s) := by
  unfold deadlineOf
  split
  · exact h
  · rename_i n hn
    exact Kept.ite (settle_kept (testDeadline_kept _ (fun r x => (h.notices r x).named (noticeAt_mem hn).1) h)) h

theorem quietWindowEnds_kept {a s : State} (h : Kept a s) : Kept a (quietWindowEnds s) :=
  Kept.ite (settle_kept (setNotices_kept _ ⟨rfl, .refl _⟩ h)) h

/-! ### The gateway -/

theorem clearTimeouts_kept {a s : State} (h : Kept a s) : Kept a (clearTimeouts s) := Kept.ite (setGateway_kept _ h) h

theorem takeReceipt_kept {a s : State} (k : SendKey) (x : TakeAnswer) (h : Kept a s) : Kept a (takeReceipt k x s).1 := by
  unfold takeReceipt
  split
  · exact h
  · rename_i hx
    split
    · refine clearTimeouts_kept (setNotices_kept _ ⟨rfl, ?_⟩ h)
      rw [List.map_map, List.map_congr_left (g := (·.key)) fun x _ => by simp only [Function.comp]; split <;> rfl]
    · exact clearTimeouts_kept (setNotices_kept _ ⟨rfl, .refl _⟩
        (returnSend_kept _ (fun r x => dropSend_room (h.notices r x) hx) (dropSend_kept _ h)))
    · exact clearTimeouts_kept (failSend_kept _ (fun r x => dropSend_spent (h.notices r x) hx) (dropSend_kept _ h))
    · exact h
    · exact h

theorem takeOutcome_kept {a s : State} (k : SendKey) (d : Bool) (h : Kept a s) : Kept a (takeOutcome k d s).1 := by
  unfold takeOutcome
  split
  · exact h
  · rename_i hx
    have hu (r : RollOk a) (x : NoticesOk a) := dropSend_spent (h.notices r x) hx
    exact Kept.ite (deliverSend_kept _ hu (dropSend_kept _ h)) (failSend_kept _ hu (dropSend_kept _ h))

theorem sendPing_kept {a s : State} (t : RunTime) (h : Kept a s) : Kept a (sendPing t s) := h.set rfl

theorem countTimeout_kept {a s : State} (h : Kept a s) : Kept a (countTimeout s) :=
  Kept.ite h (Kept.ite (setGateway_kept _ h) (raise_kept _ _ (sendPing_kept _ (setGateway_kept _ (setGateway_kept _ h)))))

theorem takeTimedOut_kept {a s : State} (k : SendKey) (h : Kept a s) : Kept a (takeTimedOut k s) := by
  unfold takeTimedOut
  split
  · exact h
  · rename_i x hx
    have h1 := reach_kept (x.sentAt + takeTimeoutAfter) h
    exact Kept.ite (settle_kept (countTimeout_kept
      (returnSend_kept _ (fun r x => dropSend_room (h1.notices r x) hx) (dropSend_kept _ h1)))) h

theorem pingDue_kept {a s : State} (h : Kept a s) : Kept a (pingDue s) := by
  unfold pingDue
  split
  · exact Kept.ite (sendPing_kept _ (reach_kept _ h)) h
  · exact h

theorem takePong_kept {a s : State} (n : Nat) (h : Kept a s) : Kept a (takePong n s).1 := by
  unfold takePong
  split
  · exact raise_kept _ _ (setGateway_kept _ h)
  · exact h

theorem repliedTo_safe (c : ReplyCode) (d : DayPart) : SafeDay d (repliedTo c d) := by
  unfold SafeDay repliedTo
  split
  · exact ⟨id, id⟩
  · split
    · simp
    · simp
    · split <;> simp
    · exact ⟨id, id⟩

theorem takeReply_kept {a s : State} (r : ParentReply) (h : Kept a s) : Kept a (takeReply r s).1 := by
  unfold takeReply
  dsimp only
  have h1 (l : List Slot) : Kept a (replyMarks r l s) :=
    Kept.ite (Kept.foldl (fun s k => claimSafe_kept k _ (fun _ _ _ _ => repliedTo_safe r.code _) (Kept.refl s)) _ h) h
  have h2 (x : Option (Date × Date)) (l : List Slot) : Kept a (replyRanges x l (replyMarks r l s)) := by
    unfold replyRanges
    split
    · exact h1 l
    · exact Kept.foldl (fun s k => takeRange_kept _ _ k (Kept.refl s)) _ (h1 l)
  split
  · exact h
  · split
    · exact Kept.ite h (raise_kept _ _ (setGateway_kept _ h))
    · dsimp only
      split
      · exact h2 _ _
      · exact raise_kept _ _ (setGateway_kept _ (h2 _ _))

theorem frameDropped_kept {a s : State} (h : Kept a s) : Kept a (frameDropped s) := setGateway_kept _ h

theorem recordEffect_kept {a s : State} (r : Inbound) (h : Kept a s) : Kept a (recordEffect r s).1 := by
  unfold recordEffect
  split
  · exact takeReceipt_kept _ _ h
  · exact takeOutcome_kept _ _ h
  · exact takePong_kept _ h
  · exact takeReply_kept _ h

theorem takeRecord_kept {a s : State} (r : Inbound) (h : Kept a s) : Kept a (takeRecord r s) :=
  Kept.ite (frameDropped_kept h) (settle_kept (sendFrame_kept _ (recordEffect_kept _ (setGateway_kept _ h))))

theorem gatewayByte_kept {a s : State} (b : Byte) (h : Kept a s) : Kept a (gatewayByte b s) := by
  unfold gatewayByte
  split
  · exact Kept.ite (setGateway_kept _ h) h
  · refine Kept.ite ?_ (setGateway_kept _ h)
    unfold frameComplete
    split
    · exact frameDropped_kept h
    · split
      · exact frameDropped_kept h
      · exact takeRecord_kept _ h

theorem frameGap_kept {a s : State} (h : Kept a s) : Kept a (frameGap s) := Kept.ite (frameDropped_kept h) h
theorem frameSent_kept {a s : State} (h : Kept a s) : Kept a (frameSent s) := setGateway_kept _ h

theorem inbox_kept {a s : State} (x : InboxArgs) (h : Kept a s) : Kept a (inbox x s).1 := by
  unfold inbox inboxText
  repeat' split
  all_goals first | exact h | exact h.set rfl

theorem discard_kept {a s : State} (x : DiscardArgs) (h : Kept a s) : Kept a (discard x s).1 := by
  unfold discard removeMessages
  repeat' split
  all_goals first | exact h | exact h.set rfl

/-! ### Attention -/

theorem ack_kept {a s : State} (n : Nat) (c : Option Nat) (h : Kept a s) : Kept a (ack n c s).1 := by
  unfold ack
  repeat' split
  any_goals exact h
  refine h.trans ⟨rfl, rfl, rfl, rfl, fun x => ⟨by simpa [acknowledge] using x.1, fun y hy => ?_⟩, fun r => r.congr rfl rfl,
    fun z => z.congr rfl, fun _ n => n.congr rfl⟩
  rcases List.mem_or_eq_of_mem_set hy with e | e
  · exact x.2 _ e
  · subst e; simp [Source.clear]

theorem level_kept {a s : State} (n : Nat) (w : Option (Nat × Option Bool)) (h : Kept a s) : Kept a (level n w s).1 := by
  unfold level
  repeat' split
  all_goals first | exact h | exact h.set rfl

theorem floor_kept {a s : State} (v : Option Nat) (h : Kept a s) : Kept a (floor v s).1 := by
  unfold floor
  repeat' split
  all_goals first | exact h | exact h.set rfl

end Sys2Proof.Machine
end

