-- ==== Sys2Proof/Laws/Lengths.lean ====
section
/-! SUPPORT. How long the text of a reply's values is, and that the values of GET STORE (R205) and the summary of NOTICES (R175) fit
in one line (R192). -/

namespace Sys2Proof.Machine

/-! ### Lengths of values -/

/-- The length of one value with the space before it. -/
def itemLength (i : Item) : Nat := (itemText i).length + 1

/-- The length of the text of some values. -/
def itemsLength (l : List Item) : Nat := (l.map itemLength).sum

theorem itemsText_length (l : List Item) : (itemsText l).length = itemsLength l := by
  induction l with
  | nil => rfl
  | cons i t ih =>
    show (chr ' ' :: itemText i ++ itemsText t).length = itemLength i + itemsLength t
    rw [List.length_append, List.length_cons, ih]
    rfl

theorem fits_of_length {l : List Item} (h : itemsLength l ≤ 239) : fits l = true := by
  unfold fits
  rw [itemsText_length]
  exact decide_eq_true (by omega)

theorem itemsLength_append (l r : List Item) : itemsLength (l ++ r) = itemsLength l + itemsLength r := by
  simp only [itemsLength, List.map_append, List.sum_append]

theorem itemsLength_cons (i : Item) (t : List Item) : itemsLength (i :: t) = itemLength i + itemsLength t := rfl

theorem itemsLength_nil : itemsLength [] = 0 := rfl

/-- Values of at most `k` characters each. -/
theorem itemsLength_le {k : Nat} {l : List Item} (h : ∀ i ∈ l, itemLength i ≤ k) : itemsLength l ≤ l.length * k := by
  induction l with
  | nil => exact Nat.zero_le _
  | cons i t ih =>
    rw [itemsLength_cons, List.length_cons, Nat.succ_mul, Nat.add_comm]
    exact Nat.add_le_add (ih fun j hj => h j (List.mem_cons_of_mem _ hj)) (h i (List.mem_cons_self ..))

/-- The values of entries of at most `k` characters each. -/
theorem itemsLength_flatMap_le {α : Type} {k : Nat} {f : α → List Item} {l : List α} (h : ∀ a ∈ l, itemsLength (f a) ≤ k) :
    itemsLength (l.flatMap f) ≤ l.length * k := by
  induction l with
  | nil => exact Nat.zero_le _
  | cons a t ih =>
    rw [List.flatMap_cons, itemsLength_append, List.length_cons, Nat.succ_mul, Nat.add_comm]
    exact Nat.add_le_add (ih fun j hj => h j (List.mem_cons_of_mem _ hj)) (h a (List.mem_cons_self ..))

/-- A number below 10 to the power `k` has at most `k` digits. -/
theorem num_length {n k : Nat} (hk : 0 < k) (h : n < 10 ^ k) : itemLength (.num n) ≤ k + 1 := by
  show ((Nat.toDigits 10 n).map chr).length + 1 ≤ k + 1
  rw [List.length_map]
  exact Nat.succ_le_succ ((Nat.length_toDigits_le_iff (by decide) hk).2 h)

/-- A time of day is eight characters. -/
theorem time_length {t : Nat} (h : t < 86400) : itemLength (.time t) = 9 := by
  have two : ∀ n < 100, (padded 2 n).length = 2 := by decide +kernel
  have h1 := two (t / 3600) (by omega)
  have h2 := two (t / 60 % 60) (by omega)
  have h3 := two (t % 60) (by omega)
  simp only [itemLength, itemText, timeText, minutesText, List.length_append, List.length_cons, h1, h2, h3]

theorem named_length (n : String) (v : Item) : itemLength (.named n v) = (ascii n).length + 1 + itemLength v := by
  simp only [itemLength, itemText, List.length_append, List.length_cons]
  omega

/-! ### GET STORE -/

/-- A set of area numbers is at most eleven characters. -/
theorem areaSet_length (p : Area → Bool) : itemLength (.set ((allAreas.filter p).map areaNumber)) ≤ 12 := by
  have all : ∀ b0 b1 b2 b3 b4 b5 b6 b7 b8 : Bool,
      (setText (([(0, b0), (1, b1), (2, b2), (3, b3), (4, b4), (5, b5), (6, b6), (7, b7), (8, b8)].filter Prod.snd).map
        Prod.fst)).length ≤ 11 := by
    decide +kernel
  have e : (allAreas.filter p).map areaNumber =
      ([(0, p .settings), (1, p .limits), (2, p .plans), (3, p .patterns), (4, p .calendar), (5, p .texts), (6, p .roster),
        (7, p .away), (8, p .terminals)].filter Prod.snd).map Prod.fst := by
    rw [show ([(0, p .settings), (1, p .limits), (2, p .plans), (3, p .patterns), (4, p .calendar), (5, p .texts), (6, p .roster),
      (7, p .away), (8, p .terminals)] : List (Nat × Bool)) = allAreas.map fun a => (areaNumber a, p a) from rfl,
      List.filter_map, List.map_map]
    rfl
  rw [e]
  exact Nat.succ_le_succ (all ..)

theorem storeKind_length (k : StoreKind) : itemLength (.word (storeKindWord k)) ≤ 9 := by
  cases k <;> decide +kernel

theorem area_length (a : Area) : itemLength (.word (areaWord a)) ≤ 10 := by
  cases a <;> decide +kernel

/-- The operation under way is at most 39 characters. -/
theorem operationItems_length (o : Option StoreOperation) : itemsLength (operationItems o) ≤ 39 := by
  cases o with
  | none => decide +kernel
  | some o =>
    have h1 := storeKind_length o.kind
    have h2 := areaSet_length o.areas.contains
    have h3 : itemsLength (optItem "RUNNING" (fun a => .word (areaWord a)) o.rest.head?) ≤ 18 := by
      cases o.rest.head? with
      | none => exact Nat.zero_le _
      | some a =>
        have := area_length a
        simp only [optItem, itemsLength_cons, itemsLength_nil, named_length]
        have e : (ascii "RUNNING").length = 7 := by decide +kernel
        omega
    simp only [operationItems, itemsLength_append, itemsLength_cons, itemsLength_nil]
    omega

theorem resultItem_length (r : OperationRecord) (a : Area) (i : Item) (h : resultItem r a = some i) : itemLength i ≤ 15 := by
  obtain ⟨e, -, rfl⟩ := Option.map_eq_some_iff.1 h
  have h1 : (ascii (areaTag a)).length = 2 := by cases a <;> decide +kernel
  have h2 : itemLength (.word (resultWord e.2)) ≤ 12 := by cases e.2 <;> decide +kernel
  rw [named_length]
  omega

/-- The last operation record is at most 177 characters. -/
theorem recordItems_length (r : Option OperationRecord) (h : ∀ x, r = some x → x.start < 86400 ∧ x.finish < 86400) :
    itemsLength (recordItems r) ≤ 177 := by
  cases r with
  | none => exact Nat.zero_le _
  | some x =>
    have hx := h x rfl
    have h1 := storeKind_length x.kind
    have h2 : itemsLength (allAreas.filterMap (resultItem x)) ≤ 9 * 15 :=
      (itemsLength_le fun i hi => by
        obtain ⟨a, -, ha⟩ := List.mem_filterMap.1 hi
        exact resultItem_length x a i ha).trans (Nat.mul_le_mul_right 15 (List.length_filterMap_le ..))
    have e1 : (ascii "LAST").length = 4 := by decide +kernel
    have e2 : (ascii "START").length = 5 := by decide +kernel
    have e3 : (ascii "END").length = 3 := by decide +kernel
    simp only [recordItems, itemsLength_append, itemsLength_cons, itemsLength_nil, named_length, time_length hx.1, time_length hx.2]
    omega

/-- The values of GET STORE fit in one line, whatever operation runs and whatever the record (R192, R205). -/
theorem storeItems_fits (s : State) (h : ∀ r, s.store.lastOperation = some r → r.start < 86400 ∧ r.finish < 86400) :
    fits (storeItems s) = true := by
  have h1 := operationItems_length s.store.operation
  have h2 := recordItems_length s.store.lastOperation h
  have h3 : itemLength (yesNo s.pins.install) ≤ 4 := by cases s.pins.install <;> decide +kernel
  refine fits_of_length ?_
  simp only [storeItems, itemsLength_append, itemsLength_cons, itemsLength_nil]
  omega

/-! ### NOTICES -/

/-- The sizes the summary of NOTICES has in a run: at most four sends with keys of their ranges, none older than 9,999 s, times of
the day, a busy pause of at most 99 s, counts of at most 65,535. -/
def SummaryOk (s : State) : Prop :=
  s.notices.queue.length ≤ 128 ∧ s.notices.window.length ≤ 4 ∧
    (∀ x ∈ s.notices.window, x.key.number ≤ 65535 ∧ x.key.slot < 2048 ∧ x.key.position ≤ 2 ∧ secondsSince x.sentAt s < 10000) ∧
    (∀ t, s.notices.quietEnd = some t → t < 86400) ∧ (∀ t, s.notices.deadline = some t → t < 86400) ∧
    (∀ t, s.notices.busyEnd = some t → secondsLeft t s < 100) ∧
    ∀ r, s.notices.lastBroadcast = some r → r.number ≤ 65535 ∧ r.sent ≤ 65535 ∧ r.delivered ≤ 65535 ∧ r.failed ≤ 65535

theorem sendItems_length (s : State) (x : Send)
    (h : x.key.number ≤ 65535 ∧ x.key.slot < 2048 ∧ x.key.position ≤ 2 ∧ secondsSince x.sentAt s < 10000) :
    itemsLength (sendItems s x) ≤ 32 := by
  have h1 := num_length (k := 5) (by decide) (show x.key.number < 10 ^ 5 by omega)
  have h2 := num_length (k := 4) (by decide) (Nat.lt_trans h.2.1 (by decide) : x.key.slot < 10 ^ 4)
  have h3 := num_length (k := 1) (by decide) (show x.key.position < 10 ^ 1 by omega)
  have h4 := num_length (k := 4) (by decide) (show secondsSince x.sentAt s < 10 ^ 4 by omega)
  have h5 : itemLength (.word (sendStateWord x.state)) ≤ 14 := by
    cases x.state <;> decide +kernel
  simp only [sendItems, itemsLength_cons, itemsLength_nil]
  omega

theorem timeOrNone_length {t : Option SchoolTime} (h : ∀ x, t = some x → x < 86400) : itemLength (timeOrNone t) ≤ 9 := by
  cases t with
  | none => decide +kernel
  | some x => exact Nat.le_of_eq (time_length (h x rfl))

theorem lastBroadcastItems_length (r : Option BroadcastRecord)
    (h : ∀ x, r = some x → x.number ≤ 65535 ∧ x.sent ≤ 65535 ∧ x.delivered ≤ 65535 ∧ x.failed ≤ 65535) :
    itemsLength (lastBroadcastItems r) ≤ 47 := by
  cases r with
  | none => exact Nat.zero_le _
  | some x =>
    have hx := h x rfl
    have h1 := num_length (k := 5) (by decide) (show x.number < 10 ^ 5 by omega)
    have h2 := num_length (k := 5) (by decide) (show x.sent < 10 ^ 5 by omega)
    have h3 := num_length (k := 5) (by decide) (show x.delivered < 10 ^ 5 by omega)
    have h4 := num_length (k := 5) (by decide) (show x.failed < 10 ^ 5 by omega)
    have h5 : itemLength (.word (noticeKindWord x.kind)) ≤ 8 := by cases x.kind <;> decide +kernel
    have h6 : itemLength (.word (endWord x.ending)) ≤ 10 := by cases x.ending <;> decide +kernel
    have e : (ascii "LAST").length = 4 := by decide +kernel
    simp only [lastBroadcastItems, itemsLength_cons, itemsLength_nil, named_length]
    omega

/-- Of three counts of which two sum to 128, the digits. -/
theorem counts_length (n absent window : Nat) (hn : n ≤ 128) (ha : absent ≤ n) (hw : window ≤ 4) :
    itemsLength [.num n, .num absent, .num (128 - n), .num window] ≤ 13 := by
  have hw' := num_length (k := 1) (by decide) (show window < 10 ^ 1 by omega)
  simp only [itemsLength_cons, itemsLength_nil]
  by_cases h : n < 100
  · have h1 := num_length (k := 2) (by decide) (show n < 10 ^ 2 by omega)
    have h2 := num_length (k := 2) (by decide) (show absent < 10 ^ 2 by omega)
    have h3 := num_length (k := 3) (by decide) (show 128 - n < 10 ^ 3 by omega)
    omega
  · have h1 := num_length (k := 3) (by decide) (show n < 10 ^ 3 by omega)
    have h2 := num_length (k := 3) (by decide) (show absent < 10 ^ 3 by omega)
    have h3 := num_length (k := 2) (by decide) (show 128 - n < 10 ^ 2 by omega)
    omega

/-- The summary of NOTICES fits in one line with what follows it, the number of the next page or END (R175, R192). -/
theorem noticesHead_fits (s : State) (h : SummaryOk s) (next : Option Notice)
    (hn : ∀ n, next = some n → n.number ≤ 65535) : fits (noticesHead s ++ nextNumber (·.number) next) = true := by
  obtain ⟨hq, hw, hx, h1, h2, h3, h4⟩ := h
  have l0 := counts_length s.notices.queue.length (absentCount s) s.notices.window.length hq (List.countP_le_length ..) hw
  have l1 : itemsLength (s.notices.window.flatMap (sendItems s)) ≤ 4 * 32 :=
    (itemsLength_flatMap_le fun x m => sendItems_length s x (hx x m)).trans (Nat.mul_le_mul_right 32 hw)
  have l2 : itemLength (onOff s.notices.globalHold) ≤ 4 := by cases s.notices.globalHold <;> decide +kernel
  have l3 := timeOrNone_length h1
  have l4 := timeOrNone_length h2
  have l5 : itemLength (.word (selectWord (tableInForce s))) ≤ 10 := by cases tableInForce s <;> decide +kernel
  have l6 : itemLength (yesNo (sendingAllowed s)) + itemsLength (optItem "PAUSE" (fun t => .num (secondsLeft t s)) s.notices.busyEnd) ≤
      12 := by
    cases hb : s.notices.busyEnd with
    | none =>
      have : itemLength (yesNo (sendingAllowed s)) ≤ 4 := by cases sendingAllowed s <;> decide +kernel
      exact Nat.le_trans this (by decide)
    | some t =>
      have e : sendingAllowed s = false := by simp [sendingAllowed, hb]
      have e' : itemLength (yesNo false) = 3 := by decide +kernel
      have p : (ascii "PAUSE").length = 5 := by decide +kernel
      have := num_length (k := 2) (by decide) (show secondsLeft t s < 10 ^ 2 from h3 t hb)
      simp only [e, e', optItem, itemsLength_cons, itemsLength_nil, named_length]
      omega
  have l7 := lastBroadcastItems_length _ h4
  have l8 : itemsLength (nextNumber (·.number) next) ≤ 6 := by
    cases next with
    | none => decide +kernel
    | some n => exact num_length (k := 5) (by decide) (show n.number < 10 ^ 5 by have := hn n rfl; omega)
  refine fits_of_length ?_
  rw [show noticesHead s = [.num s.notices.queue.length, .num (absentCount s), .num (128 - s.notices.queue.length),
    .num s.notices.window.length] ++ s.notices.window.flatMap (sendItems s) ++
    [onOff s.notices.globalHold, timeOrNone s.notices.quietEnd, timeOrNone s.notices.deadline,
      .word (selectWord (tableInForce s)), yesNo (sendingAllowed s)] ++
    optItem "PAUSE" (fun t => .num (secondsLeft t s)) s.notices.busyEnd ++ lastBroadcastItems s.notices.lastBroadcast from rfl]
  simp only [itemsLength_append, itemsLength_cons, itemsLength_nil] at *
  omega

end Sys2Proof.Machine
end

