-- ==== Sys2Proof/Laws/NoticeFrame.lean ====
section
/-! SUPPORT. What a claim on a mark, the Notice Dispatcher's work and the taking of plan entries leave alone, each as the part of the
state that it does not touch. -/

namespace Sys2Proof.Machine

/-! ### Claims and the Notice Dispatcher -/

/-- What a claim, a withdrawal and the Dispatcher's choice leave alone: everything but the pupils' records and counts, the sweep's
state, the queue, the window, the last broadcast record, the outbound frames and the attention sources. -/
def noticeRest (s : State) :=
  ((s.time, s.day, s.plan, s.roll.away, s.sweep.list, s.sweep.cursor, s.chime, s.zone, s.line),
    (s.notices.counter, s.notices.globalHold, s.notices.quietEnd, s.notices.busyEnd, s.notices.deadline, s.notices.texts),
    (s.gateway.link, s.gateway.timeouts, s.gateway.pingNumber, s.gateway.nextPing, s.gateway.discarded, s.gateway.frame,
      s.gateway.inbox, s.gateway.inboxCounter, s.gateway.inboxFull),
    s.office, s.settings, s.limits, s.store, s.power, s.pins, s.pending)

theorem raise_noticeRest (id : SourceId) (x : Option Subject) (s : State) : noticeRest (raise id x s) = noticeRest s := rfl

theorem setQueue_noticeRest (q : List Notice) (s : State) : noticeRest (setQueue q s) = noticeRest s := by
  unfold setQueue sweepResume
  dsimp only
  repeat' split
  all_goals rfl

theorem withdrawWhere_noticeRest (p : Notice → Bool) (s : State) : noticeRest (withdrawWhere p s) = noticeRest s :=
  setQueue_noticeRest _ s

theorem removeNotice_noticeRest (n : Nat) (s : State) : noticeRest (removeNotice n s) = noticeRest s := setQueue_noticeRest _ s

theorem claim_noticeRest (k : Slot) (f : DayPart → DayPart) (s : State) : noticeRest (claim k f s) = noticeRest s := by
  unfold claim
  split
  · rfl
  · dsimp only
    split
    · rw [withdrawWhere_noticeRest]; rfl
    · rfl

theorem makeUnreached_noticeRest (src : MarkSource) (k : Slot) (s : State) : noticeRest (makeUnreached src k s) = noticeRest s := by
  unfold makeUnreached; rw [raise_noticeRest, claim_noticeRest]

theorem excuseUnaccounted_noticeRest (src : MarkSource) (r : ExcuseReason) (k : Slot) (s : State) :
    noticeRest (excuseUnaccounted src r k s) = noticeRest s := claim_noticeRest _ _ s

theorem exhaust_noticeRest (n : Notice) (k : Slot) (s : State) : noticeRest (exhaust n k s) = noticeRest s := by
  unfold exhaust
  dsimp only
  split
  · rw [makeUnreached_noticeRest, removeNotice_noticeRest]
  · rw [raise_noticeRest, removeNotice_noticeRest]

theorem updateNotice_noticeRest (n : Nat) (f : Notice → Notice) (s : State) : noticeRest (updateNotice n f s) = noticeRest s := rfl
theorem updateBroadcast_noticeRest (n : Nat) (f : BroadcastState → BroadcastState) (s : State) :
    noticeRest (updateBroadcast n f s) = noticeRest s := rfl
theorem issueSend_noticeRest (n : Notice) (k : Slot) (i : Nat) (p : Pupil) (c : Contact) (s : State) :
    noticeRest (issueSend n k i p c s) = noticeRest s := rfl

theorem sendPupilNotice_noticeRest (n : Notice) (k : Slot) (i : Nat) (s : State) :
    noticeRest (sendPupilNotice n k i s) = noticeRest s := by
  unfold sendPupilNotice
  split
  · exact exhaust_noticeRest n k s
  · split
    · exact exhaust_noticeRest n k s
    · rw [issueSend_noticeRest, updateNotice_noticeRest]

theorem sendStep_noticeRest (n : Notice) (k : Slot) (i : Nat) (s : State) : noticeRest (sendStep n k i s) = noticeRest s := by
  unfold sendStep
  split
  · rfl
  · split
    · rfl
    · rw [issueSend_noticeRest, updateBroadcast_noticeRest]

theorem sendBroadcast_noticeRest (n : Notice) (b : BroadcastState) (s : State) :
    noticeRest (sendBroadcast n b s) = noticeRest s := by
  unfold sendBroadcast
  split
  · rw [sendStep_noticeRest, updateBroadcast_noticeRest]
  · split
    · rfl
    · rw [sendStep_noticeRest, updateBroadcast_noticeRest]

theorem endBroadcast_noticeRest (n : Notice) (b : BroadcastState) (s : State) :
    noticeRest (endBroadcast n b s) = noticeRest s := by
  unfold endBroadcast
  dsimp only
  rw [raise_noticeRest]
  exact removeNotice_noticeRest n.number s

theorem finishBroadcast_noticeRest (s : State) (n : Notice) : noticeRest (finishBroadcast s n) = noticeRest s := by
  unfold finishBroadcast
  split
  · rfl
  · split
    · rfl
    · exact endBroadcast_noticeRest _ _ s

theorem foldl_noticeRest {α : Type} {f : State → α → State} (hf : ∀ s x, noticeRest (f s x) = noticeRest s) (l : List α)
    (s : State) : noticeRest (l.foldl f s) = noticeRest s := by
  induction l generalizing s with
  | nil => rfl
  | cons x t ih => exact (ih _).trans (hf s x)

theorem finishBroadcasts_noticeRest (s : State) : noticeRest (finishBroadcasts s) = noticeRest s :=
  foldl_noticeRest finishBroadcast_noticeRest _ s

theorem chooseOnce_noticeRest {s t : State} (e : chooseOnce s = some t) : noticeRest t = noticeRest s := by
  unfold chooseOnce at e
  split at e
  · split at e
    · simp at e
    · split at e <;> (simp only [Option.some.injEq] at e; subst e)
      · exact sendPupilNotice_noticeRest _ _ _ s
      · rw [finishBroadcasts_noticeRest, sendBroadcast_noticeRest]
  · simp at e

theorem choose_noticeRest (s : State) : noticeRest (choose s) = noticeRest s := by
  unfold choose
  generalize 1024 = fuel
  induction fuel generalizing s with
  | zero => rfl
  | succ fuel ih =>
    unfold chooseFuel
    split
    · rfl
    · rename_i e; rw [ih, chooseOnce_noticeRest e]

theorem testDeadline_noticeRest (s : State) (n : Notice) : noticeRest (testDeadline s n) = noticeRest s := by
  unfold testDeadline
  split
  · rfl
  · split
    · split
      · rfl
      · exact exhaust_noticeRest _ _ s
    · split
      · rfl
      · exact updateBroadcast_noticeRest _ _ s

theorem testDeadlines_noticeRest (s : State) : noticeRest (testDeadlines s) = noticeRest s :=
  foldl_noticeRest testDeadline_noticeRest _ s

theorem settle_noticeRest (s : State) : noticeRest (settle s) = noticeRest s := by
  unfold settle
  rw [choose_noticeRest, finishBroadcasts_noticeRest, testDeadlines_noticeRest]

theorem returnSend_noticeRest (k : SendKey) (s : State) : noticeRest (returnSend k s) = noticeRest s := by
  unfold returnSend
  split
  · rfl
  · split
    · split
      · rfl
      · exact updateBroadcast_noticeRest _ _ s
    · split
      · exact removeNotice_noticeRest _ s
      · exact updateNotice_noticeRest _ _ s

theorem failSend_noticeRest (k : SendKey) (s : State) : noticeRest (failSend k s) = noticeRest s := by
  unfold failSend
  split
  · rfl
  · split
    · exact updateBroadcast_noticeRest _ _ s
    · split
      · exact removeNotice_noticeRest _ s
      · split
        · exact updateNotice_noticeRest _ _ s
        · exact exhaust_noticeRest _ _ s

theorem dropSend_noticeRest (k : SendKey) (s : State) : noticeRest (dropSend k s) = noticeRest s := rfl

/-! ### The taking of plan entries and the close -/

/-- What the taking of entries and the close of the day leave alone. -/
def planRest (s : State) :=
  ((s.time, s.day.date, s.day.bank, s.day.openingTime, s.day.cursor, s.day.closureFlag, s.day.closureText, s.day.calendar),
    (s.plan.banks, s.plan.today.source, s.plan.today.header, s.plan.today.copyNumber, s.roll.away, s.chime.patterns,
      s.zone.mutes, s.zone.quietLatch, s.zone.buttonLatch, s.zone.press, s.line),
    (s.notices.window, s.notices.counter, s.notices.globalHold, s.notices.busyEnd, s.notices.lastBroadcast, s.notices.texts,
      s.gateway),
    s.office, s.settings, s.limits, s.store, s.power, s.pins, s.pending)

/-- What a claim leaves alone: the window and the gateway's outbound frames besides. -/
theorem planRest_of {s t : State} (h : noticeRest t = noticeRest s) (h1 : t.notices.window = s.notices.window)
    (h2 : t.notices.lastBroadcast = s.notices.lastBroadcast) (h3 : t.gateway.outbound = s.gateway.outbound) :
    planRest t = planRest s := by
  simp only [noticeRest, Prod.mk.injEq] at h
  obtain ⟨⟨a1, a2, a3, a4, a5, a6, a7, a8, a9⟩, ⟨b1, b2, b3, b4, b5, b6⟩, ⟨c1, c2, c3, c4, c5, c6, c7, c8, c9⟩, d⟩ := h
  have hg : t.gateway = s.gateway := by
    cases ht : t.gateway; cases hs : s.gateway; simp_all
  simp only [planRest, a1, a2, a3, a4, a7, a8, a9, b1, b2, b4, b6, h1, h2, hg, d]

theorem planRest_of_chime {s t : State} (h : chimeRest t = chimeRest s) : planRest t = planRest s := by
  simp only [chimeRest, Prod.mk.injEq] at h
  obtain ⟨⟨a1, a2, a3, a4, a5, a6, a7, a8⟩, ⟨b1, b2, b3, b4, b5, b6, b7, b8⟩, c1, c2, c3, c4, c5, c6, c7⟩ := h
  simp only [planRest, a1, a2, a3, a4, a5, a6, a7, b1, b2, b3, b4, b5, b6, b7, b8, c1, c2, c3, c4, c5, c6, c7]

theorem setQueue_planRest (q : List Notice) (s : State) : planRest (setQueue q s) = planRest s := by
  unfold setQueue sweepResume
  dsimp only
  repeat' split
  all_goals rfl

theorem claim_planRest (k : Slot) (f : DayPart → DayPart) (s : State) : planRest (claim k f s) = planRest s := by
  unfold claim
  split
  · rfl
  · dsimp only
    split
    · exact setQueue_planRest _ _
    · rfl

theorem makeUnreached_planRest (src : MarkSource) (k : Slot) (s : State) : planRest (makeUnreached src k s) = planRest s :=
  claim_planRest _ _ s

theorem foldl_planRest {α : Type} {f : State → α → State} (hf : ∀ s x, planRest (f s x) = planRest s) (l : List α)
    (s : State) : planRest (l.foldl f s) = planRest s := by
  induction l generalizing s with
  | nil => rfl
  | cons x t ih => exact (ih _).trans (hf s x)

theorem closeDayNow_planRest (c : CloseCause) (s : State) : planRest (closeDayNow c s) = planRest s := by
  unfold closeDayNow
  dsimp only
  have h (t : State) : planRest (raise .day none t) = planRest t := rfl
  rw [h, foldl_planRest fun s k => makeUnreached_planRest _ k s]
  exact setQueue_planRest _ _

theorem applyRoll_planRest (e : BankEntry) (s : State) : planRest (applyRoll e s) = planRest s := by
  unfold applyRoll
  split
  · rfl
  · rfl
  · rfl
  · rfl
  · unfold takeHold; dsimp only; split <;> rfl
  · exact closeDayNow_planRest _ s

theorem takeEntry_planRest (i : Nat) (e : PlanEntry) (s : State) : planRest (takeEntry i e s) = planRest s := by
  unfold takeEntry
  dsimp only
  rw [applyRoll_planRest]
  split
  · rfl
  · split
    · rfl
    · unfold requestChime
      rw [planRest_of_chime (decideRequest_rest _ _)]
      rfl

theorem takeEntries_planRest (ready : SchoolTime → Bool) (s : State) : planRest (takeEntries ready s) = planRest s := by
  refine foldl_planRest (fun s i => ?_) _ s
  unfold takeIf
  split
  · rfl
  · split
    · exact takeEntry_planRest _ _ s
    · rfl

end Sys2Proof.Machine
end

