-- ==== Sys2Proof/Laws/Pages.lean ====
section
/-! SUPPORT. What a paged reply and a reply without pages hold (R192): as many entries as their rule allows and the line has room
for. -/

namespace Sys2Proof.Machine

theorem largest_le (ok : Nat → Bool) (k : Nat) : largest ok k ≤ k := by
  induction k with
  | zero => exact Nat.le_refl 0
  | succ k ih =>
    unfold largest
    split
    · exact Nat.le_refl _
    · exact Nat.le_succ_of_le ih

/-- The largest number passes, unless it is 0. -/
theorem largest_ok (ok : Nat → Bool) (k : Nat) : largest ok k = 0 ∨ ok (largest ok k) = true := by
  induction k with
  | zero => exact Or.inl rfl
  | succ k ih =>
    unfold largest
    split
    · rename_i h; exact Or.inr h
    · exact ih

/-- The number after the largest does not pass, where it lies in the range. -/
theorem largest_next (ok : Nat → Bool) (k : Nat) : largest ok k = k ∨ ok (largest ok k + 1) = false := by
  induction k with
  | zero => exact Or.inl rfl
  | succ k ih =>
    unfold largest
    split
    · exact Or.inl rfl
    · rename_i h
      rcases ih with e | e
      · exact Or.inr (by rw [e]; exact Bool.eq_false_iff.2 h)
      · exact Or.inr e

/-- Where a list goes on after its first `n` entries, one more of them is the next one. -/
theorem take_succ_of_drop {α : Type} {l more : List α} {n : Nat} {x : α} (h : l.drop n = x :: more) :
    l.take (n + 1) = l.take n ++ [x] ∧ l.drop (n + 1) = more := by
  constructor
  · rw [List.take_add_one, ← List.head?_drop, h]; rfl
  · rw [← List.tail_drop, h]; rfl

/-- A list that goes on after its first `n` entries is longer than `n`. -/
theorem lt_of_drop {α : Type} {l more : List α} {n : Nat} {x : α} (h : l.drop n = x :: more) : n < l.length :=
  Nat.lt_of_not_le fun hn => by rw [List.drop_eq_nil_iff.2 hn] at h; nomatch h

/-- Values cut for a line end after the last whole one that fits with what stands behind them. -/
theorem cutTo_spec (l tail : List Item) :
    ∃ n ≤ l.length, cutTo l tail = l.take n ++ tail ∧ (n = 0 ∨ fits (cutTo l tail) = true) ∧
      (n = l.length ∨ fits (l.take (n + 1) ++ tail) = false) :=
  ⟨_, largest_le _ _, rfl, largest_ok (fun n => fits (l.take n ++ tail)) _, largest_next _ _⟩

/-- Values cut for a line fit in it where what stands behind them does. -/
theorem cutTo_fits (l tail : List Item) (h : fits tail = true) : fits (cutTo l tail) = true := by
  obtain ⟨n, -, e, rfl | hf, -⟩ := cutTo_spec l tail
  · rw [e]; exact h
  · exact hf

/-- What a paged reply holds. -/
theorem pageItems_pageOf {α : Type} (limit : Nat) (head : List Item) (show_ : α → List Item) (next : Option α → List Item)
    (l : List α) : PageOf limit head show_ next l (pageItems limit head show_ next l) := by
  let page := fun n => head ++ (l.take n).flatMap show_ ++ next (l.drop n).head?
  let ok := fun n => fits (page n)
  have hle := largest_le ok (min limit l.length)
  have hn := largest_next ok (min limit l.length)
  have ho := largest_ok ok (min limit l.length)
  rw [show pageItems limit head show_ next l =
    if fits (page (largest ok (min limit l.length))) then page (largest ok (min limit l.length))
    else cutTo head (next l.head?) from rfl]
  generalize largest ok (min limit l.length) = n at hle hn ho ⊢
  refine ⟨l.take n, l.drop n, (List.take_append_drop n l).symm, ?_, ?_, ?_⟩
  · rw [List.length_take]; omega
  · cases hd : l.drop n with
    | nil => exact Or.inl rfl
    | cons x more =>
      have hlt := lt_of_drop hd
      rcases hn with e | e
      · exact Or.inr (Or.inl (by rw [List.length_take]; omega))
      · obtain ⟨h1, h2⟩ := take_succ_of_drop hd
        dsimp only [ok, page] at e
        rw [h1, h2] at e
        exact Or.inr (Or.inr ⟨x, more, rfl, e⟩)
  · show if fits (page n) then _ = page n else _
    by_cases hf : fits (page n) = true
    · rw [if_pos hf, if_pos hf]
    · rw [if_neg hf, if_neg hf]
      rcases ho with rfl | ho
      · exact ⟨rfl, cutTo_spec head (next l.head?)⟩
      · exact absurd ho hf

/-- A paged reply fits in its line where what names its next page does (R192). -/
theorem pageItems_fits {α : Type} (limit : Nat) (head : List Item) (show_ : α → List Item) (next : Option α → List Item)
    (l : List α) (h : fits (next l.head?) = true) : fits (pageItems limit head show_ next l) = true := by
  unfold pageItems
  dsimp only
  split
  · assumption
  · exact cutTo_fits head _ h

/-- What a reply without pages holds. -/
theorem moreItems_moreOf (start : Nat) (parts : List (List Item)) : MoreOf start parts (moreItems start parts) := by
  let l := parts.drop start
  let part := fun n => (l.take n).flatten ++ (if n < l.length then [Item.named "MORE" (.num (start + n))] else [])
  have shape (n : Nat) (h : n ≤ l.length) :
      part n = (l.take n).flatten ++ if l.drop n = [] then [] else [Item.named "MORE" (.num (start + (l.take n).length))] := by
    have e : (n < l.length) ↔ ¬(l.drop n = []) := by rw [List.drop_eq_nil_iff]; omega
    dsimp only [part]
    rw [List.length_take, Nat.min_eq_left h]
    by_cases hd : l.drop n = []
    · rw [if_neg (fun x => e.1 x hd), if_pos hd]
    · rw [if_pos (e.2 hd), if_neg hd]
  have hle := largest_le (fun n => fits (part n)) l.length
  have hn := largest_next (fun n => fits (part n)) l.length
  have ho := largest_ok (fun n => fits (part n)) l.length
  rw [show moreItems start parts = part (largest (fun n => fits (part n)) l.length) from rfl]
  generalize largest (fun n => fits (part n)) l.length = n at hle hn ho ⊢
  refine ⟨l.take n, l.drop n, (List.take_append_drop n l).symm, shape n hle, ?_, ?_⟩
  · exact ho.imp (fun e : n = 0 => by rw [e]; rfl) id
  · cases hd : l.drop n with
    | nil => exact Or.inl rfl
    | cons x more =>
      have hlt := lt_of_drop hd
      obtain ⟨h1, h2⟩ := take_succ_of_drop hd
      refine Or.inr ⟨x, more, rfl, ?_⟩
      have e := hn.resolve_left (by omega)
      rw [shape (n + 1) (by omega), h1, h2] at e
      exact e

/-- A reply without pages fits in its line where MORE does (R192). -/
theorem moreItems_fits (start : Nat) (parts : List (List Item))
    (h : fits [Item.named "MORE" (.num start)] = true) : fits (moreItems start parts) = true := by
  rcases largest_ok (fun n => fits (((parts.drop start).take n).flatten ++
    (if n < (parts.drop start).length then [Item.named "MORE" (.num (start + n))] else []))) (parts.drop start).length with e | e
  · unfold moreItems
    dsimp only
    rw [e]
    by_cases hp : 0 < (parts.drop start).length
    · rw [if_pos hp]; exact h
    · rw [if_neg hp]; rfl
  · exact e

end Sys2Proof.Machine
end

