-- ==== Sys2Proof/Laws/Plans.lean ====
section
/-! SUPPORT. Today's Plan gone through: what one entry taken leaves, and the run of the entries that a test picks (R58–R60). -/

namespace Sys2Proof.Machine

theorem takeEntry_eq_entryTaken {i : Nat} {e : PlanEntry} {s : State} (h : s.plan.today.entries[i]? = some e) :
    takeEntry i e s = entryTaken i e s := by
  have hm (f : PlanEntry → PlanEntry) : s.plan.today.entries.modify i f = s.plan.today.entries.set i (f e) := by
    rw [List.modify_eq_set_getElem?]
    simp [h]
  unfold takeEntry entryTaken modifyEntry requestChime allowedPriority
  simp only [hm, overridePriority]
  cases e.entry.chime with
  | none => rfl
  | some c => simp

/-- One index of the run: the entry there is taken where it is due, and the state stays else. -/
theorem takeIf_cases {ready : SchoolTime → Bool} {pick : SchoolTime → Prop} (h : ∀ t, ready t = true ↔ pick t) (i : Nat) (s : State) :
    (∃ e, EntryDue pick s i e ∧ takeIf ready s i = entryTaken i e s) ∨
      (∀ e, ¬EntryDue pick s i e) ∧ takeIf ready s i = s := by
  unfold takeIf
  split
  · rename_i hn
    refine .inr ⟨fun e he => ?_, rfl⟩
    have := he.2.1
    rw [hn] at this
    cases this
  · rename_i e he
    split
    · rename_i hc
      simp only [dayIsOpen, Bool.and_eq_true, decide_eq_true_eq] at hc
      exact .inl ⟨e, ⟨hc.1.1, he, hc.1.2, (h _).1 hc.2⟩, takeEntry_eq_entryTaken he⟩
    · rename_i hc
      refine .inr ⟨fun x hx => hc ?_, rfl⟩
      obtain ⟨h1, h2, h3, h4⟩ := hx
      rw [he] at h2
      cases h2
      simp [dayIsOpen, h1, h3, (h _).2 h4]

/-- The run of `takeIf` over some indexes. -/
theorem foldl_takeIf_planRun {ready : SchoolTime → Bool} {pick : SchoolTime → Prop} (h : ∀ t, ready t = true ↔ pick t) (l : List Nat) :
    ∀ s, PlanRun pick l s (l.foldl (takeIf ready) s) := by
  induction l with
  | nil => exact .over
  | cons i l ih =>
    intro s
    rw [List.foldl_cons]
    rcases takeIf_cases h i s with ⟨e, hd, ht⟩ | ⟨hd, ht⟩
    · rw [ht]; exact .takes hd (ih _)
    · rw [ht]; exact .passes hd (ih s)

end Sys2Proof.Machine
end

