-- ==== Sys2Proof/Laws/Reading.lean ====
section
/-! SUPPORT. The reading of office lines: what each form reads is what is written in it (R209), which lines pass the check test (R190)
and the grammar (R209), how a request's arguments are told into those in place and the Named ones, and where a request comes from. -/

namespace Sys2Proof.Machine

/-! ### Runs between separators -/

theorem splitAt1_eq_some_iff (sep : Byte) (t x r : Text) : splitAt1 sep t = (x, some r) ↔ t = x ++ sep :: r ∧ sep ∉ x := by
  induction t generalizing x with
  | nil => simp [splitAt1]
  | cons b t ih =>
    by_cases h : b = sep
    · subst h
      rcases x with _ | ⟨c, x⟩ <;> simp [splitAt1]
      rintro rfl - h; exact absurd rfl h
    · rcases x with _ | ⟨c, x⟩
      · simp [splitAt1, h]
      · have := ih x
        simp only [splitAt1, beq_iff_eq, h, if_false, List.cons_append, List.cons.injEq, List.mem_cons, not_or, Prod.mk.injEq] at this ⊢
        rw [Prod.ext_iff] at this
        simp only at this
        constructor
        · rintro ⟨⟨rfl, h2⟩, h3⟩
          have := this.1 ⟨h2, h3⟩
          exact ⟨⟨rfl, this.1⟩, fun e => h e.symm, this.2⟩
        · rintro ⟨⟨rfl, h2⟩, -, h3⟩
          have := this.2 ⟨h2, h3⟩
          exact ⟨⟨rfl, this.1⟩, this.2⟩

theorem splitAt1_none_iff (sep : Byte) (t : Text) : (splitAt1 sep t).2 = none ↔ sep ∉ t := by
  induction t with
  | nil => simp [splitAt1]
  | cons b t ih =>
    by_cases h : b = sep
    · simp [splitAt1, h]
    · simp [splitAt1, h, ih, Ne.symm h]

theorem splitAll_ne_nil (sep : Byte) (t : Text) : splitAll sep t ≠ [] := by
  induction t with
  | nil => simp [splitAll]
  | cons b t ih =>
    rw [splitAll]; split
    · simp
    · split <;> simp

theorem intercalate_cons (sep : Byte) (p : Text) (ps : List Text) (h : ps ≠ []) :
    [sep].intercalate (p :: ps) = p ++ sep :: [sep].intercalate ps := by
  rcases ps with _ | ⟨q, ps⟩
  · exact absurd rfl h
  · simp [List.intercalate, List.intersperse]

theorem splitAll_cons_of_notMem (sep : Byte) (p t : Text) (h : sep ∉ p) :
    splitAll sep (p ++ sep :: t) = p :: splitAll sep t := by
  induction p with
  | nil =>
    rw [List.nil_append, splitAll]
    have := splitAll_ne_nil sep t
    split
    · contradiction
    · rename_i a b e; rw [e]; simp
  | cons b p ih =>
    simp only [List.mem_cons, not_or] at h
    rw [List.cons_append, splitAll, ih h.2]
    simp [Ne.symm h.1]

theorem splitAll_of_notMem (sep : Byte) (p : Text) (h : sep ∉ p) : splitAll sep p = [p] := by
  induction p with
  | nil => rfl
  | cons b p ih =>
    simp only [List.mem_cons, not_or] at h
    rw [splitAll, ih h.2]; simp [Ne.symm h.1]

theorem splitAll_spec (sep : Byte) (t : Text) :
    t = [sep].intercalate (splitAll sep t) ∧ ∀ p ∈ splitAll sep t, sep ∉ p := by
  induction t with
  | nil => simp [splitAll, List.intercalate]
  | cons b t ih =>
    obtain ⟨h1, h2⟩ := ih
    rw [splitAll]
    have h0 := splitAll_ne_nil sep t
    split
    · contradiction
    · rename_i p r e
      rw [e] at h1 h2
      by_cases hb : b = sep
      · subst hb
        simp only [beq_self_eq_true, if_true]
        refine ⟨?_, ?_⟩
        · rw [intercalate_cons _ _ _ (by simp), ← h1]; rfl
        · intro q hq; simp only [List.mem_cons] at hq
          rcases hq with rfl | hq
          · simp
          · exact h2 q (by simpa using hq)
      · simp only [beq_iff_eq, hb, if_false]
        refine ⟨?_, ?_⟩
        · rcases r with _ | ⟨q, r⟩
          · simp [List.intercalate] at h1 ⊢; exact h1
          · rw [intercalate_cons _ _ _ (by simp)] at h1 ⊢
            rw [h1]; rfl
        · intro q hq
          simp only [List.mem_cons] at hq
          rcases hq with rfl | hq
          · simp only [List.mem_cons, not_or]; exact ⟨fun e => hb e.symm, h2 p (by simp)⟩
          · exact h2 q (by simp [hq])

/-- The runs between separators are the runs that the separator joins. -/
theorem splitAll_iff (sep : Byte) (t : Text) (ps : List Text) :
    splitAll sep t = ps ↔ ps ≠ [] ∧ t = [sep].intercalate ps ∧ ∀ p ∈ ps, sep ∉ p := by
  constructor
  · rintro rfl; exact ⟨splitAll_ne_nil _ _, splitAll_spec _ _⟩
  · rintro ⟨h, rfl, h2⟩
    induction ps with
    | nil => contradiction
    | cons p ps ih =>
      rcases ps with _ | ⟨q, ps⟩
      · simp [List.intercalate]; exact splitAll_of_notMem _ _ (h2 p (by simp))
      · rw [intercalate_cons _ _ _ (by simp), splitAll_cons_of_notMem _ _ _ (h2 p (by simp)), ih (by simp)]
        intro x hx; exact h2 x (List.mem_cons_of_mem _ hx)

/-! ### Characters and forms -/

theorem charsIn_iff (l : List (Char × Char)) (t : Text) :
    CharsIn l t ↔ t.all (fun b => l.any fun r => between r.1 r.2 b) = true := by
  simp only [CharsIn, List.all_eq_true, List.any_eq_true, between, Bool.and_eq_true, decide_eq_true_eq]

theorem charsIn_digits (t : Text) : CharsIn [('0', '9')] t ↔ t.all isDigit = true := by
  rw [charsIn_iff]; simp [isDigit]

theorem notMem_of_charsIn {l : List (Char × Char)} {t : Text} (h : CharsIn l t) (c : Byte)
    (hc : (l.any fun r => between r.1 r.2 c) = false) : c ∉ t := by
  intro hm
  rw [charsIn_iff, List.all_eq_true] at h
  rw [h c hm] at hc; cases hc

theorem foldl_digits (t : Text) (a : Nat) :
    t.foldl (fun n b => n * 10 + (b.toNat - 48)) a = a * 10 ^ t.length + Nat.ofDigits 10 (t.reverse.map fun b => b.toNat - 48) := by
  induction t generalizing a with
  | nil => simp
  | cons b t ih =>
    simp only [List.foldl_cons, ih, List.reverse_cons, List.map_append, List.map_cons, List.map_nil, Nat.ofDigits_append,
      List.length_map, List.length_reverse, List.length_cons, Nat.ofDigits_singleton]
    ring

/-- A Number is read as what its digits give (R209). -/
theorem formNumber_iff (t : Text) (n : Nat) : formNumber t = some n ↔ NumberFor n t := by
  unfold formNumber NumberFor DigitsFor
  simp only [charsIn_digits, foldl_digits]
  by_cases h1 : t = []
  · subst h1; simp
  · have : 0 < t.length := List.length_pos_iff.2 h1
    by_cases h2 : 10 < t.length
    · simp only [h2]; simp; omega
    · by_cases h3 : t.all isDigit = true
      · simp [h1, h2, h3]
        constructor
        · rintro rfl; exact ⟨by omega, by omega, rfl⟩
        · rintro ⟨_, _, h⟩; exact h.symm
      · simp [h2, h3]

theorem formDigits_iff (k : Nat) (h1 : 1 ≤ k) (h2 : k ≤ 10) (t : Text) (n : Nat) : formDigits k t = some n ↔ DigitsFor k n t := by
  unfold formDigits
  split
  · rename_i h; rw [formNumber_iff]; unfold NumberFor
    constructor
    · rintro ⟨k', -, -, h'⟩; obtain rfl : k' = k := by rw [← h'.1, h]
      exact h'
    · intro h'; exact ⟨k, h1, h2, h'⟩
  · rename_i h; simp; intro h'; exact h h'.1

theorem DigitsFor.notMem {k n : Nat} {t : Text} (h : DigitsFor k n t) (c : Byte) (hc : isDigit c = false) : c ∉ t :=
  notMem_of_charsIn h.2.1 c (by simpa [isDigit] using hc)

theorem NumberFor.notMem {n : Nat} {t : Text} (h : NumberFor n t) (c : Byte) (hc : isDigit c = false) : c ∉ t := by
  obtain ⟨k, -, -, h⟩ := h; exact h.notMem c hc

/-- A Time hh:mm:ss is read as what it says (R209). -/
theorem formTime_iff (t : Text) (v : Nat) : formTime t = some v ↔ TimeFor v t := by
  unfold formTime TimeFor
  constructor
  · intro h
    split at h
    · rename_i x y z e
      split at h
      · rename_i a b c ha hb hc
        rw [formDigits_iff _ (by omega) (by omega)] at ha hb hc
        simp only [Option.some.injEq] at h
        refine ⟨a, b, c, x, y, z, ha, hb, hc, ?_, h.symm⟩
        have := (splitAll_spec (chr ':') t).1
        rw [e] at this
        rw [this]; simp [List.intercalate, List.intersperse]
      · cases h
    · cases h
  · rintro ⟨a, b, c, x, y, z, ha, hb, hc, rfl, rfl⟩
    have : splitAll (chr ':') (x ++ chr ':' :: y ++ chr ':' :: z) = [x, y, z] := by
      rw [splitAll_iff]
      refine ⟨by simp, by simp [List.intercalate, List.intersperse], ?_⟩
      intro p hp; simp at hp; rcases hp with rfl | rfl | rfl
      · exact ha.notMem _ (by decide)
      · exact hb.notMem _ (by decide)
      · exact hc.notMem _ (by decide)
    rw [this]
    simp only [(formDigits_iff 2 (by omega) (by omega) _ _).2 ha, (formDigits_iff 2 (by omega) (by omega) _ _).2 hb,
      (formDigits_iff 2 (by omega) (by omega) _ _).2 hc]
    rfl

/-- A Time hh:mm is read as what it says (R209). -/
theorem formMinutes_iff (t : Text) (v : Nat) : formMinutes t = some v ↔ MinutesFor v t := by
  unfold formMinutes MinutesFor
  constructor
  · intro h
    split at h
    · rename_i x y e
      split at h
      · rename_i a b ha hb
        rw [formDigits_iff _ (by omega) (by omega)] at ha hb
        simp only [Option.some.injEq] at h
        refine ⟨a, b, x, y, ha, hb, ?_, h.symm⟩
        have := (splitAll_spec (chr ':') t).1
        rw [e] at this
        rw [this]; simp [List.intercalate, List.intersperse]
      · cases h
    · cases h
  · rintro ⟨a, b, x, y, ha, hb, rfl, rfl⟩
    have : splitAll (chr ':') (x ++ chr ':' :: y) = [x, y] := by
      rw [splitAll_iff]
      refine ⟨by simp, by simp [List.intercalate, List.intersperse], ?_⟩
      intro p hp; simp at hp; rcases hp with rfl | rfl
      · exact ha.notMem _ (by decide)
      · exact hb.notMem _ (by decide)
    rw [this]
    simp only [(formDigits_iff 2 (by omega) (by omega) _ _).2 ha, (formDigits_iff 2 (by omega) (by omega) _ _).2 hb]
    rfl

/-- A Date is read as what it says (R209). -/
theorem formDate_iff (t : Text) (v : Nat) : formDate t = some v ↔ DateFor v t := by
  unfold formDate DateFor
  constructor
  · intro h
    split at h
    · rename_i x y z e
      split at h
      · rename_i a b c ha hb hc
        rw [formDigits_iff _ (by omega) (by omega)] at ha hb hc
        simp only [Option.some.injEq] at h
        refine ⟨a, b, c, x, y, z, ha, hb, hc, ?_, h.symm⟩
        have := (splitAll_spec (chr '-') t).1
        rw [e] at this
        rw [this]; simp [List.intercalate, List.intersperse]
      · cases h
    · cases h
  · rintro ⟨a, b, c, x, y, z, ha, hb, hc, rfl, rfl⟩
    have : splitAll (chr '-') (x ++ chr '-' :: y ++ chr '-' :: z) = [x, y, z] := by
      rw [splitAll_iff]
      refine ⟨by simp, by simp [List.intercalate, List.intersperse], ?_⟩
      intro p hp; simp at hp; rcases hp with rfl | rfl | rfl
      · exact ha.notMem _ (by decide)
      · exact hb.notMem _ (by decide)
      · exact hc.notMem _ (by decide)
    rw [this]
    simp only [(formDigits_iff 4 (by omega) (by omega) _ _).2 ha, (formDigits_iff 2 (by omega) (by omega) _ _).2 hb,
      (formDigits_iff 2 (by omega) (by omega) _ _).2 hc]

theorem isWordText_iff (t : Text) : IsWordText t ↔ formWord t = some t := by
  unfold IsWordText formWord
  rw [charsIn_iff]
  have : (fun b => [('A', 'Z'), ('0', '9'), ('_', '_')].any fun r => between r.1 r.2 b) =
      fun b => isUpper b || isDigit b || b == chr '_' := by
    funext b; revert b; decide
  rw [this]
  by_cases h : t = []
  · simp [h]
  · by_cases h2 : (t.all fun b => isUpper b || isDigit b || b == chr '_') = true
    · simp only [h2]; simp [h]
    · simp only [h2]; simp

theorem formWord_eq_some_iff (t w : Text) : formWord t = some w ↔ IsWordText t ∧ w = t := by
  rw [isWordText_iff]
  unfold formWord; split <;> simp [eq_comm]

/-- A Word is read as the value it names in a list (R209). -/
theorem formOneOf_iff {α : Type} (l : List (String × α)) (t : Text) (v : Option α) :
    formOneOf l t = some v ↔ WordFor l v t := by
  unfold formOneOf WordFor
  simp only [Option.map_eq_some_iff, formWord_eq_some_iff]
  constructor
  · rintro ⟨_, ⟨h, rfl⟩, h2⟩
    refine ⟨h, ?_⟩
    cases hf : l.find? (fun e => ascii e.1 == _) with
    | none =>
      right
      rw [hf] at h2; simp at h2
      rw [List.find?_eq_none] at hf
      exact ⟨fun x hx e => hf x hx (by simp [e]), h2.symm⟩
    | some e =>
      left
      rw [hf] at h2
      rw [List.find?_eq_some_iff_append] at hf
      obtain ⟨he, as, bs, rfl, h4⟩ := hf
      have he := (beq_iff_eq.1 he).symm
      refine ⟨as, e, bs, rfl, ?_, he, h2.symm⟩
      intro x hx e; have := h4 x hx; simp [e] at this
  · rintro ⟨h, h2⟩
    refine ⟨_, ⟨h, rfl⟩, ?_⟩
    rcases h2 with ⟨as, e, bs, rfl, h3, h4, rfl⟩ | ⟨h3, rfl⟩
    · rw [List.find?_append, List.find?_eq_none.2 (by intro x hx; simpa using fun e => h3 x hx e.symm)]
      simp [h4]
    · rw [List.find?_eq_none.2 (by intro x hx; simpa using fun e => h3 x hx e.symm)]; rfl

theorem formMember_iff (t : Text) (r : Nat × Nat) : formMember t = some r ↔ RangeFor r t := by
  unfold formMember RangeFor
  constructor
  · intro h
    split at h
    · rename_i a e
      rw [splitAll_iff] at e
      simp only [Option.map_eq_some_iff, formNumber_iff] at h
      obtain ⟨n, hn, rfl⟩ := h
      left
      have : t = a := by simpa [List.intercalate] using e.2.1
      subst this; exact ⟨hn, rfl⟩
    · rename_i a b e
      rw [splitAll_iff] at e
      split at h
      · rename_i x y hx hy
        split at h
        · cases h
        · simp only [Option.some.injEq] at h; subst h
          right
          refine ⟨a, b, ?_, (formNumber_iff _ _).1 hx, (formNumber_iff _ _).1 hy, by simp; omega⟩
          simpa [List.intercalate, List.intersperse] using e.2.1
      · cases h
    · cases h
  · rintro (⟨h, h2⟩ | ⟨x, y, rfl, hx, hy, hle⟩)
    · rw [splitAll_of_notMem _ _ (h.notMem _ (by decide))]
      simp only [(formNumber_iff _ _).2 h, Option.map_some, Option.some.injEq]
      ext <;> simp [h2]
    · rw [splitAll_cons_of_notMem _ _ _ (hx.notMem _ (by decide)), splitAll_of_notMem _ _ (hy.notMem _ (by decide))]
      simp only [(formNumber_iff _ _).2 hx, (formNumber_iff _ _).2 hy]
      rw [if_neg (by omega)]

theorem mapM_eq_some_iff_forall₂ {α β : Type} (f : α → Option β) (l : List α) (r : List β) :
    l.mapM f = some r ↔ List.Forall₂ (fun b a => f a = some b) r l := by
  induction l generalizing r with
  | nil => simp [eq_comm]
  | cons a l ih =>
    simp only [List.mapM_cons, Option.bind_eq_bind, Option.pure_def]
    rcases r with _ | ⟨b, r⟩
    · simp [Option.bind_eq_some_iff]
    · simp only [List.forall₂_cons, ← ih]
      simp [Option.bind_eq_some_iff]

/-- Parts joined by commas are read part by part, where no part holds a comma. -/
theorem joinedFor_iff {α : Type} (part : α → Text → Prop) (f : Text → Option α) (h : ∀ t a, f t = some a ↔ part a t)
    (hc : ∀ t a, part a t → chr ',' ∉ t) (t : Text) (l : List α) :
    (splitAll (chr ',') t).mapM f = some l ↔ JoinedFor part l t := by
  rw [mapM_eq_some_iff_forall₂]
  unfold JoinedFor
  constructor
  · intro h2
    exact ⟨_, splitAll_ne_nil _ _, (splitAll_spec _ _).1, h2.imp fun a b h3 => (h _ _).1 h3⟩
  · rintro ⟨ps, h1, rfl, h2⟩
    rw [(splitAll_iff _ _ ps).2 ⟨h1, rfl, ?_⟩]
    · exact h2.imp fun a b h3 => (h _ _).2 h3
    · intro p hp
      obtain ⟨a, -, h3⟩ : ∃ a ∈ l, part a p := by
        clear h1
        induction h2 with
        | nil => cases hp
        | cons h0 _ ih =>
          rcases List.mem_cons.1 hp with rfl | hp
          · exact ⟨_, by simp, h0⟩
          · obtain ⟨a, ha, h4⟩ := ih hp; exact ⟨a, by simp [ha], h4⟩
      exact hc _ _ h3

theorem RangeFor.notMem {r : Nat × Nat} {t : Text} (h : RangeFor r t) (c : Byte) (hc : isDigit c = false) (hd : c ≠ chr '-') : c ∉ t := by
  rcases h with ⟨h, -⟩ | ⟨x, y, rfl, hx, hy, -⟩
  · exact h.notMem c hc
  · simp [hx.notMem c hc, hy.notMem c hc, hd]

theorem mem_intercalate {b sep : Byte} {ps : List Text} (h : b ∈ [sep].intercalate ps) : b = sep ∨ ∃ p ∈ ps, b ∈ p := by
  induction ps with
  | nil => simp [List.intercalate] at h
  | cons p ps ih =>
    by_cases h0 : ps = []
    · subst h0; simp [List.intercalate] at h; exact .inr ⟨p, by simp, h⟩
    · rw [intercalate_cons _ _ _ h0] at h
      simp only [List.mem_append, List.mem_cons] at h
      rcases h with h | h | h
      · exact .inr ⟨p, by simp, h⟩
      · exact .inl h
      · rcases ih h with h | ⟨q, hq, h⟩
        · exact .inl h
        · exact .inr ⟨q, by simp [hq], h⟩

theorem JoinedFor.notMem {α : Type} {part : α → Text → Prop} {l : List α} {t : Text} (h : JoinedFor part l t) (c : Byte)
    (hc : c ≠ chr ',') (hp : ∀ a t, part a t → c ∉ t) : c ∉ t := by
  obtain ⟨ps, -, rfl, h2⟩ := h
  intro hm
  rcases mem_intercalate hm with h | ⟨p, hpm, hb⟩
  · exact hc h
  · clear hm
    induction h2 with
    | nil => cases hpm
    | cons h0 _ ih =>
      rcases List.mem_cons.1 hpm with rfl | hpm
      · exact hp _ _ h0 hb
      · exact ih hpm

/-- A Set is read as its members (R209; log 9). -/
theorem formSet_iff (t : Text) (l : List Nat) : formSet t = some l ↔ SetFor l t := by
  unfold formSet SetFor
  have hj := joinedFor_iff RangeFor formMember (fun t a => formMember_iff t a)
    (fun t a h => h.notMem _ (by decide) (by decide)) t
  by_cases hn : t = ascii "NONE"
  · subst hn
    simp only [beq_self_eq_true, if_true, Option.some.injEq, true_and]
    constructor
    · intro h; exact .inl h.symm
    · rintro (h | ⟨r, h, -⟩)
      · exact h.symm
      · have : (splitAll (chr ',') (ascii "NONE")).mapM formMember = none := by decide
        rw [(hj r).2 h] at this; cases this
  · simp only [beq_iff_eq, hn, if_false, false_and, false_or]
    constructor
    · intro h
      split at h
      · rename_i r hr
        split at h
        · rename_i hp
          refine ⟨r, (hj r).1 hr, hp, ?_⟩
          simp only [Option.some.injEq] at h; rw [← h]; rfl
        · cases h
      · cases h
    · rintro ⟨r, h1, h2, rfl⟩
      rw [(hj r).2 h1]
      simp only [h2, if_true, Option.some.injEq]; rfl

theorem ascii_append (a b : String) : ascii (a ++ b) = ascii a ++ ascii b := by simp [ascii]

theorem formContact_iff (t : Text) (c : Contact) : formContact t = some c ↔ ContactFor c t := by
  unfold formContact ContactFor
  constructor
  · intro h
    split at h
    · rename_i i w e
      rw [splitAll_iff] at e
      have ht : t = i ++ chr ':' :: w := by simpa [List.intercalate, List.intersperse] using e.2.1
      split at h
      · rename_i n hn
        rw [formNumber_iff] at hn
        split at h
        · rename_i hw; simp at hw; simp at h; subst h hw; exact ⟨i, hn, by simpa using ht⟩
        · split at h
          · rename_i hw; simp at hw; simp at h; subst h hw; exact ⟨i, hn, by simpa using ht⟩
          · cases h
      · cases h
    · cases h
  · rintro ⟨x, hx, rfl⟩
    rw [splitAll_cons_of_notMem _ _ _ (hx.notMem _ (by decide))]
    obtain ⟨n, ch⟩ := c
    simp only at hx
    cases ch
    · have : splitAll (chr ':') (ascii "TEXT") = [ascii "TEXT"] := by decide
      simp [this, (formNumber_iff _ _).2 hx]
    · have : splitAll (chr ':') (ascii "VOICE") = [ascii "VOICE"] := by decide
      have h2 : ¬ ascii "VOICE" = ascii "TEXT" := by decide
      simp [this, (formNumber_iff _ _).2 hx, h2]

theorem ContactFor.notMem {c : Contact} {t : Text} (h : ContactFor c t) (b : Byte) (hb : isDigit b = false) (h1 : b ≠ chr ':')
    (h2 : b ∉ ascii "TEXT") (h3 : b ∉ ascii "VOICE") : b ∉ t := by
  obtain ⟨x, hx, rfl⟩ := h
  simp only [List.mem_append, List.mem_cons, not_or]
  refine ⟨hx.notMem b hb, h1, ?_⟩
  split <;> assumption

/-- Contacts are read as their entries (R209). -/
theorem formContacts_iff (t : Text) (l : List Contact) : formContacts t = some l ↔ ContactsFor l t := by
  unfold formContacts ContactsFor
  have hj := joinedFor_iff ContactFor formContact (fun t a => formContact_iff t a)
    (fun t a h => h.notMem _ (by decide) (by decide) (by decide) (by decide)) t
  by_cases hn : t = ascii "NONE"
  · subst hn
    simp only [beq_self_eq_true, if_true, Option.some.injEq, true_and]
    constructor
    · intro h; exact .inl h.symm
    · rintro (h | h)
      · exact h.symm
      · have : (splitAll (chr ',') (ascii "NONE")).mapM formContact = none := by decide
        rw [(hj l).2 h] at this; cases this
  · simp only [beq_iff_eq, hn, if_false, false_and, false_or]
    exact hj l

theorem StepFor.notMem {s : PatternStep} {t : Text} (h : StepFor s t) (b : Byte) (hb : isDigit b = false) (h1 : b ≠ chr ':')
    (h2 : isUpper b = false) : b ∉ t := by
  have hA : ∀ w : Text, w.all (fun c => isUpper c || c == chr ':') = true → b ∉ w := by
    intro w hw hm
    rw [List.all_eq_true] at hw
    have := hw b hm; simp [h2, h1] at this
  cases s <;> simp only [StepFor] at h
  · obtain ⟨x, y, z, hx, hy, hz, rfl⟩ := h
    simp only [List.mem_append, List.mem_cons, not_or]
    exact ⟨⟨⟨hA _ (by decide), hx.notMem b hb⟩, h1, hy.notMem b hb⟩, h1, hz.notMem b hb⟩
  · obtain ⟨x, hx, rfl⟩ := h
    simp only [List.mem_append, not_or]; exact ⟨hA _ (by decide), hx.notMem b hb⟩
  · obtain ⟨x, hx, rfl⟩ := h
    simp only [List.mem_append, not_or]; exact ⟨hA _ (by decide), hx.notMem b hb⟩
  · obtain ⟨x, y, hx, hy, rfl⟩ := h
    simp only [List.mem_append, List.mem_cons, not_or]; exact ⟨⟨hA _ (by decide), hx.notMem b hb⟩, h1, hy.notMem b hb⟩
  · subst h; exact hA _ (by decide)

theorem formStep_iff (t : Text) (s : PatternStep) : formStep t = some s ↔ StepFor s t := by
  unfold formStep
  constructor
  · intro h
    split at h
    · rename_i w e
      rw [splitAll_iff] at e
      have ht : t = w := by simpa [List.intercalate] using e.2.1
      split at h
      · rename_i hw; simp at hw h; subst h hw; exact ht
      · cases h
    · rename_i w a e
      rw [splitAll_iff] at e
      have ht : t = w ++ chr ':' :: a := by simpa [List.intercalate, List.intersperse] using e.2.1
      split at h
      · rename_i n hn
        rw [formNumber_iff] at hn
        split at h
        · rename_i hw; simp at hw h; subst h hw; exact ⟨a, hn, by rw [ht]; rfl⟩
        · split at h
          · rename_i hw; simp at hw h; subst h hw; exact ⟨a, hn, by rw [ht]; rfl⟩
          · cases h
      · cases h
    · rename_i w a b e
      rw [splitAll_iff] at e
      have ht : t = w ++ chr ':' :: a ++ chr ':' :: b := by simpa [List.intercalate, List.intersperse] using e.2.1
      split at h
      · rename_i n m hn hm
        rw [formNumber_iff] at hn hm
        split at h
        · rename_i hw; simp at hw h; subst h hw; exact ⟨a, b, hn, hm, by rw [ht]; rfl⟩
        · cases h
      · cases h
    · rename_i w a b c e
      rw [splitAll_iff] at e
      have ht : t = w ++ chr ':' :: a ++ chr ':' :: b ++ chr ':' :: c := by simpa [List.intercalate, List.intersperse] using e.2.1
      split at h
      · rename_i n m k hn hm hk
        rw [formNumber_iff] at hn hm hk
        split at h
        · rename_i hw; simp at hw h; subst h hw; exact ⟨a, b, c, hn, hm, hk, by rw [ht]; rfl⟩
        · cases h
      · cases h
    · cases h
  · intro h
    cases s <;> simp only [StepFor] at h
    · obtain ⟨x, y, z, hx, hy, hz, rfl⟩ := h
      have : splitAll (chr ':') (ascii "TONE:" ++ x ++ chr ':' :: y ++ chr ':' :: z) = [ascii "TONE", x, y, z] := by
        rw [splitAll_iff]
        refine ⟨by simp, by simp [List.intercalate, List.intersperse]; rfl, ?_⟩
        intro p hp; simp at hp; rcases hp with rfl | rfl | rfl | rfl
        · decide
        · exact hx.notMem _ (by decide)
        · exact hy.notMem _ (by decide)
        · exact hz.notMem _ (by decide)
      rw [this]; simp [(formNumber_iff _ _).2 hx, (formNumber_iff _ _).2 hy, (formNumber_iff _ _).2 hz]
    · obtain ⟨x, hx, rfl⟩ := h
      have : splitAll (chr ':') (ascii "REST:" ++ x) = [ascii "REST", x] := by
        rw [splitAll_iff]
        refine ⟨by simp, by simp [List.intercalate, List.intersperse]; rfl, ?_⟩
        intro p hp; simp at hp; rcases hp with rfl | rfl
        · decide
        · exact hx.notMem _ (by decide)
      rw [this]; simp [(formNumber_iff _ _).2 hx]
    · obtain ⟨x, hx, rfl⟩ := h
      have : splitAll (chr ':') (ascii "STRIKE:" ++ x) = [ascii "STRIKE", x] := by
        rw [splitAll_iff]
        refine ⟨by simp, by simp [List.intercalate, List.intersperse]; rfl, ?_⟩
        intro p hp; simp at hp; rcases hp with rfl | rfl
        · decide
        · exact hx.notMem _ (by decide)
      rw [this]
      have h2 : ¬ ascii "STRIKE" = ascii "REST" := by decide
      simp [(formNumber_iff _ _).2 hx, h2]
    · obtain ⟨x, y, hx, hy, rfl⟩ := h
      have : splitAll (chr ':') (ascii "LOOP:" ++ x ++ chr ':' :: y) = [ascii "LOOP", x, y] := by
        rw [splitAll_iff]
        refine ⟨by simp, by simp [List.intercalate, List.intersperse]; rfl, ?_⟩
        intro p hp; simp at hp; rcases hp with rfl | rfl | rfl
        · decide
        · exact hx.notMem _ (by decide)
        · exact hy.notMem _ (by decide)
      rw [this]; simp [(formNumber_iff _ _).2 hx, (formNumber_iff _ _).2 hy]
    · subst h; decide

/-- Steps are read as they are written (R209). -/
theorem formSteps_iff (t : Text) (l : List PatternStep) : formSteps t = some l ↔ JoinedFor StepFor l t :=
  joinedFor_iff StepFor formStep (fun t a => formStep_iff t a) (fun t a h => h.notMem _ (by decide) (by decide) (by decide)) t l

/-- An entry of the weekday map is read as it is written (log 9). -/
theorem formDayType_iff (t : Text) (d : DayType) : formDayType t = some d ↔ DayTypeFor d t := by
  unfold formDayType
  by_cases h : t = ascii "CLOSED"
  · subst h
    cases d <;> simp [DayTypeFor]
    rw [← formNumber_iff]; intro h; have : formNumber (ascii "CLOSED") = none := by decide
    rw [this] at h; cases h
  · cases d <;> simp [h, DayTypeFor, formNumber_iff]

theorem WordFor.notMem {α : Type} {l : List (String × α)} {v : Option α} {t : Text} (h : WordFor l v t) (b : Byte)
    (hb : ([('A', 'Z'), ('0', '9'), ('_', '_')].any fun r => between r.1 r.2 b) = false) : b ∉ t :=
  notMem_of_charsIn h.1.2 b hb

/-- Area names joined by commas are read as the areas they name (log 9). -/
theorem formAreaNames_iff (t : Text) (l : List (Option Area)) : formAreaNames t = some l ↔ JoinedFor (WordFor areaWords) l t :=
  joinedFor_iff _ _ (fun t a => formOneOf_iff _ t a) (fun t a h => h.notMem _ (by decide)) t l

/-! ### Identities -/

theorem hexValue_lt (c : Byte) (h : isHex c = true) : hexValue c < 16 := by revert c; decide
theorem hexChar_hexValue (c : Byte) (h : isHex c = true) : hexChar (hexValue c) = c := by revert c; decide
theorem hexByte_eq_chars (b : Byte) :
    ∃ x y, hexByte b = [x, y] ∧ isHex x = true ∧ isHex y = true ∧ hexValue x * 16 + hexValue y = b.toNat := by
  have : ∀ b : Byte,
      isHex (hexChar (b.toNat / 16)) = true ∧ isHex (hexChar (b.toNat % 16)) = true ∧
        hexValue (hexChar (b.toNat / 16)) * 16 + hexValue (hexChar (b.toNat % 16)) = b.toNat := by decide
  exact ⟨_, _, rfl, this b⟩
theorem hexByte_of_chars (x y : Byte) (hx : isHex x = true) (hy : isHex y = true) :
    hexByte (BitVec.ofNat 8 (hexValue x * 16 + hexValue y)) = [x, y] := by
  have h1 := hexValue_lt x hx
  have h2 := hexValue_lt y hy
  have h3 : (BitVec.ofNat 8 (hexValue x * 16 + hexValue y)).toNat = hexValue x * 16 + hexValue y := by
    simp; omega
  rw [hexByte, h3, show (hexValue x * 16 + hexValue y) / 16 = hexValue x by omega,
    show (hexValue x * 16 + hexValue y) % 16 = hexValue y by omega, hexChar_hexValue x hx, hexChar_hexValue y hy]

/-- The identity whose bytes are given, in line order. -/
def identityOf (v : Nat → Nat) : Identity :=
  (List.range 7).foldl (fun (i : Identity) k => i ||| (BitVec.ofNat 56 (v k) <<< (8 * k))) 0

theorem getLsbD_identityOf_prefix (v : Nat → Nat) (h : ∀ k < 7, v k < 256) (n : Nat) (hn : n ≤ 7) (b : Nat) (hb : b < 56) :
    ((List.range n).foldl (fun (i : Identity) k => i ||| (BitVec.ofNat 56 (v k) <<< (8 * k))) 0).getLsbD b =
      (decide (b / 8 < n) && (v (b / 8)).testBit (b % 8)) := by
  induction n with
  | zero => simp
  | succ n ih =>
    rw [List.range_succ, List.foldl_append, List.foldl_cons, List.foldl_nil, BitVec.getLsbD_or, ih (by omega)]
    simp only [BitVec.getLsbD_shiftLeft, BitVec.getLsbD_ofNat, hb, decide_true, Bool.true_and]
    rcases Nat.lt_trichotomy (b / 8) n with h1 | h1 | h1
    · simp [h1, show b < 8 * n by omega, show b / 8 < n + 1 by omega]
    · simp [h1, show ¬ b < 8 * n by omega, show b - 8 * n = b % 8 by omega, show b % 8 < 56 by omega]
    · have h8 : 8 ≤ b - 8 * n := by omega
      have : (v n).testBit (b - 8 * n) = false :=
        Nat.testBit_lt_two_pow (lt_of_lt_of_le (h n hn) (Nat.pow_le_pow_right (n := 2) (by omega) h8))
      simp [this, show ¬ b / 8 < n by omega, show ¬ b / 8 < n + 1 by omega]

theorem identityBytes_identityOf (v : Nat → Nat) (h : ∀ k < 7, v k < 256) :
    identityBytes (identityOf v) = (List.range 7).map fun k => BitVec.ofNat 8 (v k) := by
  unfold identityBytes
  refine List.map_congr_left fun k hk => ?_
  rw [List.mem_range] at hk
  ext j hj
  simp only [← BitVec.getLsbD_eq_getElem, BitVec.getLsbD_setWidth, BitVec.getLsbD_ushiftRight, BitVec.getLsbD_ofNat, hj,
    decide_true, Bool.true_and]
  unfold identityOf
  rw [getLsbD_identityOf_prefix v h 7 (by omega) _ (by omega)]
  simp [show (8 * k + j) / 8 = k by omega, show (8 * k + j) % 8 = j by omega, hk]

theorem identityOf_identityBytes (i : Identity) (v : Nat → Nat) (h : ∀ k < 7, v k = ((identityBytes i).getD k 0).toNat) :
    identityOf v = i := by
  have hv : ∀ k < 7, v k < 256 := fun k hk => by rw [h k hk]; exact BitVec.isLt _
  have h1 := identityBytes_identityOf v hv
  have h2 : identityBytes (identityOf v) = identityBytes i := by
    rw [h1]
    apply List.ext_getElem (by simp [identityBytes])
    intro k hk _
    simp only [List.length_map, List.length_range] at hk
    simp only [List.getElem_map, List.getElem_range, h k hk]
    simp [identityBytes, hk]
    apply BitVec.eq_of_toNat_eq; simp
  generalize identityOf v = j at h2
  have hb : ∀ k < 7, (j >>> (8 * k)).setWidth 8 = (i >>> (8 * k)).setWidth 8 := by
    intro k hk
    have := congrArg (fun l => l.getD k 0) h2
    simpa [identityBytes, hk] using this
  ext b hbl
  have := congrArg (fun (x : BitVec 8) => x.getLsbD (b % 8)) (hb (b / 8) (by omega))
  simp only [BitVec.getLsbD_setWidth, BitVec.getLsbD_ushiftRight, Nat.mod_lt b (show 0 < 8 by omega), decide_true, Bool.true_and,
    Nat.div_add_mod] at this
  rw [← BitVec.getLsbD_eq_getElem, ← BitVec.getLsbD_eq_getElem]; exact this

/-- An identity is read from the characters a reply writes it in (log 9). -/
theorem formIdentity_iff (t : Text) (i : Identity) : formIdentity t = some i ↔ t = itemText (.identity i) := by
  unfold formIdentity
  change (if _ then _ else some (identityOf fun k => hexValue (t.getD (2 * k) 0) * 16 + hexValue (t.getD (2 * k + 1) 0))) = some i ↔
    t = (identityBytes i).flatMap hexByte
  have hp : ∀ (l : Text), (l.flatMap hexByte).length = 2 * l.length ∧ (l.flatMap hexByte).all isHex = true ∧
      ∀ k < l.length,
        hexValue ((l.flatMap hexByte).getD (2 * k) 0) * 16 + hexValue ((l.flatMap hexByte).getD (2 * k + 1) 0) = (l.getD k 0).toNat := by
    intro l
    induction l with
    | nil => simp
    | cons b l ih =>
      obtain ⟨x, y, e, hx, hy, hv⟩ := hexByte_eq_chars b
      simp only [List.flatMap_cons, e]
      refine ⟨by simp [ih.1]; omega, by simp [hx, hy]; simpa using ih.2.1, ?_⟩
      intro k hk
      rcases k with _ | k
      · simpa using hv
      · have := ih.2.2 k (by simpa using hk)
        simpa [Nat.mul_add] using this
  have hl : (identityBytes i).length = 7 := by simp [identityBytes]
  constructor
  · intro h
    split at h
    · cases h
    · rename_i hc
      simp only [ne_eq, Bool.or_eq_true, decide_eq_true_eq, Bool.not_eq_true', not_or, not_not, Bool.not_eq_false] at hc
      obtain ⟨hlen, hall⟩ := hc
      simp only [Option.some.injEq] at h
      rw [← h, identityBytes_identityOf]
      · have hx : ∀ k < 14, isHex (t.getD k 0) = true := by
          intro k hk
          rw [List.getD_eq_getElem _ _ (by omega)]
          rw [List.all_eq_true] at hall
          exact hall _ (List.getElem_mem _)
        simp only [show List.range 7 = [0, 1, 2, 3, 4, 5, 6] from rfl, List.map, List.flatMap_cons, List.flatMap_nil]
        simp only [hexByte_of_chars _ _ (hx _ (by omega : 2 * 0 < 14)) (hx _ (by omega : 2 * 0 + 1 < 14)),
          hexByte_of_chars _ _ (hx _ (by omega : 2 * 1 < 14)) (hx _ (by omega : 2 * 1 + 1 < 14)),
          hexByte_of_chars _ _ (hx _ (by omega : 2 * 2 < 14)) (hx _ (by omega : 2 * 2 + 1 < 14)),
          hexByte_of_chars _ _ (hx _ (by omega : 2 * 3 < 14)) (hx _ (by omega : 2 * 3 + 1 < 14)),
          hexByte_of_chars _ _ (hx _ (by omega : 2 * 4 < 14)) (hx _ (by omega : 2 * 4 + 1 < 14)),
          hexByte_of_chars _ _ (hx _ (by omega : 2 * 5 < 14)) (hx _ (by omega : 2 * 5 + 1 < 14)),
          hexByte_of_chars _ _ (hx _ (by omega : 2 * 6 < 14)) (hx _ (by omega : 2 * 6 + 1 < 14))]
        apply List.ext_getElem (by simpa using hlen)
        intro k hk _
        have hk : k < 14 := by omega
        interval_cases k <;> simp [List.getD_eq_getElem?_getD, hlen]
      · intro k hk
        have hx : ∀ k < 14, hexValue (t.getD k 0) < 16 := by
          intro k hk
          rw [List.getD_eq_getElem _ _ (by omega)]
          rw [List.all_eq_true] at hall
          exact hexValue_lt _ (hall _ (List.getElem_mem _))
        have := hx (2 * k) (by omega)
        have := hx (2 * k + 1) (by omega)
        omega
  · rintro rfl
    have h := hp (identityBytes i)
    rw [if_neg (by simp only [h.1, hl, h.2.1]; simp)]
    rw [identityOf_identityBytes i]
    intro k hk
    exact h.2.2 k (by omega)

/-! ### Arguments told apart -/

/-- A Named argument is a name, `=` and a value (R209). -/
theorem asNamed_iff (t : Token) (n v : Text) : asNamed t = some (n, v) ↔ t = .plain (n ++ chr '=' :: v) ∧ n ≠ [] ∧ chr '=' ∉ n := by
  cases t with
  | quoted _ => simp [asNamed]
  | plain t =>
    simp only [asNamed, Token.plain.injEq]
    rcases h : splitAt1 (chr '=') t with ⟨x, _ | r⟩
    · have := (splitAt1_none_iff (chr '=') t).1 (by rw [h])
      simp only [reduceCtorEq, false_iff]
      rintro ⟨rfl, -⟩; simp at this
    · have h2 := (splitAt1_eq_some_iff _ _ _ _).1 h
      obtain ⟨rfl, h3⟩ := h2
      constructor
      · intro h4
        simp only at h4
        split at h4
        · cases h4
        · rename_i hx
          simp only [Option.some.injEq, Prod.mk.injEq] at h4
          obtain ⟨rfl, rfl⟩ := h4
          exact ⟨rfl, by simpa using hx, h3⟩
      · rintro ⟨h4, h5, h6⟩
        have := (splitAt1_eq_some_iff (chr '=') (x ++ chr '=' :: r) n v).2 ⟨h4, h6⟩
        rw [h] at this
        simp only [Prod.mk.injEq, Option.some.injEq] at this
        obtain ⟨rfl, rfl⟩ := this
        simp [h5]

/-- The arguments of a line: those in place, then the Named ones, no name twice (R209). -/
theorem splitArgs_iff (l : List Token) (a : Args) :
    splitArgs l = some a ↔
      ∃ nt, l = a.pos ++ nt ∧ (∀ p ∈ a.pos, asNamed p = none) ∧ List.Forall₂ (fun nv t => asNamed t = some nv) a.named nt ∧
        (a.named.map (·.1)).Nodup := by
  unfold splitArgs
  constructor
  · intro h
    simp only at h
    split at h
    · rename_i named hm
      rw [mapM_eq_some_iff_forall₂] at hm
      split at h
      · rename_i hn
        simp only [Option.some.injEq] at h; subst h
        refine ⟨_, ?_, ?_, hm, hn⟩
        · have := List.takeWhile_append_dropWhile (p := fun t => (asNamed t).isNone) (l := l)
          conv_lhs => rw [← List.take_append_drop (List.takeWhile (fun t => (asNamed t).isNone) l).length l]
          congr 1
          exact (List.prefix_iff_eq_take.1 (List.takeWhile_prefix _)).symm
        · intro p hp
          simpa using List.mem_takeWhile_imp hp
      · cases h
    · cases h
  · rintro ⟨nt, rfl, h1, h2, h3⟩
    have ht : List.takeWhile (fun t => (asNamed t).isNone) (a.pos ++ nt) = a.pos := by
      rw [List.takeWhile_append_of_pos (by simpa using h1)]
      rcases a with ⟨pos, named⟩
      cases h2 with
      | nil => simp
      | cons h _ => simp [h]
    simp only [ht, List.drop_left, (mapM_eq_some_iff_forall₂ asNamed nt a.named).2 h2, h3, if_true]

/-! ### Lines -/

theorem plainChars_iff (x : Text) : x.all isPlainChar = true ↔ CharsIn [('!', '~')] x ∧ chr '"' ∉ x ∧ chr '*' ∉ x := by
  rw [charsIn_iff]
  simp only [List.all_eq_true, List.any_cons, List.any_nil, Bool.or_false, isPlainChar, Bool.and_eq_true, bne_iff_ne, ne_eq]
  constructor
  · intro h
    exact ⟨fun b hb => (h b hb).1.1, fun hb => (h _ hb).1.2 rfl, fun hb => (h _ hb).2 rfl⟩
  · rintro ⟨h1, h2, h3⟩ b hb
    exact ⟨⟨h1 b hb, fun e => h2 (e ▸ hb)⟩, fun e => h3 (e ▸ hb)⟩

/-- The arguments after the word, each preceded by one space (R209). -/
theorem lexArgs_iff (fuel : Nat) (t : Text) (hf : t.length ≤ fuel) (args : List Token) :
    lexArgs fuel t = some args ↔
      ∃ parts : List Text, List.Forall₂ ArgumentWritten args parts ∧ t = parts.flatMap (chr ' ' :: ·) := by
  induction fuel generalizing t args with
  | zero =>
    have : t = [] := List.length_eq_zero_iff.1 (by omega)
    subst this
    simp only [lexArgs, Option.some.injEq]
    constructor
    · rintro rfl; exact ⟨[], .nil, rfl⟩
    · rintro ⟨parts, h, h2⟩
      cases h with
      | nil => rfl
      | cons _ _ => simp at h2
  | succ fuel ih =>
    rcases t with _ | ⟨sp, t⟩
    · simp only [lexArgs, Option.some.injEq]
      constructor
      · rintro rfl; exact ⟨[], .nil, rfl⟩
      · rintro ⟨parts, h, h2⟩
        cases h with
        | nil => rfl
        | cons _ _ => simp at h2
    · unfold lexArgs
      simp only [List.length_cons] at hf
      by_cases hsp : sp = chr ' '
      swap
      · simp only [bne_iff_ne, ne_eq, hsp, not_false_eq_true, if_true, reduceCtorEq, false_iff]
        rintro ⟨parts, h, h2⟩
        cases h with
        | nil => simp at h2
        | cons _ _ => simp [hsp] at h2
      subst hsp
      simp only [bne_self_eq_false, Bool.false_eq_true, if_false]
      rcases t with _ | ⟨q, u⟩
      · simp only [reduceCtorEq, false_iff]
        rintro ⟨parts, h, h2⟩
        cases h with
        | nil => simp at h2
        | @cons a b _ _ h _ =>
          simp only [List.flatMap_cons, List.cons_append, List.cons.injEq, true_and] at h2
          have : b = [] := by simpa using (List.append_eq_nil_iff.1 h2.symm).1
          subst this
          cases a <;> simp [ArgumentWritten] at h
          exact absurd h.1 h.2.1
      · simp only
        by_cases hq : q = chr '"'
        · subst hq
          simp only [beq_self_eq_true, if_true]
          rcases hs : splitAt1 (chr '"') u with ⟨x, _ | rest⟩
          · have hs' := (splitAt1_none_iff (chr '"') u).1 (by rw [hs])
            simp only [reduceCtorEq, false_iff]
            rintro ⟨parts, h, h2⟩
            cases h with
            | nil => simp at h2
            | @cons a b _ _ h _ =>
              simp only [List.flatMap_cons, List.cons_append, List.cons.injEq, true_and] at h2
              cases a <;> simp only [ArgumentWritten] at h
              · obtain ⟨rfl, h3, -, h4, -⟩ := h
                rcases b with _ | ⟨c, b⟩
                · exact h3 rfl
                · simp only [List.cons_append, List.cons.injEq] at h2
                  exact h4 (by simp [h2.1])
              · obtain ⟨rfl, -⟩ := h
                simp only [List.cons_append, List.cons.injEq, true_and] at h2
                exact hs' (by rw [h2]; simp)
          · obtain ⟨rfl, hx⟩ := (splitAt1_eq_some_iff _ _ _ _).1 hs
            simp only [Option.map_eq_some_iff]
            have hr : rest.length ≤ fuel := by
              simp only [List.length_cons, List.length_append] at hf; omega
            constructor
            · rintro ⟨a, h, rfl⟩
              obtain ⟨parts, h3, h4⟩ := (ih rest hr a).1 h
              exact ⟨(chr '"' :: x ++ [chr '"']) :: parts, .cons ⟨rfl, hx⟩ h3, by simp [h4]⟩
            · rintro ⟨parts, h, h2⟩
              cases h with
              | nil => simp at h2
              | @cons a b as bs h hT =>
                simp only [List.flatMap_cons, List.cons_append, List.cons.injEq, true_and] at h2
                cases a <;> simp only [ArgumentWritten] at h
                · obtain ⟨rfl, h3, -, h4, -⟩ := h
                  rcases b with _ | ⟨c, b⟩
                  · exact absurd rfl h3
                  · simp only [List.cons_append, List.cons.injEq] at h2
                    exact absurd (by simp [h2.1]) h4
                · obtain ⟨rfl, hy⟩ := h
                  simp only [List.cons_append, List.cons.injEq, true_and, List.append_assoc, List.nil_append] at h2
                  rename_i y
                  have e1 := (splitAt1_eq_some_iff (chr '"') _ x rest).2 ⟨rfl, hx⟩
                  have e2 := (splitAt1_eq_some_iff (chr '"') _ y _).2 ⟨h2, hy⟩
                  rw [e1] at e2
                  simp only [Prod.mk.injEq, Option.some.injEq] at e2
                  obtain ⟨rfl, rfl⟩ := e2
                  exact ⟨as, (ih _ hr as).2 ⟨bs, hT, rfl⟩, rfl⟩
        · simp only [beq_iff_eq, hq, if_false]
          have hsplit := List.takeWhile_append_dropWhile (p := fun b => b != chr ' ') (l := q :: u)
          generalize hx : List.takeWhile (fun b => b != chr ' ') (q :: u) = x at hsplit
          generalize hr : List.dropWhile (fun b => b != chr ' ') (q :: u) = r at hsplit
          have hspx : chr ' ' ∉ x := by
            intro hm; rw [← hx] at hm; simpa using List.mem_takeWhile_imp hm
          constructor
          · intro h
            split at h
            · cases h
            · rename_i hc
              simp only [Bool.or_eq_true, List.isEmpty_iff, Bool.not_eq_true', not_or, Bool.not_eq_false] at hc
              obtain ⟨h1, h2⟩ := hc
              simp only [Option.map_eq_some_iff] at h
              obtain ⟨a, h3, rfl⟩ := h
              have hlen : r.length ≤ fuel := by
                have := congrArg List.length hsplit
                simp only [List.length_append, List.length_cons] at this hf
                have : 0 < x.length := List.length_pos_iff.2 h1
                omega
              obtain ⟨parts, h4, h5⟩ := (ih r hlen a).1 h3
              refine ⟨x :: parts, .cons ⟨rfl, h1, (plainChars_iff x).1 h2⟩ h4, ?_⟩
              simp [← hsplit, h5]
          · rintro ⟨parts, h, h2⟩
            cases h with
            | nil => simp at h2
            | @cons a b as bs h hT =>
              simp only [List.flatMap_cons, List.cons_append, List.cons.injEq, true_and] at h2
              cases a <;> simp only [ArgumentWritten] at h
              · obtain ⟨rfl, h3, h4⟩ := h
                have hnb : chr ' ' ∉ b := notMem_of_charsIn h4.1 _ (by decide)
                have hb : x = b ∧ r = bs.flatMap (chr ' ' :: ·) := by
                  rw [← hx, ← hr, h2]
                  constructor
                  · rw [List.takeWhile_append_of_pos (by intro c hc; simp; rintro rfl; exact hnb hc)]
                    rcases bs with _ | ⟨c, bs⟩ <;> simp
                  · rw [List.dropWhile_append_of_pos (by intro c hc; simp; rintro rfl; exact hnb hc)]
                    rcases bs with _ | ⟨c, bs⟩ <;> simp
                obtain ⟨rfl, rfl⟩ := hb
                rw [if_neg (by simp only [(plainChars_iff x).2 h4]; simpa using h3)]
                have hlen : (bs.flatMap (chr ' ' :: ·)).length ≤ fuel := by
                  have := congrArg List.length hsplit
                  simp only [List.length_append, List.length_cons] at this hf
                  have : 0 < x.length := List.length_pos_iff.2 h3
                  omega
                rw [(ih _ hlen as).2 ⟨bs, hT, rfl⟩]; rfl
              · obtain ⟨rfl, -⟩ := h
                simp only [List.cons_append, List.cons.injEq] at h2
                exact absurd h2.1 hq

theorem tagChars_iff (t : Text) : CharsIn [('A', 'Z'), ('a', 'z'), ('0', '9'), ('?', '?')] t ↔ t.all isTagChar = true := by
  rw [charsIn_iff]
  have : (fun b => [('A', 'Z'), ('a', 'z'), ('0', '9'), ('?', '?')].any fun r => between r.1 r.2 b) = isTagChar := by
    funext b; revert b; decide
  rw [this]

theorem lineTag_iff (line tag : Text) :
    lineTag line = some tag ↔
      tag = line.take 2 ∧ tag.length = 2 ∧ CharsIn [('A', 'Z'), ('a', 'z'), ('0', '9'), ('?', '?')] tag ∧ tag ≠ ascii "??" := by
  unfold lineTag
  simp only [tagChars_iff]
  constructor
  · intro h
    split at h
    · rename_i hc
      simp only [Bool.and_eq_true, decide_eq_true_eq, bne_iff_ne, ne_eq] at hc
      simp only [Option.some.injEq] at h; subst h
      exact ⟨rfl, hc.1.1, hc.1.2, hc.2⟩
    · cases h
  · rintro ⟨rfl, h1, h2, h3⟩
    rw [if_pos (by simp only [Bool.and_eq_true, decide_eq_true_eq, bne_iff_ne, ne_eq]; exact ⟨⟨h1, h2⟩, h3⟩)]

/-- A line follows the grammar exactly where it is written as Formats and Pins say (R209). -/
theorem lexLine_iff (body word : Text) (args : List Token) : lexLine body = some (word, args) ↔ LineWritten body word args := by
  have hup : ∀ w : Text, CharsIn [('A', 'Z')] w ↔ w.all isUpper = true := by
    intro w; rw [charsIn_iff]; simp [isUpper]
  unfold LineWritten
  constructor
  · intro h
    unfold lexLine at h
    split at h
    · rename_i tag sp rest ht hd
      obtain ⟨rfl, h1, h2, h3⟩ := (lineTag_iff _ _).1 ht
      simp only at h
      split at h
      · cases h
      · rename_i hc
        simp only [bne_iff_ne, ne_eq, Bool.or_eq_true, Bool.not_eq_true', Bool.and_eq_false_iff, decide_eq_false_iff_not, not_or, not_not,
          Bool.not_eq_false, not_le, not_lt] at hc
        obtain ⟨⟨rfl, h4, h5⟩, h6⟩ := hc
        simp only [Option.map_eq_some_iff, Prod.mk.injEq] at h
        obtain ⟨a, h7, rfl, rfl⟩ := h
        have hlen : (List.dropWhile (fun b => b != chr ' ') rest).length ≤ rest.length := (List.dropWhile_suffix _).length_le
        obtain ⟨parts, h8, h9⟩ := (lexArgs_iff _ _ hlen _).1 h7
        refine ⟨_, parts, h1, h2, h3, by omega, by omega, (hup _).2 h6, h8, ?_⟩
        rw [← h9]
        conv_lhs => rw [← List.take_append_drop 2 body, hd]
        simp [List.takeWhile_append_dropWhile]
    · cases h
  · rintro ⟨tag, parts, h1, h2, h3, h4, h5, h6, h7, rfl⟩
    obtain ⟨a, b, rfl⟩ : ∃ a b, tag = [a, b] := by
      rcases tag with _ | ⟨a, _ | ⟨b, _ | ⟨c, t⟩⟩⟩ <;> simp at h1
      exact ⟨a, b, rfl⟩
    unfold lexLine
    have ht : lineTag ([a, b] ++ chr ' ' :: word ++ parts.flatMap (chr ' ' :: ·)) = some [a, b] :=
      (lineTag_iff _ _).2 ⟨rfl, h1, h2, h3⟩
    have hd : ([a, b] ++ chr ' ' :: word ++ parts.flatMap (chr ' ' :: ·)).drop 2 = chr ' ' :: (word ++ parts.flatMap (chr ' ' :: ·)) := rfl
    rw [ht, hd]
    have hw : chr ' ' ∉ word := notMem_of_charsIn h6 _ (by decide)
    have e1 : List.takeWhile (fun b => b != chr ' ') (word ++ parts.flatMap (chr ' ' :: ·)) = word := by
      rw [List.takeWhile_append_of_pos (by intro c hc; simp; rintro rfl; exact hw hc)]
      rcases parts with _ | ⟨c, bs⟩ <;> simp
    have e2 : List.dropWhile (fun b => b != chr ' ') (word ++ parts.flatMap (chr ' ' :: ·)) = parts.flatMap (chr ' ' :: ·) := by
      rw [List.dropWhile_append_of_pos (by intro c hc; simp; rintro rfl; exact hw hc)]
      rcases parts with _ | ⟨c, bs⟩ <;> simp
    simp only [e1, e2]
    rw [if_neg, (lexArgs_iff _ _ (by simp) args).2 ⟨parts, h7, rfl⟩]
    · rfl
    · simp only [(hup _).1 h6]; simp; omega

/-! ### The check -/

theorem splitLastStar_eq_none_iff (t : Text) : splitLastStar t = none ↔ chr '*' ∉ t := by
  induction t with
  | nil => simp [splitLastStar]
  | cons b t ih =>
    rw [splitLastStar]
    rcases h : splitLastStar t with _ | ⟨p, q⟩
    · have hn := ih.1 h
      by_cases hb : b = chr '*'
      · simp [hb]
      · simp [hb, hn, Ne.symm hb]
    · have : chr '*' ∈ t := by by_contra hc; rw [ih.2 hc] at h; cases h
      simp [this]

theorem splitLastStar_iff (t x y : Text) : splitLastStar t = some (x, y) ↔ t = x ++ chr '*' :: y ∧ chr '*' ∉ y := by
  induction t generalizing x with
  | nil => simp [splitLastStar]
  | cons b t ih =>
    rw [splitLastStar]
    rcases h : splitLastStar t with _ | ⟨p, q⟩
    · have hn := (splitLastStar_eq_none_iff t).1 h
      by_cases hb : b = chr '*'
      · subst hb
        rcases x with _ | ⟨c, x⟩
        · simp only [beq_self_eq_true, if_true, Option.some.injEq, Prod.mk.injEq, true_and, List.nil_append, List.cons.injEq]
          constructor
          · rintro rfl; exact ⟨rfl, hn⟩
          · rintro ⟨rfl, -⟩; rfl
        · simp only [beq_self_eq_true, if_true, Option.some.injEq, Prod.mk.injEq, List.cons_append, List.cons.injEq]
          constructor
          · rintro ⟨h, -⟩; cases h
          · rintro ⟨⟨-, rfl⟩, -⟩; simp at hn
      · simp only [beq_iff_eq, hb, if_false, reduceCtorEq, false_iff]
        rintro ⟨h1, h2⟩
        rcases x with _ | ⟨c, x⟩
        · simp only [List.nil_append, List.cons.injEq] at h1; exact hb h1.1
        · simp only [List.cons_append, List.cons.injEq] at h1; obtain ⟨-, rfl⟩ := h1; simp at hn
    · rcases x with _ | ⟨c, x⟩
      · simp only [Option.some.injEq, Prod.mk.injEq, reduceCtorEq, false_and, List.nil_append, List.cons.injEq, false_iff]
        rintro ⟨⟨rfl, rfl⟩, h2⟩
        rw [(splitLastStar_eq_none_iff t).2 h2] at h; cases h
      · have := ih x
        rw [h] at this
        simp only [Option.some.injEq, Prod.mk.injEq, List.cons_append, List.cons.injEq] at this ⊢
        constructor
        · rintro ⟨⟨rfl, rfl⟩, rfl⟩
          have := this.1 ⟨rfl, rfl⟩; exact ⟨⟨rfl, this.1⟩, this.2⟩
        · rintro ⟨⟨rfl, h1⟩, h2⟩
          obtain ⟨rfl, rfl⟩ := this.2 ⟨h1, h2⟩; exact ⟨⟨rfl, rfl⟩, rfl⟩

theorem hexByte_isHex (b : Byte) : (hexByte b).length = 2 ∧ (hexByte b).all isHex = true := by
  obtain ⟨x, y, e, hx, hy, -⟩ := hexByte_eq_chars b; simp [e, hx, hy]

/-- A line passes the check test exactly where its last `*` is followed by its check (R190, R208). -/
theorem checkedBody_iff (line body : Text) :
    checkedBody line = some body ↔ line = body ++ chr '*' :: checkText (body ++ [chr '*']) := by
  have hx : ∀ t : Text, (checkText t).length = 4 ∧ (checkText t).all isHex = true := by
    intro t
    simp only [checkText, List.length_append, (hexByte_isHex _).1, List.all_append, (hexByte_isHex _).2]; simp
  unfold checkedBody
  rcases h : splitLastStar line with _ | ⟨x, y⟩
  · simp only [reduceCtorEq, false_iff]
    rintro rfl
    have := (splitLastStar_eq_none_iff _).1 h
    simp at this
  · obtain ⟨rfl, hy⟩ := (splitLastStar_iff _ _ _).1 h
    simp only
    constructor
    · intro h2
      split at h2
      · rename_i hc
        simp only [Bool.and_eq_true, beq_iff_eq] at hc
        simp only [Option.some.injEq] at h2; subst h2
        rw [← hc.2]
      · cases h2
    · intro h2
      have hn : chr '*' ∉ checkText (body ++ [chr '*']) := by
        intro hm
        have := (hx (body ++ [chr '*'])).2
        rw [List.all_eq_true] at this
        have := this _ hm; revert this; decide
      have := (splitLastStar_iff _ body _).2 ⟨h2, hn⟩
      rw [h] at this
      simp only [Option.some.injEq, Prod.mk.injEq] at this
      obtain ⟨rfl, rfl⟩ := this
      rw [if_pos]
      simp only [(hx _).1, (hx _).2]; simp

/-! ### Arguments in place and Named arguments -/

/-- The Named arguments give the optional one as told. -/
def Given (a : Args) (o : String × Option (Text → Prop)) : Prop :=
  match o.2 with
  | none => ∀ e ∈ a.named, e.1 ≠ ascii o.1
  | some p => ∃ x, (ascii o.1, x) ∈ a.named ∧ p x

/-- A Named argument is read exactly as it is given. -/
theorem opt_eq_some_iff_given {α : Type} (a : Args) (hn : (a.named.map (·.1)).Nodup) (name : String) (form : Text → Option α)
    (o : Option α) :
    a.opt name form = some o ↔ Given a (name, o.map fun v x => form x = some v) := by
  unfold Args.opt
  cases hf : a.named.find? (fun e => e.1 == ascii name) with
  | none =>
    rw [List.find?_eq_none] at hf
    have hf' : ∀ e ∈ a.named, e.1 ≠ ascii name := fun e he => by simpa using hf e he
    cases o with
    | none => simpa [Given] using hf'
    | some v =>
      simp only [Given, Option.map_some, Option.some.injEq, reduceCtorEq, false_iff]
      rintro ⟨x, hx, -⟩; exact hf' _ hx rfl
  | some e =>
    have he := List.mem_of_find?_eq_some hf
    have h1 : e.1 = ascii name := by simpa using List.find?_some hf
    cases o with
    | none =>
      simp only [Given, Option.map_none, Option.map_eq_some_iff]
      simp only [reduceCtorEq, and_false, exists_false, false_iff]
      intro h; exact h e he h1
    | some v =>
      simp only [Given, Option.map_some, Option.map_eq_some_iff, Option.some.injEq, exists_eq_right]
      constructor
      · intro h; exact ⟨e.2, by rw [← h1]; exact he, h⟩
      · rintro ⟨x, hx, h⟩
        have : e = (ascii name, x) := List.inj_on_of_nodup_map hn he hx h1
        rw [this]; exact h

theorem forall₂_of_forall {α β : Type*} {R : α → β → Prop} {l : List β} (h : ∀ b ∈ l, ∃ a, R a b) :
    ∃ l', List.Forall₂ R l' l := by
  induction l with
  | nil => exact ⟨[], .nil⟩
  | cons b l ih =>
    obtain ⟨a, ha⟩ := h b (by simp)
    obtain ⟨l', hl⟩ := ih fun c hc => h c (by simp [hc])
    exact ⟨a :: l', .cons ha hl⟩

theorem forall₂_mem_left {α β : Type*} {R : α → β → Prop} {l : List α} {l' : List β} (h : List.Forall₂ R l l') :
    ∀ a ∈ l, ∃ b ∈ l', R a b := by
  induction h with
  | nil => intro a h; cases h
  | cons h0 _ ih =>
    intro a ha
    rcases List.mem_cons.1 ha with rfl | ha
    · exact ⟨_, by simp, h0⟩
    · obtain ⟨b, hb, h⟩ := ih a ha; exact ⟨b, by simp [hb], h⟩

theorem forall₂_mem_right {α β : Type*} {R : α → β → Prop} {l : List α} {l' : List β} (h : List.Forall₂ R l l') :
    ∀ b ∈ l', ∃ a ∈ l, R a b := by
  induction h with
  | nil => intro a h; cases h
  | cons h0 _ ih =>
    intro a ha
    rcases List.mem_cons.1 ha with rfl | ha
    · exact ⟨_, by simp, h0⟩
    · obtain ⟨b, hb, h⟩ := ih a ha; exact ⟨b, by simp [hb], h⟩

/-- Names of optional arguments: distinct, none empty, none with `=`. -/
def NamesOk (names : List String) : Prop := (names.map ascii).Nodup ∧ ∀ n ∈ names, ascii n ≠ [] ∧ chr '=' ∉ ascii n

/-- Arguments written for a request are those that are told apart into its places and its names. -/
theorem argumentsFor_iff (place : List (Token → Prop)) (opts : List (String × Option (Text → Prop))) (args : List Token)
    (hp : ∀ p ∈ place, ∀ t, p t → asNamed t = none) (hn : NamesOk (opts.map (·.1))) :
    ArgumentsFor place opts args ↔
      ∃ a, splitArgs args = some a ∧ List.Forall₂ (fun p t => p t) place a.pos ∧ a.onlyNames (opts.map (·.1)) = true ∧
        ∀ o ∈ opts, Given a o := by
  obtain ⟨hnd, hne⟩ := hn
  have hinj : ∀ o ∈ opts, ∀ o' ∈ opts, ascii o.1 = ascii o'.1 → o = o' := by
    rw [List.map_map] at hnd
    exact fun o ho o' ho' h => List.inj_on_of_nodup_map hnd ho ho' h
  constructor
  · rintro ⟨pos, given, nt, rfl, h1, h2, h3⟩
    have hg : ∀ g ∈ given, ∃ o ∈ opts, o.1 = g.1 ∧ o.2 = some g.2 := by
      intro g hg
      have := h2.mem_iff.1 hg
      simp only [List.mem_filterMap, Option.map_eq_some_iff] at this
      obtain ⟨o, ho, p, hp, rfl⟩ := this
      exact ⟨o, ho, rfl, hp⟩
    have h4 : ∃ nm : List (Text × Text), List.Forall₂ (fun (nv : Text × Text) t => asNamed t = some nv) nm nt ∧
        List.Forall₂ (fun (g : String × (Text → Prop)) (nv : Text × Text) => nv.1 = ascii g.1 ∧ g.2 nv.2) given nm := by
      clear h2
      induction h3 with
      | nil => exact ⟨[], .nil, .nil⟩
      | @cons g t gs ts h0 _ ih =>
        obtain ⟨x, hx, rfl⟩ := h0
        obtain ⟨nm, h5, h6⟩ := ih fun g hg' => hg g (by simp [hg'])
        obtain ⟨o, ho, h7, -⟩ := hg g (by simp)
        have := hne o.1 (List.mem_map_of_mem ho)
        rw [h7] at this
        exact ⟨(ascii g.1, x) :: nm, .cons ((asNamed_iff _ _ _).2 ⟨rfl, this⟩) h5, .cons ⟨rfl, hx⟩ h6⟩
    obtain ⟨nm, h5, h6⟩ := h4
    have hkeys : nm.map (·.1) = given.map fun g => ascii g.1 := by
      clear h2 h3 h5 hg
      induction h6 with
      | nil => rfl
      | cons h0 _ ih => simp [h0.1, ih]
    have hnn : (nm.map (·.1)).Nodup := by
      rw [hkeys, (h2.map fun g => ascii g.1).nodup_iff]
      refine List.Nodup.sublist ?_ hnd
      clear hnd hne hinj hp h1 h2 h3 h5 h6 hg hkeys
      induction opts with
      | nil => simp
      | cons o opts ih =>
        rcases o with ⟨n, _ | p⟩
        · simp only [List.filterMap_cons, Option.map_none, List.map_cons]; exact ih.cons _
        · simp only [List.filterMap_cons, Option.map_some, List.map_cons]; exact ih.cons_cons _
    refine ⟨⟨pos, nm⟩, (splitArgs_iff _ _).2 ⟨nt, rfl, ?_, h5, hnn⟩, h1, ?_, ?_⟩
    · intro t ht
      obtain ⟨p, hpm, hpt⟩ := forall₂_mem_right h1 t ht
      exact hp p hpm t hpt
    · simp only [Args.onlyNames, List.all_eq_true, List.contains_iff_mem]
      intro e he
      obtain ⟨g, hgm, h7, -⟩ := forall₂_mem_right h6 e he
      obtain ⟨o, ho, h8, -⟩ := hg g hgm
      rw [h7, ← h8]; exact List.mem_map_of_mem (List.mem_map_of_mem ho)
    · rintro ⟨n, o⟩ ho
      cases o with
      | none =>
        intro e he h7
        obtain ⟨g, hgm, h8, -⟩ := forall₂_mem_right h6 e he
        obtain ⟨o', ho', h9, h10⟩ := hg g hgm
        have := hinj _ ho _ ho' (by rw [h9, ← h8, ← h7])
        rw [← this] at h10; cases h10
      | some p =>
        have hm : (n, p) ∈ given := h2.mem_iff.2 (by
          simp only [List.mem_filterMap]; exact ⟨_, ho, rfl⟩)
        obtain ⟨e, he, h8, h9⟩ := forall₂_mem_left h6 _ hm
        exact ⟨e.2, by rw [← h8]; exact he, h9⟩
  · rintro ⟨a, h1, h2, h3, h4⟩
    obtain ⟨nt, rfl, h5, h6, h7⟩ := (splitArgs_iff _ _).1 h1
    have h8 : ∀ e ∈ a.named, ∃ g : String × (Text → Prop), (g.1, some g.2) ∈ opts ∧ e.1 = ascii g.1 ∧ g.2 e.2 := by
      intro e he
      simp only [Args.onlyNames, List.all_eq_true, List.contains_iff_mem, List.mem_map] at h3
      obtain ⟨n, ⟨o, ho, rfl⟩, hn⟩ := h3 e he
      have := h4 o ho
      rcases o with ⟨n, _ | p⟩
      · exact absurd hn.symm (this e he)
      · obtain ⟨x, hx, hpx⟩ := this
        have : (ascii n, x) = e := List.inj_on_of_nodup_map h7 hx he hn
        exact ⟨(n, p), ho, by rw [← this], by rw [← this]; exact hpx⟩
    obtain ⟨given, h9⟩ := forall₂_of_forall h8
    refine ⟨a.pos, given, nt, rfl, h2, ?_, ?_⟩
    · have hk : given.map (fun g => ascii g.1) = a.named.map (·.1) := by
        clear h1 h2 h3 h4 h5 h6 h7 h8
        generalize a.named = nm at h9 ⊢
        induction h9 with
        | nil => rfl
        | cons h0 _ ih => simp [h0.2.1, ih]
      have hk1 : given.Nodup := by
        apply List.Nodup.of_map (fun g => ascii g.1); rw [hk]; exact h7
      have hk2 : (opts.filterMap fun o => o.2.map fun p => (o.1, p)).Nodup := by
        apply List.Nodup.of_map (fun g => ascii g.1)
        refine List.Nodup.sublist ?_ hnd
        clear hnd hne hinj hp h1 h2 h3 h4 h5 h6 h7 h8 h9 hk hk1
        induction opts with
        | nil => simp
        | cons o opts ih =>
          rcases o with ⟨n, _ | p⟩
          · simp only [List.filterMap_cons, Option.map_none, List.map_cons]; exact ih.cons _
          · simp only [List.filterMap_cons, Option.map_some, List.map_cons]; exact ih.cons_cons _
      rw [List.perm_ext_iff_of_nodup hk1 hk2]
      rintro ⟨n, p⟩
      simp only [List.mem_filterMap, Option.map_eq_some_iff]
      constructor
      · intro hg
        obtain ⟨e, -, h10, -⟩ := forall₂_mem_left h9 _ hg
        exact ⟨_, h10, p, rfl, rfl⟩
      · rintro ⟨⟨n', o⟩, ho, p', h10, h11⟩
        simp only [Prod.mk.injEq] at h11
        obtain ⟨rfl, rfl⟩ := h11
        simp only at h10; subst h10
        obtain ⟨x, hx, -⟩ := h4 _ ho
        obtain ⟨g, hg, h12, h13, -⟩ := forall₂_mem_right h9 _ hx
        have := hinj _ ho _ h12 h13
        simp only [Prod.mk.injEq, Option.some.injEq] at this
        obtain ⟨rfl, h14⟩ := this
        have h15 : p' = g.2 := h14
        rw [h15]; exact hg
    · clear h1 h2 h3 h4 h5 h7 h8
      generalize a.named = nm at h6 h9
      induction h6 generalizing given with
      | nil => cases h9; exact .nil
      | cons h0 _ ih =>
        cases h9 with
        | cons h10 h11 =>
          refine .cons ?_ (ih _ h11)
          obtain ⟨h12, -, -⟩ := (asNamed_iff _ _ _).1 h0
          exact ⟨_, h10.2.2, by rw [h12, h10.2.1]⟩

/-! ### Words of the catalogue -/

/-- A request comes from the reading that its word has in the catalogue (R192). -/
theorem parseRequest_eq_request_iff (strap : Bool) (word : Text) (args : List Token) (i : Instr) :
    parseRequest strap word args = .request i ↔
      ∃ f a, named (catalogue strap) word = some f ∧ splitArgs args = some a ∧ f a = some i := by
  unfold parseRequest
  split
  · rename_i h; simp [h]
  · rename_i f h
    split
    · rename_i h2; simp only [reduceCtorEq, false_iff]
      rintro ⟨g, a, h3, h4, h5⟩
      rw [h] at h3; cases h3
      rw [h4] at h2; simp only [Option.bind_some, h5] at h2; cases h2
    · rename_i j h2
      simp only [Parsed.request.injEq]
      rw [Option.bind_eq_some_iff] at h2
      obtain ⟨a, h3, h4⟩ := h2
      constructor
      · rintro rfl; exact ⟨f, a, h, h3, h4⟩
      · rintro ⟨g, b, h5, h6, h7⟩
        rw [h] at h5; cases h5; rw [h3] at h6; cases h6; rw [h4] at h7; cases h7; rfl

theorem exists_of_named_eq_some {α : Type} {l : List (String × α)} {t : Text} {v : α} (h : named l t = some v) :
    ∃ e ∈ l, ascii e.1 = t ∧ e.2 = v := by
  simp only [named, Option.map_eq_some_iff] at h
  obtain ⟨e, h1, h2⟩ := h
  exact ⟨e, List.mem_of_find?_eq_some h1, by simpa using List.find?_some h1, h2⟩

theorem named_eq_some_of_mem {α : Type} {l : List (String × α)} (hn : (l.map fun e => ascii e.1).Nodup) {w : String} {f : α}
    (h : (w, f) ∈ l) :
    named l (ascii w) = some f := by
  unfold named
  cases hf : l.find? (fun e => ascii e.1 == ascii w) with
  | none => rw [List.find?_eq_none] at hf; simpa using hf _ h
  | some e =>
    have h1 := List.mem_of_find?_eq_some hf
    have h2 : ascii e.1 = ascii w := by simpa using List.find?_some hf
    rw [List.inj_on_of_nodup_map hn h1 h h2]; rfl

set_option maxRecDepth 20000 in
theorem catalogue_words_nodup (strap : Bool) : ((catalogue strap).map fun e => ascii e.1).Nodup := by
  have h1 : ((catalogue strap).map fun e => ascii e.1) = catalogueWords.map ascii := by rfl
  rw [h1]; decide

/-! ### The forms as the readers of them -/

theorem numberFor_eq : NumberFor = fun n t => formNumber t = some n := by funext n t; simp [formNumber_iff]
theorem timeFor_eq : TimeFor = fun n t => formTime t = some n := by funext n t; simp [formTime_iff]
theorem minutesFor_eq : MinutesFor = fun n t => formMinutes t = some n := by funext n t; simp [formMinutes_iff]
theorem dateFor_eq : DateFor = fun n t => formDate t = some n := by funext n t; simp [formDate_iff]
theorem setFor_eq : SetFor = fun n t => formSet t = some n := by funext n t; simp [formSet_iff]
theorem contactsFor_eq : ContactsFor = fun n t => formContacts t = some n := by funext n t; simp [formContacts_iff]
theorem stepsFor_eq : JoinedFor StepFor = fun n t => formSteps t = some n := by funext n t; simp [formSteps_iff]
theorem areasFor_eq : JoinedFor (WordFor areaWords) = fun n t => formAreaNames t = some n := by funext n t; simp [formAreaNames_iff]
theorem dayTypeFor_eq : DayTypeFor = fun n t => formDayType t = some n := by funext n t; simp [formDayType_iff]
theorem wordFor_eq {α : Type} (l : List (String × α)) : WordFor l = fun n t => formOneOf l t = some n := by funext n t; simp [formOneOf_iff]
theorem identityFor_eq (i : Identity) : (fun t => t = itemText (.identity i)) = fun t => formIdentity t = some i := by funext t; simp [formIdentity_iff]
theorem permit_eq : PermitFor = fun p t => formPermit t = some p := by
  funext p t
  have h : formTime (ascii "NONE") = none := by decide
  unfold formPermit
  cases p with
  | none => by_cases h2 : t = ascii "NONE" <;> simp [h2, PermitFor]
  | some v =>
    simp only [PermitFor, ← formTime_iff]
    by_cases h2 : t = ascii "NONE" <;> simp [h2, h]

theorem inForm_as {α : Type} (form : Text → Option α) (v : α) (t : Token) : inForm (fun x => form x = some v) t ↔ t.as form = some v := by
  cases t <;> simp [inForm, Token.as]

theorem numberArg_eq (n : Nat) : numberArg n = fun t => asNum t = some n := by
  funext t; simp only [numberArg, numberFor_eq, inForm_as, asNum]
theorem timeArg_eq (n : Nat) : timeArg n = fun t => t.as formTime = some n := by
  funext t; simp only [timeArg, timeFor_eq, inForm_as]
theorem dateArg_eq (n : Nat) : dateArg n = fun t => asDate t = some n := by
  funext t; simp only [dateArg, dateFor_eq, inForm_as, asDate]
theorem setArg_eq (n : List Nat) : setArg n = fun t => asSet t = some n := by
  funext t; simp only [setArg, setFor_eq, inForm_as, asSet]
theorem oneOfArg_eq {α : Type} (l : List (String × α)) (v : Option α) : oneOfArg l v = fun t => asOne l t = some v := by
  funext t; simp only [oneOfArg, wordFor_eq, inForm_as, asOne]
theorem wordArg_eq (w : String) : wordArg w = fun t => isWord w t = true := by
  funext t; cases t <;> simp [wordArg, inForm, isWord]
theorem textArg_eq (x : Text) : textArg x = fun t => t.text = some x := by
  funext t; cases t <;> simp [textArg, Token.text, eq_comm]

theorem asNamed_none_of_notMem {t : Text} (h : chr '=' ∉ t) : asNamed (.plain t) = none := by
  cases h2 : asNamed (.plain t) with
  | none => rfl
  | some p =>
    obtain ⟨h3, -⟩ := (asNamed_iff _ _ _).1 (show asNamed (.plain t) = some (p.1, p.2) by rw [h2])
    simp only [Token.plain.injEq] at h3; rw [h3] at h; simp at h

theorem inForm_asNamed {p : Text → Prop} (h : ∀ t, p t → chr '=' ∉ t) (t : Token) (ht : inForm p t) : asNamed t = none := by
  cases t with
  | plain t => exact asNamed_none_of_notMem (h t ht)
  | quoted t => rfl

theorem TimeFor.notMem {v : Nat} {t : Text} (h : TimeFor v t) : chr '=' ∉ t := by
  obtain ⟨a, b, c, x, y, z, ha, hb, hc, rfl, -⟩ := h
  simp [ha.notMem (chr '=') (by decide), hb.notMem (chr '=') (by decide), hc.notMem (chr '=') (by decide), show ¬ chr '=' = chr ':' by decide]
theorem MinutesFor.notMem {v : Nat} {t : Text} (h : MinutesFor v t) : chr '=' ∉ t := by
  obtain ⟨a, b, x, y, ha, hb, rfl, -⟩ := h
  simp [ha.notMem (chr '=') (by decide), hb.notMem (chr '=') (by decide), show ¬ chr '=' = chr ':' by decide]
theorem DateFor.notMem {v : Nat} {t : Text} (h : DateFor v t) : chr '=' ∉ t := by
  obtain ⟨a, b, c, x, y, z, ha, hb, hc, rfl, -⟩ := h
  simp [ha.notMem (chr '=') (by decide), hb.notMem (chr '=') (by decide), hc.notMem (chr '=') (by decide), show ¬ chr '=' = chr '-' by decide]
theorem SetFor.notMem {v : List Nat} {t : Text} (h : SetFor v t) : chr '=' ∉ t := by
  rcases h with ⟨rfl, -⟩ | ⟨r, h, -⟩
  · decide
  · exact h.notMem _ (by decide) fun a t h => h.notMem _ (by decide) (by decide)
theorem ContactsFor.notMem {v : List Contact} {t : Text} (h : ContactsFor v t) : chr '=' ∉ t := by
  rcases h with ⟨rfl, -⟩ | h
  · decide
  · exact h.notMem _ (by decide) fun a t h => h.notMem _ (by decide) (by decide) (by decide) (by decide)
theorem DayTypeFor.notMem {v : DayType} {t : Text} (h : DayTypeFor v t) : chr '=' ∉ t := by
  cases v
  · exact NumberFor.notMem h _ (by decide)
  · simp only [DayTypeFor] at h; subst h; decide

theorem num_unnamed {n t} (h : numberArg n t) : asNamed t = none := inForm_asNamed (fun _ h => NumberFor.notMem h _ (by decide)) t h
theorem time_unnamed {n t} (h : timeArg n t) : asNamed t = none := inForm_asNamed (fun _ h => TimeFor.notMem h) t h
theorem date_unnamed {n t} (h : dateArg n t) : asNamed t = none := inForm_asNamed (fun _ h => DateFor.notMem h) t h
theorem set_unnamed {n t} (h : setArg n t) : asNamed t = none := inForm_asNamed (fun _ h => SetFor.notMem h) t h
theorem oneOf_unnamed {α : Type} {l : List (String × α)} {n t} (h : oneOfArg l n t) : asNamed t = none :=
  inForm_asNamed (fun _ h => WordFor.notMem h _ (by decide)) t h
theorem text_unnamed {n t} (h : textArg n t) : asNamed t = none := by cases h; rfl
theorem word_unnamed {w t} (hw : chr '=' ∉ ascii w) (h : wordArg w t) : asNamed t = none :=
  inForm_asNamed (fun _ (h : _ = ascii w) => by rw [h]; exact hw) t h
theorem contacts_unnamed {n t} (h : inForm (ContactsFor n) t) : asNamed t = none := inForm_asNamed (fun _ h => ContactsFor.notMem h) t h
theorem minutes_unnamed {n t} (h : inForm (MinutesFor n) t) : asNamed t = none := inForm_asNamed (fun _ h => MinutesFor.notMem h) t h
theorem dayType_unnamed {n t} (h : inForm (DayTypeFor n) t) : asNamed t = none := inForm_asNamed (fun _ h => DayTypeFor.notMem h) t h
theorem steps_unnamed {n t} (h : inForm (JoinedFor StepFor n) t) : asNamed t = none :=
  inForm_asNamed (fun _ h => JoinedFor.notMem h _ (by decide) fun _ _ h => h.notMem _ (by decide) (by decide) (by decide)) t h
theorem areas_unnamed {n t} (h : inForm (JoinedFor (WordFor areaWords) n) t) : asNamed t = none :=
  inForm_asNamed (fun _ h => JoinedFor.notMem h _ (by decide) fun _ _ h => h.notMem _ (by decide)) t h
theorem identity_unnamed {i t} (h : inForm (· = itemText (.identity i)) t) : asNamed t = none := by
  refine inForm_asNamed (fun x h => ?_) t h
  have h1 := (formIdentity_iff x i).2 h
  intro hm
  unfold formIdentity at h1
  split at h1
  · cases h1
  · rename_i hc
    simp only [ne_eq, Bool.or_eq_true, decide_eq_true_eq, Bool.not_eq_true', not_or, not_not, Bool.not_eq_false] at hc
    have := hc.2
    rw [List.all_eq_true] at this
    have := this _ hm; revert this; decide

/-- No argument of the form is a Named one. -/
def Unnamed (p : Token → Prop) : Prop := ∀ t, p t → asNamed t = none
theorem unnamed_numberArg {n} : Unnamed (numberArg n) := fun _ => num_unnamed
theorem unnamed_timeArg {n} : Unnamed (timeArg n) := fun _ => time_unnamed
theorem unnamed_dateArg {n} : Unnamed (dateArg n) := fun _ => date_unnamed
theorem unnamed_setArg {n} : Unnamed (setArg n) := fun _ => set_unnamed
theorem unnamed_oneOfArg {α : Type} {l : List (String × α)} {n} : Unnamed (oneOfArg l n) := fun _ => oneOf_unnamed
theorem unnamed_textArg {n} : Unnamed (textArg n) := fun _ => text_unnamed
theorem unnamed_wordArg {w} (hw : chr '=' ∉ ascii w) : Unnamed (wordArg w) := fun _ => word_unnamed hw
theorem unnamed_contacts {n} : Unnamed (inForm (ContactsFor n)) := fun _ => contacts_unnamed
theorem unnamed_minutes {n} : Unnamed (inForm (MinutesFor n)) := fun _ => minutes_unnamed
theorem unnamed_dayType {n} : Unnamed (inForm (DayTypeFor n)) := fun _ => dayType_unnamed
theorem unnamed_steps {n} : Unnamed (inForm (JoinedFor StepFor n)) := fun _ => steps_unnamed
theorem unnamed_areas {n} : Unnamed (inForm (JoinedFor (WordFor areaWords) n)) := fun _ => areas_unnamed
theorem unnamed_identity {i} : Unnamed (inForm (· = itemText (.identity i))) := fun _ => identity_unnamed

/-- ArgumentsFor over arguments already split. -/
def SplitFor (place : List (Token → Prop)) (opts : List (String × Option (Text → Prop))) (a : Args) : Prop :=
  List.Forall₂ (fun p t => p t) place a.pos ∧ a.onlyNames (opts.map (·.1)) = true ∧ ∀ o ∈ opts, Given a o

theorem argumentsFor_split (place : List (Token → Prop)) (opts : List (String × Option (Text → Prop))) (args : List Token)
    (hp : ∀ p ∈ place, Unnamed p) (hn : NamesOk (opts.map (·.1))) :
    ArgumentsFor place opts args ↔ ∃ a, splitArgs args = some a ∧ SplitFor place opts a := argumentsFor_iff place opts args hp hn

theorem noArgs_split (args : List Token) : args = [] ↔ ∃ a, splitArgs args = some a ∧ SplitFor [] [] a := by
  rw [← argumentsFor_split [] [] args (by simp) (by simp [NamesOk])]
  constructor
  · rintro rfl; exact ⟨[], [], [], rfl, .nil, by simp, .nil⟩
  · rintro ⟨p, g, n, rfl, h1, h2, h3⟩
    cases h1; simp at h2; subst h2; cases h3; rfl

theorem onlyNames_nil (a : Args) : a.onlyNames [] = a.named.isEmpty := by
  unfold Args.onlyNames; rcases a with ⟨_, _ | ⟨e, l⟩⟩ <;> simp

theorem splitFor_nil (place : List (Token → Prop)) (a : Args) :
    SplitFor place [] a ↔ List.Forall₂ (fun p t => p t) place a.pos ∧ a.named.isEmpty = true := by
  simp [SplitFor, onlyNames_nil]

end Sys2Proof.Machine
end

