-- ==== Sys2Proof/Tests/Slice0.lean ====
section
/-! SUPPORT. Tests of the model on small states: an ill-formed term for each check of `wellFormed`, values the spec gives, a
witness for the hypotheses of each obligation that has some, and refusals for the checks of the requests. -/

namespace Sys2Proof.Tests

open Sys2Proof Sys2Proof.Machine

/- The tests are checked one after another: a kernel evaluation waits for every proof before it, and a hundred waiting at once would
ask for more threads than the checker has room for. -/
set_option Elab.async false

/-! ### Well-formedness -/

/-- More digits than a Number of a line has. -/
def big : Nat := 10000000000

/-- Arguments of ENROL that are well formed. -/
def goodEnrol : EnrolArgs := ⟨1, 2, 3, 4, [⟨5, .text⟩], some 60, none, some 0⟩

/-- Arguments of AMEND that are well formed. -/
def goodAmend : AmendArgs := ⟨0, none, none, none, none, none, none, none⟩

/-- Arguments of ENTRYPUT that are well formed. -/
def goodEntry : EntryPutArgs := ⟨0, 60, some .registration, some 1, some [1], some 6, some [2], some 5, none, false⟩

theorem test_wellFormed_accepts :
    ([.enrol goodEnrol, .amend goodAmend, .entryPut goodEntry, .setClock 86400 (some 36525), .wakingEnd 3, .waitExpiry 8,
      .readTapsHeader [0, 0, 0], .tapBlock (List.replicate 30 0), .readStateReply [0, 0, 0, 0], .receipt ⟨65535, 2047, 2⟩ .take,
      .pong 255, .reply ⟨65535, some 999999, .ill 9, List.replicate 320 0⟩, .generalDeadline 65535] : List Instr).all
      Instr.wellFormed = true := by
  decide +kernel

theorem test_wellFormed_rejects_roll :
    ([.enrol { goodEnrol with card := big }, .enrol { goodEnrol with reference := big }, .enrol { goodEnrol with cohort := big },
      .enrol { goodEnrol with form := big }, .enrol { goodEnrol with contacts := [⟨big, .text⟩] },
      .enrol { goodEnrol with permit := some 86401 }, .enrol { goodEnrol with slot := some big },
      .amend { goodAmend with slot := big }, .amend { goodAmend with card := some big },
      .amend { goodAmend with reference := some big }, .amend { goodAmend with cohort := some big },
      .amend { goodAmend with form := some big }, .amend { goodAmend with permit := some (some 86401) },
      .amend { goodAmend with contacts := some [⟨big, .voice⟩] }, .withdraw big, .pupil big, .find (.card big),
      .find (.reference big), .find (.contact big 0), .find (.contact 1 big), .marks ⟨big, none, none, none, 0⟩,
      .marks ⟨0, none, some big, none, 0⟩, .marks ⟨0, none, none, none, big⟩, .mark ⟨big, none, none, none⟩,
      .mark ⟨0, none, none, some 86401⟩, .census (some big) 0, .census none big, .away big 0 0 none, .away 0 36526 0 none,
      .away 0 0 36526 none, .unaway big 0, .unaway 0 36526, .aways (some big) none, .aways none (some 36526), .arrive big none,
      .arrive 0 (some 86401)] : List Instr).any Instr.wellFormed = false := by
  decide +kernel

theorem test_wellFormed_rejects_day :
    ([.setClock 86401 none, .setClock 0 (some 36526), .datePut 36526 .closed, .datePut 0 (.school big), .dateDrop 36526,
      .dates (some 36526), .openDay (some big), .closure big, .day big, .entryPut { goodEntry with bank := big },
      .entryPut { goodEntry with time := 86401 }, .entryPut { goodEntry with pattern := some big },
      .entryPut { goodEntry with zones := some [1, 1] }, .entryPut { goodEntry with priority := some big },
      .entryPut { goodEntry with cohorts := some [big] }, .entryPut { goodEntry with grace := some big },
      .entryPut { goodEntry with hold := some big }, .entryDrop big 0, .entryDrop 0 big, .bankClear big, .header big none,
      .header 0 (some ([0x22], none)), .header 0 (some (List.replicate 250 0x41, none)), .header 0 (some ([0x1F], none)),
      .header 0 (some ([0x7F], none)), .bank big 0, .bank 0 big, .adopt big, .today big] : List Instr).any
      Instr.wellFormed = false := by
  decide +kernel

theorem test_wellFormed_rejects_bells :
    ([.patternPut big none, .patternPut 0 (some [.tone big 1 1]), .patternPut 0 (some [.tone 1 big 1]),
      .patternPut 0 (some [.tone 1 1 big]), .patternPut 0 (some [.rest big]), .patternPut 0 (some [.strike big]),
      .patternPut 0 (some [.loop big 1]), .patternPut 0 (some [.loop 0 big]), .pattern big, .volume none (some big),
      .mute (some ([1, 1], none)), .play (.request big [1] 1), .play (.request 0 [1, 1] 1), .play (.request 0 [1] big),
      .play (.read big), .hush (.channel big), .wakingEnd 4, .stepEnd 4, .tailEnd 4, .waitExpiry 0, .waitExpiry 9] :
      List Instr).any Instr.wellFormed = false := by
  decide +kernel

theorem test_wellFormed_rejects_line_and_notices :
    ([.admitTerminal 0 big, .retire big, .terminals big, .readTapsHeader [0], .tapBlock (List.replicate 31 0),
      .giveVerdictsConfirm [], .readStateReply [0, 0, 0], .classTable none (some (big, 0, 0)), .classTable none (some (0, big, 0)),
      .classTable none (some (0, 0, big)), .quiet big, .cancel big, .text big .read, .text 0 (.write [0x22]),
      .post ⟨big, 1, 0, 0, none⟩, .post ⟨0, big, 0, 0, none⟩, .post ⟨0, 1, big, 0, none⟩, .post ⟨0, 1, 0, big, none⟩,
      .post ⟨0, 1, 0, 0, some 86401⟩, .broadcast ⟨[1, 1], none, 1, 0, none⟩, .broadcast ⟨[1], none, big, 0, none⟩,
      .broadcast ⟨[1], none, 1, big, none⟩, .broadcast ⟨[1], none, 1, 0, some 86401⟩, .notices none (some big) 1,
      .notices none none big, .absentDeadlineExpiry 0, .absentDeadlineExpiry 65536, .generalDeadline 0, .generalDeadline 65536] :
      List Instr).any Instr.wellFormed = false := by
  decide +kernel

theorem test_wellFormed_rejects_gateway_and_store :
    ([.receipt ⟨0, 0, 0⟩ .take, .receipt ⟨65536, 0, 0⟩ .take, .outcome ⟨1, 2048, 0⟩ true, .takeTimeout ⟨1, 0, 3⟩,
      .outcomeLimit ⟨0, 0, 0⟩, .pong 256, .reply ⟨0, none, .onWay, []⟩, .reply ⟨65536, none, .onWay, []⟩,
      .reply ⟨1, some 0, .onWay, []⟩, .reply ⟨1, some 1000000, .onWay, []⟩, .reply ⟨1, none, .ill 0, []⟩,
      .reply ⟨1, none, .ill 10, []⟩, .reply ⟨1, none, .appointment (some 86400), []⟩,
      .reply ⟨1, none, .text, List.replicate 321 0⟩, .inbox (.summary (some big)), .inbox (.text big 0), .inbox (.text 1 big),
      .discard (.number big), .status (some big), .ack big none, .ack 0 (some big), .level big none, .level 0 (some (big, none)),
      .floor (some big), .setSetting (.zoneGroup big) none false, .setSetting (.relayPol big) none false,
      .setSetting .catchUp (some (.num big)) false, .setSetting .dayOpen (some (.time 86401)) false,
      .setSetting .buttonZones (some (.zones [1, 1])) false, .setSetting .weekMap (some (.week [.school big])) false,
      .getSetting (.setting (.zoneGroup big)) false] : List Instr).any Instr.wellFormed = false := by
  decide +kernel

/-! ### Values the spec gives -/

/-- The check value of the 16-bit check: of the characters `123456789` (R208). -/
theorem test_check16 : check16 (ascii "123456789") = 0xD64E#16 := by decide +kernel

/-- The check value of the 8-bit identity check (R208). -/
theorem test_check8 : check8 (ascii "123456789") = 0xF4#8 := by decide +kernel

/-- 2000-01-01 is a Saturday; a leap day exists, and 2099-12-31 is the last date (00_scope, R27). -/
theorem test_dates :
    weekday 0 = 5 ∧ yearMonthDay 59 = (2000, 2, 29) ∧ dateOf 2000 3 1 = 60 ∧ dateOf 2001 2 29 = dateCount ∧
      dateOf 2099 12 31 = 36524 ∧ yearMonthDay 36524 = (2099, 12, 31) := by
  decide +kernel

/-- The first cold start of a part whose stored copies are bad gives the state after reset (R207). -/
theorem test_cold_start_of_bad_copies_is_reset :
    exec (.coldStart Config.pinsAtReset) { State.reset with power := ⟨true, false, .cold⟩ } = .next State.reset :=
  congrArg Host.Outcome.next
    (by decide +kernel : coldStart Config.pinsAtReset { State.reset with power := ⟨true, false, .cold⟩ } = State.reset)

/-- No word spells a command. -/
theorem test_no_word : decodeTableWord 32 0 = none := rfl

/-! ### Small states -/

/-- The state a command leaves. -/
def after (i : Instr) (s : State) : State :=
  match exec i s with
  | .next t => t
  | .fault _ => s
  | .refused _ => s

/-- A date and a time with the clock valid: 08:00:00 on day 100. -/
def clocked : State := { State.reset with time := ⟨28800, 100, true, false, 0⟩ }

/-- The enrolment part of the pupil in slot 3. -/
def enrolA : Enrolment := ⟨11, 21, 2, 1, [⟨31, .text⟩, ⟨32, .voice⟩], none, false⟩

/-- A state with a roster. -/
def withRoster (l : List (Slot × Pupil)) (s : State) : State := { s with roll := ⟨l, censusOf l, []⟩ }

/-- The pupil of slot 3 with a day part. -/
def withPupil (d : DayPart) (s : State) : State := withRoster [(3, ⟨enrolA, d⟩)] s

/-- An OPEN day. -/
def opened : State :=
  { clocked with day := { clocked.day with state := .open_, date := some 100, bank := some 0, openingTime := some 18000 } }

/-- An OPEN day with the pupil of slot 3 at a mark. -/
def marked (m : Mark) : State := withPupil { DayPart.fresh with mark := m } opened

/-- A claim about every pupil, from the same claim about every record listed. -/
theorem forall_pupil {P : Slot → Pupil → Prop} {s : State} (h : ∀ e ∈ s.roll.roster, P e.1 e.2) :
    ∀ k p, pupilAt k s = some p → P k p := fun _ _ hp => h _ (mem_of_tableGet hp)

/-- A state whose roster is in order. -/
theorem rollOk_of {s : State}
    (h : (tableWf slotCount s.roll.roster ∧ (∀ e ∈ s.roll.roster, e.2.enrolment.cohort < 8)) ∧
      s.roll.census = censusOf s.roll.roster) : RollOk s := ⟨h.1.1, h.1.2, h.2⟩

theorem clocked_rollOk : RollOk clocked := rollOk_of (by decide +kernel)

theorem marked_rollOk (m : Mark) : RollOk (marked m) := rollOk_of (by cases m <;> decide +kernel)

theorem withPupil_rollOk (d : DayPart) (s : State) : RollOk (withPupil d s) :=
  ⟨⟨by simp [withPupil, withRoster], by simp [withPupil, withRoster, slotCount]⟩,
    by simp [withPupil, withRoster, enrolA], rfl⟩

/-! ### Witnesses for the hypotheses of the obligations, in the order of the obligations -/

theorem witness_refused :
    ∃ (c : Instr) (s t : State) (r : Reason), (requestEffect c).isSome = true ∧ s.power.held = false ∧ exec c s = .next t ∧
      t.office.result = some (.refused r) :=
  ⟨.closeDay, clocked, _, .wrongState, rfl, rfl, rfl, by decide +kernel⟩

/-- A part that is held. -/
def held (retention : Bool) : State := { opened with power := ⟨true, retention, .cold⟩ }

/-- A SAVE under way with one area ended and two to end. -/
def saving : StoreOperation := ⟨.save, [(.limits, .ok)], [.texts, .away], .none_, 28700⟩

/-- A held part with a day, and a notice of each addressee with a send in the window. -/
def heldDay (state : DayState) (date : Date) : State :=
  { held true with
    day := { opened.day with state := state, date := some date }
    notices :=
      { opened.notices with
        queue :=
          [⟨1, .absent, .pupil 3 0, 5, 100, 28700, none, none, true, false⟩,
            ⟨2, .general, .broadcast ⟨[2], .all, 3, 1, [], 1, 0, 0, false⟩, 4, 100, 28700, none, some 15, false, false⟩]
        window := [⟨⟨1, 3, 0⟩, 0, .awaitTake⟩, ⟨⟨2, 3, 0⟩, 0, .awaitOutcome⟩] } }

theorem witness_warm_day :
    ∀ state : DayState, ∀ date ∈ [99, 100], (heldDay state date).power.held = true ∧ (heldDay state date).power.retention = true ∧
      (heldDay state date).day.state = state ∧ (heldDay state date).day.date = some date ∧
      (heldDay state date).time.date = 100 ∧ AttentionOk (heldDay state date) ∧
      ((heldDay state date).notices.queue.map (·.number)).Nodup ∧
      ∀ n ∈ (heldDay state date).notices.queue, ∃ x ∈ (heldDay state date).notices.window, x.key.number = n.number := by
  intro state date _
  refine ⟨rfl, rfl, rfl, rfl, rfl, ⟨rfl, ?_⟩, ?_, ?_⟩
  · show ∀ x ∈ resetSources, _
    decide +kernel
  · show [1, 2].Nodup
    decide
  · intro n hn
    rcases List.mem_cons.1 hn with rfl | hn
    · exact ⟨_, List.mem_cons_self .., rfl⟩
    · rw [List.mem_singleton.1 hn]
      exact ⟨_, List.mem_cons_of_mem _ (List.mem_cons_self ..), rfl⟩

theorem witness_hold_and_starts :
    (∃ (c : Instr) (s : State), s.power.held = true ∧ c ≠ .secondAdvance ∧ (∀ p, c ≠ .coldStart p) ∧ (∀ p, c ≠ .warmStart p) ∧
        c ≠ .backupDomainLost) ∧
      clocked.power.held = false ∧ (held true).power.held = true ∧ (held true).power.retention = true ∧
      (∃ (s : State) (o : StoreOperation) (a : Area) (rest : List Area), s.power.held = true ∧ s.power.retention = true ∧
        s.store.operation = some o ∧ o.rest = a :: rest ∧ s.attention.length = 14 ∧ s.day.state = .closed) ∧
      (held false).power.held = true ∧ (held false).power.retention = false ∧
        ((held false).store.good.settings.getD .default).floor ≤ 7 :=
  ⟨⟨.clock, held true, rfl, by decide, fun _ => by nofun, fun _ => by nofun, by decide⟩, rfl, rfl, rfl,
    ⟨{ State.reset with power := ⟨true, true, .cold⟩, store := ⟨.none_, [], some saving, none⟩ }, saving, .texts, [.away], rfl, rfl,
      rfl, rfl, rfl, rfl⟩,
    rfl, rfl, by decide⟩

/-- Arguments of ENROL whose every value is in range. -/
theorem enrolmentAllowed_of {card reference cohort form : Nat} {permit : Option SchoolTime} {office : Option (Option Bool)}
    {contacts : List Contact} (h : (1 ≤ card ∧ card ≤ 4294967294) ∧ (1 ≤ reference ∧ reference ≤ 999999) ∧ cohort < 8 ∧ form < 64)
    (ht : ∀ t ∈ permit, t < 86400) (ho : office ≠ some none)
    (hc : contacts.length ≤ 3 ∧ (∀ c ∈ contacts, 1 ≤ c.id ∧ c.id ≤ 65535) ∧ (contacts.map Contact.id).Nodup) :
    EnrolmentAllowed (some card) (some reference) (some cohort) (some form) permit office (some contacts) :=
  ⟨fun _ e => by cases e; exact h.1, fun _ e => by cases e; exact h.2.1, fun _ e => by cases e; exact h.2.2.1,
    fun _ e => by cases e; exact h.2.2.2, ht, ho, fun _ e => by cases e; exact hc⟩

/-- The pupil of slot 0, with a notice to slot 1: both slots are in use. -/
def twoUsed : State :=
  { withRoster [(0, ⟨enrolA, .fresh⟩)] opened with
    notices := { opened.notices with queue := [⟨1, .general, .pupil 1 0, 5, 100, 0, none, some 15, false, false⟩] } }

theorem not_slotUsed {slot : Slot} {s : State}
    (h : (∀ e ∈ s.roll.roster, e.1 ≠ slot) ∧
      (∀ n ∈ s.notices.queue, n.isTo slot = false) ∧
      ∀ x ∈ s.notices.window, x.key.slot ≠ slot) : ¬SlotUsed slot s := by
  rintro (⟨e, he, hk⟩ | ⟨n, hn, i, hi⟩ | ⟨x, hx, hk⟩)
  · exact h.1 e he hk
  · have := h.2.1 n hn
    simp [Notice.isTo, hi] at this
  · exact h.2.2 x hx hk

theorem witness_enrol_and_amend :
    (∃ (a : EnrolArgs) (slot : Slot) (s : State), s.power.held = false ∧ RollOk s ∧ Passes (.enrol a) s ∧ a.slot = some slot) ∧
      (∃ (a : EnrolArgs) (slot : Slot) (s : State), s.power.held = false ∧ RollOk s ∧ Passes (.enrol a) s ∧
        a.slot = none ∧ slot = 2 ∧ slot < 2048 ∧ ¬SlotUsed slot s ∧ ∀ k < slot, SlotUsed k s) ∧
      ∃ (a : AmendArgs) (p : Pupil) (s : State), s.power.held = false ∧ RollOk s ∧ Passes (.amend a) s ∧
        pupilAt a.slot s = some p := by
  have empty : ¬SlotUsed 2047 (marked .unseen) := not_slotUsed (by decide +kernel)
  have third : ¬SlotUsed 2 twoUsed := not_slotUsed (by decide +kernel)
  refine ⟨⟨⟨4294967294, 999999, 7, 63, [], some 86399, some (some true), some 2047⟩, 2047, marked .unseen, rfl, marked_rollOk _, ?_, rfl⟩,
    ⟨{ goodEnrol with slot := none }, 2, twoUsed, rfl, ⟨⟨by simp [twoUsed, withRoster], by simp [twoUsed, withRoster, slotCount]⟩,
      by simp [twoUsed, withRoster, enrolA], rfl⟩, ?_, rfl, rfl, by decide, third, ?_⟩,
    ⟨{ goodAmend with slot := 3, card := some 1, cohort := some 7 }, ⟨enrolA, .fresh⟩, withPupil .fresh opened, rfl,
      withPupil_rollOk _ _, ?_, by decide +kernel⟩⟩
  · simp only [Passes, checksOf, List.forall_mem_cons]
    refine ⟨nofun, fun h => h ⟨enrolmentAllowed_of (by decide) (fun t e => by cases e; decide) (by decide) (by decide),
      fun k e => by cases e; decide⟩, fun ⟨k, e, hk⟩ => by cases e; exact empty hk, fun h => (nomatch h.1), ?_, nofun⟩
    rintro ⟨e, he, h⟩
    rw [List.mem_singleton.1 he] at h
    exact absurd h (by decide)
  · simp only [Passes, checksOf, List.forall_mem_cons]
    refine ⟨nofun, fun h => h ⟨enrolmentAllowed_of (by decide) (fun t e => by cases e; decide) (by decide) (by decide), nofun⟩,
      nofun, fun h => third (h.2 2 (by decide)), ?_, nofun⟩
    rintro ⟨e, he, h⟩
    rw [List.mem_singleton.1 he] at h
    exact absurd h (by decide)
  · intro k hk
    match k, hk with
    | 0, _ => exact .inl ⟨_, List.mem_singleton.2 rfl, rfl⟩
    | 1, _ => exact .inr (.inl ⟨_, List.mem_singleton.2 rfl, 0, rfl⟩)
  · simp only [Passes, checksOf, List.forall_mem_cons]
    refine ⟨nofun, fun h => absurd h.2 (by decide +kernel),
      fun h => h ⟨by decide, ⟨fun _ e => by cases e; decide, nofun, fun _ e => by cases e; decide, nofun, nofun, nofun, nofun⟩⟩, ?_, nofun⟩
    rintro ⟨e, he, h, _⟩
    rw [List.mem_singleton.1 he] at h
    exact h rfl

theorem witness_withdraw :
    ∃ (slot : Slot) (p : Pupil) (s : State), s.power.held = false ∧ RollOk s ∧ saveHolds .roster s = false ∧
      saveHolds .away s = false ∧ pupilAt slot s = some p :=
  ⟨3, ⟨enrolA, .fresh⟩, withPupil .fresh opened, rfl, withPupil_rollOk _ _, rfl, rfl, by decide +kernel⟩

/-- MARK of slot 3 to EXCUSED. -/
def excuseArgs : MarkArgs := ⟨3, some .excused, some (some .appointment), some 50400⟩

theorem witness_mark :
    (∃ (a : MarkArgs) (m : Mark) (p : Pupil) (s : State), s.power.held = false ∧ RollOk s ∧ s.day.state = .open_ ∧
        MarkAllowed a ∧ a.target = some m ∧ m ≠ .signedOut ∧ pupilAt a.slot s = some p) ∧
      ∀ m : Mark, m ≠ .signedOut → ∃ (a : MarkArgs) (p : Pupil) (s : State), s.power.held = false ∧ RollOk s ∧
        s.day.state = .open_ ∧ MarkAllowed a ∧ a.target = some .signedOut ∧ pupilAt a.slot s = some p ∧ p.day.mark = m :=
  ⟨⟨excuseArgs, .excused, ⟨enrolA, .fresh⟩, withPupil .fresh opened, rfl, withPupil_rollOk _ _, rfl,
      ⟨fun _ h => by cases h; decide, .appointment, rfl, .inr (.inl rfl), .inr rfl⟩, rfl, by decide, by decide +kernel⟩,
    fun m _ => ⟨⟨3, some .signedOut, none, none⟩, ⟨enrolA, { DayPart.fresh with mark := m }⟩, marked m, rfl, marked_rollOk _, rfl,
      ⟨nofun, rfl, rfl⟩, rfl, by cases m <;> decide +kernel, rfl⟩⟩

theorem witness_roll_reads :
    (∃ (slot : Slot) (s : State), s.power.held = false ∧ RollOk s ∧ slot < 2048 ∧ pupilAt slot s = none) ∧
      (∃ (slot : Slot) (p : Pupil) (s : State), s.power.held = false ∧ RollOk s ∧ slot < 2048 ∧ pupilAt slot s = some p ∧
        cardOk p.enrolment.card = true ∧
        ∀ k q, k ≠ slot → pupilAt k s = some q → q.enrolment.card ≠ p.enrolment.card) ∧
      (∃ (slot : Slot) (p : Pupil) (s : State), s.power.held = false ∧ RollOk s ∧ slot < 2048 ∧ pupilAt slot s = some p ∧
        referenceOk p.enrolment.reference = true ∧
        ∀ k q, k ≠ slot → pupilAt k s = some q → q.enrolment.reference ≠ p.enrolment.reference) ∧
      (∃ (id : Nat) (start : Slot) (s : State), s.power.held = false ∧ RollOk s ∧ 1 ≤ id ∧ id ≤ 65535 ∧ start < 2048 ∧
        withContact id s = [(3, 1)]) ∧
      (∃ (c : Nat) (s : State), s.power.held = false ∧ RollOk s ∧ c < 8 ∧ fits (censusItems c s) = true) ∧
      (clocked.power.held = false ∧ RollOk clocked ∧ 95 < 96 ∧ 3 < 4) ∧
      (∃ a : MarksArgs, a.cohort < 8 ∧ optOk Option.isSome a.mark = true ∧ optOk formOk a.form = true ∧
        a.disputed ≠ some false ∧ a.start < 2048) ∧
      (∃ (slot : Option Slot) (start : Option Date), optOk slotOk slot = true ∧ optOk dateOk start = true) :=
  ⟨⟨2047, clocked, rfl, clocked_rollOk, by decide, by decide +kernel⟩,
    ⟨3, ⟨enrolA, .fresh⟩, withPupil .fresh opened, rfl, withPupil_rollOk _ _, by decide, by decide +kernel, by decide +kernel,
      fun k q hk h =>
        forall_pupil (P := fun k q => k ≠ 3 → q.enrolment.card ≠ 11) (s := withPupil .fresh opened) (by decide +kernel) k q h hk⟩,
    ⟨3, ⟨enrolA, .fresh⟩, withPupil .fresh opened, rfl, withPupil_rollOk _ _, by decide, by decide +kernel, by decide +kernel,
      fun k q hk h =>
        forall_pupil (P := fun k q => k ≠ 3 → q.enrolment.reference ≠ 21) (s := withPupil .fresh opened) (by decide +kernel)
          k q h hk⟩,
    ⟨32, 2047, withPupil .fresh opened, rfl, withPupil_rollOk _ _, by decide, by decide, by decide, by decide +kernel⟩,
    ⟨7, clocked, rfl, clocked_rollOk, by decide, by decide +kernel⟩, ⟨rfl, clocked_rollOk, by decide, by decide⟩,
    ⟨⟨7, some (some .late), some 63, some true, 2047⟩, by decide +kernel⟩, ⟨some 2047, some 36524, by decide +kernel⟩⟩

/-- A day that is OPENING, with its cursor at a slot. -/
def sweepingOpen (cursor : Slot) : State :=
  withRoster [(3, ⟨enrolA, .fresh⟩)]
    { clocked with day := { clocked.day with state := .opening, date := some 100, bank := some 3, cursor := cursor } }

theorem sweepingOpen_rollOk (cursor : Slot) : RollOk (sweepingOpen cursor) :=
  ⟨⟨by simp [sweepingOpen, withRoster], by simp [sweepingOpen, withRoster, slotCount]⟩,
    by simp [sweepingOpen, withRoster, enrolA], rfl⟩

theorem witness_away :
    (∃ (slot : Slot) (first last : Date) (reason : ExcuseReason) (p : Pupil) (s : State),
      s.power.held = false ∧ RollOk s ∧ saveHolds .away s = false ∧ s.time.valid = true ∧ slot < 2048 ∧
      first ≤ last ∧ last < 36525 ∧ s.time.date ≤ last ∧ reason ≠ .closure ∧ pupilAt slot s = some p ∧
      (∀ e ∈ s.roll.away, e.slot = slot → e.last < first ∨ last < e.first) ∧ s.roll.away.length < 256 ∧
      s.day.state = .open_ ∧ first ≤ today s ∧ today s ≤ last ∧ isUnaccountedMark p.day.mark = true) ∧
    (∃ (p : Pupil) (s : State), s.power.held = false ∧ RollOk s ∧ saveHolds .away s = false ∧ s.time.valid = true ∧
      pupilAt 3 s = some p ∧ s.roll.away = [] ∧ s.day.state = .opening ∧ 3 < s.day.cursor ∧ today s = 100 ∧
      isUnaccountedMark p.day.mark = true) ∧
    (∃ (e : AwayEntry) (s : State), s.power.held = false ∧ saveHolds .away s = false ∧ e ∈ s.roll.away ∧ e.slot < 2048 ∧
      e.first < 36525) :=
  ⟨⟨3, 100, 36524, .ill, ⟨enrolA, .fresh⟩, withPupil .fresh opened, rfl, withPupil_rollOk _ _, rfl, rfl, by decide, by decide,
      by decide, by decide, by decide, by decide +kernel, by decide +kernel, by decide +kernel, rfl, by decide, by decide, rfl⟩,
    ⟨⟨enrolA, .fresh⟩, sweepingOpen 4, rfl, sweepingOpen_rollOk 4, rfl, rfl, by decide +kernel, rfl, rfl, by decide, rfl, rfl⟩,
    ⟨⟨3, 100, 101, .ill, .parent⟩,
      { clocked with roll := { clocked.roll with away := [⟨3, 100, 101, .ill, .parent⟩] } }, rfl, rfl, by decide +kernel,
      by decide, by decide⟩⟩

/-- Every weekday a school day with bank 3, opening at 08:00:00. -/
def schoolWeek : Settings := { clocked.settings with dayOpen := 28800, weekMap := List.replicate 7 (.school 3) }

theorem witness_clock :
    (∃ (time : SchoolTime) (date : Option Date) (s : State), s.power.held = false ∧ time < 86400 ∧
      (∀ d, date = some d → d < 36525) ∧ (date = none → s.time.valid = true) ∧ s.day.state ≠ .closed ∧
      s.day.date ≠ some (date.getD s.time.date)) ∧
    (∃ (time : SchoolTime) (date : Option Date) (s : State), s.power.held = false ∧ time < 86400 ∧
      (∀ d, date = some d → d < 36525) ∧ (date = none → s.time.valid = true) ∧ s.day.state = .open_ ∧
      s.day.date = some (date.getD s.time.date) ∧ time < s.time.school) ∧
    (∀ time ∈ [28799, 28800], ∃ s : State, s.power.held = false ∧ s.day.state = .open_ ∧ s.day.date ≠ some 101 ∧
      dayTypeOf 101 s = .school 3 ∧ s.settings.dayOpen = 28800 ∧ rollLoadUnderWay s = false ∧
      (s.settings.dayOpen ≤ time ↔ time = 28800)) ∧
    dayTypeOf 36524 opened = .closed :=
  ⟨⟨0, some 36524, opened, rfl, by decide, by simp, by simp, by decide, by decide⟩,
    ⟨0, none, opened, rfl, by decide, by simp, fun _ => rfl, rfl, rfl, by decide⟩,
    fun time h => ⟨{ opened with settings := schoolWeek }, rfl, rfl, by decide, by decide +kernel, rfl, rfl, by
      simp only [List.mem_cons, List.not_mem_nil, or_false] at h
      rcases h with rfl | rfl <;> decide⟩,
    by decide +kernel⟩

/-- School time as it stands, at a date, with the minute pulse ON. -/
def pulsed (time date : Nat) : State :=
  { clocked with time := ⟨time, date, true, false, 0⟩, settings := { clocked.settings with minutePulse := true } }

/-- An OPEN day of the present date at a school time, with Today's Plan of `p`. -/
def atSecond (time : SchoolTime) (p : PlanEngine) : State :=
  { opened with time := { opened.time with school := time }, plan := p }

/-- An OPEN day of the present date, so that a change of the date closes it, at each kind of second and of minute pulse. -/
theorem witness_time_passing :
    (∀ time ∈ [28799, 86399], let s := atSecond time opened.plan
      s.power.held = false ∧ s.day.state = .open_ ∧ s.day.date = some s.time.date ∧ RollOk s) ∧
      (∀ time ∈ [28829, 28830, 86370], let s := { atSecond time opened.plan with settings := (pulsed time 100).settings }
        s.power.held = false ∧ s.time.minutePulseLatch = false ∧ s.settings.minutePulse = true ∧ s.time.valid = true ∧
          s.time.school % 60 ≠ 0 ∧ RollOk s) ∧
      ∃ s : State, s.power.held = true ∧ s.power.retention = true ∧ s.notices.quietEnd = some 28801 :=
  ⟨fun _ _ => ⟨rfl, rfl, rfl, clocked_rollOk⟩,
    fun time h => ⟨rfl, rfl, rfl, rfl, by
      simp only [List.mem_cons, List.not_mem_nil, or_false] at h
      rcases h with rfl | rfl | rfl <;> decide, clocked_rollOk⟩,
    ⟨{ held true with notices := { opened.notices with quietEnd := some 28801 } }, rfl, rfl, rfl⟩⟩

theorem witness_time_base :
    (∀ time ∈ [86398, 86399], ∀ date ∈ [36523, 36524], (pulsed time date).power.held = false) ∧
      ((held true).power.held = true ∧ (held true).power.retention = true) ∧
      ∀ time ∈ [28829, 28830, 86369, 86370, 86399],
        (pulsed time 100).power.held = false ∧ (pulsed time 100).time.school < 86400 ∧ (pulsed time 100).time.date < 36525 ∧
          (pulsed time 100).time.minutePulseLatch = false ∧ (pulsed time 100).settings.minutePulse = true ∧
          (pulsed time 100).time.valid = true := by
  decide +kernel

/-- A CLOSED day whose date opens with bank 3 at 08:00:00. -/
def opening : State :=
  { clocked with settings := schoolWeek }

theorem witness_opening :
    (opening.power.held = false ∧ opening.day.state = .closed ∧ opening.time.valid = true ∧
        opening.day.date ≠ some opening.time.date ∧ dayTypeOf opening.time.date opening = .school 3 ∧
        opening.settings.dayOpen ≤ opening.time.school ∧ rollLoadUnderWay opening = false) ∧
      (clocked.day.state = .closed ∧ dayTypeOf clocked.time.date clocked = .closed ∧ rollLoadUnderWay clocked = false) ∧
      ∃ given bank, given = some bank ∧ bank < 4 ∧ clocked.time.valid = true ∧ bank = 3 := by
  refine ⟨by decide +kernel, by decide +kernel, some 3, 3, rfl, by decide, rfl, rfl⟩

theorem witness_opening_sweep :
    (∀ cursor ∈ [0, 3, 2046], (sweepingOpen cursor).power.held = false ∧ (sweepingOpen cursor).day.state = .opening ∧
        (sweepingOpen cursor).day.cursor < 2047) ∧
      RollOk (sweepingOpen 3) ∧ pupilAt 3 (sweepingOpen 3) = some ⟨enrolA, .fresh⟩ ∧
      (sweepingOpen 2047).day.cursor = 2047 ∧ (sweepingOpen 2047).day.bank = some 3 :=
  ⟨by decide +kernel, sweepingOpen_rollOk 3, by decide +kernel, rfl, rfl⟩

theorem witness_close :
    (∃ s : State, s.power.held = false ∧ RollOk s ∧ s.day.state ≠ .open_) ∧
      ∃ s : State, s.power.held = false ∧ RollOk s ∧ s.day.state = .open_ ∧ (∃ w ∈ s.sweep.list, w.cohort = 2) ∧
        s.attention.length = 14 ∧ ∃ p, pupilAt 3 s = some p ∧ p.day.mark = .absentPending :=
  ⟨⟨clocked, rfl, clocked_rollOk, by decide⟩,
    ⟨{ marked .absentPending with sweep := ⟨[⟨2, 28000, false⟩], some 0, .running⟩ }, rfl,
      rollOk_of (by decide +kernel), rfl, by decide, rfl, ⟨enrolA, { DayPart.fresh with mark := .absentPending }⟩,
      by decide +kernel, rfl⟩⟩

/-- Text slot 15 holds a text. -/
def texted (s : State) : State := { s with notices := { s.notices with texts := List.replicate 15 [] ++ [[0x41]] } }

theorem witness_closure :
    ∀ full : Bool, ∃ (textSlot : Nat) (s : State), s.power.held = false ∧ RollOk s ∧ s.day.state = .open_ ∧ textSlot < 16 ∧
      s.notices.texts.getD textSlot [] ≠ [] ∧ s.day.closureFlag = false ∧ s.notices.counter ≤ 65535 ∧
      if full then s.notices.queue.length = 128 ∧ ∃ n ∈ s.notices.queue, n.kind = .absent ∧ n.inWindow = false
      else s.notices.queue.length < 128 := by
  intro full
  cases full
  · exact ⟨15, texted (marked .unseen), rfl, rollOk_of (by decide +kernel), rfl, by decide, by decide +kernel, rfl, by decide,
      by decide⟩
  · exact ⟨15,
      texted
        { marked .absentPending with
          notices :=
            { opened.notices with
              queue := List.replicate 128 ⟨1, .absent, .pupil 3 0, 5, 100, 28700, none, none, false, false⟩ } },
      rfl, rollOk_of (by decide +kernel), rfl, by decide, by decide +kernel, rfl, by decide, by decide +kernel⟩

/-- A Calendar Table of one date. -/
def calendared : State := { clocked with day := { clocked.day with calendar := [(100, .school 3)] } }

theorem witness_calendar :
    (calendared.power.held = false ∧ saveHolds .calendar calendared = false ∧
        (calendared.day.calendar.map Prod.fst).Pairwise (· < ·)) ∧
      ((∀ b, DayType.school 3 = .school b → b < 4) ∧ calendared.time.date ≤ 36524 ∧ 36524 < 36525 ∧
        calendared.day.calendar.length < 64) ∧
      tableGet 100 calendared.day.calendar = some (.school 3) :=
  ⟨⟨rfl, rfl, by decide +kernel⟩, ⟨fun b h => by cases h; decide, by decide, by decide, by decide⟩, rfl⟩

/-! Plans, bells and zones. -/

/-- A chime of pattern 0 in zone 1. -/
def bell : ChimePart := ⟨0, [1], 6⟩

/-- A state whose bank 3 holds an entry of the present second and one of the second after. -/
def banked : State :=
  { opened with
    plan :=
      { opened.plan with
        banks := [.empty, .empty, .empty, ⟨[0x41], .alternate, [⟨28800, .chime, some bell⟩, ⟨28801, .dayClose, none⟩]⟩] } }

theorem witness_banks :
    (∃ (a : EntryPutArgs) (e : BankEntry) (b : Bank) (s : State), s.power.held = false ∧ storeHolds .plans s = false ∧
        EntryGiven a e ∧ s.plan.banks[a.bank]? = some b ∧ (∀ c, e.chime = some c → c.priority < 12) ∧
        b.entries.length < 96) ∧
      (∃ (bank position : Nat) (b : Bank) (s : State), s.power.held = false ∧ storeHolds .plans s = false ∧ bank < 4 ∧
        s.plan.banks[bank]? = some b ∧ position < b.entries.length) ∧
      (∃ (bank : Nat) (name : Text) (s : State) (b : Bank), s.power.held = false ∧ storeHolds .plans s = false ∧ bank < 4 ∧
        name.length ≤ 12 ∧ (∀ c ∈ name, isNameChar c = true) ∧ s.plan.banks[bank]? = some b) ∧
      (∃ s : State, s.power.held = false ∧ storeHolds .plans s = true) ∧
      ∃ (bank : Nat) (b : Bank) (s : State), s.power.held = false ∧ s.day.state = .open_ ∧ bank < 4 ∧
        s.plan.banks[bank]? = some b ∧ s.day.closureFlag = false :=
  ⟨⟨⟨3, 28800, some .chime, some 0, some [1], some 11, none, none, none, false⟩, ⟨28800, .chime, some ⟨0, [1], 11⟩⟩, _, banked, rfl, rfl,
      ⟨rfl, by decide, by decide, rfl, ⟨rfl, by decide, rfl, by decide, by decide, _, rfl, by decide, by decide, by decide⟩, rfl, rfl, rfl, rfl⟩,
      rfl, fun c h => by cases h; decide, by decide⟩,
    ⟨3, 1, _, banked, rfl, rfl, by decide, rfl, by decide⟩,
    ⟨3, ascii "Exam-week 2.", banked, _, rfl, rfl, by decide, by decide +kernel, by decide +kernel, rfl⟩,
    ⟨{ opened with store := ⟨.none_, [], some ⟨.load, [], [.plans], .none_, 0⟩, none⟩ }, rfl, rfl⟩,
    ⟨3, _, banked, rfl, rfl, by decide, rfl, rfl⟩⟩

/-- Arguments of ENTRYPUT of each kind, at the ends of their ranges, and the entries they give. -/
theorem witness_entries_given :
    EntryGiven ⟨3, 86399, some .chime, some 31, some [6, 1], some 15, none, none, none, false⟩ ⟨86399, .chime, some ⟨31, [1, 6], 15⟩⟩ ∧
      EntryGiven ⟨0, 0, some .registration, none, none, none, some [7, 0], some 30, none, false⟩ ⟨0, .registration [0, 7] 30, none⟩ ∧
      EntryGiven ⟨0, 0, some .absenceCut, none, none, none, some [7], none, none, false⟩ ⟨0, .absenceCut [7], none⟩ ∧
      EntryGiven ⟨0, 0, some .noticeHold, none, none, none, none, none, some 240, false⟩ ⟨0, .noticeHold 240, none⟩ ∧
      ∀ e, ¬EntryGiven ⟨0, 0, some .noticeHold, none, none, none, none, none, some 241, false⟩ e := by
  refine ⟨⟨rfl, by decide, by decide, rfl, ⟨rfl, by decide, rfl, by decide, by decide, _, rfl, by decide, by decide, by decide⟩,
      rfl, rfl, rfl, rfl⟩,
    ⟨rfl, by decide, by decide, rfl, ⟨rfl, rfl, rfl, by decide⟩, rfl, ⟨_, rfl, by decide, by decide, by decide⟩, rfl, by decide, rfl⟩,
    ⟨rfl, by decide, by decide, rfl, ⟨rfl, rfl, rfl, by decide⟩, rfl, ⟨_, rfl, by decide, by decide, by decide⟩, rfl, rfl⟩,
    ⟨rfl, by decide, by decide, rfl, ⟨rfl, rfl, rfl, by decide⟩, rfl, rfl, rfl, rfl, by decide, by decide⟩, ?_⟩
  rintro ⟨t, r, c⟩ ⟨_, _, _, _, _, h⟩
  cases r with
  | noticeHold m =>
    obtain ⟨_, _, _, hm, _, h⟩ := h
    cases hm
    exact absurd h (by decide)
  | chime => exact nomatch h.1
  | registration m g => exact nomatch h.1
  | absenceCut m => exact nomatch h.1
  | noticeDeadline => exact nomatch h.1
  | dayClose => exact nomatch h.1

/-- Today's Plan with an entry of the present second, AHEAD, and one of the next second. -/
def planned : State :=
  { opened with
    plan :=
      { opened.plan with
        today :=
          ⟨some 3, none, 1, [⟨⟨28800, .absenceCut [2], some bell⟩, .ahead, .none_, none⟩, ⟨⟨28801, .chime, none⟩, .ahead, .none_, none⟩]⟩ } }

theorem witness_entries :
    (planned.power.held = false ∧ planned.day.state = .open_ ∧
        ∃ e, planned.plan.today.entries[0]? = some e ∧ e.firing = .ahead ∧ e.entry.time = planned.time.school) ∧
      (planned.time.valid = true ∧ planned.day.date = some planned.time.date ∧ planned.time.school < 28801 ∧ 28801 < 86400 ∧
        ∃ e, planned.plan.today.entries[1]? = some e ∧ e.firing = .ahead ∧ e.entry.time ≤ 28801) ∧
      planned.day.cohorts.length = 8 ∧
        ∃ x : Cohort, planned.day.cohorts[7]? = some x ∧ x.phase = .beforeRegistration :=
  ⟨⟨rfl, rfl, _, rfl, rfl, rfl⟩, ⟨rfl, rfl, by decide, by decide, _, rfl, rfl, by decide⟩, rfl, _, rfl, rfl⟩

/-- Today's Plan with a DAY_CLOSE entry of the present second between two other entries. -/
def closingPlan : State :=
  { planned with
    plan :=
      { opened.plan with
        today :=
          ⟨some 3, none, 1,
            [⟨⟨28800, .noticeHold 5, none⟩, .ahead, .none_, none⟩, ⟨⟨28800, .dayClose, some bell⟩, .ahead, .none_, none⟩,
              ⟨⟨28800, .chime, some bell⟩, .ahead, .none_, none⟩]⟩ } }

theorem witness_closing_entries :
    (EntryTaken (· = 28800) closingPlan 0 ∧ EntryTaken (· = 28800) closingPlan 1 ∧ ¬EntryTaken (· = 28800) closingPlan 2) ∧
      (closingPlan.power.held = false ∧ closingPlan.time.valid = true ∧ closingPlan.day.state = .open_ ∧
        closingPlan.day.date = some closingPlan.time.date ∧ closingPlan.time.school < 86399 ∧ EntryTaken (· ≤ 86399) closingPlan 1) ∧
      RollOk (marked .absentPending) := by
  have first : ∀ pick : SchoolTime → Prop, pick 28800 → ∀ i ≤ 1, EntryTaken pick closingPlan i := by
    intro pick hp i hi
    refine ⟨rfl, ?_, ?_⟩
    · match i, hi with
      | 0, _ => exact ⟨_, rfl, rfl, hp⟩
      | 1, _ => exact ⟨_, rfl, rfl, hp⟩
    · intro j hj e he _
      obtain rfl : j = 0 := by omega
      cases he
      nofun
  refine ⟨⟨first (· = 28800) rfl 0 (by decide), first (· = 28800) rfl 1 (by decide), fun h => ?_⟩,
    ⟨rfl, rfl, rfl, rfl, by decide, first _ (by decide) 1 (by decide)⟩, marked_rollOk _⟩
  exact h.2.2 1 (by decide) _ rfl ⟨rfl, rfl⟩ rfl

/-- The same second: the entry before the DAY_CLOSE entry and that entry are DONE, the one after it stays AHEAD. -/
theorem test_day_close_entry :
    (takeOnTime closingPlan).plan.today.entries.map PlanEntry.firing = [.done, .done, .ahead] ∧
      (takeOnTime closingPlan).day.closeCause = some .dayClose ∧ (takeOnTime closingPlan).notices.quietEnd = some 29100 := by
  decide +kernel

/-- A sweep begins at slot 0 in an empty list, and joins the tail of another (R141). -/
theorem test_cut_lists_its_sweeps :
    let e : BankEntry := ⟨28800, .absenceCut [0, 2], none⟩
    (applyRoll e opened).sweep = ⟨[⟨0, 28800, false⟩, ⟨2, 28800, false⟩], some 0, .running⟩ ∧
      (applyRoll e { opened with sweep := ⟨[⟨7, 100, true⟩], some 9, .paused⟩ }).sweep =
        ⟨[⟨7, 100, true⟩, ⟨0, 28800, false⟩, ⟨2, 28800, false⟩], some 9, .paused⟩ := by
  decide +kernel

/-- The second that brings an entry takes it, in the same step; the second that ends the date closes the day. -/
theorem test_second_advance :
    let t := after .secondAdvance { planned with time := { planned.time with school := 28799 } }
    let u := after .secondAdvance (atSecond 86399 planned.plan)
    t.sweep.list = [⟨2, 28800, false⟩] ∧ t.plan.today.entries.map PlanEntry.firing = [.done, .ahead] ∧ t.line.clockDue = true ∧
      u.day.state = .closed ∧ u.day.closeCause = some .dateChange ∧ u.time.date = 101 := by
  decide +kernel

/-- Steps at the ends of their ranges. -/
theorem stepsAllowed_some : StepsAllowed [.tone 63 255 15, .loop 0 15, .stop] := by
  refine ⟨by decide, by decide, fun i x h => ?_⟩
  match i, h with
  | 0, h => cases h; decide
  | 1, h =>
    cases h
    refine ⟨by decide, by decide, by decide, fun j _ hj b c => ?_⟩
    obtain rfl : j = 0 := Nat.lt_one_iff.1 hj
    nofun
  | 2, h => cases h; trivial

theorem witness_bell_tables :
    (∃ (pattern : Nat) (steps : Option (List PatternStep)) (s : State), s.power.held = false ∧ storeHolds .patterns s = false ∧
        pattern < 32 ∧ (∀ l, steps = some l → StepsAllowed l) ∧ s.chime.patterns.length = 32) ∧
      clocked.power.held = false ∧ clocked.chime.patterns.getD 0 [] ≠ [] ∧ clocked.chime.patterns.getD 31 [] = [] :=
  ⟨⟨31, some [.tone 63 255 15, .loop 0 15, .stop], clocked, rfl, rfl, by decide, fun _ h => by cases h; exact stepsAllowed_some,
      by decide +kernel⟩, rfl,
    by decide, by decide⟩

/-- A channel that owns zones 1 and 6. -/
def ringing (state : ChannelState) (origin : Origin) : ToneChannel :=
  { ToneChannel.idle with
    state := state, pattern := some (.table 0), steps := [.strike 100, .rest 50], step := some 0, stepEnd := some (.timed 40), priority := some 6,
    origin := some origin, zones := [1, 6], zoneGroups := [.a, .a, .a, .b, .b, .b] }

/-- A state with one channel other than IDLE. -/
def withChannel (n : Nat) (c : ToneChannel) : State :=
  { clocked with chime := { clocked.chime with channels := (List.replicate 4 .idle).set n c } }

/-- Where every channel is IDLE no zone is owned. -/
theorem zonesOwned_of_idle {s : State} (h : s.chime.channels = List.replicate 4 .idle) : ZonesOwned s := by
  have hz : ∀ n, (channelAt n s).zones = [] := by
    intro n
    unfold channelAt
    rw [h]
    match n with
    | 0 | 1 | 2 | 3 => rfl
    | n + 4 => rfl
  refine ⟨by rw [h]; rfl, ?_, fun n _ => hz n, ?_⟩
  · intro m n z hm
    rw [hz m] at hm
    exact absurd hm List.not_mem_nil
  · intro n z p hm
    rw [hz n] at hm
    exact absurd hm List.not_mem_nil

theorem witness_zones :
    (∃ (zones : List Nat) (s : State), s.power.held = false ∧ zones ≠ [] ∧ (∀ z ∈ zones, 1 ≤ z ∧ z ≤ 6) ∧
        s.zone.mutes.length = 6 ∧ ZonesOwned s ∧ s.chime.waits = []) ∧
      ZonesOwned State.reset ∧ State.reset.chime.waits = [] :=
  ⟨⟨[1, 6], clocked, rfl, by decide, by decide, rfl, zonesOwned_of_idle rfl, rfl⟩, zonesOwned_of_idle rfl, rfl⟩

/-- Channels that lose all of their zones, one of their zones while they wake, and none. -/
def losing : State :=
  { clocked with
    chime :=
      { clocked.chime with
        channels :=
          [{ ringing .playing .office with zones := [1] }, { ringing .waking .office with zones := [2, 4], groups := [.a, .b] },
            { ringing .playing (.button 1) with zones := [3], priority := some 12 }, .idle] }
    zone := { clocked.zone with awake := ⟨some 0, some 0⟩ } }

theorem witness_silenced :
    (losing.power.held = false ∧ losing.zone.mutes.length = 6 ∧ ChannelsReady losing) ∧
      let v := { losing with zone := { losing.zone with mutes := [true, true, true, false, false, false] } }
      (List.range 4).map (losesZones · v) = [true, true, false, false] ∧ zonesKept 0 v = [] ∧ zonesKept 1 v = [4] := by
  refine ⟨⟨rfl, rfl, rfl, ?_⟩, by decide +kernel⟩
  intro c hc hw
  fin_cases hc
  · nomatch hw
  · exact ⟨rfl, fun first h => by cases h; rfl⟩
  · nomatch hw
  · nomatch hw

/-- MUTE of zones 1, 2 and 3: the first channel is cut short and tails, the second wakes on in zone 4 and group B. -/
theorem test_mute_takes_zones :
    let t := after (.mute (some ([1, 2, 3], some true))) losing
    ((channelAt 0 t).state, (channelAt 0 t).zones) = (.tailing, []) ∧ t.chime.lastOffice = some ⟨.table 0, .cutShort⟩ ∧
      ((channelAt 1 t).state, (channelAt 1 t).zones, (channelAt 1 t).groups) = (.waking, [4], [.b]) ∧
      (channelAt 2 t).zones = [3] ∧ awakeOf .a t = none ∧ awakeOf .b t = some 0 := by
  decide +kernel

/-- A striking channel's relays by their polarity, a wake pin, and the tones of two channels in one group, held at 15 (R86–R88). -/
theorem test_bell_outputs :
    let s := { losing with settings := { losing.settings with relayPol := List.replicate 5 .activeHigh ++ [.activeLow] } }
    let tone := { ringing .playing .office with steps := [.tone 5 20 9], groups := [.a] }
    let t := { s with chime := { s.chime with channels := [tone, tone, .idle, .idle] } }
    (List.range' 1 6).map (relayPin · s) = [true, false, true, false, false, true] ∧ wakePin .a s = true ∧
      groupTones .a t = [(5, 9), (5, 9)] ∧ mixedLevel .a t = 15 ∧ groupTones .b t = [] ∧
      (List.range' 1 6).map (relayPin · { s with power := (held true).power }) = [false, false, false, false, false, true] := by
  decide +kernel

theorem witness_play :
    (∃ (p : Nat) (zones : List Nat) (priority : Nat) (s : State), s.power.held = false ∧ p < 32 ∧ zones ≠ [] ∧
        (∀ z ∈ zones, 1 ≤ z ∧ z ≤ 6) ∧ 1 ≤ priority ∧ priority ≤ 15 ∧ (priority < 12 ∨ s.limits.override = true) ∧
        s.chime.patterns.getD p [] ≠ [] ∧ priority < 12 ∧ ∀ z ∈ zones, zoneQuiet z s = true ∨ zoneMuted z s = true) ∧
      ∀ priority ∈ [1, 11], ∃ (zones : List Nat) (s : State) (n : Nat) (first : PatternStep) (rest : List PatternStep),
        s.power.held = false ∧ s.chime.patterns.getD 0 [] = first :: rest ∧ first ≠ .stop ∧ isLoopStep first = false ∧
          s.chime.channels.length = 4 ∧ n < 4 ∧ (channelAt n s).state = .idle ∧ (∀ m < n, (channelAt m s).state ≠ .idle) ∧
          (∀ m < 4, ∀ z ∈ (channelAt m s).zones, z ∉ zones) ∧
          ∃ z ∈ zones, 12 ≤ priority ∨ (zoneQuiet z s = false ∧ zoneMuted z s = false) :=
  ⟨⟨0, [1, 6], 11, { clocked with zone := { clocked.zone with mutes := [true, false, false, false, false, true] } }, rfl,
      by decide, by decide, by decide, by decide, by decide, by decide, by decide +kernel, by decide, by decide +kernel⟩,
    fun priority _ => ⟨[2, 5], withChannel 0 (ringing .playing .office), 1, .strike 100, [], rfl, by decide +kernel, by decide, rfl,
      by decide, by decide, by decide +kernel, by decide +kernel, by decide +kernel,
      2, by decide, Or.inr (by decide +kernel)⟩⟩

/-- A request of the office for pattern 0. -/
def ask (mask : List Nat) (priority : Nat) : ChimeRequest := ⟨.table 0, mask, priority, .office, false, false⟩

/-- Four channels, each with one zone, of priorities 6, 5, 7, 5, and requests that wait. -/
def allBusy (waits : List WaitEntry) : State :=
  { clocked with
    chime :=
      { clocked.chime with
        channels :=
          [(1, 6), (2, 5), (3, 7), (4, 5)].map fun e =>
            { ringing .playing .office with zones := [e.1], priority := some e.2 }
        waits := waits } }

/-- A waiting request. -/
def wait (priority : Nat) : WaitEntry := ⟨ask [6] priority, 3000⟩

theorem witness_decisions :
    (stepsOf (.table 31) clocked = [] ∧ ∃ rest, stepsOf (.table 0) clocked = .strike 100 :: rest ∧ isLoopStep (.strike 100) = false) ∧
      (zonesTaken (ask [2] 11) { clocked with zone := { clocked.zone with mutes := List.replicate 6 true } } = [] ∧
        clocked.chime.channels.length = 4) ∧
      (zonesTaken (ask [1] 8) clocked = [1] ∧ GivenChannel (ask [1] 8) clocked 0 ∧ stoppedFor (ask [1] 8) 0 clocked = []) ∧
      (let s := withChannel 0 (ringing .playing .office)
       GivenChannel (ask [1] 8) s 1 ∧ stoppedFor (ask [1] 8) 1 s = [0] ∧ s.chime.channels.length = 4) ∧
      (GivenChannel (ask [1, 3] 8) (allBusy []) 0 ∧ stoppedFor (ask [1, 3] 8) 0 (allBusy []) = [0, 2]) ∧
      (GivenChannel (ask [6] 6) (allBusy []) 1 ∧ stoppedFor (ask [6] 6) 1 (allBusy []) = [1]) ∧
      (let s := { allBusy [] with
         chime := { (allBusy []).chime with channels := (allBusy []).chime.channels.set 3 (ringing .tailing .office) } }
       GivenChannel (ask [2] 5) s 3 = False ∧ GivenChannel (ask [5] 1) s 3 ∧ rank s 3 = 0) ∧
      (∀ k, ¬GivenChannel (ask [1, 3] 7) (allBusy []) k) ∧ zonesTaken (ask [1, 3] 7) (allBusy []) = [1, 3] ∧
      (allBusy []).chime.waits.length < 8 ∧
      ∀ last ∈ [6, 7], let l := List.replicate 7 (wait 9) ++ [wait last]
        8 ≤ (allBusy l).chime.waits.length ∧ ((wait last).request.priority < 7 ↔ last = 6) := by
  refine ⟨⟨rfl, _, rfl, rfl⟩, ⟨by decide +kernel, rfl⟩, ?_, ?_, ?_, ?_, ⟨?_, ?_, ?_⟩, ?_, ?_, ?_, ?_⟩
  case refine_8 =>
    intro k h
    exact absurd (h.2.1 2 (by decide +kernel)) (by decide +kernel)
  case refine_5 =>
    exact eq_false (by decide +kernel)
  all_goals decide +kernel

theorem witness_examination :
    ∃ s : State, s.chime.channels.length = 4 ∧ s.chime.waits.length = 8 ∧
      (∀ l ∈ s.chime.patterns, ∀ first rest, l = first :: rest → isLoopStep first = false) ∧
      (∃ e ∈ s.chime.waits, zonesTaken e.request s ≠ [] ∧ GivenChannel e.request s 1) := by
  refine ⟨{ withChannel 0 (ringing .playing .office) with
    chime := { (withChannel 0 (ringing .playing .office)).chime with waits := List.replicate 8 ⟨ask [2] 5, 3000⟩ } },
    rfl, rfl, ?_, ⟨ask [2] 5, 3000⟩, List.mem_replicate.2 ⟨by decide, rfl⟩, by decide +kernel, by decide +kernel⟩
  intro l hl first rest e
  subst e
  change _ ∈ defaultPatterns at hl
  rcases List.mem_cons.1 hl with h | h
  · cases h; rfl
  · nomatch (List.mem_replicate.1 h).2

/-- A waiting request starts where a channel of its zones has tailed out, and a second one of those zones waits on. -/
theorem test_examination :
    let s := { withChannel 0 (ringing .playing .office) with
      chime := { (withChannel 0 (ringing .playing .office)).chime with waits := [⟨ask [1] 5, 3000⟩, ⟨ask [2] 5, 3000⟩, ⟨ask [2] 4, 3000⟩] } }
    (channelAt 1 (examine s)).zones = [2] ∧ (examine s).chime.waits = [⟨ask [1] 5, 3000⟩, ⟨ask [2] 4, 3000⟩] := by
  decide +kernel

theorem witness_hush :
    ∀ state : ChannelState, ∃ s : State, s.power.held = false ∧ s.chime.channels.length = 4 ∧ (channelAt 3 s).state = state ∧
      (channelAt 3 s).origin = some .office ∧ (channelAt 3 s).pattern = some (.table 0) :=
  fun state => ⟨withChannel 3 (ringing state .office), rfl, rfl, rfl, rfl, rfl⟩

/-- A plan entry's channel hushed ends CUT_SHORT with BELL, the button's in its record, and HUSH ALL drops what waits (R67, R84, R97). -/
theorem test_hush_reports :
    let s := { planned with
      chime :=
        { planned.chime with
          channels := [ringing .playing (.plan 1 1), ringing .waking (.button 1), ringing .tailing .office, .idle]
          waits := [⟨⟨.table 0, [1], 6, .plan 1 0, false, false⟩, 99⟩, ⟨ask [2] 5, 99⟩] } }
    let t := after (.hush (.channel 0)) { s with chime := { s.chime with waits := [] } }
    let u := after (.hush .all) s
    t.plan.today.entries.map PlanEntry.outcome = [.none_, .cutShort] ∧ sourceAt 4 t = ⟨true, 1, some (.entry 1)⟩ ∧
      u.plan.today.entries.map PlanEntry.outcome = [.dropped, .cutShort] ∧ (sourceAt 4 u).count = 2 ∧
      u.chime.lastOffice = some ⟨.table 0, .dropped⟩ ∧ u.chime.lastButton = some ⟨.table 0, .cutShort⟩ ∧
      u.office.result = some (.ok [.num 2, .num 2]) := by
  decide +kernel

/-- A playing channel at the end of its step 0, with these steps and this loop counter. -/
def atStepEnd (steps : List PatternStep) (counter : Option Nat) : ToneChannel :=
  { ringing .playing .office with steps := steps, loopCounter := counter, passTimed := true }

theorem witness_play_steps :
    (∀ p : PatternRef, ∃ (n : Nat) (c : ToneChannel) (s : State), s.power.held = false ∧ s.chime.channels[n]? = some c ∧
        c.state = .waking ∧ (∀ g ∈ c.groups, (awakeOf g s).isSome = true) ∧ wakingEndAt c s < nextSecond s ∧ c.zones ≠ [] ∧
        c.pattern = some p ∧ ∃ first d, c.steps[0]? = some first ∧ stepTime first = some d) ∧
      (∀ c : ToneChannel, c.state = .playing → c.step = some 0 → c.stepEnd = some (.timed 40) → c.zones = [1, 6] →
        (withChannel 3 c).power.held = false ∧ (withChannel 3 c).chime.channels[3]? = some c ∧ 40 < nextSecond (withChannel 3 c) ∧
          c.zones ≠ []) ∧
      (PlayStands (atStepEnd [.strike 100, .rest 50] none) 0 1 none ∧ stepTime (.rest 50) = some 50) ∧
      (PlayStands (atStepEnd [.strike 100, .loop 0 1] (some 1)) 0 1 (some 1) ∧ 0 < (some 1).getD 1 ∧
        stepTime (.strike 100) = some 100) ∧
      (PlayStands (atStepEnd [.strike 100, .loop 0 1, .rest 50] (some 0)) 0 2 none ∧
        (atStepEnd [.strike 100, .loop 0 1, .rest 50] (some 0)).steps[2]? = some (.rest 50)) ∧
      (PlayStands (atStepEnd [.strike 100] none) 0 1 none ∧ (atStepEnd [.strike 100] none).steps.length ≤ 1 ∧
        (atStepEnd [.strike 100] none).steps[0]? = some (.strike 100) ∧ (atStepEnd [.strike 100] none).passTimed = true ∧
        ∀ (gate ending : Bool) (origin : Origin), ∃ c : ToneChannel,
          c = { atStepEnd [.strike 100] none with gate := gate, gateEnding := ending, origin := some origin } ∧
            c.pattern = some (.table 0) ∧ c.zones = [1, 6]) :=
  ⟨fun p => ⟨3, { ringing .waking .office with pattern := some p }, withChannel 3 { ringing .waking .office with pattern := some p },
      rfl, rfl, rfl, (fun _ h => nomatch h), (by decide : 0 < nextSecond clocked), (by decide : [1, 6] ≠ []), rfl, _, _, rfl,
      rfl⟩,
    fun _ _ _ _ hz => ⟨rfl, rfl, (by decide : 40 < nextSecond clocked), by rw [hz]; decide⟩,
    ⟨Or.inl ⟨rfl, rfl⟩, rfl⟩, ⟨Or.inl ⟨rfl, rfl⟩, by decide, rfl⟩, ⟨Or.inr ⟨⟨0, 1, rfl⟩, rfl, rfl, rfl⟩, rfl⟩,
    Or.inl ⟨rfl, rfl⟩, by decide, rfl, rfl, fun _ _ _ => ⟨_, rfl, rfl, rfl⟩⟩

/-- A waiting request that falls due. -/
def waitingFor (origin : Origin) : State :=
  { planned with chime := { planned.chime with waits := [⟨⟨.table 0, [1], 6, origin, false, false⟩, 99⟩] } }

theorem witness_chime_timers :
    (∃ (n : Nat) (c : ToneChannel) (e : RunTime) (s : State), s.power.held = false ∧ s.chime.channels[n]? = some c ∧
        c.state = .tailing ∧ c.tailEnd = some e ∧ e < nextSecond s) ∧
      (∀ origin : Origin, ∃ e : WaitEntry, (waitingFor origin).power.held = false ∧ (waitingFor origin).chime.waits[1 - 1]? = some e ∧
        e.expiry < nextSecond (waitingFor origin) ∧ e.request.origin = origin) ∧
      planned.plan.today.copyNumber = 1 ∧ (planned.plan.today.entries[1]?).isSome = true :=
  ⟨⟨3, { ringing .tailing .office with tailEnd := some 99 }, 99, withChannel 3 { ringing .tailing .office with tailEnd := some 99 },
      rfl, rfl, rfl, rfl, by decide +kernel⟩,
    fun origin => ⟨⟨⟨.table 0, [1], 6, origin, false, false⟩, 99⟩, rfl, rfl, (by decide : 99 < nextSecond clocked), rfl⟩, rfl, rfl⟩

/-- A channel that plays the held strike of press 1. -/
def heldStrike : ToneChannel :=
  { ringing .playing (.button 1) with pattern := some .heldStrike, steps := heldStrikeSteps, stepEnd := some .atRelease }

theorem witness_button :
    (clocked.power.held = false ∧ clocked.zone.buttonLatch = false) ∧
      (∃ (s : State) (c : ToneChannel), s.power.held = false ∧ s.zone.buttonLatch = true ∧ s.chime.channels.length = 4 ∧
        s.chime.channels[0]? = some c ∧ c.origin = some (.button s.zone.press) ∧ c.state = .playing ∧
        c.pattern = some .heldStrike ∧ c.late = false ∧ s.chime.waits = [] ∧
        ∀ m < 4, m ≠ 0 → (channelAt m s).origin ≠ some (.button s.zone.press)) ∧
      ∃ (s : State) (c : ToneChannel), s.power.held = false ∧ s.zone.buttonLatch = true ∧ s.chime.channels.length = 4 ∧
        s.chime.channels[3]? = some c ∧ c.origin = some (.button s.zone.press) ∧ c.state = .playing ∧ c.gate = true ∧
        c.pattern ≠ some .heldStrike ∧ s.chime.waits = [] ∧ ∀ m < 3, (channelAt m s).origin ≠ some (.button s.zone.press) :=
  ⟨⟨rfl, rfl⟩,
    ⟨{ withChannel 0 heldStrike with zone := { clocked.zone with buttonLatch := true, press := 1 } }, heldStrike, rfl, rfl, rfl,
      rfl, rfl, rfl, rfl, rfl, rfl, by decide +kernel⟩,
    ⟨{ withChannel 3 { ringing .playing (.button 1) with gate := true } with
        zone := { clocked.zone with buttonLatch := true, press := 1 } },
      { ringing .playing (.button 1) with gate := true }, rfl, rfl, rfl, rfl, rfl, rfl, rfl, by decide, rfl, by decide +kernel⟩⟩

/-- The release of a press whose held strike waits: it leaves the list DROPPED (R84, R94). -/
theorem test_waiting_held_strike :
    let s := { clocked with
      chime := { clocked.chime with waits := [⟨⟨.heldStrike, [1], 6, .button 1, false, false⟩, 99⟩, ⟨ask [2] 5, 99⟩] }
      zone := { clocked.zone with buttonLatch := true, press := 1 } }
    let t := after .bellButtonRelease s
    t.chime.waits = [⟨ask [2] 5, 99⟩] ∧ t.chime.lastButton = some ⟨.heldStrike, .dropped⟩ := by
  decide +kernel

/-! The entrance line. -/

/-- A valid identity: kind 0, serial 0 (its check is 0). -/
def plainIdentity : Identity := 0

/-- A terminal of that identity. -/
def gate (state : TerminalState) : Terminal := .new plainIdentity 8 state 0

/-- A state with a terminal in entry 7, at a point of running time, with a job under way. -/
def lined (t : Terminal) (now : RunTime) (job : Job) (phase : LinePhase) : State :=
  { opened with
    time := { opened.time with running := now }
    line := { EntranceLine.cold with table := List.replicate 7 none ++ [some t], job := job, phase := phase } }

/-- A poll round with entry 7 in hand. -/
def roundSeven : PollRound := ⟨[], 7, plainIdentity, true, [], []⟩

/-- A free line: its enumeration pending, its broadcast due, its check due at 10 s and not before, its poll round held off. -/
theorem witness_jobs :
    (clocked.power.held = false ∧ clocked.line.enumerationPending = false ∧ enumerating clocked = false) ∧
      (∃ s : State, s.power.held = false ∧ s.line.enumerationPending = false ∧ enumerating s = true) ∧
      (∀ pending due : Bool, ∃ s : State, s.line.job = .idle ∧ s.line.phase = .free ∧ s.line.enumerationPending = pending ∧
        s.line.clockDue = due ∧ s.time.valid = true) ∧
      (∀ now ∈ [999, 1000], let s := lined (gate .active) now .idle .free
        (LivenessDue s 7 ↔ now = 1000) ∧ (∀ m < 7, ¬LivenessDue s m) ∧ terminalAt 7 s = some (gate .active) ∧ s.power.held = false ∧
          lineFree s = true ∧ s.line.enumerationPending = false ∧ s.line.clockDue = false ∧ s.line.table.length = 8 ∧
          checkFallsAt (gate .active) = 1000 ∧ (1000 < nextSecond s ↔ now = 1000)) ∧
      checkFallsAt { gate .silent with lastLiveness := some 500 } = 1500 := by
  have other : ∀ now m t, terminalAt m (lined (gate .active) now .idle .free) = some t → m = 7 ∧ t = gate .active := by
    intro now m t h
    match m, h with
    | 0, h | 1, h | 2, h | 3, h | 4, h | 5, h | 6, h => nomatch h
    | 7, h => cases h; exact ⟨rfl, rfl⟩
    | _ + 8, h => nomatch h
  refine ⟨⟨rfl, rfl, rfl⟩, ⟨lined (gate .active) 0 (.enumeration (.start none)) .windows, rfl, rfl, rfl⟩,
    fun pending due => ⟨{ clocked with line := { clocked.line with enumerationPending := pending, clockDue := due } },
      rfl, rfl, rfl, rfl, rfl⟩, ?_, by decide +kernel⟩
  intro now hn
  refine ⟨?_, fun m hm ⟨t, h, _⟩ => absurd (other now m t h).1 (Nat.ne_of_lt hm), rfl, rfl, rfl, rfl, rfl, rfl,
    by decide +kernel, ?_⟩
  · constructor
    · rintro ⟨t, h, _, hh, _⟩
      rw [(other now 7 t h).2] at hh
      simp only [List.mem_cons, List.not_mem_nil, or_false] at hn
      rcases hn with rfl | rfl
      · exact absurd hh (by decide +kernel)
      · rfl
    · rintro rfl
      exact ⟨gate .active, rfl, .inl rfl, by decide +kernel, fun a h => by cases h⟩
  · simp only [List.mem_cons, List.not_mem_nil, or_false] at hn
    rcases hn with rfl | rfl <;> decide +kernel


theorem witness_admit_and_retire :
    (∀ state : TerminalState, ∃ (i : Identity) (entrance n : Nat) (t : Terminal) (s : State), s.power.held = false ∧
        storeHolds .terminals s = false ∧ identityValid i = true ∧ entrance ≤ 8 ∧ s.line.table.length = 8 ∧
        entryWith i s = some n ∧ terminalAt n s = some t ∧ t.state = state) ∧
      (∃ (i : Identity) (n : Nat) (s : State), s.power.held = false ∧ storeHolds .terminals s = false ∧ identityValid i = true ∧
        entryWith i s = none ∧ n < 8 ∧ terminalAt n s = none ∧ ∀ m < n, terminalAt m s ≠ none) ∧
      (∃ (i : Identity) (s : State), s.power.held = false ∧ storeHolds .terminals s = false ∧ identityValid i = true ∧
        s.line.table.length = 8 ∧ entryWith i s = none ∧ ∀ m < 8, terminalAt m s ≠ none) ∧
      ∃ (n : Nat) (t : Terminal) (p : PollRound) (s : State), s.power.held = false ∧ storeHolds .terminals s = false ∧ n < 8 ∧
        terminalAt n s = some t ∧ s.line.job = .pollServe p ∧ p.entry = n :=
  ⟨fun state => ⟨plainIdentity, 8, 7, gate state, lined (gate state) 0 .idle .free, rfl, rfl, by decide +kernel, by decide, rfl,
      by cases state <;> decide +kernel, rfl, rfl⟩,
    ⟨plainIdentity, 0, clocked, rfl, rfl, by decide +kernel, by decide +kernel, by decide, rfl, by decide⟩,
    ⟨plainIdentity,
      { clocked with
        line := { clocked.line with table := List.replicate 8 (some (.new 0x07000000000001 0 .active 0)) } },
      rfl, rfl, by decide +kernel, rfl, by decide +kernel, by decide +kernel⟩,
    ⟨7, gate .active, roundSeven, lined (gate .active) 0 (.pollServe roundSeven) .header, rfl, rfl, by decide, rfl, rfl, rfl⟩⟩

theorem witness_alerts :
    (∀ t : Transaction, ∃ s : State, s.power.held = false ∧ s.line.phase = .alert t) ∧
      (∀ orphan : Bool, ∀ missed ∈ [0, 1, 2], ∃ (n : Nat) (i : Identity) (t : Terminal) (s : State), s.power.held = false ∧
        s.line.job = .liveness n i ∧ s.line.orphan = orphan ∧ terminalAt n s = some t ∧ t.missed = missed ∧ t.state = .silent ∧
        s.line.phase = .stateReply) ∧
      (∀ phase : LinePhase, ∀ orphan drop : Bool, ∀ missed ∈ [0, 1, 2], ∃ (p : PollRound) (t : Terminal) (s : State),
        s.power.held = false ∧ s.line.job = .pollServe p ∧ s.line.phase = phase ∧ s.line.orphan = orphan ∧
          s.line.dropJob = drop ∧ terminalAt p.entry s = some t ∧ t.missed = missed) ∧
      ∀ drop : Bool, ∀ job ∈ [Job.enumeration, Job.pollWalk], ∃ (w : Walk) (s : State), s.power.held = false ∧
        s.line.phase = .alert .seek ∧ s.line.dropJob = drop ∧ s.line.job = job w :=
  ⟨fun t => ⟨lined (gate .active) 0 .idle (.alert t), rfl, rfl⟩,
    fun orphan missed _ => ⟨7, plainIdentity, { gate .silent with missed := missed },
      let s := lined { gate .silent with missed := missed } 0 (.liveness 7 plainIdentity) .stateReply
      { s with line := { s.line with orphan := orphan } }, rfl, rfl, rfl, rfl, rfl, rfl, rfl⟩,
    fun phase orphan drop missed _ => ⟨roundSeven, { gate .silent with missed := missed },
      let s := lined { gate .silent with missed := missed } 0 (.pollServe roundSeven) phase
      { s with line := { s.line with orphan := orphan, dropJob := drop } }, rfl, rfl, rfl, rfl, rfl, rfl, rfl⟩,
    fun drop job _ => ⟨.start none,
      let s := lined (gate .active) 0 (job (.start none)) (.alert .seek)
      { s with line := { s.line with dropJob := drop } }, rfl, rfl, rfl, rfl⟩⟩

/-- A check that a LOAD replaced, and a check that is recorded: no ANSWER to its ALERT (R102, R103, R123; log 14). -/
theorem test_orphaned_check :
    let s := lined (gate .active) 0 (.liveness 7 plainIdentity) (.alert (.readState false))
    (after .alertNoAnswer s).line.table = List.replicate 7 none ++ [some { gate .silent with missed := 1 }] ∧
      (after .alertNoAnswer { s with line := { s.line with orphan := true } }).line.table = s.line.table := by
  decide +kernel

theorem witness_seek :
    (∀ k ∈ [0, 54], ∃ (w : Walk) (p : List Bool) (s : State), s.power.held = false ∧ s.line.phase = .windows ∧
        s.line.dropJob = false ∧ s.line.job = .pollWalk w ∧ w.path.length = k ∧ w.aside = [p] ∧ p.length < 56) ∧
      (∃ (w : Walk) (s : State), s.power.held = false ∧ s.line.phase = .windows ∧ s.line.dropJob = true ∧ s.line.job = .enumeration w) ∧
      ∀ job ∈ [Job.enumeration, Job.pollWalk], ∀ aside ∈ [[], [[true]]], ∀ k ∈ [55, 54], ∃ (w : Walk) (s : State),
        s.power.held = false ∧ s.line.phase = .windows ∧ s.line.dropJob = false ∧ (job = .enumeration ∨ job = .pollWalk) ∧
          s.line.job = job w ∧ (∀ p, w.aside.head? = some p → p.length < 56) ∧ w.path.length = k ∧ w.aside = aside ∧
          w.found.length = 15 ∧ identityValid (identityOfBits (w.path ++ [false])) = true :=
  ⟨fun k _ => ⟨⟨none, List.replicate k false, [[true]], [], 0⟩, [true],
      lined (gate .active) 0 (.pollWalk ⟨none, List.replicate k false, [[true]], [], 0⟩) .windows, rfl, rfl, rfl, rfl,
      List.length_replicate, rfl, by decide⟩,
    ⟨.start none,
      let s := lined (gate .active) 0 (.enumeration (.start none)) .windows
      { s with line := { s.line with dropJob := true } }, rfl, rfl, rfl, rfl⟩,
    fun job hj aside ha k hk => ⟨⟨none, List.replicate k false, aside, List.replicate 15 1, 0⟩,
      lined (gate .active) 0 (job ⟨none, List.replicate k false, aside, List.replicate 15 1, 0⟩) .windows, rfl, rfl, rfl,
      by simpa only [List.mem_cons, List.not_mem_nil, or_false] using hj, rfl,
      by
        simp only [List.mem_cons, List.not_mem_nil, or_false] at ha
        rcases ha with rfl | rfl
        · nofun
        · rintro p ⟨⟩; decide,
      List.length_replicate, rfl, rfl, by
        simp only [List.mem_cons, List.not_mem_nil, or_false] at hk
        rcases hk with rfl | rfl
        · exact (by decide +kernel : identityValid (identityOfBits (List.replicate 55 false ++ [false])) = true)
        · exact (by decide +kernel : identityValid (identityOfBits (List.replicate 54 false ++ [false])) = true)⟩⟩

/-- The step that finds the sixteenth identity ends the walk, with a branch still put aside. -/
theorem test_sixteenth_identity :
    let w : Walk := ⟨none, List.replicate 55 false, [[true]], List.replicate 15 1, 0⟩
    let t := after (.seekStepResult true true) (lined (gate .active) 0 (.enumeration w) .windows)
    t.line.lastEnumeration.map (fun r => (r.found, r.bad, r.stoppedAt16)) = some (16, 0, true) := by
  decide +kernel

/-- The walk of a job that found identities. -/
def walked (l : List Identity) : Walk := ⟨none, [], [], l, 2⟩

/-- A table full of terminals with the identities 0 … 7. -/
def fullTable : State :=
  { opened with
    line :=
      { EntranceLine.cold with
        table := (List.range 8).map fun n => some (.new (BitVec.ofNat 56 n) 0 .lost 0)
        job := .pollWalk (walked [9]), phase := .alert .seek } }

theorem witness_walk_ends :
    (∀ state : TerminalState, ∀ l ∈ [[], [plainIdentity], [9]], ∃ s : State, s.power.held = false ∧ s.line.phase = .alert .seek ∧
        s.line.dropJob = false ∧ s.line.job = .pollWalk (walked l) ∧ s.line.table.length = 8 ∧ entryWith plainIdentity s = some 7 ∧
        terminalAt 7 s = some (gate state) ∧ entryWith 9 s = none ∧ terminalAt 0 s = none) ∧
      (fullTable.power.held = false ∧ fullTable.line.phase = .alert .seek ∧ fullTable.line.dropJob = false ∧
        fullTable.line.table.length = 8 ∧ entryWith 9 fullTable = none ∧ ∀ m < 8, terminalAt m fullTable ≠ none) ∧
      (∀ state : TerminalState, ∃ s : State, s.power.held = false ∧ s.line.phase = .alert .seek ∧ s.line.dropJob = false ∧
        s.line.job = .enumeration (walked [9, plainIdentity]) ∧ s.line.table.length = 8 ∧ s.attention.length = 14 ∧
        terminalAt 7 s = some (gate state) ∧ (walked [9, plainIdentity]).found.Nodup ∧
        ∀ m n t u, terminalAt m s = some t → terminalAt n s = some u → t.identity = u.identity → m = n) := by
  refine ⟨fun state l _ => ⟨lined (gate state) 0 (.pollWalk (walked l)) (.alert .seek), rfl, rfl, rfl, rfl, rfl, ?_, rfl, ?_, rfl⟩,
    ⟨rfl, rfl, rfl, rfl, by decide +kernel, by decide +kernel⟩,
    fun state => ⟨lined (gate state) 0 (.enumeration (walked [9, plainIdentity])) (.alert .seek), rfl, rfl, rfl, rfl, rfl, rfl,
      rfl, by decide +kernel, ?_⟩⟩
  · cases state <;> rfl
  · cases state <;> rfl
  · have seven : ∀ m t, terminalAt m (lined (gate state) 0 (.enumeration (walked [9, plainIdentity])) (.alert .seek)) = some t →
        m = 7 := by
      intro m t h
      match m, h with
      | 0, h | 1, h | 2, h | 3, h | 4, h | 5, h | 6, h => nomatch h
      | 7, _ => rfl
      | _ + 8, h => nomatch h
    exact fun m n t u ht hu _ => (seven m t ht).trans (seven n u hu).symm

/-- Bytes with their check after them. -/
def withCheck (b : Text) : Text := b ++ check16Bytes b

theorem witness_poll_answers :
    (∀ orphan drop : Bool, ∃ (p : PollRound) (t : Terminal) (s : State), s.power.held = false ∧ s.line.phase = .header ∧
        s.line.job = .pollServe p ∧ s.line.orphan = orphan ∧ s.line.dropJob = drop ∧ terminalAt p.entry s = some t ∧
        InService p.entry s) ∧
      (∀ n ∈ [1, 16], (withCheck [BitVec.ofNat 8 n]).length = 3 ∧ goodCheck (withCheck [BitVec.ofNat 8 n]) = true ∧
        ((withCheck [BitVec.ofNat 8 n]).getD 0 0).toNat = n) ∧
      ((withCheck [0]).length = 3 ∧ goodCheck (withCheck [0]) = true ∧ ((withCheck [0]).getD 0 0).toNat = 0) ∧
      ((withCheck [17]).getD 0 0).toNat = 17 ∧
      (∀ left ∈ [1, 4], ∃ taps, goodBlock left (withCheck (List.replicate (7 * left) 1)) = some taps ∧ taps.length = left) ∧
      (∃ taps, goodBlock 4 (withCheck (List.replicate 28 1)) = some taps ∧ 4 < 5) ∧
      goodBlock (min 4 5) [] = none ∧
      (goodCheck (withCheck [0xC3]) = true ∧ (withCheck [0xC3]).length = 3) ∧
      ((withCheck [16, 3]).length = 4 ∧ goodCheck (withCheck [16, 3]) = true ∧ ((withCheck [16, 3]).getD 0 0).toNat ≤ 16) ∧
      (∀ phase : LinePhase, ∀ orphan drop : Bool, ∃ s : State, s.power.held = false ∧ s.line.phase = phase ∧
        s.line.job = .pollServe roundSeven ∧ s.line.orphan = orphan ∧ s.line.dropJob = drop ∧ terminalAt 7 s = some (gate .active)) ∧
      ∃ s : State, s.power.held = false ∧ s.line.phase = .confirm ∧ s.line.job = .pollServe roundSeven ∧ s.line.orphan = false ∧
        terminalAt 7 s = none ∧ ¬InService 7 s :=
  ⟨fun orphan drop => ⟨roundSeven, gate .active,
      let s := lined (gate .active) 0 (.pollServe roundSeven) .header
      { s with line := { s.line with orphan := orphan, dropJob := drop } }, rfl, rfl, rfl, rfl, rfl, rfl, gate .active, rfl, .inl rfl⟩,
    by decide +kernel, by decide +kernel, by decide +kernel,
    (by
      intro left h
      simp only [List.mem_cons, List.not_mem_nil, or_false] at h
      rcases h with rfl | rfl
      · exact ⟨_, (by decide +kernel : _ = some (tapsOf 1 (List.replicate 7 1))), by decide⟩
      · exact ⟨_, (by decide +kernel : _ = some (tapsOf 4 (List.replicate 28 1))), by decide⟩),
    ⟨_, (by decide +kernel : _ = some (tapsOf 4 (List.replicate 28 1))), by decide⟩,
    by decide +kernel, by decide +kernel, by decide +kernel,
    fun phase orphan drop =>
      ⟨let s := lined (gate .active) 0 (.pollServe roundSeven) phase
      { s with line := { s.line with orphan := orphan, dropJob := drop } }, rfl, rfl, rfl, rfl, rfl, rfl⟩,
    { clocked with line := { EntranceLine.cold with job := .pollServe roundSeven, phase := .confirm } }, rfl, rfl, rfl, rfl, rfl,
      fun ⟨_, h, _⟩ => nomatch h⟩

/-- A terminal whose hold has one record. -/
def holding : Terminal := { gate .active with hold := [⟨255, 11, .onTime⟩] }

theorem witness_taps :
    (∃ (n : Nat) (tap : Tap) (t : Terminal) (s : State), terminalAt n s = some t ∧
        ∃ r ∈ t.hold, r.serial = tap.serial ∧ r.card = tap.card) ∧
      (∃ (n : Nat) (tap : Tap) (t : Terminal) (s : State), terminalAt n s = some t ∧ t.hold.length ≤ 16 ∧
        ∀ r ∈ t.hold, ¬(r.serial = tap.serial ∧ r.card = tap.card)) ∧
      clocked.day.state ≠ .open_ ∧ opened.day.state = .open_ ∧ (∀ e ∈ opened.roll.roster, e.2.enrolment.card ≠ 11) ∧
      (∀ n ∈ [15, 16], (heldBefore 9 (List.replicate n ⟨8, 1, .onTime⟩)).length = 15) ∧
      ∀ m : Mark, ∃ p : Pupil, RollOk (marked m) ∧ (marked m).day.state = .open_ ∧ pupilAt 3 (marked m) = some p ∧
        p.day.mark = m ∧ (marked m).attention.length = 14 ∧
        ∀ k q, k ≠ 3 → pupilAt k (marked m) = some q → q.enrolment.card ≠ p.enrolment.card :=
  ⟨⟨7, ⟨11, 255, 0⟩, holding, lined holding 0 .idle .free, rfl, ⟨255, 11, .onTime⟩, by decide, rfl, rfl⟩,
    ⟨7, ⟨12, 255, 4095⟩, holding, lined holding 0 .idle .free, rfl, by decide, by decide⟩, by decide, rfl, by decide,
    by decide +kernel,
    fun m => ⟨⟨enrolA, { DayPart.fresh with mark := m }⟩, marked_rollOk m, rfl, by cases m <;> decide +kernel, rfl, rfl,
      fun k q hk h =>
        forall_pupil (P := fun k q => k ≠ 3 → q.enrolment.card ≠ 11) (s := marked m) (by cases m <;> decide +kernel) k q h hk⟩⟩

/-! Arrivals and the sweep. -/

/-- The boundaries of R49: at the cutoff PRESENT, after it LATE, after the cut time LATE_AFTER_CUT. -/
theorem witness_classified :
    ∀ t ∈ [31500, 31501, 34200, 34201],
      classify ⟨.cutListed, some 31200, 5, some 34200⟩ none t =
        if t ≤ 31500 then .present else if t ≤ 34200 then .late else .lateAfterCut := by
  decide +kernel

theorem witness_arrive :
    ∀ m : Mark, (marked m).power.held = false ∧ RollOk (marked m) ∧ (marked m).day.state = .open_ ∧
      pupilAt 3 (marked m) = some ⟨enrolA, { DayPart.fresh with mark := m }⟩ ∧
      (∀ t, some 28800 = some t → t < 86400 ∧ t ≤ (marked m).time.school ∧ (marked m).day.openingTime.getD 0 ≤ t) :=
  fun m => ⟨rfl, marked_rollOk m, rfl, by cases m <;> decide +kernel, fun t h => by cases h; exact ⟨by decide, Nat.le_refl _, (by decide : 18000 ≤ 28800)⟩⟩

/-- An arrival after the cut: the queue before it, the policy, and what it leaves. -/
def arrivedLate (found : Mark) (policy : LatePolicy) (queue : Nat) : State :=
  let s := marked found
  { s with
    time := { s.time with school := 32460 }
    day := { s.day with cohorts := s.day.cohorts.set 2 ⟨.cutListed, some 31200, 5, some 32400⟩ }
    settings := { s.settings with latePolicy := policy }
    notices :=
      { s.notices with
        globalHold := true, queue := List.replicate queue ⟨9, .absent, .pupil 4 0, 1, 100, 0, none, none, false, false⟩ } }

/-- The notices of an arrival: LATE by the policy, ARRIVED from ABSENT_ASKED, FULL with 128 notices in the queue. -/
theorem test_notices_of_an_arrival :
    (∀ found ∈ [Mark.unseen, .absentPending, .absentUnreached],
      let t := after (.arrive 3 none) (arrivedLate found .afterCut 127)
      (t.notices.queue.getLast?.map fun n => (n.kind, n.number)) = some (.late, 1) ∧
        t.office.result = some (.ok [.word "LATE_AFTER_CUT", .word "LATE_REPORT_OFFICE", .named "NOTICE" (.num 1)])) ∧
      (after (.arrive 3 none) (arrivedLate .unseen .never 0)).notices.queue = [] ∧
      ((after (.arrive 3 none) (arrivedLate .absentAsked .never 0)).notices.queue.map fun n => n.kind) = [.arrived] ∧
      (sourceAt 11 (after (.arrive 3 none) (arrivedLate .unseen .always 128))).count = 1 := by
  decide +kernel

/-- The sweep of cohort 2 at a slot. -/
def sweepAt (slot : Slot) (paused : Bool) (s : State) : State :=
  { s with sweep := ⟨[⟨2, 28700, paused⟩], some slot, .running⟩ }

theorem witness_sweep :
    (∀ slot ∈ [3, 2047], ∃ (p : Pupil) (s : State), s.power.held = false ∧ RollOk s ∧
        s.sweep = ⟨[⟨2, 28700, false⟩], some slot, .running⟩ ∧ slot < 2048 ∧ pupilAt slot s = some p ∧ p.enrolment.cohort = 2 ∧
        p.day.mark = .unseen ∧ p.enrolment.permit = none ∧ p.enrolment.contacts ≠ [] ∧
        (s.notices.queue.countP fun n => n.kind = .absent) < 120 ∧ s.notices.queue.length < 128) ∧
      ∃ s : State, s.notices.queue.length = 128 ∧ s.sweep = ⟨[⟨2, 28700, true⟩], some 3, .running⟩ :=
  ⟨fun slot h => ⟨⟨enrolA, .fresh⟩, sweepAt slot false (withRoster [(slot, ⟨enrolA, .fresh⟩)] opened), rfl,
      rollOk_of (by
        simp only [List.mem_cons, List.not_mem_nil, or_false] at h
        rcases h with rfl | rfl <;> decide +kernel),
      rfl,
      by
        simp only [List.mem_cons, List.not_mem_nil, or_false] at h
        rcases h with rfl | rfl <;> decide,
      by simp [pupilAt, sweepAt, withRoster, tableGet], rfl, rfl, rfl, by decide, (by decide : 0 < 120), (by decide : 0 < 128)⟩,
    ⟨sweepAt 3 true
        { opened with
          notices :=
            { opened.notices with
              queue := List.replicate 128 ⟨1, .general, .pupil 3 0, 1, 0, 0, none, none, false, false⟩ } },
      by decide +kernel, rfl⟩⟩

/-! Notices. -/

/-- An ABSENT notice of slot 3. -/
def absentNotice (inWindow cancel : Bool) : Notice := ⟨1, .absent, .pupil 3 0, 5, 100, 28700, none, none, inWindow, cancel⟩

/-- A GENERAL broadcast with a deadline reached. -/
def generalBroadcast (cancel : Bool) : Notice :=
  ⟨65535, .general, .broadcast ⟨[2], .first, 0, 0, [], 1, 0, 0, false⟩, 4, 100, 28700, some 28800, some 15, false, cancel⟩

/-- A state with notices and sends. -/
def queued (q : List Notice) (w : List Send) : State :=
  texted
    { marked .absentPending with
      notices := { opened.notices with queue := q, window := w, deadline := some 28800, counter := 65535 } }

theorem witness_choice :
    (∃ (s : State) (n : Notice) (slot : Slot) (position : Nat) (p : Pupil) (c : Contact), sendingAllowed s = true ∧
        s.notices.window.length < 4 ∧ n ∈ s.notices.queue ∧ n.addressee = .pupil slot position ∧ n.inWindow = false ∧ n.cls ≠ 0 ∧
        (s.notices.globalHold = true → 7 < n.cls) ∧ (s.notices.quietEnd ≠ none → 6 < n.cls) ∧
        (∀ m ∈ s.notices.queue, isCandidate s m = true → m ≠ n → m.cls < n.cls) ∧ pupilAt slot s = some p ∧
        p.enrolment.contacts[position]? = some c) ∧
      ∃ s : State, sendingAllowed s = true ∧ RollOk s ∧ s.notices.queue.length ≤ 128 ∧
        (∀ n ∈ s.notices.queue, ∀ b, n.addressee = .broadcast b → b.returned.length ≤ 4) ∧ (settle s).notices.window.length < 4 :=
  ⟨⟨queued [absentNotice false false, generalBroadcast false] [], absentNotice false false, 3, 0,
      ⟨enrolA, { DayPart.fresh with mark := .absentPending }⟩, ⟨31, .text⟩, by decide +kernel, by decide, by decide +kernel, rfl, rfl,
      by decide, by decide +kernel, by decide +kernel, by decide +kernel, by decide +kernel, rfl⟩,
    ⟨clocked, by decide +kernel, clocked_rollOk, by decide, fun _ h => absurd h List.not_mem_nil, by decide +kernel⟩⟩

/-- A broadcast to every contact with these returned steps, its cursor at a position of slot 3. -/
def walking (returned : List (Slot × Nat)) (position : Nat) : BroadcastState :=
  ⟨[2], .all, 3, position, returned, 7, 0, 0, false⟩

/-- A queue with that broadcast, and a notice of a class that is never sent. -/
def broadcasting (b : BroadcastState) : State :=
  let s := queued [{ generalBroadcast false with addressee := .broadcast b }, { absentNotice false false with cls := 0 }] []
  { s with time := { s.time with school := 28700 } }

theorem witness_broadcasts :
    (∀ b ∈ [walking [(3, 1)] 2, walking [(3, 2)] 0, walking [] 0, walking [] 1],
      let s := broadcasting b
      ∃ n ∈ s.notices.queue, sendingAllowed s = true ∧ s.notices.window.length < 4 ∧ n.addressee = .broadcast b ∧ n.cls ≠ 0 ∧
        s.notices.globalHold = false ∧ s.notices.quietEnd = none ∧ RollOk s ∧ (s.notices.queue.map (·.number)).Nodup ∧
        (∀ m ∈ s.notices.queue, isCandidate s m = true → m = n) ∧ n.cancel = false ∧ b.expired = false) ∧
      (∀ position ∈ [0, 1], NextStep (walking [] position) (broadcasting (walking [] position)) 3 position) ∧
      (∀ slot, ¬OffersStep (walking [] 2) (broadcasting (walking [] 2)) slot) := by
  have pupil : ∀ b k p, pupilAt k (broadcasting b) = some p → k = 3 ∧ p.enrolment = enrolA := fun b =>
    forall_pupil (P := fun k p => k = 3 ∧ p.enrolment = enrolA) (s := broadcasting b) (by
      show ∀ e ∈ [((3 : Slot), (⟨enrolA, { DayPart.fresh with mark := .absentPending }⟩ : Pupil))], _
      decide)
  refine ⟨fun b hb => ⟨{ generalBroadcast false with addressee := .broadcast b }, List.mem_cons_self .., by rfl, by show 0 < 4; decide, rfl,
      by show 4 ≠ 0; decide, rfl, rfl, marked_rollOk .absentPending, by show [65535, 1].Nodup; decide, ?_, rfl, ?_⟩, ?_, ?_⟩
  · intro m hm hc
    rcases List.mem_cons.1 hm with rfl | hm
    · rfl
    · rw [List.mem_singleton.1 hm] at hc
      exact nomatch hc
  · simp only [List.mem_cons, List.not_mem_nil, or_false] at hb
    rcases hb with rfl | rfl | rfl | rfl <;> rfl
  · intro position hp
    refine ⟨⟨Nat.le_refl _, ⟨enrolA, { DayPart.fresh with mark := .absentPending }⟩, by rfl, List.mem_singleton.2 rfl, ?_, .inl rfl⟩, rfl, ?_⟩
    · simp only [List.mem_cons, List.not_mem_nil, or_false] at hp
      rcases hp with rfl | rfl <;> decide
    · rintro k hk ⟨_, p, h, _⟩
      exact absurd (pupil _ k p h).1 (Nat.ne_of_lt hk)
  · rintro slot ⟨_, p, h, _, hl, _⟩
    obtain ⟨rfl, he⟩ := pupil _ slot p h
    rw [he] at hl
    exact absurd hl (by decide)

/-- The choice sends the returned step before the step at the cursor, and ends the broadcast that has none left. -/
theorem test_broadcast_steps :
    let sent := fun b => (chooseOnce (broadcasting b)).map fun t =>
      (t.notices.window.map (fun x => (x.key.slot, x.key.position)), t.notices.queue.head?.map Notice.addressee)
    sent (walking [(3, 1)] 2) = some ([(3, 1)], some (.broadcast { walking [] 2 with sent := 8 })) ∧
      sent (walking [] 0) = some ([(3, 0)], some (.broadcast { walking [] 1 with sent := 8 })) ∧
      (finishBroadcasts (broadcasting (walking [] 2))).notices.lastBroadcast = some ⟨65535, .general, 7, 0, 0, .complete⟩ := by
  decide +kernel

/-- A pupil notice whose position lies beyond the contacts list (R161, R164), and one with a contact. -/
theorem witness_exhausted_at_its_send :
    ∀ position ∈ [1, 2], ∃ (n : Notice) (s : State), sendingAllowed s = true ∧ s.notices.window.length < 4 ∧ RollOk s ∧
      n ∈ s.notices.queue ∧ n.cls ≠ 0 ∧ s.notices.globalHold = false ∧ s.notices.quietEnd = none ∧
      (∀ m ∈ s.notices.queue, isCandidate s m = true → m ≠ n → m.cls < n.cls) ∧ n.addressee = .pupil 3 position ∧
      n.inWindow = false ∧ ∃ p, pupilAt 3 s = some p ∧ (p.enrolment.contacts.length ≤ position ↔ position = 2) := by
  intro position h
  refine ⟨{ absentNotice false false with addressee := .pupil 3 position },
    queued [{ absentNotice false false with addressee := .pupil 3 position }] [], by rfl, by show 0 < 4; decide, marked_rollOk _,
    List.mem_singleton.2 rfl, by show 5 ≠ 0; decide, rfl, rfl, ?_, rfl, rfl, ⟨enrolA, { DayPart.fresh with mark := .absentPending }⟩, rfl, ?_⟩
  · intro m hm _ hne
    exact absurd (List.mem_singleton.1 hm) hne
  · simp only [List.mem_cons, List.not_mem_nil, or_false] at h
    rcases h with rfl | rfl <;> decide

theorem witness_texts_and_posts :
    (∃ (slot : Nat) (t : Text) (s : State), s.power.held = false ∧ slot < 16 ∧ s.notices.texts.length = 16 ∧
        storeHolds .texts s = false ∧ 1 ≤ t.length ∧ t.length ≤ 160 ∧ ∀ c ∈ t, isTextChar c = true) ∧
      (∃ (s : State) (cls textSlot slot position : Nat) (deadline : Option SchoolTime) (p : Pupil), s.power.held = false ∧
        1 ≤ cls ∧ cls ≤ 14 ∧ textSlot < 16 ∧ s.notices.texts.getD textSlot [] ≠ [] ∧
        (∀ d, deadline = some d → d < 86400 ∧ s.time.valid = true ∧ s.time.school < d) ∧ s.notices.queue.length < 128 ∧
        slot < 2048 ∧ pupilAt slot s = some p ∧ position < p.enrolment.contacts.length ∧ position ≤ 2 ∧ s.notices.counter ≤ 65535) ∧
      ([0, 7] : List Nat).Pairwise (· < ·) :=
  ⟨⟨15, List.replicate 160 0x7E, clocked, rfl, by decide, by decide +kernel, rfl, by decide +kernel, by decide +kernel,
      by decide +kernel⟩,
    ⟨queued [absentNotice false false] [], 14, 15, 3, 1, some 86399, ⟨enrolA, { DayPart.fresh with mark := .absentPending }⟩, rfl,
      by decide, by decide, by decide, by decide +kernel, fun d h => by cases h; exact ⟨by decide, rfl, (by decide : 28800 < 86399)⟩,
      by decide, by decide, by decide +kernel, by decide, by decide, by decide⟩,
    by decide⟩

/-- A send of notice 1 in the window. -/
def sendOne (state : SendState) : Send := ⟨⟨1, 3, 0⟩, 0, state⟩

/-- The pattern table of the defaults is sound. -/
theorem patternsSound_default : PatternsSound defaultPatterns := by
  refine ⟨by decide, fun p hp => ?_⟩
  rcases List.mem_cons.1 hp with rfl | h
  · refine .inr ⟨by decide, by decide, fun i x h => ?_⟩
    match i, h with
    | 0, h => cases h; decide
  · exact .inl (List.mem_replicate.1 h).2

/-- An OPEN day whose pupil is ABSENT_PENDING with its notice in the window, beside a broadcast with three steps returned and one out. -/
def balanced : State :=
  { marked .absentPending with
    notices :=
      { opened.notices with
        queue :=
          [absentNotice true false, { generalBroadcast false with
            addressee := .broadcast ⟨[2], .all, 3, 2, [(3, 1), (3, 0), (4, 0)], 9, 0, 0, false⟩ }]
        window := [sendOne .awaitTake, ⟨⟨65535, 3, 1⟩, 0, .awaitOutcome⟩] }
    sweep := ⟨[⟨2, 28700, false⟩], some 9, .running⟩
    store := { opened.store with operation := some saving } }

theorem witness_invariants :
    (RollOk balanced ∧ CopiesOk balanced ∧ KeysOk balanced) ∧ TablesOk balanced ∧ AttentionOk balanced ∧
      (PendingOk balanced ∧ QueueOk balanced) ∧ markAt 3 balanced = some .absentPending ∧ ∃ t, step balanced = .next t := by
  have ready : ChannelsReady balanced := ⟨rfl, fun c hc hw => by
    have : c = .idle := (List.mem_replicate (n := 4).1 hc).2
    rw [this] at hw
    exact nomatch hw⟩
  have only : ∀ k p, pupilAt k balanced = some p → k = 3 ∧ p.day.heldMark = none :=
    forall_pupil (P := fun k p => k = 3 ∧ p.day.heldMark = none) (s := balanced) (by
      show ∀ e ∈ [((3 : Slot), (⟨enrolA, { DayPart.fresh with mark := .absentPending }⟩ : Pupil))], _
      decide)
  refine ⟨⟨marked_rollOk _, ⟨nofun, fun o l ho hl => ?_⟩, ?_, nofun, fun o l ho hl => ?_⟩, ?_, ⟨rfl, by
      show ∀ x ∈ resetSources, _
      decide +kernel⟩, ⟨⟨fun slot => ?_, ?_, ?_, ?_, fun _ _ => rfl, fun _ => rfl, nofun⟩, ?_⟩, ?_, _, rfl⟩
  · cases ho; cases hl
  · intro e he f hf _
    rw [List.mem_singleton.1 he, List.mem_singleton.1 hf]
  · cases ho; cases hl
  · refine ⟨?_, rfl, patternsSound_default, ?_, rfl, rfl, rfl, rfl, rfl, ready, Nat.zero_le _, List.Pairwise.nil, ?_, ?_⟩
    · exact ⟨rfl, rfl, rfl, rfl, rfl⟩
    · exact List.Pairwise.nil
    · exact ⟨nofun, nofun, nofun, nofun, nofun⟩
    · intro o ho; cases ho; exact ⟨nofun, nofun, nofun, nofun, nofun⟩
  · by_cases h : slot = 3
    · subst h
      decide +kernel
    · have hp : markAt slot balanced = none := by
        unfold markAt
        cases hq : pupilAt slot balanced with
        | none => rfl
        | some p => exact absurd (only slot p hq).1 h
      rw [hp, if_neg nofun, List.countP_eq_zero]
      intro n hn
      rcases List.mem_cons.1 hn with rfl | hn
      · simpa [Notice.isAbsentOf, Notice.isTo, absentNotice, eq_comm] using h
      · rw [List.mem_singleton.1 hn]
        exact nofun
  · intro n hn
    rcases List.mem_cons.1 hn with rfl | hn
    · trivial
    · rw [List.mem_singleton.1 hn]
      trivial
  · intro n hn slot i _ hc
    rcases List.mem_cons.1 hn with rfl | hn
    · rfl
    · rw [List.mem_singleton.1 hn] at hc
      exact nomatch hc
  · intro slot p hp
    rw [(only slot p hp).2]
    nofun
  · refine ⟨by decide +kernel, by decide +kernel, by decide +kernel, by decide +kernel, ?_, by decide +kernel, fun n hn b hb => ?_⟩
    · intro x hx
      rcases List.mem_cons.1 hx with rfl | hx
      · exact ⟨_, List.mem_cons_self .., rfl, fun slot i h => by cases h; exact ⟨rfl, rfl, rfl⟩⟩
      · rw [List.mem_singleton.1 hx]
        exact ⟨_, List.mem_cons_of_mem _ (List.mem_cons_self ..), rfl, nofun⟩
    rcases List.mem_cons.1 hn with rfl | hn
    · exact nomatch hb
    · rw [List.mem_singleton.1 hn] at hb ⊢
      cases hb
      decide +kernel
  · decide +kernel

theorem witness_cancel :
    (∀ inWindow cancel : Bool, ∃ (n : Notice) (s : State), s.power.held = false ∧ 1 ≤ n.number ∧ n.number ≤ 65535 ∧
        noticeAt n.number s = some n ∧ (∀ m ∈ s.notices.queue, m.number = n.number → m = n) ∧ n.cancel = cancel ∧
        n.addressee = .pupil 3 0 ∧ n.kind = .absent ∧ n.inWindow = inWindow) ∧
      (∃ (n : Notice) (b : BroadcastState) (s : State), s.power.held = false ∧ 1 ≤ n.number ∧ n.number ≤ 65535 ∧
        noticeAt n.number s = some n ∧ (∀ m ∈ s.notices.queue, m.number = n.number → m = n) ∧ n.cancel = false ∧
        n.addressee = .broadcast b ∧ (∀ x ∈ s.notices.window, x.key.number ≠ n.number) ∧ s.notices.queue = [n]) ∧
      ∃ (n : Notice) (s : State), s.power.held = false ∧ noticeAt n.number s = some n ∧ n.cancel = false ∧
        ∃ x ∈ s.notices.window, x.key.number = n.number :=
  ⟨fun w c => ⟨absentNotice w c, queued [absentNotice w c] [], rfl, (by decide : 1 ≤ 1), (by decide : 1 ≤ 65535), rfl,
      fun m h _ => List.mem_singleton.mp h, rfl, rfl, rfl, rfl⟩,
    ⟨generalBroadcast false, _, queued [generalBroadcast false] [], rfl, by decide, by decide, rfl,
      fun m h _ => List.mem_singleton.mp h, rfl, rfl, by decide, rfl⟩,
    ⟨generalBroadcast false, queued [generalBroadcast false] [⟨⟨65535, 3, 0⟩, 0, .awaitTake⟩], rfl, rfl, rfl,
      _, List.mem_singleton.mpr rfl, rfl⟩⟩

/-- A notice cancelled beside another broadcast that still has a send to make. -/
theorem witness_cancel_beside_another :
    ∃ (n : Notice) (b : BroadcastState) (s : State), s.power.held = false ∧ RollOk s ∧ noticeAt n.number s = some n ∧
      n.cancel = false ∧ n.addressee = .broadcast b ∧ (∀ x ∈ s.notices.window, x.key.number ≠ n.number) ∧
      (∀ m ∈ s.notices.queue, m.number = n.number → m = n) ∧
      (∃ m ∈ s.notices.queue, m ≠ n ∧ ∃ c, m.addressee = .broadcast c) ∧
      ∀ m ∈ s.notices.queue, m ≠ n → ∀ c, m.addressee = .broadcast c →
        HasSendLeft m c s ∨ ∃ x ∈ s.notices.window, x.key.number = m.number := by
  refine ⟨generalBroadcast false, _,
    queued [generalBroadcast false, { generalBroadcast false with number := 7, addressee := .broadcast (walking [(3, 1)] 2) }] [],
    rfl, marked_rollOk _, rfl, rfl, rfl, nofun, ?_, ⟨_, List.mem_cons_of_mem _ (List.mem_cons_self ..), by decide, _, rfl⟩, ?_⟩
  · intro m hm hk
    rcases List.mem_cons.1 hm with rfl | hm
    · rfl
    · rw [List.mem_singleton.1 hm] at hk
      exact absurd hk (by decide)
  · intro m hm hne c hc
    rcases List.mem_cons.1 hm with rfl | hm
    · exact absurd rfl hne
    · rw [List.mem_singleton.1 hm] at hc ⊢
      cases hc
      exact .inl ⟨rfl, rfl, .inl (by decide)⟩

/-! The gateway. -/

theorem witness_receipts_and_outcomes :
    (∃ s : State, s.power.held = false ∧ MayAnswer s ∧ Machine.keyOk ⟨65535, 2047, 2⟩ = true ∧ sendAt ⟨65535, 2047, 2⟩ s = none) ∧
      (∀ state : SendState, ∃ (x : Send) (s : State), s.power.held = false ∧ MayAnswer s ∧ Machine.keyOk ⟨1, 3, 0⟩ = true ∧
        sendAt ⟨1, 3, 0⟩ s = some x ∧ x.state = state ∧ x.sentAt = 0) ∧
      (∀ now ∈ [89999, 90000], ∃ (x : Send) (s : State), s.power.held = false ∧ sendAt ⟨1, 3, 0⟩ s = some x ∧
        x.state = .awaitOutcome ∧ s.time.running = now ∧ (x.sentAt + 90000 < nextSecond s ↔ now = 90000)) ∧
      ∀ now ∈ [199, 200], ∃ (x : Send) (s : State), s.power.held = false ∧ sendAt ⟨1, 3, 0⟩ s = some x ∧
        x.state = .awaitTake ∧ s.time.running = now ∧ (x.sentAt + 200 < nextSecond s ↔ now = 200) := by
  refine ⟨⟨clocked, rfl, (by decide : 0 < 16), by decide +kernel, rfl⟩,
    fun state => ⟨sendOne state, queued [absentNotice true false] [sendOne state], rfl, (by decide : 0 < 16), by decide +kernel,
      rfl, rfl, rfl⟩, ?_, ?_⟩
  · intro now h
    refine ⟨sendOne .awaitOutcome,
      { queued [absentNotice true false] [sendOne .awaitOutcome] with time := ⟨28800, 100, true, false, now⟩ }, rfl, rfl, rfl, rfl, ?_⟩
    simp only [List.mem_cons, List.not_mem_nil, or_false] at h
    rcases h with rfl | rfl <;> decide +kernel
  · intro now h
    refine ⟨sendOne .awaitTake,
      { queued [absentNotice true false] [sendOne .awaitTake] with time := ⟨28800, 100, true, false, now⟩ }, rfl, rfl, rfl, rfl, ?_⟩
    simp only [List.mem_cons, List.not_mem_nil, or_false] at h
    rcases h with rfl | rfl <;> decide +kernel

/-- A send of the ABSENT notice of a pupil with a mark, with or without cancel-on-result. -/
def delivered (m : Mark) (cancel : Bool) : State :=
  { queued [absentNotice true cancel] [sendOne .awaitOutcome] with roll := (marked m).roll }

theorem witness_deliveries :
    ∀ m ∈ [Mark.absentPending, .excused, .present], ∀ cancel : Bool, ∃ (x : Send) (n : Notice) (p : Pupil),
      (delivered m cancel).power.held = false ∧ MayAnswer (delivered m cancel) ∧ Machine.keyOk ⟨1, 3, 0⟩ = true ∧
        sendAt ⟨1, 3, 0⟩ (delivered m cancel) = some x ∧ noticeAt 1 (delivered m cancel) = some n ∧ n.kind = .absent ∧
        n.cancel = cancel ∧ n.addressee = .pupil 3 0 ∧ pupilAt 3 (delivered m cancel) = some p ∧ p.day.mark = m ∧
        (isArrivalMark m = true ↔ m = .present) ∧ (delivered m cancel).notices.counter ≤ 65535 :=
  fun m hm cancel =>
    ⟨sendOne .awaitOutcome, absentNotice true cancel, ⟨enrolA, { DayPart.fresh with mark := m }⟩, rfl, (by decide : 0 < 16),
      by decide +kernel, rfl, rfl, rfl, rfl, rfl, rfl, rfl, by
        simp only [List.mem_cons, List.not_mem_nil, or_false] at hm
        rcases hm with rfl | rfl | rfl <;> decide, Nat.le_refl _⟩

/-- The correction takes the number after 65,535 that no notice holds (R136, R154). -/
theorem test_correction_number :
    (after (.outcome ⟨1, 3, 0⟩ true) (delivered .present true)).notices.queue.map (fun n => (n.number, n.kind)) = [(1, .arrived)] := by
  decide +kernel

theorem witness_deadlines :
    (∃ (n : Notice) (d : SchoolTime) (s : State), s.power.held = false ∧ noticeAt n.number s = some n ∧
        n.addressee = .pupil 3 0 ∧ n.inWindow = false ∧ n.kind = .absent ∧ s.notices.deadline = some d ∧ d ≤ s.time.school) ∧
      (∃ (n : Notice) (b : BroadcastState) (d : SchoolTime) (s : State), s.power.held = false ∧ noticeAt n.number s = some n ∧
        n.addressee = .broadcast b ∧ n.kind = .general ∧ n.deadline = some d ∧ d ≤ s.time.school ∧ b.expired = false) ∧
      (∃ (n : Notice) (d : SchoolTime) (s : State), s.power.held = false ∧ noticeAt n.number s = some n ∧
        n.addressee = .pupil 3 0 ∧ n.inWindow = false ∧ n.kind = .general ∧ n.deadline = some d ∧ s.time.school < d ∧
        s.time.date ≠ n.createdDate) ∧
      ∀ t ∈ [99, 100], ∃ s : State, s.power.held = false ∧ s.notices.busyEnd = some t ∧ s.notices.quietEnd = some 28800 ∧
        28800 ≤ s.time.school ∧ (t < nextSecond s ↔ t = 99) := by
  refine ⟨⟨absentNotice false false, 28800, queued [absentNotice false false] [], rfl, rfl, rfl, rfl, rfl, rfl, Nat.le_refl _⟩,
    ⟨generalBroadcast false, _, 28800, queued [generalBroadcast false] [], rfl, rfl, rfl, rfl, rfl, Nat.le_refl _, rfl⟩,
    ⟨⟨7, .general, .pupil 3 0, 4, 99, 0, some 86399, some 15, false, false⟩, 86399,
      queued [⟨7, .general, .pupil 3 0, 4, 99, 0, some 86399, some 15, false, false⟩] [], rfl, rfl, rfl, rfl, rfl, rfl,
      (by decide : 28800 < 86399), (by decide : 100 ≠ 99)⟩, ?_⟩
  intro t h
  refine ⟨{ opened with notices := { opened.notices with busyEnd := some t, quietEnd := some 28800 } }, rfl, rfl, rfl, Nat.le_refl _, ?_⟩
  simp only [List.mem_cons, List.not_mem_nil, or_false] at h
  rcases h with rfl | rfl <;> decide +kernel

/-- The link DOWN with its next ping due. -/
def linkDown : State :=
  { clocked with gateway := { clocked.gateway with link := .down, timeouts := 3, pingNumber := 255, nextPing := some 99 } }

theorem witness_link :
    (linkDown.power.held = false ∧ linkDown.gateway.link = .down ∧ linkDown.gateway.nextPing = some 99 ∧ 99 < nextSecond linkDown ∧
        MayAnswer linkDown ∧ 255 < 256 ∧ linkDown.gateway.pingNumber = 255) ∧
      clocked.gateway.link = .up :=
  ⟨⟨rfl, rfl, rfl, by decide, (by decide : 0 < 16), by decide, rfl⟩, rfl⟩

/-- The bytes of an inbound frame after its start byte. -/
def inbound (body : Text) : Text := withCheck (BitVec.ofNat 8 (body.length / 2) :: body)

/-- Frames as bytes: each kind of record, as Formats and Pins writes it. -/
theorem witness_frames :
    (∃ (t : Text) (b : Byte), t ++ [b] = inbound [0x11, 1, 0, 3, 0, 0, 1, 0]) ∧
      goodCheck (inbound [0x11, 1, 0, 3, 0, 0, 1, 0]) = true ∧
      (inbound [0x11, 1, 0, 3, 0, 0, 1, 0]).length = 2 * ((inbound [0x11, 1, 0, 3, 0, 0, 1, 0]).getD 0 0).toNat + 3 ∧
      inboundOf [0x11, 1, 0, 3, 0, 0, 1, 0] = some (.receipt ⟨1, 3, 0⟩ .take) ∧
      inboundOf [0x12, 1, 0, 3, 0, 0, 2, 0] = some (.outcome ⟨1, 3, 0⟩ false) ∧ inboundOf [0x13, 255] = some (.pong 255) ∧
      inboundOf [0x14, 31, 0, 21, 0, 0, 1, 2, 0, 0, 0, 0] = some (.reply ⟨31, some 21, .ill 2, []⟩) ∧ inboundOf [0x15, 0] = none :=
  ⟨⟨_, _, (List.dropLast_append_getLast (by decide +kernel : inbound [0x11, 1, 0, 3, 0, 0, 1, 0] ≠ []))⟩, by decide +kernel,
    by decide +kernel, by decide +kernel, by decide +kernel, by decide +kernel, by decide +kernel, by decide +kernel⟩

/-- Records in and out of range, and a Port with sixteen ANSWER frames waiting (R178, R210). -/
theorem witness_contents_test :
    Inbound.InRange (.receipt ⟨65535, 2047, 2⟩ .take) ∧ ¬Inbound.InRange (.receipt ⟨0, 2047, 2⟩ .take) ∧
      ¬Inbound.InRange (.outcome ⟨1, 2048, 0⟩ true) ∧ ¬Inbound.InRange (.outcome ⟨1, 0, 3⟩ true) ∧ Inbound.InRange (.pong 255) ∧
      ¬Inbound.InRange (.pong 256) ∧ Inbound.InRange (.reply ⟨65535, some 999999, .ill 9, List.replicate 320 0⟩) ∧
      ¬Inbound.InRange (.reply ⟨1, none, .ill 10, []⟩) ∧ ¬Inbound.InRange (.reply ⟨1, none, .appointment (some 86400), []⟩) ∧
      ∀ n ∈ [15, 16], let s := { clocked with
        gateway := { clocked.gateway with outbound := .ping 1 :: List.replicate n (.answer (.pong 1) .stale) } }
        s.power.held = false ∧ (16 ≤ (s.gateway.outbound.countP fun f => f.isAnswer) ↔ n = 16) ∧
          (after (.pong 5) s).gateway.outbound.length = 17 ∧ ((after (.pong 5) s).gateway.discarded = 1 ↔ n = 16) := by
  refine ⟨⟨by decide, by decide, by decide, by decide⟩, fun h => absurd h.1 (by decide), fun h => absurd h.2.2.1 (by decide),
    fun h => absurd h.2.2.2 (by decide), (by decide : 255 < 256), (by decide : ¬256 < 256),
    ⟨by decide, by decide, fun n h => by cases h; decide, by decide +kernel, fun d h => by cases h; decide, nofun⟩,
    fun h => absurd (h.2.2.2.2.1 10 rfl).2 (by decide), fun h => absurd (h.2.2.2.2.2 86400 rfl) (by decide), ?_⟩
  decide +kernel

/-- A parent's reply for slot 3. -/
def parentReply (reference : Option Nat) (code : ReplyCode) : ParentReply := ⟨31, reference, code, []⟩

theorem witness_replies :
    (∃ (r : ParentReply) (s : State), s.power.held = false ∧ RollOk s ∧ MayAnswer s ∧ inboundOk (.reply r) = true ∧
        rangeOffered r.code s ≠ none ∧ (matchSet r s).map Prod.fst = [3] ∧ storeHolds .away s = true) ∧
      (∃ (r : ParentReply) (s : State), s.power.held = false ∧ RollOk s ∧ MayAnswer s ∧ inboundOk (.reply r) = true ∧
        rangeOffered r.code s = none ∧ inboxReason r s ≠ none ∧ 32 ≤ s.gateway.inbox.length) ∧
      (∀ code ∈ [ReplyCode.ill 1, .appointment none, .onWay, .text], ∃ s : State, s.power.held = false ∧ RollOk s ∧ MayAnswer s ∧
        inboundOk (.reply (parentReply (some 21) code)) = true ∧ rangeOffered code s = none ∧ s.gateway.inbox.length < 32 ∧
        s.attention.length = 14 ∧ s.day.state = .open_) ∧
      (∀ days ∈ [2, 9], rangeOffered (.ill days) (marked .absentPending) = some (101, 100 + days - 1) ∧
        storeHolds .away (marked .absentPending) = false ∧
        (matchSet (parentReply none (.ill days)) (marked .absentPending)).map Prod.fst = [3]) ∧
      (sweepingOpen 4).power.held = false ∧ RollOk (sweepingOpen 4) ∧ (sweepingOpen 4).day.state = .opening ∧
        rangeOffered (.ill 2) (sweepingOpen 4) = some (100, 101) ∧ 3 < (sweepingOpen 4).day.cursor ∧
        (matchSet (parentReply (some 21) (.ill 2)) (sweepingOpen 4)).map Prod.fst = [3] ∧
      ∃ s : State, (∀ e ∈ s.roll.away, e.slot = 3 → 101 < e.first ∨ e.last < 100) ∧ 256 ≤ s.roll.away.length ∧
        (matchSet (parentReply (some 21) (.ill 2)) s).map Prod.fst = [3] := by
  refine ⟨⟨parentReply none (.ill 2), { marked .unseen with store := ⟨.none_, [], some saving, none⟩ }, rfl, rollOk_of (by decide +kernel),
      (by decide : 0 < 16), by decide +kernel, by decide +kernel, by decide +kernel, by decide +kernel⟩,
    ⟨parentReply none .text,
      { marked .unseen with
        gateway :=
          { clocked.gateway with inbox := List.replicate 32 ⟨1, 0, 0, 1, none, [], 0, .text, .text, [], false⟩ } },
      rfl, rollOk_of (by decide +kernel), (by decide : 0 < 16), by decide +kernel, rfl, by decide +kernel, by decide +kernel⟩, ?_,
    by decide +kernel, rfl, sweepingOpen_rollOk 4, rfl, by decide +kernel, by decide, by decide +kernel, ?_⟩
  case refine_2 =>
    exact
      ⟨{ sweepingOpen 4 with
          roll := { (sweepingOpen 4).roll with away := List.replicate 256 ⟨4, 100, 100, .ill, .parent⟩ } },
        by decide +kernel, by decide +kernel, by decide +kernel⟩
  intro code h
  refine ⟨marked .unseen, rfl, marked_rollOk _, (by decide : 0 < 16), ?_, ?_, by decide, rfl, rfl⟩ <;>
    (simp only [List.mem_cons, List.not_mem_nil, or_false] at h; rcases h with rfl | rfl | rfl | rfl <;> decide +kernel)

/-- The range of an ILL reply, cut at 2099-12-31, from today while the day is not OPEN, and none past the last date (R185). -/
theorem test_ranges_offered :
    let on := fun (d : Date) (s : State) => { s with time := { s.time with date := d }, day := { s.day with date := some d } }
    rangeOffered (.ill 1) opened = none ∧ rangeOffered (.ill 2) (on 36523 opened) = some (36524, 36524) ∧
      rangeOffered (.ill 9) (on 36524 opened) = none ∧ rangeOffered (.ill 9) (on 36524 clocked) = some (36524, 36524) ∧
      rangeOffered (.ill 2) { opened with time := { opened.time with valid := false } } = none := by
  decide +kernel

theorem witness_inbox :
    ∃ (m : InboxMessage) (s : State), s.power.held = false ∧ 1 ≤ m.number ∧ m.number ≤ 65535 ∧
      s.gateway.inbox.find? (·.number = m.number) = some m :=
  ⟨⟨65535, 0, 0, 1, none, [], 0, .text, .text, [], false⟩,
    { clocked with gateway := { clocked.gateway with inbox := [⟨65535, 0, 0, 1, none, [], 0, .text, .text, [], false⟩] } }, rfl,
    by decide, by decide, by decide +kernel⟩

/-! Attention, the store and the Office Port. -/

theorem witness_attention :
    State.reset.attention.length = 14 ∧ (attnActive State.reset = true) ∧
      (clocked.settings.levels.length = 14 ∧ clocked.settings.enables.length = 14 ∧ storeHolds .settings clocked = false) ∧
      (∃ s : State, s.power.held = false ∧ storeHolds .settings s = true) :=
  ⟨rfl, by decide +kernel, by decide +kernel,
    ⟨{ clocked with store := ⟨.none_, [], some ⟨.save, [], [.settings], .none_, 0⟩, none⟩ }, rfl, rfl⟩⟩

/-- The top source: STORE before CLOCK at reset, and none where no flag is set (R196, R197). -/
theorem witness_top_source :
    TopSource State.reset (some 0) ∧ SourcePending State.reset 1 ∧
      TopSource { clocked with attention := List.replicate 14 .clear } none := by
  refine ⟨⟨⟨by decide, by decide +kernel, by decide +kernel⟩, fun m h => ?_⟩, ⟨by decide, by decide +kernel, by decide +kernel⟩,
    fun n h => ?_⟩
  · obtain ⟨hm, hf, _⟩ := h
    have : m = 0 ∨ m = 1 := by
      have : ∀ m < 14, (sourceAt m State.reset).flag = true → m = 0 ∨ m = 1 := by decide +kernel
      exact this m hm hf
    rcases this with rfl | rfl <;> exact .inr ⟨rfl, by decide⟩
  · have : ∀ n < 14, (sourceAt n { clocked with attention := List.replicate 14 .clear }).flag = false := by decide +kernel
    rw [SourcePending, this n h.1] at h
    exact nomatch h.2.1

theorem witness_store :
    (∃ (named l : List Area), AreasArg.list (named.map some) ≠ .all ∧ named ≠ [] ∧ named.Nodup ∧
        l = allAreas.filter (· ∈ named) ∧ Area.limits ∈ l ∧ Area.away ∈ l) ∧
      (clocked.power.held = false ∧ clocked.store.operation = none ∧ clocked.day.state = .closed) ∧
      (opened.store.operation = none ∧ opened.day.state ≠ .closed) ∧
      (∃ (o : StoreOperation) (a : Area) (rest : List Area) (s : State), s.power.held = false ∧ s.store.operation = some o ∧
        o.rest = a :: rest) ∧
      ∀ a : Area, (workingCopies clocked).bytes a ≠ none ∧ clocked.store.fingerprints.length = 9 :=
  ⟨⟨[.limits, .away], [.limits, .away], by nofun, by decide, by decide, by decide, by decide, by decide⟩, ⟨rfl, rfl, rfl⟩,
    ⟨rfl, by decide⟩, ⟨saving, .texts, [.away], { clocked with store := ⟨.none_, [], some saving, none⟩ }, rfl, rfl, rfl⟩,
    fun a => ⟨by cases a <;> nofun, rfl⟩⟩

/-- A state whose last DEFAULTS ALL was abandoned in its first area, with another under way. -/
def savingAgain : State :=
  { clocked with
    store :=
      ⟨.none_, [], some ⟨.defaults, [], allAreas, .none_, 28800⟩,
        some ⟨.defaults, (.settings, .abandoned) :: allAreas.tail.map (fun a => (a, .notReached)), 28700, 28750⟩⟩ }

/-- A SAVE's copy of ROSTER with slot 3 as it is, of another card, or gone. -/
def rosterCopy (l : List (Slot × Enrolment)) : AreaCopies := { AreaCopies.none_ with roster := some l }

theorem witness_install :
    (∀ l ∈ [[], [(3, enrolA)], [(3, { enrolA with card := 12 })], [(4, enrolA)]],
      (rosterCopy l).roster = some l ∧ (pupilAt 3 (marked .absentPending)).isSome = true ∧
        (rosterGone l (marked .absentPending) 3 = true ↔ l ≠ [(3, enrolA)])) ∧
      (∃ (c : AreaCopies) (t : Terminal) (p : PollRound) (s : State), c.terminals = some [⟨7, plainIdentity, 8⟩] ∧
        s.line.job = .pollServe p ∧ s.line.leftEntrance = none ∧ terminalAt p.entry s = some t) ∧
      (clocked.line.job = .idle ∧ clocked.line.phase = .free) ∧
      (∃ c : AreaCopies, c = defaultCopies ∧ c.settings.isSome = true ∧ c.limits.isSome = true ∧ c.plans.isSome = true ∧
        c.patterns.isSome = true ∧ c.calendar.isSome = true ∧ c.texts.isSome = true ∧ c.away.isSome = true) ∧
      ∃ r, savingAgain.store.lastOperation = some r ∧ r.start < 86400 ∧ r.finish < 86400 :=
  ⟨by decide +kernel,
    ⟨{ AreaCopies.none_ with terminals := some [⟨7, plainIdentity, 8⟩] }, gate .active, roundSeven,
      lined (gate .active) 0 (.pollServe roundSeven) .header, rfl, rfl, rfl, rfl⟩,
    ⟨rfl, rfl⟩, ⟨defaultCopies, rfl, rfl, rfl, rfl, rfl, rfl, rfl, rfl⟩, _, rfl, by decide, by decide⟩

theorem witness_set :
    (clocked.power.held = false ∧ clocked.settings.zoneGroup.length = 6 ∧ clocked.settings.relayPol.length = 6 ∧
        storeHolds .settings clocked = false ∧ storeHolds .limits clocked = false) ∧
      (writeSetting .dayOpen (.time 86340) clocked.settings).isSome = true ∧
      (writeSetting (.relayPol 6) (.polarity .activeLow) clocked.settings).isSome = true ∧
      (writeSetting (.quietMask (some .qb)) (.zones [1, 6]) clocked.settings).isSome = true ∧
      (writeSetting .buttonMode (.mode .gate) clocked.settings).isSome = true ∧ clocked.chime.channels.length = 4 ∧
      ([1, 6] : List Nat).Pairwise (· < ·) ∧ (writeLimit (.ceiling (some .b)) (.num 15) clocked.limits).isSome = true := by
  decide +kernel

/-- The line `A1 CLOCK*` and its check. -/
def clockLine : Text := ascii "A1 CLOCK" ++ chr '*' :: checkText (ascii "A1 CLOCK" ++ [chr '*'])

/-- The receiver with characters collected. -/
def received (t : Text) (s : State) : State := { s with office := { s.office with buffer := t } }

theorem witness_line :
    ∃ (body word : Text) (args : List Token) (i : Instr) (s : State), s.power.held = false ∧ s.office.short.length < 4 ∧
      s.office.resync = false ∧ s.office.overlong = false ∧ s.office.framing = false ∧ s.office.served = none ∧
      s.office.buffer = body ++ chr '*' :: checkText (body ++ [chr '*']) ∧ lexLine body = some (word, args) ∧
      parseRequest false word args = .request i :=
  ⟨ascii "A1 CLOCK", ascii "CLOCK", [], .clock, received clockLine clocked, rfl, by decide, rfl, rfl, rfl, rfl, rfl,
    by decide +kernel, rfl⟩

/-- The request line that the spec shows, character by character (Formats and Pins), and the same with another check. -/
theorem test_request_line :
    let body := ascii "K4 MARK 45 EXCUSED ILL"
    let args := [Token.plain (ascii "45"), .plain (ascii "EXCUSED"), .plain (ascii "ILL")]
    checkedBody (body ++ chr '*' :: FourHex (check16 (body ++ [chr '*']))) = some body ∧ checkedBody (body ++ ascii "*0000") = none ∧
      lexLine body = some (ascii "MARK", args) ∧
      parseRequest false (ascii "MARK") args = .request (.mark ⟨45, some .excused, some (some .ill), none⟩) := by
  decide +kernel

theorem witness_lines :
    LineWritten (ascii "K4 MARK 45 EXCUSED ILL") (ascii "MARK") [.plain (ascii "45"), .plain (ascii "EXCUSED"), .plain (ascii "ILL")] ∧
      LineWritten (ascii "a? TEXT 0 \"Snow * closure\"") (ascii "TEXT") [.plain (ascii "0"), .quoted (ascii "Snow * closure")] ∧
      RequestWhole (.entryPut goodEntry) ∧ RequestWhole (.setSetting (.zoneGroup 6) (some (.group .b)) true) ∧
      RequestWhole (.getSetting (.setting (.quietMask (some .qb))) false) ∧ RequestWhole .clock ∧
      (∀ i ∈ [.setSetting .unknown (some (.num 1)) true, .setSetting (.zoneGroup 0) (some (.group .a)) true, .setSetting .lead none true,
        .getSetting (.setting (.ceiling none)) true], clocked.power.held = false ∧ ¬RequestWhole i) :=
  ⟨(lexLine_iff _ _ _).1 (by decide +kernel), (lexLine_iff _ _ _).1 (by decide +kernel),
    ⟨rfl, rfl, rfl, rfl⟩, ⟨(by decide : 0 < 6), rfl⟩, rfl, trivial, by
      simp only [List.mem_cons, List.not_mem_nil, or_false]
      rintro i (rfl | rfl | rfl | rfl)
      · exact ⟨rfl, fun h => h.1⟩
      · exact ⟨rfl, fun h => Nat.lt_irrefl 0 h.1⟩
      · exact ⟨rfl, fun h => Bool.false_ne_true h.2⟩
      · exact ⟨rfl, fun h => Bool.false_ne_true h⟩⟩

/-- The line of the reply that the spec shows, character by character (Formats and Pins). -/
theorem test_reply_line :
    replyLine ⟨ascii "K4", .ok [.word "EXCUSED"]⟩ = ascii "K4 OK EXCUSED*" ++ FourHex (check16 (ascii "K4 OK EXCUSED*")) ++ [0x0D] ∧
      FourHex 0xD64E = ascii "D64E" ∧ replyLine ⟨ascii "??", .fault .check⟩ = ascii "?? FAULT CHECK*" ++
        FourHex (check16 (ascii "?? FAULT CHECK*")) ++ [0x0D] := by
  decide +kernel

/-- Values at the ends of their ranges, as a reply line writes them (R209). -/
theorem test_values_written :
    ([(.num 0, "0"), (.num 65535, "65535"), (.time 86399, "23:59:59"), (.minutes 0, "00:00"), (.date 0, "2000-01-01"),
      (.date 36524, "2099-12-31"), (.date 59, "2000-02-29"), (.set [], "NONE"), (.set [1, 2, 3, 6], "1-3,6"), (.set [0, 2], "0,2"),
      (.contacts [⟨3021, .text⟩, ⟨3022, .voice⟩], "3021:TEXT,3022:VOICE"), (.step (.tone 13 50 10), "TONE:13:50:10"),
      (.step (.loop 0 15), "LOOP:0:15"), (.step .stop, "END"), (.quoted (ascii "A 1"), "\"A 1\""), (.hex [0x0F, 0xA0], "0FA0"),
      (.identity 0x0100000000000A, "0A000000000001"), (.named "COHORT" (.num 3), "COHORT=3")] : List (Item × String)).all
      (fun e => itemText e.1 = ascii e.2) = true ∧ dateOf 2099 12 31 < dateCount ∧ dateOf 2100 1 1 = dateCount := by
  decide +kernel


theorem witness_office_port :
    (∀ n ∈ [248, 249], ∃ s : State, s.power.held = false ∧ s.office.short.length < 4 ∧ s.office.resync = false ∧
        s.office.overlong = false ∧ s.office.buffer.length = n ∧ (s.office.buffer.length < 249 ↔ n = 248)) ∧
      (∃ s : State, s.power.held = false ∧ 4 ≤ s.office.short.length) ∧
      checkedBody [] = none ∧ checkedBody clockLine = some (ascii "A1 CLOCK") ∧ checkedBody (ascii "A1 CLOCK") = none ∧
      (∃ s : State, s.power.held = false ∧ s.office.output = .served ∧ s.office.restart = false ∧
        s.office.waiting = some (ascii "A1 CLOCK")) ∧
      (∃ s : State, s.power.held = false ∧ s.office.output = .served ∧ s.office.restart = false ∧
        s.office.waiting = some (ascii "A1 CLOCK") ∧ s.office.short ≠ []) ∧
      (lexLine (ascii "A1 CLOCK 1 ") = none ∧ (lexLine (ascii "A1 TEA")).map (fun r => parseRequest false r.1 r.2) = some .unknown ∧
        (lexLine (ascii "A1 QUIET X")).map (fun r => parseRequest false r.1 r.2) = some .bad ∧
        (lexLine (ascii "A1 CLOCK")).map (fun r => parseRequest false r.1 r.2) = some (.request .clock)) ∧
      ∃ s : State, s.power.held = false ∧ s.office.output = .short ∧ 4 ≤ s.office.short.length :=
  ⟨fun n h => ⟨received (List.replicate n 0x41) clocked, rfl, (by decide : 0 < 4), rfl, rfl, List.length_replicate, by
      simp only [List.mem_cons, List.not_mem_nil, or_false] at h
      rcases h with rfl | rfl <;> decide +kernel⟩,
    ⟨{ clocked with office := { clocked.office with short := List.replicate 4 ⟨[], .fault .check⟩ } }, rfl, by decide⟩,
    by decide +kernel, by decide +kernel, by decide +kernel,
    ⟨{ clocked with office := { clocked.office with output := .served, waiting := some (ascii "A1 CLOCK") } }, rfl, rfl, rfl, rfl⟩,
    ⟨{ clocked with office :=
        { clocked.office with output := .served, waiting := some (ascii "A1 CLOCK"), short := [⟨[], .fault .check⟩] } },
      rfl, rfl, rfl, rfl, by decide⟩,
    by decide +kernel,
    ⟨{ clocked with office := { clocked.office with output := .short, short := List.replicate 4 ⟨[], .fault .check⟩ } }, rfl, rfl,
      by decide⟩⟩

/-! ### Refusals: a command, a state, and the reason its checks give. -/

/-- A store operation over every area under way. -/
def storing (kind : StoreKind) (s : State) : State :=
  { s with store := { s.store with operation := some ⟨kind, [], allAreas, .none_, 28700⟩ } }

/-- Two pupils, in slots 3 and 4. -/
def pair : State :=
  withRoster [(3, ⟨enrolA, .fresh⟩), (4, ⟨{ enrolA with card := 12, reference := 22 }, .fresh⟩)] opened

/-- The reason with which a command is refused. -/
def reasonOf (c : Instr) (s : State) : Option Reason :=
  match (after c s).office.result with
  | some (.refused r) => some r
  | _ => none

theorem test_refusals_of_the_roll :
    ([(.enrol goodEnrol, storing .save pair, .storeBusy), (.enrol { goodEnrol with card := 4294967295 }, pair, .badValue),
      (.enrol { goodEnrol with slot := some 3 }, pair, .wrongState), (.enrol { goodEnrol with card := 12 }, pair, .duplicate),
      (.enrol { goodEnrol with reference := 21 }, pair, .duplicate), (.amend { goodAmend with slot := 5 }, pair, .noSuch),
      (.amend { goodAmend with slot := 2048 }, pair, .badValue), (.amend { goodAmend with slot := 3, form := some 64 }, pair, .badValue),
      (.amend { goodAmend with slot := 3, card := some 12 }, pair, .duplicate), (.withdraw 2048, storing .save pair, .badValue),
      (.withdraw 5, storing .save pair, .storeBusy), (.withdraw 5, pair, .noSuch), (.pupil 2048, pair, .badValue),
      (.find (.card 0), pair, .badValue), (.find (.card 13), pair, .noSuch), (.find (.reference 1000000), pair, .badValue),
      (.find (.reference 20), pair, .noSuch), (.find (.contact 1 2048), pair, .badValue), (.marks ⟨8, none, none, none, 0⟩, pair, .badValue),
      (.mark { excuseArgs with slot := 2048 }, clocked, .badValue), (.mark excuseArgs, clocked, .dayNotOpen),
      (.mark { excuseArgs with reason := none }, pair, .badValue), (.mark { excuseArgs with slot := 5 }, pair, .noSuch),
      (.mark ⟨3, some .signedOut, none, none⟩, pair, .wrongState), (.census (some 8) 0, pair, .badValue),
      (.away 5 100 100 (some .ill), { pair with time := State.reset.time }, .clockInvalid), (.away 3 100 99 (some .ill), pair, .badValue),
      (.away 3 100 101 (some .closure), pair, .badValue), (.away 5 100 100 (some .ill), pair, .noSuch),
      (.away 3 100 101 (some .ill), { pair with roll := { pair.roll with away := [⟨3, 101, 101, .ill, .parent⟩] } }, .overlap),
      (.away 3 100 101 (some .ill),
        { pair with roll := { pair.roll with away := List.replicate 256 ⟨4, 101, 101, .ill, .parent⟩ } }, .full),
      (.unaway 3 36525, pair, .badValue), (.unaway 3 100, pair, .noSuch), (.aways (some 2048) none, pair, .badValue),
      (.arrive 3 none, clocked, .dayNotOpen), (.arrive 2048 none, pair, .badValue), (.arrive 3 (some 28801), pair, .badValue),
      (.arrive 3 (some 17999), pair, .badValue), (.arrive 5 (some 18000), pair, .noSuch)] : List (Instr × State × Reason)).all
      (fun e => reasonOf e.1 e.2.1 = some e.2.2) = true := by
  decide +kernel

theorem test_refusals_of_the_day :
    ([(.setClock 86400 none, clocked, .badValue), (.setClock 0 (some 36525), clocked, .badValue), (.setClock 0 none, State.reset, .badValue),
      (.datePut 99 .closed, clocked, .badValue), (.datePut 100 (.school 4), clocked, .badValue),
      (.datePut 36525 .closed, storing .save clocked, .storeBusy),
      (.datePut 200 .closed, { clocked with day := { clocked.day with calendar := (List.range' 100 64).map fun d => (d, .closed) } },
        .full),
      (.dateDrop 36525, storing .save clocked, .badValue), (.dateDrop 100, clocked, .noSuch), (.dates (some 36525), clocked, .badValue),
      (.openDay none, State.reset, .clockInvalid), (.openDay (some 4), opened, .wrongState), (.openDay (some 4), clocked, .badValue),
      (.openDay none, storing .load clocked, .storeBusy), (.openDay none, clocked, .badValue), (.closeDay, clocked, .wrongState),
      (.closure 16, clocked, .dayNotOpen), (.closure 16, opened, .badValue), (.closure 15, opened, .noSuch),
      (.closure 15, texted { opened with day := { opened.day with closureFlag := true } }, .wrongState),
      (.closure 15,
        texted
          { opened with
            notices := { opened.notices with queue := List.replicate 128 ⟨1, .absent, .pupil 3 0, 5, 100, 0, none, none, true, false⟩ } },
        .full),
      (.entryPut { goodEntry with priority := some 16 }, clocked, .badValue), (.entryPut { goodEntry with grace := some 31 }, clocked, .badValue),
      (.entryPut { goodEntry with priority := some 12 }, clocked, .notAllowed),
      (.entryPut goodEntry,
        { clocked with plan := { clocked.plan with banks := List.replicate 4 ⟨[], .normal, List.replicate 96 ⟨0, .dayClose, none⟩⟩ } },
        .full),
      (.entryDrop 4 0, clocked, .badValue), (.entryDrop 3 2, banked, .noSuch), (.bankClear 4, clocked, .badValue),
      (.bankClear 4, storing .defaults clocked, .storeBusy), (.header 3 (some (ascii "A_B", some .normal)), clocked, .badValue),
      (.bank 0 96, clocked, .badValue), (.adopt 0, clocked, .dayNotOpen), (.adopt 4, opened, .badValue),
      (.adopt 3, { opened with day := { opened.day with closureFlag := true } }, .wrongState), (.today 96, clocked, .badValue)] :
      List (Instr × State × Reason)).all (fun e => reasonOf e.1 e.2.1 = some e.2.2) = true := by
  decide +kernel

theorem test_refusals_of_bells_and_line :
    ([(.patternPut 32 none, clocked, .badValue), (.patternPut 0 (some []), clocked, .badValue),
      (.patternPut 0 (some (List.replicate 25 .stop)), clocked, .badValue), (.patternPut 0 (some [.loop 0 1]), clocked, .badValue),
      (.patternPut 0 (some [.stop, .loop 0 1, .loop 1 1]), clocked, .badValue), (.patternPut 32 none, storing .save clocked, .storeBusy),
      (.pattern 32, clocked, .badValue), (.volume (some .a) (some 16), storing .save clocked, .badValue),
      (.volume (some .a) (some 15), storing .save clocked, .storeBusy), (.mute (some ([7], some true)), clocked, .badValue),
      (.mute (some ([1], none)), clocked, .badValue), (.play (.request 0 [] 12), clocked, .badValue),
      (.play (.request 1 [1] 12), clocked, .notAllowed), (.play (.request 1 [1] 11), clocked, .noSuch),
      (.hush (.channel 4), clocked, .badValue), (.hush (.channel 3), clocked, .wrongState), (.hush .other, clocked, .badValue),
      (.seekAll, lined (gate .active) 0 (.enumeration (.start none)) .windows, .wrongState),
      (.admitTerminal 1 0, clocked, .badValue), (.admitTerminal plainIdentity 9, clocked, .badValue),
      (.admitTerminal plainIdentity 9, storing .save clocked, .storeBusy), (.retire 8, clocked, .badValue), (.retire 7, clocked, .noSuch)] :
      List (Instr × State × Reason)).all (fun e => reasonOf e.1 e.2.1 = some e.2.2) = true := by
  decide +kernel

theorem test_refusals_of_notices :
    ([(.classTable none none, clocked, .badValue), (.classTable none (some (1, 1, 1)), storing .load clocked, .storeBusy),
      (.classTable (some .normal) (some (0, 0, 16)), clocked, .badValue), (.hold (some none), clocked, .badValue),
      (.quiet 241, State.reset, .clockInvalid), (.quiet 241, clocked, .badValue), (.cancel 0, clocked, .badValue),
      (.cancel 65535, clocked, .noSuch), (.cancel 1, queued [absentNotice true true] [], .wrongState), (.text 16 .read, clocked, .badValue),
      (.text 15 (.write []), clocked, .badValue), (.text 16 .empty, storing .save clocked, .storeBusy),
      (.text 15 .empty, queued [generalBroadcast false] [], .wrongState), (.post ⟨3, 15, 15, 0, none⟩, clocked, .badValue),
      (.post ⟨3, 14, 15, 3, none⟩, clocked, .badValue), (.post ⟨3, 14, 15, 0, some 86399⟩, State.reset, .clockInvalid),
      (.post ⟨3, 14, 15, 0, some 28800⟩, clocked, .badValue), (.post ⟨5, 14, 15, 0, none⟩, queued [] [], .noSuch),
      (.post ⟨3, 14, 15, 2, none⟩, queued [] [], .noSuch), (.post ⟨3, 14, 14, 0, none⟩, queued [] [], .noSuch),
      (.post ⟨3, 14, 15, 0, none⟩, queued (List.replicate 128 (absentNotice false false)) [], .full),
      (.broadcast ⟨[], some .all, 1, 15, none⟩, clocked, .badValue), (.broadcast ⟨[8], some .all, 1, 15, none⟩, clocked, .badValue),
      (.broadcast ⟨[7], some .all, 1, 15, none⟩, clocked, .noSuch), (.notices (some none) none 1, clocked, .badValue),
      (.notices none none 0, clocked, .badValue)] :
      List (Instr × State × Reason)).all (fun e => reasonOf e.1 e.2.1 = some e.2.2) = true := by
  decide +kernel

theorem test_refusals_of_the_rest :
    ([(.inbox (.summary (some 0)), clocked, .badValue), (.inbox (.text 1 4), clocked, .noSuch), (.inbox (.text 0 0), clocked, .badValue),
      (.discard (.number 65536), clocked, .badValue), (.discard (.number 65535), clocked, .noSuch), (.status (some 14), clocked, .badValue),
      (.ack 14 none, clocked, .badValue), (.ack 0 (some 256), clocked, .badValue), (.ack 2 (some 1), clocked, .wrongState),
      (.level 14 none, clocked, .badValue), (.level 0 (some (7, some true)), clocked, .notAllowed),
      (.level 0 (some (8, some true)), clocked, .badValue), (.level 14 (some (8, none)), storing .save clocked, .storeBusy),
      (.floor (some 8), clocked, .badValue), (.floor (some 8), storing .save clocked, .storeBusy), (.save .all, storing .save clocked, .storeBusy),
      (.save (.list []), clocked, .badValue), (.save (.list [some .away, some .away]), clocked, .badValue),
      (.load (.list [none]) true, opened, .badValue), (.load (.list [some .away]) true, opened, .dayOpen), (.defaults .all false, opened, .dayOpen),
      (.defaults .all false, clocked, .locked), (.setSetting .unknown none true, clocked, .noSuch),
      (.setSetting (.zoneGroup 7) none true, storing .save clocked, .badValue), (.setSetting .override none false, storing .save clocked, .storeBusy),
      (.setSetting .lead (some (.num 11)) true, clocked, .badValue), (.setSetting .dayOpen (some (.time 59)) true, clocked, .badValue),
      (.setSetting (.ceiling (some .a)) (some (.num 16)) false, clocked, .badValue),
      (.setSetting (.ceiling (some .a)) (some (.num 15)) false, clocked, .locked), (.getSetting (.setting .unknown) true, clocked, .noSuch),
      (.getSetting (.setting (.wakePol none)) true, clocked, .badValue)] :
      List (Instr × State × Reason)).all (fun e => reasonOf e.1 e.2.1 = some e.2.2) = true := by
  decide +kernel

/-- The checks themselves, of a command of each family: the reason is that of the first that holds, and a request may pass them all. -/
theorem witness_checks :
    (checksOf (.withdraw 5) pair).Give .noSuch ∧ (checksOf (.unaway 3 100) pair).Give .noSuch ∧
      (checksOf (.arrive 3 none) clocked).Give .dayNotOpen ∧ (checksOf (.openDay (some 4)) clocked).Give .badValue ∧
      (checksOf (.bankClear 4) (storing .defaults clocked)).Give .storeBusy ∧ (checksOf (.entryDrop 3 2) banked).Give .noSuch ∧
      (checksOf (.play (.request 1 [1] 12)) clocked).Give .notAllowed ∧ (checksOf (.hush (.channel 3)) clocked).Give .wrongState ∧
      (checksOf (.retire 7) clocked).Give .noSuch ∧ (checksOf (.quiet 241) clocked).Give .badValue ∧
      (checksOf (.discard (.number 65535)) clocked).Give .noSuch ∧ (checksOf (.ack 2 (some 1)) clocked).Give .wrongState ∧
      (checksOf (.save .all) (storing .save clocked)).Give .storeBusy ∧
      (checksOf (.setSetting .unknown none true) clocked).Give .noSuch ∧ Passes (.withdraw 3) pair ∧ Passes (.hush .all) clocked ∧
      Passes (.quiet 240) clocked :=
  ⟨.inr ⟨by decide, .inr ⟨by decide, .inl ⟨by decide +kernel, rfl⟩⟩⟩, .inr ⟨by decide, .inr ⟨by decide, .inl ⟨by decide, rfl⟩⟩⟩,
    .inl ⟨by decide, rfl⟩,
    .inr ⟨by decide, .inr ⟨by decide, .inl ⟨⟨4, rfl, by decide⟩, rfl⟩⟩⟩, .inl ⟨by decide, rfl⟩,
    .inr ⟨by decide, .inr ⟨by decide, .inl ⟨by decide, rfl⟩⟩⟩,
    .inr ⟨fun h => h.elim (by decide) fun h => h.elim (fun h => h ⟨by decide, by decide⟩) (by decide), .inl ⟨by decide, rfl⟩⟩,
    .inr ⟨by decide, .inl ⟨by decide, rfl⟩⟩, .inr ⟨by decide, .inr ⟨by decide, .inl ⟨by decide, rfl⟩⟩⟩,
    .inr ⟨by decide, .inl ⟨by decide, rfl⟩⟩, .inr ⟨by decide, .inl ⟨by decide, rfl⟩⟩,
    .inr ⟨fun h => h.elim (by decide) fun ⟨c, h, hc⟩ => absurd hc (by cases h; decide), .inl ⟨⟨1, rfl, by decide⟩, rfl⟩⟩,
    .inl ⟨by decide, rfl⟩, .inl ⟨rfl, rfl⟩,
    by simp only [Passes, checksOf, List.forall_mem_cons]; exact ⟨by decide, by decide, by decide +kernel, nofun⟩,
    nofun, by simp only [Passes, checksOf, List.forall_mem_cons]; exact ⟨by decide, by decide, nofun⟩⟩

/-! ### One step at a time, after the worked examples of the spec -/

/-- Cohort 2 registered at 08:40:00 with 5 minutes' grace and was cut at 09:00:00; now it is 09:01:00. -/
def afterCut (m : Mark) (s : State) : State :=
  withPupil { DayPart.fresh with mark := m }
    { s with
      time := { s.time with school := 32460 }
      day := { s.day with cohorts := s.day.cohorts.set 2 ⟨.cutListed, some 31200, 5, some 32400⟩ }
      notices := { s.notices with globalHold := true, queue := [absentNotice true false], window := [sendOne .awaitOutcome] } }

/-- A tap of age 180 s against ABSENT_PENDING: LATE from terminal 4, the notice in flight cancelled at its result. -/
theorem test_tap_after_the_sweep :
    let r := tapClaim 11 (tapTime 180 (afterCut .absentPending opened)) 4 (afterCut .absentPending opened)
    r.2 = .lateGoToClass ∧
      pupilAt 3 r.1 =
        some ⟨enrolA, { DayPart.fresh with mark := .late, source := some .tap, arrival := some 32280, terminal := some 4 }⟩ ∧
      r.1.notices.queue = [absentNotice true true] := by
  decide +kernel

/-- The delivered send of that notice: the asked contact position is set and the ARRIVED correction made. -/
theorem test_delivery_of_a_cancelled_notice :
    let s := { afterCut .late opened with notices := { (afterCut .late opened).notices with queue := [absentNotice true true] } }
    let t := after (.outcome ⟨1, 3, 0⟩ true) s
    t.notices.window = [] ∧ (pupilAt 3 t).map (fun p => p.day.asked) = some (some 0) ∧
      t.notices.queue.map (fun n => (n.kind, n.addressee)) = [(.arrived, .pupil 3 0)] := by
  decide +kernel

/-- The sweep's visit of a due pupil with contacts, and of one without. -/
theorem test_sweep_visits :
    ((pupilAt 3 (after .sweepVisit (sweepAt 3 false (marked .unseen)))).map fun p => p.day.mark) = some .absentPending ∧
      ((pupilAt 3
          (after .sweepVisit (sweepAt 3 false (withRoster [(3, ⟨{ enrolA with contacts := [] }, .fresh⟩)] opened)))).map
        fun p => p.day.mark) = some .absentUnreached := by
  decide +kernel

/-- A PAUSED sweep: it is RUNNING after a withdrawal that takes a WAITING notice, and PAUSED on after one that marks a notice in the
window (R145, R168). -/
theorem test_sweep_resumes :
    ∀ inWindow : Bool,
      let s := { marked .absentPending with
        notices := { opened.notices with globalHold := true, queue := [absentNotice inWindow false] }
        sweep := ⟨[⟨2, 28700, true⟩], some 9, .paused⟩ }
      (after (.arrive 3 none) s).sweep.state = if inWindow then .paused else .running := by
  decide +kernel

/-- An entry of the present second lists the cohort's sweep and rings its bell. -/
theorem test_entry_reached :
    let t := after .entryReached planned
    t.sweep = ⟨[⟨2, 28800, false⟩], some 0, .running⟩ ∧ (channelAt 0 t).state = .playing ∧
      t.plan.today.entries.map (fun e => (e.firing, e.outcome)) = [(.done, .playing), (.ahead, .none_)] := by
  decide +kernel

/-- A request of higher priority takes the channel's zones; the preempted request tails. -/
theorem test_preemption :
    let t := after (.play (.request 0 [1] 8)) (withChannel 0 (ringing .playing .office))
    (channelAt 0 t).state = .tailing ∧ (channelAt 0 t).tailEnd = some 300 ∧ (channelAt 1 t).zones = [1] ∧
      t.chime.lastOffice = some ⟨.table 0, .preempted⟩ := by
  decide +kernel

/-- The third take timeout in a row: the link falls and a PING goes out. -/
theorem test_link_falls :
    let s := { queued [absentNotice true false] [sendOne .awaitTake] with gateway := { GatewayPort.cold with timeouts := 2 } }
    let t := after (.takeTimeout ⟨1, 3, 0⟩) { s with time := { s.time with running := 200 } }
    t.gateway.link = .down ∧ t.gateway.outbound = [.ping 1] ∧ t.gateway.nextPing = some 3200 ∧ (sourceAt 9 t).count = 1 := by
  decide +kernel

/-- The characters of a line, judged at its CR: the reply being served is CLOCK's. -/
theorem test_clock_line :
    (after (.officeCharacterReceived 0x0D false) (received clockLine clocked)).office.served =
      some ⟨ascii "A1", .ok [.time 28800, .date 100, .word "MONDAY", .word "VALID", .word "OFF"]⟩ := by
  decide +kernel

/-- A waiting line taken into service as the reply before it has gone: it acts as the request it spells. -/
theorem test_waiting_line :
    let s := { clocked with office := { clocked.office with output := .served, waiting := some (ascii "A1 QUIET 5") } }
    let t := after (.replySent false) s
    t.notices.quietEnd = some 29100 ∧ t.office.served = some ⟨ascii "A1", .ok [.time 29100]⟩ ∧ t.office.waiting = none ∧
      t.office.output = .served := by
  decide +kernel

/-- What a line with a body spells. -/
def spelled (line : String) : Option Parsed := (lexLine (ascii line)).map fun r => parseRequest false r.1 r.2

/-- A missing field of ENTRYPUT is told by its owner, after STORE_BUSY (R52); an extra argument of GET STORE is told at once (R192,
R204). -/
theorem test_entryput_check_order :
    (spelled "A1 ENTRYPUT 0 08:00:00 CHIME 5" matches some (.request (.entryPut _))) = true ∧
      spelled "A1 GET STORE 1" = some .bad ∧
      (after (.entryPut { goodEntry with amiss := true })
            { clocked with store := ⟨.none_, [], some ⟨.load, [], [.plans], .none_, 0⟩, none⟩ }).office.result =
          some (.refused .storeBusy) ∧
      (after (.entryPut { goodEntry with amiss := true }) clocked).office.result = some (.refused .badValue) := by
  decide +kernel

/-- A set whose members meet is of the wrong form, also past 255 (Formats and Pins; R209). -/
theorem test_set_forms :
    formSet (ascii "1-3,6") = some [1, 2, 3, 6] ∧ formSet (ascii "250-300,260") = none ∧ formSet (ascii "3-1") = none ∧
      formSet (ascii "300-300") = some [300] := by
  decide +kernel

/-- GET STORE there shows the whole of both operations, each area with its result, in one line (R192, R205). -/
theorem test_long_store_reply :
    (after (.getSetting .store true) savingAgain).office.result =
        some
          (.ok
            (.word "DEFAULTS" :: .set [0, 1, 2, 3, 4, 5, 6, 7, 8] :: .named "RUNNING" (.word "SETTINGS") :: .word "YES" ::
              .named "LAST" (.word "DEFAULTS") :: .named "A0" (.word "ABANDONED") ::
              (["A1", "A2", "A3", "A4", "A5", "A6", "A7", "A8"].map fun a => Item.named a (.word "NOT_REACHED")).append
                [.named "START" (.time 28700), .named "END" (.time 28750)])) ∧
      fits (storeItems savingAgain) = true := by
  decide +kernel

/-- A terminal retired while the ALERT of its verdict list is out: the list still carries its entrance number (R108, R121). -/
theorem test_verdicts_of_a_retired_terminal :
    let p := { roundSeven with verdicts := [(255, .onTime)] }
    let s := after (.retire 7) (lined (gate .active) 0 (.pollServe p) (.alert .giveVerdicts))
    (after .alertAnswered s).line.sent = withCheck (pickBytes plainIdentity ++ [0x11, 1, 8, 0, 255, 1]) := by
  decide +kernel

/-- The held strike plays one STRIKE step without an end of its own until the release (R94). -/
theorem test_held_strike :
    let s := { clocked with settings := { clocked.settings with buttonMode := .follow, buttonZones := [1] } }
    let t := after .bellButtonPress s
    let c := channelAt 0 t
    (c.state, c.step, c.steps, c.stepEnd) = (.playing, some 0, [.strike 0], some .atRelease) ∧
      (channelAt 0 (after .bellButtonRelease t)).state = .tailing := by
  decide +kernel

/-- The bytes of a SEND frame: start byte, length, record, check. -/
theorem test_ping_frame : (Frame.ping 5).bytes = 0x7E :: withCheck [1, 0x02, 5] := by decide +kernel

end Sys2Proof.Tests
end

