-- ==== Sys2Proof/Proofs/Enrolments.lean ====
section
/-! SUPPORT. The enrolments of the Roster Table: which changes leave the roll alone, and which leave alone every enrolment part,
whatever they do to the day parts (R5, R8). -/

namespace Sys2Proof.Machine

/-- The enrolments a roll holds, each with its slot. -/
def RollUnit.enrolments (r : RollUnit) : Set (Slot × Enrolment) := {x | ∃ p, (x.1, p) ∈ r.roster ∧ p.enrolment = x.2}

theorem enrolments_congr {r q : RollUnit} (h : r.roster = q.roster) : r.enrolments = q.enrolments := by
  unfold RollUnit.enrolments; rw [h]

@[simp] theorem enrolments_away (r : RollUnit) (l : List AwayEntry) : ({ r with away := l } : RollUnit).enrolments = r.enrolments := rfl

/-- A record written in a slot for one of the same enrolment leaves the enrolments of the table. -/
theorem enrolment_mem_tablePut {k : Slot} {p q : Pupil} {l : List (Slot × Pupil)} (hp : tableGet k l = some p)
    (hq : q.enrolment = p.enrolment) (x : Slot × Enrolment) :
    (∃ r, (x.1, r) ∈ tablePut k q l ∧ r.enrolment = x.2) ↔ ∃ r, (x.1, r) ∈ l ∧ r.enrolment = x.2 := by
  induction l with
  | nil => simp [tableGet] at hp
  | cons e t ih =>
    obtain ⟨j, w⟩ := e
    have inside : (x.1 = k ∧ q.enrolment = x.2) → ∃ r, (x.1, r) ∈ (j, w) :: t ∧ r.enrolment = x.2 :=
      fun ⟨e1, e2⟩ => ⟨p, e1 ▸ mem_of_tableGet hp, hq ▸ e2⟩
    simp only [tablePut]
    split
    · constructor
      · rintro ⟨r, hr, e⟩
        rcases List.mem_cons.1 hr with h | h
        · cases h; exact inside ⟨rfl, e⟩
        · exact ⟨r, h, e⟩
      · rintro ⟨r, hr, e⟩
        exact ⟨r, List.mem_cons_of_mem _ hr, e⟩
    · split
      · rename_i hkj
        subst hkj
        simp only [tableGet, if_true, Option.some.injEq] at hp
        subst hp
        simp [hq, or_and_right, exists_or]
      · rename_i hkj
        simp only [tableGet, if_neg (Ne.symm hkj)] at hp
        simp only [List.mem_cons, or_and_right, exists_or, ih hp]


theorem enrolments_put {k : Slot} {p q : Pupil} {r : RollUnit} (hp : tableGet k r.roster = some p)
    (hq : q.enrolment = p.enrolment) : (r.put k q).enrolments = r.enrolments :=
  Set.ext fun x => enrolment_mem_tablePut hp hq x

theorem enrolments_remove (k : Slot) (r : RollUnit) : (r.remove k).enrolments ⊆ r.enrolments := by
  unfold RollUnit.remove
  split
  · exact fun x h => h
  · exact fun x ⟨p, hp, e⟩ => ⟨p, mem_tableDrop hp, e⟩

/-- A fold of steps that each leave a part of the state leaves that part. -/
theorem foldl_keeps {σ α β : Type} {g : σ → β} {f : σ → α → σ} (h : ∀ s x, g (f s x) = g s) (l : List α) (s : σ) :
    g (l.foldl f s) = g s := by
  induction l generalizing s with
  | nil => rfl
  | cons x t ih => exact (ih _).trans (h s x)

/-! ### Claims and the Notice Dispatcher -/

@[simp] theorem setQueue_roll (q : List Notice) (s : State) : (setQueue q s).roll = s.roll := (setQueue_parts q s).2.2.1
@[simp] theorem withdrawWhere_roll (p : Notice → Bool) (s : State) : (withdrawWhere p s).roll = s.roll := setQueue_roll _ s
@[simp] theorem removeNotice_roll (n : Nat) (s : State) : (removeNotice n s).roll = s.roll := setQueue_roll _ s
@[simp] theorem addNotice_roll (kind : NoticeKind) (a : Addressee) (c : Nat) (d : Option SchoolTime) (x : Option Nat) (s : State) :
    (addNotice kind a c d x s).roll = s.roll := rfl
@[simp] theorem updateBroadcast_roll (n : Nat) (f : BroadcastState → BroadcastState) (s : State) :
    (updateBroadcast n f s).roll = s.roll := rfl
@[simp] theorem issueSend_roll (n : Notice) (k : Slot) (i : Nat) (p : Pupil) (c : Contact) (s : State) :
    (issueSend n k i p c s).roll = s.roll := rfl

@[simp] theorem claim_enrolments (k : Slot) (f : DayPart → DayPart) (s : State) :
    (claim k f s).roll.enrolments = s.roll.enrolments := by
  unfold claim
  split
  · rfl
  · rename_i p hp
    have put : (putPupil k { p with day := f p.day } s).roll.enrolments = s.roll.enrolments := enrolments_put hp rfl
    dsimp only
    split
    · rw [withdrawWhere_roll, put]
    · exact put

@[simp] theorem makeUnreached_enrolments (src : MarkSource) (k : Slot) (s : State) :
    (makeUnreached src k s).roll.enrolments = s.roll.enrolments := by simp [makeUnreached]

@[simp] theorem excuseUnaccounted_enrolments (src : MarkSource) (r : ExcuseReason) (k : Slot) (s : State) :
    (excuseUnaccounted src r k s).roll.enrolments = s.roll.enrolments := by simp [excuseUnaccounted]

@[simp] theorem exhaust_enrolments (n : Notice) (k : Slot) (s : State) : (exhaust n k s).roll.enrolments = s.roll.enrolments := by
  unfold exhaust
  dsimp only
  split <;> simp

@[simp] theorem sendPupilNotice_enrolments (n : Notice) (k : Slot) (i : Nat) (s : State) :
    (sendPupilNotice n k i s).roll.enrolments = s.roll.enrolments := by
  unfold sendPupilNotice
  split
  · simp
  · split <;> simp

@[simp] theorem sendStep_roll (n : Notice) (k : Slot) (i : Nat) (s : State) : (sendStep n k i s).roll = s.roll := by
  unfold sendStep
  split
  · rfl
  · split <;> rfl

@[simp] theorem sendBroadcast_roll (n : Notice) (b : BroadcastState) (s : State) : (sendBroadcast n b s).roll = s.roll := by
  unfold sendBroadcast
  split
  · simp
  · split <;> simp

@[simp] theorem finishBroadcast_roll (s : State) (n : Notice) : (finishBroadcast s n).roll = s.roll := by
  unfold finishBroadcast
  split
  · rfl
  · split
    · rfl
    · simp [endBroadcast]

@[simp] theorem finishBroadcasts_roll (s : State) : (finishBroadcasts s).roll = s.roll := foldl_keeps finishBroadcast_roll _ s

theorem chooseOnce_enrolments {s t : State} (h : chooseOnce s = some t) : t.roll.enrolments = s.roll.enrolments := by
  unfold chooseOnce at h
  split at h
  · split at h
    · cases h
    · split at h <;> cases h <;> simp
  · cases h

@[simp] theorem choose_enrolments (s : State) : (choose s).roll.enrolments = s.roll.enrolments := by
  have fuel (n : Nat) : ∀ s, (chooseFuel n s).roll.enrolments = s.roll.enrolments := by
    induction n with
    | zero => exact fun _ => rfl
    | succ n ih =>
      intro s
      unfold chooseFuel
      split
      · rfl
      · rename_i e; rw [ih, chooseOnce_enrolments e]
  exact fuel _ s

@[simp] theorem testDeadline_enrolments (s : State) (n : Notice) : (testDeadline s n).roll.enrolments = s.roll.enrolments := by
  unfold testDeadline
  split
  · rfl
  · split
    · split <;> simp
    · split <;> simp

@[simp] theorem settle_enrolments (s : State) : (settle s).roll.enrolments = s.roll.enrolments := by
  simp only [settle, choose_enrolments, finishBroadcasts_roll]
  exact foldl_keeps (g := fun s : State => s.roll.enrolments) testDeadline_enrolments _ s

@[simp] theorem failSend_enrolments (key : SendKey) (s : State) : (failSend key s).roll.enrolments = s.roll.enrolments := by
  unfold failSend
  split
  · rfl
  · split
    · rfl
    · split
      · simp
      · split <;> simp

@[simp] theorem returnSend_roll (key : SendKey) (s : State) : (returnSend key s).roll = s.roll := by
  unfold returnSend
  split
  · rfl
  · split <;> split <;> simp

@[simp] theorem correctArrival_enrolments (k : Slot) (i : Nat) (s : State) :
    (correctArrival k i s).roll.enrolments = s.roll.enrolments := by simp [correctArrival, addArrived]

@[simp] theorem deliverSend_enrolments (key : SendKey) (s : State) : (deliverSend key s).roll.enrolments = s.roll.enrolments := by
  unfold deliverSend
  split
  · rfl
  · split
    · rfl
    · dsimp only
      split
      · simp
      · split
        · split <;> simp
        · simp

/-! ### Bells -/

theorem roll_of_chimeRest {s t : State} (h : chimeRest t = chimeRest s) : t.roll = s.roll :=
  congrArg (fun x => x.1.2.2.2.2.2.2.1) h

@[simp] theorem decideRequest_roll (r : ChimeRequest) (s : State) : (decideRequest r s).1.roll = s.roll :=
  roll_of_chimeRest (decideRequest_rest r s)
@[simp] theorem examine_roll (s : State) : (examine s).roll = s.roll := roll_of_chimeRest (examine_rest s)
@[simp] theorem examineIf_roll (b : Bool) (s : State) : (examineIf b s).roll = s.roll := roll_of_chimeRest (examineIf_rest b s)
@[simp] theorem silenceChanged_roll (old s : State) : (silenceChanged old s).roll = s.roll :=
  roll_of_chimeRest (silenceChanged_rest old s)
@[simp] theorem releaseButton_roll (s : State) : (releaseButton s).roll = s.roll := roll_of_chimeRest (releaseButton_rest s)
@[simp] theorem stopChannel_roll (n : Nat) (o : ChimeOutcome) (s : State) : (stopChannel n o s).roll = s.roll :=
  roll_of_chimeRest (stopChannel_rest n o s)
@[simp] theorem tailEnds_roll (n : Nat) (s : State) : (tailEnds n s).roll = s.roll := roll_of_chimeRest (tailEnds_rest n s)
@[simp] theorem dropWaits_roll (s : State) : (dropWaits s).roll = s.roll := roll_of_chimeRest (dropWaits_rest s)
@[simp] theorem wakingTest_roll (n : Nat) (s : State) : (wakingTest n s).roll = s.roll := roll_of_chimeRest (wakingTest_rest n s)
@[simp] theorem playFrom_roll (n i : Nat) (s : State) : (playFrom n i s).roll = s.roll := roll_of_chimeRest (playFrom_rest n i s)
@[simp] theorem report_roll (g : Origin) (p : PatternRef) (o : ChimeOutcome) (s : State) : (report g p o s).roll = s.roll :=
  roll_of_chimeRest (report_rest g p o s)
@[simp] theorem setWaits_roll (l : List WaitEntry) (s : State) : (setWaits l s).roll = s.roll := rfl

/-! ### The school day -/

@[simp] theorem closeDayNow_enrolments (c : CloseCause) (s : State) : (closeDayNow c s).roll.enrolments = s.roll.enrolments := by
  unfold closeDayNow
  simp only [raise_roll]
  rw [foldl_keeps (g := fun s : State => s.roll.enrolments) (fun s k => makeUnreached_enrolments .notice k s)]
  simp [abandonSweeps]

@[simp] theorem applyRoll_enrolments (e : BankEntry) (s : State) : (applyRoll e s).roll.enrolments = s.roll.enrolments := by
  unfold applyRoll
  split
  · rfl
  · rfl
  · rfl
  · rfl
  · unfold takeHold
    dsimp only
    split <;> rfl
  · simp

@[simp] theorem takeEntry_enrolments (i : Nat) (e : PlanEntry) (s : State) :
    (takeEntry i e s).roll.enrolments = s.roll.enrolments := by
  unfold takeEntry
  dsimp only
  rw [applyRoll_enrolments]
  split
  · rfl
  · split
    · rfl
    · simp [requestChime, modifyEntry]

@[simp] theorem takeIf_enrolments (ready : SchoolTime → Bool) (s : State) (i : Nat) :
    (takeIf ready s i).roll.enrolments = s.roll.enrolments := by
  unfold takeIf
  split
  · rfl
  · split <;> simp

@[simp] theorem takeEntries_enrolments (ready : SchoolTime → Bool) (s : State) :
    (takeEntries ready s).roll.enrolments = s.roll.enrolments :=
  foldl_keeps (g := fun s : State => s.roll.enrolments) (takeIf_enrolments ready) _ s

@[simp] theorem evaluatePlan_enrolments (s : State) : (evaluatePlan s).roll.enrolments = s.roll.enrolments :=
  takeEntries_enrolments _ s
@[simp] theorem takeOnTime_enrolments (s : State) : (takeOnTime s).roll.enrolments = s.roll.enrolments := takeEntries_enrolments _ s

@[simp] theorem autoOpen_enrolments (s : State) : (autoOpen s).roll.enrolments = s.roll.enrolments := by
  unfold autoOpen
  split
  · rfl
  · split <;> rfl

@[simp] theorem becomeOpen_enrolments (s : State) : (becomeOpen s).roll.enrolments = s.roll.enrolments := by
  simp [becomeOpen, makeCopy]

@[simp] theorem openingVisit_enrolments (s : State) : (openingVisit s).roll.enrolments = s.roll.enrolments := by
  unfold openingVisit
  split
  · rfl
  · dsimp only
    split <;> simp [dayOpenMark]

/-! ### The Time Base -/

@[simp] theorem rollover_roll (s : State) : (rollover s).roll = s.roll := by unfold rollover; split <;> rfl

@[simp] theorem handOn_enrolments (old s : State) : (handOn old s).roll.enrolments = s.roll.enrolments := by
  unfold handOn
  repeat' split
  all_goals simp [lowerOpening]

@[simp] theorem endQuiet_roll (old s : State) : (endQuiet old s).roll = s.roll := by unfold endQuiet; split <;> rfl
@[simp] theorem displayDue_roll (s : State) : (displayDue s).roll = s.roll := by unfold displayDue; split <;> rfl

@[simp] theorem countSecond_roll (s : State) : (countSecond s).roll = s.roll := by
  unfold countSecond
  dsimp only
  split <;> simp

/-! ### The entrance line -/

@[simp] theorem setTerminal_roll (n : Nat) (t : Option Terminal) (s : State) : (setTerminal n t s).roll = s.roll := rfl
@[simp] theorem begin_roll (j : Job) (t : Transaction) (s : State) : (begin_ j t s).roll = s.roll := rfl
@[simp] theorem setRound_roll (p : PollRound) (x : LinePhase) (s : State) : (setRound p x s).roll = s.roll := rfl

@[simp] theorem goodAnswer_roll (n : Nat) (s : State) : (goodAnswer n s).roll = s.roll := by unfold goodAnswer; split <;> rfl

@[simp] theorem missedAnswer_roll (n : Nat) (s : State) : (missedAnswer n s).roll = s.roll := by
  unfold missedAnswer
  split
  · rfl
  · split
    · rfl
    · split <;> rfl

@[simp] theorem addFound_roll (i : Identity) (s : State) : (addFound i s).roll = s.roll := by
  unfold addFound
  split
  · rfl
  · unfold refuseIdentity
    split <;> rfl

@[simp] theorem chooseJob_roll (s : State) : (chooseJob s).roll = s.roll := by
  unfold chooseJob
  split
  · rfl
  · split
    · rfl
    · split
      · unfold beginLiveness
        split <;> rfl
      · split <;> rfl

@[simp] theorem chooseIfFree_roll (s : State) : (chooseIfFree s).roll = s.roll := by unfold chooseIfFree; split <;> simp
@[simp] theorem endJob_roll (s : State) : (endJob s).roll = s.roll := chooseJob_roll _

@[simp] theorem serve_roll (l : List Identity) (s : State) : (serve l s).roll = s.roll := by
  induction l generalizing s with
  | nil => exact endJob_roll s
  | cons i rest ih =>
    unfold serve
    split
    · rw [ih, addFound_roll]
    · split
      · rfl
      · exact ih s

@[simp] theorem serveOn_roll (t : Transaction) (p : PollRound) (s : State) : (serveOn t p s).roll = s.roll := by
  unfold serveOn; split <;> simp

@[simp] theorem enumerateOne_roll (r : State × Nat × Nat × Nat) (i : Identity) : (enumerateOne r i).1.roll = r.1.roll := by
  unfold enumerateOne
  dsimp only
  split
  · split <;> simp
  · split
    · rfl
    · split <;> simp

@[simp] theorem enumerateUnfound_roll (l : List Identity) (r : State × Nat) (n : Nat) : (enumerateUnfound l r n).1.roll = r.1.roll := by
  unfold enumerateUnfound
  split
  · rfl
  · split
    · rfl
    · split <;> simp

@[simp] theorem finishEnumeration_roll (w : Walk) (s : State) : (finishEnumeration w s).roll = s.roll := by
  unfold finishEnumeration
  simp only [endJob_roll, raise_roll]
  rw [foldl_keeps (g := fun r : State × Nat => r.1.roll) (enumerateUnfound_roll _)]
  exact foldl_keeps (g := fun r : State × Nat × Nat × Nat => r.1.roll) enumerateOne_roll _ (s, 0, 0, 0)

@[simp] theorem walkEnds_roll (s : State) : (walkEnds s).roll = s.roll := by unfold walkEnds; split <;> simp

@[simp] theorem recordAnswer_roll {f : Nat → State → State} (hf : ∀ n s, (f n s).roll = s.roll) (s : State) :
    (recordAnswer f s).roll = s.roll := by
  unfold recordAnswer; split <;> simp [hf]

@[simp] theorem leaveTerminal_roll (s : State) : (leaveTerminal s).roll = s.roll := by unfold leaveTerminal; split <;> simp

theorem afterTransaction_roll {f : State → State} {s : State} (hf : (f s).roll = s.roll) : (afterTransaction f s).roll = s.roll := by
  unfold afterTransaction; split <;> simp [hf]

@[simp] theorem missTransaction_roll (s : State) : (missTransaction s).roll = s.roll := by
  unfold missTransaction
  rw [afterTransaction_roll (by simp), recordAnswer_roll missedAnswer_roll]

@[simp] theorem afterTime_enrolments (old s : State) : (afterTime old s).roll.enrolments = s.roll.enrolments := by
  unfold afterTime
  dsimp only
  rw [chooseIfFree_roll]
  split <;> simp


@[simp] theorem secondAdvance_enrolments (s : State) : (secondAdvance s).roll.enrolments = s.roll.enrolments := by
  unfold secondAdvance
  dsimp only
  rw [afterTime_enrolments]
  split <;> simp

@[simp] theorem snap_enrolments (s : State) : (snap s).roll.enrolments = s.roll.enrolments := by
  unfold snap
  split
  · rfl
  · dsimp only
    rw [afterTime_enrolments, handOn_enrolments]
    split
    · rfl
    · split <;> simp

@[simp] theorem minutePulseEdge_enrolments (b : Bool) (s : State) : (minutePulseEdge b s).roll.enrolments = s.roll.enrolments := by
  unfold minutePulseEdge
  dsimp only
  split <;> simp

@[simp] theorem setClock_enrolments (t : SchoolTime) (d : Option Date) (s : State) :
    (setClock t d s).1.roll.enrolments = s.roll.enrolments := by
  unfold setClock
  split
  · rfl
  · simp

/-! ### Arrivals -/

@[simp] theorem arrivalNotice_roll (k : Slot) (d : DayPart) (l : List Contact) (m : Mark) (s : State) :
    (arrivalNotice k d l m s).1.roll = s.roll := by
  unfold arrivalNotice tryNotice
  dsimp only
  split
  · split <;> rfl
  · split
    · split <;> rfl
    · rfl

@[simp] theorem arrivalChange_enrolments (src : MarkSource) (k : Slot) (p : Pupil) (t : SchoolTime) (n : Option Nat) (s : State) :
    (arrivalChange src k p t n s).state.roll.enrolments = s.roll.enrolments := by
  unfold arrivalChange
  split <;> simp [classifiedArrival]

@[simp] theorem tapClaim_enrolments (card : Nat) (t : Option SchoolTime) (n : Nat) (s : State) :
    (tapClaim card t n s).1.roll.enrolments = s.roll.enrolments := by
  unfold tapClaim
  split
  · rfl
  · split
    · rfl
    · dsimp only
      split <;> simp

@[simp] theorem arrive_enrolments (k : Slot) (t : Option SchoolTime) (s : State) :
    (arrive k t s).1.roll.enrolments = s.roll.enrolments := by
  unfold arrive
  repeat' split
  all_goals simp [refuse]

/-! ### The line's events -/

@[simp] theorem broadcastMade_roll (s : State) : (broadcastMade s).roll = s.roll := endJob_roll _

@[simp] theorem alertUnanswered_roll (s : State) : (alertUnanswered s).roll = s.roll := by
  unfold alertUnanswered
  split <;> simp [afterTransaction_roll]

@[simp] theorem alertAnswered_roll (s : State) : (alertAnswered s).roll = s.roll := by
  unfold alertAnswered
  split
  · dsimp only
    split <;> simp
  · rfl

@[simp] theorem answerMissed_roll (s : State) : (answerMissed s).roll = s.roll := by unfold answerMissed; split <;> simp

@[simp] theorem seekResult_roll (z o : Bool) (s : State) : (seekResult z o s).roll = s.roll := by
  unfold seekResult
  split
  · exact afterTransaction_roll (by dsimp only; split <;> simp)
  · rfl

@[simp] theorem afterRead_roll (p : PollRound) (s : State) : (afterRead p s).roll = s.roll :=
  afterTransaction_roll (by split <;> simp)

@[simp] theorem completeRead_roll (p : PollRound) (s : State) : (completeRead p s).roll = s.roll :=
  recordAnswer_roll (fun n s => modifyTerminal_roll n _ s) s

@[simp] theorem blockFails_roll (p : PollRound) (s : State) : (blockFails p s).roll = s.roll := by
  unfold blockFails
  rw [afterRead_roll, recordAnswer_roll fun n s => modifyTerminal_roll n _ s]

@[simp] theorem takeTap_enrolments (n : Nat) (t : Tap) (s : State) : (takeTap n t s).1.roll.enrolments = s.roll.enrolments := by
  unfold takeTap
  split <;> simp

@[simp] theorem blockTaken_enrolments (l : List Tap) (p : PollRound) (s : State) :
    (blockTaken l p s).1.roll.enrolments = s.roll.enrolments := by
  unfold blockTaken
  split
  · rfl
  · exact foldl_keeps (g := fun r : State × PollRound => r.1.roll.enrolments) (fun r t => takeTap_enrolments _ t r.1) l
      (modifyTerminal p.entry (fun x => { x with lastCollection := some s.time.school }) s, p)

@[simp] theorem tapBlock_enrolments (b : Text) (s : State) : (tapBlock b s).roll.enrolments = s.roll.enrolments := by
  unfold tapBlock
  split
  · dsimp only
    split
    · simp
    · split <;> simp
  · rfl

@[simp] theorem blockTimedOut_roll (s : State) : (blockTimedOut s).roll = s.roll := by unfold blockTimedOut; split <;> simp

@[simp] theorem tapsHeader_roll (b : Text) (s : State) : (tapsHeader b s).roll = s.roll := by
  unfold tapsHeader
  split
  · split
    · simp
    · rw [afterTransaction_roll (by simp)]; simp
    · simp
  · rfl

@[simp] theorem verdictsConfirm_roll (b : Text) (s : State) : (verdictsConfirm b s).roll = s.roll := by
  unfold verdictsConfirm
  split
  · split
    · rw [afterTransaction_roll (by simp), recordAnswer_roll fun _ _ => by simp [confirmTaken]]
    · simp
  · rfl

@[simp] theorem recordFlags_roll (o f : Bool) (n : Nat) (s : State) : (recordFlags o f n s).roll = s.roll := by
  unfold recordFlags
  split
  · rfl
  · dsimp only
    split <;> rfl

@[simp] theorem stateReply_roll (b : Text) (s : State) : (stateReply b s).roll = s.roll := by
  unfold stateReply
  split
  · split
    · simp
    · rw [afterTransaction_roll (by simp)]; simp
  · rfl

@[simp] theorem livenessFalls_roll (s : State) : (livenessFalls s).roll = s.roll := by
  unfold livenessFalls
  split
  · rfl
  · split <;> simp

@[simp] theorem seekAll_roll (s : State) : (seekAll s).1.roll = s.roll := by unfold seekAll; split <;> simp [refuse]

@[simp] theorem admitRequest_roll (i : Identity) (e : Nat) (s : State) : (admitRequest i e s).1.roll = s.roll := by
  unfold admitRequest
  repeat' split
  all_goals rfl

@[simp] theorem retire_roll (n : Nat) (s : State) : (retire n s).1.roll = s.roll := by
  unfold retire retireFromJob
  repeat' split
  all_goals rfl

/-! ### The sweep -/

@[simp] theorem moveOn_roll (w : Sweep) (l : List Sweep) (k : Slot) (s : State) : (moveOn w l k s).roll = s.roll := by
  unfold moveOn; split <;> rfl

@[simp] theorem sweepVisit_enrolments (s : State) : (sweepVisit s).roll.enrolments = s.roll.enrolments := by
  unfold sweepVisit
  split
  · unfold visitSlot
    split
    · simp
    · split
      · simp
      · split
        · simp [sweepUnreached]
        · split
          · simp [sweepPending]
          · unfold sweepPause
            dsimp only
            split <;> rfl
  · rfl

/-! ### The bells' requests and events -/

@[simp] theorem mute_roll (w : Option (List Nat × Option Bool)) (s : State) : (mute w s).1.roll = s.roll := by
  unfold mute
  repeat' split
  all_goals simp [refuse, okWith, setMutes]

@[simp] theorem play_roll (x : PlayArgs) (s : State) : (play x s).1.roll = s.roll := by
  unfold play
  repeat' split
  all_goals simp [refuse, okWith]

@[simp] theorem hush_roll (t : HushTarget) (s : State) : (hush t s).1.roll = s.roll := by
  unfold hush
  split
  · split
    · unfold hushChannel
      split <;> simp [refuse]
    · rfl
  · unfold hushAll
    simp only
    rw [foldl_keeps (g := fun s : State => s.roll) (fun s n => stopChannel_roll n .cutShort s), dropWaits_roll]
  · rfl

@[simp] theorem wakingEnds_roll (n : Nat) (s : State) : (wakingEnds n s).roll = s.roll := by
  unfold wakingEnds
  dsimp only
  split <;> simp

@[simp] theorem stepEnds_roll (n : Nat) (s : State) : (stepEnds n s).roll = s.roll := by
  unfold stepEnds
  dsimp only
  split
  · split <;> simp
  · rfl

@[simp] theorem tailReached_roll (n : Nat) (s : State) : (tailReached n s).roll = s.roll := by
  unfold tailReached
  dsimp only
  split
  · split <;> simp
  · rfl

@[simp] theorem waitExpires_roll (n : Nat) (s : State) : (waitExpires n s).roll = s.roll := by
  unfold waitExpires
  split
  · rfl
  · split <;> simp

@[simp] theorem quietChange_roll (i : QuietInput) (b : Bool) (s : State) : (quietChange i b s).roll = s.roll := by
  unfold quietChange
  rw [silenceChanged_roll]
  cases i <;> rfl

@[simp] theorem bellPress_enrolments (s : State) : (bellPress s).roll.enrolments = s.roll.enrolments := by
  unfold bellPress
  split
  · rfl
  · unfold pressAction
    split <;> simp [buttonRequest, setBell]

@[simp] theorem bellRelease_roll (s : State) : (bellRelease s).roll = s.roll := by
  unfold bellRelease
  split <;> simp [setBell]

/-! ### The notices' requests and events -/

@[simp] theorem hold_enrolments (v : Option (Option Bool)) (s : State) : (hold v s).1.roll.enrolments = s.roll.enrolments := by
  unfold hold
  split <;> simp [refuse, okWith]

@[simp] theorem quiet_enrolments (m : Nat) (s : State) : (quiet m s).1.roll.enrolments = s.roll.enrolments := by
  unfold quiet
  split
  · rfl
  · split
    · rfl
    · simp

@[simp] theorem cancelPupil_enrolments (n : Notice) (k : Slot) (s : State) :
    (cancelPupil n k s).roll.enrolments = s.roll.enrolments := by
  unfold cancelPupil
  dsimp only
  split <;> simp

@[simp] theorem cancel_enrolments (n : Nat) (s : State) : (cancel n s).1.roll.enrolments = s.roll.enrolments := by
  unfold cancel
  split
  · rfl
  · split
    · rfl
    · split
      · rfl
      · dsimp only
        rw [settle_enrolments]
        split <;> simp [cancelBroadcast]

@[simp] theorem text_roll (k : Nat) (x : TextAction) (s : State) : (text k x s).1.roll = s.roll := by
  unfold text
  repeat' split
  all_goals rfl

@[simp] theorem classTable_roll (t : Option Select) (w : Option (Nat × Nat × Nat)) (s : State) : (classTable t w s).1.roll = s.roll := by
  unfold classTable
  repeat' split
  all_goals rfl

@[simp] theorem post_enrolments (x : PostArgs) (s : State) : (post x s).1.roll.enrolments = s.roll.enrolments := by
  unfold post
  repeat' split
  all_goals simp [refuse]

@[simp] theorem broadcast_enrolments (x : BroadcastArgs) (s : State) : (broadcast x s).1.roll.enrolments = s.roll.enrolments := by
  unfold broadcast
  repeat' split
  all_goals simp [refuse]

@[simp] theorem outcomeLimitMet_enrolments (k : SendKey) (s : State) : (outcomeLimitMet k s).roll.enrolments = s.roll.enrolments := by
  unfold outcomeLimitMet
  split
  · rfl
  · dsimp only
    split <;> simp

@[simp] theorem busyPauseEnds_enrolments (s : State) : (busyPauseEnds s).roll.enrolments = s.roll.enrolments := by
  unfold busyPauseEnds
  split
  · rfl
  · split <;> simp

@[simp] theorem deadlineOf_enrolments (kind : NoticeKind) (n : Nat) (s : State) :
    (deadlineOf kind n s).roll.enrolments = s.roll.enrolments := by
  unfold deadlineOf
  split
  · rfl
  · split <;> simp

@[simp] theorem quietWindowEnds_enrolments (s : State) : (quietWindowEnds s).roll.enrolments = s.roll.enrolments := by
  unfold quietWindowEnds
  split <;> simp

/-! ### The gateway -/

@[simp] theorem clearTimeouts_roll (s : State) : (clearTimeouts s).roll = s.roll := by unfold clearTimeouts; split <;> rfl
@[simp] theorem sendFrame_roll (f : Frame) (s : State) : (sendFrame f s).roll = s.roll := rfl

@[simp] theorem takeReceipt_enrolments (k : SendKey) (x : TakeAnswer) (s : State) :
    (takeReceipt k x s).1.roll.enrolments = s.roll.enrolments := by
  unfold takeReceipt
  split
  · rfl
  · split <;> simp [sendTaken]

@[simp] theorem takeOutcome_enrolments (k : SendKey) (d : Bool) (s : State) :
    (takeOutcome k d s).1.roll.enrolments = s.roll.enrolments := by
  unfold takeOutcome
  split
  · rfl
  · dsimp only
    split <;> simp

@[simp] theorem countTimeout_roll (s : State) : (countTimeout s).roll = s.roll := by
  unfold countTimeout
  split
  · rfl
  · dsimp only
    split <;> rfl

@[simp] theorem takeTimedOut_enrolments (k : SendKey) (s : State) : (takeTimedOut k s).roll.enrolments = s.roll.enrolments := by
  unfold takeTimedOut
  split
  · rfl
  · dsimp only
    split <;> simp

@[simp] theorem pingDue_roll (s : State) : (pingDue s).roll = s.roll := by
  unfold pingDue
  split
  · split <;> rfl
  · rfl

@[simp] theorem takePong_roll (n : Nat) (s : State) : (takePong n s).1.roll = s.roll := by
  unfold takePong; split <;> rfl

@[simp] theorem awayActs_enrolments (e : AwayEntry) (s : State) : (awayActs e s).roll.enrolments = s.roll.enrolments := by
  unfold awayActs
  dsimp only
  split <;> simp

@[simp] theorem addAway_enrolments (e : AwayEntry) (s : State) : (addAway e s).roll.enrolments = s.roll.enrolments := by simp [addAway]

@[simp] theorem takeRange_enrolments (f l : Date) (s : State) (k : Slot) : (takeRange f l s k).roll.enrolments = s.roll.enrolments := by
  unfold takeRange
  split
  · split <;> simp
  · simp

@[simp] theorem takeReply_enrolments (r : ParentReply) (s : State) : (takeReply r s).1.roll.enrolments = s.roll.enrolments := by
  have marks (l : List Slot) (s : State) : (replyMarks r l s).roll.enrolments = s.roll.enrolments := by
    unfold replyMarks
    split
    · exact foldl_keeps (g := fun s : State => s.roll.enrolments) (fun s k => claim_enrolments k _ s) l s
    · rfl
  have ranges (x : Option (Date × Date)) (l : List Slot) (s : State) : (replyRanges x l s).roll.enrolments = s.roll.enrolments := by
    unfold replyRanges
    split
    · rfl
    · exact foldl_keeps (g := fun s : State => s.roll.enrolments) (takeRange_enrolments _ _) l s
  unfold takeReply
  dsimp only
  split
  · rfl
  · split
    · unfold reportInboxFull
      split <;> rfl
    · split <;> simp [addMessage, marks, ranges]

@[simp] theorem takeRecord_enrolments (r : Inbound) (s : State) : (takeRecord r s).roll.enrolments = s.roll.enrolments := by
  unfold takeRecord
  split
  · rfl
  · cases r <;> simp [recordEffect]

@[simp] theorem gatewayByte_enrolments (b : Byte) (s : State) : (gatewayByte b s).roll.enrolments = s.roll.enrolments := by
  unfold gatewayByte
  split
  · split <;> rfl
  · dsimp only
    split
    · unfold frameComplete
      split
      · rfl
      · split
        · rfl
        · exact takeRecord_enrolments _ s
    · rfl

@[simp] theorem frameGap_roll (s : State) : (frameGap s).roll = s.roll := by unfold frameGap; split <;> rfl

@[simp] theorem inbox_roll (x : InboxArgs) (s : State) : (inbox x s).1.roll = s.roll := by
  unfold inbox inboxText
  repeat' split
  all_goals rfl

@[simp] theorem discard_roll (x : DiscardArgs) (s : State) : (discard x s).1.roll = s.roll := by
  unfold discard
  repeat' split
  all_goals rfl

/-! ### The requests of the roll, the day and the plans -/

@[simp] theorem mark_enrolments (x : MarkArgs) (s : State) : (mark x s).1.roll.enrolments = s.roll.enrolments := by
  unfold mark
  split
  · rfl
  · split
    · rfl
    · split
      · rfl
      · split
        · split <;> simp [refuse]
        · dsimp only
          rw [settle_enrolments]
          split <;> simp
        · rfl
        · rfl

@[simp] theorem away_enrolments (k : Slot) (f l : Date) (r : Option ExcuseReason) (s : State) :
    (away k f l r s).1.roll.enrolments = s.roll.enrolments := by
  unfold away
  repeat' split
  all_goals simp [refuse]

@[simp] theorem unaway_enrolments (k : Slot) (f : Date) (s : State) : (unaway k f s).1.roll.enrolments = s.roll.enrolments := by
  unfold unaway
  repeat' split
  all_goals rfl

@[simp] theorem forgetSlots_roster (gone : Slot → Bool) (s : State) : (forgetSlots gone s).roll.roster = s.roll.roster := by
  show (withdrawWhere _ (dropAway gone s)).roll.roster = _
  rw [withdrawWhere_roll]; rfl

@[simp] theorem datePut_enrolments (d : Date) (t : DayType) (s : State) : (datePut d t s).1.roll.enrolments = s.roll.enrolments := by
  unfold datePut
  repeat' split
  all_goals simp [refuse, setCalendar]

@[simp] theorem dateDrop_enrolments (d : Date) (s : State) : (dateDrop d s).1.roll.enrolments = s.roll.enrolments := by
  unfold dateDrop
  repeat' split
  all_goals simp [refuse, setCalendar]

@[simp] theorem openDay_enrolments (b : Option Nat) (s : State) : (openDay b s).1.roll.enrolments = s.roll.enrolments := by
  unfold openDay
  repeat' split
  all_goals rfl

@[simp] theorem closeDay_enrolments (s : State) : (closeDay s).1.roll.enrolments = s.roll.enrolments := by
  unfold closeDay
  split <;> simp [refuse]

@[simp] theorem closure_enrolments (k : Nat) (s : State) : (closure k s).1.roll.enrolments = s.roll.enrolments := by
  unfold closure
  repeat' split
  all_goals simp [refuse, declareClosure]
  rw [foldl_keeps (g := fun s : State => s.roll.enrolments) (fun s k => excuseUnaccounted_enrolments .closure .closure k s)]
  rfl

@[simp] theorem entryPut_roll (x : EntryPutArgs) (s : State) : (entryPut x s).1.roll = s.roll := by
  unfold entryPut
  dsimp only
  repeat' split
  all_goals rfl

@[simp] theorem entryDrop_roll (b p : Nat) (s : State) : (entryDrop b p s).1.roll = s.roll := by
  unfold entryDrop
  repeat' split
  all_goals rfl

@[simp] theorem bankClear_roll (b : Nat) (s : State) : (bankClear b s).1.roll = s.roll := by
  unfold bankClear
  repeat' split
  all_goals rfl

@[simp] theorem header_roll (b : Nat) (w : Option (Text × Option Select)) (s : State) : (header b w s).1.roll = s.roll := by
  unfold header
  repeat' split
  all_goals rfl

@[simp] theorem adopt_enrolments (b : Nat) (s : State) : (adopt b s).1.roll.enrolments = s.roll.enrolments := by
  unfold adopt
  repeat' split
  all_goals simp [refuse, adoptCopy, makeCopy]

/-! ### Attention -/

@[simp] theorem ack_roll (n : Nat) (c : Option Nat) (s : State) : (ack n c s).1.roll = s.roll := by
  unfold ack
  repeat' split
  all_goals rfl

@[simp] theorem level_roll (n : Nat) (w : Option (Nat × Option Bool)) (s : State) : (level n w s).1.roll = s.roll := by
  unfold level
  repeat' split
  all_goals rfl

@[simp] theorem floor_roll (v : Option Nat) (s : State) : (floor v s).1.roll = s.roll := by
  unfold floor
  repeat' split
  all_goals rfl

end Sys2Proof.Machine
end

