-- ==== Sys2Proof/Proofs/RollKept.lean ====
section
/-! SUPPORT. What every step keeps of the Roster Table and of the copies of ROSTER (R1, R2, R18, R200, R202): the relation, that it
follows from `Kept` where no enrolment comes, and that it holds of the Settings Store's operations, the starts and the Office Port. -/

namespace Sys2Proof.Machine

/-- `t` keeps of `s` the form of the Roster Table and of the copies of ROSTER, and that each holds every key once. -/
structure RollKept (s t : State) : Prop where
  sound : RollOk s → CopiesOk s → RollOk t ∧ CopiesOk t
  keys : RollOk s → CopiesOk s → KeysOk s → KeysOk t

namespace RollKept

theorem refl (s : State) : RollKept s s := ⟨fun h g => ⟨h, g⟩, fun _ _ k => k⟩

theorem trans {s t u : State} (h : RollKept s t) (g : RollKept t u) : RollKept s u :=
  ⟨fun r c => g.sound (h.sound r c).1 (h.sound r c).2, fun r c k => g.keys (h.sound r c).1 (h.sound r c).2 (h.keys r c k)⟩

/-- A change of neither the roll nor the store. -/
theorem set {s t u : State} (h : RollKept s t) (e1 : u.roll = t.roll) (e2 : u.store = t.store) : RollKept s u := by
  refine h.trans ⟨fun r c => ⟨r.congr (by rw [e1]) (by rw [e1]), ?_⟩, fun _ _ k => ?_⟩
  · unfold CopiesOk; rw [e2]; exact c
  · unfold KeysOk; rw [e1, e2]; exact k

/-- What holds from a state of the same roll and store. -/
theorem from_same {s t u : State} (h : RollKept t u) (e1 : t.roll = s.roll) (e2 : t.store = s.store) : RollKept s u :=
  ((refl s).set e1 e2).trans h

theorem ite {s t u : State} {p : Prop} [Decidable p] (h : RollKept s t) (g : RollKept s u) : RollKept s (if p then t else u) := by
  split
  · exact h
  · exact g

end RollKept

/-- The keys of a roster are those of its enrolments. -/
theorem keysDistinct_roster_iff {r : RollUnit} :
    KeysDistinct (r.roster.map fun e => (e.1, e.2.enrolment)) ↔
      ∀ x ∈ r.enrolments, ∀ y ∈ r.enrolments, x.2.card = y.2.card ∨ x.2.reference = y.2.reference → x.1 = y.1 := by
  have mem (x : Slot × Enrolment) : x ∈ r.roster.map (fun e => (e.1, e.2.enrolment)) ↔ x ∈ r.enrolments := by
    obtain ⟨k, e⟩ := x
    simp [RollUnit.enrolments]
  simp only [KeysDistinct, mem]

/-- A change that keeps what `Kept` says, and after which no new enrolment stands in the table. -/
theorem Kept.rollKept {s t : State} (h : Kept s t) (e : t.roll.enrolments ⊆ s.roll.enrolments) : RollKept s t := by
  refine ⟨fun r c => ⟨h.roll r, ?_⟩, fun _ _ k => ⟨?_, ?_, ?_⟩⟩
  · unfold CopiesOk; rw [h.store]; exact c
  · exact keysDistinct_roster_iff.2 fun x hx y hy => keysDistinct_roster_iff.1 k.1 x (e hx) y (e hy)
  · rw [h.store]; exact k.2.1
  · rw [h.store]; exact k.2.2

/-- A change of the roll that puts one enrolment in a slot, of a card key and a reference that no other slot holds. -/
theorem Kept.rollKept_of_put {s t : State} (h : Kept s t) {k : Slot} {e : Enrolment}
    (he : RollOk s → ∀ x ∈ t.roll.enrolments, x = (k, e) ∨ x ∈ s.roll.enrolments ∧ x.1 ≠ k)
    (hd : KeysOk s → ∀ x ∈ s.roll.enrolments, x.1 ≠ k → x.2.card ≠ e.card ∧ x.2.reference ≠ e.reference) : RollKept s t := by
  refine ⟨fun r c => ⟨h.roll r, ?_⟩, fun r _ g => ⟨keysDistinct_roster_iff.2 fun x hx y hy hxy => ?_, ?_, ?_⟩⟩
  · unfold CopiesOk; rw [h.store]; exact c
  · rcases he r x hx with rfl | ⟨hx, nx⟩ <;> rcases he r y hy with rfl | ⟨hy, ny⟩
    · rfl
    · obtain ⟨n1, n2⟩ := hd g y hy ny
      rcases hxy with e | e
      · exact (n1 e.symm).elim
      · exact (n2 e.symm).elim
    · obtain ⟨n1, n2⟩ := hd g x hx nx
      rcases hxy with e | e
      · exact (n1 e).elim
      · exact (n2 e).elim
    · exact keysDistinct_roster_iff.1 g.1 x hx y hy hxy
  · rw [h.store]; exact g.2.1
  · rw [h.store]; exact g.2.2

/-! ### ENROL, AMEND and WITHDRAW -/

/-- The enrolments after a record is written in a slot of a sorted table. -/
theorem enrolments_put_cases {r : RollUnit} (hr : (r.roster.map Prod.fst).Pairwise (· < ·)) {k : Slot} {p : Pupil} :
    ∀ x ∈ (r.put k p).enrolments, x = (k, p.enrolment) ∨ x ∈ r.enrolments ∧ x.1 ≠ k := by
  rintro ⟨j, e⟩ ⟨q, hq, rfl⟩
  have hq := tableGet_of_mem (tablePut_pairwise hr) hq
  by_cases hj : j = k
  · subst hj
    rw [tableGet_put_self] at hq
    cases hq; exact .inl rfl
  · rw [tableGet_put_ne hj] at hq
    exact .inr ⟨⟨q, mem_of_tableGet hq, rfl⟩, hj⟩


theorem duplicate_eq_false {card reference : Option Nat} {self : Option Slot} {s : State}
    (h : duplicate card reference self s = false) {x : Slot × Enrolment} (hx : x ∈ s.roll.enrolments) (hk : some x.1 ≠ self) :
    some x.2.card ≠ card ∧ some x.2.reference ≠ reference := by
  obtain ⟨p, hp, e⟩ := hx
  have := List.any_eq_false.1 h _ hp
  rw [← e]
  simpa [hk] using this

theorem enrol_rollKept (a : EnrolArgs) (s : State) : RollKept s (enrol a s).1 := by
  have kept := enrol_kept a (Kept.refl s)
  revert kept
  unfold enrol
  split
  · exact fun _ => .refl s
  · split
    · exact fun _ => .refl s
    · split
      · exact fun _ => .refl s
      · split
        · exact fun _ => .refl s
        · rename_i k _
          split
          · exact fun _ => .refl s
          · rename_i hd
            intro kept
            refine kept.rollKept_of_put (k := k) (e := (enrolled a).enrolment)
              (fun r x hx => enrolments_put_cases r.wf x ?_) fun _ x hx _ => ?_
            · rw [settle_enrolments] at hx; exact hx
            · simpa [enrolled] using duplicate_eq_false (Bool.eq_false_iff.2 hd) hx (by simp)

theorem amend_rollKept (a : AmendArgs) (s : State) : RollKept s (amend a s).1 := by
  have kept := amend_kept a (Kept.refl s)
  revert kept
  unfold amend
  split
  · exact fun _ => .refl s
  · split
    · exact fun _ => .refl s
    · split
      · exact fun _ => .refl s
      · split
        · exact fun _ => .refl s
        · rename_i hd
          split
          · exact fun _ => .refl s
          · rename_i p hp
            intro kept
            refine kept.rollKept_of_put (k := a.slot) (e := amended a p.enrolment) (fun r x hx => ?_) fun g x hx hk => ?_
            · rw [settle_enrolments] at hx
              exact enrolments_put_cases r.wf (p := { p with enrolment := amended a p.enrolment }) x hx
            obtain ⟨h1, h2⟩ := duplicate_eq_false (Bool.eq_false_iff.2 hd) hx (by simpa using hk)
            have old := keysDistinct_roster_iff.1 g.1 x hx (a.slot, p.enrolment) ⟨p, mem_of_tableGet hp, rfl⟩
            unfold amended
            constructor
            · cases e : a.card with
              | none => exact fun y => hk (old (.inl y))
              | some c => rw [e] at h1; simpa using h1
            · cases e : a.reference with
              | none => exact fun y => hk (old (.inr y))
              | some c => rw [e] at h2; simpa using h2

theorem withdraw_rollKept (k : Slot) (s : State) : RollKept s (withdraw k s).1 := by
  refine (withdraw_kept k (Kept.refl s)).rollKept ?_
  unfold withdraw
  split
  · exact subset_rfl
  · split
    · exact subset_rfl
    · split
      · exact subset_rfl
      · simp only [settle_enrolments]
        refine (enrolments_remove k _).trans ?_
        rw [enrolments_congr (forgetSlots_roster _ s)]

/-! ### The Settings Store -/

/-- The contents of ROSTER in some copies, where they hold it, are enrolments of the area's form. -/
def RosterSound (c : AreaCopies) : Prop := ∀ l, c.roster = some l → RosterCopyOk l

/-- The contents of ROSTER in some copies hold each key once. -/
def RosterDistinct (c : AreaCopies) : Prop := ∀ l, c.roster = some l → KeysDistinct l

theorem copiesOk_iff {s : State} :
    CopiesOk s ↔ RosterSound s.store.stored ∧ ∀ o, s.store.operation = some o → RosterSound o.snapshot :=
  ⟨fun h => ⟨h.1, fun o ho l => h.2 o l ho⟩, fun h => ⟨h.1, fun o l ho => h.2 o ho l⟩⟩

theorem keysOk_iff {s : State} :
    KeysOk s ↔ KeysDistinct (s.roll.roster.map fun e => (e.1, e.2.enrolment)) ∧ RosterDistinct s.store.stored ∧
      ∀ o, s.store.operation = some o → RosterDistinct o.snapshot :=
  ⟨fun h => ⟨h.1, h.2.1, fun o ho l => h.2.2 o l ho⟩, fun h => ⟨h.1, h.2.1, fun o l ho => h.2.2 o ho l⟩⟩

theorem rosterSound_default : RosterSound defaultCopies := fun l h => by
  cases h; exact ⟨⟨List.Pairwise.nil, fun e he => by cases he⟩, fun e he => by cases he⟩
theorem rosterDistinct_default : RosterDistinct defaultCopies := fun l h => by cases h; exact fun e he => by cases he

theorem freshRoster_map_fst (l : List (Slot × Enrolment)) : (freshRoster l).map Prod.fst = l.map Prod.fst := by
  simp [freshRoster, Function.comp_def]

/-- The roll of enrolments of the area's form, its census computed from it, is sound. -/
theorem rollOk_freshRoster {s : State} {l : List (Slot × Enrolment)} (hl : RosterCopyOk l) (h1 : s.roll.roster = freshRoster l)
    (h2 : s.roll.census = censusOf (freshRoster l)) : RollOk s := by
  unfold RollOk
  rw [h1, h2]
  refine ⟨⟨by rw [freshRoster_map_fst]; exact hl.1.1, fun e he => ?_⟩, fun e he => ?_, rfl⟩
  · obtain ⟨x, hx, rfl⟩ := List.mem_map.1 he
    exact hl.1.2 x hx
  · obtain ⟨x, hx, rfl⟩ := List.mem_map.1 he
    exact hl.2 x hx

/-- The enrolments of a roll of day parts made fresh. -/
theorem enrolments_freshRoster {r : RollUnit} {l : List (Slot × Enrolment)} (h : r.roster = freshRoster l) :
    (r.roster.map fun e => (e.1, e.2.enrolment)) = l := by
  rw [h]; simp [freshRoster, Function.comp_def]

theorem store_of_chimeRest {s t : State} (h : chimeRest t = chimeRest s) : t.store = s.store := by
  simp only [chimeRest, Prod.mk.injEq] at h
  tauto

@[simp] theorem silenceChanged_store (old s : State) : (silenceChanged old s).store = s.store :=
  store_of_chimeRest (silenceChanged_rest old s)
@[simp] theorem releaseButton_store (s : State) : (releaseButton s).store = s.store := store_of_chimeRest (releaseButton_rest s)

@[simp] theorem installSettings_roll (x : Settings) (s : State) : (installSettings x s).roll = s.roll := by
  unfold installSettings
  dsimp only
  rw [silenceChanged_roll]
  split
  · rfl
  · exact releaseButton_roll s

@[simp] theorem installSettings_store (x : Settings) (s : State) : (installSettings x s).store = s.store := by
  unfold installSettings
  dsimp only
  rw [silenceChanged_store]
  split
  · rfl
  · exact releaseButton_store s

@[simp] theorem withdrawWhere_store (p : Notice → Bool) (s : State) : (withdrawWhere p s).store = s.store :=
  (setQueue_parts _ s).2.2.2.2

@[simp] theorem installRoster_store (l : List (Slot × Enrolment)) (s : State) : (installRoster l s).store = s.store := by
  have forget (gone : Slot → Bool) (t : State) : (forgetSlots gone t).store = t.store := withdrawWhere_store _ _
  exact forget (rosterGone l s) s

@[simp] theorem install_store (a : Area) (c : AreaCopies) (s : State) : (install a c s).store = s.store := by
  cases a <;> simp only [install]
  case settings => cases c.settings with
    | none => rfl
    | some x => simp only [Option.map_some, Option.getD_some, installSettings_store]
  case roster => cases c.roster with
    | none => rfl
    | some x => simp only [Option.map_some, Option.getD_some, installRoster_store]
  case limits => cases c.limits <;> rfl
  case plans => cases c.plans <;> rfl
  case patterns => cases c.patterns <;> rfl
  case calendar => cases c.calendar <;> rfl
  case texts => cases c.texts <;> rfl
  case away => cases c.away <;> rfl
  case terminals => cases c.terminals <;> rfl

/-- An area put in force leaves the Roster Table and its census, or it is ROSTER. -/
theorem install_roll_cases (a : Area) (c : AreaCopies) (s : State) :
    ((install a c s).roll.roster = s.roll.roster ∧ (install a c s).roll.census = s.roll.census) ∨
      ∃ l, c.roster = some l ∧ (install a c s).roll.roster = freshRoster l ∧
        (install a c s).roll.census = censusOf (freshRoster l) := by
  cases a <;> simp only [install]
  case settings => cases c.settings with
    | none => exact .inl ⟨rfl, rfl⟩
    | some x => left; simp only [Option.map_some, Option.getD_some, installSettings_roll, and_self]
  case roster => cases h : c.roster with
    | none => exact .inl ⟨rfl, rfl⟩
    | some x => exact .inr ⟨x, rfl, rfl, rfl⟩
  case limits => cases c.limits <;> exact .inl ⟨rfl, rfl⟩
  case plans => cases c.plans <;> exact .inl ⟨rfl, rfl⟩
  case patterns => cases c.patterns <;> exact .inl ⟨rfl, rfl⟩
  case calendar => cases c.calendar <;> exact .inl ⟨rfl, rfl⟩
  case texts => cases c.texts <;> exact .inl ⟨rfl, rfl⟩
  case away => cases c.away <;> exact .inl ⟨rfl, rfl⟩
  case terminals => cases c.terminals <;> exact .inl ⟨rfl, rfl⟩

/-- An area put in force from copies whose ROSTER is of the area's form, and holds each key once. -/
theorem install_rollKept {a : Area} {c : AreaCopies} {s : State} (hs : CopiesOk s → RosterSound c)
    (hd : KeysOk s → RosterDistinct c) : RollKept s (install a c s) := by
  have e := install_store a c s
  refine ⟨fun r k => ⟨?_, by unfold CopiesOk; rw [e]; exact k⟩, fun _ _ g => ⟨?_, by rw [e]; exact g.2⟩⟩
  · rcases install_roll_cases a c s with ⟨h1, h2⟩ | ⟨l, hl, h1, h2⟩
    · exact r.congr h1 h2
    · exact rollOk_freshRoster (hs k l hl) h1 h2
  · rcases install_roll_cases a c s with ⟨h1, h2⟩ | ⟨l, hl, h1, h2⟩
    · rw [h1]; exact g.1
    · rw [enrolments_freshRoster h1]; exact hd g l hl

/-- A change of the Settings Store's own state that leaves the roll. -/
theorem rollKept_of_store {s t : State} (h1 : t.roll = s.roll)
    (hs : RollOk s → CopiesOk s → RosterSound t.store.stored ∧ ∀ o, t.store.operation = some o → RosterSound o.snapshot)
    (hd : KeysOk s → RosterDistinct t.store.stored ∧ ∀ o, t.store.operation = some o → RosterDistinct o.snapshot) :
    RollKept s t :=
  ⟨fun r c => ⟨r.congr (by rw [h1]) (by rw [h1]), copiesOk_iff.2 (hs r c)⟩,
    fun _ _ g => keysOk_iff.2 ⟨by rw [h1]; exact g.1, hd g⟩⟩

theorem beginStore_rollKept (kind : StoreKind) (l : List Area) (s : State) : RollKept s (beginStore kind l s).1 := by
  have snapshot {x : List (Slot × Enrolment)} (h : (if kind = .save then (workingCopies s).only l else .none_).roster = some x) :
      x = s.roll.roster.map fun e => (e.1, e.2.enrolment) := by
    split at h
    · simp only [AreaCopies.only, keep_roster, Option.filter_eq_some_iff] at h
      exact (Option.some.inj h.1).symm
    · cases h
  refine rollKept_of_store rfl (fun r c => ⟨c.1, fun o ho x hx => ?_⟩) fun g => ⟨g.2.1, fun o ho x hx => ?_⟩ <;> cases ho
  · rw [snapshot hx]
    refine ⟨⟨by simpa [Function.comp_def] using r.wf, fun e he => ?_⟩, fun e he => ?_⟩ <;>
      obtain ⟨y, hy, rfl⟩ := List.mem_map.1 he
    · exact r.1.2 y hy
    · exact r.2.1 y hy
  · rw [snapshot hx]; exact g.1

theorem storeRequest_rollKept (kind : StoreKind) (a : AreasArg) (s : State) : RollKept s (storeRequest kind a s).1 := by
  unfold storeRequest
  split
  · exact .refl s
  · split
    · exact .refl s
    · split
      · exact .refl s
      · split
        · exact .refl s
        · exact beginStore_rollKept _ _ _

/-- The contents of ROSTER after one area is written are those before it, or those written. -/
theorem put_roster_cases (a : Area) (source target : AreaCopies) :
    (AreaCopies.put a source target).roster = target.roster ∨ (AreaCopies.put a source target).roster = source.roster := by
  cases a
  case roster => exact .inr rfl
  all_goals exact .inl rfl

/-- What holds of the ROSTER of both copies holds of the ROSTER after one area is written. -/
theorem put_roster_of {P : List (Slot × Enrolment) → Prop} (a : Area) {source target : AreaCopies}
    (h1 : ∀ l, target.roster = some l → P l) (h2 : ∀ l, source.roster = some l → P l) :
    ∀ l, (AreaCopies.put a source target).roster = some l → P l := by
  rcases put_roster_cases a source target with e | e <;> rw [e]
  · exact h1
  · exact h2

theorem areaStep_rollKept {o : StoreOperation} {s : State} (ho : s.store.operation = some o) (kind : StoreKind) (a : Area)
    (agrees : Bool) : RollKept s (areaStep kind a o.snapshot agrees s).1 := by
  unfold areaStep
  split
  · split
    · refine rollKept_of_store rfl (fun _ c => ⟨?_, (copiesOk_iff.1 c).2⟩) fun g => ⟨?_, (keysOk_iff.1 g).2.2⟩
      · exact put_roster_of a c.1 ((copiesOk_iff.1 c).2 o ho)
      · exact put_roster_of a g.2.1 ((keysOk_iff.1 g).2.2 o ho)
    · exact (RollKept.refl s).set rfl rfl
  · split
    · exact install_rollKept (fun c => c.1) fun g => g.2.1
    · exact (RollKept.refl s).set rfl rfl
  · exact install_rollKept (fun _ => rosterSound_default) fun _ => rosterDistinct_default

theorem settle_rollKept (s : State) : RollKept s (settle s) := (settle_kept (Kept.refl s)).rollKept (settle_enrolments s).subset
theorem autoOpen_rollKept (s : State) : RollKept s (autoOpen s) := (autoOpen_kept (Kept.refl s)).rollKept (autoOpen_enrolments s).subset

/-- The end of an operation leaves no snapshot. -/
theorem endStore_rollKept (kind : StoreKind) (l : List (Area × StepResult)) (t : SchoolTime) (x : Option Subject) (s : State) :
    RollKept s (endStore kind l t x s) :=
  rollKept_of_store rfl (fun _ c => ⟨c.1, fun _ h => by cases h⟩) fun g => ⟨g.2.1, fun _ h => by cases h⟩

theorem areaStep_operation (kind : StoreKind) (a : Area) (c : AreaCopies) (agrees : Bool) (s : State) :
    (areaStep kind a c agrees s).1.store.operation = s.store.operation := by
  unfold areaStep
  split
  · split <;> rfl
  · split
    · rw [install_store]
    · rfl
  · rw [install_store]

theorem storeStep_rollKept (agrees : Bool) (s : State) : RollKept s (storeStep agrees s) := by
  unfold storeStep
  split
  · exact .refl s
  · rename_i o ho
    split
    · exact .refl s
    · rename_i a rest _
      have step := areaStep_rollKept ho o.kind a agrees
      have op := (areaStep_operation o.kind a o.snapshot agrees s).trans ho
      refine RollKept.trans ?_ ((autoOpen_rollKept _).trans (settle_rollKept _))
      refine RollKept.ite (step.trans (endStore_rollKept _ _ _ _ _)) (step.trans ?_)
      refine rollKept_of_store rfl (fun _ c => ⟨c.1, fun p hp => ?_⟩) fun g => ⟨g.2.1, fun p hp => ?_⟩ <;> cases hp
      · exact (copiesOk_iff.1 c).2 o op
      · exact (keysOk_iff.1 g).2.2 o op

theorem getValue_state (r : SettingRef) (s : State) : (getValue r s).1 = s := by
  unfold getValue
  split
  · rfl
  · split
    · rfl
    · rfl

theorem afterSet_rollKept (r : SettingRef) (old s : State) : RollKept s (afterSet r old s) := by
  unfold afterSet
  split
  · exact autoOpen_rollKept s
  · exact autoOpen_rollKept s
  · exact (RollKept.refl s).set (silenceChanged_roll old s) (silenceChanged_store old s)
  · exact (RollKept.refl s).set (silenceChanged_roll old s) (silenceChanged_store old s)
  · exact .refl s

theorem setSettings_rollKept (r : SettingRef) (v : Settings) (s : State) : RollKept s (setSettings r v s).1 := by
  have released : RollKept s (if r = .buttonMode then releaseButton s else s) :=
    RollKept.ite ((RollKept.refl s).set (releaseButton_roll s) (releaseButton_store s)) (.refl s)
  unfold setSettings
  dsimp only
  rw [getValue_state]
  refine RollKept.trans (released.set ?_ ?_) (afterSet_rollKept _ _ _)
  · rfl
  · rfl

theorem setValue_rollKept (r : SettingRef) (v : Option SettingValue) (s : State) : RollKept s (setValue r v s).1 := by
  unfold setValue
  by_cases unknown : r = .unknown
  · rw [if_pos unknown]; exact .refl s
  rw [if_neg unknown]
  by_cases place : (!settingPlaceOk r) = true
  · rw [if_pos place]; exact .refl s
  rw [if_neg place]
  by_cases held : storeHolds (if isLimit r then .limits else .settings) s = true
  · rw [if_pos held]; exact .refl s
  rw [if_neg held]
  split
  · split
    · exact .refl s
    · split
      · rw [getValue_state]; exact (RollKept.refl s).set rfl rfl
      · exact .refl s
  · split
    · exact .refl s
    · exact setSettings_rollKept _ _ _

end Sys2Proof.Machine
end

