-- ==== Sys2Proof/Proofs/StepRoll.lean ====
section
/-! PROOF. Every step keeps the form of the Roster Table and of the copies of ROSTER, the census, and the keys' distinctness. -/

namespace Sys2Proof.Machine

/-! ### Requests -/

theorem pupil_state (k : Slot) (s : State) : (pupil k s).1 = s := by
  unfold pupil
  split
  · rfl
  · split <;> rfl

theorem slotReply_state (p : Pupil → Bool) (s : State) : (slotReply p s).1 = s := by
  unfold slotReply
  split <;> rfl

theorem findPupil_state (q : FindQuery) (s : State) : (findPupil q s).1 = s := by
  unfold findPupil
  split
  · split
    · exact slotReply_state _ s
    · rfl
  · split
    · exact slotReply_state _ s
    · rfl
  · split <;> rfl

theorem marks_state (a : MarksArgs) (s : State) : (marks a s).1 = s := by unfold marks; split <;> rfl

theorem census_state (c : Option Nat) (n : Nat) (s : State) : (census c n s).1 = s := by
  unfold census
  split
  · split <;> rfl
  · rfl

theorem aways_state (k : Option Slot) (d : Option Date) (s : State) : (aways k d s).1 = s := by unfold aways; split <;> rfl
theorem dates_state (d : Option Date) (s : State) : (dates d s).1 = s := by unfold dates; split <;> rfl
theorem bankRead_state (b n : Nat) (s : State) : (bankRead b n s).1 = s := by unfold bankRead; split <;> rfl
theorem todayRead_state (n : Nat) (s : State) : (todayRead n s).1 = s := by
  unfold todayRead
  split <;> rfl
theorem patternRead_state (p : Nat) (s : State) : (patternRead p s).1 = s := by
  unfold patternRead
  split
  · rfl
  · split <;> rfl
theorem notices_state (k : Option (Option NoticeKind)) (x : Option Slot) (n : Nat) (s : State) : (notices k x n s).1 = s := by
  unfold notices
  split <;> rfl
theorem status_state (n : Option Nat) (s : State) : (status n s).1 = s := by
  unfold status
  split
  · rfl
  · split <;> rfl
theorem getSetting_state (t : GetTarget) (s : State) : (getSetting t s).1 = s := by
  unfold getSetting
  split
  · exact getValue_state _ s
  · rfl

theorem patternPut_rollKept (p : Nat) (l : Option (List PatternStep)) (s : State) : RollKept s (patternPut p l s).1 := by
  unfold patternPut
  repeat' split
  all_goals exact (RollKept.refl s).set rfl rfl

theorem volume_rollKept (g : Option Group) (v : Option Nat) (s : State) : RollKept s (volume g v s).1 := by
  unfold volume
  repeat' split
  all_goals exact (RollKept.refl s).set rfl rfl

theorem RollKept.of_eq {s t : State} (h : t = s) : RollKept s t := h ▸ .refl s

theorem Kept.rollKept_of_roll {s t : State} (h : Kept s t) (e : t.roll = s.roll) : RollKept s t := h.rollKept (by rw [e])

theorem withStrap_rollKept {strap : Bool} {s t : State} (h : RollKept (withStrap strap s) t) : RollKept s t :=
  h.from_same rfl rfl

theorem request_rollKept : ∀ {c : Instr} {f : State → State × Reply}, requestEffect c = some f → ∀ s, RollKept s (f s).1
  | .enrol a, _, rfl, s => enrol_rollKept a s
  | .amend a, _, rfl, s => amend_rollKept a s
  | .withdraw n, _, rfl, s => withdraw_rollKept n s
  | .pupil n, _, rfl, s => .of_eq (pupil_state n s)
  | .find q, _, rfl, s => .of_eq (findPupil_state q s)
  | .marks a, _, rfl, s => .of_eq (marks_state a s)
  | .mark a, _, rfl, s => (mark_kept a (Kept.refl s)).rollKept (mark_enrolments a s).subset
  | .census c n, _, rfl, s => .of_eq (census_state c n s)
  | .away n f l r, _, rfl, s => (away_kept n f l r (Kept.refl s)).rollKept (away_enrolments n f l r s).subset
  | .unaway n f, _, rfl, s => (unaway_kept n f (Kept.refl s)).rollKept (unaway_enrolments n f s).subset
  | .aways n d, _, rfl, s => .of_eq (aways_state n d s)
  | .arrive n t, _, rfl, s => (arrive_kept n t (Kept.refl s)).rollKept (arrive_enrolments n t s).subset
  | .clock, _, rfl, s => .refl s
  | .setClock t d, _, rfl, s => (setClock_kept t d (Kept.refl s)).rollKept (setClock_enrolments t d s).subset
  | .datePut d t, _, rfl, s => (datePut_kept d t (Kept.refl s)).rollKept (datePut_enrolments d t s).subset
  | .dateDrop d, _, rfl, s => (dateDrop_kept d (Kept.refl s)).rollKept (dateDrop_enrolments d s).subset
  | .dates d, _, rfl, s => .of_eq (dates_state d s)
  | .openDay b, _, rfl, s => (openDay_kept b (Kept.refl s)).rollKept (openDay_enrolments b s).subset
  | .closeDay, _, rfl, s => (closeDay_kept (Kept.refl s)).rollKept (closeDay_enrolments s).subset
  | .closure n, _, rfl, s => (closure_kept n (Kept.refl s)).rollKept (closure_enrolments n s).subset
  | .day n, _, rfl, s => .refl s
  | .entryPut a, _, rfl, s => (entryPut_kept a (Kept.refl s)).rollKept_of_roll (entryPut_roll a s)
  | .entryDrop b p, _, rfl, s => (entryDrop_kept b p (Kept.refl s)).rollKept_of_roll (entryDrop_roll b p s)
  | .bankClear b, _, rfl, s => (bankClear_kept b (Kept.refl s)).rollKept_of_roll (bankClear_roll b s)
  | .header b w, _, rfl, s => (header_kept b w (Kept.refl s)).rollKept_of_roll (header_roll b w s)
  | .bank b n, _, rfl, s => .of_eq (bankRead_state b n s)
  | .adopt b, _, rfl, s => (adopt_kept b (Kept.refl s)).rollKept (adopt_enrolments b s).subset
  | .today n, _, rfl, s => .of_eq (todayRead_state n s)
  | .patternPut p l, _, rfl, s => patternPut_rollKept p l s
  | .pattern p, _, rfl, s => .of_eq (patternRead_state p s)
  | .volume g v, _, rfl, s => volume_rollKept g v s
  | .mute w, _, rfl, s => (mute_kept w (Kept.refl s)).rollKept_of_roll (mute_roll w s)
  | .play a, _, rfl, s => (play_kept a (Kept.refl s)).rollKept_of_roll (play_roll a s)
  | .hush t, _, rfl, s => (hush_kept t (Kept.refl s)).rollKept_of_roll (hush_roll t s)
  | .seekAll, _, rfl, s => (seekAll_kept (Kept.refl s)).rollKept_of_roll (seekAll_roll s)
  | .admitTerminal i e, _, rfl, s => (admitRequest_kept i e (Kept.refl s)).rollKept_of_roll (admitRequest_roll i e s)
  | .retire n, _, rfl, s => (retire_kept n (Kept.refl s)).rollKept_of_roll (retire_roll n s)
  | .terminals n, _, rfl, s => .refl s
  | .classTable t w, _, rfl, s => (classTable_kept t w (Kept.refl s)).rollKept_of_roll (classTable_roll t w s)
  | .hold v, _, rfl, s => (hold_kept v (Kept.refl s)).rollKept (hold_enrolments v s).subset
  | .quiet m, _, rfl, s => (quiet_kept m (Kept.refl s)).rollKept (quiet_enrolments m s).subset
  | .cancel n, _, rfl, s => (cancel_kept n (Kept.refl s)).rollKept (cancel_enrolments n s).subset
  | .text n a, _, rfl, s => (text_kept n a (Kept.refl s)).rollKept_of_roll (text_roll n a s)
  | .post a, _, rfl, s => (post_kept a (Kept.refl s)).rollKept (post_enrolments a s).subset
  | .broadcast a, _, rfl, s => (broadcast_kept a (Kept.refl s)).rollKept (broadcast_enrolments a s).subset
  | .notices k n m, _, rfl, s => .of_eq (notices_state k n m s)
  | .inbox a, _, rfl, s => (inbox_kept a (Kept.refl s)).rollKept_of_roll (inbox_roll a s)
  | .discard a, _, rfl, s => (discard_kept a (Kept.refl s)).rollKept_of_roll (discard_roll a s)
  | .status n, _, rfl, s => .of_eq (status_state n s)
  | .ack n c, _, rfl, s => (ack_kept n c (Kept.refl s)).rollKept_of_roll (ack_roll n c s)
  | .level n w, _, rfl, s => (level_kept n w (Kept.refl s)).rollKept_of_roll (level_roll n w s)
  | .floor v, _, rfl, s => (floor_kept v (Kept.refl s)).rollKept_of_roll (floor_roll v s)
  | .save a, _, rfl, s => storeRequest_rollKept .save a s
  | .load a strap, _, rfl, s => withStrap_rollKept (storeRequest_rollKept .load a (withStrap strap s))
  | .defaults a strap, _, rfl, s => withStrap_rollKept (storeRequest_rollKept .defaults a (withStrap strap s))
  | .setSetting r v strap, _, rfl, s => withStrap_rollKept (setValue_rollKept r v (withStrap strap s))
  | .getSetting t strap, _, rfl, s => withStrap_rollKept (.of_eq (getSetting_state t (withStrap strap s)))
  | .restart, _, rfl, s => (RollKept.refl s).set rfl rfl

/-! ### The Office Port -/

theorem askOwner_rollKept (strap : Bool) (word : Text) (args : List Token) (s : State) :
    RollKept s (askOwner strap word args s).1 := by
  unfold askOwner
  split
  · exact .refl s
  · exact .refl s
  · split
    · exact .refl s
    · rename_i e
      exact (request_rollKept e s).set rfl rfl

theorem serveLine_rollKept (strap : Bool) (body : Text) (s : State) : RollKept s (serveLine strap body s) := by
  have answered : RollKept s (answerLine strap body s).1 := by
    unfold answerLine
    split
    · exact .refl s
    · exact askOwner_rollKept _ _ _ s
  exact answered.set rfl rfl

theorem startOutput_rollKept (s : State) : RollKept s (startOutput s) :=
  RollKept.ite ((RollKept.refl s).set rfl rfl) (.refl s)

theorem addShort_rollKept (tag : Text) (r : Reply) (s : State) : RollKept s (addShort tag r s) :=
  RollKept.from_same (startOutput_rollKept _) rfl rfl

theorem placeLine_rollKept (strap : Bool) (body : Text) (s : State) : RollKept s (placeLine strap body s) :=
  RollKept.ite ((serveLine_rollKept strap body s).trans (startOutput_rollKept _))
    (RollKept.ite ((RollKept.refl s).set rfl rfl) (addShort_rollKept _ _ s))

theorem newLine_rollKept (s : State) : RollKept s (newLine s) := (RollKept.refl s).set rfl rfl

theorem judgeLine_rollKept (strap : Bool) (s : State) : RollKept s (judgeLine strap s) := by
  have fresh := newLine_rollKept s
  unfold judgeLine
  split
  · exact fresh.trans (addShort_rollKept _ _ _)
  · split
    · exact fresh
    · split
      · exact fresh.trans (addShort_rollKept _ _ _)
      · split
        · exact fresh.trans (addShort_rollKept _ _ _)
        · exact fresh.trans (placeLine_rollKept _ _ _)

theorem takeCr_rollKept (strap : Bool) (s : State) : RollKept s (takeCr strap s) :=
  RollKept.ite ((RollKept.refl s).set rfl rfl) (RollKept.ite ((RollKept.refl s).set rfl rfl) (judgeLine_rollKept strap s))

theorem collect_rollKept (c : Byte) (framing : Bool) (s : State) : RollKept s (collect c framing s) :=
  RollKept.ite (.refl s) (RollKept.ite ((RollKept.refl s).set rfl rfl) ((RollKept.refl s).set rfl rfl))

theorem takeCharacter_rollKept (c : Byte) (framing : Bool) (s : State) : RollKept s (takeCharacter c framing s) :=
  RollKept.ite ((RollKept.refl s).set rfl rfl)
    (RollKept.ite (RollKept.from_same (takeCr_rollKept _ _) rfl rfl)
      (RollKept.ite (.refl s) (collect_rollKept c framing s)))

theorem holdPart_rollKept (s : State) : RollKept s (holdPart s) := (RollKept.refl s).set rfl rfl

theorem serveWaiting_rollKept (strap : Bool) (s : State) : RollKept s (serveWaiting strap s) := by
  unfold serveWaiting
  split
  · exact .refl s
  · exact RollKept.from_same (serveLine_rollKept _ _ _) rfl rfl

theorem replySent_rollKept (strap : Bool) (s : State) : RollKept s (replySent strap s) := by
  unfold replySent
  split
  · refine RollKept.ite ((holdPart_rollKept _).from_same rfl rfl) ?_
    have waiting := serveWaiting_rollKept strap { s with office := { s.office with served := none } }
    exact (RollKept.from_same (s := s) waiting rfl rfl).trans ((RollKept.refl _).set rfl rfl)
  · exact RollKept.ite (holdPart_rollKept s) (.refl s)

theorem shortSent_rollKept (s : State) : RollKept s (shortSent s) := by
  unfold shortSent
  split
  · split <;> exact (RollKept.refl s).set rfl rfl
  · exact .refl s

/-! ### The starts -/

theorem takeAreas_rollKept {c : AreaCopies} {s : State} (hs : RosterSound s.store.stored → RosterSound c)
    (hd : RosterDistinct s.store.stored → RosterDistinct c) : RollKept s (takeAreas c s) := by
  have areas (l : List Area) : ∀ t : State, t.store = s.store → RollKept t (l.foldl (fun s a => install a c s) t) := by
    induction l with
    | nil => exact fun t _ => .refl t
    | cons a l ih =>
      intro t ht
      have first : RollKept t (install a c t) :=
        install_rollKept (fun k => hs (ht ▸ k.1)) fun k => hd (ht ▸ k.2.1)
      exact first.trans (ih _ ((install_store a c t).trans ht))
  exact areas allAreas s rfl

/-- The blocks of a cold start hold no roll and no snapshot. -/
theorem coldBlocks_rollKept (pins : Pins) (pending : List Instr) (s : State) : RollKept s (coldBlocks s.store pins pending) := by
  have empty : (coldBlocks s.store pins pending).roll.roster = [] := rfl
  have row : (coldBlocks s.store pins pending).roll.census = censusOf [] := by
    show List.replicate 8 (List.replicate 11 0) = _
    decide
  refine ⟨fun _ c => ⟨⟨?_, ?_, ?_⟩, c.1, fun o l h => by cases h⟩, fun _ _ k => ⟨?_, k.2.1, fun o l h => by cases h⟩⟩
  · rw [empty]; exact ⟨List.Pairwise.nil, fun e he => by cases he⟩
  · rw [empty]; exact fun e he => by cases he
  · rw [empty, row]
  · rw [empty]; exact fun e he => by cases he

theorem coldCopies_good_roster {st : SettingsStore} {l : List (Slot × Enrolment)} (h : (coldCopies st.good).roster = some l) :
    l = [] ∨ st.stored.roster = some l := by
  simp only [coldCopies, SettingsStore.good, AreaCopies.keep, Option.some.injEq] at h
  cases e : st.stored.roster with
  | none => rw [e] at h; exact .inl h.symm
  | some x =>
    cases g : st.isGood .roster with
    | false => rw [e, g] at h; exact .inl h.symm
    | true => rw [e, g] at h; exact .inr (congrArg some h)

theorem takeStored_rollKept (l : List Area) (s : State) : RollKept s (l.foldl takeStored s) := by
  induction l generalizing s with
  | nil => exact .refl s
  | cons a l ih =>
    have first : RollKept s (takeStored s a) := RollKept.ite (.refl s) ((RollKept.refl s).set rfl rfl)
    exact first.trans (ih _)

theorem coldStart_rollKept (pins : Pins) (s : State) : RollKept s (coldStart pins s) := by
  have areas : RollKept (coldBlocks s.store pins s.pending)
      (takeAreas (coldCopies s.store.good) (coldBlocks s.store pins s.pending)) := by
    refine takeAreas_rollKept (fun h l hl => ?_) fun h l hl => ?_ <;> rcases coldCopies_good_roster hl with rfl | e
    · exact rosterSound_default _ rfl
    · exact h l e
    · exact rosterDistinct_default _ rfl
    · exact h l e
  have stored := ((coldBlocks_rollKept pins s.pending s).trans areas).trans (takeStored_rollKept allAreas _)
  unfold coldStart
  exact stored.set (raise_roll _ _ _) (raise_store _ _ _)

theorem loseBackup_rollKept (s : State) : RollKept s (loseBackup s) := (coldBlocks_rollKept s.pins s.pending s).set rfl rfl

theorem abandonStore_rollKept (s : State) : RollKept s (abandonStore s) := by
  unfold abandonStore
  split
  · exact .refl s
  · split
    · exact rollKept_of_store rfl (fun _ c => ⟨c.1, fun _ h => by cases h⟩) fun g => ⟨g.2.1, fun _ h => by cases h⟩
    · exact endStore_rollKept _ _ _ _ s

theorem warmOutcomes_rollKept (s : State) : RollKept s (warmOutcomes s) := by
  have entries (l : List Nat) : ∀ t, RollKept t (l.foldl warmEntry t) := by
    induction l with
    | nil => exact .refl
    | cons i l ih =>
      intro t
      refine RollKept.trans ?_ (ih _)
      unfold warmEntry
      split
      · exact .refl t
      · exact (RollKept.refl t).set rfl rfl
  exact entries _ s

@[simp] theorem setQueue_store (q : List Notice) (s : State) : (setQueue q s).store = s.store := (setQueue_parts q s).2.2.2.2

@[simp] theorem removeNotice_store (n : Nat) (s : State) : (removeNotice n s).store = s.store := setQueue_store _ s

theorem returnSend_store (key : SendKey) (s : State) : (returnSend key s).store = s.store := by
  unfold returnSend
  split
  · rfl
  · split
    · split <;> rfl
    · split
      · exact removeNotice_store _ s
      · rfl

theorem warmNotices_rollKept (s : State) : RollKept s (warmNotices s) := by
  have sends (l : List Send) : ∀ t, RollKept t (l.foldl (fun s x => returnSend x.key (dropSend x.key s)) t) := by
    induction l with
    | nil => exact .refl
    | cons x l ih =>
      exact fun t => ((RollKept.refl t).set (returnSend_roll x.key (dropSend x.key t))
        (returnSend_store x.key (dropSend x.key t))).trans (ih _)
  exact (sends _ s).set rfl rfl

theorem evaluatePlan_rollKept (s : State) : RollKept s (evaluatePlan s) :=
  (evaluatePlan_kept (Kept.refl s)).rollKept (evaluatePlan_enrolments s).subset

theorem closeDayNow_rollKept (c : CloseCause) (s : State) : RollKept s (closeDayNow c s) :=
  (closeDayNow_kept c (Kept.refl s)).rollKept (closeDayNow_enrolments c s).subset

theorem warmDay_rollKept (s : State) : RollKept s (warmDay s) := by
  have sweep : RollKept s (restartSweep s) := RollKept.ite (.refl s) ((RollKept.refl s).set rfl rfl)
  unfold warmDay
  split
  · exact .refl s
  · exact RollKept.ite ((RollKept.refl s).set rfl rfl) (closeDayNow_rollKept _ s)
  · exact RollKept.ite (sweep.trans (evaluatePlan_rollKept _)) (closeDayNow_rollKept _ s)

theorem warmStart_rollKept (pins : Pins) (s : State) : RollKept s (warmStart pins s) := by
  have blocks : RollKept s (warmBlocks pins s) := (RollKept.refl s).set rfl rfl
  have notices := ((blocks.trans (abandonStore_rollKept _)).trans (warmOutcomes_rollKept _)).trans (warmNotices_rollKept _)
  exact ((notices.trans (warmDay_rollKept _)).trans (autoOpen_rollKept _)).trans (settle_rollKept _)

/-! ### Every command -/

theorem RollKept.next_of_event {f : State → State} (h : ∀ s, RollKept s (f s)) {s t : State} (e : event f s = .next t) :
    RollKept s t := by
  cases hh : s.power.held with
  | true => rw [event_held hh] at e; cases e; exact .refl s
  | false => rw [event_next hh] at e; cases e; exact h s

theorem RollKept.next_of_request {f : State → State × Reply} (h : ∀ s, RollKept s (f s).1) {s t : State}
    (e : request f s = .next t) : RollKept s t :=
  RollKept.next_of_event (f := fun s => let r := f s; { r.1 with office := { r.1.office with result := some r.2 } })
    (fun s => (h s).set rfl rfl) e

/-- An event of functions that keep what `Kept` says, and the enrolments. -/
theorem RollKept.next_of_kept {f : State → State} (h : ∀ s, Kept s (f s)) (g : ∀ s, (f s).roll.enrolments = s.roll.enrolments)
    {s t : State} (e : event f s = .next t) : RollKept s t :=
  RollKept.next_of_event (fun s => (h s).rollKept (g s).subset) e

theorem openingSweepVisit_rollKept (s : State) :
    RollKept s
      (let s1 := openingVisit s
       if s.day.state = .opening ∧ s1.day.state ≠ .opening then chooseIfFree (settle s1) else s1) := by
  have visit := openingVisit_kept (Kept.refl s)
  refine RollKept.ite ((chooseIfFree_kept (settle_kept visit)).rollKept ?_) (visit.rollKept (openingVisit_enrolments s).subset)
  rw [chooseIfFree_roll, settle_enrolments, openingVisit_enrolments]

theorem secondAdvance_rollKept {s t : State} (e : exec .secondAdvance s = .next t) : RollKept s t := by
  have counted := (endQuiet_kept s (countSecond_kept (Kept.refl s))).rollKept_of_roll
    ((endQuiet_roll s _).trans (countSecond_roll s))
  have advanced := (secondAdvance_kept (Kept.refl s)).rollKept (secondAdvance_enrolments s).subset
  change (if s.power.held then .next (if s.power.retention then endQuiet s (countSecond s) else s) else .next (secondAdvance s))
    = Host.Outcome.next t at e
  split at e <;> cases e
  · exact RollKept.ite counted (.refl s)
  · exact advanced

theorem exec_rollKept (c : Instr) {s t : State} (e : exec c s = .next t) : RollKept s t := by
  cases hc : requestEffect c with
  | some f => exact RollKept.next_of_request (request_rollKept hc) ((exec_of_request hc s).symm.trans e)
  | none =>
    cases c
    all_goals try exact absurd hc (Option.some_ne_none _)
    case secondAdvance => exact secondAdvance_rollKept e
    case lineReceived strap => exact RollKept.next_of_event (takeCr_rollKept strap) e
    case replySent strap => exact RollKept.next_of_event (replySent_rollKept strap) e
    case officeCharacterReceived b f => exact RollKept.next_of_event (takeCharacter_rollKept b f) e
    case shortReplySent => exact RollKept.next_of_event shortSent_rollKept e
    case openingSweepVisit => exact RollKept.next_of_event openingSweepVisit_rollKept e
    case storeStepEnd agrees => exact RollKept.next_of_event (storeStep_rollKept agrees) e
    case automaticOpening => exact RollKept.next_of_event autoOpen_rollKept e
    case holdBegins => cases e; exact holdPart_rollKept s
    case coldStart pins => cases e; exact RollKept.ite (coldStart_rollKept pins s) (.refl s)
    case warmStart pins => cases e; exact RollKept.ite (warmStart_rollKept pins s) (.refl s)
    case backupDomainLost => cases e; exact RollKept.ite (loseBackup_rollKept s) (.refl s)
    case entryReached =>
      exact RollKept.next_of_kept (fun s => settle_kept (takeOnTime_kept (Kept.refl s))) (fun s => by simp) e
    case sweepVisit => exact RollKept.next_of_kept (fun s => settle_kept (sweepVisit_kept (Kept.refl s))) (fun s => by simp) e
    case minutePulseEdge b =>
      exact RollKept.next_of_kept (fun s => minutePulseEdge_kept b (Kept.refl s)) (minutePulseEdge_enrolments b) e
    case wakingEnd n => exact RollKept.next_of_kept (fun s => wakingEnds_kept n (Kept.refl s)) (fun s => by simp) e
    case stepEnd n => exact RollKept.next_of_kept (fun s => stepEnds_kept n (Kept.refl s)) (fun s => by simp) e
    case tailEnd n => exact RollKept.next_of_kept (fun s => tailReached_kept n (Kept.refl s)) (fun s => by simp) e
    case waitExpiry n => exact RollKept.next_of_kept (fun s => waitExpires_kept n (Kept.refl s)) (fun s => by simp) e
    case quietInputChange i b => exact RollKept.next_of_kept (fun s => quietChange_kept i b (Kept.refl s)) (fun s => by simp) e
    case bellButtonPress => exact RollKept.next_of_kept (fun s => bellPress_kept (Kept.refl s)) bellPress_enrolments e
    case bellButtonRelease => exact RollKept.next_of_kept (fun s => bellRelease_kept (Kept.refl s)) (fun s => by simp) e
    case alertNoAnswer => exact RollKept.next_of_kept (fun s => alertUnanswered_kept (Kept.refl s)) (fun s => by simp) e
    case alertAnswered => exact RollKept.next_of_kept (fun s => alertAnswered_kept (Kept.refl s)) (fun s => by simp) e
    case missedAnswer => exact RollKept.next_of_kept (fun s => answerMissed_kept (Kept.refl s)) (fun s => by simp) e
    case seekStepResult z o => exact RollKept.next_of_kept (fun s => seekResult_kept z o (Kept.refl s)) (fun s => by simp) e
    case readTapsHeader b => exact RollKept.next_of_kept (fun s => tapsHeader_kept b (Kept.refl s)) (fun s => by simp) e
    case tapBlock b => exact RollKept.next_of_kept (fun s => tapBlock_kept b (Kept.refl s)) (tapBlock_enrolments b) e
    case blockTimeout => exact RollKept.next_of_kept (fun s => blockTimedOut_kept (Kept.refl s)) (fun s => by simp) e
    case giveVerdictsConfirm b =>
      exact RollKept.next_of_kept (fun s => verdictsConfirm_kept b (Kept.refl s)) (fun s => by simp) e
    case readStateReply b => exact RollKept.next_of_kept (fun s => stateReply_kept b (Kept.refl s)) (fun s => by simp) e
    case livenessDue => exact RollKept.next_of_kept (fun s => livenessFalls_kept (Kept.refl s)) (fun s => by simp) e
    case frameDiscarded => exact RollKept.next_of_kept (fun s => frameDropped_kept (Kept.refl s)) (fun _ => rfl) e
    case frameGap => exact RollKept.next_of_kept (fun s => frameGap_kept (Kept.refl s)) (fun s => by simp) e
    case receipt k x => exact RollKept.next_of_kept (fun s => takeRecord_kept _ (Kept.refl s)) (takeRecord_enrolments _) e
    case outcome k d => exact RollKept.next_of_kept (fun s => takeRecord_kept _ (Kept.refl s)) (takeRecord_enrolments _) e
    case pong n => exact RollKept.next_of_kept (fun s => takeRecord_kept _ (Kept.refl s)) (takeRecord_enrolments _) e
    case reply r => exact RollKept.next_of_kept (fun s => takeRecord_kept _ (Kept.refl s)) (takeRecord_enrolments _) e
    case takeTimeout k => exact RollKept.next_of_kept (fun s => takeTimedOut_kept k (Kept.refl s)) (takeTimedOut_enrolments k) e
    case outcomeLimit k =>
      exact RollKept.next_of_kept (fun s => outcomeLimitMet_kept k (Kept.refl s)) (outcomeLimitMet_enrolments k) e
    case busyPauseEnd => exact RollKept.next_of_kept (fun s => busyPauseEnds_kept (Kept.refl s)) busyPauseEnds_enrolments e
    case nextPing => exact RollKept.next_of_kept (fun s => pingDue_kept (Kept.refl s)) (fun s => by simp) e
    case absentDeadlineExpiry n =>
      exact RollKept.next_of_kept (fun s => deadlineOf_kept _ n (Kept.refl s)) (deadlineOf_enrolments _ n) e
    case generalDeadline n =>
      exact RollKept.next_of_kept (fun s => deadlineOf_kept _ n (Kept.refl s)) (deadlineOf_enrolments _ n) e
    case quietWindowEnd => exact RollKept.next_of_kept (fun s => quietWindowEnds_kept (Kept.refl s)) quietWindowEnds_enrolments e
    case gatewayByteReceived b =>
      exact RollKept.next_of_kept (fun s => gatewayByte_kept b (Kept.refl s)) (gatewayByte_enrolments b) e
    case outboundFrameSent => exact RollKept.next_of_kept (fun s => frameSent_kept (Kept.refl s)) (fun _ => rfl) e

theorem step_rollKept {s t : State} (e : step s = .next t) : RollKept s t := by
  unfold step at e
  split at e
  · cases e; exact .refl s
  · rename_i i rest _
    have popped : RollKept s { s with pending := rest } := (RollKept.refl s).set rfl rfl
    exact popped.trans (exec_rollKept i e)

/-- Settles O6, by a relation that every function of the model keeps between the state before it and the state after. -/
theorem censusFollowsTheRoll : Obligations.CensusFollowsTheRoll := by
  unfold Obligations.CensusFollowsTheRoll
  exact ⟨fun s t r c e => (step_rollKept e).sound r c, fun s t r c k e => (step_rollKept e).keys r c k⟩

end Sys2Proof.Machine
end

