-- ==== Sys2Proof/Proofs/Refusals.lean ====
section
/-! SUPPORT. How an owner's answer meets the checks of a request, one after another (R193). -/

namespace Sys2Proof.Machine

/-- The answer `r` of an owner in state `s` meets some checks: it is a refusal with the reason they give, the state as it was; and where
none of them holds it is no refusal. -/
def Answers (l : Checks) (s : State) (r : State × Reply) : Prop :=
  (∀ x, l.Give x → r = refuse x s) ∧ ((∀ c ∈ l, ¬c.1) → ∀ x, r.2 ≠ .refused x)

namespace Answers

variable {l : Checks} {s : State} {r : State × Reply} {p : Prop} {reason : Reason}

/-- No check is left, and the request is taken. -/
theorem taken (h : ∀ x, r.2 ≠ .refused x) : Answers [] s r := ⟨nofun, fun _ => h⟩

theorem ok (t : State) (items : List Item) : Answers [] s (t, .ok items) := taken nofun

/-- The first check holds. -/
theorem refused (h : p) : Answers ((p, reason) :: l) s (refuse reason s) := by
  refine ⟨fun x g => ?_, fun g => absurd h (List.forall_mem_cons.1 g).1⟩
  obtain ⟨_, rfl⟩ | ⟨n, _⟩ := g
  · rfl
  · exact absurd h n

/-- The first check does not hold. -/
theorem passes (h : ¬p) (g : Answers l s r) : Answers ((p, reason) :: l) s r := by
  refine ⟨fun x e => ?_, fun e => g.2 (List.forall_mem_cons.1 e).2⟩
  obtain ⟨y, _⟩ | ⟨_, e⟩ := e
  · exact absurd y h
  · exact g.1 x e

/-- An owner that refuses where the first check holds, and goes on where it does not. -/
theorem ite {q : Prop} [Decidable q] (e : q ↔ p) (g : ¬p → Answers l s r) :
    Answers ((p, reason) :: l) s (if q then refuse reason s else r) := by
  split
  · rename_i h
    exact refused (e.1 h)
  · rename_i h
    exact passes (fun y => h (e.2 y)) (g fun y => h (e.2 y))

end Answers

/-- A request whose owner's answer meets its checks is refused as they say. -/
theorem refusedByItsChecks_of {c : Instr} {f : State → State × Reply} {s : State} (hc : requestEffect c = some f)
    (held : s.power.held = false) (h : Answers (checksOf c s) (strapRead c s) (f s)) : RefusedByItsChecks c s := by
  have next : exec c s = .next (replied (f s).2 (f s).1) := (exec_of_request hc s).trans (request_next held f)
  refine ⟨fun x g => ?_, fun g t x e => ?_⟩
  · rw [next, h.1 x g]; rfl
  · rw [next] at e
    cases e
    exact fun y => h.2 g x (Option.some.inj y)

/-- What a request does that is taken, where its owner answers so. -/
theorem exec_taken {c : Instr} {f : State → State × Reply} {s t : State} {r : Reply} (hc : requestEffect c = some f)
    (held : s.power.held = false) (h : f s = (t, r)) : exec c s = .next (replied r t) := by
  rw [exec_of_request hc, request_next held, h]

/-! ### The values of the checks -/

theorem not_slotOk_iff {k : Slot} : (!slotOk k) = true ↔ 2048 ≤ k := by
  rw [Bool.not_eq_true', ← Bool.not_eq_true, slotOk_iff, Nat.not_lt]
theorem dateOk_iff {d : Date} : dateOk d = true ↔ d < 36525 := decide_eq_true_iff
theorem timeOk_iff {t : SchoolTime} : timeOk t = true ↔ t < 86400 := decide_eq_true_iff

theorem optOk_iff {α : Type} {ok : α → Bool} {x : Option α} : optOk ok x = true ↔ ∀ a, x = some a → ok a = true := by
  cases x with
  | none => simp [optOk]
  | some a => simp [optOk]

theorem optOk_isSome_iff {α : Type} {x : Option (Option α)} : optOk Option.isSome x = true ↔ x ≠ some none := by
  cases x with
  | none => simp [optOk]
  | some a => cases a <;> simp [optOk]

theorem isNone_pupilAt_iff {k : Slot} {s : State} : (pupilAt k s).isNone = true ↔ pupilAt k s = none := Option.isNone_iff_eq_none

end Sys2Proof.Machine
end

