-- ==== Sys2Proof/Proofs/EnrolAndAmend.lean ====
section
/-! PROOF. ENROL and AMEND: their checks, and the record they write (R2, R7, R8). -/

namespace Sys2Proof.Machine

/-! ### Slots in use -/

theorem isSome_pupilAt_iff {k : Slot} {s : State} : (pupilAt k s).isSome = true ↔ ∃ e ∈ s.roll.roster, e.1 = k := by
  have none_iff : pupilAt k s = none ↔ ∀ e ∈ s.roll.roster, e.1 ≠ k := tableGet_eq_none
  rw [← Option.ne_none_iff_isSome, Ne, none_iff]
  push Not
  rfl

theorem slotInUse_iff {k : Slot} {s : State} : slotInUse k s = true ↔ SlotUsed k s := by
  simp only [slotInUse, slotAddressed, SlotUsed, Bool.or_eq_true, isSome_pupilAt_iff, List.any_eq_true, isTo_iff,
    decide_eq_true_eq]

/-- The slot ENROL takes where none is named: the lowest not in use. -/
theorem enrolSlot_none {a : EnrolArgs} {s : State} (h : a.slot = none) :
    enrolSlot a s = none ↔ ∀ k < 2048, SlotUsed k s := by
  unfold enrolSlot
  rw [h]
  simp only [List.find?_eq_none, List.mem_range, slotCount, Bool.not_eq_true', Bool.not_eq_false, slotInUse_iff]

theorem enrolSlot_lowest {a : EnrolArgs} {s : State} {k : Slot} (h : a.slot = none) (hk : k < 2048) (free : ¬SlotUsed k s)
    (lowest : ∀ j < k, SlotUsed j s) : enrolSlot a s = some k := by
  unfold enrolSlot
  rw [h]
  simp only [List.find?_range_eq_some, List.mem_range, slotCount, Bool.not_eq_true', Bool.not_not, ← Bool.not_eq_true, slotInUse_iff]
  exact ⟨free, hk, lowest⟩

/-! ### The values given -/

theorem contactsOk_iff {l : List Contact} : contactsOk l = true ↔ ContactsAllowed l := by
  simp only [contactsOk, contactIdOk, ContactsAllowed, Bool.and_eq_true, decide_eq_true_eq, List.all_eq_true, and_assoc]

theorem cardOk_iff {n : Nat} : cardOk n = true ↔ 1 ≤ n ∧ n ≤ 4294967294 := by simp [cardOk]
theorem referenceOk_iff {n : Nat} : referenceOk n = true ↔ 1 ≤ n ∧ n ≤ 999999 := by simp [referenceOk]
theorem formOk_iff {n : Nat} : formOk n = true ↔ n < 64 := decide_eq_true_iff

/-- The values ENROL and AMEND give, as they are tested. -/
theorem enrolmentAllowed_iff {card reference cohort form : Option Nat} {permit : Option SchoolTime}
    {office : Option (Option Bool)} {contacts : Option (List Contact)} :
    EnrolmentAllowed card reference cohort form permit office contacts ↔
      (((((optOk cardOk card = true ∧ optOk referenceOk reference = true) ∧ optOk cohortOk cohort = true) ∧
        optOk formOk form = true) ∧ optOk timeOk permit = true) ∧ optOk Option.isSome office = true) ∧
        optOk contactsOk contacts = true := by
  simp only [EnrolmentAllowed, optOk_iff (ok := cardOk), optOk_iff (ok := referenceOk), optOk_iff (ok := cohortOk),
    optOk_iff (ok := formOk), optOk_iff (ok := timeOk), optOk_iff (ok := contactsOk), optOk_isSome_iff, cardOk_iff,
    referenceOk_iff, cohortOk_iff, formOk_iff, timeOk_iff, contactsOk_iff, and_assoc]

theorem enrolOk_iff {a : EnrolArgs} :
    enrolOk a = true ↔
      EnrolmentAllowed (some a.card) (some a.reference) (some a.cohort) (some a.form) a.permit a.office (some a.contacts) ∧
        ∀ k, a.slot = some k → k < 2048 := by
  rw [enrolmentAllowed_iff]
  simp only [enrolOk, Bool.and_eq_true, optOk_iff (ok := slotOk), slotOk_iff]
  simp only [optOk]
  tauto

theorem optOk_bind {α : Type} {ok : α → Bool} (x : Option (Option α)) : optOk (optOk ok) x = optOk ok (x.bind id) := by
  cases x <;> rfl

theorem amendOk_iff {a : AmendArgs} :
    amendOk a = true ↔
      a.slot < 2048 ∧ EnrolmentAllowed a.card a.reference a.cohort a.form (a.permit.bind id) a.office a.contacts := by
  rw [enrolmentAllowed_iff]
  simp only [amendOk, Bool.and_eq_true, slotOk_iff, optOk_bind]
  tauto

theorem not_iff_of_iff {b : Bool} {p : Prop} (h : b = true ↔ p) : (!b) = true ↔ ¬p := by
  rw [Bool.not_eq_true', ← Bool.not_eq_true, h]

theorem duplicate_enrol_iff {a : EnrolArgs} {s : State} :
    duplicate (some a.card) (some a.reference) none s = true ↔
      ∃ e ∈ s.roll.roster, e.2.enrolment.card = a.card ∨ e.2.enrolment.reference = a.reference := by
  simp [duplicate]

theorem duplicate_amend_iff {a : AmendArgs} {s : State} :
    duplicate a.card a.reference (some a.slot) s = true ↔
      ∃ e ∈ s.roll.roster, e.1 ≠ a.slot ∧
        (a.card = some e.2.enrolment.card ∨ a.reference = some e.2.enrolment.reference) := by
  simp [duplicate, @eq_comm _ a.card, @eq_comm _ a.reference]

/-! ### Refusals -/

theorem any_slotInUse_iff {x : Option Slot} {s : State} :
    x.any (slotInUse · s) = true ↔ ∃ k, x = some k ∧ SlotUsed k s := by
  simp only [Option.any_eq_true, slotInUse_iff]

theorem enrol_answers (a : EnrolArgs) (s : State) : Answers (checksOf (.enrol a) s) s (enrol a s) := by
  refine .ite Iff.rfl fun _ => .ite (not_iff_of_iff enrolOk_iff) fun _ => .ite any_slotInUse_iff fun used => ?_
  cases slot : a.slot with
  | some k =>
    have here : enrolSlot a s = some k := by unfold enrolSlot; rw [slot]
    rw [here]
    exact .passes (fun h => nomatch h.1) (.ite duplicate_enrol_iff fun _ => .ok _ _)
  | none =>
    cases found : enrolSlot a s with
    | none => exact .refused ⟨rfl, (enrolSlot_none slot).1 found⟩
    | some k =>
      have room : ¬∀ k < 2048, SlotUsed k s := fun h => by rw [(enrolSlot_none slot).2 h] at found; cases found
      exact .passes (fun h => room h.2) (.ite duplicate_enrol_iff fun _ => .ok _ _)

theorem amend_answers (a : AmendArgs) (s : State) : Answers (checksOf (.amend a) s) s (amend a s) := by
  have empty : (slotOk a.slot && (pupilAt a.slot s).isNone) = true ↔ a.slot < 2048 ∧ pupilAt a.slot s = none := by
    rw [Bool.and_eq_true, slotOk_iff, isNone_pupilAt_iff]
  refine .ite Iff.rfl fun _ => .ite empty fun present => .ite (not_iff_of_iff amendOk_iff) fun allowed =>
    .ite duplicate_amend_iff fun _ => ?_
  have inRange : a.slot < 2048 := (not_not.1 allowed).1
  cases hp : pupilAt a.slot s with
  | none => exact absurd ⟨inRange, hp⟩ present
  | some p => exact .ok _ _

/-! ### The records written -/

/-- A record written in a slot: what the roll keeps, and how the census moves. -/
theorem putPupil_moves {k : Slot} {p : Pupil} {s : State} (hs : RollOk s) (hk : k < 2048) (hc : p.enrolment.cohort < 8) :
    OthersKept k s (putPupil k p s) ∧
      CensusMoved ((pupilAt k s).map fun q => (q.enrolment.cohort, q.day.mark)) (some (p.enrolment.cohort, p.day.mark)) s
        (putPupil k p s) := by
  have others : OthersKept k s (putPupil k p s) := fun j hj => pupilAt_put_ne hj p s
  exact ⟨others, censusMoved_of hs (hs.put hk hc) others _ _ rfl (by rw [pupilAt_put_self]; rfl)⟩

theorem enrol_taken {a : EnrolArgs} {slot : Slot} {s : State} (h : Passes (.enrol a) s) (hslot : enrolSlot a s = some slot) :
    enrol a s = (settle (putPupil slot (enrolled a) s), .ok [.num slot]) := by
  simp only [Passes, checksOf, List.forall_mem_cons] at h
  obtain ⟨saved, values, used, _, dup, _⟩ := h
  unfold enrol
  rw [if_neg saved, if_neg (fun y => values ((not_iff_of_iff enrolOk_iff).1 y)), if_neg (fun y => used (any_slotInUse_iff.1 y)),
    hslot]
  exact if_neg fun y => dup (duplicate_enrol_iff.1 y)

theorem amend_taken {a : AmendArgs} {p : Pupil} {s : State} (h : Passes (.amend a) s) (hp : pupilAt a.slot s = some p) :
    amend a s = (settle (putPupil a.slot ⟨amended a p.enrolment, p.day⟩ s), .ok []) := by
  simp only [Passes, checksOf, List.forall_mem_cons] at h
  obtain ⟨saved, _, values, dup, _⟩ := h
  unfold amend
  rw [if_neg saved, if_neg (by simp [hp]), if_neg (fun y => values ((not_iff_of_iff amendOk_iff).1 y)),
    if_neg (fun y => dup (duplicate_amend_iff.1 y)), hp]

/-- Settles O7: the checks one after another, then the record that is put in the slot. -/
theorem enrolAndAmendWriteTheRecord : Obligations.EnrolAndAmendWriteTheRecord := by
  unfold Obligations.EnrolAndAmendWriteTheRecord
  refine ⟨fun s held => ⟨fun a => refusedByItsChecks_of rfl held (enrol_answers a s),
    fun a => refusedByItsChecks_of rfl held (amend_answers a s)⟩, fun a slot s held hs h place => ?_, fun a p s held hs h hp => ?_⟩
  · have pass := h
    simp only [Passes, checksOf, List.forall_mem_cons, not_not] at pass
    obtain ⟨_, ⟨⟨_, _, cohort, _⟩, range⟩, used, _⟩ := pass
    have found : enrolSlot a s = some slot := by
      rcases place with e | ⟨e, hk, free, lowest⟩
      · unfold enrolSlot; rw [e]
      · exact enrolSlot_lowest e hk free lowest
    have free : ¬SlotUsed slot s := by
      rcases place with e | ⟨_, _, free, _⟩
      · exact fun y => used ⟨slot, e, y⟩
      · exact free
    have hk : slot < 2048 := by
      rcases place with e | ⟨_, hk, _, _⟩
      · exact range slot e
      · exact hk
    have empty : pupilAt slot s = none := by
      cases e : pupilAt slot s with
      | none => rfl
      | some p => exact absurd (.inl (isSome_pupilAt_iff.1 (by rw [e]; rfl))) free
    obtain ⟨others, moved⟩ := putPupil_moves (p := enrolled a) hs hk (cohort a.cohort rfl)
    rw [empty] at moved
    exact ⟨putPupil slot (enrolled a) s, exec_taken rfl held (enrol_taken h found), rfl, rfl, others, pupilAt_put_self _ _ _,
      moved⟩
  · have pass := h
    simp only [Passes, checksOf, List.forall_mem_cons, not_not] at pass
    obtain ⟨_, _, ⟨hk, _, _, cohort, _⟩, _⟩ := pass
    have hc : (amended a p.enrolment).cohort < 8 := by
      show a.cohort.getD p.enrolment.cohort < 8
      cases e : a.cohort with
      | none => exact hs.cohort hp
      | some c => exact cohort c e
    obtain ⟨others, moved⟩ := putPupil_moves (p := ⟨amended a p.enrolment, p.day⟩) hs hk hc
    rw [hp] at moved
    exact ⟨putPupil a.slot ⟨amended a p.enrolment, p.day⟩ s, amended a p.enrolment, exec_taken rfl held (amend_taken h hp), rfl,
      rfl, others, pupilAt_put_self _ _ _, rfl, rfl, rfl, rfl, rfl, rfl, rfl, moved⟩

end Sys2Proof.Machine
end

