-- ==== Sys2Proof/Proofs/Claims.lean ====
section
/-! SUPPORT. What a claim on a pupil's mark leaves in the state, the roll, the queue and the sweep (R5, R6, R145). -/

namespace Sys2Proof.Machine

/-! ### Withdrawal -/

theorem Withdrawn.congr {p q : Notice → Bool} {l m : List Notice} (h : Withdrawn p l m) (e : ∀ n ∈ l, q n = p n) :
    Withdrawn q l m := by
  unfold Withdrawn at h ⊢
  have kept : (l.filter fun n => !q n || n.inWindow) = l.filter fun n => !p n || n.inWindow :=
    List.filter_congr fun n hn => by rw [e n hn]
  rw [h, kept]
  exact List.map_congr_left fun n hn => by rw [e n (List.mem_of_mem_filter hn)]

/-- A queue of which no notice is withdrawn. -/
theorem withdrawn_none {p : Notice → Bool} {l : List Notice} (h : ∀ n ∈ l, p n = false) : Withdrawn p l l := by
  refine Withdrawn.congr (p := fun _ => false) ?_ h
  simp [Withdrawn]

theorem filterMap_withdrawn (p : Notice → Bool) (l : List Notice) :
    Withdrawn p l (l.filterMap fun n => if p n then (if n.inWindow then some { n with cancel := true } else none) else some n) := by
  unfold Withdrawn
  induction l with
  | nil => rfl
  | cons n t ih =>
    rw [List.filterMap_cons, List.filter_cons, ih]
    cases hp : p n
    · simp [hp]
    · cases hw : n.inWindow
      · simp
      · simp [hp, hw]

theorem withdrawWhere_withdrawn (p : Notice → Bool) (s : State) :
    Withdrawn p s.notices.queue (withdrawWhere p s).notices.queue := by
  rw [withdrawWhere_queue]
  exact filterMap_withdrawn p _

/-- What a new queue changes: the queue and the sweep. -/
theorem setQueue_state (q : List Notice) (s : State) :
    setQueue q s = { s with notices := { s.notices with queue := q }, sweep := (setQueue q s).sweep } := by
  unfold setQueue sweepResume
  dsimp only
  split
  · split <;> rfl
  · rfl

/-! ### The claim -/

variable {k : Slot} {f : DayPart → DayPart} {s : State} {p : Pupil}

/-- A claim on an EMPTY slot. -/
theorem claim_none (h : pupilAt k s = none) : claim k f s = s := by unfold claim; rw [h]

/-- The blocks a claim changes. -/
theorem claim_state (k : Slot) (f : DayPart → DayPart) (s : State) :
    claim k f s =
      { s with
        roll := (claim k f s).roll
        notices := { s.notices with queue := (claim k f s).notices.queue }
        sweep := (claim k f s).sweep } := by
  unfold claim
  split
  · rfl
  · dsimp only
    split
    · unfold withdrawWhere
      rw [setQueue_state]
      rfl
    · rfl

theorem claim_roll (hp : pupilAt k s = some p) : (claim k f s).roll = s.roll.put k { p with day := f p.day } := by
  unfold claim
  rw [hp]
  dsimp only
  split
  · exact withdrawWhere_roll _ _
  · rfl

theorem claim_away (k : Slot) (f : DayPart → DayPart) (s : State) : (claim k f s).roll.away = s.roll.away := by
  cases hp : pupilAt k s with
  | none => rw [claim_none hp]
  | some p => rw [claim_roll hp]; rfl

theorem pupilAt_claim_self (hp : pupilAt k s = some p) : pupilAt k (claim k f s) = some { p with day := f p.day } := by
  rw [pupilAt_congr (t := claim k f s) (s := putPupil k { p with day := f p.day } s) (by rw [claim_roll hp]; rfl)]
  exact pupilAt_put_self _ _ _

theorem claim_others (k : Slot) (f : DayPart → DayPart) (s : State) : OthersKept k s (claim k f s) := by
  intro j hj
  cases hp : pupilAt k s with
  | none => rw [claim_none hp]
  | some p =>
    rw [pupilAt_congr (t := claim k f s) (s := putPupil k { p with day := f p.day } s) (by rw [claim_roll hp]; rfl)]
    exact pupilAt_put_ne hj _ s

theorem claim_rollOk (hs : RollOk s) (k : Slot) (f : DayPart → DayPart) : RollOk (claim k f s) := by
  cases hp : pupilAt k s with
  | none => rw [claim_none hp]; exact hs
  | some p =>
    have put : RollOk (putPupil k { p with day := f p.day } s) := hs.put (hs.slot_lt hp) (hs.cohort (k := k) (p := p) hp)
    exact put.congr (by rw [claim_roll hp]; rfl) (by rw [claim_roll hp]; rfl)

theorem claim_moved (hs : RollOk s) (hp : pupilAt k s = some p) :
    CensusMoved (some (p.enrolment.cohort, p.day.mark)) (some (p.enrolment.cohort, (f p.day).mark)) s (claim k f s) :=
  censusMoved_of hs (claim_rollOk hs k f) (claim_others k f s) _ _ (by rw [hp]; rfl) (by rw [pupilAt_claim_self hp]; rfl)

/-- The notice that a pupil who leaves ABSENT_PENDING has is withdrawn (R6). -/
theorem claim_withdrawn (hp : pupilAt k s = some p) :
    Withdrawn (fun n => decide (p.day.mark = .absentPending ∧ (f p.day).mark ≠ .absentPending) && n.isAbsentOf k) s.notices.queue
      (claim k f s).notices.queue := by
  unfold claim
  rw [hp]
  dsimp only
  split
  · rename_i h
    refine (withdrawWhere_withdrawn (·.isAbsentOf k) (putPupil k { p with day := f p.day } s)).congr fun n _ => ?_
    rw [decide_eq_true h, Bool.true_and]
  · rename_i h
    refine withdrawn_none fun n _ => ?_
    rw [decide_eq_false h, Bool.false_and]

/-- A claim that does not take a pupil out of ABSENT_PENDING leaves the queue and the sweep. -/
theorem claim_stays (hp : pupilAt k s = some p) (h : ¬(p.day.mark = .absentPending ∧ (f p.day).mark ≠ .absentPending)) :
    claim k f s = { s with roll := s.roll.put k { p with day := f p.day } } := by
  unfold claim
  rw [hp]
  exact if_neg h

/-- A notice's pupil left ABSENT_PENDING between two states that differ in one pupil alone. -/
theorem leftPending_one {t : State} (others : OthersKept k s t) {q : Pupil} (hp : pupilAt k s = some p) (hq : pupilAt k t = some q)
    (n : Notice) :
    leftPending s t n = (decide (p.day.mark = .absentPending ∧ q.day.mark ≠ .absentPending) && n.isAbsentOf k) := by
  unfold leftPending Notice.isAbsentOf Notice.isTo
  cases n.addressee with
  | broadcast b => simp
  | pupil j i =>
    dsimp only
    by_cases hj : j = k
    · subst hj
      rw [hp, hq]
      simp only [Option.any_some, decide_true, Bool.and_true, Bool.decide_and, decide_not]
      grind
    · rw [others j hj]
      simp [hj]

theorem claim_leftPending (k : Slot) (f : DayPart → DayPart) (s : State) :
    Withdrawn (leftPending s (claim k f s)) s.notices.queue (claim k f s).notices.queue := by
  cases hp : pupilAt k s with
  | none =>
    rw [claim_none hp]
    refine withdrawn_none fun n _ => ?_
    unfold leftPending
    cases n.addressee with
    | broadcast b => rfl
    | pupil j i => simp
  | some p => exact (claim_withdrawn hp).congr fun n _ => leftPending_one (claim_others k f s) hp (pupilAt_claim_self hp) n

end Sys2Proof.Machine
end

