-- ==== Sys2Proof/Proofs/MarkRequest.lean ====
section
/-! PROOF. MARK: its checks, and the day part it leaves (R13, R14, R16). -/

namespace Sys2Proof.Machine

theorem dayIsOpen_iff {s : State} : dayIsOpen s = true ↔ s.day.state = .open_ := decide_eq_true_iff

theorem officeReason_iff {r : ExcuseReason} :
    officeReason r = true ↔ r = .ill ∨ r = .appointment ∨ r = .family ∨ r = .authorised := by
  cases r <;> decide

theorem maySignOut_iff {m : Mark} :
    maySignOut m = true ↔ m = .present ∨ m = .late ∨ m = .lateAfterCut ∨ m = .arrivedExcused := by
  cases m <;> decide

theorem markArgsOk_iff {a : MarkArgs} : markArgsOk a = true ↔ MarkAllowed a := by
  obtain ⟨slot, target, reason, back⟩ := a
  have inTime : optOk timeOk back = true ↔ ∀ t, back = some t → t < 86400 := by
    rw [optOk_iff]; simp only [timeOk_iff]
  simp only [markArgsOk, MarkAllowed, Bool.and_eq_true, inTime]
  refine and_congr_right fun _ => ?_
  match target, reason with
  | none, _ => simp
  | some .excused, none => simp
  | some .excused, some none => simp
  | some .excused, some (some r) =>
    simp only [Bool.and_eq_true, officeReason_iff, Bool.or_eq_true, Option.isNone_iff_eq_none, decide_eq_true_eq,
      Option.some.injEq, exists_eq_left']
  | some .unseen, none | some .expected, none | some .signedOut, none => simp [markTarget]
  | some .present, none | some .late, none | some .lateAfterCut, none | some .absentPending, none | some .absentAsked, none
  | some .absentUnreached, none | some .arrivedExcused, none => simp [markTarget]
  | some .unseen, some _ | some .expected, some _ | some .signedOut, some _ | some .present, some _ | some .late, some _
  | some .lateAfterCut, some _ | some .absentPending, some _ | some .absentAsked, some _ | some .absentUnreached, some _
  | some .arrivedExcused, some _ => simp

/-- The targets MARK takes. -/
theorem MarkAllowed.target {a : MarkArgs} (h : MarkAllowed a) :
    a.target = some .unseen ∨ a.target = some .excused ∨ a.target = some .expected ∨ a.target = some .signedOut := by
  obtain ⟨slot, target, reason, back⟩ := a
  obtain ⟨_, h⟩ := h
  match target, h with
  | some .unseen, _ => exact .inl rfl
  | some .excused, _ => exact .inr (.inl rfl)
  | some .expected, _ => exact .inr (.inr (.inl rfl))
  | some .signedOut, _ => exact .inr (.inr (.inr rfl))

/-- The state MARK to a mark other than SIGNED_OUT leaves before the Dispatcher works. -/
def marked (a : MarkArgs) (m : Mark) (p : Pupil) (s : State) : State :=
  let claimed := claim a.slot (markedAs m (a.reason.getD none) a.back) s
  if overrulesTap p.day then raise .dispute (some (.slot a.slot)) claimed else claimed

variable {a : MarkArgs} {p : Pupil} {s : State}

/-- What MARK comes to where none of its first checks holds. -/
theorem mark_present (hk : a.slot < 2048) (ho : s.day.state = .open_) (ha : MarkAllowed a) (hp : pupilAt a.slot s = some p) :
    (a.target = some .signedOut →
      mark a s =
        if maySignOut p.day.mark then
          (settle (claim a.slot signedOut s), .ok [markItem a.slot (claim a.slot signedOut s)])
        else refuse .wrongState s) ∧
    ∀ m, a.target = some m → m ≠ .signedOut → mark a s = (settle (marked a m p s), .ok [markItem a.slot (marked a m p s)]) := by
  unfold mark marked
  rw [if_neg (fun h => absurd (not_slotOk_iff.1 h) (Nat.not_le.2 hk)), if_neg (by rw [dayIsOpen_iff.2 ho]; nofun),
    if_neg (by rw [markArgsOk_iff.2 ha]; nofun), hp]
  refine ⟨fun h => by rw [h], fun m h hm => ?_⟩
  rw [h]
  cases m
  case signedOut => exact absurd rfl hm
  all_goals rfl

/-- A pupil who may not sign out. -/
theorem not_maySignOut_iff :
    ¬maySignOut p.day.mark = true ↔
      ∀ q, some p = some q →
        q.day.mark ≠ .present ∧ q.day.mark ≠ .late ∧ q.day.mark ≠ .lateAfterCut ∧ q.day.mark ≠ .arrivedExcused := by
  simp only [Option.some.injEq, forall_eq', maySignOut_iff, not_or, ne_eq]

theorem mark_answers (a : MarkArgs) (s : State) : Answers (checksOf (.mark a) s) s (mark a s) := by
  refine .ite not_slotOk_iff fun _ => .ite (not_iff_of_iff dayIsOpen_iff) fun _ => .ite (not_iff_of_iff markArgsOk_iff) fun ha => ?_
  cases hp : pupilAt a.slot s with
  | none => exact .refused rfl
  | some p =>
    refine .passes nofun ?_
    have target := (not_not.1 ha).target
    rcases target with ht | ht | ht | ht <;> rw [ht]
    case inr.inr.inr =>
      dsimp only
      by_cases may : maySignOut p.day.mark = true
      · rw [if_pos may]
        exact .passes (fun h => not_maySignOut_iff.2 h.2 may) (.ok _ _)
      · rw [if_neg may]
        exact .refused ⟨rfl, not_maySignOut_iff.1 may⟩
    all_goals exact .passes (fun h => nomatch h.1) (.ok _ _)

/-- The arrival of a tap is overruled. -/
theorem overrulesTap_iff {d : DayPart} : overrulesTap d = true ↔ isArrivalMark d.mark = true ∧ d.source = some .tap := by
  simp only [overrulesTap, Bool.and_eq_true, decide_eq_true_eq]

/-- What MARK leaves differs from the claim by the Attention Unit alone. -/
theorem marked_state (a : MarkArgs) (m : Mark) (p : Pupil) (s : State) :
    marked a m p s =
      { claim a.slot (markedAs m (a.reason.getD none) a.back) s with
        attention := if overrulesTap p.day then (raise .dispute (some (.slot a.slot)) s).attention else s.attention } := by
  unfold marked
  dsimp only
  have same := claim_state a.slot (markedAs m (a.reason.getD none) a.back) s
  split
  · rw [same]; rfl
  · rw [same]

/-- Settles O9: the checks, then the claim that replaces the mark. -/
theorem markReplacesTheMark : Obligations.MarkReplacesTheMark := by
  unfold Obligations.MarkReplacesTheMark
  refine ⟨fun a s held => refusedByItsChecks_of rfl held (mark_answers a s), fun a m p s held hs ho ha ht hm hp => ?_,
    fun a p s held hs ho ha ht hp => ?_⟩
  · have taken := (mark_present (hs.slot_lt hp) ho ha hp).2 m ht hm
    have pending : m ≠ .absentPending := by
      have := ha.target
      rw [ht] at this
      rintro rfl
      simp at this
    have state := marked_state a m p s
    have withdrawn := claim_withdrawn (f := markedAs m (a.reason.getD none) a.back) hp
    have item : markItem a.slot (marked a m p s) = .word (markWord m) := by
      have : markAt a.slot (marked a m p s) = some m := by
        rw [markAt_congr (s := claim a.slot (markedAs m (a.reason.getD none) a.back) s) (by rw [state]), markAt_claim_self, hp]
        rfl
      unfold markItem
      rw [this]
      rfl
    rw [item] at taken
    refine ⟨marked a m p s, exec_taken rfl held taken, ?_, ?_, ?_, ?_, ?_, ?_, ?_, ?_⟩
    · rw [state, claim_state]
    · rw [state]
      exact (claim_heard a.slot _ (Heard.refl s)).heard
    · rw [state]
      exact claim_away _ _ s
    · rw [state]
      exact claim_others a.slot (markedAs m (a.reason.getD none) a.back) s
    · rw [state]
      exact pupilAt_claim_self (f := markedAs m (a.reason.getD none) a.back) hp
    · rw [state]
      exact claim_moved (f := markedAs m (a.reason.getD none) a.back) hs hp
    · rw [state]
      simp only [overrulesTap_iff]
    · rw [state]
      split
      · rename_i h
        exact withdrawn.congr fun n _ => by rw [decide_eq_true ⟨h, pending⟩, Bool.true_and]
      · rename_i h
        rw [claim_stays hp fun x => h x.1]
  · have out := (mark_present (hs.slot_lt hp) ho ha hp).1 ht
    split
    · rename_i may
      have stays : ¬(p.day.mark = .absentPending ∧ (signedOut p.day).mark ≠ .absentPending) := by
        rintro ⟨e, _⟩
        rw [e] at may
        simp at may
      rw [if_pos (maySignOut_iff.2 may)] at out
      have item : markItem a.slot (claim a.slot signedOut s) = .word "SIGNED_OUT" := by
        unfold markItem
        rw [markAt_claim_self, hp]
        rfl
      rw [item] at out
      refine ⟨_, exec_taken rfl held out, ?_, claim_away _ _ s, claim_others _ _ s, pupilAt_claim_self hp, claim_moved hs hp⟩
      rw [claim_stays hp stays]
    · rename_i may
      rw [if_neg fun h => may (maySignOut_iff.1 h)] at out
      exact exec_taken rfl held out

end Sys2Proof.Machine
end

