-- ==== Sys2Proof/Proofs/AwayRequests.lean ====
section
/-! PROOF. AWAY and UNAWAY: their checks, the entry in its place, and its effect on today (R22–R24, R26). -/

namespace Sys2Proof.Machine

/-! ### The list -/

theorem awayBefore_iff {x y : AwayEntry} : awayBefore x y = true ↔ x.first < y.first ∨ x.first = y.first ∧ x.slot ≤ y.slot := by
  simp only [awayBefore, Bool.or_eq_true, Bool.and_eq_true, decide_eq_true_eq]

/-- An entry is placed behind those that stand at or before it and in front of the first that does not. -/
theorem placeAway_split (e : AwayEntry) (l : List AwayEntry) :
    ∃ front back, l = front ++ back ∧ placeAway e l = front ++ e :: back ∧ (∀ x ∈ front, awayBefore x e = true) ∧
      ∀ x, back.head? = some x → ¬awayBefore x e = true := by
  induction l with
  | nil => exact ⟨[], [], rfl, rfl, nofun, nofun⟩
  | cons x t ih =>
    unfold placeAway
    split
    · rename_i h
      obtain ⟨front, back, e1, e2, before, after⟩ := ih
      exact ⟨x :: front, back, by rw [e1, List.cons_append], by rw [e2, List.cons_append], List.forall_mem_cons.2 ⟨h, before⟩,
        after⟩
    · rename_i h
      exact ⟨[], x :: t, rfl, rfl, nofun, fun y hy => by cases hy; exact h⟩

theorem any_awayOverlaps_iff {slot : Slot} {first last : Date} {l : List AwayEntry} :
    l.any (awayOverlaps slot first last) = true ↔ ∃ e ∈ l, e.slot = slot ∧ e.first ≤ last ∧ first ≤ e.last := by
  simp only [List.any_eq_true, awayOverlaps, Bool.and_eq_true, decide_eq_true_eq, and_assoc]

/-! ### Refusals -/

theorem not_awayReason_iff {r : Option ExcuseReason} : (!awayReason r) = true ↔ r = none ∨ r = some .closure := by
  cases r with
  | none => simp [awayReason]
  | some r => cases r <;> simp [awayReason, officeReason]

theorem badAway_iff {first last : Date} {reason : Option ExcuseReason} {s : State} :
    (!dateOk first || !dateOk last || decide (last < first) || decide (last < s.time.date) || !awayReason reason) = true ↔
      36525 ≤ first ∨ 36525 ≤ last ∨ last < first ∨ last < s.time.date ∨ reason = none ∨ reason = some .closure := by
  have date (d : Date) : (!dateOk d) = true ↔ 36525 ≤ d := (not_iff_of_iff dateOk_iff).trans Nat.not_lt
  rw [Bool.or_eq_true, Bool.or_eq_true, Bool.or_eq_true, Bool.or_eq_true, date, date, decide_eq_true_eq, decide_eq_true_eq,
    not_awayReason_iff]
  tauto

theorem away_answers (slot : Slot) (first last : Date) (reason : Option ExcuseReason) (s : State) :
    Answers (checksOf (.away slot first last reason) s) s (away slot first last reason s) := by
  have invalid : (!s.time.valid) = true ↔ s.time.valid = false := by
    rw [Bool.not_eq_true']
  exact .ite not_slotOk_iff fun _ => .ite Iff.rfl fun _ => .ite invalid fun _ => .ite badAway_iff fun _ =>
    .ite isNone_pupilAt_iff fun _ => .ite any_awayOverlaps_iff fun _ => .ite Iff.rfl fun _ => .ok _ _

theorem any_begins_iff {slot : Slot} {first : Date} {l : List AwayEntry} :
    (l.any fun e => e.slot = slot && e.first = first) = true ↔ ¬∀ e ∈ l, ¬(e.slot = slot ∧ e.first = first) := by
  simp only [List.any_eq_true, Bool.and_eq_true, decide_eq_true_eq, not_forall, not_not, exists_prop]

theorem unaway_answers (slot : Slot) (first : Date) (s : State) :
    Answers (checksOf (.unaway slot first) s) s (unaway slot first s) := by
  have range : (!slotOk slot || !dateOk first) = true ↔ 2048 ≤ slot ∨ 36525 ≤ first := by
    rw [Bool.or_eq_true, not_slotOk_iff, not_iff_of_iff dateOk_iff, Nat.not_lt]
  refine .ite range fun _ => .ite Iff.rfl fun _ => ?_
  by_cases found : (s.roll.away.any fun e => e.slot = slot && e.first = first) = true
  · rw [if_pos found]
    exact .passes (any_begins_iff.1 found) (.ok _ _)
  · rw [if_neg found]
    exact .refused (not_not.1 fun h => found (any_begins_iff.2 h))

/-! ### Their effects -/

theorem away_taken {slot : Slot} {first last : Date} {reason : ExcuseReason} {s : State}
    (h : Passes (.away slot first last (some reason)) s) :
    away slot first last (some reason) s = (settle (addAway ⟨slot, first, last, reason, .office⟩ s), .ok []) := by
  simp only [Passes, checksOf, List.forall_mem_cons] at h
  obtain ⟨range, saved, valid, values, present, overlap, room, _⟩ := h
  unfold away
  rw [if_neg fun y => range (not_slotOk_iff.1 y), if_neg saved, if_neg (fun y => valid (by rwa [Bool.not_eq_true'] at y)),
    if_neg fun y => values (badAway_iff.1 y), if_neg fun y => present (isNone_pupilAt_iff.1 y),
    if_neg fun y => overlap (any_awayOverlaps_iff.1 y)]
  exact if_neg room

/-- An entry of the Away List covers today, and its slot is of those it acts on (R24). -/
abbrev ActsToday (e : AwayEntry) (s : State) : Prop :=
  (s.day.state = .open_ ∨ s.day.state = .opening ∧ e.slot < s.day.cursor) ∧ e.first ≤ today s ∧ today s ≤ e.last

/-- The day part an Away List entry or a closure leaves (R24, R44). -/
def excused (source : MarkSource) (reason : ExcuseReason) (d : DayPart) : DayPart :=
  if isUnaccountedMark d.mark then { d with mark := .excused, source := some source, reason := some reason, back := none } else d

theorem addAway_eq (e : AwayEntry) (s : State) :
    addAway e s =
      if ActsToday e s then claim e.slot (excused .away e.reason) (setAway (placeAway e) s) else setAway (placeAway e) s := rfl

/-- What a new entry leaves in every block. -/
theorem addAway_state (e : AwayEntry) (s : State) :
    addAway e s =
      { s with
        roll := (addAway e s).roll
        notices := { s.notices with queue := (addAway e s).notices.queue }
        sweep := (addAway e s).sweep } := by
  rw [addAway_eq]
  split
  · exact (claim_state _ _ _).trans rfl
  · rfl

theorem addAway_heard (e : AwayEntry) (s : State) : Heard s (addAway e s) := by
  have listed : Heard s (setAway (placeAway e) s) := (Heard.refl s).set rfl
  exact Heard.ite (claim_heard _ _ listed) listed

theorem addAway_away (e : AwayEntry) (s : State) : (addAway e s).roll.away = placeAway e s.roll.away := by
  rw [addAway_eq]
  split
  · exact claim_away _ _ _
  · rfl

theorem addAway_others (e : AwayEntry) (s : State) : OthersKept e.slot s (addAway e s) := by
  rw [addAway_eq]
  split
  · exact claim_others e.slot _ (setAway (placeAway e) s)
  · exact fun _ _ => rfl

theorem addAway_leftPending (e : AwayEntry) (s : State) :
    Withdrawn (leftPending s (addAway e s)) s.notices.queue (addAway e s).notices.queue := by
  rw [addAway_eq]
  split
  · exact claim_leftPending e.slot (excused .away e.reason) (setAway (placeAway e) s)
  · refine withdrawn_none fun n _ => ?_
    unfold leftPending
    cases n.addressee with
    | broadcast b => rfl
    | pupil j i =>
      show (_ && (pupilAt j s).any _ && !(pupilAt j s).any _) = false
      simp

theorem pupilAt_addAway {e : AwayEntry} {s : State} {p : Pupil} (hp : pupilAt e.slot s = some p) :
    pupilAt e.slot (addAway e s) =
      some (if ActsToday e s ∧ isUnaccountedMark p.day.mark = true then
        { p with day := { p.day with mark := .excused, source := some .away, reason := some e.reason, back := none } } else p) := by
  rw [addAway_eq]
  split
  · rename_i h
    rw [pupilAt_claim_self (s := setAway (placeAway e) s) hp]
    unfold excused
    split <;> rename_i hm
    · rw [if_pos ⟨h, hm⟩]
    · rw [if_neg fun x => hm x.2]
  · rename_i h
    rw [if_neg fun x => h x.1]
    exact hp

/-- Settles O11: the checks, the place of the new entry, and the claim it makes on today. -/
theorem awayListIsEdited : Obligations.AwayListIsEdited := by
  unfold Obligations.AwayListIsEdited
  refine ⟨fun s held => ⟨fun slot first last reason => refusedByItsChecks_of rfl held (away_answers slot first last reason s),
    fun slot first => refusedByItsChecks_of rfl held (unaway_answers slot first s)⟩,
    fun slot first last reason p s held hs saved valid hk order inYear future notClosure hp apart room => ?_,
    fun e s held saved he hk hd => ?_⟩
  · have passes : Passes (.away slot first last (some reason)) s := by
      simp only [Passes, checksOf, List.forall_mem_cons]
      refine ⟨Nat.not_le.2 hk, by simp [saved], by simp [valid], ?_, by simp [hp], ?_, Nat.not_le.2 room, nofun⟩
      · rintro (h | h | h | h | h | h)
        · exact Nat.not_le.2 (Nat.lt_of_le_of_lt order inYear) h
        · exact Nat.not_le.2 inYear h
        · exact Nat.not_lt.2 order h
        · exact Nat.not_lt.2 future h
        · cases h
        · exact notClosure (Option.some.inj h)
      · rintro ⟨x, hx, e, h1, h2⟩
        rcases apart x hx e with h | h
        · exact Nat.not_lt.2 h2 h
        · exact Nat.not_lt.2 h1 h
    obtain ⟨front, back, split, placed, before, after⟩ := placeAway_split ⟨slot, first, last, reason, .office⟩ s.roll.away
    refine ⟨addAway ⟨slot, first, last, reason, .office⟩ s, exec_taken rfl held (away_taken passes), addAway_state _ s,
      (addAway_heard _ s).heard,
      ⟨front, back, split, (addAway_away _ s).trans placed, fun x hx => awayBefore_iff.1 (before x hx),
        fun x hx h => after x hx (awayBefore_iff.2 h)⟩, addAway_others ⟨slot, first, last, reason, .office⟩ s, addAway_leftPending _ s, ?_⟩
    rw [pupilAt_addAway (e := ⟨slot, first, last, reason, .office⟩) hp]
    simp only [and_assoc]
  · have taken : unaway e.slot e.first s =
        (setAway (·.filter fun x => !(x.slot = e.slot && x.first = e.first)) s, .ok []) := by
      have found : (s.roll.away.any fun x => x.slot = e.slot && x.first = e.first) = true :=
        any_begins_iff.2 fun h => h e he ⟨rfl, rfl⟩
      unfold unaway
      rw [if_neg (by simp [slotOk_iff.2 hk, dateOk_iff.2 hd]), if_neg (by simp [saved]), if_pos found]
    exact exec_taken rfl held taken

end Sys2Proof.Machine
end

