-- ==== Sys2Proof/Proofs/Reads.lean ====
section
/-! PROOF. The reading requests of the roll, the Away List, the calendar and the plans (R10–R12, R18, R19, R26, R34, R55, R71). -/

namespace Sys2Proof.Machine

/-! ### Refusals -/

theorem Answers.page {l : Checks} {s : State} {r : State × Reply} {p q : Prop} [Decidable q] {reason : Reason} (e : q ↔ p)
    (g : Answers l s r) : Answers ((p, reason) :: l) s (if q then refuse reason s else r) := .ite e fun _ => g

/-- An owner that goes on where its test passes, and refuses where it does not. -/
theorem Answers.unless {l : Checks} {s : State} {r : State × Reply} {p : Prop} {b : Bool} {reason : Reason} (e : b = true ↔ ¬p)
    (g : Answers l s r) : Answers ((p, reason) :: l) s (if b then r else refuse reason s) := by
  by_cases h : b = true
  · rw [if_pos h]
    exact .passes (e.1 h) g
  · rw [if_neg h]
    exact .refused (not_not.1 fun y => h (e.2 y))

theorem pupil_answers (k : Slot) (s : State) : Answers (checksOf (.pupil k) s) s (pupil k s) := by
  refine .ite not_slotOk_iff fun _ => ?_
  cases pupilAt k s with
  | none => exact .ok _ _
  | some p => exact .ok _ _

/-- The reply to a FIND by a key. -/
theorem slotReply_answers {test : Pupil → Bool} {P : Prop} {s : State}
    (e : (∀ x ∈ s.roll.roster, ¬test x.2 = true) ↔ P) : Answers [(P, .noSuch)] s (slotReply test s) := by
  unfold slotReply
  split
  · rename_i none
    exact .refused (e.1 fun x hx => List.find?_eq_none.1 none x hx)
  · rename_i x found
    exact .passes (fun h => e.2 h x (List.mem_of_find?_eq_some found) (List.find?_some (p := fun e : Slot × Pupil => test e.2) found)) (.ok _ _)

theorem findPupil_answers (q : FindQuery) (s : State) : Answers (checksOf (.find q) s) s (findPupil q s) := by
  cases q with
  | card key =>
    refine .unless (by rw [cardOk_iff, not_not]) (slotReply_answers ?_)
    simp only [decide_eq_true_eq, ne_eq]
  | reference r =>
    refine .unless (by rw [referenceOk_iff, not_not]) (slotReply_answers ?_)
    simp only [decide_eq_true_eq, ne_eq]
  | contact id start =>
    refine .page ?_ (.ok _ _)
    rw [Bool.or_eq_true, not_slotOk_iff]
    simp only [contactIdOk, Bool.not_eq_true', Bool.and_eq_false_iff, decide_eq_false_iff_not]
    rw [not_and_or, not_and_or, Nat.not_lt, or_assoc]

theorem badMarks_iff {a : MarksArgs} :
    (!cohortOk a.cohort || !optOk Option.isSome a.mark || !optOk formOk a.form || decide (a.disputed = some false) ||
        !slotOk a.start) = true ↔
      8 ≤ a.cohort ∨ a.mark = some none ∨ (∃ f, a.form = some f ∧ 64 ≤ f) ∨ a.disputed = some false ∨ 2048 ≤ a.start := by
  have cohort : (!cohortOk a.cohort) = true ↔ 8 ≤ a.cohort := (not_iff_of_iff cohortOk_iff).trans Nat.not_lt
  have mark : (!optOk Option.isSome a.mark) = true ↔ a.mark = some none := (not_iff_of_iff optOk_isSome_iff).trans not_not
  have form : (!optOk formOk a.form) = true ↔ ∃ f, a.form = some f ∧ 64 ≤ f := by
    rw [not_iff_of_iff optOk_iff]
    simp only [formOk_iff, not_forall, Nat.not_lt, exists_prop]
  rw [Bool.or_eq_true, Bool.or_eq_true, Bool.or_eq_true, Bool.or_eq_true, cohort, mark, form, decide_eq_true_eq, not_slotOk_iff,
    or_assoc, or_assoc, or_assoc]

theorem marks_answers (a : MarksArgs) (s : State) : Answers (checksOf (.marks a) s) s (marks a s) := .page badMarks_iff (.ok _ _)

theorem census_answers (c : Option Nat) (start : Nat) (s : State) :
    Answers (checksOf (.census c start) s) s (census c start s) := by
  cases c with
  | none => exact .passes (fun ⟨_, h, _⟩ => nomatch h) (.ok _ _)
  | some c =>
    refine .unless ?_ (.ok _ _)
    rw [cohortOk_iff]
    simp

theorem not_optOk_dateOk_iff {d : Option Date} : (!optOk dateOk d) = true ↔ ∃ x, d = some x ∧ 36525 ≤ x := by
  rw [not_iff_of_iff optOk_iff]
  simp only [dateOk_iff, not_forall, Nat.not_lt, exists_prop]

theorem aways_answers (k : Option Slot) (d : Option Date) (s : State) : Answers (checksOf (.aways k d) s) s (aways k d s) := by
  refine .page ?_ (.ok _ _)
  rw [Bool.or_eq_true, not_optOk_dateOk_iff, not_iff_of_iff optOk_iff]
  simp only [slotOk_iff, not_forall, Nat.not_lt, exists_prop]

theorem dates_answers (d : Option Date) (s : State) : Answers (checksOf (.dates d) s) s (dates d s) :=
  .page not_optOk_dateOk_iff (.ok _ _)

theorem not_bankOk_iff {b : Nat} : (!bankOk b) = true ↔ 4 ≤ b := by
  simp only [bankOk, Bool.not_eq_true', decide_eq_false_iff_not, Nat.not_lt]

theorem bankRead_answers (b n : Nat) (s : State) : Answers (checksOf (.bank b n) s) s (bankRead b n s) := by
  refine .page ?_ (.ok _ _)
  rw [Bool.or_eq_true, not_bankOk_iff, decide_eq_true_eq]
  rfl

theorem todayRead_answers (n : Nat) (s : State) : Answers (checksOf (.today n) s) s (todayRead n s) := .page Iff.rfl (.ok _ _)

/-! ### FIND -/

/-- A FIND by a key that one record alone holds. -/
theorem slotReply_unique {test : Pupil → Bool} {k : Slot} {p : Pupil} {s : State} (hs : RollOk s) (hp : pupilAt k s = some p)
    (ht : test p = true) (unique : ∀ j q, j ≠ k → pupilAt j s = some q → ¬test q = true) :
    slotReply test s = (s, .ok [.num k]) := by
  have found : ∃ x, s.roll.roster.find? (fun e => test e.2) = some x := by
    rw [← Option.isSome_iff_exists, List.find?_isSome]
    exact ⟨(k, p), mem_of_tableGet hp, ht⟩
  obtain ⟨⟨j, q⟩, found⟩ := found
  have here : j = k := by
    by_contra hj
    exact unique j q hj (tableGet_of_mem hs.wf (List.mem_of_find?_eq_some found)) (List.find?_some (p := fun e : Slot × Pupil => test e.2) found)
  unfold slotReply
  rw [found, here]
  rfl

/-- The place of a contact ID is that of the first entry which holds it. -/
theorem contactPlace_eq_some_iff {id i : Nat} {l : List Contact} :
    contactPlace id l = some i ↔ (∃ c, l[i]? = some c ∧ c.id = id) ∧ ∀ j < i, ∀ c, l[j]? = some c → c.id ≠ id := by
  unfold contactPlace
  rw [List.findIdx?_eq_some_iff_getElem]
  constructor
  · rintro ⟨hi, here, before⟩
    refine ⟨⟨l[i], List.getElem?_eq_getElem hi, by simpa using here⟩, fun j hj c hc => ?_⟩
    obtain ⟨hj', rfl⟩ := List.getElem?_eq_some_iff.1 hc
    simpa using before j hj
  · rintro ⟨⟨c, hc, here⟩, before⟩
    obtain ⟨hi, rfl⟩ := List.getElem?_eq_some_iff.1 hc
    exact ⟨hi, by simpa using here, fun j hj => by simpa using before j hj _ (List.getElem?_eq_getElem (hj.trans hi))⟩

theorem mem_withContact_iff {id : Nat} {s : State} (hs : RollOk s) {k : Slot} {i : Nat} :
    (k, i) ∈ withContact id s ↔ ∃ p, pupilAt k s = some p ∧ contactPlace id p.enrolment.contacts = some i := by
  unfold withContact
  simp only [List.mem_filterMap, Option.map_eq_some_iff, Prod.mk.injEq]
  constructor
  · rintro ⟨⟨j, p⟩, he, i', hi, rfl, rfl⟩
    exact ⟨p, tableGet_of_mem hs.wf he, hi⟩
  · rintro ⟨p, hp, hi⟩
    exact ⟨(k, p), mem_of_tableGet hp, i, hi, rfl, rfl⟩

theorem withContact_sorted {id : Nat} {s : State} (hs : RollOk s) : ((withContact id s).map Prod.fst).Pairwise (· < ·) := by
  refine List.pairwise_map.2 (List.Pairwise.filterMap _ (fun x y h => ?_) (List.pairwise_map.1 hs.wf))
  simp only [Option.map_eq_some_iff]
  rintro _ ⟨_, _, rfl⟩ _ ⟨_, _, rfl⟩
  exact h

/-! ### CENSUS -/

theorem sum_modify_succ : ∀ {l : List Nat} {k : Nat}, k < l.length → (l.modify k (· + 1)).sum = l.sum + 1
  | [], _, h => nomatch h
  | _ :: _, 0, _ => by simp only [List.modify_zero_cons, List.sum_cons]; omega
  | x :: l, k + 1, h => by
    have := sum_modify_succ (l := l) (k := k) (Nat.lt_of_succ_lt_succ h)
    simp only [List.modify_succ_cons, List.sum_cons]
    omega

/-- The sum of a row of the census after a count is taken up. -/
theorem sum_censusUp {t : List (List Nat)} (h : CensusShape t) {j : Nat} (hj : j < 8) (m : Mark) (k : Nat) :
    ((censusUp j m t).getD k []).sum = (t.getD k []).sum + if j = k then 1 else 0 := by
  obtain ⟨len, rows⟩ := h
  simp only [censusUp, List.getD_eq_getElem?_getD, List.getElem?_modify]
  by_cases hk : j = k
  · subst hk
    have inside : j < t.length := by omega
    rw [List.getElem?_eq_getElem inside, if_pos rfl]
    have row : markColumn m < (t[j]'inside).length := by
      rw [rows _ (List.getElem_mem inside)]
      exact markColumn_lt m
    simp only [if_true, Option.map_eq_map, Option.map_some, Option.getD_some]
    exact sum_modify_succ row
  · simp only [if_neg hk, id_map', Nat.add_zero]

/-- The counts of a cohort sum to its pupils (R18). -/
theorem sum_censusOf {l : List (Slot × Pupil)} (h : CohortsOk l) (c : Nat) :
    ((censusOf l).getD c []).sum = l.countP fun e => e.2.enrolment.cohort = c := by
  induction l with
  | nil =>
    simp only [censusOf, List.foldr_nil, List.countP_nil, List.getD_eq_getElem?_getD, List.getElem?_replicate]
    split <;> simp
  | cons e t ih =>
    show ((censusUp e.2.enrolment.cohort e.2.day.mark (censusOf t)).getD c []).sum = _
    rw [sum_censusUp (censusOf_shape t) (h e List.mem_cons_self), ih fun x hx => h x (List.mem_cons_of_mem _ hx), List.countP_cons]
    simp only [decide_eq_true_eq]

theorem census_sum {s : State} (hs : RollOk s) (c : Nat) :
    (s.roll.census.getD c []).sum = s.roll.roster.countP fun e => e.2.enrolment.cohort = c := by
  rw [hs.2.2]
  exact sum_censusOf hs.2.1 c

/-- A line of the census, with the pupils of the cohort in place of the sum (R18, R19). -/
theorem censusItems_eq {s : State} (hs : RollOk s) (c : Nat) :
    censusItems c s =
      .num c :: (s.roll.census.getD c []).map .num ++
        [.num (s.roll.roster.countP fun e => e.2.enrolment.cohort = c),
          .num (s.roll.roster.countP fun e => e.2.enrolment.cohort = c && e.2.day.disputed)] := by
  rw [← census_sum hs c]
  rfl

/-- A reply of one part that fits in the line. -/
theorem moreItems_single {items : List Item} (h : fits items = true) : moreItems 0 [items] = items := by
  obtain ⟨page, rest, parts, shown, _, full⟩ := moreItems_moreOf 0 [items]
  rw [List.drop_zero] at parts
  match page, rest, parts with
  | [_], [], rfl => simpa using shown
  | [], [_], rfl =>
    obtain ⟨x, more, e, long⟩ := full.resolve_left nofun
    cases e
    simp [h] at long

/-! ### What each answers -/

theorem pupil_answer {k : Slot} {s : State} (hk : k < 2048) :
    (pupilAt k s = none → pupil k s = (s, .ok (.word "EMPTY" :: if slotAddressed k s then [.word "IN_USE"] else []))) ∧
      ∀ p, pupilAt k s = some p → pupil k s = (s, .ok (pupilItems p)) := by
  unfold pupil
  rw [if_neg fun h => absurd (not_slotOk_iff.1 h) (Nat.not_le.2 hk)]
  exact ⟨fun h => by rw [h]; rfl, fun p h => by rw [h]; rfl⟩

theorem findPupil_contact {id : Nat} {start : Slot} {s : State} (h1 : 1 ≤ id) (h2 : id ≤ 65535) (hk : start < 2048) :
    findPupil (.contact id start) s =
      (s, .ok (.num (withContact id s).length ::
        (((withContact id s).filter (start ≤ ·.1)).take 16).flatMap fun r => [.num r.1, .num r.2])) := by
  have id_ok : contactIdOk id = true := by simp [contactIdOk, h1, h2]
  exact if_neg (by rw [id_ok, slotOk_iff.2 hk]; nofun)

/-- A page of a list is the answer, where its request passes. -/
theorem exec_page {α : Type} {c : Instr} {f : State → State × Reply} {s : State} {limit : Nat} {head : List Item}
    {show_ : α → List Item} {next : Option α → List Item} {l : List α} (hc : requestEffect c = some f)
    (held : s.power.held = false) (h : f s = okWith (pageItems limit head show_ next l) s) :
    ∃ items, exec c s = .next (replied (.ok items) s) ∧ PageOf limit head show_ next l items :=
  ⟨_, exec_taken hc held h, pageItems_pageOf _ _ _ _ _⟩

/-- Settles O10: each reading request leaves the state as it is, and its reply is the page, or the parts, that its rule names. -/
theorem rollAndPlanReadsChangeNothing : Obligations.RollAndPlanReadsChangeNothing := by
  unfold Obligations.RollAndPlanReadsChangeNothing
  refine ⟨fun s held => ⟨?_, ?_, ?_, ?_, ?_, ?_, ?_, ?_⟩, fun k s held hs hk => ⟨fun h => ?_, fun p hp => ⟨?_, ?_, ?_⟩⟩,
    fun id start s held hs h1 h2 hk => ⟨withContact id s, ?_, withContact_sorted hs, fun k i => ?_⟩, fun c s held hs hc h => ?_,
    fun start s held hs => ?_, fun s c hs => census_sum hs c, fun s held => ⟨?_, ?_, ?_⟩, fun start s held hn => ⟨?_, ?_⟩⟩
  · exact fun k => refusedByItsChecks_of rfl held (pupil_answers k s)
  · intro q
    have read : strapRead (.find q) s = s := by cases q <;> rfl
    exact refusedByItsChecks_of rfl held (read ▸ findPupil_answers q s)
  · exact fun a => refusedByItsChecks_of rfl held (marks_answers a s)
  · exact fun c n => refusedByItsChecks_of rfl held (census_answers c n s)
  · exact fun k d => refusedByItsChecks_of rfl held (aways_answers k d s)
  · exact fun d => refusedByItsChecks_of rfl held (dates_answers d s)
  · exact fun b n => refusedByItsChecks_of rfl held (bankRead_answers b n s)
  · exact fun n => refusedByItsChecks_of rfl held (todayRead_answers n s)
  · exact exec_taken rfl held ((pupil_answer hk).1 h)
  · exact exec_taken rfl held ((pupil_answer hk).2 p hp)
  · intro unique ok
    have found := slotReply_unique (test := fun q => q.enrolment.card = p.enrolment.card) hs hp (by simp)
      fun j q hj hq => by simpa using unique j q hj hq
    exact exec_taken rfl held ((if_pos ok).trans found)
  · intro unique ok
    have found := slotReply_unique (test := fun q => q.enrolment.reference = p.enrolment.reference) hs hp (by simp)
      fun j q hj hq => by simpa using unique j q hj hq
    exact exec_taken rfl held ((if_pos ok).trans found)
  · exact exec_taken rfl held (findPupil_contact h1 h2 hk)
  · rw [mem_withContact_iff hs]
    simp only [contactPlace_eq_some_iff]
  · have one : census (some c) 0 s = (s, .ok (censusItems c s)) := by
      refine (if_pos (cohortOk_iff.2 hc)).trans ?_
      rw [moreItems_single h]
      rfl
    rw [← censusItems_eq hs c]
    exact exec_taken rfl held one
  · have all : census none start s = (s, .ok (moreItems start ((List.range 8).map (censusItems · s)))) := rfl
    refine ⟨_, exec_taken rfl held all, ?_⟩
    simp only [← censusItems_eq hs]
    exact moreItems_moreOf _ _
  · intro a cohort mark form disputed hk
    refine exec_page (f := marks a) rfl held (if_neg ?_)
    simp [cohortOk_iff.2 cohort, mark, form, disputed, slotOk_iff.2 hk]
  · intro k d hk hd
    refine exec_page (f := aways k d) rfl held (if_neg ?_)
    simp [hk, hd]
  · intro d hd
    refine exec_page (f := dates d) rfl held (if_neg ?_)
    simp [hd]
  · intro b hb
    refine exec_page (f := bankRead b start) rfl held (if_neg ?_)
    rw [Bool.or_eq_true, not_bankOk_iff, decide_eq_true_eq]
    exact fun h => h.elim (Nat.not_le.2 hb) (Nat.not_le.2 hn)
  · exact exec_page (f := todayRead start) rfl held (if_neg (Nat.not_le.2 hn))

end Sys2Proof.Machine
end

