-- ==== Sys2Proof/Proofs/OpeningSweep.lean ====
section
/-! PROOF. The opening sweep: the day part of the slot it visits, and the day that becomes OPEN (R20, R39, R40, R56). -/

namespace Sys2Proof.Machine

/-! ### The day part of a slot -/

/-- The day part that the day-open rule gives a slot (R20). -/
def openedDay (slot : Slot) (s : State) : DayPart :=
  match awayCovering slot (today s) s with
  | none => .fresh
  | some e => { DayPart.fresh with mark := .excused, source := some .away, reason := some e.reason }

theorem dayOpenMark_eq (slot : Slot) (s : State) : dayOpenMark slot s = claim slot (fun _ => openedDay slot s) s := rfl

theorem openedDay_mark (slot : Slot) (s : State) : (openedDay slot s).mark ≠ .absentPending := by
  unfold openedDay
  split
  · decide
  · nofun

/-- What a claim leaves of the state, its Away List with it. -/
theorem claim_roll_state (k : Slot) (f : DayPart → DayPart) (s : State) :
    claim k f s =
      { s with
        roll := { s.roll with roster := (claim k f s).roll.roster, census := (claim k f s).roll.census }
        notices := { s.notices with queue := (claim k f s).notices.queue }
        sweep := (claim k f s).sweep } := by
  have roll : (claim k f s).roll = { s.roll with roster := (claim k f s).roll.roster, census := (claim k f s).roll.census } := by
    show _ = (⟨_, _, s.roll.away⟩ : RollUnit)
    rw [← claim_away k f s]
  rw [← roll]
  exact claim_state k f s

theorem claim_plan (k : Slot) (f : DayPart → DayPart) (s : State) : (claim k f s).plan = s.plan := by rw [claim_state]
theorem claim_time (k : Slot) (f : DayPart → DayPart) (s : State) : (claim k f s).time = s.time := by rw [claim_state]
theorem claim_attention (k : Slot) (f : DayPart → DayPart) (s : State) : (claim k f s).attention = s.attention := by
  rw [claim_state]

theorem dayOpenMark_set {slot : Slot} {s : State} (hs : RollOk s) : DayPartSet slot s (dayOpenMark slot s) := by
  rw [dayOpenMark_eq]
  refine ⟨claim_roll_state _ _ s, claim_others _ _ s, (claim_heard _ _ (Heard.refl s)).heard, fun h => claim_none h,
    fun p hp => ⟨pupilAt_claim_self (f := fun _ => openedDay slot s) hp,
      claim_moved (f := fun _ => openedDay slot s) hs hp, ?_⟩⟩
  refine (claim_withdrawn (f := fun _ => openedDay slot s) hp).congr fun n _ => ?_
  simp only [ne_eq, openedDay_mark slot s, not_false_eq_true, and_true]

/-! ### The day that becomes OPEN -/

theorem closeDayNow_closed (c : CloseCause) (s : State) : (closeDayNow c s).day.state = .closed := by
  have pupils (l : List Slot) (t : State) : (l.foldl (fun s k => makeUnreached .notice k s) t).day = t.day :=
    foldl_keeps (g := fun s : State => s.day) (fun s k => (raise_day _ _ _).trans (claim_day k _ s)) l t
  unfold closeDayNow withdrawWhere
  rw [raise_day, pupils, (setQueue_parts _ _).2.2.2.1]
  rfl

/-- Taking the entries of Today's Plan opens no day. -/
theorem takeEntry_notOpening {i : Nat} {e : PlanEntry} {s : State} (h : s.day.state ≠ .opening) :
    (takeEntry i e s).day.state ≠ .opening := by
  have roll (b : BankEntry) {t : State} (ht : t.day.state ≠ .opening) : (applyRoll b t).day.state ≠ .opening := by
    unfold applyRoll
    split
    · exact ht
    · exact ht
    · exact ht
    · exact ht
    · unfold takeHold
      dsimp only
      split <;> exact ht
    · rw [closeDayNow_closed]; decide
  unfold takeEntry
  refine roll e.entry ?_
  split
  · exact h
  · split
    · exact h
    · rw [requestChime_day]
      exact h

theorem evaluatePlan_notOpening {s : State} (h : s.day.state ≠ .opening) : (evaluatePlan s).day.state ≠ .opening := by
  have run (l : List Nat) : ∀ t : State, t.day.state ≠ .opening → (l.foldl (takeIf (· ≤ s.time.school)) t).day.state ≠ .opening := by
    induction l with
    | nil => exact fun _ ht => ht
    | cons i l ih =>
      intro t ht
      refine ih _ ?_
      unfold takeIf
      split
      · exact ht
      · split
        · exact takeEntry_notOpening ht
        · exact ht
  exact run _ s h

/-- The state of a day that has become OPEN, before its plan is evaluated (R40, R56). -/
def opened (s : State) : State :=
  raise .day none
    (makeCopy (s.day.bank.getD 0) (fun _ => .ahead)
      { s with
        day := { s.day with state := .open_, openingTime := some s.time.school, cohorts := List.replicate 8 .fresh }
        notices := { s.notices with deadline := none } })

/-- The state after the visit of a slot, the cursor moved (R39). -/
def visited (s : State) : State :=
  { dayOpenMark s.day.cursor s with day := { s.day with cursor := s.day.cursor + 1 } }

theorem openingVisit_eq {s : State} (h : s.day.state = .opening) :
    openingVisit s = if 2048 ≤ s.day.cursor + 1 then evaluatePlan (opened (visited s)) else visited s := by
  have day : (dayOpenMark s.day.cursor s).day = s.day := claim_day _ _ s
  unfold openingVisit visited
  rw [if_neg (not_not.2 h)]
  dsimp only
  rw [day]
  rfl

theorem exec_openingSweepVisit {s : State} (held : s.power.held = false) :
    exec .openingSweepVisit s =
      .next
        (if s.day.state = .opening ∧ (openingVisit s).day.state ≠ .opening then chooseIfFree (settle (openingVisit s))
          else openingVisit s) := by
  show execOpeningSweepVisit s = _
  unfold execOpeningSweepVisit
  rw [event_next held]

/-- A visit that is not the last. -/
theorem exec_visit {s : State} (held : s.power.held = false) (h : s.day.state = .opening) (hc : s.day.cursor < 2047) :
    exec .openingSweepVisit s = .next (visited s) := by
  have visit : openingVisit s = visited s := (openingVisit_eq h).trans (if_neg (by omega))
  rw [exec_openingSweepVisit held, visit, if_neg]
  exact fun x => x.2 h

/-- The visit of the last slot. -/
theorem exec_lastVisit {s : State} (held : s.power.held = false) (h : s.day.state = .opening) (hc : s.day.cursor = 2047) :
    exec .openingSweepVisit s = .next (chooseIfFree (settle (evaluatePlan (opened (visited s))))) := by
  have visit : openingVisit s = evaluatePlan (opened (visited s)) := (openingVisit_eq h).trans (if_pos (by omega))
  rw [exec_openingSweepVisit held, visit, if_pos]
  exact ⟨h, evaluatePlan_notOpening nofun⟩

/-- What the last visit leaves before the plan is evaluated. -/
theorem opened_visited {bank : Nat} {s : State} (hc : s.day.cursor = 2047) (hb : s.day.bank = some bank) :
    opened (visited s) =
      { dayOpenMark 2047 s with
        day :=
          { s.day with
            state := .open_, cursor := 2048, openingTime := some s.time.school, cohorts := List.replicate 8 .fresh }
        notices := { (dayOpenMark 2047 s).notices with deadline := none }
        plan :=
          { s.plan with
            today :=
              ⟨some bank, some ((s.plan.banks.getD bank .empty).name, (s.plan.banks.getD bank .empty).select),
                (s.plan.today.copyNumber + 1) % 65536,
                (s.plan.banks.getD bank .empty).entries.map fun e => ⟨e, .ahead, .none_, none⟩⟩ }
        attention := (raise .day none s).attention } := by
  have plan : (dayOpenMark 2047 s).plan = s.plan := claim_plan _ _ s
  have attention : (dayOpenMark 2047 s).attention = s.attention := claim_attention _ _ s
  have time : (dayOpenMark 2047 s).time = s.time := claim_time _ _ s
  unfold opened visited makeCopy raise
  simp only [hc, hb, plan, attention, time, Option.getD_some]

/-- Settles O15: the claim of a visit, and the state that the last visit opens. -/
theorem openingSweepSetsTheDayParts : Obligations.OpeningSweepSetsTheDayParts := by
  unfold Obligations.OpeningSweepSetsTheDayParts
  refine ⟨fun slot s hs => dayOpenMark_set hs, fun s held hs h hc => ⟨visited s, exec_visit held h hc, rfl⟩,
    fun bank s held h hc hb => ⟨opened (visited s), exec_lastVisit held h hc, ?_⟩⟩
  rw [opened_visited hc hb]
  exact ⟨rfl, rfl, rfl, rfl, rfl⟩

end Sys2Proof.Machine
end

