-- ==== Sys2Proof/Proofs/SendResults.lean ====
section
/-! SUPPORT. What the result of a send leaves: a send taken back, failed, delivered (R136, R162, R164, R165, R168, R170, R171), with the
exhaustion of a notice (R164) and the number a new notice takes (R154). -/

namespace Sys2Proof.Machine

/-! ### Notices by their number -/

theorem noticeAt_number {n : Nat} {s : State} {x : Notice} (h : noticeAt n s = some x) : x.number = n := by
  simpa using List.find?_some h

/-- The notice of a number after those of another, or its own, were replaced. -/
theorem noticeAt_updateNotice {f : Notice → Notice} (hf : ∀ x, (f x).number = x.number) (n m : Nat) (s : State) :
    noticeAt m (updateNotice n f s) = (noticeAt m s).map fun x => if m = n then f x else x := by
  have same (x : Notice) : (if x.number = n then f x else x).number = x.number := by
    split
    · exact hf x
    · rfl
  unfold noticeAt
  rw [updateNotice_notices, List.find?_map]
  have test : ((fun x : Notice => decide (x.number = m)) ∘ fun x => if x.number = n then f x else x) =
      fun x => decide (x.number = m) := by
    funext x
    simp only [Function.comp_apply, same]
  rw [test]
  cases found : s.notices.queue.find? fun x => decide (x.number = m) with
  | none => rfl
  | some x =>
    have number : x.number = m := by simpa using List.find?_some found
    simp only [Option.map_some, number]

theorem ofBroadcast_number (f : BroadcastState → BroadcastState) (x : Notice) : (ofBroadcast f x).number = x.number := by
  unfold ofBroadcast
  split <;> rfl

theorem ofBroadcast_broadcast {f : BroadcastState → BroadcastState} {x : Notice} {b : BroadcastState}
    (hb : x.addressee = .broadcast b) : ofBroadcast f x = { x with addressee := .broadcast (f b) } := by
  unfold ofBroadcast
  rw [hb]

theorem noticeAt_updateBroadcast {f : BroadcastState → BroadcastState} {n : Nat} {s : State} {x : Notice} {b : BroadcastState}
    (h : noticeAt n s = some x) (hb : x.addressee = .broadcast b) :
    noticeAt n (updateBroadcast x.number f s) = some { x with addressee := .broadcast (f b) } ∧
      ∀ m, m ≠ n → noticeAt m (updateBroadcast x.number f s) = noticeAt m s := by
  have number := noticeAt_number h
  subst number
  have updated (m : Nat) := noticeAt_updateNotice (ofBroadcast_number f) x.number m s
  refine ⟨(updated _).trans ?_, fun m hm => (updated m).trans ?_⟩
  · rw [h, Option.map_some, if_pos rfl, ofBroadcast_broadcast hb]
  · simp only [if_neg hm, Option.map_id']

theorem removeNotice_state (n : Nat) (s : State) :
    removeNotice n s =
      { s with
        notices := { s.notices with queue := s.notices.queue.filter (·.number ≠ n) }
        sweep := (removeNotice n s).sweep } := setQueue_state _ s

theorem removeNotice_queue (n : Nat) (s : State) : (removeNotice n s).notices.queue = s.notices.queue.filter (·.number ≠ n) :=
  (setQueue_parts _ s).1

theorem noticeAt_eq_none_iff {n : Nat} {s : State} : noticeAt n s = none ↔ ∀ x ∈ s.notices.queue, x.number ≠ n := by
  simp [noticeAt]

theorem noticeAt_removeNotice (n : Nat) (s : State) : noticeAt n (removeNotice n s) = none := by
  rw [noticeAt_eq_none_iff, removeNotice_queue]
  exact fun x hx => by simpa using List.of_mem_filter hx

/-- A withdrawal brings no notice of a number that none holds. -/
theorem noticeAt_none_of_withdrawn {p : Notice → Bool} {n : Nat} {s t : State}
    (h : Withdrawn p s.notices.queue t.notices.queue) (hn : noticeAt n s = none) : noticeAt n t = none := by
  rw [noticeAt_eq_none_iff] at hn ⊢
  intro x hx
  rw [h] at hx
  obtain ⟨y, hy, rfl⟩ := List.mem_map.1 hx
  have := hn y (List.mem_of_mem_filter hy)
  split <;> exact this

/-! ### The sweep -/

/-- A sweep that is not PAUSED hears nothing (R145). -/
theorem Heard.sweep_eq {s t : State} (h : Heard s t) (hp : s.sweep.state ≠ .paused) : t.sweep = s.sweep := by
  have := h.heard
  unfold SweepHeard at this
  rw [this, if_neg fun x => hp x.1]

theorem dropSend_heard (key : SendKey) (s : State) : Heard s (dropSend key s) := (Heard.refl s).set rfl

theorem removeNotice_left {n : Nat} {s : State} {x : Notice} (h : noticeAt n s = some x) : NoticeLeft s (removeNotice n s) := by
  unfold NoticeLeft
  rw [removeNotice_queue, List.length_filter_lt_length_iff_exists]
  exact ⟨x, List.mem_of_find?_eq_some h, by simp [noticeAt_number h]⟩

/-- A notice removed: a PAUSED sweep is RUNNING (R145). -/
theorem removeNotice_sweep {n : Nat} {s : State} {x : Notice} (h : noticeAt n s = some x) :
    SweepHeard True s (removeNotice n s) ∧ (removeNotice n s).sweep.state ≠ .paused := by
  have heard := (removeNotice_heard n (Heard.refl s)).heard
  have left := removeNotice_left h
  unfold SweepHeard at heard ⊢
  rw [heard]
  refine ⟨by simp only [left], ?_⟩
  by_cases p : s.sweep.state = .paused
  · simp [p, left]
  · simp [p]

/-! ### Claims once more -/

theorem pupilAt_claim (j k : Slot) (f : DayPart → DayPart) (s : State) :
    pupilAt j (claim k f s) = (pupilAt j s).map fun p => if j = k then { p with day := f p.day } else p := by
  by_cases hj : j = k
  · subst hj
    cases hp : pupilAt j s with
    | none => rw [claim_none hp, hp]; rfl
    | some p => rw [pupilAt_claim_self hp, Option.map_some, if_pos rfl]
  · rw [claim_others k f s j hj]
    simp only [if_neg hj, Option.map_id']

/-- The withdrawal of a claim that takes a pupil out of ABSENT_PENDING (R6). -/
theorem claim_withdrawn_of {k : Slot} {f : DayPart → DayPart} {s : State}
    (hf : ∀ d : DayPart, d.mark = .absentPending → (f d).mark ≠ .absentPending) :
    Withdrawn (fun n => (pupilAt k s).any (·.day.mark = .absentPending) && n.isAbsentOf k) s.notices.queue
      (claim k f s).notices.queue := by
  cases hp : pupilAt k s with
  | none =>
    rw [claim_none hp]
    exact withdrawn_none fun n _ => rfl
  | some p =>
    refine (claim_withdrawn hp).congr fun n _ => ?_
    have e : (p.day.mark = .absentPending ∧ (f p.day).mark ≠ .absentPending) ↔ p.day.mark = .absentPending :=
      and_iff_left_of_imp (hf p.day)
    simp only [Option.any_some, e]

/-! ### Exhaustion (R164) -/

/-- The day part of a pupil whose ABSENT notice is exhausted. -/
def unreached (d : DayPart) : DayPart :=
  if d.mark = .absentPending then { d with mark := .absentUnreached, source := some .notice } else d

theorem exhaust_absent {n : Notice} (h : n.kind = .absent) (k : Slot) (s : State) :
    exhaust n k s = raise .unreached (some (.slot k)) (claim k unreached (removeNotice n.number s)) := if_pos h

theorem exhaust_other {n : Notice} (h : n.kind ≠ .absent) (k : Slot) (s : State) :
    exhaust n k s = raise .unreached (some (.notice n.number)) (removeNotice n.number s) := if_neg h

theorem unreached_mark {d : DayPart} (h : d.mark = .absentPending) : (unreached d).mark ≠ .absentPending := by
  unfold unreached
  rw [if_pos h]
  nofun

theorem exhaust_exhausted (n : Notice) (k : Slot) (s : State) : Exhausted n k s (exhaust n k s) := by
  refine ⟨?_, (exhaust_heard n k (Heard.refl s)).heard, fun h => ?_, fun h => ⟨?_, fun j => ?_⟩⟩
  · by_cases h : n.kind = .absent
    · rw [exhaust_absent h, claim_roll_state, removeNotice_state]
      simp only [h, if_true]
      rfl
    · rw [exhaust_other h, removeNotice_state]
      simp only [h, if_false]
      rfl
  · rw [exhaust_other h]
    exact ⟨removeNotice_roll _ s, removeNotice_queue _ s⟩
  · rw [exhaust_absent h, raise_notices, ← removeNotice_queue,
      ← pupilAt_congr (t := removeNotice n.number s) (s := s) (congrArg _ (removeNotice_roll _ s))]
    exact claim_withdrawn_of fun _ => unreached_mark
  · rw [exhaust_absent h]
    show pupilAt j (claim k unreached (removeNotice n.number s)) = _
    rw [pupilAt_claim, pupilAt_congr (t := removeNotice n.number s) (s := s) (congrArg _ (removeNotice_roll _ s))]
    refine congrArg (Option.map · _) (funext fun p => ?_)
    unfold unreached
    by_cases hj : j = k <;> by_cases hm : p.day.mark = .absentPending <;> simp [hj, hm]

/-! ### A send taken back -/

variable {key : SendKey} {s : State} {n : Notice}

theorem returnSend_pupil {k : Slot} {i : Nat} (h : noticeAt key.number s = some n) (ha : n.addressee = .pupil k i) :
    returnSend key s =
      if n.cancel then removeNotice key.number s else updateNotice key.number (fun x => { x with inWindow := false }) s := by
  have number := noticeAt_number h
  unfold returnSend
  rw [h]
  dsimp only
  rw [ha, number]

theorem returnSend_broadcast {b : BroadcastState} (h : noticeAt key.number s = some n) (ha : n.addressee = .broadcast b) :
    returnSend key s =
      if n.cancel || b.expired then s
      else updateBroadcast n.number (fun b => { b with returned := b.returned ++ [(key.slot, key.position)] }) s := by
  unfold returnSend
  rw [h]
  dsimp only
  rw [ha]

theorem returnSend_none (h : noticeAt key.number s = none) : returnSend key s = s := by
  unfold returnSend
  rw [h]

theorem updateBroadcast_state (m : Nat) (f : BroadcastState → BroadcastState) (s : State) :
    updateBroadcast m f s = { s with notices := { s.notices with queue := (updateBroadcast m f s).notices.queue } } := rfl

/-- The blocks that a send taken back changes. -/
theorem returnSend_state (key : SendKey) (s : State) :
    returnSend key s =
      { s with
        notices := { s.notices with queue := (returnSend key s).notices.queue }
        sweep := (returnSend key s).sweep } := by
  cases h : noticeAt key.number s with
  | none => rw [returnSend_none h]
  | some n =>
    cases ha : n.addressee with
    | pupil k i =>
      rw [returnSend_pupil h ha]
      split
      · rw [removeNotice_state]
      · rfl
    | broadcast b =>
      rw [returnSend_broadcast h ha]
      split
      · rfl
      · rfl

theorem returnSend_returned (key : SendKey) (s : State) : SendReturned key s (returnSend key (dropSend key s)) := by
  refine ⟨?_, (returnSend_heard key (dropSend_heard key s)).heard, fun n h => ⟨fun k i ha => ?_, fun b ha => ?_⟩⟩
  · rw [returnSend_state]
    rfl
  · rw [returnSend_pupil (s := dropSend key s) h ha]
    split
    · exact removeNotice_queue _ _
    · rfl
  · rw [returnSend_broadcast (s := dropSend key s) h ha]
    have ended : (n.cancel || b.expired) = true ↔ n.cancel = true ∨ b.expired = true := Bool.or_eq_true_iff
    simp only [ended]
    split
    · exact ⟨h, fun _ _ => rfl⟩
    · exact noticeAt_updateBroadcast (s := dropSend key s) h ha

/-! ### A send that failed -/

theorem failSend_pupil {k : Slot} {i : Nat} (h : noticeAt key.number s = some n) (ha : n.addressee = .pupil k i) :
    failSend key s =
      if n.cancel then removeNotice key.number s
      else if i + 1 < (contactsAt k s).length then
        updateNotice key.number (fun x => { x with addressee := .pupil k (i + 1), inWindow := false }) s
      else exhaust n k s := by
  have number := noticeAt_number h
  unfold failSend
  rw [h]
  dsimp only
  rw [ha, number]

theorem failSend_broadcast {b : BroadcastState} (h : noticeAt key.number s = some n) (ha : n.addressee = .broadcast b) :
    failSend key s = updateBroadcast n.number (fun b => { b with failed := satInc b.failed }) s := by
  unfold failSend
  rw [h]
  dsimp only
  rw [ha]

theorem failSend_none (h : noticeAt key.number s = none) : failSend key s = s := by
  unfold failSend
  rw [h]

/-- The blocks that a failed send changes. -/
theorem failSend_state (key : SendKey) (s : State) :
    failSend key s =
      { s with
        notices := { s.notices with queue := (failSend key s).notices.queue }
        roll := { s.roll with roster := (failSend key s).roll.roster, census := (failSend key s).roll.census }
        sweep := (failSend key s).sweep
        attention := (failSend key s).attention } := by
  cases h : noticeAt key.number s with
  | none => rw [failSend_none h]
  | some n =>
    cases ha : n.addressee with
    | pupil k i =>
      rw [failSend_pupil h ha]
      split
      · rw [removeNotice_state]
      · split
        · rfl
        · have same := (exhaust_exhausted n k s).1
          rw [same]
    | broadcast b =>
      rw [failSend_broadcast h ha]
      rfl

theorem failSend_failed (key : SendKey) (s : State) : SendFailed key s (failSend key (dropSend key s)) := by
  refine ⟨?_, (failSend_heard key (dropSend_heard key s)).heard, fun n h => ⟨fun b ha => ?_, fun k i ha => ?_⟩⟩
  · rw [failSend_state]
    rfl
  · rw [failSend_broadcast (s := dropSend key s) h ha]
    exact ⟨rfl, rfl, noticeAt_updateBroadcast (s := dropSend key s) h ha⟩
  · rw [failSend_pupil (s := dropSend key s) h ha]
    refine ⟨fun cancel => ?_, fun cancel more => ?_, fun cancel last => ?_⟩
    · rw [if_pos cancel]
      refine ⟨removeNotice_queue _ _, removeNotice_roll _ _, ?_⟩
      rw [removeNotice_state]
      rfl
    · rw [if_neg (by rw [cancel]; nofun), if_pos (show i + 1 < (contactsAt k (dropSend key s)).length from more)]
      exact ⟨rfl, rfl, rfl⟩
    · rw [if_neg (by rw [cancel]; nofun), if_neg (show ¬i + 1 < (contactsAt k (dropSend key s)).length from Nat.not_lt.2 last)]
      refine ⟨?_, exhaust_exhausted n k (dropSend key s)⟩
      have gone : noticeAt key.number (removeNotice n.number (dropSend key s)) = none := by
        rw [noticeAt_number h]
        exact noticeAt_removeNotice _ _
      by_cases absent : n.kind = .absent
      · rw [exhaust_absent absent]
        exact noticeAt_none_of_withdrawn (t := claim k unreached (removeNotice n.number (dropSend key s)))
          (claim_withdrawn_of fun _ => unreached_mark) gone
      · rw [exhaust_other absent]
        exact gone

end Sys2Proof.Machine
end

