-- ==== Sys2Proof/Proofs/Deliveries.lean ====
section
/-! SUPPORT. What a delivered send leaves (R136, R165, R168, R171), with the number a new notice takes (R154). -/

namespace Sys2Proof.Machine

/-! ### Numbers -/

theorem stepNumber_eq {n : Nat} (h : n ≤ 65535) : stepNumber n = n % 65535 + 1 := by
  unfold stepNumber
  split <;> omega

/-- The number found is the first free one within the steps made. -/
theorem nextFree_first (used : List Nat) (fuel : Nat) : ∀ n ≤ 65535,
    ∃ k, nextFree used fuel n = (n + k) % 65535 + 1 ∧ ∀ j < k, (n + j) % 65535 + 1 ∈ used := by
  induction fuel with
  | zero => exact fun n hn => ⟨0, stepNumber_eq hn, nofun⟩
  | succ fuel ih =>
    intro n hn
    unfold nextFree
    split
    · rename_i taken
      have step : stepNumber n = n % 65535 + 1 := stepNumber_eq hn
      obtain ⟨k, found, before⟩ := ih (stepNumber n) (by omega)
      refine ⟨k + 1, by rw [found, step]; omega, fun j hj => ?_⟩
      cases j with
      | zero =>
        have := List.contains_iff_mem.1 taken
        rwa [step] at this
      | succ j =>
        have := before j (by omega)
        rwa [step, show (n % 65535 + 1 + j) % 65535 = (n + (j + 1)) % 65535 by omega] at this
    · exact ⟨0, stepNumber_eq hn, nofun⟩

theorem numberIssued_nextFree {counter : Nat} {used : List Nat} (h : counter ≤ 65535) (hl : used.length < 65535) :
    NumberIssued counter used (nextFree used used.length counter) := by
  obtain ⟨k, found, before⟩ := nextFree_first used used.length counter h
  exact ⟨k, found, nextFree_fresh hl, before⟩

/-! ### The ARRIVED correction -/

/-- The asked position set in a day part (R136). -/
def askedAt (i : Nat) (d : DayPart) : DayPart := { d with asked := some i }

/-- The notices that stand after the correction takes a WAITING LATE notice of the slot (R136). -/
def withoutLate (k : Slot) (l : List Notice) : List Notice := l.filter fun n => !(n.kind = .late && n.isTo k && !n.inWindow)

/-- The queue of the correction before its ARRIVED notice joins it. -/
def lateDropped (k : Slot) (i : Nat) (s : State) : State :=
  setQueue (withoutLate k (claim k (askedAt i) s).notices.queue) (claim k (askedAt i) s)

theorem correctArrival_eq (k : Slot) (i : Nat) (s : State) : correctArrival k i s = addArrived k i (lateDropped k i s) := rfl

theorem lateDropped_heard (k : Slot) (i : Nat) (s : State) : Heard s (lateDropped k i s) :=
  setQueue_heard (List.length_filter_le ..) (claim_heard k (askedAt i) (Heard.refl s))

/-- The correction for a pupil who has arrived. -/
theorem lateDropped_state {k : Slot} {i : Nat} {s : State} {p : Pupil} (hp : pupilAt k s = some p) :
    lateDropped k i s =
      { s with
        roll := s.roll.put k { p with day := askedAt i p.day }
        notices := { s.notices with queue := withoutLate k s.notices.queue }
        sweep := (lateDropped k i s).sweep } := by
  have stays : ¬(p.day.mark = .absentPending ∧ (askedAt i p.day).mark ≠ .absentPending) := fun h => h.2 h.1
  unfold lateDropped
  rw [claim_stays hp stays, setQueue_state]

/-! ### A send that was delivered -/

/-- The day part of a pupil whose parent was asked (R165). -/
def askedFor (i : Nat) (d : DayPart) : DayPart :=
  if d.mark = .absentPending then { d with mark := .absentAsked, source := some .notice, asked := some i } else d

theorem askedFor_mark {i : Nat} {d : DayPart} (h : d.mark = .absentPending) : (askedFor i d).mark ≠ .absentPending := by
  unfold askedFor
  rw [if_pos h]
  nofun

variable {key : SendKey} {s : State} {n : Notice}

theorem deliverSend_none (h : noticeAt key.number s = none) : deliverSend key s = s := by
  unfold deliverSend
  rw [h]

theorem deliverSend_broadcast {b : BroadcastState} (h : noticeAt key.number s = some n) (ha : n.addressee = .broadcast b) :
    deliverSend key s = updateBroadcast n.number (fun b => { b with delivered := satInc b.delivered }) s := by
  unfold deliverSend
  rw [h]
  dsimp only
  rw [ha]

/-- What the delivery to a pupil does once its notice is removed. -/
def delivered (n : Notice) (k : Slot) (i : Nat) (arrived : Bool) (s : State) : State :=
  if n.kind ≠ .absent then s
  else if n.cancel then (if arrived then correctArrival k i s else s)
  else claim k (askedFor i) s

theorem deliverSend_pupil {k : Slot} {i : Nat} (h : noticeAt key.number s = some n) (ha : n.addressee = .pupil k i) :
    deliverSend key s = delivered n k key.position (hasArrived k s) (removeNotice key.number s) := by
  have number := noticeAt_number h
  unfold deliverSend
  rw [h]
  dsimp only
  rw [ha, number]
  rfl

theorem delivered_state (n : Notice) (k : Slot) (i : Nat) (arrived : Bool) (s : State) :
    delivered n k i arrived s =
      { s with
        notices :=
          { s.notices with
            queue := (delivered n k i arrived s).notices.queue
            counter := (delivered n k i arrived s).notices.counter }
        roll :=
          { s.roll with
            roster := (delivered n k i arrived s).roll.roster
            census := (delivered n k i arrived s).roll.census }
        sweep := (delivered n k i arrived s).sweep } := by
  unfold delivered
  split
  · rfl
  · split
    · split
      · have marked := claim_roll_state k (askedAt i) s
        rw [correctArrival_eq, lateDropped, setQueue_state, marked]
        rfl
      · rfl
    · rw [claim_roll_state]

/-- Nothing that a delivery does after the notice has left wakes a sweep that is not PAUSED. -/
theorem delivered_sweep {k : Slot} {i : Nat} {arrived : Bool} (h : s.sweep.state ≠ .paused) :
    (delivered n k i arrived s).sweep = s.sweep := by
  unfold delivered
  split
  · rfl
  · split
    · split
      · exact (lateDropped_heard k i s).sweep_eq h
      · rfl
    · exact (claim_heard k (askedFor i) (Heard.refl s)).sweep_eq h

theorem deliverSend_state (key : SendKey) (s : State) :
    deliverSend key s =
      { s with
        notices :=
          { s.notices with
            queue := (deliverSend key s).notices.queue
            counter := (deliverSend key s).notices.counter }
        roll := { s.roll with roster := (deliverSend key s).roll.roster, census := (deliverSend key s).roll.census }
        sweep := (deliverSend key s).sweep } := by
  cases h : noticeAt key.number s with
  | none => rw [deliverSend_none h]
  | some n =>
    cases ha : n.addressee with
    | broadcast b => rw [deliverSend_broadcast h ha]; rfl
    | pupil k i =>
      rw [deliverSend_pupil h ha, delivered_state, removeNotice_state]

theorem deliverSend_sweep (key : SendKey) (s : State) :
    SweepHeard ((noticeAt key.number s).any Notice.isPupil) s (deliverSend key s) := by
  cases h : noticeAt key.number s with
  | none =>
    rw [deliverSend_none h]
    unfold SweepHeard
    simp
  | some n =>
    cases ha : n.addressee with
    | broadcast b =>
      rw [deliverSend_broadcast h ha]
      unfold SweepHeard
      rw [updateBroadcast_state]
      simp [Notice.isPupil, ha]
    | pupil k i =>
      obtain ⟨heard, awake⟩ := removeNotice_sweep h
      rw [deliverSend_pupil h ha]
      unfold SweepHeard at heard ⊢
      rw [delivered_sweep awake, heard]
      simp [Notice.isPupil, ha]

theorem removeNotice_counter (m : Nat) (s : State) : (removeNotice m s).notices.counter = s.notices.counter := by
  rw [removeNotice_state]

theorem pupilAt_removeNotice (j : Slot) (m : Nat) (s : State) : pupilAt j (removeNotice m s) = pupilAt j s :=
  pupilAt_congr (congrArg _ (removeNotice_roll m s)) j

/-- The ABSENT notice of a pupil leaves with the delivery (R165). -/
theorem delivered_absent {k : Slot} {i : Nat} {arrived : Bool} (hk : n.kind = .absent) (hc : n.cancel = false) :
    delivered n k i arrived s = claim k (askedFor i) s := by
  unfold delivered
  rw [if_neg (not_not.2 hk), if_neg (by rw [hc]; nofun)]

/-- A delivery that changes nothing more than the queue: of another kind than ABSENT, or cancelled for a pupil who has not arrived. -/
theorem delivered_plain {k : Slot} {i : Nat} {arrived : Bool} (h : n.kind ≠ .absent ∨ n.cancel = true ∧ arrived = false) :
    delivered n k i arrived s = s := by
  unfold delivered
  rcases h with h | ⟨hc, ha⟩
  · rw [if_pos h]
  · rw [if_pos hc, ha]
    split
    · rfl
    · rfl

/-- A cancelled ABSENT notice delivered for a pupil who has arrived (R136). -/
theorem delivered_correction {k : Slot} {i : Nat} (hk : n.kind = .absent) (hc : n.cancel = true) :
    delivered n k i true s = addArrived k i (lateDropped k i s) := by
  unfold delivered
  rw [if_neg (not_not.2 hk), if_pos hc, if_pos rfl]
  rfl

theorem hasArrived_iff {k : Slot} : hasArrived k s = true ↔ ∃ p, pupilAt k s = some p ∧ isArrivalMark p.day.mark = true := by
  simp [hasArrived, Option.any_eq_true]

theorem deliverSend_delivered (key : SendKey) (s : State) : SendDelivered key s (deliverSend key (dropSend key s)) := by
  refine ⟨?_, deliverSend_sweep key (dropSend key s), fun n h => ⟨fun b ha => ?_, fun k i ha => ?_⟩⟩
  · rw [deliverSend_state]
    rfl
  · rw [deliverSend_broadcast (s := dropSend key s) h ha]
    exact ⟨rfl, rfl, noticeAt_updateBroadcast (s := dropSend key s) h ha⟩
  · rw [deliverSend_pupil (s := dropSend key s) h ha]
    have queue := removeNotice_queue key.number (dropSend key s)
    have roll := removeNotice_roll key.number (dropSend key s)
    have counter := removeNotice_counter key.number (dropSend key s)
    have pupils (j : Slot) := pupilAt_removeNotice j key.number (dropSend key s)
    refine ⟨fun other => ?_, fun absent open_ => ?_, fun absent cancel => ⟨fun away => ?_, fun p hp arrived => ?_⟩⟩
    · rw [delivered_plain (.inl other)]
      exact ⟨roll, counter, queue⟩
    · rw [delivered_absent absent open_]
      have withdrawn := claim_withdrawn_of (k := k) (s := removeNotice key.number (dropSend key s)) fun _ => askedFor_mark (i := key.position)
      refine ⟨noticeAt_none_of_withdrawn withdrawn (noticeAt_removeNotice _ _), ?_, ?_, fun j => ?_⟩
      · rw [claim_state]
        exact counter
      · rw [pupils, queue] at withdrawn
        exact withdrawn
      · rw [pupilAt_claim, pupils]
        refine congrArg (Option.map · _) (funext fun p => ?_)
        unfold askedFor
        by_cases hj : j = k <;> by_cases hm : p.day.mark = .absentPending <;> simp [hj, hm]
    · have not_arrived : hasArrived k (dropSend key s) = false := by
        rw [← Bool.not_eq_true, hasArrived_iff]
        rintro ⟨p, hp, e⟩
        rw [away p hp] at e
        cases e
      rw [delivered_plain (.inr ⟨cancel, not_arrived⟩)]
      exact ⟨roll, counter, queue⟩
    · have has : hasArrived k (dropSend key s) = true := hasArrived_iff.2 ⟨p, hp, arrived⟩
      rw [has, delivered_correction absent cancel, lateDropped_state ((pupils k).trans hp), removeNotice_state]
      have others : withoutLate k (s.notices.queue.filter (·.number ≠ key.number)) =
          s.notices.queue.filter fun m => m.number ≠ key.number && !(m.kind = .late && m.isTo k && !m.inWindow) := by
        unfold withoutLate
        rw [List.filter_filter]
        exact List.filter_congr fun m _ => Bool.and_comm _ _
      refine ⟨fun j hj => pupilAt_put_ne hj { p with day := askedAt key.position p.day } s,
        pupilAt_put_self k { p with day := askedAt key.position p.day } s, fun h1 h2 => ?_, ?_⟩
      · rw [← others] at h2 ⊢
        have issued := numberIssued_nextFree (used := (withoutLate k (s.notices.queue.filter (·.number ≠ key.number))).map
          (·.number)) h1 (by rwa [List.length_map])
        rw [List.length_map] at issued
        exact issued
      · rw [← others]
        rfl

end Sys2Proof.Machine
end

