-- ==== Sys2Proof/Proofs/Receipts.lean ====
section
/-! PROOF. RECEIPT, OUTCOME and the outcome limit (R162, R163, R179, R180). -/

namespace Sys2Proof.Machine

variable {key : SendKey} {s : State}

/-- A record that the Gateway Port takes: its effect, its ANSWER, and the Dispatcher's work (R178, R179). -/
theorem takeRecord_taken {r : Inbound} {t : State} {about : Answered} {word : AnswerWord} (may : MayAnswer s)
    (ok : inboundOk r = true) (h : recordEffect r (frameTaken s) = (t, .answer about word)) :
    takeRecord r s = answeredBy about word t := by
  have room : answersFull s = false := decide_eq_false (Nat.not_le.2 may)
  unfold takeRecord
  rw [if_neg (by rw [ok, room]; nofun)]
  show settle (sendFrame (recordEffect r (frameTaken s)).2 (recordEffect r (frameTaken s)).1) = _
  rw [h]
  rfl

theorem exec_receipt {a : TakeAnswer} {t : State} {word : AnswerWord} (held : s.power.held = false) (may : MayAnswer s)
    (ok : Machine.keyOk key = true) (h : takeReceipt key a (frameTaken s) = (t, word)) :
    exec (.receipt key a) s = .next (answeredBy (.receipt key) word t) := by
  have effect : recordEffect (.receipt key a) (frameTaken s) = (t, .answer (.receipt key) word) := by
    unfold recordEffect
    dsimp only
    rw [h]
  rw [← takeRecord_taken (r := .receipt key a) may ok effect]
  exact event_next held _

theorem exec_outcome {d : Bool} {t : State} {word : AnswerWord} (held : s.power.held = false) (may : MayAnswer s)
    (ok : Machine.keyOk key = true) (h : takeOutcome key d (frameTaken s) = (t, word)) :
    exec (.outcome key d) s = .next (answeredBy (.outcome key) word t) := by
  have effect : recordEffect (.outcome key d) (frameTaken s) = (t, .answer (.outcome key) word) := by
    unfold recordEffect
    dsimp only
    rw [h]
  rw [← takeRecord_taken (r := .outcome key d) may ok effect]
  exact event_next held _

theorem clearTimeouts_eq (s : State) : clearTimeouts s = countCleared s := by
  unfold clearTimeouts countCleared
  by_cases up : s.gateway.link = .up
  · rw [if_pos up, if_pos up]
    rfl
  · rw [if_neg up, if_neg up]

/-! ### RECEIPT -/

theorem takeReceipt_none (h : sendAt key s = none) (a : TakeAnswer) : takeReceipt key a s = (s, .stale) := by
  unfold takeReceipt
  rw [h]

/-- The answers to a send of AWAIT_OUTCOME. -/
theorem takeReceipt_awaitOutcome {x : Send} (h : sendAt key s = some x) (hx : x.state = .awaitOutcome) :
    takeReceipt key .take s = (s, .known) ∧ takeReceipt key .busy s = (s, .stale) ∧
      takeReceipt key .refuse s = (s, .stale) := by
  unfold takeReceipt
  rw [h]
  dsimp only
  rw [hx]
  exact ⟨rfl, rfl, rfl⟩

/-- The answers to a send of AWAIT_TAKE. -/
theorem takeReceipt_awaitTake {x : Send} (h : sendAt key s = some x) (hx : x.state = .awaitTake) :
    takeReceipt key .take s = (countCleared (sendTaken key s), .known) ∧
      takeReceipt key .busy s =
        (countCleared
          (setNotices (fun n => { n with busyEnd := some (s.time.running + 3000) }) (returnSend key (dropSend key s))), .known) ∧
      takeReceipt key .refuse s = (countCleared (failSend key (dropSend key s)), .known) := by
  simp only [← clearTimeouts_eq]
  unfold takeReceipt
  rw [h]
  dsimp only
  rw [hx]
  exact ⟨rfl, rfl, rfl⟩

/-- Settles O46: the answer word and the effect for each state of the send. -/
theorem receiptsActOnTheSend : Obligations.ReceiptsActOnTheSend := by
  unfold Obligations.ReceiptsActOnTheSend
  intro key s held may ok s0
  refine ⟨fun h a => ?_, fun x h hx => ?_, fun x h hx => ?_⟩
  · exact exec_receipt held may ok (takeReceipt_none (s := s0) h a)
  · obtain ⟨take, busy, refuse⟩ := takeReceipt_awaitOutcome (s := s0) h hx
    exact ⟨exec_receipt held may ok take, exec_receipt held may ok busy, exec_receipt held may ok refuse⟩
  · obtain ⟨take, busy, refuse⟩ := takeReceipt_awaitTake (s := s0) h hx
    exact ⟨exec_receipt held may ok take, ⟨_, returnSend_returned key s0, exec_receipt held may ok busy⟩,
      _, failSend_failed key s0, exec_receipt held may ok refuse⟩

/-! ### OUTCOME and the outcome limit -/

theorem takeOutcome_none (h : sendAt key s = none) (d : Bool) : takeOutcome key d s = (s, .stale) := by
  unfold takeOutcome
  rw [h]

theorem takeOutcome_send {x : Send} (h : sendAt key s = some x) :
    takeOutcome key true s = (deliverSend key (dropSend key s), .known) ∧
      takeOutcome key false s = (failSend key (dropSend key s), .known) := by
  unfold takeOutcome
  rw [h]
  exact ⟨rfl, rfl⟩

/-- A send of AWAIT_OUTCOME meets the outcome limit where it falls in the present second (R163). -/
theorem outcomeLimitMet_due {x : Send} (h : sendAt key s = some x) (hx : x.state = .awaitOutcome)
    (due : x.sentAt + 90000 < nextSecond s) :
    outcomeLimitMet key s = settle (failSend key (dropSend key (reach (x.sentAt + 90000) s))) := by
  unfold outcomeLimitMet
  rw [h]
  exact if_pos ⟨hx, decide_eq_true due⟩

theorem outcomeLimitMet_not {x : Send} (h : sendAt key s = some x) (hn : x.state = .awaitTake ∨ nextSecond s ≤ x.sentAt + 90000) :
    outcomeLimitMet key s = s := by
  unfold outcomeLimitMet
  rw [h]
  refine if_neg fun y => ?_
  rcases hn with e | e
  · rw [e] at y
    cases y.1
  · exact Nat.not_le.2 (of_decide_eq_true y.2) e

/-- Settles O47: a delivery or a failure for a send of the window, and the failure at the outcome limit. -/
theorem outcomesEndTheSend : Obligations.OutcomesEndTheSend := by
  unfold Obligations.OutcomesEndTheSend
  intro key s held
  refine ⟨fun may ok => ⟨fun h d => exec_outcome held may ok (takeOutcome_none (s := frameTaken s) h d), fun x h => ?_⟩,
    fun x h => ⟨fun hx due => ?_, fun hn => ?_⟩⟩
  · obtain ⟨delivered, failed⟩ := takeOutcome_send (s := frameTaken s) h
    exact ⟨⟨_, deliverSend_delivered key (frameTaken s), exec_outcome held may ok delivered⟩,
      _, failSend_failed key (frameTaken s), exec_outcome held may ok failed⟩
  · refine ⟨_, ?_, failSend_failed key (reach (x.sentAt + 90000) s)⟩
    rw [← outcomeLimitMet_due h hx due]
    exact event_next held _
  · have same : exec (.outcomeLimit key) s = .next (outcomeLimitMet key s) := event_next held _
    rw [same, outcomeLimitMet_not h hn]

end Sys2Proof.Machine
end

