-- ==== Sys2Proof/Proofs/StoreRequests.lean ====
section
/-! SUPPORT. The areas a request of the Settings Store names, the conditions an operation under way sets, and how SAVE, LOAD and DEFAULTS
begin one or are refused (R193, R201, R203). -/

namespace Sys2Proof.Machine

/-! ### The areas named -/

theorem mapM_id_eq_some_iff {α : Type} {l : List (Option α)} {m : List α} : l.mapM id = some m ↔ l = m.map some := by
  rw [mapM_eq_some_iff_forall₂]
  induction l generalizing m with
  | nil => cases m <;> simp
  | cons x l ih =>
    cases m with
    | nil => simp
    | cons a m => rw [List.forall₂_cons, ih, List.map_cons, List.cons.injEq]; rfl

theorem exists_map_some {α : Type} {l : List (Option α)} (h : none ∉ l) : ∃ m : List α, l = m.map some := by
  induction l with
  | nil => exact ⟨[], rfl⟩
  | cons x l ih =>
    obtain ⟨m, rfl⟩ := ih fun y => h (.tail _ y)
    cases x with
    | none => exact absurd List.mem_cons_self h
    | some a => exact ⟨a :: m, rfl⟩

theorem mem_allAreas (a : Area) : a ∈ allAreas := by cases a <;> decide

/-- The areas that the areas part of a request names, in area-number order. -/
def AreasNamed (areas : AreasArg) (l : List Area) : Prop :=
  areas = .all ∧ l = allAreas ∨
    ∃ named : List Area, areas = .list (named.map some) ∧ named ≠ [] ∧ named.Nodup ∧ l = allAreas.filter (· ∈ named)

theorem areasOf_list {named : List Area} (h : named ≠ []) (distinct : named.Nodup) :
    areasOf (.list (named.map some)) = some (allAreas.filter (· ∈ named)) := by
  unfold areasOf
  dsimp only
  rw [mapM_id_eq_some_iff.2 rfl]
  dsimp only
  rw [if_neg (by simp [h, distinct])]
  exact congrArg some (List.filter_congr fun a _ => List.contains_eq_mem a named)

theorem areasOf_of_named {areas : AreasArg} {l : List Area} (h : AreasNamed areas l) : areasOf areas = some l := by
  rcases h with ⟨rfl, rfl⟩ | ⟨named, rfl, some_, distinct, rfl⟩
  · rfl
  · exact areasOf_list some_ distinct

theorem areasOf_eq_none_iff {areas : AreasArg} :
    areasOf areas = none ↔ ∃ l, areas = .list l ∧ (l = [] ∨ none ∈ l ∨ ¬l.Nodup) := by
  cases areas with
  | all => simp [areasOf]
  | list l =>
    by_cases unknown : none ∈ l
    · have unread : l.mapM id = none := by
        cases e : l.mapM id with
        | none => rfl
        | some m => rw [mapM_id_eq_some_iff.1 e] at unknown; simp at unknown
      unfold areasOf
      dsimp only
      rw [unread]
      exact iff_of_true rfl ⟨l, rfl, .inr (.inl unknown)⟩
    · obtain ⟨m, rfl⟩ := exists_map_some unknown
      have twice : (m.map some).Nodup ↔ m.Nodup := List.nodup_map_iff (Option.some_injective _)
      have one (p : List (Option Area) → Prop) : (∃ l, AreasArg.list (m.map some) = .list l ∧ p l) ↔ p (m.map some) := by simp
      rw [one, twice, List.map_eq_nil_iff]
      by_cases h : m = [] ∨ ¬m.Nodup
      · unfold areasOf
        dsimp only
        rw [mapM_id_eq_some_iff.2 rfl]
        dsimp only
        rw [if_pos (by simpa using h)]
        tauto
      · obtain ⟨some_, distinct⟩ := not_or.1 h
        rw [areasOf_list some_ (not_not.1 distinct)]
        simp_all

theorem named_of_areasOf {areas : AreasArg} {l : List Area} (h : areasOf areas = some l) : AreasNamed areas l := by
  cases areas with
  | all => cases h; exact .inl ⟨rfl, rfl⟩
  | list x =>
    have ok : ¬(x = [] ∨ none ∈ x ∨ ¬x.Nodup) := fun y => by
      rw [areasOf_eq_none_iff.2 ⟨x, rfl, y⟩] at h
      cases h
    simp only [not_or, not_not] at ok
    obtain ⟨some_, known, distinct⟩ := ok
    obtain ⟨named, rfl⟩ := exists_map_some known
    have some_ : named ≠ [] := fun y => some_ (List.map_eq_nil_iff.2 y)
    have distinct := (List.nodup_map_iff (Option.some_injective _)).1 distinct
    rw [areasOf_list some_ distinct] at h
    exact .inr ⟨named, rfl, some_, distinct, (Option.some.inj h).symm⟩

theorem AreasNamed.mem_iff {areas : AreasArg} {l : List Area} (h : AreasNamed areas l) (a : Area) : a ∈ l ↔ NamesArea areas a := by
  rcases h with ⟨rfl, rfl⟩ | ⟨named, rfl, _, _, rfl⟩
  · exact iff_of_true (mem_allAreas a) (.inl rfl)
  · simp [NamesArea, mem_allAreas]

theorem needsClosed_iff {l : List Area} : needsClosed l = true ↔ Area.roster ∈ l ∨ Area.plans ∈ l ∨ Area.away ∈ l := by
  simp [needsClosed, or_assoc]

/-! ### The operation under way -/

/-- An operation names an area, its step ended or not. -/
def StoreOperation.Names (o : StoreOperation) (a : Area) : Prop := a ∈ o.rest ∨ ∃ e ∈ o.ended, e.1 = a

theorem areas_contains_iff {o : StoreOperation} {a : Area} : o.areas.contains a = true ↔ o.Names a := by
  unfold StoreOperation.areas StoreOperation.Names
  rw [List.contains_iff_mem, List.mem_append, List.mem_map, or_comm]

theorem storeHolds_iff {a : Area} {s : State} : storeHolds a s = true ↔ ∃ o, s.store.operation = some o ∧ o.Names a := by
  unfold storeHolds
  split <;> simp_all [← areas_contains_iff]

theorem saveHolds_iff {a : Area} {s : State} :
    saveHolds a s = true ↔ ∃ o, s.store.operation = some o ∧ o.kind = .save ∧ o.Names a := by
  unfold saveHolds
  split <;> simp_all [← areas_contains_iff]

theorem rollLoadUnderWay_iff {s : State} :
    rollLoadUnderWay s = true ↔
      ∃ o, s.store.operation = some o ∧ o.kind ≠ .save ∧ (o.Names .roster ∨ o.Names .plans ∨ o.Names .away) := by
  unfold rollLoadUnderWay
  split <;> simp_all [← areas_contains_iff, or_assoc]

/-! ### SAVE, LOAD and DEFAULTS -/

section Request

variable {kind : StoreKind} {areas : AreasArg} {l : List Area} {s : State}

theorem storeRequest_busy (h : s.store.operation ≠ none) : storeRequest kind areas s = refuse .storeBusy s :=
  if_pos (Option.isSome_iff_ne_none.2 h)

theorem storeRequest_bad (free : s.store.operation = none) (h : areasOf areas = none) :
    storeRequest kind areas s = refuse .badValue s := by
  unfold storeRequest
  rw [free, h]
  rfl

/-- A request of known areas while no operation is under way. -/
theorem storeRequest_known (free : s.store.operation = none) (h : areasOf areas = some l) :
    storeRequest kind areas s =
      if kind ≠ .save ∧ needsClosed l ∧ s.day.state ≠ .closed then refuse .dayOpen s
      else if kind ≠ .save ∧ l.contains .limits ∧ ¬s.pins.install then refuse .locked s
      else beginStore kind l s := by
  unfold storeRequest
  rw [if_neg (by simp [free]), h]

theorem storeRequest_save (free : s.store.operation = none) (h : areasOf areas = some l) :
    storeRequest .save areas s = beginStore .save l s := by
  rw [storeRequest_known free h, if_neg (fun y => y.1 rfl), if_neg (fun y => y.1 rfl)]

theorem save_answers (areas : AreasArg) (s : State) : Answers (checksOf (.save areas) s) s (storeRequest .save areas s) := by
  by_cases free : s.store.operation = none
  · refine .passes (fun y => y free) ?_
    cases h : areasOf areas with
    | none =>
      rw [storeRequest_bad free h]
      exact .refused (areasOf_eq_none_iff.1 h)
    | some l =>
      refine .passes (fun y => ?_) ?_
      · rw [areasOf_eq_none_iff.2 y] at h
        cases h
      · rw [storeRequest_save free h]
        exact .taken nofun
  · rw [storeRequest_busy free]
    exact .refused free

/-- A LOAD or DEFAULTS meets the checks of a LOAD. -/
theorem load_answers (other : kind ≠ .save) (areas : AreasArg) (s : State) :
    Answers (checksOf (.load areas s.pins.install) s) s (storeRequest kind areas s) := by
  by_cases free : s.store.operation = none
  · refine .passes (fun y => y free) ?_
    cases h : areasOf areas with
    | none =>
      rw [storeRequest_bad free h]
      exact .refused (areasOf_eq_none_iff.1 h)
    | some l =>
      have named := (named_of_areasOf h).mem_iff
      refine .passes (fun y => ?_) ?_
      · rw [areasOf_eq_none_iff.2 y] at h
        cases h
      · rw [storeRequest_known free h]
        refine .ite ?_ fun _ => .ite ?_ fun _ => .taken nofun
        · rw [needsClosed_iff, named, named, named]
          exact and_iff_right other
        · rw [List.contains_iff_mem, named, Bool.not_eq_true]
          exact and_iff_right other
  · rw [storeRequest_busy free]
    exact .refused free

/-- How a LOAD or DEFAULTS of known areas goes. -/
theorem load_cases (other : kind ≠ .save) (free : s.store.operation = none) (h : areasOf areas = some l) :
    let closed := (Area.roster ∈ l ∨ Area.plans ∈ l ∨ Area.away ∈ l) → s.day.state = .closed
    let locked := Area.limits ∈ l → s.pins.install = true
    (closed → locked → storeRequest kind areas s = beginStore kind l s) ∧
      (¬closed → storeRequest kind areas s = refuse .dayOpen s) ∧
      (closed → ¬locked → storeRequest kind areas s = refuse .locked s) := by
  intro closed locked
  have day : (kind ≠ .save ∧ needsClosed l ∧ s.day.state ≠ .closed) ↔ ¬closed := by
    rw [needsClosed_iff, Classical.not_imp]
    exact and_iff_right other
  have strap : (kind ≠ .save ∧ l.contains .limits ∧ ¬s.pins.install) ↔ ¬locked := by
    rw [List.contains_iff_mem, Classical.not_imp]
    exact and_iff_right other
  rw [storeRequest_known free h]
  refine ⟨fun d t => ?_, fun d => if_pos (day.2 d), fun d t => ?_⟩
  · rw [if_neg (fun y => day.1 y d), if_neg (fun y => strap.1 y t)]
  · rw [if_neg (fun y => day.1 y d), if_pos (strap.2 t)]

end Request

end Sys2Proof.Machine
end

