-- ==== Sys2Proof/Proofs/AreasInstalled.lean ====
section
/-! SUPPORT. What an area put in force replaces, and when its stored copy is good (R1, R100, R200, R202). -/

namespace Sys2Proof.Machine

/-! ### Good copies -/

theorem isGood_iff {a : Area} {st : SettingsStore} :
    st.isGood a = true ↔
      ∃ b, st.stored.bytes a = some b ∧
        st.fingerprints[areaNumber a]? = some (check16 (Config.areaHead (areaNumber a) b.length ++ b)) := by
  unfold SettingsStore.isGood AreaCopies.fingerprint
  simp [Option.any_eq_true]

theorem areaNumber_lt (a : Area) : areaNumber a < 9 := by cases a <;> decide

theorem bytes_put (a : Area) (source target : AreaCopies) : (AreaCopies.put a source target).bytes a = source.bytes a := by
  cases a <;> rfl

/-- An area just written is good. -/
theorem isGood_write {a : Area} {source : AreaCopies} {st : SettingsStore} (held : source.bytes a ≠ none)
    (length : st.fingerprints.length = 9) : (st.write a source).isGood a = true := by
  obtain ⟨b, hb⟩ := Option.ne_none_iff_exists'.1 held
  refine isGood_iff.2 ⟨b, (bytes_put a source st.stored).trans hb, ?_⟩
  have inTable : areaNumber a < st.fingerprints.length := length ▸ areaNumber_lt a
  show (st.fingerprints.set (areaNumber a) ((source.fingerprint a).getD 0))[areaNumber a]? = _
  rw [List.getElem?_set_self inTable]
  unfold AreaCopies.fingerprint
  rw [hb]
  rfl

/-- A copy never written is not good. -/
theorem isGood_never {a : Area} {st : SettingsStore} (h : st.stored = .none_) : st.isGood a = false := by
  unfold SettingsStore.isGood AreaCopies.fingerprint
  rw [h]
  cases a <;> rfl

/-! ### ROSTER -/

theorem withdrawWhere_state (p : Notice → Bool) (s : State) :
    withdrawWhere p s =
      { s with
        notices := { s.notices with queue := (withdrawWhere p s).notices.queue }
        sweep := (withdrawWhere p s).sweep } := by
  unfold withdrawWhere
  rw [(setQueue_parts _ s).1]
  exact setQueue_state _ s

/-- A pupil notice of a slot of a set. -/
def Notice.toGone (gone : Slot → Bool) (n : Notice) : Bool :=
  match n.addressee with
  | .pupil k _ => gone k
  | .broadcast _ => false

/-- A broadcast without the returned steps of a set of slots. -/
def Notice.withoutReturned (gone : Slot → Bool) (n : Notice) : Notice :=
  match n.addressee with
  | .pupil _ _ => n
  | .broadcast b => { n with addressee := .broadcast { b with returned := b.returned.filter (!gone ·.1) } }

/-- The queue once the notices of a set of slots are withdrawn. -/
def queueWithout (gone : Slot → Bool) (s : State) : List Notice :=
  (withdrawWhere (Notice.toGone gone) (dropAway gone s)).notices.queue

theorem forgetSlots_eq (gone : Slot → Bool) (s : State) :
    forgetSlots gone s = dropReturned gone (withdrawWhere (Notice.toGone gone) (dropAway gone s)) := rfl

theorem dropReturned_eq (gone : Slot → Bool) (s : State) :
    dropReturned gone s =
      { s with notices := { s.notices with queue := s.notices.queue.map (Notice.withoutReturned gone) } } := rfl

theorem forgetSlots_state (gone : Slot → Bool) (s : State) :
    forgetSlots gone s =
      { s with
        roll := { s.roll with away := s.roll.away.filter fun e => !gone e.slot }
        notices := { s.notices with queue := (queueWithout gone s).map (Notice.withoutReturned gone) }
        sweep := (forgetSlots gone s).sweep } := by
  rw [forgetSlots_eq, dropReturned_eq, withdrawWhere_state]
  rfl

theorem queueWithout_withdrawn (gone : Slot → Bool) (s : State) :
    Withdrawn (Notice.toGone gone) s.notices.queue (queueWithout gone s) := withdrawWhere_withdrawn _ (dropAway gone s)

theorem install_roster {new : List (Slot × Enrolment)} {c : AreaCopies} (h : c.roster = some new) (s : State) :
    install .roster c s =
      { s with
        roll :=
          { roster := freshRoster new
            census := censusOf (freshRoster new)
            away := s.roll.away.filter fun e => !rosterGone new s e.slot }
        notices :=
          { s.notices with
            queue := (queueWithout (rosterGone new s) s).map (Notice.withoutReturned (rosterGone new s)) }
        sweep := (install .roster c s).sweep } := by
  have here : install .roster c s = installRoster new s := by simp only [install, h, Option.map_some, Option.getD_some]
  rw [here]
  unfold installRoster
  dsimp only
  rw [forgetSlots_state]

theorem install_roster_heard {new : List (Slot × Enrolment)} {c : AreaCopies} (h : c.roster = some new) (s : State) :
    Heard s (install .roster c s) := by
  have here : install .roster c s = installRoster new s := by simp only [install, h, Option.map_some, Option.getD_some]
  rw [here]
  exact (forgetSlots_heard (rosterGone new s) (.refl s)).set rfl

/-! ### SETTINGS and the areas that replace their working copy alone -/

section Simple

variable {c : AreaCopies} (s : State)

theorem install_settings {x : Settings} (h : c.settings = some x) :
    let v := if x.buttonMode = s.settings.buttonMode then s else releaseButton s
    install .settings c s = silenceChanged v { v with settings := x } := by
  have here : install .settings c s = installSettings x s := by simp only [install, h, Option.map_some, Option.getD_some]
  exact here

theorem install_limits {x : Limits} (h : c.limits = some x) : install .limits c s = { s with limits := x } := by
  unfold install
  rw [h]
  rfl

theorem install_plans {x : List Bank} (h : c.plans = some x) :
    install .plans c s = { s with plan := { s.plan with banks := x } } := by
  unfold install
  rw [h]
  rfl

theorem install_patterns {x : List (List PatternStep)} (h : c.patterns = some x) :
    install .patterns c s = { s with chime := { s.chime with patterns := x } } := by
  unfold install
  rw [h]
  rfl

theorem install_calendar {x : List (Date × DayType)} (h : c.calendar = some x) :
    install .calendar c s = { s with day := { s.day with calendar := x } } := by
  unfold install
  rw [h]
  rfl

theorem install_texts {x : List Text} (h : c.texts = some x) :
    install .texts c s = { s with notices := { s.notices with texts := x } } := by
  unfold install
  rw [h]
  rfl

theorem install_away {x : List AwayEntry} (h : c.away = some x) :
    install .away c s = { s with roll := { s.roll with away := x } } := by
  unfold install
  rw [h]
  rfl

end Simple

/-! ### TERMINALS -/

theorem terminalTable_length (l : List StoredTerminal) (now : RunTime) : (terminalTable l now).length = 8 := by
  simp [terminalTable]

theorem terminalTable_get (l : List StoredTerminal) (now : RunTime) {n : Nat} (hn : n < 8) :
    ((terminalTable l now)[n]?).bind id =
      (l.find? (·.entry = n)).map fun t => Terminal.new t.identity t.entrance .active now := by
  have entry : (List.range 8)[n]? = some n := List.getElem?_range hn
  unfold terminalTable
  rw [List.getElem?_map, entry]
  rfl

theorem lineFree_iff {s : State} : lineFree s = true ↔ s.line.job = .idle ∧ s.line.phase = .free := by simp [lineFree]

theorem install_terminals {l : List StoredTerminal} {c : AreaCopies} (h : c.terminals = some l) (s : State) :
    install .terminals c s =
      { s with
        line :=
          { s.line with
            table := terminalTable l s.time.running
            refused := none
            orphan := s.line.orphan || !lineFree s
            dropJob := s.line.dropJob || !lineFree s
            leftEntrance := (keepEntrance s).line.leftEntrance } } := by
  simp only [install, h, Option.map_some, Option.getD_some]
  rfl

/-- The entrance number is kept for a round that serves a terminal. -/
theorem keepEntrance_serving {p : PollRound} {t : Terminal} {s : State} (job : s.line.job = .pollServe p)
    (first : s.line.leftEntrance = none) (ht : terminalAt p.entry s = some t) :
    (keepEntrance s).line.leftEntrance = some t.entrance := by
  simp only [keepEntrance, job, entranceOf, first, ht, Option.map_some, Option.getD_none, Option.getD_some]

theorem keepEntrance_other {s : State} (job : ∀ p, s.line.job ≠ .pollServe p) :
    (keepEntrance s).line.leftEntrance = s.line.leftEntrance := by
  unfold keepEntrance
  dsimp only
  split
  · rename_i p e
    exact absurd e (job p)
  · rfl

end Sys2Proof.Machine
end

