-- ==== Sys2Proof/Proofs/StoreSteps.lean ====
section
/-! SUPPORT. The step of an area of a store operation, and the end of the operation (R202). -/

namespace Sys2Proof.Machine

/-! ### The step of an area -/

/-- The result of an area's step: a SAVE step fails where the read-back does not agree, a LOAD step at a bad copy. -/
def areaResult (kind : StoreKind) (good agrees : Bool) : StepResult :=
  if kind = .save ∧ agrees = false ∨ kind = .load ∧ good = false then .failed else .ok

/-- The working copies after an area's step. -/
def areaBase (kind : StoreKind) (a : Area) (s : State) : State :=
  match kind with
  | .save => s
  | .load => if s.store.isGood a then install a s.store.stored s else s
  | .defaults => install a defaultCopies s

/-- The working copies after an area's step, with STORE raised where it fails. -/
def areaRaised (kind : StoreKind) (a : Area) (agrees : Bool) (s : State) : State :=
  if areaResult kind (s.store.isGood a) agrees = .failed then raise .store (some (.area a)) (areaBase kind a s)
  else areaBase kind a s

/-- The stored copies after an area's step. -/
def areaStore (kind : StoreKind) (a : Area) (snapshot : AreaCopies) (agrees : Bool) (st : SettingsStore) : SettingsStore :=
  if kind = .save ∧ agrees = true then st.write a snapshot else st

theorem areaBase_store (kind : StoreKind) (a : Area) (s : State) : (areaBase kind a s).store = s.store := by
  cases kind
  case save => rfl
  case load => unfold areaBase; dsimp only; split <;> simp
  case defaults => exact install_store a defaultCopies s

theorem areaRaised_store (kind : StoreKind) (a : Area) (agrees : Bool) (s : State) :
    (areaRaised kind a agrees s).store = s.store := by
  unfold areaRaised
  split
  · exact areaBase_store kind a s
  · exact areaBase_store kind a s

theorem areaRaised_time (kind : StoreKind) (a : Area) (agrees : Bool) (s : State) :
    (areaRaised kind a agrees s).time = (areaBase kind a s).time := by
  unfold areaRaised
  split <;> rfl

theorem setStore_self {t : State} {st : SettingsStore} (h : t.store = st) : { t with store := st } = t := by
  subst h
  rfl

theorem areaStep_eq (kind : StoreKind) (a : Area) (snapshot : AreaCopies) (agrees : Bool) (s : State) :
    areaStep kind a snapshot agrees s =
      ({ areaRaised kind a agrees s with store := areaStore kind a snapshot agrees s.store },
        areaResult kind (s.store.isGood a) agrees) := by
  have kept := setStore_self (areaRaised_store kind a agrees s)
  cases kind
  case save => cases agrees <;> rfl
  case load =>
    show _ = ({ areaRaised .load a agrees s with store := s.store }, _)
    rw [kept]
    unfold areaRaised areaStep areaResult areaBase
    cases good : s.store.isGood a <;> simp
  case defaults =>
    show _ = ({ areaRaised .defaults a agrees s with store := s.store }, _)
    rw [kept]
    rfl

/-! ### The end of the operation -/

/-- The subject of DONE where the last area is `a`. -/
theorem doneSubject_append (l : List (Area × StepResult)) (a : Area) (r : StepResult) :
    doneSubject (l ++ [(a, r)]) =
      match (l ++ [(a, r)]).find? (·.2 ≠ .ok) with
      | some e => some (.area e.1)
      | none => some (.area a) := by
  unfold doneSubject
  rw [List.getLast?_concat]
  rfl

/-- What the end of an area's step leaves: the next area awaited, or the operation ended. -/
theorem storeStep_eq {o : StoreOperation} {a : Area} {rest : List Area} {s : State} (ho : s.store.operation = some o)
    (hr : o.rest = a :: rest) (agrees : Bool) :
    storeStep agrees s =
      let ended := o.ended ++ [(a, areaResult o.kind (s.store.isGood a) agrees)]
      let raised := areaRaised o.kind a agrees s
      let store := areaStore o.kind a o.snapshot agrees s.store
      settle
        (autoOpen
          (if rest = [] then
            raise .done
              (match ended.find? (·.2 ≠ .ok) with
              | some e => some (.area e.1)
              | none => some (.area a))
              { raised with
                store :=
                  { store with
                    operation := none
                    lastOperation := some ⟨o.kind, ended, o.start, (areaBase o.kind a s).time.school⟩ } }
          else { raised with store := { store with operation := some { o with ended := ended, rest := rest } } })) := by
  unfold storeStep
  rw [ho]
  dsimp only
  rw [hr]
  dsimp only
  rw [areaStep_eq, ← areaRaised_time o.kind a agrees s, doneSubject_append]
  cases rest <;> rfl

end Sys2Proof.Machine
end

