-- ==== Sys2Proof/Proofs/SettingsStore.lean ====
section
/-! SUPPORT. The operations of the Settings Store as the obligation states them (R193, R200–R203). -/

namespace Sys2Proof.Machine

theorem storeRequests_refused {s : State} (held : s.power.held = false) :
    (∀ areas, RefusedByItsChecks (.save areas) s) ∧ (∀ areas strap, RefusedByItsChecks (.load areas strap) s) ∧
      ∀ areas strap, RefusedByItsChecks (.defaults areas strap) s :=
  ⟨fun areas => refusedByItsChecks_of rfl held (save_answers areas s),
    fun areas strap => refusedByItsChecks_of rfl held (load_answers (kind := .load) nofun areas (withStrap strap s)),
    fun areas strap => refusedByItsChecks_of rfl held (load_answers (kind := .defaults) nofun areas (withStrap strap s))⟩

/-- The terminal put in force at an entry. -/
theorem terminalAt_install {l : List StoredTerminal} {c : AreaCopies} (h : c.terminals = some l) (s : State) {n : Nat}
    (hn : n < 8) :
    terminalAt n (install .terminals c s) =
      (l.find? (·.entry = n)).map fun x => .new x.identity x.entrance .active s.time.running := by
  rw [install_terminals h]
  exact terminalTable_get l s.time.running hn

/-- The line is busy where it is not free. -/
theorem not_lineFree (s : State) : (!lineFree s) = decide (¬(s.line.job = .idle ∧ s.line.phase = .free)) := by
  rw [Bool.eq_iff_iff, decide_eq_true_iff]
  exact not_iff_of_iff lineFree_iff

/-- Settles O55: the requests by their checks, the step by its kind and results, and the areas put in force one by one. -/
theorem storeOperationsBeginAndEnd : Obligations.StoreOperationsBeginAndEnd := by
  unfold Obligations.StoreOperationsBeginAndEnd
  refine ⟨fun s held => storeRequests_refused held,
    fun a s => ⟨storeHolds_iff, saveHolds_iff, rollLoadUnderWay_iff⟩,
    fun areas l strap s held named => ?requests,
    fun o a rest agrees s held ho hr => ⟨?good, ?step⟩,
    fun new c s h => ?roster,
    fun l c s h => ?terminals,
    fun x c s h => install_settings s h,
    fun c s => ⟨fun x h => install_limits s h, fun x h => install_plans s h, fun x h => install_patterns s h,
      fun x h => install_calendar s h, fun x h => install_texts s h, fun x h => install_away s h⟩,
    fun a st => isGood_iff, fun a => isGood_never rfl⟩
  case requests =>
    have known := areasOf_of_named named
    refine ⟨fun busy => ⟨exec_taken rfl held (storeRequest_busy busy),
      exec_taken rfl held (storeRequest_busy (s := withStrap strap s) busy),
      exec_taken rfl held (storeRequest_busy (s := withStrap strap s) busy)⟩, fun free => ?_⟩
    obtain ⟨load, loadOpen, loadLocked⟩ := load_cases (kind := .load) (s := withStrap strap s) nofun free known
    obtain ⟨dflt, dfltOpen, dfltLocked⟩ := load_cases (kind := .defaults) (s := withStrap strap s) nofun free known
    exact ⟨exec_taken rfl held (storeRequest_save free known),
      fun d t => ⟨exec_taken rfl held (load d t), exec_taken rfl held (dflt d t)⟩,
      fun d => ⟨exec_taken rfl held (loadOpen d), exec_taken rfl held (dfltOpen d)⟩,
      fun d t => ⟨exec_taken rfl held (loadLocked d t), exec_taken rfl held (dfltLocked d t)⟩⟩
  case good =>
    intro save read snapshot length
    rw [if_pos ⟨save, read⟩]
    exact isGood_write snapshot length
  case step =>
    refine (event_next held (storeStep agrees)).trans ?_
    rw [storeStep_eq ho hr]
    rfl
  case roster =>
    intro gone
    have same : gone = rosterGone new s := by
      funext k
      simp only [gone, rosterGone]
      cases tableGet k new <;> cases pupilAt k s <;> rfl
    clear_value gone
    subst same
    have state := install_roster h s
    refine ⟨_, queueWithout (rosterGone new s) s, rfl, ?_, queueWithout_withdrawn _ s, (install_roster_heard h s).heard⟩
    have roll : (install .roster c s).roll.roster = freshRoster new := by rw [state]
    rw [roll]
    exact state
  case terminals =>
    have state := install_terminals h s
    refine ⟨_, rfl, ?_, ?_, fun n hn => terminalAt_install h s hn, fun p t job first ht => ?_, fun job => ?_⟩
    · rw [not_lineFree] at state
      rw [state]
    · rw [state]
      exact terminalTable_length l s.time.running
    · rw [state]
      exact keepEntrance_serving job first ht
    · rw [state]
      exact keepEntrance_other job

end Sys2Proof.Machine
end

