-- ==== Sys2Proof/Proofs/DoneSource.lean ====
section
/-! SUPPORT. Source DONE is raised by the Settings Store alone (R202): what the other blocks do at a warm start leaves it as it is. -/

namespace Sys2Proof.Machine

/-- The source DONE. -/
def doneSource (s : State) : Source := sourceAt 12 s

/-! ### Raising -/

theorem sourceAt_raise_self {id : SourceId} (x : Option Subject) {s : State} (h : id.num < s.attention.length) :
    sourceAt id.num (raise id x s) = (sourceAt id.num s).raised x := by
  unfold sourceAt raise
  dsimp only
  rw [List.getD_eq_getElem?_getD, List.getD_eq_getElem?_getD, List.getElem?_modify_eq, List.getElem?_eq_getElem h]
  rfl

theorem sourceAt_raise_ne {id : SourceId} (x : Option Subject) (s : State) {n : Nat} (h : id.num ≠ n) :
    sourceAt n (raise id x s) = sourceAt n s := by
  unfold sourceAt raise
  dsimp only
  rw [List.getD_eq_getElem?_getD, List.getD_eq_getElem?_getD, List.getElem?_modify]
  simp only [if_neg h, id_map']

theorem num_eq_done {id : SourceId} : id.num = 12 → id = .done := by cases id <;> decide

theorem raise_done (id : SourceId) (h : id ≠ .done) (x : Option Subject) (s : State) : doneSource (raise id x s) = doneSource s :=
  sourceAt_raise_ne x s fun e => h (num_eq_done e)

/-! ### The Chime Unit -/

theorem report_done (g : Origin) (p : PatternRef) (o : ChimeOutcome) (s : State) : doneSource (report g p o s) = doneSource s := by
  unfold report
  split
  · unfold writeOutcome
    split
    · rfl
    · dsimp only
      split
      · exact raise_done .bell nofun _ _
      · rfl
  · split <;> rfl
  · split <;> rfl

theorem endRequest_done (n : Nat) (o : ChimeOutcome) (s : State) : doneSource (endRequest n o s) = doneSource s := by
  unfold endRequest
  dsimp only
  split
  · exact report_done _ _ _ _
  · rfl

theorem playFrom_done (n i : Nat) (s : State) : doneSource (playFrom n i s) = doneSource s := by
  unfold playFrom
  dsimp only
  split
  · rfl
  · split
    · split
      · rfl
      · exact endRequest_done _ _ _
    · exact endRequest_done _ _ _

theorem wakingTest_done (n : Nat) (s : State) : doneSource (wakingTest n s) = doneSource s := by
  unfold wakingTest
  dsimp only
  split
  · split
    · rfl
    · exact playFrom_done _ _ _
  · rfl

theorem startOn_done (n : Nat) (r : ChimeRequest) (z : List Nat) (s : State) : doneSource (startOn n r z s) = doneSource s :=
  (wakingTest_done _ _).trans (report_done _ _ _ _)

theorem tryRequest_done {r : ChimeRequest} {z : List Nat} {s : State} {t : State × Nat × Bool} (h : tryRequest r z s = some t) :
    doneSource t.1 = doneSource s := by
  unfold tryRequest at h
  split at h
  · cases h
  · cases h
    exact (startOn_done _ _ _ _).trans (foldl_keeps (fun s m => endRequest_done m _ s) _ s)

theorem examineEntries_done (l : List WaitEntry) (s : State) : doneSource (examineEntries l s).2.1 = doneSource s := by
  induction l generalizing s with
  | nil => rfl
  | cons e t ih =>
    unfold examineEntries
    split
    · exact (ih _).trans (report_done _ _ _ _)
    · dsimp only
      split
      · exact ih s
      · rename_i h
        split at h
        · cases h
        · exact (ih _).trans (tryRequest_done h)

theorem examineFuel_done (n : Nat) (s : State) : doneSource (examineFuel n s) = doneSource s := by
  induction n generalizing s with
  | zero => rfl
  | succ n ih =>
    unfold examineFuel
    dsimp only
    split
    · exact (ih _).trans (examineEntries_done _ _)
    · exact examineEntries_done _ _

theorem examineIf_done (b : Bool) (s : State) : doneSource (examineIf b s) = doneSource s := by
  unfold examineIf
  split
  · exact examineFuel_done _ s
  · rfl

theorem joinWait_done (r : ChimeRequest) (s : State) : doneSource (joinWait r s).1 = doneSource s := by
  unfold joinWait
  dsimp only
  split
  · exact report_done _ _ _ _
  · split
    · exact report_done _ _ _ _
    · split
      · exact (report_done _ _ _ _).trans (report_done _ _ _ _)
      · exact report_done _ _ _ _

theorem decideRequest_done (r : ChimeRequest) (s : State) : doneSource (decideRequest r s).1 = doneSource s := by
  unfold decideRequest
  split
  · exact report_done _ _ _ s
  · dsimp only
    split
    · exact report_done _ _ _ s
    · split
      · rename_i h
        exact (examineIf_done _ _).trans (tryRequest_done h)
      · exact joinWait_done _ _

/-! ### The Notice Queue and the marks -/

theorem setQueue_done (q : List Notice) (s : State) : doneSource (setQueue q s) = doneSource s := by rw [setQueue_state]; rfl

theorem claim_done (k : Slot) (f : DayPart → DayPart) (s : State) : doneSource (claim k f s) = doneSource s := by
  rw [claim_state]
  rfl

theorem makeUnreached_done (src : MarkSource) (k : Slot) (s : State) : doneSource (makeUnreached src k s) = doneSource s :=
  (raise_done .unreached nofun _ _).trans (claim_done _ _ s)

theorem exhaust_done (n : Notice) (k : Slot) (s : State) : doneSource (exhaust n k s) = doneSource s := by
  unfold exhaust
  dsimp only
  split
  · exact (makeUnreached_done _ _ _).trans (setQueue_done _ s)
  · exact (raise_done .unreached nofun _ _).trans (setQueue_done _ s)

/-! ### The Notice Dispatcher -/

theorem sendPupilNotice_done (n : Notice) (k : Slot) (i : Nat) (s : State) :
    doneSource (sendPupilNotice n k i s) = doneSource s := by
  unfold sendPupilNotice
  split
  · exact exhaust_done n k s
  · split
    · exact exhaust_done n k s
    · rfl

theorem sendStep_done (n : Notice) (k : Slot) (i : Nat) (s : State) : doneSource (sendStep n k i s) = doneSource s := by
  unfold sendStep
  split
  · rfl
  · split <;> rfl

theorem sendBroadcast_done (n : Notice) (b : BroadcastState) (s : State) : doneSource (sendBroadcast n b s) = doneSource s := by
  unfold sendBroadcast
  split
  · exact sendStep_done _ _ _ _
  · split
    · rfl
    · exact sendStep_done _ _ _ _

theorem finishBroadcast_done (s : State) (n : Notice) : doneSource (finishBroadcast s n) = doneSource s := by
  unfold finishBroadcast
  split
  · rfl
  · split
    · rfl
    · exact (raise_done .broadcast nofun _ _).trans (setQueue_done _ s)

theorem finishBroadcasts_done (s : State) : doneSource (finishBroadcasts s) = doneSource s :=
  foldl_keeps finishBroadcast_done _ s

theorem chooseOnce_done {s t : State} (e : chooseOnce s = some t) : doneSource t = doneSource s := by
  unfold chooseOnce at e
  split at e
  · split at e
    · cases e
    · split at e <;> cases e
      · exact sendPupilNotice_done _ _ _ s
      · exact (finishBroadcasts_done _).trans (sendBroadcast_done _ _ s)
  · cases e

theorem chooseFuel_done (fuel : Nat) (s : State) : doneSource (chooseFuel fuel s) = doneSource s := by
  induction fuel generalizing s with
  | zero => rfl
  | succ fuel ih =>
    unfold chooseFuel
    split
    · rfl
    · rename_i e
      exact (ih _).trans (chooseOnce_done e)

theorem testDeadline_done (s : State) (n : Notice) : doneSource (testDeadline s n) = doneSource s := by
  unfold testDeadline
  split
  · rfl
  · split
    · split
      · rfl
      · exact exhaust_done _ _ s
    · split <;> rfl

theorem settle_done (s : State) : doneSource (settle s) = doneSource s :=
  (chooseFuel_done _ _).trans ((finishBroadcasts_done _).trans (foldl_keeps testDeadline_done _ s))

/-! ### The day -/

theorem closeDayNow_done (c : CloseCause) (s : State) : doneSource (closeDayNow c s) = doneSource s :=
  (raise_done .day nofun _ _).trans ((foldl_keeps (fun s k => makeUnreached_done _ k s) _ _).trans (setQueue_done _ _))

theorem applyRoll_done (e : BankEntry) (s : State) : doneSource (applyRoll e s) = doneSource s := by
  unfold applyRoll
  split
  · rfl
  · rfl
  · rfl
  · rfl
  · unfold takeHold
    dsimp only
    split <;> rfl
  · exact closeDayNow_done _ s

theorem takeEntry_done (i : Nat) (e : PlanEntry) (s : State) : doneSource (takeEntry i e s) = doneSource s := by
  unfold takeEntry
  refine (applyRoll_done _ _).trans ?_
  split
  · rfl
  · split
    · rfl
    · exact decideRequest_done _ _

theorem evaluatePlan_done (s : State) : doneSource (evaluatePlan s) = doneSource s := by
  refine foldl_keeps (fun t i => ?_) _ s
  unfold takeIf
  split
  · rfl
  · split
    · exact takeEntry_done _ _ t
    · rfl

theorem autoOpen_done (s : State) : doneSource (autoOpen s) = doneSource s := by
  unfold autoOpen
  split
  · rfl
  · split <;> rfl

end Sys2Proof.Machine
end

