-- ==== Sys2Proof/Proofs/HeldPart.lean ====
section
/-! SUPPORT. The part that is held: nothing but the clock, the starts and the loss of the backup domain acts (R206). -/

namespace Sys2Proof.Machine

theorem holdPart_held {s : State} (h : s.power.held = true) : holdPart s = s := by
  have same : ({ s.power with held := true } : Power) = s.power := by rw [← h]
  unfold holdPart
  rw [same]

theorem exec_held {s : State} (h : s.power.held = true) (c : Instr) (clock : c ≠ .secondAdvance) (cold : ∀ p, c ≠ .coldStart p)
    (warm : ∀ p, c ≠ .warmStart p) (lost : c ≠ .backupDomainLost) : exec c s = .next s := by
  cases hc : requestEffect c with
  | some f => exact (exec_of_request hc s).trans (event_held h _)
  | none =>
    cases c
    all_goals try exact absurd hc (Option.some_ne_none _)
    case secondAdvance => exact absurd rfl clock
    case coldStart p => exact absurd rfl (cold p)
    case warmStart p => exact absurd rfl (warm p)
    case backupDomainLost => exact absurd rfl lost
    case holdBegins => exact congrArg Host.Outcome.next (holdPart_held h)
    case openingSweepVisit => unfold exec execOpeningSweepVisit; exact event_held h _
    case entryReached => unfold exec execEntryReached; exact event_held h _
    case sweepVisit => unfold exec execSweepVisit; exact event_held h _
    all_goals exact event_held h _

/-! ### The starts and the loss of the backup domain -/

section Starts

variable {s : State} (pins : Pins)

theorem exec_coldStart_idle (h : s.power.held = false ∨ s.power.retention = true) : exec (.coldStart pins) s = .next s := by
  refine congrArg Host.Outcome.next (if_neg ?_)
  rcases h with h | h <;> simp [h]

theorem exec_coldStart (held : s.power.held = true) (mark : s.power.retention = false) :
    exec (.coldStart pins) s = .next (coldStart pins s) :=
  congrArg Host.Outcome.next (if_pos (by simp [held, mark]))

theorem exec_warmStart_idle (h : s.power.held = false ∨ s.power.retention = false) : exec (.warmStart pins) s = .next s := by
  refine congrArg Host.Outcome.next (if_neg ?_)
  rcases h with h | h <;> simp [h]

theorem exec_warmStart (held : s.power.held = true) (mark : s.power.retention = true) :
    exec (.warmStart pins) s = .next (warmStart pins s) :=
  congrArg Host.Outcome.next (if_pos (by simp [held, mark]))

theorem exec_backupDomainLost_idle (h : s.power.held = false) : exec .backupDomainLost s = .next s :=
  congrArg Host.Outcome.next (if_neg (by simp [h]))

theorem exec_backupDomainLost (h : s.power.held = true) : exec .backupDomainLost s = .next (loseBackup s) :=
  congrArg Host.Outcome.next (if_pos h)

theorem loseBackup_power (h : s.power.held = true) : (loseBackup s).power = { s.power with retention := false } := by
  show (⟨true, false, s.power.lastStart⟩ : Power) = ⟨s.power.held, false, s.power.lastStart⟩
  rw [h]

end Starts

end Sys2Proof.Machine
end

