-- ==== Sys2Proof/Proofs/WarmOutcomes.lean ====
section
/-! SUPPORT. The bells that waited or played at a warm start: DROPPED or CUT_SHORT, with BELL once each (R68). -/

namespace Sys2Proof.Machine

/-- The outcome of a plan entry's bell after a warm start. -/
def lostOutcome : ChimeOutcome → ChimeOutcome
  | .waiting => .dropped
  | .playing => .cutShort
  | o => o

/-- A plan entry after a warm start. -/
def PlanEntry.lost (e : PlanEntry) : PlanEntry := { e with outcome := lostOutcome e.outcome }

/-- A warm start ends the entry's bell. -/
def PlanEntry.isLost (e : PlanEntry) : Bool := e.outcome = .waiting ∨ e.outcome = .playing

theorem warmOutcome_eq (o : ChimeOutcome) :
    warmOutcome o = if o = .waiting ∨ o = .playing then some (lostOutcome o) else none := by cases o <;> rfl

theorem lostOutcome_other {o : ChimeOutcome} (h : ¬(o = .waiting ∨ o = .playing)) : lostOutcome o = o := by
  cases o
  case waiting => exact absurd (.inl rfl) h
  case playing => exact absurd (.inr rfl) h
  all_goals rfl

theorem modify_congr {α : Type} {f g : α → α} {i : Nat} {l : List α} (h : ∀ a, l[i]? = some a → f a = g a) :
    l.modify i f = l.modify i g := by
  refine List.ext_getElem? fun j => ?_
  rw [List.getElem?_modify, List.getElem?_modify]
  by_cases e : i = j
  · subst e
    cases hl : l[i]? with
    | none => rfl
    | some a => simp [h a hl]
  · simp [e]

theorem modify_of_fixed {α : Type} {f : α → α} {i : Nat} {l : List α} (h : ∀ a, l[i]? = some a → f a = a) : l.modify i f = l := by
  rw [modify_congr (g := id) h]
  exact List.modify_id i l

/-- The entry at an index ends its bell at a warm start. -/
def endsBell (i : Nat) (s : State) : Bool := (s.plan.today.entries[i]?).any PlanEntry.isLost

/-- One entry at a warm start: it is as a warm start leaves it, with BELL where its bell ends. -/
theorem warmEntry_eq (s : State) (i : Nat) :
    warmEntry s i =
      if endsBell i s then raise .bell (some (.entry i)) (modifyEntry i PlanEntry.lost s) else modifyEntry i PlanEntry.lost s := by
  have none_ (h : ∀ e, s.plan.today.entries[i]? = some e → e.lost = e) : modifyEntry i PlanEntry.lost s = s := by
    unfold modifyEntry
    rw [modify_of_fixed h]
  cases he : s.plan.today.entries[i]? with
  | none =>
    unfold warmEntry endsBell
    rw [he]
    exact (none_ (by simp [he])).symm
  | some e =>
    have ends : endsBell i s = e.isLost := by unfold endsBell; rw [he]; rfl
    have here : warmEntry s i = match warmOutcome e.outcome with
        | none => s
        | some o => raise .bell (some (.entry i)) (modifyEntry i (fun e => { e with outcome := o }) s) := by
      unfold warmEntry
      rw [he]
      rfl
    rw [ends, here, warmOutcome_eq]
    by_cases lost : e.outcome = .waiting ∨ e.outcome = .playing
    · have lost_ : e.isLost = true := decide_eq_true lost
      have same : modifyEntry i (fun x => { x with outcome := lostOutcome e.outcome }) s = modifyEntry i PlanEntry.lost s := by
        unfold modifyEntry
        rw [modify_congr (g := PlanEntry.lost) fun a ha => ?_]
        rw [he] at ha
        cases ha
        rfl
      rw [if_pos lost, if_pos lost_]
      dsimp only
      rw [same]
    · have kept : e.isLost = false := decide_eq_false lost
      rw [if_neg lost, kept]
      refine (none_ fun x hx => ?_).symm
      rw [he] at hx
      cases hx
      unfold PlanEntry.lost
      rw [lostOutcome_other lost]

/-! ### The entries in order -/

/-- The entries below an index as a warm start leaves them. -/
def lostUpTo (n : Nat) (l : List PlanEntry) : List PlanEntry := l.mapIdx fun i e => if i < n then e.lost else e

theorem getElem?_lostUpTo (n : Nat) (l : List PlanEntry) : (lostUpTo n l)[n]? = l[n]? := by
  unfold lostUpTo
  rw [List.getElem?_mapIdx]
  simp

theorem lostUpTo_zero (l : List PlanEntry) : lostUpTo 0 l = l := by
  refine List.ext_getElem? fun j => ?_
  unfold lostUpTo
  rw [List.getElem?_mapIdx]
  exact Option.map_id'

theorem lostUpTo_succ (n : Nat) (l : List PlanEntry) : (lostUpTo n l).modify n PlanEntry.lost = lostUpTo (n + 1) l := by
  refine List.ext_getElem? fun j => ?_
  unfold lostUpTo
  rw [List.getElem?_modify, List.getElem?_mapIdx, List.getElem?_mapIdx]
  cases l[j]? with
  | none => rfl
  | some e =>
    simp only [Option.map_some, Option.map_eq_map]
    rcases Nat.lt_trichotomy j n with h | h | h
    · rw [if_neg (by omega), if_pos h, if_pos (by omega)]
    · subst h
      simp
    · rw [if_neg (by omega), if_neg (by omega), if_neg (by omega)]

theorem lostUpTo_length (l : List PlanEntry) : lostUpTo l.length l = l.map PlanEntry.lost := by
  refine List.ext_getElem? fun j => ?_
  unfold lostUpTo
  rw [List.getElem?_mapIdx, List.getElem?_map]
  cases hj : l[j]? with
  | none => rfl
  | some e => rw [Option.map_some, if_pos (List.getElem?_eq_some_iff.1 hj).1, Option.map_some]

/-- The entries below an index taken at a warm start. -/
def warmEntries (n : Nat) (s : State) : State := (List.range n).foldl warmEntry s

theorem warmEntries_succ (n : Nat) (s : State) : warmEntries (n + 1) s = warmEntry (warmEntries n s) n := by
  unfold warmEntries
  rw [List.range_succ, List.foldl_append]
  rfl

/-- The blocks that the entries below an index change. -/
theorem warmEntries_state (n : Nat) (s : State) :
    warmEntries n s =
      { s with
        plan := { s.plan with today := { s.plan.today with entries := lostUpTo n s.plan.today.entries } }
        attention := (warmEntries n s).attention } := by
  induction n with
  | zero => rw [lostUpTo_zero]; rfl
  | succ n ih =>
    have next : modifyEntry n PlanEntry.lost (warmEntries n s) =
        { s with
          plan := { s.plan with today := { s.plan.today with entries := lostUpTo (n + 1) s.plan.today.entries } }
          attention := (warmEntries n s).attention } := by
      rw [← lostUpTo_succ, ih]
      rfl
    rw [warmEntries_succ, warmEntry_eq, next]
    split <;> rfl

theorem endsBell_warmEntries (n : Nat) (s : State) : endsBell n (warmEntries n s) = endsBell n s := by
  unfold endsBell
  rw [warmEntries_state]
  dsimp only
  rw [getElem?_lostUpTo]

/-- The sources other than BELL are as they were. -/
theorem sourceAt_warmEntries_ne (n : Nat) (s : State) {j : Nat} (h : 4 ≠ j) : sourceAt j (warmEntries n s) = sourceAt j s := by
  refine foldl_keeps (g := fun s : State => sourceAt j s) (fun t i => ?_) _ s
  rw [warmEntry_eq]
  split
  · exact sourceAt_raise_ne _ (modifyEntry i PlanEntry.lost t) h
  · rfl

theorem warmEntries_attention_length (n : Nat) (s : State) : (warmEntries n s).attention.length = s.attention.length := by
  refine foldl_keeps (g := fun s : State => s.attention.length) (fun t i => ?_) _ s
  rw [warmEntry_eq]
  split
  · exact List.length_modify ..
  · rfl

/-- BELL is raised once for each bell that ends. -/
theorem bellCount_warmEntries {s : State} (sources : 4 < s.attention.length) (bound : (sourceAt 4 s).count ≤ 255) (n : Nat) :
    (sourceAt 4 (warmEntries n s)).count =
      min ((sourceAt 4 s).count + (s.plan.today.entries.take n).countP PlanEntry.isLost) 255 := by
  induction n with
  | zero => exact (Nat.min_eq_left bound).symm
  | succ n ih =>
    have one : (s.plan.today.entries.take (n + 1)).countP PlanEntry.isLost =
        (s.plan.today.entries.take n).countP PlanEntry.isLost + if endsBell n s then 1 else 0 := by
      rw [List.take_add_one, List.countP_append]
      unfold endsBell
      cases s.plan.today.entries[n]? with
      | none => rfl
      | some e => simp [List.countP_cons]
    rw [warmEntries_succ, warmEntry_eq, endsBell_warmEntries, one]
    split
    · have raised := sourceAt_raise_self (id := .bell) (some (.entry n)) (s := modifyEntry n PlanEntry.lost (warmEntries n s))
        (show 4 < (warmEntries n s).attention.length by rw [warmEntries_attention_length]; exact sources)
      show (sourceAt SourceId.bell.num _).count = _
      rw [raised]
      show min ((sourceAt 4 (warmEntries n s)).count + 1) 255 = _
      rw [ih]
      omega
    · exact ih

/-! ### All entries -/

theorem warmOutcomes_state (s : State) :
    warmOutcomes s =
      { s with
        plan := { s.plan with today := { s.plan.today with entries := s.plan.today.entries.map PlanEntry.lost } }
        attention := (warmOutcomes s).attention } := by
  have state := warmEntries_state s.plan.today.entries.length s
  rw [lostUpTo_length] at state
  exact state

theorem bellCount_warmOutcomes {s : State} (sources : 4 < s.attention.length) (bound : (sourceAt 4 s).count ≤ 255) :
    (sourceAt 4 (warmOutcomes s)).count =
      min ((sourceAt 4 s).count + s.plan.today.entries.countP PlanEntry.isLost) 255 := by
  have count := bellCount_warmEntries sources bound s.plan.today.entries.length
  rw [List.take_length] at count
  exact count

end Sys2Proof.Machine
end

