-- ==== Sys2Proof/Proofs/WindowGivenBack.lean ====
section
/-! SUPPORT. The Send Window emptied at a warm start: what each send gives back to the notice it was of (R176). -/

namespace Sys2Proof.Machine

variable {x : Send} {l : List Send} {n m : Notice}

/-! ### One send -/

theorem givenBack_none (h : ∀ x ∈ l, x.key.number ≠ n.number) : givenBack l n = some n := by
  have sends : l.filter (·.key.number = n.number) = [] := by simpa [List.filter_eq_nil_iff] using h
  unfold givenBack
  rw [sends]

theorem givenBack_other (h : x.key.number ≠ n.number) (l : List Send) : givenBack (x :: l) n = givenBack l n := by
  unfold givenBack
  rw [List.filter_cons_of_neg (by simpa using h)]

theorem givenBack_pupil {k : Slot} {i : Nat} (ha : n.addressee = .pupil k i) (h : x.key.number = n.number) (l : List Send) :
    givenBack (x :: l) n = if n.cancel then none else some { n with inWindow := false } := by
  unfold givenBack
  rw [List.filter_cons_of_pos (by simpa using h), ha]

theorem givenBack_broadcast {b : BroadcastState} (ha : n.addressee = .broadcast b) (h : x.key.number = n.number) (l : List Send) :
    givenBack (x :: l) n =
      some
        (if n.cancel = true ∨ b.expired = true then n
        else
          { n with
            addressee :=
              .broadcast
                { b with
                  returned :=
                    b.returned ++
                      (x :: l.filter (·.key.number = n.number)).map fun y => (y.key.slot, y.key.position) } }) := by
  unfold givenBack
  rw [List.filter_cons_of_pos (by simpa using h), ha]

theorem givenBack_number (h : givenBack l n = some m) : m.number = n.number := by
  unfold givenBack at h
  split at h
  · cases h; rfl
  · split at h
    · cases h
    · cases h; rfl
  · cases h
    split <;> rfl

/-- The sends of a window give back one after another. -/
theorem givenBack_cons (x : Send) (l : List Send) (n : Notice) : givenBack (x :: l) n = (givenBack [x] n).bind (givenBack l) := by
  by_cases h : x.key.number = n.number
  · cases ha : n.addressee with
    | pupil k i =>
      rw [givenBack_pupil ha h, givenBack_pupil ha h]
      by_cases cancelled : n.cancel
      · simp [cancelled]
      · rw [if_neg cancelled, Option.bind_some]
        by_cases more : ∀ y ∈ l, y.key.number ≠ n.number
        · exact (givenBack_none (n := { n with inWindow := false }) more).symm
        · have sent : l.filter (·.key.number = n.number) ≠ [] := by simpa [List.filter_eq_nil_iff] using more
          obtain ⟨y, rest, e⟩ := List.exists_cons_of_ne_nil sent
          unfold givenBack
          dsimp only
          rw [e, ha]
          exact (if_neg cancelled).symm
    | broadcast b =>
      rw [givenBack_broadcast ha h, givenBack_broadcast ha h, Option.bind_some]
      by_cases ended : n.cancel = true ∨ b.expired = true
      · rw [if_pos ended, if_pos ended]
        unfold givenBack
        split
        · rfl
        · rename_i e; rw [ha] at e; cases e
        · rename_i e; rw [ha] at e; cases e; rw [if_pos ended]
      · rw [if_neg ended, if_neg ended]
        unfold givenBack
        dsimp only
        cases l.filter (·.key.number = n.number) with
        | nil => rfl
        | cons y rest => simp [ended]
  · rw [givenBack_other h, givenBack_other h]
    exact rfl

/-! ### A send taken back -/

theorem unique_of_nodup {s : State} (numbers : (s.notices.queue.map (·.number)).Nodup) {k : Nat} (h : noticeAt k s = some n)
    (hm : m ∈ s.notices.queue) (e : m.number = k) : m = n :=
  List.inj_on_of_nodup_map numbers hm (List.mem_of_find?_eq_some h) (e.trans (noticeAt_number h).symm)

/-- A send taken back gives its notice what the window kept of it. -/
theorem returnSend_queue {s : State} (numbers : (s.notices.queue.map (·.number)).Nodup) (x : Send) :
    (returnSend x.key s).notices.queue = s.notices.queue.filterMap (givenBack [x]) := by
  have other {m : Notice} (h : m.number ≠ x.key.number) : givenBack [x] m = some m := givenBack_none (by simpa using h.symm)
  cases h : noticeAt x.key.number s with
  | none =>
    rw [returnSend_none h]
    refine (List.filterMap_some.symm.trans (List.filterMap_congr fun m hm => ?_))
    exact (other (noticeAt_eq_none_iff.1 h m hm)).symm
  | some n =>
    have number := noticeAt_number h
    cases ha : n.addressee with
    | pupil k i =>
      rw [returnSend_pupil h ha]
      split
      · rename_i cancelled
        rw [removeNotice_queue, filterMap_filter]
        refine List.filterMap_congr fun m hm => ?_
        by_cases e : m.number = x.key.number
        · rw [unique_of_nodup numbers h hm e, givenBack_pupil ha number.symm, if_pos cancelled]
          simp [number]
        · rw [other e]
          simp [e]
      · rename_i kept
        refine ((congrFun List.filterMap_eq_map' _).symm.trans (List.filterMap_congr fun m hm => ?_))
        by_cases e : m.number = x.key.number
        · rw [unique_of_nodup numbers h hm e, givenBack_pupil ha number.symm, if_neg kept]
          simp [number]
        · rw [other e]
          simp [e]
    | broadcast b =>
      rw [returnSend_broadcast h ha]
      split
      · rename_i ended
        refine (List.filterMap_some.symm.trans (List.filterMap_congr fun m hm => ?_))
        by_cases e : m.number = x.key.number
        · rw [unique_of_nodup numbers h hm e, givenBack_broadcast ha number.symm, if_pos (Bool.or_eq_true_iff.1 ended)]
        · exact (other e).symm
      · rename_i going
        refine ((congrFun List.filterMap_eq_map' _).symm.trans (List.filterMap_congr fun m hm => ?_))
        by_cases e : m.number = x.key.number
        · rw [unique_of_nodup numbers h hm e, givenBack_broadcast ha number.symm,
            if_neg fun y => going (Bool.or_eq_true_iff.2 y)]
          simp [ha]
        · rw [other e]
          simp [number, e]

/-! ### The window -/

/-- One send leaves the window and gives back. -/
def giveBack (s : State) (x : Send) : State := returnSend x.key (dropSend x.key s)

theorem giveBack_state (s : State) (x : Send) :
    giveBack s x =
      { s with
        notices :=
          { s.notices with
            queue := (giveBack s x).notices.queue, window := s.notices.window.filter (·.key ≠ x.key) }
        sweep := (giveBack s x).sweep } := returnSend_state x.key (dropSend x.key s)

theorem giveBack_queue {s : State} (numbers : (s.notices.queue.map (·.number)).Nodup) (x : Send) :
    (giveBack s x).notices.queue = s.notices.queue.filterMap (givenBack [x]) := returnSend_queue (s := dropSend x.key s) numbers x

theorem giveBack_window (s : State) (x : Send) :
    (giveBack s x).notices.window = s.notices.window.filter (·.key ≠ x.key) := by rw [giveBack_state]

theorem numbers_sublist (l : List Send) (q : List Notice) :
    ((q.filterMap (givenBack l)).map (·.number)).Sublist (q.map (·.number)) := by
  induction q with
  | nil => exact List.Sublist.slnil
  | cons n q ih =>
    rw [List.filterMap_cons]
    split
    · exact ih.cons _
    · rename_i m e
      rw [List.map_cons, List.map_cons, givenBack_number e]
      exact ih.cons_cons _

theorem giveAll_queue (l : List Send) {s : State} (numbers : (s.notices.queue.map (·.number)).Nodup) :
    (l.foldl giveBack s).notices.queue = s.notices.queue.filterMap (givenBack l) := by
  induction l generalizing s with
  | nil =>
    refine List.filterMap_some.symm.trans (List.filterMap_congr fun m _ => ?_)
    exact (givenBack_none fun _ hx => absurd hx List.not_mem_nil).symm
  | cons x l ih =>
    have next := giveBack_queue numbers x
    have rest := ih (s := giveBack s x) (next ▸ (numbers_sublist _ _).nodup numbers)
    rw [List.foldl_cons, rest, next, List.filterMap_filterMap]
    exact List.filterMap_congr fun n _ => (givenBack_cons x l n).symm

theorem giveAll_window (l : List Send) {s : State} {y : Send} (h : y ∈ (l.foldl giveBack s).notices.window) :
    y ∈ s.notices.window ∧ ∀ x ∈ l, y.key ≠ x.key := by
  induction l generalizing s with
  | nil => exact ⟨h, fun _ hx => absurd hx List.not_mem_nil⟩
  | cons x l ih =>
    obtain ⟨inWindow, others⟩ := ih h
    rw [giveBack_window, List.mem_filter] at inWindow
    exact ⟨inWindow.1, List.forall_mem_cons.2 ⟨by simpa using inWindow.2, others⟩⟩

theorem giveAll_state (l : List Send) (s : State) :
    l.foldl giveBack s =
      { s with
        notices :=
          { s.notices with
            queue := (l.foldl giveBack s).notices.queue, window := (l.foldl giveBack s).notices.window }
        sweep := (l.foldl giveBack s).sweep } := by
  induction l generalizing s with
  | nil => rfl
  | cons x l ih =>
    rw [List.foldl_cons, ih, giveBack_state]

theorem emptyWindow_eq (s : State) : emptyWindow s = s.notices.window.foldl giveBack s := rfl

theorem emptyWindow_window (s : State) : (emptyWindow s).notices.window = [] :=
  List.eq_nil_iff_forall_not_mem.2 fun y hy => by
    obtain ⟨inWindow, others⟩ := giveAll_window _ hy
    exact others y inWindow rfl

theorem emptyWindow_queue {s : State} (numbers : (s.notices.queue.map (·.number)).Nodup) :
    (emptyWindow s).notices.queue = s.notices.queue.filterMap (givenBack s.notices.window) := giveAll_queue _ numbers

/-- The blocks that the emptied window changes. -/
theorem emptyWindow_state (s : State) :
    emptyWindow s =
      { s with
        notices := { s.notices with queue := (emptyWindow s).notices.queue, window := [] }
        sweep := { s.sweep with state := (emptyWindow s).sweep.state } } := by
  have rest : noticeRest (emptyWindow s) = noticeRest s :=
    foldl_noticeRest (f := giveBack) (fun t x => returnSend_noticeRest x.key (dropSend x.key t)) _ s
  simp only [noticeRest, Prod.mk.injEq] at rest
  have sweep : (emptyWindow s).sweep = { s.sweep with state := (emptyWindow s).sweep.state } := by
    obtain ⟨⟨_, _, _, _, list, cursor, _⟩, _⟩ := rest
    show (emptyWindow s).sweep = ⟨s.sweep.list, s.sweep.cursor, (emptyWindow s).sweep.state⟩
    rw [← list, ← cursor]
  have state := giveAll_state s.notices.window s
  rw [← emptyWindow_eq, emptyWindow_window, sweep] at state
  exact state

end Sys2Proof.Machine
end

