-- ==== Sys2Proof/Proofs/WarmStart.lean ====
section
/-! SUPPORT. The warm start: what it leaves before the Day Controller acts, what the Day Controller does, and what the rest of it keeps
(R35, R62, R148, R202, R207). -/

namespace Sys2Proof.Machine

/-! ### The store operation abandoned -/

section Abandon

variable {s : State} {o : StoreOperation} {a : Area} {rest : List Area}

theorem abandonStore_none (h : s.store.operation = none) : abandonStore s = s := by
  unfold abandonStore
  rw [h]

/-- The record of an operation abandoned at an area. -/
def abandonedRecord (o : StoreOperation) (a : Area) (rest : List Area) (now : SchoolTime) : OperationRecord :=
  ⟨o.kind, o.ended ++ (a, .abandoned) :: rest.map (fun b => (b, .notReached)), o.start, now⟩

theorem abandonStore_at (h : s.store.operation = some o) (hr : o.rest = a :: rest) :
    abandonStore s =
      raise .done (some (.area a))
        { s with
          store :=
            { s.store with
              operation := none, lastOperation := some (abandonedRecord o a rest s.time.school) } } := by
  unfold abandonStore
  rw [h]
  dsimp only
  rw [hr]
  rfl

/-- The blocks that an abandoned operation changes. -/
theorem abandonStore_state (s : State) :
    abandonStore s =
      { s with
        store := { s.store with operation := none, lastOperation := (abandonStore s).store.lastOperation }
        attention := (abandonStore s).attention } := by
  cases h : s.store.operation with
  | none =>
    rw [abandonStore_none h, ← h]
  | some o =>
    cases hr : o.rest with
    | nil =>
      have here : abandonStore s = { s with store := { s.store with operation := none } } := by
        unfold abandonStore
        rw [h]
        dsimp only
        rw [hr]
      rw [here]
    | cons a rest =>
      rw [abandonStore_at h hr]
      rfl

theorem sourceAt_abandonStore_ne (s : State) {j : Nat} (h : 12 ≠ j) : sourceAt j (abandonStore s) = sourceAt j s := by
  unfold abandonStore
  split
  · rfl
  · split
    · rfl
    · exact sourceAt_raise_ne _ _ h

theorem abandonStore_attention_length (s : State) : (abandonStore s).attention.length = s.attention.length := by
  unfold abandonStore
  split
  · rfl
  · split
    · rfl
    · exact List.length_modify ..

end Abandon

/-! ### Before the Day Controller acts -/

/-- What a warm start leaves before the Day Controller acts. -/
def warmed (pins : Pins) (s : State) : State := warmNotices (warmOutcomes (abandonStore (warmBlocks pins s)))

theorem warmStart_eq (pins : Pins) (s : State) : warmStart pins s = settle (autoOpen (warmDay (warmed pins s))) := rfl

theorem warmed_state (pins : Pins) (s : State) :
    warmed pins s =
      { warmBlocks pins s with
        store := { s.store with operation := none, lastOperation := (abandonStore (warmBlocks pins s)).store.lastOperation }
        attention := (warmOutcomes (abandonStore (warmBlocks pins s))).attention
        plan := { s.plan with today := { s.plan.today with entries := s.plan.today.entries.map PlanEntry.lost } }
        notices :=
          { s.notices with
            queue := (warmed pins s).notices.queue
            window := []
            busyEnd := none
            quietEnd := s.notices.quietEnd.filter (s.time.school < ·) }
        sweep := { s.sweep with state := (warmed pins s).sweep.state } } := by
  have window := emptyWindow_state (warmOutcomes (abandonStore (warmBlocks pins s)))
  have outcomes := warmOutcomes_state (abandonStore (warmBlocks pins s))
  have store := abandonStore_state (warmBlocks pins s)
  have notices : warmed pins s =
      setNotices
        (fun n =>
          { n with
            busyEnd := none
            quietEnd := n.quietEnd.filter ((warmOutcomes (abandonStore (warmBlocks pins s))).time.school < ·) })
        (emptyWindow (warmOutcomes (abandonStore (warmBlocks pins s)))) := rfl
  rw [notices, window, outcomes, store]
  rfl

section Warmed

variable (pins : Pins) (s : State)

theorem warmed_day : (warmed pins s).day = s.day := by rw [warmed_state]; rfl

theorem warmed_time : (warmed pins s).time = { s.time with minutePulseLatch := pins.minutePulse } := by rw [warmed_state]; rfl

theorem warmed_roll : (warmed pins s).roll = s.roll := by rw [warmed_state]; rfl

theorem warmed_sweepList : (warmed pins s).sweep.list = s.sweep.list := by rw [warmed_state]

theorem warmed_plan :
    (warmed pins s).plan =
      { s.plan with today := { s.plan.today with entries := s.plan.today.entries.map PlanEntry.lost } } := by rw [warmed_state]

theorem warmed_chime :
    (warmed pins s).chime =
      { s.chime with channels := List.replicate 4 .idle, waits := [], lastOffice := none, lastButton := none } := by
  rw [warmed_state]
  rfl

theorem warmed_zone :
    (warmed pins s).zone = ⟨s.zone.mutes, ⟨none, none⟩, ⟨pins.qa, pins.qb⟩, pins.bell, s.zone.press⟩ := by
  rw [warmed_state]
  rfl

theorem warmed_window : (warmed pins s).notices.window = [] := by rw [warmed_state]

theorem warmed_quietEnd : (warmed pins s).notices.quietEnd = s.notices.quietEnd.filter (s.time.school < ·) := by rw [warmed_state]

theorem warmed_deadline : (warmed pins s).notices.deadline = s.notices.deadline := by rw [warmed_state]

theorem warmed_table :
    (warmed pins s).line.table =
      s.line.table.map
        (·.map fun x =>
          { x with
            state := if x.state = .silent then .active else x.state, missed := 0, lastHeard := s.time.running, hold := [] }) := by
  rw [warmed_state]
  rfl

end Warmed

theorem warmed_queue (pins : Pins) {s : State} (numbers : (s.notices.queue.map (·.number)).Nodup) :
    (warmed pins s).notices.queue = s.notices.queue.filterMap (givenBack s.notices.window) := by
  have kept : (warmOutcomes (abandonStore (warmBlocks pins s))).notices = s.notices := by
    rw [warmOutcomes_state, abandonStore_state]
    rfl
  have queue := emptyWindow_queue (s := warmOutcomes (abandonStore (warmBlocks pins s))) (by rw [kept]; exact numbers)
  rw [kept] at queue
  exact queue

/-- BELL is raised once for each bell that ends. -/
theorem warmed_bell (pins : Pins) {s : State} (h : AttentionOk s) :
    (sourceAt 4 (warmed pins s)).count =
      min
        ((sourceAt 4 s).count + s.plan.today.entries.countP fun e => e.outcome = .waiting ∨ e.outcome = .playing) 255 := by
  obtain ⟨length, sources⟩ := h
  have abandoned : sourceAt 4 (abandonStore (warmBlocks pins s)) = sourceAt 4 s := sourceAt_abandonStore_ne _ (by decide)
  have plan : (abandonStore (warmBlocks pins s)).plan = s.plan := by rw [abandonStore_state]; rfl
  have room : 4 < (abandonStore (warmBlocks pins s)).attention.length := by
    rw [abandonStore_attention_length]
    show 4 < s.attention.length
    omega
  have bound : (sourceAt 4 s).count ≤ 255 := by
    unfold sourceAt
    rw [List.getD_eq_getElem _ _ (by omega)]
    exact (sources _ (List.getElem_mem _)).1
  have count := bellCount_warmOutcomes room (by rw [abandoned]; exact bound)
  rw [abandoned, plan] at count
  have same : sourceAt 4 (warmed pins s) = sourceAt 4 (warmOutcomes (abandonStore (warmBlocks pins s))) := by
    rw [warmed_state]
    rfl
  rw [same]
  exact count

theorem warmed_done (pins : Pins) (s : State) :
    doneSource (warmed pins s) = doneSource (abandonStore (warmBlocks pins s)) := by
  have same : doneSource (warmed pins s) = doneSource (warmOutcomes (abandonStore (warmBlocks pins s))) := by
    rw [warmed_state]
    rfl
  exact same.trans (sourceAt_warmEntries_ne _ _ (by decide))

/-! ### The close of the day -/

/-- The day and the sweep as a close leaves them. -/
theorem closeDayNow_day (c : CloseCause) (s : State) :
    (closeDayNow c s).day = (abandonSweeps { s with day := { s.day with state := .closed, closeCause := some c } }).day := by
  have pupils (l : List Slot) (t : State) : (l.foldl (fun s k => makeUnreached .notice k s) t).day = t.day :=
    foldl_keeps (g := fun s : State => s.day) (fun s k => (raise_day _ _ _).trans (claim_day k _ s)) l t
  unfold closeDayNow
  rw [raise_day, pupils, withdrawWhere_state]

theorem closeDayNow_sweep (c : CloseCause) (s : State) : (closeDayNow c s).sweep = ⟨[], none, .idle⟩ := by
  have idle : Heard (abandonSweeps { s with day := { s.day with state := .closed, closeCause := some c } }) (closeDayNow c s) :=
    (Heard.foldl (fun t k => makeUnreached_heard .notice k (Heard.refl t)) _ (withdrawWhere_heard _ (Heard.refl _))).set rfl
  exact idle.sweep_eq nofun

/-! ### The Day Controller -/

section Day

variable {w : State}

theorem warmDay_closed (h : w.day.state = .closed) : warmDay w = w := by
  unfold warmDay
  rw [h]

theorem warmDay_opening (h : w.day.state = .opening) (date : w.day.date = some w.time.date) :
    warmDay w = { w with day := { w.day with cursor := 0 } } := by
  unfold warmDay
  rw [h]
  exact if_pos date

theorem warmDay_open (h : w.day.state = .open_) (date : w.day.date = some w.time.date) :
    warmDay w = evaluatePlan (restartSweep w) := by
  unfold warmDay
  rw [h]
  exact if_pos date

theorem warmDay_otherDate (h : w.day.state ≠ .closed) (date : w.day.date ≠ some w.time.date) :
    warmDay w = closeDayNow .dateChange w := by
  unfold warmDay
  split
  · rename_i e; exact absurd e h
  · exact if_neg date
  · exact if_neg date

theorem restartSweep_eq (w : State) :
    restartSweep w =
      { w with sweep := if w.sweep.list = [] then w.sweep else { w.sweep with cursor := some 0, state := .running } } := by
  unfold restartSweep
  by_cases e : w.sweep.list = []
  · rw [if_pos (List.isEmpty_iff.2 e), if_pos e]
  · rw [if_neg (fun y => e (List.isEmpty_iff.1 y)), if_neg e]
    rfl

end Day

/-! ### What the Day Controller, automatic opening and the Dispatcher keep -/

/-- What a warm start leaves alone once the dropped work is cleared away. -/
def startRest (s : State) :=
  ((s.time, s.settings, s.limits, s.plan.banks, s.chime.patterns), (s.zone.mutes, s.zone.quietLatch, s.zone.buttonLatch),
    (s.office, s.line.job, s.line.phase, s.line.enumerationPending),
    (s.gateway.link, s.gateway.timeouts, s.gateway.inbox, s.gateway.frame),
    (s.notices.globalHold, s.notices.busyEnd, s.notices.texts), s.store, s.power, s.pins)

theorem startRest_of_noticeRest {s t : State} (h : noticeRest t = noticeRest s) : startRest t = startRest s := by
  simp only [noticeRest, Prod.mk.injEq] at h
  simp only [startRest, h]

theorem startRest_of_planRest {s t : State} (h : planRest t = planRest s) : startRest t = startRest s := by
  simp only [planRest, Prod.mk.injEq] at h
  simp only [startRest, h]

theorem autoOpen_startRest (s : State) : startRest (autoOpen s) = startRest s := by
  unfold autoOpen
  split
  · rfl
  · split <;> rfl

theorem warmDay_startRest (s : State) : startRest (warmDay s) = startRest s := by
  unfold warmDay
  split
  · rfl
  · split
    · rfl
    · exact startRest_of_planRest (closeDayNow_planRest _ s)
  · split
    · rw [restartSweep_eq]
      exact startRest_of_planRest (takeEntries_planRest _ _)
    · exact startRest_of_planRest (closeDayNow_planRest _ s)

theorem warmDay_done (s : State) : doneSource (warmDay s) = doneSource s := by
  unfold warmDay
  split
  · rfl
  · split
    · rfl
    · exact closeDayNow_done _ s
  · split
    · rw [restartSweep_eq]
      exact evaluatePlan_done _
    · exact closeDayNow_done _ s

theorem warmStart_startRest (pins : Pins) (s : State) : startRest (warmStart pins s) = startRest (warmed pins s) :=
  (startRest_of_noticeRest (settle_noticeRest _)).trans ((autoOpen_startRest _).trans (warmDay_startRest _))

/-- What of a warm start's state no later part of it changes. -/
theorem warmStart_kept (pins : Pins) (s : State) :
    startRest (warmStart pins s) =
      (({ s.time with minutePulseLatch := pins.minutePulse }, s.settings, s.limits, s.plan.banks, s.chime.patterns),
        (s.zone.mutes, ⟨pins.qa, pins.qb⟩, pins.bell), (.start, .idle, .free, false), (.up, 0, s.gateway.inbox, none),
        (s.notices.globalHold, none, s.notices.texts),
        { s.store with operation := none, lastOperation := (abandonStore (warmBlocks pins s)).store.lastOperation },
        ⟨false, s.power.retention, .warm⟩, pins) := by
  rw [warmStart_startRest, warmed_state]
  rfl

theorem warmStart_done (pins : Pins) (s : State) : doneSource (warmStart pins s) = doneSource (abandonStore (warmBlocks pins s)) :=
  (settle_done _).trans ((autoOpen_done _).trans ((warmDay_done _).trans (warmed_done pins s)))

theorem autoOpen_chime (s : State) : (autoOpen s).chime = s.chime := by
  unfold autoOpen
  split
  · rfl
  · split <;> rfl

/-- On a CLOSED day a warm start leaves the Chime Unit idle. -/
theorem warmStart_chime (pins : Pins) {s : State} (h : s.day.state = .closed) :
    (warmStart pins s).chime = (warmed pins s).chime := by
  have rest := settle_noticeRest (autoOpen (warmDay (warmed pins s)))
  simp only [noticeRest, Prod.mk.injEq] at rest
  obtain ⟨⟨_, _, _, _, _, _, chime, _⟩, _⟩ := rest
  rw [warmStart_eq, chime, autoOpen_chime, warmDay_closed (by rw [warmed_day]; exact h)]

/-! ### The last operation record -/

theorem warmStart_record {pins : Pins} {s : State} {o : StoreOperation} {a : Area} {rest : List Area}
    (h : s.store.operation = some o) (hr : o.rest = a :: rest) :
    (abandonStore (warmBlocks pins s)).store.lastOperation = some (abandonedRecord o a rest s.time.school) ∧
      (s.attention.length = 14 → doneSource (warmStart pins s) = (doneSource s).raised (some (.area a))) := by
  have here := abandonStore_at (s := warmBlocks pins s) h hr
  refine ⟨by rw [here]; rfl, fun length => ?_⟩
  rw [warmStart_done, here]
  exact sourceAt_raise_self (id := .done) (some (.area a)) (show 12 < s.attention.length by omega)

end Sys2Proof.Machine
end

