-- ==== Sys2Proof/Proofs/ColdStart.lean ====
section
/-! SUPPORT. The cold start: the areas taken while every block is idle, and the sources it raises (R194, R200, R207). -/

namespace Sys2Proof.Machine

/-! ### A Chime Unit at rest -/

/-- Every channel is IDLE and no request waits. -/
def ChimeAtRest (s : State) : Prop := s.chime.channels = List.replicate 4 .idle ∧ s.chime.waits = []

section AtRest

variable {s : State}

theorem ChimeAtRest.channel (h : ChimeAtRest s) (n : Nat) : channelAt n s = .idle := by
  unfold channelAt
  rw [h.1, List.getD_eq_getElem?_getD, List.getElem?_replicate]
  split <;> rfl

theorem ChimeAtRest.setWaits (h : ChimeAtRest s) : setWaits [] s = s := by
  unfold Machine.setWaits
  rw [← h.2]

theorem ChimeAtRest.examineIf (h : ChimeAtRest s) (b : Bool) : examineIf b s = s := by
  unfold Machine.examineIf examine examineFuel
  rw [h.2]
  split
  · exact h.setWaits
  · rfl

/-- A pass over the channels in which none of them acts. -/
theorem foldPair_still {f : Nat → State → State × Bool} (hf : ∀ n, f n s = (s, false)) (l : List Nat) :
    l.foldl (fun r n => let x := f n r.1; (x.1, x.2 || r.2)) (s, false) = (s, false) := by
  induction l with
  | nil => rfl
  | cons n l ih =>
    rw [List.foldl_cons]
    dsimp only
    rw [hf n]
    exact ih

theorem ChimeAtRest.releaseSilent (h : ChimeAtRest s) (n : Nat) : releaseSilent n s = (s, false) := by
  unfold Machine.releaseSilent
  rw [h.channel n]
  exact if_neg fun y => nomatch y.1

theorem ChimeAtRest.releaseChannel (h : ChimeAtRest s) (n : Nat) : releaseChannel n s = (s, false) := by
  unfold Machine.releaseChannel
  rw [h.channel n]
  exact if_neg fun y => nomatch y.1

theorem ChimeAtRest.silenceChanged (h : ChimeAtRest s) (old : State) : silenceChanged old s = s := by
  have still : releaseAllSilent s = (s, false) := foldPair_still h.releaseSilent channelNumbers
  unfold Machine.silenceChanged
  rw [still]
  exact h.examineIf _

theorem ChimeAtRest.releaseButton (h : ChimeAtRest s) : releaseButton s = s := by
  have still := foldPair_still h.releaseChannel channelNumbers
  unfold Machine.releaseButton
  rw [h.2]
  show Machine.examineIf
    (channelNumbers.foldl (fun r n => let x := Machine.releaseChannel n r.1; (x.1, x.2 || r.2)) (Machine.setWaits [] s, false)).2
    (channelNumbers.foldl (fun r n => let x := Machine.releaseChannel n r.1; (x.1, x.2 || r.2))
      (Machine.setWaits [] s, false)).1 = s
  rw [h.setWaits, still]
  exact h.examineIf _

theorem install_settings_atRest {x : Settings} {c : AreaCopies} (hx : c.settings = some x) (h : ChimeAtRest s) :
    install .settings c s = { s with settings := x } := by
  have before : (if x.buttonMode = s.settings.buttonMode then s else Machine.releaseButton s) = s := by
    rw [h.releaseButton, ite_self]
  have set := install_settings s hx
  dsimp only at set
  rw [set, before]
  exact ChimeAtRest.silenceChanged (s := { s with settings := x }) h s

end AtRest

/-! ### ROSTER and TERMINALS while nothing is under way -/

theorem install_roster_empty {new : List (Slot × Enrolment)} {c : AreaCopies} {s : State} (h : c.roster = some new)
    (queue : s.notices.queue = []) (away : s.roll.away = []) (sweep : s.sweep.state ≠ .paused) :
    install .roster c s = { s with roll := ⟨freshRoster new, censusOf (freshRoster new), []⟩ } := by
  have still : (install .roster c s).sweep = s.sweep := (install_roster_heard h s).sweep_eq sweep
  have none_ : queueWithout (rosterGone new s) s = [] := by
    have withdrawn := queueWithout_withdrawn (rosterGone new s) s
    rw [queue] at withdrawn
    exact withdrawn
  rw [install_roster h, none_, still, away, List.map_nil, ← queue]
  rfl

theorem install_terminals_free {l : List StoredTerminal} {c : AreaCopies} {s : State} (h : c.terminals = some l)
    (job : s.line.job = .idle) (phase : s.line.phase = .free) :
    install .terminals c s =
      { s with line := { s.line with table := terminalTable l s.time.running, refused := none } } := by
  have free : (!lineFree s) = false := by rw [lineFree_iff.2 ⟨job, phase⟩]; rfl
  rw [install_terminals h, free, Bool.or_false, Bool.or_false, keepEntrance_other fun p y => by rw [job] at y; cases y]

/-! ### The areas taken -/

/-- What the areas 0 to 5 of a cold start leave, from the copies they are taken from. -/
def coldSettings (stored : AreaCopies) (s : State) : State :=
  { s with
    settings := stored.settings.getD .default
    limits := stored.limits.getD .default
    plan := { s.plan with banks := stored.plans.getD (List.replicate 4 .empty) }
    chime := { s.chime with patterns := stored.patterns.getD defaultPatterns }
    day := { s.day with calendar := stored.calendar.getD [] }
    notices := { s.notices with texts := stored.texts.getD (List.replicate 16 []) } }

/-- What the areas of a cold start leave. -/
def coldAreas (stored : AreaCopies) (s : State) : State :=
  { coldSettings stored s with
    roll := ⟨freshRoster (stored.roster.getD []), censusOf (freshRoster (stored.roster.getD [])), stored.away.getD []⟩
    line := { s.line with table := terminalTable (stored.terminals.getD []) s.time.running, refused := none } }

theorem foldl_allAreas {α : Type} (f : α → Area → α) (x : α) :
    allAreas.foldl f x =
      f (f (f (f (f (f (f (f (f x .settings) .limits) .plans) .patterns) .calendar) .texts) .roster) .away) .terminals := rfl

theorem install_coldSettings (stored : AreaCopies) {s : State} (rest : ChimeAtRest s) :
    install .texts (coldCopies stored) (install .calendar (coldCopies stored) (install .patterns (coldCopies stored)
      (install .plans (coldCopies stored) (install .limits (coldCopies stored) (install .settings (coldCopies stored) s))))) =
      coldSettings stored s := by
  rw [install_settings_atRest (c := coldCopies stored) rfl rest, install_limits _ rfl, install_plans _ rfl,
    install_patterns _ rfl, install_calendar _ rfl, install_texts _ rfl]
  rfl

/-- The areas taken while nothing is under way. -/
theorem takeAreas_eq (stored : AreaCopies) {s : State} (rest : ChimeAtRest s) (queue : s.notices.queue = [])
    (away : s.roll.away = []) (sweep : s.sweep.state ≠ .paused) (job : s.line.job = .idle) (phase : s.line.phase = .free) :
    takeAreas (coldCopies stored) s = coldAreas stored s := by
  have roster := install_roster_empty (c := coldCopies stored) (s := coldSettings stored s) rfl queue away sweep
  unfold takeAreas
  rw [foldl_allAreas, install_coldSettings stored rest, roster, install_away _ rfl]
  exact install_terminals_free (c := coldCopies stored) rfl job phase

theorem takeAreas_cold (stored : AreaCopies) (store : SettingsStore) (pins : Pins) (pending : List Instr) :
    takeAreas (coldCopies stored) (coldBlocks store pins pending) = coldAreas stored (coldBlocks store pins pending) :=
  takeAreas_eq stored ⟨rfl, rfl⟩ rfl rfl nofun rfl rfl

/-! ### The sources -/

theorem takeStored_eq (s : State) (a : Area) :
    takeStored s a =
      if s.store.isGood a then s else raise .store (some (.area a)) s := rfl

theorem takeAllStored_state (l : List Area) (s : State) :
    l.foldl takeStored s = { s with attention := (l.foldl takeStored s).attention } := by
  induction l generalizing s with
  | nil => rfl
  | cons a l ih =>
    have first : takeStored s a = { s with attention := (takeStored s a).attention } := by
      rw [takeStored_eq]
      split <;> rfl
    rw [List.foldl_cons, ih, first]

theorem takeStored_attention_length (s : State) (a : Area) : (takeStored s a).attention.length = s.attention.length := by
  rw [takeStored_eq]
  split
  · rfl
  · exact List.length_modify ..

theorem takeAllStored_attention_length (l : List Area) (s : State) :
    (l.foldl takeStored s).attention.length = s.attention.length :=
  foldl_keeps (g := fun s : State => s.attention.length) takeStored_attention_length l s

theorem sourceAt_takeAllStored_ne (l : List Area) (s : State) {n : Nat} (h : 0 ≠ n) :
    sourceAt n (l.foldl takeStored s) = sourceAt n s := by
  refine foldl_keeps (g := fun s : State => sourceAt n s) (fun t a => ?_) l s
  rw [takeStored_eq]
  split
  · rfl
  · exact sourceAt_raise_ne _ t h

/-- A source raised for one area after another. -/
def raisedFor (l : List Area) (x : Source) : Source := l.foldl (fun x a => x.raised (some (.area a))) x

/-- STORE is raised for each bad copy. -/
theorem sourceAt_takeAllStored (l : List Area) {s : State} (h : 0 < s.attention.length) :
    sourceAt 0 (l.foldl takeStored s) = raisedFor (l.filter fun a => !s.store.isGood a) (sourceAt 0 s) := by
  induction l generalizing s with
  | nil => rfl
  | cons a l ih =>
    have store : (takeStored s a).store = s.store := by
      rw [takeStored_eq]
      split <;> rfl
    rw [List.foldl_cons, ih (by rw [takeStored_attention_length]; exact h), store, takeStored_eq]
    cases good : s.store.isGood a with
    | true => rw [List.filter_cons_of_neg (by simp [good])]; rfl
    | false =>
      rw [List.filter_cons_of_pos (by simp [good])]
      exact congrArg (raisedFor _) (sourceAt_raise_self (id := .store) (some (.area a)) h)

theorem raisedFor_clear {l : List Area} (h : l.length ≤ 255) :
    raisedFor l .clear = ⟨l ≠ [], l.length, l.getLast?.map .area⟩ := by
  induction l using List.reverseRecOn with
  | nil => rfl
  | append_singleton l a ih =>
    rw [List.length_append, List.length_singleton] at h
    have one : raisedFor (l ++ [a]) .clear = (raisedFor l .clear).raised (some (.area a)) := by
      unfold raisedFor
      rw [List.foldl_append]
      rfl
    rw [one, ih (by omega), List.getLast?_concat]
    unfold Source.raised
    simp
    omega

/-! ### The cold start -/

section Start

variable (pins : Pins) (s : State)

/-- The blocks of a cold start with the areas taken, before a source is raised. -/
def coldTaken (pins : Pins) (s : State) : State := coldAreas s.store.good (coldBlocks s.store pins s.pending)

theorem coldStart_eq : coldStart pins s = raise .clock none (allAreas.foldl takeStored (coldTaken pins s)) := by
  unfold coldStart
  rw [takeAreas_cold]
  rfl

theorem coldStart_state : coldStart pins s = { coldTaken pins s with attention := (coldStart pins s).attention } := by
  rw [coldStart_eq, takeAllStored_state]
  rfl

theorem coldTaken_source (n : Nat) : sourceAt n (coldTaken pins s) = .clear := by
  show (List.replicate 14 Source.clear).getD n .clear = .clear
  rw [List.getD_eq_getElem?_getD, List.getElem?_replicate]
  split <;> rfl

theorem coldStart_store :
    sourceAt 0 (coldStart pins s) =
      ⟨(allAreas.filter fun a => !s.store.isGood a) ≠ [], (allAreas.filter fun a => !s.store.isGood a).length,
        (allAreas.filter fun a => !s.store.isGood a).getLast?.map .area⟩ := by
  have few : (allAreas.filter fun a => !s.store.isGood a).length ≤ 255 :=
    (List.length_filter_le _ _).trans (by decide)
  have raised := sourceAt_takeAllStored allAreas (s := coldTaken pins s) (show 0 < (List.replicate 14 Source.clear).length by decide)
  rw [coldTaken_source] at raised
  rw [coldStart_eq, sourceAt_raise_ne _ _ (by decide), raised]
  exact raisedFor_clear few

theorem coldStart_clock : sourceAt 1 (coldStart pins s) = ⟨true, 1, none⟩ := by
  have room : SourceId.clock.num < (allAreas.foldl takeStored (coldTaken pins s)).attention.length := by
    rw [takeAllStored_attention_length]
    show 1 < (List.replicate 14 Source.clear).length
    decide
  rw [coldStart_eq]
  show sourceAt SourceId.clock.num _ = _
  rw [sourceAt_raise_self _ room]
  show (sourceAt 1 _).raised none = _
  rw [sourceAt_takeAllStored_ne _ _ (by decide), coldTaken_source]
  rfl

theorem coldStart_others {n : Nat} (h : 2 ≤ n) : sourceAt n (coldStart pins s) = .clear := by
  have other : SourceId.clock.num ≠ n := by
    show 1 ≠ n
    omega
  rw [coldStart_eq, sourceAt_raise_ne _ _ other, sourceAt_takeAllStored_ne _ _ (by omega), coldTaken_source]

/-- CLOCK is fixed ON at level 8 (R194). -/
theorem effectiveLevel_clock (t : State) : effectiveLevel 1 t = 8 := rfl

theorem attnActive_of_pending {t : State} (running : t.power.held = false) {n : Nat} (hn : n < 14) (h : sourcePending n t = true) :
    attnActive t = true := by
  unfold attnActive
  rw [running]
  exact List.any_eq_true.2 ⟨n, List.mem_range.2 hn, h⟩

/-- ATTN is active for CLOCK, where the floor is in its range. -/
theorem coldStart_attn (h : (coldStart pins s).settings.floor ≤ 7) : attnActive (coldStart pins s) = true := by
  have pending : sourcePending 1 (coldStart pins s) = true := by
    unfold sourcePending
    rw [coldStart_clock]
    rw [effectiveLevel_clock, Bool.true_and]
    exact decide_eq_true (by omega)
  have running : (coldStart pins s).power.held = false := by rw [coldStart_state]; rfl
  exact attnActive_of_pending running (by decide) pending

theorem coldStart_terminalAt {n : Nat} (hn : n < 8) :
    terminalAt n (coldStart pins s) =
      ((s.store.good.terminals.getD []).find? (·.entry = n)).map fun x => .new x.identity x.entrance .active 0 := by
  rw [coldStart_state]
  exact terminalTable_get (s.store.good.terminals.getD []) 0 hn

end Start

end Sys2Proof.Machine
end

