-- ==== Sys2Proof/Proofs/HoldAndStarts.lean ====
section
/-! SUPPORT. The hold and the two starts as the obligation states them (R206, R207). -/

namespace Sys2Proof.Machine

/-- The Day Controller at a warm start on a day of another date. -/
theorem warmDay_warmed_otherDate {pins : Pins} {s : State} (h : s.day.state ≠ .closed) (date : s.day.date ≠ some s.time.date) :
    let v := warmDay (warmed pins s)
    v = closeDayNow .dateChange (warmed pins s) ∧ v.day.state = .closed ∧ v.day.closeCause = some .dateChange ∧
      v.sweep = ⟨[], none, .idle⟩ := by
  intro v
  have here : v = closeDayNow .dateChange (warmed pins s) :=
    warmDay_otherDate (by rw [warmed_day]; exact h) (by rw [warmed_day, warmed_time]; exact date)
  refine ⟨here, ?_, ?_, ?_⟩
  · rw [here, closeDayNow_day]
    rfl
  · rw [here, closeDayNow_day]
    rfl
  · rw [here, closeDayNow_sweep]

theorem warmDay_warmed_opening {pins : Pins} {s : State} (h : s.day.state = .opening) (date : s.day.date = some s.time.date) :
    warmDay (warmed pins s) = { warmed pins s with day := { (warmed pins s).day with cursor := 0 } } :=
  warmDay_opening (by rw [warmed_day]; exact h) (by rw [warmed_day, warmed_time]; exact date)

theorem warmDay_warmed_open {pins : Pins} {s : State} (h : s.day.state = .open_) (date : s.day.date = some s.time.date) :
    warmDay (warmed pins s) =
      evaluatePlan
        { warmed pins s with
          sweep :=
            if s.sweep.list = [] then (warmed pins s).sweep
            else { (warmed pins s).sweep with cursor := some 0, state := .running } } := by
  rw [warmDay_open (by rw [warmed_day]; exact h) (by rw [warmed_day, warmed_time]; exact date), restartSweep_eq,
    warmed_sweepList]

/-- Settles O5: the events refused by the hold, then the warm start by its state before the Day Controller acts, and the cold start by
the blocks its areas leave. -/
theorem holdAndStartsActAsStated : Obligations.HoldAndStartsActAsStated := by
  unfold Obligations.HoldAndStartsActAsStated
  refine ⟨fun c s held => exec_held held c, fun s => ?hold, fun pins s held mark => ?warm, fun pins s held mark => ?cold⟩
  case hold =>
    exact ⟨fun running => exec_taken rfl running rfl, rfl, exec_backupDomainLost_idle,
      fun pins => ⟨exec_coldStart_idle pins, exec_warmStart_idle pins⟩,
      fun held => ⟨loseBackup s, exec_backupDomainLost held, loseBackup_power held, rfl, rfl⟩⟩
  case warm =>
    have kept := warmStart_kept pins s
    simp only [startRest, Prod.mk.injEq] at kept
    obtain ⟨⟨time, settings, limits, banks, patterns⟩, ⟨mutes, quiet, button⟩, ⟨office, job, phase, enumeration⟩,
      ⟨link, timeouts, inbox, frame⟩, ⟨hold, busy, texts⟩, store, power, install⟩ := kept
    rw [mark] at power
    refine ⟨warmed pins s, warmDay (warmed pins s), warmStart pins s, exec_warmStart pins held mark, rfl, warmed_day pins s,
      warmed_roll pins s, warmed_sweepList pins s, warmed_plan pins s, warmed_bell pins, warmed_chime pins s, warmed_zone pins s,
      warmed_window pins s, warmed_quietEnd pins s, warmed_deadline pins s, warmed_queue pins, warmed_table pins s,
      fun closed => warmDay_closed (by rw [warmed_day]; exact closed), warmDay_warmed_otherDate, warmDay_warmed_opening,
      warmDay_warmed_open, power, install, time, settings, limits, banks, patterns, mutes, quiet, button, office, job, phase,
      enumeration, link, timeouts, inbox, frame, hold, busy, texts, by rw [store], by rw [store], by rw [store], fun free => ?_,
      fun o a rest ho hr => ?_, fun closed => ?_⟩
    · rw [store, abandonStore_none (s := warmBlocks pins s) free]
      rfl
    · obtain ⟨record, done⟩ := warmStart_record (pins := pins) ho hr
      rw [store]
      exact ⟨record, done⟩
    · rw [warmStart_chime pins closed, warmed_chime]
      exact ⟨rfl, rfl⟩
  case cold =>
    intro good bad roster
    have state := coldStart_state pins s
    refine ⟨coldStart pins s, exec_coldStart pins held mark, ?_, ?_, ?_, ?_, ?_, ?_, ?_, ?_, ?_,
      fun n hn => coldStart_terminalAt pins s hn, ?_, ?_, ?_, ?_, ?_, ?_, ?_, ?_, ?_, coldStart_store pins s, coldStart_clock pins s,
      fun n low _ => coldStart_others pins s low, coldStart_attn pins s⟩
    case refine_9 => rw [state]; exact terminalTable_length _ _
    all_goals rw [state]; rfl

end Sys2Proof.Machine
end

