-- ==== Sys2Proof/Proofs/Classification.lean ====
section
/-! PROOF. The classification of an arrival (R49). -/

namespace Sys2Proof.Machine

theorem classify_before {c : Cohort} (h : c.phase = .beforeRegistration) (permit : Option SchoolTime) (t : SchoolTime) :
    classify c permit t = .present := if_pos h

/-- The cutoff is the late permit, else the end of the grace, else the cut time (R49). -/
theorem cutoffOf_eq {c : Cohort} {permit : Option SchoolTime} {cutoff : SchoolTime}
    (h : permit = some cutoff ∨
      permit = none ∧ (∃ r, c.registration = some r ∧ cutoff = min (r + 60 * c.grace) 86399) ∨
      permit = none ∧ c.registration = none ∧ c.cut = some cutoff) : cutoffOf c permit = some cutoff := by
  obtain rfl | ⟨rfl, r, hr, rfl⟩ | ⟨rfl, hr, hk⟩ := h
  · rfl
  · unfold cutoffOf
    rw [hr]
  · unfold cutoffOf
    rw [hr]
    exact hk

/-- A classification behind registration, by the cutoff and the cut time. -/
theorem classify_cutoff {c : Cohort} {permit : Option SchoolTime} {cutoff : SchoolTime} (hp : c.phase ≠ .beforeRegistration)
    (h : cutoffOf c permit = some cutoff) (t : SchoolTime) :
    classify c permit t = if t ≤ cutoff then .present else if c.cut.any (· < t) then .lateAfterCut else .late := by
  unfold classify
  rw [if_neg hp, h]
  simp only [Option.all_some, decide_eq_true_eq]

/-- Settles O37: the cutoff, and the two tests behind it. -/
theorem arrivalsAreClassified : Obligations.ArrivalsAreClassified := by
  unfold Obligations.ArrivalsAreClassified
  refine fun c permit t => ⟨fun h => classify_before h permit t, fun cutoff hp h => ?_⟩
  rw [classify_cutoff hp (cutoffOf_eq h) t]
  refine ⟨fun early => if_pos early, fun late ⟨k, hk, after⟩ => ?_, fun late cut => ?_⟩
  · rw [if_neg (Nat.not_le.2 late), if_pos (by simp [hk, after])]
  · rw [if_neg (Nat.not_le.2 late), if_neg]
    rw [Option.any_eq_true]
    rintro ⟨k, hk, after⟩
    exact Nat.not_lt.2 (cut k hk) (of_decide_eq_true after)

end Sys2Proof.Machine
end

