-- ==== Sys2Proof/Proofs/CalendarAndOpening.lean ====
section
/-! PROOF. The Calendar Table's requests (R34), and the day that begins opening by itself or on OPEN (R33, R36–R38). -/

namespace Sys2Proof.Machine

/-! ### The calendar -/

theorem tableGet_eq_find? {α : Type} (k : Nat) (l : List (Nat × α)) : tableGet k l = (l.find? (·.1 = k)).map Prod.snd := by
  induction l with
  | nil => rfl
  | cons e t ih =>
    obtain ⟨j, v⟩ := e
    unfold tableGet
    by_cases hj : j = k
    · rw [if_pos hj, List.find?_cons_of_pos (by simpa using hj)]
      rfl
    · rw [if_neg hj, List.find?_cons_of_neg (by simpa using hj), ih]

/-- The day type of a date (R33). -/
theorem dayTypeOf_eq (d : Date) (s : State) :
    dayTypeOf d s =
      match s.day.calendar.find? (·.1 = d) with
      | some e => e.2
      | none => s.settings.weekMap.getD ((d + 5) % 7) .closed := by
  unfold dayTypeOf
  rw [tableGet_eq_find?]
  cases s.day.calendar.find? (·.1 = d) <;> rfl

theorem not_dateOk_iff {d : Date} : (!dateOk d) = true ↔ 36525 ≤ d := (not_iff_of_iff dateOk_iff).trans Nat.not_lt

theorem dayTypeOk_iff {t : DayType} : dayTypeOk t = true ↔ ∀ b, t = .school b → b < 4 := by
  cases t <;> simp [dayTypeOk]

/-- A date or a day type that DATEPUT does not take. -/
theorem badDatePut_iff {date : Date} {t : DayType} {s : State} :
    (!dateOk date || !dayTypeOk t || (s.time.valid && decide (date < s.time.date))) = true ↔
      36525 ≤ date ∨ (∃ b, t = .school b ∧ 4 ≤ b) ∨ s.time.valid = true ∧ date < s.time.date := by
  rw [Bool.or_eq_true, Bool.or_eq_true, not_dateOk_iff, not_iff_of_iff dayTypeOk_iff, Bool.and_eq_true, decide_eq_true_eq, or_assoc]
  simp only [not_forall, Nat.not_lt, exists_prop]

theorem datePut_answers (date : Date) (t : DayType) (s : State) :
    Answers (checksOf (.datePut date t) s) s (datePut date t s) :=
  .ite Iff.rfl fun _ => .ite badDatePut_iff fun _ => .ite (and_congr_left fun _ => Option.isNone_iff_eq_none) fun _ => .ok _ _

theorem dateDrop_answers (date : Date) (s : State) : Answers (checksOf (.dateDrop date) s) s (dateDrop date s) :=
  .ite not_dateOk_iff fun _ => .ite Iff.rfl fun _ => .ite Option.isNone_iff_eq_none fun _ => .ok _ _

/-- DATEPUT where none of its checks holds. -/
theorem datePut_taken {date : Date} {t : DayType} {s : State} (free : saveHolds .calendar s = false) (hd : date < 36525)
    (ht : ∀ b, t = .school b → b < 4) (past : s.time.valid = true → s.time.date ≤ date)
    (room : (tableGet date s.day.calendar).isSome = true ∨ s.day.calendar.length < 64) :
    datePut date t s = (autoOpen (setCalendar (tablePut date t) s), .ok []) := by
  unfold datePut
  rw [if_neg (by rw [free]; nofun), if_neg, if_neg]
  · rintro ⟨empty, full⟩
    rw [Option.isNone_iff_eq_none] at empty
    rw [empty] at room
    exact room.elim nofun (Nat.not_lt.2 full)
  · rw [badDatePut_iff]
    rintro (h | ⟨b, hb, h⟩ | ⟨v, h⟩)
    · exact Nat.not_lt.2 h hd
    · exact Nat.not_lt.2 h (ht b hb)
    · exact Nat.not_lt.2 (past v) h

/-- DATEDROP where none of its checks holds. -/
theorem dateDrop_taken {date : Date} {t : DayType} {s : State} (free : saveHolds .calendar s = false) (hd : date < 36525)
    (ht : tableGet date s.day.calendar = some t) :
    dateDrop date s = (autoOpen (setCalendar (tableDrop date) s), .ok []) := by
  unfold dateDrop
  rw [if_neg fun h => Nat.not_lt.2 (not_dateOk_iff.1 h) hd, if_neg (by rw [free]; nofun), if_neg (by rw [ht]; nofun)]

/-- Settles O18: the Calendar Table after a write and after a removal, with every other date as it was. -/
theorem calendarRequestsEditOneDate : Obligations.CalendarRequestsEditOneDate := by
  unfold Obligations.CalendarRequestsEditOneDate
  refine ⟨fun date s held => ⟨fun t => refusedByItsChecks_of rfl held (datePut_answers date t s),
    refusedByItsChecks_of rfl held (dateDrop_answers date s)⟩,
    fun date s held free hd sorted => ⟨fun t ht past room => ?_, fun t ht => ?_⟩⟩
  · exact ⟨setCalendar (tablePut date t) s, exec_taken rfl held (datePut_taken free hd ht past room), rfl,
      tableGet_put_self date t _, fun d hne => tableGet_put_ne hne t _, tablePut_pairwise sorted⟩
  · exact ⟨setCalendar (tableDrop date) s, exec_taken rfl held (dateDrop_taken free hd ht), rfl,
      tableGet_drop_self sorted, fun d hne => tableGet_drop_ne hne _, tableDrop_pairwise sorted⟩

/-! ### Opening -/

/-- The conditions of automatic opening but for the day type (R36). -/
def OpeningDue (s : State) : Prop :=
  s.day.state = .closed ∧ s.time.valid = true ∧ s.day.date ≠ some s.time.date ∧ s.settings.dayOpen ≤ s.time.school ∧
    rollLoadUnderWay s = false

theorem autoOpen_begins {bank : Nat} {s : State} (school : dayTypeOf s.time.date s = .school bank) (due : OpeningDue s) :
    autoOpen s = beginOpening bank s := by
  obtain ⟨closed, valid, date, time, load⟩ := due
  unfold autoOpen
  rw [school]
  exact if_pos ⟨closed, valid, date, time, by rw [load]; rfl⟩

theorem autoOpen_stays {s : State} (h : dayTypeOf s.time.date s = .closed ∨ ¬OpeningDue s) : autoOpen s = s := by
  unfold autoOpen
  cases school : dayTypeOf s.time.date s with
  | closed => rfl
  | school bank =>
    rw [school] at h
    refine if_neg fun ⟨closed, valid, date, time, load⟩ => h.resolve_left nofun ⟨closed, valid, date, time, ?_⟩
    rwa [Bool.not_eq_true'] at load

/-- What the automatic-opening rule does (R36, R38). -/
theorem autoOpen_cases (s : State) :
    (∃ bank, s.day.state = .closed ∧ s.time.valid = true ∧ s.day.date ≠ some s.time.date ∧
        dayTypeOf s.time.date s = .school bank ∧ s.settings.dayOpen ≤ s.time.school ∧ rollLoadUnderWay s = false ∧
        BegunOpening bank s (autoOpen s)) ∨
      (¬(s.day.state = .closed ∧ s.time.valid = true ∧ s.day.date ≠ some s.time.date ∧
          dayTypeOf s.time.date s ≠ .closed ∧ s.settings.dayOpen ≤ s.time.school ∧ rollLoadUnderWay s = false) ∧
        autoOpen s = s) := by
  by_cases due : OpeningDue s
  · cases school : dayTypeOf s.time.date s with
    | closed => exact .inr ⟨fun ⟨_, _, _, open_, _⟩ => open_ rfl, autoOpen_stays (.inl school)⟩
    | school bank =>
      obtain ⟨closed, valid, date, time, load⟩ := id due
      exact .inl ⟨bank, closed, valid, date, rfl, time, load, autoOpen_begins school due⟩
  · exact .inr ⟨fun ⟨closed, valid, date, _, time, load⟩ => due ⟨closed, valid, date, time, load⟩, autoOpen_stays (.inr due)⟩

theorem openBank_eq_none_iff {bank : Option Nat} {s : State} :
    openBank bank s = none ↔ bank = none ∧ dayTypeOf s.time.date s = .closed := by
  unfold openBank
  cases bank <;> cases dayTypeOf s.time.date s <;> simp

theorem any_four_le_iff {bank : Option Nat} : bank.any (4 ≤ ·) = true ↔ ∃ b, bank = some b ∧ 4 ≤ b := by
  rw [Option.any_eq_true]
  simp only [decide_eq_true_eq]

theorem openDay_answers (bank : Option Nat) (s : State) : Answers (checksOf (.openDay bank) s) s (openDay bank s) := by
  refine .ite (by rw [Bool.not_eq_true']) fun _ => .ite Iff.rfl fun _ => .ite any_four_le_iff fun _ => .ite Iff.rfl fun _ => ?_
  cases h : openBank bank s with
  | none => exact .refused (openBank_eq_none_iff.1 h)
  | some b => exact .passes (fun x => by rw [openBank_eq_none_iff.2 x] at h; nomatch h) (.ok _ _)

/-- OPEN where none of its checks holds. -/
theorem openDay_taken {given : Option Nat} {bank : Nat} {s : State} (valid : s.time.valid = true) (closed : s.day.state = .closed)
    (load : rollLoadUnderWay s = false)
    (h : given = some bank ∧ bank < 4 ∨ given = none ∧ dayTypeOf s.time.date s = .school bank) :
    openDay given s = (beginOpening bank s, .ok [.date s.time.date, .num bank]) := by
  have runs : openBank given s = some bank := by
    unfold openBank
    obtain ⟨rfl, _⟩ | ⟨rfl, school⟩ := h
    · rfl
    · rw [school]
  have range : ¬given.any (4 ≤ ·) = true := by
    rw [any_four_le_iff]
    rintro ⟨b, rfl, hb⟩
    obtain ⟨e, lt⟩ | ⟨e, _⟩ := h
    · cases e
      exact Nat.not_lt.2 hb lt
    · nomatch e
  unfold openDay
  rw [if_neg (by rw [valid]; nofun), if_neg (not_not.2 closed), if_neg range, if_neg (by rw [load]; nofun), runs]

/-- Settles O14: the day type of a date, the automatic-opening rule, and OPEN. -/
theorem dayBeginsOpening : Obligations.DayBeginsOpening := by
  unfold Obligations.DayBeginsOpening
  refine ⟨dayTypeOf_eq, fun s held => ⟨fun bank => refusedByItsChecks_of rfl held (openDay_answers bank s),
    ⟨autoOpen s, event_next held autoOpen, rfl, autoOpen_cases s⟩, fun given bank valid closed load h => ?_⟩⟩
  exact ⟨beginOpening bank s, exec_taken rfl held (openDay_taken valid closed load h), rfl⟩

end Sys2Proof.Machine
end

