-- ==== Sys2Proof/Proofs/CloseOfDay.lean ====
section
/-! PROOF. The close of the day (R41, R42, R147). -/

namespace Sys2Proof.Machine

/-! ### The blocks that claims change -/

/-- Only marks, counts, notices, the sweep and attention changed. -/
def ClaimsOnly (s t : State) : Prop :=
  t =
    { s with
      roll := { s.roll with roster := t.roll.roster, census := t.roll.census }
      notices := { s.notices with queue := t.notices.queue }
      sweep := t.sweep
      attention := t.attention }

theorem ClaimsOnly.refl (s : State) : ClaimsOnly s s := rfl

theorem ClaimsOnly.trans {s t u : State} (h : ClaimsOnly s t) (g : ClaimsOnly t u) : ClaimsOnly s u := by
  unfold ClaimsOnly at h g ⊢
  refine g.trans ?_
  rw [h]

theorem ClaimsOnly.foldl {α : Type} {f : State → α → State} (hf : ∀ s x, ClaimsOnly s (f s x)) (l : List α) (s : State) :
    ClaimsOnly s (l.foldl f s) := by
  induction l generalizing s with
  | nil => exact .refl s
  | cons x t ih => exact (hf s x).trans (ih _)

theorem raise_claimsOnly (id : SourceId) (x : Option Subject) (s : State) : ClaimsOnly s (raise id x s) := rfl

theorem claim_claimsOnly (k : Slot) (f : DayPart → DayPart) (s : State) : ClaimsOnly s (claim k f s) := by
  unfold ClaimsOnly
  rw [claim_attention]
  exact claim_roll_state k f s

theorem withdrawWhere_attention (p : Notice → Bool) (s : State) : (withdrawWhere p s).attention = s.attention := by
  rw [withdrawWhere_state]

theorem withdrawWhere_claimsOnly (p : Notice → Bool) (s : State) : ClaimsOnly s (withdrawWhere p s) := by
  unfold ClaimsOnly
  rw [withdrawWhere_attention, withdrawWhere_roll]
  exact withdrawWhere_state p s

/-- A pupil of ABSENT_PENDING made ABSENT_UNREACHED with source NOTICE (R41). -/
theorem makeUnreached_notice (k : Slot) (s : State) :
    makeUnreached .notice k s = raise .unreached (some (.slot k)) (claim k unreached s) := rfl

theorem makeUnreached_claimsOnly (k : Slot) (s : State) : ClaimsOnly s (makeUnreached .notice k s) :=
  (claim_claimsOnly k unreached s).trans (raise_claimsOnly _ _ _)

/-! ### Pupils made ABSENT_UNREACHED one after another -/

/-- The pupils of some slots made ABSENT_UNREACHED, with UNREACHED raised for each (R41). -/
def unreachedAll (l : List Slot) (s : State) : State := l.foldl (fun s k => makeUnreached .notice k s) s

theorem unreachedAll_cons (k : Slot) (l : List Slot) (s : State) :
    unreachedAll (k :: l) s = unreachedAll l (makeUnreached .notice k s) := rfl

theorem unreached_twice (d : DayPart) : unreached (unreached d) = unreached d := by
  by_cases h : d.mark = .absentPending <;> simp [unreached, h]

theorem unreached_of_ne {d : DayPart} (h : d.mark ≠ .absentPending) : unreached d = d := if_neg h

theorem pupilAt_makeUnreached (j k : Slot) (s : State) :
    pupilAt j (makeUnreached .notice k s) =
      (pupilAt j s).map fun p => if j = k then { p with day := unreached p.day } else p := pupilAt_claim j k unreached s

theorem pupilAt_unreachedAll (j : Slot) (l : List Slot) (s : State) :
    pupilAt j (unreachedAll l s) = (pupilAt j s).map fun p => if j ∈ l then { p with day := unreached p.day } else p := by
  induction l generalizing s with
  | nil => simp [unreachedAll]
  | cons k t ih =>
    rw [unreachedAll_cons, ih, pupilAt_makeUnreached, Option.map_map]
    refine congrArg (Option.map · _) (funext fun p => ?_)
    by_cases hk : j = k <;> by_cases ht : j ∈ t <;> simp [hk, ht, unreached_twice]

/-- Where every pupil of ABSENT_PENDING is among the slots, no pupil is left in it. -/
theorem pupilAt_unreachedAll_pending (j : Slot) {s : State} {l : List Slot}
    (all : ∀ k p, pupilAt k s = some p → p.day.mark = .absentPending → k ∈ l) :
    pupilAt j (unreachedAll l s) =
      (pupilAt j s).map fun p =>
        if p.day.mark = .absentPending then
          { p with day := { p.day with mark := .absentUnreached, source := some .notice } }
        else p := by
  rw [pupilAt_unreachedAll]
  refine Option.map_congr fun p hp => ?_
  by_cases pending : p.day.mark = .absentPending
  · rw [if_pos (all j p hp pending), if_pos pending]
    unfold unreached
    rw [if_pos pending]
  · rw [if_neg pending, unreached_of_ne pending, ite_self]

/-- A claim withdraws nothing from a queue whose ABSENT notices carry cancel-on-result. -/
theorem queue_unreachedAll {s : State} (h : ∀ n ∈ s.notices.queue, ∀ k, n.isAbsentOf k = false) (l : List Slot) :
    (unreachedAll l s).notices.queue = s.notices.queue := by
  induction l generalizing s with
  | nil => rfl
  | cons k t ih =>
    have same : (makeUnreached .notice k s).notices.queue = s.notices.queue :=
      (claim_withdrawn_of fun _ => unreached_mark).trans
        (withdrawn_none fun n hn => by rw [h n hn k, Bool.and_false]).symm
    rw [unreachedAll_cons, ih (by rw [same]; exact h), same]

theorem attention_unreachedAll_length (l : List Slot) (s : State) :
    (unreachedAll l s).attention.length = s.attention.length := by
  refine foldl_keeps (g := fun s : State => s.attention.length) (fun s k => ?_) l s
  rw [makeUnreached_notice, raise_attention, List.length_modify, claim_attention]

theorem sourceAt_claim (n : Nat) (k : Slot) (f : DayPart → DayPart) (s : State) : sourceAt n (claim k f s) = sourceAt n s := by
  unfold sourceAt
  rw [claim_attention]

theorem sourceAt_unreachedAll_ne {n : Nat} (h : n ≠ 7) (l : List Slot) (s : State) :
    sourceAt n (unreachedAll l s) = sourceAt n s := by
  refine foldl_keeps (g := sourceAt n) (fun s k => ?_) l s
  rw [makeUnreached_notice, sourceAt_raise_ne (id := .unreached) _ _ (Ne.symm h), sourceAt_claim]

/-- UNREACHED is raised once for each slot, in their order. -/
theorem sourceAt_unreachedAll {s : State} (h : 7 < s.attention.length) (l : List Slot) :
    sourceAt 7 (unreachedAll l s) = l.foldl (fun x k => x.raised (some (.slot k))) (sourceAt 7 s) := by
  induction l generalizing s with
  | nil => rfl
  | cons k t ih =>
    have one : sourceAt 7 (makeUnreached .notice k s) = (sourceAt 7 s).raised (some (.slot k)) := by
      rw [← sourceAt_claim 7 k unreached s]
      exact sourceAt_raise_self (id := .unreached) _ (by rw [claim_attention]; exact h)
    rw [unreachedAll_cons, ih (by rw [makeUnreached_notice, raise_attention, List.length_modify, claim_attention]; exact h), one]
    rfl

/-! ### The sweeps abandoned -/

/-- The cohorts of some sweeps made CUT_DONE (R147). -/
theorem getElem?_cutDone (c : Nat) (l : List Sweep) (cs : List Cohort) :
    (l.foldl (fun cs w => cs.modify w.cohort fun c => { c with phase := .cutDone }) cs)[c]? =
      if ∃ w ∈ l, w.cohort = c then (cs[c]?).map fun x => { x with phase := .cutDone } else cs[c]? := by
  induction l generalizing cs with
  | nil => simp
  | cons w t ih =>
    rw [List.foldl_cons, ih, List.getElem?_modify]
    by_cases hw : w.cohort = c <;> by_cases ht : ∃ v ∈ t, v.cohort = c <;> cases cs[c]? <;> simp [hw, ht]

/-! ### The close -/

theorem closeDayNow_eq (cause : CloseCause) (s : State) :
    closeDayNow cause s =
      raise .day none (unreachedAll (slotsWhere (·.day.mark = .absentPending) (closing cause s)) (closing cause s)) := rfl

theorem closing_roll (cause : CloseCause) (s : State) : (closing cause s).roll = s.roll := withdrawWhere_roll _ _

theorem closing_attention (cause : CloseCause) (s : State) : (closing cause s).attention = s.attention := withdrawWhere_attention _ _

theorem closing_withdrawn (cause : CloseCause) (s : State) :
    Withdrawn (fun n => isDayKind n.kind) s.notices.queue (closing cause s).notices.queue := withdrawWhere_withdrawn _ _

/-- After the withdrawal no ABSENT notice is without cancel-on-result. -/
theorem closing_absent (cause : CloseCause) (s : State) :
    ∀ n ∈ (closing cause s).notices.queue, ∀ k, n.isAbsentOf k = false := by
  intro n hn k
  rw [closing_withdrawn cause s] at hn
  obtain ⟨m, _, rfl⟩ := List.mem_map.1 hn
  rw [← Bool.not_eq_true, isAbsentOf_iff]
  rintro ⟨kind, _, cancel⟩
  dsimp only at kind cancel
  by_cases day : isDayKind m.kind = true
  · rw [if_pos day] at cancel
    nomatch cancel
  · rw [if_neg day] at kind
    exact day (by rw [kind]; rfl)

theorem isDayKind_eq (k : NoticeKind) : isDayKind k = (k = .absent || k = .late || k = .arrived) := by cases k <;> rfl

/-- What the close of the day leaves (R41). -/
theorem closeDayNow_dayClosed (cause : CloseCause) (s : State) : DayClosed cause s (closeDayNow cause s) := by
  have day := closeDayNow_day cause s
  have cohorts (c : Nat) := getElem?_cutDone c s.sweep.list s.day.cohorts
  have claims : ClaimsOnly (abandonSweeps { s with day := { s.day with state := .closed, closeCause := some cause } })
      (closeDayNow cause s) :=
    ((withdrawWhere_claimsOnly _ _).trans (.foldl (fun s k => makeUnreached_claimsOnly k s) _ _)).trans (raise_claimsOnly _ _ _)
  have sweep := closeDayNow_sweep cause s
  have before (n : Nat) : sourceAt n (closing cause s) = sourceAt n s := by
    unfold sourceAt
    rw [closing_attention]
  have raised (l : List Slot) : (unreachedAll l (closing cause s)).attention.length = s.attention.length := by
    rw [attention_unreachedAll_length, closing_attention]
  refine ⟨?_, ?_, fun c _ listed => ?_, fun c _ unlisted => ?_, fun k => ?_, fun sources => ⟨?_, ?_⟩, fun n h2 h7 => ?_⟩
  · have whole := claims
    unfold ClaimsOnly at whole
    rw [sweep] at whole
    refine whole.trans ?_
    rw [day]
    rfl
  · have kinds := closing_withdrawn cause s
    simp only [isDayKind_eq] at kinds
    rw [closeDayNow_eq, raise_notices, queue_unreachedAll (closing_absent cause s)]
    exact kinds
  · rw [day]
    exact (cohorts c).trans (if_pos listed)
  · rw [day]
    exact (cohorts c).trans (if_neg unlisted)
  · have roster := pupilAt_congr (s := s) (t := closing cause s) (by rw [closing_roll]) k
    rw [← roster]
    exact pupilAt_unreachedAll_pending k fun j p hp pending => mem_slotsWhere hp (by simpa using pending)
  · rw [closeDayNow_eq]
    exact (sourceAt_raise_self (id := .day) none (by rw [raised, sources]; decide)).trans
      (congrArg _ ((sourceAt_unreachedAll_ne (by decide) _ _).trans (before 2)))
  · rw [closeDayNow_eq, sourceAt_raise_ne (id := .day) _ _ (by decide),
      sourceAt_unreachedAll (by rw [closing_attention, sources]; decide), before, slotsWhere, List.foldl_map, closing_roll]
  · rw [closeDayNow_eq, sourceAt_raise_ne (id := .day) _ _ (Ne.symm h2), sourceAt_unreachedAll_ne h7, before]

/-! ### CLOSE -/

theorem closeDay_answers (s : State) : Answers (checksOf .closeDay s) s (closeDay s) :=
  .unless (by rw [dayIsOpen_iff, not_not]) (.ok _ _)

/-- Settles O16: CLOSE by its one check, and the close of the day. -/
theorem closeEndsTheDay : Obligations.CloseEndsTheDay := by
  unfold Obligations.CloseEndsTheDay
  refine fun s held _ => ⟨refusedByItsChecks_of rfl held (closeDay_answers s), fun h => ?_, fun h => ?_⟩
  · exact exec_taken rfl held (if_neg fun x => h (dayIsOpen_iff.1 x))
  · exact ⟨closeDayNow .close s, exec_taken rfl held (if_pos (dayIsOpen_iff.2 h)), closeDayNow_dayClosed .close s⟩

end Sys2Proof.Machine
end

