-- ==== Sys2Proof/Proofs/SchoolTime.lean ====
section
/-! PROOF. The Time Base: SET CLOCK (R29), the minute pulse (R30), the rollover (R31), the handing on of a change (R32), and what each
change of school time brings (R36, R110, R158, R166, R167). -/

namespace Sys2Proof.Machine

/-! ### The line's choice of a job -/

/-- Only the Entrance Line Controller changed. -/
def LineOnly (s t : State) : Prop := t = { s with line := t.line }

theorem LineOnly.trans {s t u : State} (h : LineOnly s t) (g : LineOnly t u) : LineOnly s u := by
  unfold LineOnly at h g ⊢
  refine g.trans ?_
  rw [h]

theorem beginLiveness_lineOnly (n : Nat) (s : State) : LineOnly s (beginLiveness n s) := by
  unfold beginLiveness
  split <;> rfl

theorem chooseJob_lineOnly (s : State) : LineOnly s (chooseJob s) := by
  unfold chooseJob
  split
  · rfl
  · split
    · rfl
    · split
      · exact beginLiveness_lineOnly _ s
      · split <;> rfl

theorem chooseIfFree_lineOnly (s : State) : LineOnly s (chooseIfFree s) := by
  unfold chooseIfFree
  split
  · exact chooseJob_lineOnly s
  · rfl

theorem displayDue_lineOnly (s : State) : LineOnly s (displayDue s) := by
  unfold displayDue
  split <;> rfl

theorem displayDue_valid {s : State} (h : s.time.valid = true) : displayDue s = { s with line := { s.line with clockDue := true } } :=
  if_pos h

/-! ### What follows each change of school time -/

/-- The end of a window that lies ahead stays. -/
theorem filter_ahead (now : SchoolTime) (e : Option SchoolTime) : e.filter (now < ·) = if e.any (· ≤ now) then none else e := by
  cases e with
  | none => rfl
  | some t => by_cases h : t ≤ now <;> simp [Option.filter, h, Nat.not_lt.2, Nat.not_le.1]

/-- The quiet window after a change of school time (R158). -/
theorem endQuiet_eq (old u : State) :
    endQuiet old u = { u with notices := { u.notices with quietEnd := quietAfter old u } } := by
  unfold endQuiet quietAfter timeMoved
  by_cases date : u.time.date = old.time.date
  · by_cases school : u.time.school = old.time.school
    · simp [date, school]
    · rw [if_neg (not_not.2 date), if_pos school, filter_ahead]
      by_cases reached : u.notices.quietEnd.any (· ≤ u.time.school) = true
      · rw [if_pos reached, if_pos (by rw [reached]; simp [Ne.symm school])]
      · rw [if_neg reached, if_neg (by simp [date, reached])]
  · rw [if_pos date, if_pos (by simp [Ne.symm date])]

theorem minuteEntered_iff {old u : State} :
    minuteEntered old u = true ↔ u.time.school / 60 ≠ old.time.school / 60 ∨ u.time.date ≠ old.time.date := by
  unfold minuteEntered
  rw [Bool.or_eq_true, decide_eq_true_eq, decide_eq_true_eq, ne_comm, ne_comm (a := old.time.date)]

theorem settle_time (s : State) : (settle s).time = s.time := congrArg (fun r => r.1.1) (settle_noticeRest s)
theorem settle_day (s : State) : (settle s).day = s.day := congrArg (fun r => r.1.2.1) (settle_noticeRest s)
theorem settle_plan (s : State) : (settle s).plan = s.plan := congrArg (fun r => r.1.2.2.1) (settle_noticeRest s)

theorem autoOpen_time (s : State) : (autoOpen s).time = s.time := congrArg (fun r => r.1.1) (autoOpen_startRest s)

theorem autoOpen_sweep (s : State) : (autoOpen s).sweep = s.sweep := by
  unfold autoOpen
  split
  · rfl
  · split <;> rfl

theorem autoOpen_plan (s : State) : (autoOpen s).plan = s.plan := by
  unfold autoOpen
  split
  · rfl
  · split <;> rfl

theorem autoOpen_closeCause (s : State) : (autoOpen s).day.closeCause = s.day.closeCause := by
  unfold autoOpen
  split
  · rfl
  · split <;> rfl

/-- The state after a change of school time, before the display clock and the line's choice. -/
def timeSettled (old u : State) : State := autoOpen (settle (endQuiet old u))

theorem timeSettled_time (old u : State) : (timeSettled old u).time = u.time := by
  unfold timeSettled
  rw [autoOpen_time, settle_time, endQuiet_eq]

theorem afterTime_lineOnly (old u : State) : LineOnly (timeSettled old u) (afterTime old u) := by
  refine .trans (t := if minuteEntered old u then displayDue (timeSettled old u) else timeSettled old u) ?_
    (chooseIfFree_lineOnly _)
  split
  · exact displayDue_lineOnly _
  · rfl

theorem afterTime_eq (old u : State) : afterTime old u = timePassed old u := by
  have due :
      (if minuteEntered old u then displayDue (timeSettled old u) else timeSettled old u) =
        if (u.time.school / 60 ≠ old.time.school / 60 ∨ u.time.date ≠ old.time.date) ∧ u.time.valid = true then
          { timeSettled old u with line := { (timeSettled old u).line with clockDue := true } }
        else timeSettled old u := by
    have valid : (timeSettled old u).time.valid = u.time.valid := congrArg _ (timeSettled_time old u)
    by_cases minute : minuteEntered old u = true
    · rw [if_pos minute]
      unfold displayDue
      rw [valid]
      simp only [minuteEntered_iff.1 minute, true_and]
    · rw [if_neg minute, if_neg fun x => minute (minuteEntered_iff.2 x.1)]
  show chooseIfFree (if minuteEntered old u then displayDue (timeSettled old u) else timeSettled old u) = _
  rw [due]
  unfold timeSettled timePassed
  rw [endQuiet_eq]

/-! ### What a change of school time leaves alone -/

/-- What the handing on of a change of school time, and all that follows it, leave alone. -/
def clockRest (s : State) := (s.time, s.office, s.settings, s.limits, s.store, s.zone.mutes, s.power, s.pins)

theorem clockRest_of_planRest {s t : State} (h : planRest t = planRest s) : clockRest t = clockRest s := by
  simp only [planRest, Prod.mk.injEq] at h
  simp only [clockRest, h]

theorem clockRest_of_startRest {s t : State} (h : startRest t = startRest s) : clockRest t = clockRest s := by
  simp only [startRest, Prod.mk.injEq] at h
  simp only [clockRest, h]

theorem afterTime_clockRest (old u : State) : clockRest (afterTime old u) = clockRest u := by
  have settled : clockRest (timeSettled old u) = clockRest u := by
    refine (clockRest_of_startRest ((autoOpen_startRest _).trans (startRest_of_noticeRest (settle_noticeRest _)))).trans ?_
    rw [endQuiet_eq]
    rfl
  rw [afterTime_lineOnly, ← settled]
  rfl

theorem afterTime_time (old u : State) : (afterTime old u).time = u.time := congrArg (·.1) (afterTime_clockRest old u)

theorem takeOnTime_time (s : State) : (takeOnTime s).time = s.time := congrArg (fun r => r.1.1) (takeEntries_planRest _ s)

/-! ### A change handed on (R32) -/

theorem handOn_handedOn (old c : State) : HandedOn old c (handOn old c) := by
  unfold HandedOn handOn
  by_cases closed : c.day.state = .closed
  · rw [if_pos closed, if_pos closed]
  · rw [if_neg closed, if_neg closed]
    by_cases date : c.day.date ≠ some c.time.date
    · rw [if_pos date, if_pos date]
      exact closeDayNow_dayClosed .dateChange c
    · rw [if_neg date, if_neg date]
      by_cases forward : c.day.state = .open_ ∧ old.time.school < c.time.school
      · rw [if_pos forward, if_pos forward]
      · rw [if_neg forward, if_neg forward]
        by_cases back : c.day.state = .open_ ∧ c.time.school < old.time.school
        · rw [if_pos back, if_pos back]
          rfl
        · rw [if_neg back, if_neg back]

theorem handOn_clockRest (old c : State) : clockRest (handOn old c) = clockRest c := by
  unfold handOn
  split
  · rfl
  · split
    · exact clockRest_of_planRest (closeDayNow_planRest _ c)
    · split
      · exact clockRest_of_planRest (takeEntries_planRest _ c)
      · split <;> rfl

theorem handOn_time (old c : State) : (handOn old c).time = c.time := congrArg (·.1) (handOn_clockRest old c)

theorem handOn_otherDate {old c : State} (state : c.day.state ≠ .closed) (date : c.day.date ≠ some c.time.date) :
    handOn old c = closeDayNow .dateChange c := by
  unfold handOn
  rw [if_neg state, if_pos date]

/-- An earlier time on an OPEN day of the same date. -/
theorem handOn_back {old c : State} (state : c.day.state = .open_) (date : c.day.date = some c.time.date)
    (back : c.time.school < old.time.school) : handOn old c = lowerOpening c := by
  unfold handOn
  rw [if_neg (by rw [state]; decide), if_neg (not_not.2 date), if_neg fun x => Nat.lt_asymm x.2 back, if_pos ⟨state, back⟩]

/-! ### SET CLOCK (R29) -/

/-- A time or date that SET CLOCK does not take. -/
theorem badClock_iff {time : SchoolTime} {date : Option Date} {s : State} :
    (daySeconds ≤ time ∨ date.any (dateCount ≤ ·) = true ∨ (date.isNone = true ∧ ¬s.time.valid = true)) ↔
      86400 ≤ time ∨ (∃ d, date = some d ∧ 36525 ≤ d) ∨ date = none ∧ s.time.valid = false := by
  rw [Option.any_eq_true, Option.isNone_iff_eq_none, Bool.not_eq_true]
  simp only [decide_eq_true_eq]
  rfl

theorem setClock_answers (time : SchoolTime) (date : Option Date) (s : State) :
    Answers (checksOf (.setClock time date) s) s (setClock time date s) := .ite badClock_iff fun _ => .ok _ _

/-- The Time Base as SET CLOCK writes it, nothing handed on yet (R29). -/
def clockSet (time : SchoolTime) (date : Option Date) (s : State) : State :=
  { s with time := { s.time with school := time, date := date.getD s.time.date, valid := true } }

/-- The state that SET CLOCK leaves (R29, R32, R110). -/
def afterSetClock (time : SchoolTime) (date : Option Date) (s : State) : State :=
  afterTime s (displayDue (handOn s (clockSet time date s)))

section SetClock

variable {time : SchoolTime} {date : Option Date} {s : State}

theorem setClock_taken (ht : time < 86400) (hd : ∀ d, date = some d → d < 36525) (hv : date = none → s.time.valid = true) :
    setClock time date s = (afterSetClock time date s, .ok (clockItems (afterSetClock time date s))) := by
  refine if_neg ?_
  rw [badClock_iff]
  rintro (h | ⟨d, e, h⟩ | ⟨e, h⟩)
  · exact Nat.not_lt.2 h ht
  · exact Nat.not_lt.2 h (hd d e)
  · rw [hv e] at h
    nomatch h

theorem afterSetClock_clockRest : clockRest (afterSetClock time date s) = clockRest (clockSet time date s) := by
  have due (h : State) : clockRest (displayDue h) = clockRest h := by
    rw [displayDue_lineOnly]
    rfl
  unfold afterSetClock
  rw [afterTime_clockRest, due, handOn_clockRest]

theorem afterSetClock_eq :
    afterSetClock time date s =
      timePassed s
        { handOn s (clockSet time date s) with line := { (handOn s (clockSet time date s)).line with clockDue := true } } := by
  have valid : (handOn s (clockSet time date s)).time.valid = true := by
    rw [handOn_time]
    rfl
  unfold afterSetClock
  rw [afterTime_eq, displayDue_valid valid]

/-- The state of SET CLOCK as automatic opening finds it (R32). -/
def clockSettled (time : SchoolTime) (date : Option Date) (s : State) : State :=
  settle (endQuiet s (displayDue (handOn s (clockSet time date s))))

theorem afterSetClock_lineOnly : LineOnly (autoOpen (clockSettled time date s)) (afterSetClock time date s) := afterTime_lineOnly _ _

theorem clockSettled_rest : noticeRest (clockSettled time date s) =
    noticeRest (endQuiet s (displayDue (handOn s (clockSet time date s)))) := settle_noticeRest _

theorem clockSettled_clockRest : clockRest (clockSettled time date s) = clockRest (clockSet time date s) := by
  refine (clockRest_of_startRest (startRest_of_noticeRest clockSettled_rest)).trans ?_
  rw [endQuiet_eq, displayDue_lineOnly, ← handOn_clockRest s (clockSet time date s)]
  rfl

theorem clockSettled_day : (clockSettled time date s).day = (handOn s (clockSet time date s)).day := by
  refine (settle_day _).trans ?_
  rw [endQuiet_eq, displayDue_lineOnly]

theorem clockSettled_plan : (clockSettled time date s).plan = (handOn s (clockSet time date s)).plan := by
  refine (settle_plan _).trans ?_
  rw [endQuiet_eq, displayDue_lineOnly]

/-- A new date closes the day: it is CLOSED, under its own date, with no sweep (R32, R41). -/
theorem clockSettled_otherDate (state : s.day.state ≠ .closed) (other : s.day.date ≠ some (date.getD s.time.date)) :
    (clockSettled time date s).day.state = .closed ∧ (clockSettled time date s).day.date = s.day.date ∧
      (clockSettled time date s).day.calendar = s.day.calendar ∧
      (clockSettled time date s).day.closeCause = some .dateChange ∧ (clockSettled time date s).sweep = ⟨[], none, .idle⟩ := by
  have closes : handOn s (clockSet time date s) = closeDayNow .dateChange (clockSet time date s) := handOn_otherDate state other
  have idle : (endQuiet s (displayDue (handOn s (clockSet time date s)))).sweep = ⟨[], none, .idle⟩ := by
    rw [endQuiet_eq, displayDue_lineOnly, closes]
    exact closeDayNow_sweep _ _
  refine ⟨?_, ?_, ?_, ?_, ?_⟩
  case refine_5 => exact ((settle_heard (Heard.refl _)).sweep_eq (by rw [idle]; nofun)).trans idle
  all_goals
    rw [clockSettled_day, closes, closeDayNow_day]
    rfl

/-- On the new date automatic opening finds the settings, the store and the calendar as they were. -/
theorem clockSettled_due (state : s.day.state ≠ .closed) (other : s.day.date ≠ some (date.getD s.time.date)) :
    dayTypeOf (clockSettled time date s).time.date (clockSettled time date s) = dayTypeOf (date.getD s.time.date) s ∧
      (OpeningDue (clockSettled time date s) ↔ s.settings.dayOpen ≤ time ∧ rollLoadUnderWay s = false) := by
  obtain ⟨closed, same, calendar, -, -⟩ := clockSettled_otherDate (time := time) state other
  have rest := clockSettled_clockRest (time := time) (date := date) (s := s)
  simp only [clockRest, Prod.mk.injEq] at rest
  obtain ⟨now, -, settings, -, store, -⟩ := rest
  have load : rollLoadUnderWay (clockSettled time date s) = rollLoadUnderWay s := rollLoad_congr store
  constructor
  · unfold dayTypeOf
    rw [calendar, settings, now]
    rfl
  · unfold OpeningDue
    rw [closed, same, now, settings, load]
    exact ⟨fun ⟨_, _, _, due⟩ => due, fun due => ⟨rfl, rfl, other, due⟩⟩

theorem afterSetClock_day : (afterSetClock time date s).day = (autoOpen (clockSettled time date s)).day := by
  rw [afterSetClock_lineOnly]

theorem afterSetClock_closes (state : s.day.state ≠ .closed) (other : s.day.date ≠ some (date.getD s.time.date)) :
    (afterSetClock time date s).day.closeCause = some .dateChange ∧ (afterSetClock time date s).sweep = ⟨[], none, .idle⟩ := by
  obtain ⟨-, -, -, cause, sweep⟩ := clockSettled_otherDate (time := time) state other
  rw [afterSetClock_day, autoOpen_closeCause, afterSetClock_lineOnly]
  exact ⟨cause, (autoOpen_sweep _).trans sweep⟩

/-- The new date's day begins opening where its conditions hold (R36). -/
theorem afterSetClock_opens {bank : Nat} (state : s.day.state ≠ .closed) (other : s.day.date ≠ some (date.getD s.time.date))
    (school : dayTypeOf (date.getD s.time.date) s = .school bank) (due : s.settings.dayOpen ≤ time)
    (load : rollLoadUnderWay s = false) :
    (afterSetClock time date s).day.state = .opening ∧ (afterSetClock time date s).day.date = some (date.getD s.time.date) ∧
      (afterSetClock time date s).day.bank = some bank := by
  obtain ⟨type, opens⟩ := clockSettled_due (time := time) state other
  have now : (clockSettled time date s).time = (clockSet time date s).time := congrArg (·.1) clockSettled_clockRest
  rw [afterSetClock_day, autoOpen_begins (type.trans school) (opens.2 ⟨due, load⟩)]
  refine ⟨rfl, ?_, rfl⟩
  show some (clockSettled time date s).time.date = _
  rw [now]
  rfl

/-- The day stays CLOSED where they do not. -/
theorem afterSetClock_stays (state : s.day.state ≠ .closed) (other : s.day.date ≠ some (date.getD s.time.date))
    (h : dayTypeOf (date.getD s.time.date) s = .closed ∨ time < s.settings.dayOpen ∨ rollLoadUnderWay s = true) :
    (afterSetClock time date s).day.state = .closed ∧ (afterSetClock time date s).day.date = s.day.date := by
  obtain ⟨closed, same, -⟩ := clockSettled_otherDate (time := time) state other
  obtain ⟨type, opens⟩ := clockSettled_due (time := time) state other
  rw [afterSetClock_day, autoOpen_stays]
  · exact ⟨closed, same⟩
  · rw [type, opens]
    refine h.imp_right ?_
    rintro (early | load) ⟨due, free⟩
    · exact Nat.not_lt.2 due early
    · rw [load] at free
      nomatch free

/-- An earlier time of the same date on an OPEN day (R32). -/
theorem afterSetClock_back (state : s.day.state = .open_) (same : s.day.date = some (date.getD s.time.date))
    (back : time < s.time.school) :
    (afterSetClock time date s).plan = s.plan ∧
      (afterSetClock time date s).day = { s.day with openingTime := s.day.openingTime.map (min time) } := by
  have lowered : handOn s (clockSet time date s) = lowerOpening (clockSet time date s) := handOn_back state same back
  have still : autoOpen (clockSettled time date s) = clockSettled time date s := by
    refine autoOpen_stays (.inr fun due => ?_)
    have closed := due.1
    rw [clockSettled_day, lowered] at closed
    exact nomatch state.symm.trans closed
  rw [afterSetClock_day, afterSetClock_lineOnly, still, clockSettled_day, lowered]
  refine ⟨clockSettled_plan.trans ?_, rfl⟩
  rw [lowered]
  rfl

end SetClock

/-- Settles O12: the Time Base written and handed on, then what a change of school time brings. -/
theorem setClockWritesTheTimeBase : Obligations.SetClockWritesTheTimeBase := by
  unfold Obligations.SetClockWritesTheTimeBase
  refine ⟨fun time date s held => refusedByItsChecks_of rfl held (setClock_answers time date s),
    fun time date s held ht hd hv => ?_⟩
  have rest := afterSetClock_clockRest (time := time) (date := date) (s := s)
  simp only [clockRest, Prod.mk.injEq] at rest
  obtain ⟨now, office, settings, limits, store, mutes, -⟩ := rest
  exact ⟨afterSetClock time date s, exec_taken rfl held (setClock_taken ht hd hv), now,
    fun state other => ⟨(afterSetClock_closes state other).1, (afterSetClock_closes state other).2,
      fun bank => afterSetClock_opens state other, afterSetClock_stays state other⟩,
    afterSetClock_back, fun _ => ⟨_, handOn_handedOn s (clockSet time date s), afterSetClock_eq⟩,
    office, settings, limits, store, mutes⟩

/-! ### The one-second advance (R27, R31) -/

theorem rollover_eq (s : State) : rollover s = nextDay s := by
  unfold rollover nextDay dateCount
  split <;> rfl

/-- Running time at its next whole second, school time as it was (R27). -/
def runningCounted (s : State) : State := { s with time := { s.time with running := (s.time.running / 100 + 1) * 100 } }

/-- School time one second later within the day (R27). -/
def schoolCounted (s : State) : State :=
  { runningCounted s with time := { (runningCounted s).time with school := s.time.school + 1 } }

theorem countSecond_eq (s : State) :
    countSecond s = if s.time.school + 1 < 86400 then schoolCounted s else nextDay (runningCounted s) := by
  unfold countSecond
  simp only [rollover_eq]
  rfl

theorem nextDay_time (s : State) :
    (nextDay s).time =
      if s.time.date + 1 < 36525 then { s.time with school := 0, date := s.time.date + 1 }
      else { s.time with school := 0, date := 0, valid := false } := by
  unfold nextDay
  split <;> rfl

/-- The Time Base after a second counted (R27, R31). -/
theorem countSecond_time (s : State) :
    (countSecond s).time.running = (s.time.running / 100 + 1) * 100 ∧
      (countSecond s).time.minutePulseLatch = s.time.minutePulseLatch ∧
      if s.time.school + 1 < 86400 then
        (countSecond s).time.school = s.time.school + 1 ∧ (countSecond s).time.date = s.time.date ∧
          (countSecond s).time.valid = s.time.valid
      else
        (countSecond s).time.school = 0 ∧
          if s.time.date + 1 < 36525 then
            (countSecond s).time.date = s.time.date + 1 ∧ (countSecond s).time.valid = s.time.valid
          else (countSecond s).time.date = 0 ∧ (countSecond s).time.valid = false := by
  rw [countSecond_eq]
  by_cases within : s.time.school + 1 < 86400
  · simp only [if_pos within]
    exact ⟨rfl, rfl, rfl, rfl, rfl⟩
  · simp only [if_neg within, nextDay_time]
    by_cases last : (runningCounted s).time.date + 1 < 36525
    · rw [if_pos last, if_pos (show s.time.date + 1 < 36525 from last)]
      exact ⟨rfl, rfl, rfl, rfl, rfl⟩
    · rw [if_neg last, if_neg (show ¬s.time.date + 1 < 36525 from last)]
      exact ⟨rfl, rfl, rfl, rfl, rfl⟩

/-- While the part is held the count goes on, and a quiet window that it passes ends (R158, R206). -/
theorem exec_secondAdvance_held {s : State} (held : s.power.held = true) (mark : s.power.retention = true) :
    exec .secondAdvance s = .next (endQuiet s (countSecond s)) := by
  show execSecondAdvance s = _
  unfold execSecondAdvance
  rw [if_pos held, if_pos mark]

theorem exec_secondAdvance {s : State} (held : s.power.held = false) : exec .secondAdvance s = .next (secondAdvance s) := by
  show execSecondAdvance s = _
  unfold execSecondAdvance
  rw [if_neg (by rw [held]; nofun)]

/-- A second within the day: the entries of the new second are taken on time (R58). -/
theorem secondAdvance_within {s : State} (h : s.time.school + 1 < 86400) :
    secondAdvance s = timePassed s (takeOnTime (schoolCounted s)) := by
  have counted : countSecond s = schoolCounted s := (countSecond_eq s).trans (if_pos h)
  unfold secondAdvance
  rw [afterTime_eq, counted]
  exact congrArg _ (if_pos h)

/-- The last second of the day: the rollover is handed on (R31, R32). -/
theorem secondAdvance_rollover {s : State} (h : 86400 ≤ s.time.school + 1) :
    secondAdvance s = timePassed s (handOn s (nextDay (runningCounted s))) := by
  have counted : countSecond s = nextDay (runningCounted s) := (countSecond_eq s).trans (if_neg (Nat.not_lt.2 h))
  unfold secondAdvance
  rw [afterTime_eq, counted]
  exact congrArg _ (if_neg (Nat.not_lt.2 h))

theorem secondAdvance_time (s : State) : (secondAdvance s).time = (countSecond s).time := by
  unfold secondAdvance
  rw [afterTime_time]
  split
  · exact takeOnTime_time _
  · exact handOn_time s _

/-- The Time Base after the advance, held or not. -/
theorem exec_secondAdvance_time {s : State} (h : s.power.held = false ∨ s.power.retention = true) :
    ∃ t, exec .secondAdvance s = .next t ∧ t.time = (countSecond s).time := by
  cases held : s.power.held with
  | false => exact ⟨_, exec_secondAdvance held, secondAdvance_time s⟩
  | true =>
    refine ⟨_, exec_secondAdvance_held held (h.resolve_left (by rw [held]; nofun)), ?_⟩
    rw [endQuiet_eq]

/-! ### The minute pulse (R30) -/

theorem minuteStart_eq (t : Nat) : t / 60 * 60 = t - t % 60 := by omega

/-- Only from 23:59:30 on does the next minute belong to the next day. -/
theorem nextMinute_lt_iff {t : Nat} (ht : t < 86400) (h : ¬t % 60 < 30) : t - t % 60 + 60 < 86400 ↔ t < 86370 := by omega

/-- School time at the nearest whole minute, nothing handed on yet (R30). -/
def nearestMinute (s : State) : State :=
  if s.time.school % 60 < 30 then { s with time := { s.time with school := s.time.school - s.time.school % 60 } }
  else if s.time.school - s.time.school % 60 + 60 < 86400 then
    { s with time := { s.time with school := s.time.school - s.time.school % 60 + 60 } }
  else nextDay s

theorem snap_none {s : State} (h : s.settings.minutePulse = false ∨ s.time.valid = false ∨ s.time.school % 60 = 0) :
    snap s = s := by
  refine if_pos ?_
  rw [Bool.or_eq_true, Bool.or_eq_true, Bool.not_eq_true', Bool.not_eq_true', decide_eq_true_eq, or_assoc]
  exact h

theorem snap_off {s : State} (on : s.settings.minutePulse = true) (valid : s.time.valid = true) (off : s.time.school % 60 ≠ 0) :
    snap s = afterTime s (handOn s (nearestMinute s)) := by
  unfold snap nearestMinute
  rw [if_neg (by simp [on, valid, off])]
  simp only [minuteStart_eq, rollover_eq]
  rfl

theorem snap_snapped (s : State) : Snapped s (snap s) :=
  ⟨snap_none, fun on valid off _ => ⟨_, handOn_handedOn s (nearestMinute s), by rw [snap_off on valid off, afterTime_eq]⟩⟩

/-- The Time Base at the nearest whole minute, where the clock is valid. -/
theorem nearestMinute_time {s : State} (ht : s.time.school < 86400) (hd : s.time.date < 36525) (valid : s.time.valid = true) :
    if s.time.school % 60 < 30 then
      (nearestMinute s).time = { s.time with school := s.time.school - s.time.school % 60 }
    else if s.time.school < 86370 then
      (nearestMinute s).time = { s.time with school := s.time.school - s.time.school % 60 + 60 }
    else
      (nearestMinute s).time =
        { s.time with school := 0, date := (s.time.date + 1) % 36525, valid := decide (s.time.date + 1 < 36525) } := by
  unfold nearestMinute
  by_cases back : s.time.school % 60 < 30
  · rw [if_pos back, if_pos back]
  · rw [if_neg back, if_neg back]
    by_cases within : s.time.school < 86370
    · rw [if_pos within, if_pos ((nextMinute_lt_iff ht back).2 within)]
    · rw [if_neg within, if_neg fun x => within ((nextMinute_lt_iff ht back).1 x), nextDay_time]
      by_cases last : s.time.date + 1 < 36525
      · rw [if_pos last, Nat.mod_eq_of_lt last, decide_eq_true last, ← valid]
      · have wraps : s.time.date + 1 = 36525 := Nat.le_antisymm hd (Nat.not_lt.1 last)
        rw [if_neg last, wraps]
        rfl

/-- Where the clock is valid and the setting ON, a snap leaves the pins and takes school time to the nearest minute. -/
theorem snap_pins_time {s : State} (on : s.settings.minutePulse = true) (valid : s.time.valid = true) :
    (snap s).pins = s.pins ∧ (snap s).time = (nearestMinute s).time := by
  by_cases off : s.time.school % 60 = 0
  · rw [snap_none (.inr (.inr off))]
    refine ⟨rfl, ?_⟩
    unfold nearestMinute
    rw [if_pos (by rw [off]; decide), off]
    rfl
  · have pins : (nearestMinute s).pins = s.pins := by
      unfold nearestMinute nextDay
      split
      · rfl
      · split
        · rfl
        · split <;> rfl
    have rest : clockRest (snap s) = clockRest (nearestMinute s) := by
      rw [snap_off on valid off, afterTime_clockRest, handOn_clockRest]
    simp only [clockRest, Prod.mk.injEq] at rest
    obtain ⟨time, -, -, -, -, -, -, level⟩ := rest
    exact ⟨level.trans pins, time⟩

/-- The latch and the level of the pin as an edge leaves them (R30). -/
def latched (level : Bool) (s : State) : State :=
  { s with time := { s.time with minutePulseLatch := level }, pins := { s.pins with minutePulse := level } }

theorem minutePulseEdge_eq (level : Bool) (s : State) :
    minutePulseEdge level s =
      if level = true ∧ s.time.minutePulseLatch = false then snap (latched level s) else latched level s := by
  unfold minutePulseEdge
  have rising : (level && !s.time.minutePulseLatch) = true ↔ level = true ∧ s.time.minutePulseLatch = false := by
    rw [Bool.and_eq_true, Bool.not_eq_true']
  simp only [rising]
  rfl

/-- An edge that snaps. -/
theorem minutePulseEdge_snaps {level : Bool} {s : State}
    (h : level = true ∧ s.time.minutePulseLatch = false ∧ s.settings.minutePulse = true ∧ s.time.valid = true) :
    (minutePulseEdge level s).pins = { s.pins with minutePulse := level } ∧
      (minutePulseEdge level s).time = (nearestMinute (latched level s)).time := by
  obtain ⟨rising, low, on, valid⟩ := h
  rw [minutePulseEdge_eq, if_pos ⟨rising, low⟩]
  exact snap_pins_time (s := latched level s) on valid

/-- An edge that is not rising, or that finds the setting OFF or the clock invalid, sets the latch alone. -/
theorem minutePulseEdge_latches {level : Bool} {s : State}
    (h : ¬(level = true ∧ s.time.minutePulseLatch = false ∧ s.settings.minutePulse = true ∧ s.time.valid = true)) :
    minutePulseEdge level s = latched level s := by
  rw [minutePulseEdge_eq]
  by_cases rising : level = true ∧ s.time.minutePulseLatch = false
  · rw [if_pos rising]
    refine snap_none ?_
    by_cases on : s.settings.minutePulse = true
    · exact .inr (.inl (Bool.eq_false_iff.2 fun valid => h ⟨rising.1, rising.2, on, valid⟩))
    · exact .inl (Bool.eq_false_iff.2 on)
  · rw [if_neg rising]

/-- The Time Base and the pin after an edge (R30). -/
theorem minutePulseEdge_time {level : Bool} {s : State} (ht : s.time.school < 86400) (hd : s.time.date < 36525) :
    let t := minutePulseEdge level s
    t.time.minutePulseLatch = level ∧ t.time.running = s.time.running ∧ t.pins = { s.pins with minutePulse := level } ∧
      (if level = true ∧ s.time.minutePulseLatch = false ∧ s.settings.minutePulse = true ∧ s.time.valid = true then
        if s.time.school % 60 < 30 then
          t.time.school = s.time.school - s.time.school % 60 ∧ t.time.date = s.time.date ∧ t.time.valid = true
        else if s.time.school < 86370 then
          t.time.school = s.time.school - s.time.school % 60 + 60 ∧ t.time.date = s.time.date ∧ t.time.valid = true
        else
          t.time.school = 0 ∧ t.time.date = (s.time.date + 1) % 36525 ∧ t.time.valid = decide (s.time.date + 1 < 36525)
      else t = { s with time := { s.time with minutePulseLatch := level }, pins := t.pins }) := by
  intro t
  by_cases snaps : level = true ∧ s.time.minutePulseLatch = false ∧ s.settings.minutePulse = true ∧ s.time.valid = true
  · obtain ⟨pins, time⟩ := minutePulseEdge_snaps snaps
    have valid := snaps.2.2.2
    have nearest := nearestMinute_time (s := latched level s) ht hd valid
    rw [← time] at nearest
    rw [if_pos snaps]
    change if s.time.school % 60 < 30 then t.time = _ else if s.time.school < 86370 then t.time = _ else t.time = _ at nearest
    by_cases back : s.time.school % 60 < 30
    · rw [if_pos back] at nearest ⊢
      rw [nearest]
      exact ⟨rfl, rfl, pins, rfl, rfl, valid⟩
    · rw [if_neg back] at nearest ⊢
      by_cases within : s.time.school < 86370
      · rw [if_pos within] at nearest ⊢
        rw [nearest]
        exact ⟨rfl, rfl, pins, rfl, rfl, valid⟩
      · rw [if_neg within] at nearest ⊢
        rw [nearest]
        exact ⟨rfl, rfl, pins, rfl, rfl, rfl⟩
  · have latches : t = latched level s := minutePulseEdge_latches snaps
    rw [if_neg snaps, latches]
    exact ⟨rfl, rfl, rfl, rfl⟩

/-- Settles O13: the second counted and what follows it, the hold, and the minute pulse. -/
theorem theTimeBaseCounts : Obligations.TheTimeBaseCounts := by
  unfold Obligations.TheTimeBaseCounts
  refine ⟨fun s h => ?_, fun s => ⟨fun held => ⟨fun within => ?_, fun last _ => ?_⟩, fun held mark => ?_⟩,
    fun level s held ht hd => ⟨minutePulseEdge level s, event_next held _, ?_⟩, snap_snapped, fun s held low => ?_⟩
  · obtain ⟨t, ht, time⟩ := exec_secondAdvance_time h
    have counted := countSecond_time s
    rw [← time] at counted
    exact ⟨t, ht, counted⟩
  · exact (exec_secondAdvance held).trans (congrArg _ (secondAdvance_within within))
  · exact ⟨_, handOn_handedOn s _, (exec_secondAdvance held).trans (congrArg _ (secondAdvance_rollover last))⟩
  · rw [exec_secondAdvance_held held mark, endQuiet_eq, countSecond_eq]
    rfl
  · obtain ⟨latch, running, pins, school⟩ := minutePulseEdge_time (level := level) ht hd
    exact ⟨latch, running, pins, school⟩
  · exact (event_next held _).trans (congrArg _ ((minutePulseEdge_eq true s).trans (if_pos ⟨rfl, low⟩)))

end Sys2Proof.Machine
end

