-- ==== Sys2Proof/Proofs/Reports.lean ====
section
/-! PROOF. The reports CLOCK (R29), DAY (R45), TERMINALS (R122), NOTICES (R175), INBOX's summary (R189), STATUS (R197), GET (R204) and
GET STORE (R205). -/

namespace Sys2Proof.Machine

/-! ### Refusals -/

theorem clockRead_answers (s : State) : Answers (checksOf .clock s) s (clockRead s) := .ok _ _

theorem dayRead_answers (start : Nat) (s : State) : Answers (checksOf (.day start) s) s (dayRead start s) := .ok _ _

theorem terminals_answers (start : Nat) (s : State) : Answers (checksOf (.terminals start) s) s (terminals start s) := .ok _ _

/-- The values that NOTICES does not take (R175). -/
theorem badNotices_iff {kind : Option (Option NoticeKind)} {slot : Option Slot} {start : Nat} :
    (!optOk Option.isSome kind || !optOk slotOk slot || decide (start < 1) || decide (65535 < start)) = true ↔
      kind = some none ∨ (∃ k, slot = some k ∧ 2048 ≤ k) ∨ start < 1 ∨ 65535 < start := by
  have slots : (!optOk slotOk slot) = true ↔ ∃ k, slot = some k ∧ 2048 ≤ k := by
    rw [not_iff_of_iff optOk_iff]
    simp only [slotOk_iff, not_forall, Nat.not_lt, exists_prop]
  rw [Bool.or_eq_true, Bool.or_eq_true, Bool.or_eq_true, not_iff_of_iff optOk_isSome_iff, not_not, slots, decide_eq_true_eq,
    decide_eq_true_eq, or_assoc, or_assoc]

theorem notices_answers (kind : Option (Option NoticeKind)) (slot : Option Slot) (start : Nat) (s : State) :
    Answers (checksOf (.notices kind slot start) s) s (notices kind slot start s) := .page badNotices_iff (.ok _ _)

theorem not_numberOk_iff {n : Nat} : ¬numberOk n = true ↔ n < 1 ∨ 65535 < n := by
  unfold numberOk
  rw [Bool.and_eq_true, decide_eq_true_eq, decide_eq_true_eq, not_and_or, Nat.not_le, Nat.not_le]

theorem not_optOk_numberOk_iff {start : Option Nat} :
    (!optOk numberOk start) = true ↔ ∃ n, start = some n ∧ (n < 1 ∨ 65535 < n) := by
  rw [not_iff_of_iff optOk_iff]
  simp only [not_forall, not_numberOk_iff, exists_prop]

theorem inboxSummary_answers (start : Option Nat) (s : State) :
    Answers (checksOf (.inbox (.summary start)) s) s (inbox (.summary start) s) := .page not_optOk_numberOk_iff (.ok _ _)

theorem status_answers (source : Option Nat) (s : State) : Answers (checksOf (.status source) s) s (status source s) := by
  cases source with
  | none => exact .passes (fun ⟨_, h, _⟩ => nomatch h) (.ok _ _)
  | some n => exact .page (by simp) (.ok _ _)

/-! ### GET -/

theorem zoneOk_iff {z : Nat} : zoneOk z = true ↔ 1 ≤ z ∧ z ≤ 6 := by
  unfold zoneOk
  rw [Bool.and_eq_true, decide_eq_true_eq, decide_eq_true_eq]

/-- A setting that exists, of a zone, group or input that exists, has a value (R204). -/
theorem readSetting_isSome {r : SettingRef} (known : r ≠ .unknown) (place : PlaceAllowed r) (s : Settings) (l : Limits) :
    ∃ v, readSetting r s l = some v := by
  cases r
  case unknown => exact absurd rfl known
  case zoneGroup z | relayPol z =>
    exact ⟨_, if_pos (zoneOk_iff.2 place)⟩
  case wakePol g | groupVolume g | ceiling g =>
    obtain ⟨g, rfl⟩ := Option.ne_none_iff_exists'.1 place
    exact ⟨_, rfl⟩
  case quietMask i | quietLevel i =>
    obtain ⟨i, rfl⟩ := Option.ne_none_iff_exists'.1 place
    exact ⟨_, rfl⟩
  all_goals exact ⟨_, rfl⟩

/-- A zone, group or input that does not exist has none. -/
theorem readSetting_none {r : SettingRef} (place : ¬PlaceAllowed r) (s : Settings) (l : Limits) : readSetting r s l = none := by
  cases r
  case zoneGroup z | relayPol z =>
    exact if_neg fun zone => place (zoneOk_iff.1 zone)
  case wakePol g | groupVolume g | ceiling g =>
    obtain rfl := not_not.1 place
    rfl
  case quietMask i | quietLevel i =>
    obtain rfl := not_not.1 place
    rfl
  all_goals exact absurd trivial place

theorem getValue_taken {r : SettingRef} {s : State} {v d : SettingValue} (hv : readSetting r s.settings s.limits = some v)
    (hd : readSetting r .default .default = some d) :
    getValue r s = (s, .ok (settingItems r ++ valueItems r v ++ valueItems r d)) := by
  have known : r ≠ .unknown := by
    rintro rfl
    nomatch hd
  unfold getValue
  rw [if_neg known, hv, hd]
  rfl

theorem getValue_answers (r : SettingRef) (s : State) :
    Answers [(r = .unknown, .noSuch), (¬PlaceAllowed r, .badValue)] s (getValue r s) := by
  refine .ite Iff.rfl fun known => ?_
  by_cases place : PlaceAllowed r
  · obtain ⟨v, hv⟩ := readSetting_isSome known place s.settings s.limits
    obtain ⟨d, hd⟩ := readSetting_isSome known place .default .default
    rw [hv, hd]
    exact .passes (not_not.2 place) (.ok _ _)
  · rw [readSetting_none place]
    exact .refused place

theorem getSetting_answers (target : GetTarget) (strap : Bool) (s : State) :
    Answers (checksOf (.getSetting target strap) s) (withStrap strap s) (getSetting target (withStrap strap s)) := by
  cases target with
  | setting r => exact getValue_answers r (withStrap strap s)
  | store => exact .ok _ _

/-! ### GET STORE -/

/-- The values of GET STORE, written out (R205). -/
theorem storeItems_eq (s : State) :
    storeItems s =
      (match s.store.operation with
        | none => [Item.word "IDLE"]
        | some o =>
          [.word (storeKindWord o.kind), .set ((allAreas.filter o.areas.contains).map areaNumber)] ++
            optItem "RUNNING" (fun a => .word (areaWord a)) o.rest.head?) ++
        [yesNo s.pins.install] ++
        match s.store.lastOperation with
        | none => []
        | some r =>
          .named "LAST" (.word (storeKindWord r.kind)) ::
              (allAreas.filterMap fun a =>
                (r.results.find? (·.1 = a)).map fun e => .named (areaTag a) (.word (resultWord e.2))) ++
            [.named "START" (.time r.start), .named "END" (.time r.finish)] := by
  unfold storeItems operationItems recordItems
  cases s.store.operation <;> cases s.store.lastOperation <;> rfl

/-! ### STATUS -/

theorem effectiveLevel_eq (n : Nat) (s : State) : effectiveLevel n s = levelInForce s n := by
  unfold effectiveLevel sourceEnable sourceLevel levelInForce fixedSource
  by_cases fixed : n < 2 <;> simp [fixed]

theorem sourcePending_iff {n : Nat} {s : State} (h : n < 14) : sourcePending n s = true ↔ SourcePending s n := by
  unfold sourcePending SourcePending
  rw [Bool.and_eq_true, decide_eq_true_eq, effectiveLevel_eq]
  exact (and_iff_right h).symm

/-- The top source of the first `k` (R197). -/
def TopOfFirst (k : Nat) (s : State) : Option Nat → Prop
  | none => ∀ n < k, ¬sourcePending n s = true
  | some n =>
    (n < k ∧ sourcePending n s = true) ∧
      ∀ m < k, sourcePending m s = true →
        effectiveLevel m s < effectiveLevel n s ∨ effectiveLevel m s = effectiveLevel n s ∧ n ≤ m

/-- One source more keeps the top one of those before it, or takes its place. -/
theorem TopOfFirst.next {k : Nat} {s : State} {best : Option Nat} (h : TopOfFirst k s best) :
    TopOfFirst (k + 1) s (topOf s best k) := by
  have before {m : Nat} (hm : m < k + 1) : m < k ∨ m = k := Nat.lt_succ_iff_lt_or_eq.1 hm
  unfold topOf
  by_cases pending : sourcePending k s = true
  · rw [if_pos pending]
    cases best with
    | none =>
      refine ⟨⟨Nat.lt_succ_self k, pending⟩, fun m hm hp => ?_⟩
      obtain hm | rfl := before hm
      · exact absurd hp (h m hm)
      · exact .inr ⟨rfl, Nat.le_refl m⟩
    | some n =>
      obtain ⟨⟨hn, top⟩, above⟩ := h
      dsimp only
      by_cases higher : effectiveLevel n s < effectiveLevel k s
      · rw [if_pos higher]
        refine ⟨⟨Nat.lt_succ_self k, pending⟩, fun m hm hp => ?_⟩
        obtain hm | rfl := before hm
        · obtain lower | ⟨equal, _⟩ := above m hm hp
          · exact .inl (Nat.lt_trans lower higher)
          · exact .inl (equal ▸ higher)
        · exact .inr ⟨rfl, Nat.le_refl m⟩
      · rw [if_neg higher]
        refine ⟨⟨Nat.lt_succ_of_lt hn, top⟩, fun m hm hp => ?_⟩
        obtain hm | rfl := before hm
        · exact above m hm hp
        · exact (Nat.lt_or_eq_of_le (Nat.not_lt.1 higher)).imp_right fun equal => ⟨equal, Nat.le_of_lt hn⟩
  · rw [if_neg pending]
    cases best with
    | none =>
      intro m hm
      obtain hm | rfl := before hm
      · exact h m hm
      · exact pending
    | some n =>
      obtain ⟨⟨hn, top⟩, above⟩ := h
      refine ⟨⟨Nat.lt_succ_of_lt hn, top⟩, fun m hm hp => ?_⟩
      obtain hm | rfl := before hm
      · exact above m hm hp
      · exact absurd hp pending

theorem topOfFirst_foldl (s : State) (k : Nat) : TopOfFirst k s ((List.range k).foldl (topOf s) none) := by
  induction k with
  | zero => exact fun n hn => absurd hn (Nat.not_lt_zero n)
  | succ k ih =>
    rw [List.range_succ, List.foldl_append]
    exact ih.next

theorem topSource_top (s : State) : TopSource s (topSource s) := by
  have top : TopOfFirst 14 s (topSource s) := topOfFirst_foldl s 14
  cases h : topSource s with
  | none =>
    rw [h] at top
    exact fun n pending => top n pending.1 ((sourcePending_iff pending.1).2 pending)
  | some n =>
    rw [h] at top
    obtain ⟨⟨hn, pending⟩, above⟩ := top
    simp only [effectiveLevel_eq] at above
    exact ⟨(sourcePending_iff hn).1 pending, fun m hm => above m hm.1 ((sourcePending_iff hm.1).2 hm)⟩

/-- There is one top source. -/
theorem TopSource.unique {s : State} {a b : Option Nat} (ha : TopSource s a) (hb : TopSource s b) : a = b := by
  match a, b, ha, hb with
  | none, none, _, _ => rfl
  | none, some n, ha, ⟨pending, _⟩ => exact absurd pending (ha n)
  | some n, none, ⟨pending, _⟩, hb => exact absurd pending (hb n)
  | some n, some m, ⟨pn, above⟩, ⟨pm, above'⟩ =>
    have h := above m pm
    have h' := above' n pn
    exact congrArg some (by omega)

/-- What the entries that fail a test add nothing to is the list of those that pass it. -/
theorem flatMap_ite_eq_filter {α β : Type} (p : α → Bool) (f : α → List β) (l : List α) :
    l.flatMap (fun a => if p a then f a else []) = (l.filter p).flatMap f := by
  induction l with
  | nil => rfl
  | cons a t ih =>
    rw [List.flatMap_cons, ih, List.filter_cons]
    by_cases h : p a = true <;> simp [h]

theorem status_all {s : State} {top : Option Nat} (h : TopSource s top) :
    status none s =
      (s,
        .ok
          ((match top with
              | none => [Item.word "NONE"]
              | some n =>
                [.num n, .word (sourceName n), .num (levelInForce s n), .num (sourceAt n s).count] ++
                  subjectItems (sourceAt n s).subject) ++
            ((List.range 14).filter fun n => (sourceAt n s).flag).flatMap (fun n => [.num n, .num (sourceAt n s).count]) ++
            [.num s.settings.floor, yesNo (attnActive s), .num s.office.overrun, .word (startWord s.power.lastStart)])) := by
  have flagged :=
    flatMap_ite_eq_filter (fun n => (sourceAt n s).flag) (fun n => [Item.num n, .num (sourceAt n s).count]) (List.range 14)
  unfold status topItems flaggedItems
  rw [TopSource.unique (topSource_top s) h]
  dsimp only
  rw [flagged]
  cases top with
  | none => rfl
  | some n =>
    simp only [effectiveLevel_eq]
    rfl

theorem status_one {n : Nat} (h : n < 14) (s : State) :
    status (some n) s =
      (s,
        .ok
          ([.num n, .word (sourceName n), yesNo (sourceAt n s).flag, .num (sourceAt n s).count] ++
            subjectItems (sourceAt n s).subject ++
            [onOff (n < 2 || s.settings.enables.getD n true),
              .num (if n < 2 then 8 else s.settings.levels.getD n 0), .num (levelInForce s n)])) := by
  have level : sourceLevel n s = if n < 2 then 8 else s.settings.levels.getD n 0 := by
    unfold sourceLevel fixedSource
    simp only [decide_eq_true_eq]
  refine (if_neg (Nat.not_le.2 h)).trans ?_
  rw [level, effectiveLevel_eq]
  rfl

/-! ### NOTICES and INBOX -/

/-- NOTICES where its check does not hold. -/
theorem notices_taken {kind : Option NoticeKind} {slot : Option Slot} {start : Nat} (hs : ∀ k, slot = some k → k < 2048)
    (h1 : 1 ≤ start) (h2 : start ≤ 65535) (s : State) :
    notices (kind.map some) slot start s =
      okWith
        (pageItems 8 (noticesHead s) noticeItems (nextNumber (·.number))
          (byNumber (s.notices.queue.filter fun n =>
            start ≤ n.number && kind.all (· = n.kind) && slot.all fun k => noticeMatchesSlot k s n)))
        s := by
  have passes : ¬(kind.map some = some none ∨ (∃ k, slot = some k ∧ 2048 ≤ k) ∨ start < 1 ∨ 65535 < start) := by
    rintro (h | ⟨k, hk, h⟩ | h | h)
    · cases kind <;> nomatch h
    · exact Nat.not_lt.2 h (hs k hk)
    · exact Nat.not_lt.2 h1 h
    · exact Nat.not_lt.2 h2 h
  refine (if_neg fun h => passes (badNotices_iff.1 h)).trans ?_
  cases kind with
  | none => rfl
  | some kind => simp only [Option.map_some, Option.all_some, Option.some.injEq]

/-- INBOX's summary where its check does not hold. -/
theorem inboxSummary_taken {start : Option Nat} (h : ∀ n, start = some n → 1 ≤ n ∧ n ≤ 65535) (s : State) :
    inbox (.summary start) s =
      okWith
        (pageItems 8 (inboxHead s) messageItems (nextNumber (·.number))
          ((s.gateway.inbox.foldr placeMessage []).filter fun m => start.getD 1 ≤ m.number))
        s := by
  refine if_neg fun bad => ?_
  obtain ⟨n, hn, out⟩ := not_optOk_numberOk_iff.1 bad
  obtain ⟨low, high⟩ := h n hn
  exact out.elim (Nat.not_lt.2 low) (Nat.not_lt.2 high)

/-! ### The reports -/

/-- Settles O45: the checks, then the reply of each report, which leaves the state as it is. -/
theorem reportsChangeNothing : Obligations.ReportsChangeNothing := by
  unfold Obligations.ReportsChangeNothing
  refine fun s held => ⟨⟨?_, fun start => ?_, fun start => ?_, fun kind slot start => ?_, fun start => ?_, fun source => ?_,
    fun target strap => ?_⟩, ?_, fun start => ?_, fun start => ?_, fun kind slot start hs h1 h2 => ?_, fun start h => ?_,
    fun top h => ?_, ⟨topSource s, topSource_top s⟩, fun n hn => ?_, fun r strap v d hv hd => ?_,
    fun strap => ⟨?_, fun times => ?_⟩⟩
  · exact refusedByItsChecks_of rfl held (clockRead_answers s)
  · exact refusedByItsChecks_of rfl held (dayRead_answers start s)
  · exact refusedByItsChecks_of rfl held (terminals_answers start s)
  · exact refusedByItsChecks_of rfl held (notices_answers kind slot start s)
  · exact refusedByItsChecks_of rfl held (inboxSummary_answers start s)
  · exact refusedByItsChecks_of rfl held (status_answers source s)
  · exact refusedByItsChecks_of rfl held (getSetting_answers target strap s)
  · exact exec_taken rfl held rfl
  · exact exec_taken rfl held rfl
  · exact exec_taken rfl held rfl
  · exact exec_page (f := notices (kind.map some) slot start) rfl held (notices_taken hs h1 h2 s)
  · exact exec_page (f := inbox (.summary start)) rfl held (inboxSummary_taken h s)
  · exact exec_taken rfl held (status_all h)
  · exact exec_taken rfl held (status_one hn s)
  · exact exec_taken rfl held (getValue_taken (s := withStrap strap s) hv hd)
  · exact exec_taken rfl held (congrArg (fun l => (withStrap strap s, Reply.ok l)) (storeItems_eq (withStrap strap s)))
  · have whole := storeItems_fits (withStrap strap s) times
    rw [storeItems_eq] at whole
    exact whole

end Sys2Proof.Machine
end

