-- ==== Sys2Proof/Proofs/PlanBanks.lean ====
section
/-! PROOF. The Plan Banks' requests: ENTRYPUT, ENTRYDROP and BANKCLEAR (R51–R53) and HEADER (R54). -/

namespace Sys2Proof.Machine

/-! ### The entry given -/

theorem setWithin_eq (lo hi : Nat) (l : List Nat) : setWithin lo hi l = (List.range' lo (hi + 1 - lo)).filter (· ∈ l) :=
  List.filter_congr fun _ _ => List.contains_eq_mem _ _

theorem maskOk_iff {lo hi : Nat} {l : List Nat} : maskOk lo hi l = true ↔ l ≠ [] ∧ ∀ x ∈ l, lo ≤ x ∧ x ≤ hi := by
  simp [maskOk, setInRange]

/-- A mask of cohorts that a request gives. -/
def MaskGiven (given : Option (List Nat)) (mask : List Nat) : Prop :=
  ∃ cohorts, given = some cohorts ∧ cohorts ≠ [] ∧ (∀ c ∈ cohorts, c ≤ 7) ∧ mask = (List.range 8).filter (· ∈ cohorts)

theorem maskGiven_iff {given : Option (List Nat)} {mask : List Nat} :
    MaskGiven given mask ↔ ∃ cohorts, given = some cohorts ∧ maskOk 0 7 cohorts = true ∧ setWithin 0 7 cohorts = mask := by
  simp only [MaskGiven, maskOk_iff, setWithin_eq, Nat.zero_le, true_and, List.range_eq_range', and_assoc]
  simp only [@eq_comm _ mask]

/-- The roll part that a request gives, with the fields of its kind and no other (R51). -/
def RollGiven (a : EntryPutArgs) : RollPart → Prop
  | .chime => a.kind = some .chime ∧ a.cohorts = none ∧ a.grace = none ∧ a.hold = none
  | .registration m grace =>
    a.kind = some .registration ∧ MaskGiven a.cohorts m ∧ a.grace = some grace ∧ grace ≤ 30 ∧ a.hold = none
  | .absenceCut m => a.kind = some .absenceCut ∧ MaskGiven a.cohorts m ∧ a.grace = none ∧ a.hold = none
  | .noticeDeadline => a.kind = some .noticeDeadline ∧ a.cohorts = none ∧ a.grace = none ∧ a.hold = none
  | .noticeHold minutes =>
    a.kind = some .noticeHold ∧ a.cohorts = none ∧ a.grace = none ∧ a.hold = some minutes ∧ 1 ≤ minutes ∧ minutes ≤ 240
  | .dayClose => a.kind = some .dayClose ∧ a.cohorts = none ∧ a.grace = none ∧ a.hold = none

/-- The roll part read is one given. -/
theorem rollGiven_of_rollOf {a : EntryPutArgs} {r : RollPart} (h : rollOf a = some r) : RollGiven a r := by
  unfold rollOf at h
  split at h
  case h_1 kind cohorts grace hold => cases h; exact ⟨kind, cohorts, grace, hold⟩
  case h_2 c g kind cohorts grace hold =>
    split at h
    · rename_i ok
      cases h
      exact ⟨kind, maskGiven_iff.2 ⟨c, cohorts, ok.1, rfl⟩, grace, ok.2, hold⟩
    · cases h
  case h_3 c kind cohorts grace hold =>
    split at h
    · rename_i ok
      cases h
      exact ⟨kind, maskGiven_iff.2 ⟨c, cohorts, ok, rfl⟩, grace, hold⟩
    · cases h
  case h_4 kind cohorts grace hold => cases h; exact ⟨kind, cohorts, grace, hold⟩
  case h_5 m kind cohorts grace hold =>
    split at h
    · rename_i ok
      cases h
      exact ⟨kind, cohorts, grace, hold, ok.1, ok.2⟩
    · cases h
  case h_6 kind cohorts grace hold => cases h; exact ⟨kind, cohorts, grace, hold⟩
  case h_7 => cases h

/-- A roll part given is the one read. -/
theorem rollOf_of_rollGiven {a : EntryPutArgs} {r : RollPart} (h : RollGiven a r) : rollOf a = some r := by
  unfold rollOf
  cases r with
  | chime =>
    obtain ⟨kind, cohorts, grace, hold⟩ := h
    rw [kind, cohorts, grace, hold]
  | registration m g =>
    obtain ⟨kind, mask, grace, range, hold⟩ := h
    obtain ⟨c, cohorts, ok, rfl⟩ := maskGiven_iff.1 mask
    rw [kind, cohorts, grace, hold]
    exact if_pos ⟨ok, range⟩
  | absenceCut m =>
    obtain ⟨kind, mask, grace, hold⟩ := h
    obtain ⟨c, cohorts, ok, rfl⟩ := maskGiven_iff.1 mask
    rw [kind, cohorts, grace, hold]
    exact if_pos ok
  | noticeDeadline =>
    obtain ⟨kind, cohorts, grace, hold⟩ := h
    rw [kind, cohorts, grace, hold]
  | noticeHold m =>
    obtain ⟨kind, cohorts, grace, hold, low, high⟩ := h
    rw [kind, cohorts, grace, hold]
    exact if_pos ⟨low, high⟩
  | dayClose =>
    obtain ⟨kind, cohorts, grace, hold⟩ := h
    rw [kind, cohorts, grace, hold]

theorem rollOf_iff {a : EntryPutArgs} {r : RollPart} : rollOf a = some r ↔ RollGiven a r :=
  ⟨rollGiven_of_rollOf, rollOf_of_rollGiven⟩

/-- The chime part that a request gives, or that it gives none (R51). -/
def ChimeGiven (a : EntryPutArgs) : Option ChimePart → Prop
  | none => a.pattern = none ∧ a.zones = none ∧ a.priority = none
  | some c =>
    a.pattern = some c.pattern ∧ c.pattern < 32 ∧ a.priority = some c.priority ∧ 1 ≤ c.priority ∧ c.priority ≤ 15 ∧
      ∃ zones, a.zones = some zones ∧ zones ≠ [] ∧ (∀ z ∈ zones, 1 ≤ z ∧ z ≤ 6) ∧
        c.zones = (List.range' 1 6).filter (· ∈ zones)

theorem chimeOf_iff {a : EntryPutArgs} {c : Option ChimePart} : chimeOf a = some c ↔ ChimeGiven a c := by
  constructor
  · intro h
    unfold chimeOf at h
    split at h
    case h_1 pattern zones priority => cases h; exact ⟨pattern, zones, priority⟩
    case h_2 p z n pattern zones priority =>
      split at h
      · rename_i ok
        obtain ⟨low, mask, one, high⟩ := ok
        obtain ⟨some_, range⟩ := maskOk_iff.1 mask
        cases h
        exact ⟨pattern, low, priority, one, high, z, zones, some_, range, setWithin_eq 1 6 z⟩
      · cases h
    case h_3 => cases h
  · intro h
    unfold chimeOf
    cases c with
    | none =>
      obtain ⟨pattern, zones, priority⟩ := h
      rw [pattern, zones, priority]
    | some c =>
      obtain ⟨pattern, low, priority, one, high, z, zones, some_, range, taken⟩ := h
      rw [pattern, zones, priority]
      refine (if_pos ⟨low, maskOk_iff.2 ⟨some_, range⟩, one, high⟩).trans ?_
      rw [setWithin_eq, ← taken]

/-- The parts of an entry given: its chime part, without which it is of another kind than CHIME, and its roll part. -/
theorem entryGiven_parts {a : EntryPutArgs} {t : SchoolTime} {r : RollPart} :
    (EntryGiven a ⟨t, r, none⟩ ↔
        a.amiss = false ∧ a.bank < 4 ∧ a.time < 86400 ∧ t = a.time ∧
          (a.pattern = none ∧ a.zones = none ∧ a.priority = none ∧ r ≠ .chime) ∧ RollGiven a r) ∧
      ∀ c, EntryGiven a ⟨t, r, some c⟩ ↔
        a.amiss = false ∧ a.bank < 4 ∧ a.time < 86400 ∧ t = a.time ∧ ChimeGiven a (some c) ∧ RollGiven a r := by
  cases r <;> exact ⟨Iff.rfl, fun _ => Iff.rfl⟩

theorem entryGiven_iff {a : EntryPutArgs} {e : BankEntry} :
    EntryGiven a e ↔
      (a.amiss = false ∧ a.bank < 4 ∧ a.time < 86400) ∧ e.time = a.time ∧ RollGiven a e.roll ∧ ChimeGiven a e.chime ∧
        ¬(e.roll = .chime ∧ e.chime = none) := by
  obtain ⟨t, r, c⟩ := e
  cases c with
  | none =>
    rw [entryGiven_parts.1]
    simp only [ChimeGiven]
    tauto
  | some c =>
    rw [entryGiven_parts.2]
    simp only [reduceCtorEq, and_false, not_false_eq_true, and_true]
    tauto

theorem badEntry_iff {a : EntryPutArgs} :
    (a.amiss || !bankOk a.bank || !timeOk a.time) = true ↔ ¬(a.amiss = false ∧ a.bank < 4 ∧ a.time < 86400) := by
  rw [Bool.or_eq_true, Bool.or_eq_true, not_bankOk_iff, not_iff_of_iff timeOk_iff, ← Bool.not_eq_false, ← Nat.not_lt]
  tauto

/-- The entry that ENTRYPUT reads is the one given. -/
theorem entryOf_iff {a : EntryPutArgs} {e : BankEntry} : entryOf a = some e ↔ EntryGiven a e := by
  rw [entryGiven_iff]
  constructor
  · intro h
    unfold entryOf at h
    split at h
    · cases h
    · rename_i range
      rw [badEntry_iff, not_not] at range
      split at h
      · rename_i r c roll chime
        split at h
        · cases h
        · rename_i parts
          cases h
          exact ⟨range, rfl, rollOf_iff.1 roll, chimeOf_iff.1 chime, parts⟩
      · cases h
  · rintro ⟨range, time, roll, chime, parts⟩
    unfold entryOf
    rw [if_neg (fun h => badEntry_iff.1 h range), rollOf_iff.2 roll, chimeOf_iff.2 chime]
    refine (if_neg parts).trans ?_
    rw [← time]

/-- A request gives one entry at most. -/
theorem entryGiven_unique {a : EntryPutArgs} {e x : BankEntry} (h : EntryGiven a e) (g : EntryGiven a x) : x = e :=
  Option.some.inj ((entryOf_iff.2 g).symm.trans (entryOf_iff.2 h))

theorem entryOf_eq_none_iff {a : EntryPutArgs} : entryOf a = none ↔ ∀ e, ¬EntryGiven a e := by
  simp only [Option.eq_none_iff_forall_ne_some, ← entryOf_iff, ne_eq]

/-! ### Banks -/

theorem bankAt_of {n : Nat} {b : Bank} {s : State} (h : s.plan.banks[n]? = some b) : bankAt n s = b := by
  unfold bankAt
  rw [List.getD_eq_getElem?_getD, h, Option.getD_some]

/-- A bank that is there, changed. -/
theorem modifyBank_eq {n : Nat} {b : Bank} {s : State} (h : s.plan.banks[n]? = some b) (f : Bank → Bank) :
    modifyBank n f s = { s with plan := { s.plan with banks := s.plan.banks.set n (f b) } } := by
  unfold modifyBank
  rw [List.modify_eq_set_getElem?, h]
  rfl

/-- The place of a new entry parts a bank's entries: those at or before its time stand before it, and a later one
follows (R52). -/
theorem entryPosition_parts (time : SchoolTime) (l : List BankEntry) :
    (l.take (entryPosition time l)).length = entryPosition time l ∧ (∀ x ∈ l.take (entryPosition time l), x.time ≤ time) ∧
      ∀ x, (l.drop (entryPosition time l)).head? = some x → time < x.time := by
  let early : BankEntry → Bool := fun x => decide (x.time ≤ time)
  have whole : l.takeWhile early ++ l.dropWhile early = l := List.takeWhile_append_dropWhile
  have take : l.take (entryPosition time l) = l.takeWhile early := by
    have left : (l.takeWhile early ++ l.dropWhile early).take (entryPosition time l) = _ := List.take_left
    rwa [whole] at left
  have drop : l.drop (entryPosition time l) = l.dropWhile early := by
    have right : (l.takeWhile early ++ l.dropWhile early).drop (entryPosition time l) = _ := List.drop_left
    rwa [whole] at right
  rw [take, drop]
  refine ⟨rfl, fun x hx => ?_, fun x hx => ?_⟩
  · simpa [early] using List.mem_takeWhile_imp hx
  · have late := List.head?_dropWhile_not early l
    rw [hx] at late
    simpa [early] using late

/-! ### ENTRYPUT, ENTRYDROP and BANKCLEAR -/

theorem overrideEntry_iff {a : EntryPutArgs} {e : BankEntry} {s : State} (h : EntryGiven a e) :
    (e.isOverride && !s.limits.override) = true ↔
      ∃ x c, EntryGiven a x ∧ x.chime = some c ∧ 12 ≤ c.priority ∧ s.limits.override = false := by
  have here : e.isOverride = true ↔ ∃ c, e.chime = some c ∧ 12 ≤ c.priority := by
    unfold BankEntry.isOverride
    rw [Option.any_eq_true]
    exact exists_congr fun _ => and_congr_right fun _ => decide_eq_true_iff
  rw [Bool.and_eq_true, here, Bool.not_eq_true']
  constructor
  · rintro ⟨⟨c, chime, high⟩, limit⟩
    exact ⟨e, c, h, chime, high, limit⟩
  · rintro ⟨x, c, given, chime, high, limit⟩
    obtain rfl := entryGiven_unique h given
    exact ⟨⟨c, chime, high⟩, limit⟩

theorem entryPut_answers (a : EntryPutArgs) (s : State) : Answers (checksOf (.entryPut a) s) s (entryPut a s) := by
  refine .ite Iff.rfl fun _ => ?_
  cases read : entryOf a with
  | none => exact .refused (entryOf_eq_none_iff.1 read)
  | some e =>
    have given := entryOf_iff.1 read
    exact .passes (fun h => h e given) (.ite (overrideEntry_iff given) fun _ => .ite Iff.rfl fun _ => .ok _ _)

theorem entryDrop_answers (bank position : Nat) (s : State) :
    Answers (checksOf (.entryDrop bank position) s) s (entryDrop bank position s) :=
  .ite Iff.rfl fun _ => .ite not_bankOk_iff fun _ => .ite Iff.rfl fun _ => .ok _ _

theorem bankClear_answers (bank : Nat) (s : State) : Answers (checksOf (.bankClear bank) s) s (bankClear bank s) :=
  .ite Iff.rfl fun _ => .ite not_bankOk_iff fun _ => .ok _ _

/-- A bank's entries with one placed among them as R52 says. -/
def entriesWith (e : BankEntry) (l : List BankEntry) : List BankEntry :=
  l.take (entryPosition e.time l) ++ e :: l.drop (entryPosition e.time l)

section Taken

variable {bank : Nat} {b : Bank} {s : State}

/-- ENTRYPUT where none of its checks holds. -/
theorem entryPut_taken {a : EntryPutArgs} {e : BankEntry} (free : storeHolds .plans s = false) (given : EntryGiven a e)
    (hb : s.plan.banks[a.bank]? = some b) (permitted : s.limits.override = true ∨ ∀ c, e.chime = some c → c.priority < 12)
    (room : b.entries.length < 96) :
    entryPut a s =
      ({ s with plan := { s.plan with banks := s.plan.banks.set a.bank { b with entries := entriesWith e b.entries } } },
        .ok [.num (entryPosition e.time b.entries)]) := by
  unfold entryPut
  rw [if_neg (by rw [free]; nofun), entryOf_iff.2 given]
  dsimp only
  rw [bankAt_of hb, if_neg, if_neg (show ¬bankLimit ≤ _ from Nat.not_le.2 room), modifyBank_eq hb]
  · rfl
  · rw [overrideEntry_iff given]
    rintro ⟨x, c, given', chime, high, limit⟩
    obtain rfl := entryGiven_unique given given'
    exact permitted.elim (fun h => nomatch h.symm.trans limit) fun h => Nat.not_le.2 (h c chime) high

/-- ENTRYDROP where none of its checks holds. -/
theorem entryDrop_taken {position : Nat} (free : storeHolds .plans s = false) (range : bank < 4)
    (hb : s.plan.banks[bank]? = some b) (there : position < b.entries.length) :
    entryDrop bank position s =
      ({ s with plan := { s.plan with banks := s.plan.banks.set bank { b with entries := b.entries.eraseIdx position } } },
        .ok []) := by
  unfold entryDrop
  rw [if_neg (by rw [free]; nofun), if_neg (fun h => Nat.not_lt.2 (not_bankOk_iff.1 h) range), bankAt_of hb,
    if_neg (Nat.not_le.2 there), modifyBank_eq hb]

/-- BANKCLEAR where neither of its checks holds. -/
theorem bankClear_taken (free : storeHolds .plans s = false) (range : bank < 4) (hb : s.plan.banks[bank]? = some b) :
    bankClear bank s =
      ({ s with plan := { s.plan with banks := s.plan.banks.set bank { b with entries := [] } } },
        .ok [.num b.entries.length]) := by
  unfold bankClear
  rw [if_neg (by rw [free]; nofun), if_neg (fun h => Nat.not_lt.2 (not_bankOk_iff.1 h) range), bankAt_of hb, modifyBank_eq hb]

end Taken

/-- Settles O19: the entry given as it is read, and the bank with the entry in its place, without it, and emptied. -/
theorem bankEntriesArePutAndRemoved : Obligations.BankEntriesArePutAndRemoved := by
  unfold Obligations.BankEntriesArePutAndRemoved
  refine ⟨fun s held => ⟨fun a => refusedByItsChecks_of rfl held (entryPut_answers a s),
      fun bank position => refusedByItsChecks_of rfl held (entryDrop_answers bank position s),
      fun bank => refusedByItsChecks_of rfl held (bankClear_answers bank s)⟩,
    fun a e b s held free given hb permitted room => ?_,
    fun bank b s held free range hb => ⟨fun position there => exec_taken rfl held (entryDrop_taken free range hb there),
      exec_taken rfl held (bankClear_taken free range hb)⟩⟩
  obtain ⟨place, before, after⟩ := entryPosition_parts e.time b.entries
  have put := exec_taken (c := .entryPut a) rfl held (entryPut_taken free given hb permitted room)
  rw [← place] at put
  refine ⟨_, _, _, put, rfl, (List.take_append_drop _ _).symm, ?_, fun k other => ?_, before, after⟩
  · exact List.getElem?_set_self (List.getElem?_eq_some_iff.1 hb).1
  · exact List.getElem?_set_ne (Ne.symm other)

/-! ### HEADER -/

/-- The characters of a name (R54). -/
theorem isNameChar_iff (c : Byte) :
    isNameChar c = true ↔
      (48 ≤ c.toNat ∧ c.toNat ≤ 57) ∨ (65 ≤ c.toNat ∧ c.toNat ≤ 90) ∨ (97 ≤ c.toNat ∧ c.toNat ≤ 122) ∨ c = 0x20#8 ∨
        c = 0x2D#8 ∨ c = 0x2E#8 := by
  have range (lo hi : Char) : between lo hi c = true ↔ lo.toNat ≤ c.toNat ∧ c.toNat ≤ hi.toNat := by
    unfold between
    rw [Bool.and_eq_true, decide_eq_true_eq, decide_eq_true_eq]
  unfold isNameChar isUpper isDigit
  simp only [Bool.or_eq_true, range, beq_iff_eq]
  change ((((65 ≤ c.toNat ∧ c.toNat ≤ 90 ∨ 97 ≤ c.toNat ∧ c.toNat ≤ 122) ∨ 48 ≤ c.toNat ∧ c.toNat ≤ 57) ∨ c = 0x20#8) ∨
    c = 0x2D#8) ∨ c = 0x2E#8 ↔ _
  tauto

/-- A bank or a name that HEADER does not take. -/
theorem badHeader_iff {bank : Nat} {name : Text} :
    (!bankOk bank || !nameOk name) = true ↔ 4 ≤ bank ∨ 12 < name.length ∨ ∃ c ∈ name, isNameChar c = false := by
  have ok : nameOk name = true ↔ name.length ≤ 12 ∧ ∀ c ∈ name, isNameChar c = true := by
    unfold nameOk
    rw [Bool.and_eq_true, decide_eq_true_eq, List.all_eq_true]
  rw [Bool.or_eq_true, not_bankOk_iff, not_iff_of_iff ok, Classical.not_and_iff_not_or_not, Nat.not_le]
  simp only [not_forall, Bool.not_eq_true, exists_prop]

theorem header_answers (bank : Nat) (write : Option (Text × Option Select)) (s : State) :
    Answers (checksOf (.header bank write) s) s (header bank write s) := by
  match write with
  | none => exact .ite not_bankOk_iff fun _ => .ok _ _
  | some (name, none) =>
    refine .ite Iff.rfl fun _ => ?_
    show Answers _ s (if _ then refuse .badValue s else refuse .badValue s)
    rw [ite_self]
    exact .refused (.inr (.inr (.inr rfl)))
  | some (name, some t) =>
    have bad : (!bankOk bank || !nameOk name) = true ↔
        4 ≤ bank ∨ 12 < name.length ∨ (∃ c ∈ name, isNameChar c = false) ∨ some t = none := by
      rw [badHeader_iff]
      simp only [reduceCtorEq, or_false]
    exact .ite Iff.rfl fun _ => .ite bad fun _ => .ok _ _

/-- HEADER's read form of a bank that is there. -/
theorem header_read {bank : Nat} {b : Bank} {s : State} (range : bank < 4) (hb : s.plan.banks[bank]? = some b) :
    header bank none s = okWith [.num bank, .quoted b.name, .word (selectWord b.select), .num b.entries.length] s := by
  refine (if_neg fun h => Nat.not_lt.2 (not_bankOk_iff.1 h) range).trans ?_
  rw [bankAt_of hb]

/-- HEADER's write form where neither of its checks holds. -/
theorem header_written {bank : Nat} {name : Text} {select : Select} {b : Bank} {s : State} (free : storeHolds .plans s = false)
    (range : bank < 4) (short : name.length ≤ 12) (chars : ∀ c ∈ name, isNameChar c = true) (hb : s.plan.banks[bank]? = some b) :
    header bank (some (name, some select)) s =
      ({ s with plan := { s.plan with banks := s.plan.banks.set bank { b with name := name, select := select } } }, .ok []) := by
  have good : ¬(!bankOk bank || !nameOk name) = true := by
    rw [badHeader_iff]
    rintro (h | h | ⟨c, hc, h⟩)
    · exact Nat.not_lt.2 h range
    · exact Nat.not_lt.2 short h
    · exact nomatch (chars c hc).symm.trans h
  unfold header
  dsimp only
  rw [if_neg (by rw [free]; nofun), if_neg good, modifyBank_eq hb]

/-- Settles O20: the characters of a name, the checks, then the header read and written. -/
theorem headerReadsAndWrites : Obligations.HeaderReadsAndWrites := by
  unfold Obligations.HeaderReadsAndWrites
  refine ⟨isNameChar_iff, fun bank s held => ?_⟩
  have checked (write : Option (Text × Option Select)) : RefusedByItsChecks (.header bank write) s :=
    refusedByItsChecks_of rfl held (header_answers bank write s)
  refine ⟨checked, fun b range hb => exec_taken rfl held (header_read range hb),
    fun name select busy => (checked _).1 _ (.inl ⟨busy, rfl⟩),
    fun name select free bad => (checked _).1 _ (.inr ⟨ne_true_of_eq_false free, .inl ⟨bad, rfl⟩⟩),
    fun name select b free range short chars hb => ⟨_, exec_taken rfl held (header_written free range short chars hb), rfl, rfl⟩⟩

end Sys2Proof.Machine
end

