-- ==== Sys2Proof/Proofs/EntriesTaken.lean ====
section
/-! PROOF. Today's Plan: the entries taken as their time comes or late (R58–R62), and the roll part of each kind (R47, R48, R63–R66,
R141). -/

namespace Sys2Proof.Machine

/-! ### What the Chime Unit leaves of Today's Plan -/

/-- A part of the state that neither the channels, the Wait List and the wake outputs nor the outcomes of plan entries are of: all that the
Chime Unit's decision on a request changes (R67, R78–R83). -/
structure ApartFromChimes {β : Type} (g : State → β) : Prop where
  blocks : ∀ c z s, g { s with chime := c, zone := z } = g s
  outcome : ∀ copy i o s, g (writeOutcome copy i o s) = g s

namespace ApartFromChimes

variable {β : Type} {g : State → β}

theorem setChannel (h : ApartFromChimes g) (n : Nat) (c : ToneChannel) (s : State) : g (setChannel n c s) = g s :=
  h.blocks _ s.zone s

theorem setWaits (h : ApartFromChimes g) (l : List WaitEntry) (s : State) : g (setWaits l s) = g s := h.blocks _ s.zone s

theorem updateWake (h : ApartFromChimes g) (s : State) : g (updateWake s) = g s := h.blocks s.chime _ s

theorem report (h : ApartFromChimes g) (o : Origin) (p : PatternRef) (x : ChimeOutcome) (s : State) : g (report o p x s) = g s := by
  unfold Machine.report
  split
  · exact h.outcome _ _ _ s
  · split
    · exact h.blocks _ s.zone s
    · rfl
  · split
    · exact h.blocks _ s.zone s
    · rfl

theorem endRequest (h : ApartFromChimes g) (n : Nat) (o : ChimeOutcome) (s : State) : g (endRequest n o s) = g s := by
  unfold Machine.endRequest
  dsimp only
  split
  · exact (h.report _ _ _ _).trans (h.setChannel _ _ s)
  · exact h.setChannel _ _ s

theorem playFrom (h : ApartFromChimes g) (n i : Nat) (s : State) : g (playFrom n i s) = g s := by
  have ends (c : ToneChannel) : g (endPattern n (Machine.setChannel n c s)) = g s :=
    (h.endRequest _ _ _).trans (h.setChannel _ _ s)
  unfold Machine.playFrom
  dsimp only
  split
  · exact h.setChannel _ _ s
  · split
    · split
      · exact h.setChannel _ _ s
      · exact ends _
    · exact ends _

theorem wakingTest (h : ApartFromChimes g) (n : Nat) (s : State) : g (wakingTest n s) = g s := by
  unfold Machine.wakingTest
  dsimp only
  split
  · split
    · exact h.setChannel _ _ s
    · exact (h.playFrom _ _ _).trans (h.setChannel _ _ s)
  · rfl

theorem startOn (h : ApartFromChimes g) (n : Nat) (r : ChimeRequest) (z : List Nat) (s : State) : g (startOn n r z s) = g s :=
  calc
    g (Machine.startOn n r z s) = g (Machine.updateWake (Machine.report r.origin r.pattern .playing _)) := h.wakingTest n _
    _ = g (Machine.report r.origin r.pattern .playing _) := h.updateWake _
    _ = g (Machine.setChannel n _ s) := h.report _ _ _ _
    _ = g s := h.setChannel _ _ s

theorem tryRequest (h : ApartFromChimes g) {r : ChimeRequest} {z : List Nat} {s : State} {t : State × Nat × Bool}
    (e : tryRequest r z s = some t) : g t.1 = g s := by
  unfold Machine.tryRequest at e
  split at e
  · cases e
  · cases e
    exact (h.startOn _ _ _ _).trans (foldl_keeps (fun s m => h.endRequest m _ s) _ s)

theorem examineEntries (h : ApartFromChimes g) (l : List WaitEntry) (s : State) : g (examineEntries l s).2.1 = g s := by
  induction l generalizing s with
  | nil => rfl
  | cons e t ih =>
    unfold Machine.examineEntries
    split
    · exact (ih _).trans (h.report _ _ _ s)
    · dsimp only
      split
      · exact ih s
      · rename_i started
        split at started
        · cases started
        · exact (ih _).trans (h.tryRequest started)

theorem examine (h : ApartFromChimes g) (s : State) : g (examine s) = g s := by
  unfold Machine.examine
  generalize waitListLimit + 1 = n
  induction n generalizing s with
  | zero => rfl
  | succ n ih =>
    have pass (l : List WaitEntry) : g (Machine.setWaits l (Machine.examineEntries s.chime.waits s).2.1) = g s :=
      (h.setWaits l _).trans (h.examineEntries s.chime.waits s)
    unfold examineFuel
    dsimp only
    split
    · exact (ih _).trans (pass _)
    · exact pass _

theorem joinWait (h : ApartFromChimes g) (r : ChimeRequest) (s : State) : g (joinWait r s).1 = g s := by
  have waits (l : List WaitEntry) (t : State) : g (Machine.report r.origin r.pattern .waiting (Machine.setWaits l t)) = g t :=
    (h.report _ _ _ _).trans (h.setWaits l t)
  unfold Machine.joinWait
  dsimp only
  split
  · exact waits _ s
  · split
    · exact h.report _ _ _ s
    · split
      · exact (waits _ _).trans (h.report _ _ _ s)
      · exact h.report _ _ _ s

theorem decideRequest (h : ApartFromChimes g) (r : ChimeRequest) (s : State) : g (decideRequest r s).1 = g s := by
  unfold Machine.decideRequest
  split
  · exact h.report _ _ _ s
  · dsimp only
    split
    · exact h.report _ _ _ s
    · split
      · rename_i t n released started
        dsimp only
        unfold examineIf
        split
        · exact (h.examine _).trans (h.tryRequest started)
        · exact h.tryRequest started
      · exact h.joinWait r s

end ApartFromChimes

/-- An entry of Today's Plan without the outcome of its bell. -/
def PlanEntry.bare (e : PlanEntry) : PlanEntry := { e with outcome := .none_ }

/-- Today's Plan without the outcomes of its bells. -/
def bareEntries (s : State) : List PlanEntry := s.plan.today.entries.map PlanEntry.bare

theorem bareEntries_getElem? {i : Nat} {e : PlanEntry} {s : State} (h : s.plan.today.entries[i]? = some e) :
    (bareEntries s)[i]? = some e.bare := by
  unfold bareEntries
  rw [List.getElem?_map, h, Option.map_some]

theorem exists_of_bareEntries {i : Nat} {b : PlanEntry} {s : State} (h : (bareEntries s)[i]? = some b) :
    ∃ e, s.plan.today.entries[i]? = some e ∧ e.bare = b := by
  unfold bareEntries at h
  rw [List.getElem?_map] at h
  exact Option.map_eq_some_iff.1 h

theorem bareEntries_apartFromChimes : ApartFromChimes bareEntries where
  blocks _ _ _ := rfl
  outcome copy i o s := by
    have same : (s.plan.today.entries.modify i fun e => { e with outcome := o }).map PlanEntry.bare =
        s.plan.today.entries.map PlanEntry.bare := by
      refine List.ext_getElem? fun j => ?_
      rw [List.getElem?_map, List.getElem?_map, List.getElem?_modify, Option.map_eq_map, Option.map_map]
      refine congrArg (Option.map · _) (funext fun e => ?_)
      show PlanEntry.bare (if i = j then _ else e) = e.bare
      split <;> rfl
    unfold writeOutcome
    split
    · rfl
    · dsimp only
      split <;> exact same

/-! ### One entry taken -/

/-- The state of the day with the cause of its close. -/
def dayEnd (s : State) : DayState × Option CloseCause := (s.day.state, s.day.closeCause)

theorem applyRoll_dayEnd (e : BankEntry) (s : State) :
    dayEnd (applyRoll e s) = if e.roll = .dayClose then (.closed, some .dayClose) else dayEnd s := by
  obtain ⟨t, r, c⟩ := e
  cases r with
  | dayClose =>
    show dayEnd (closeDayNow .dayClose s) = _
    rw [(closeDayNow_dayClosed .dayClose s).1]
    rfl
  | noticeHold m =>
    show dayEnd (takeHold t m s) = dayEnd s
    unfold takeHold
    dsimp only
    split <;> rfl
  | chime => rfl
  | registration m g => rfl
  | absenceCut m => rfl
  | noticeDeadline => rfl

theorem applyRoll_plan (e : BankEntry) (s : State) : (applyRoll e s).plan = s.plan := by
  obtain ⟨t, r, c⟩ := e
  cases r with
  | dayClose =>
    show (closeDayNow .dayClose s).plan = _
    rw [(closeDayNow_dayClosed .dayClose s).1]
  | noticeHold m =>
    show (takeHold t m s).plan = _
    unfold takeHold
    dsimp only
    split <;> rfl
  | chime => rfl
  | registration m g => rfl
  | absenceCut m => rfl
  | noticeDeadline => rfl

/-- An entry as it stands once it is taken at the present time, DONE or above the catch-up window MISSED (R58, R60). -/
def PlanEntry.takenIn (s : State) (e : PlanEntry) : PlanEntry :=
  { e with
    firing := if s.settings.catchUp < s.time.school - e.entry.time then .missed else .done
    taken := some s.time.school }

/-- An entry taken is its roll part applied where its bell may have been requested: to the same day, with the entry taken. -/
theorem takeEntry_eq_applyRoll {i : Nat} {e : PlanEntry} {s : State} (h : s.plan.today.entries[i]? = some e) :
    ∃ t, takeEntry i e s = applyRoll e.entry t ∧ t.day = s.day ∧ bareEntries t = (bareEntries s).set i (e.bare.takenIn s) := by
  let noted := { s with plan := { s.plan with today := { s.plan.today with entries := s.plan.today.entries.set i (e.takenIn s) } } }
  have marked : bareEntries noted = (bareEntries s).set i (e.bare.takenIn s) := List.map_set
  have note : modifyEntry i (fun x =>
      { x with
        firing := if s.settings.catchUp < s.time.school - e.entry.time then .missed else .done
        taken := some s.time.school }) s = noted := by
    unfold modifyEntry
    rw [List.modify_eq_set_getElem?, h]
    rfl
  have rings (late : Bool) (c : ChimePart) : (requestChime i late c noted).day = s.day ∧
      bareEntries (requestChime i late c noted) = (bareEntries s).set i (e.bare.takenIn s) :=
    ⟨requestChime_day i late c noted, (bareEntries_apartFromChimes.decideRequest _ noted).trans marked⟩
  unfold takeEntry
  dsimp only
  rw [note]
  refine ⟨_, rfl, ?_⟩
  split
  · exact ⟨rfl, marked⟩
  · split
    · exact ⟨rfl, marked⟩
    · exact rings _ _

theorem bareEntries_entryTaken {i : Nat} {e : PlanEntry} {s : State} (h : s.plan.today.entries[i]? = some e) :
    bareEntries (entryTaken i e s) = (bareEntries s).set i (e.bare.takenIn s) := by
  obtain ⟨t, taken, -, marked⟩ := takeEntry_eq_applyRoll h
  rw [← takeEntry_eq_entryTaken h, taken, ← marked]
  unfold bareEntries
  rw [applyRoll_plan]

theorem entryTaken_length {i : Nat} {e : PlanEntry} {s : State} (h : s.plan.today.entries[i]? = some e) :
    (entryTaken i e s).plan.today.entries.length = s.plan.today.entries.length := by
  have taken := congrArg List.length (bareEntries_entryTaken h)
  rw [List.length_set] at taken
  unfold bareEntries at taken
  rwa [List.length_map, List.length_map] at taken

theorem entryTaken_dayEnd {i : Nat} {e : PlanEntry} {s : State} (h : s.plan.today.entries[i]? = some e) :
    dayEnd (entryTaken i e s) = if e.entry.roll = .dayClose then (.closed, some .dayClose) else dayEnd s := by
  obtain ⟨t, taken, day, -⟩ := takeEntry_eq_applyRoll h
  rw [← takeEntry_eq_entryTaken h, taken, applyRoll_dayEnd]
  unfold dayEnd
  rw [day]

theorem entryTaken_planRest {i : Nat} {e : PlanEntry} {s : State} (h : s.plan.today.entries[i]? = some e) :
    planRest (entryTaken i e s) = planRest s := by
  rw [← takeEntry_eq_entryTaken h, takeEntry_planRest]

/-! ### The run through the plan -/

/-- An entry of Today's Plan is AHEAD, and of a time that is picked. -/
def AheadPicked (pick : SchoolTime → Prop) (s : State) (i : Nat) (b : PlanEntry) : Prop :=
  (bareEntries s)[i]? = some b ∧ b.firing = .ahead ∧ pick b.entry.time

/-- An entry below an index is AHEAD and picked, and closes the day. -/
def ClosesBelow (pick : SchoolTime → Prop) (n : Nat) (s : State) : Prop :=
  ∃ j < n, ∃ b, AheadPicked pick s j b ∧ b.entry.roll = .dayClose

section Run

variable {pick : SchoolTime → Prop} {s t : State} {n i : Nat} {e : PlanEntry}

theorem aheadPicked_bare_iff (h : s.plan.today.entries[i]? = some e) :
    AheadPicked pick s i e.bare ↔ e.firing = .ahead ∧ pick e.entry.time := by
  unfold AheadPicked
  rw [bareEntries_getElem? h]
  exact and_iff_right rfl

theorem exists_of_aheadPicked {b : PlanEntry} (h : AheadPicked pick s i b) :
    ∃ e, s.plan.today.entries[i]? = some e ∧ e.bare = b ∧ e.firing = .ahead ∧ pick e.entry.time := by
  obtain ⟨e, here, rfl⟩ := exists_of_bareEntries h.1
  exact ⟨e, here, rfl, h.2⟩

theorem entryTaken_iff :
    EntryTaken pick s i ↔ s.day.state = .open_ ∧ (∃ b, AheadPicked pick s i b) ∧ ¬ClosesBelow pick i s := by
  refine and_congr_right fun _ => and_congr ?_ ?_
  · constructor
    · rintro ⟨e, here, due⟩
      exact ⟨e.bare, (aheadPicked_bare_iff here).2 due⟩
    · rintro ⟨b, ahead⟩
      obtain ⟨e, here, -, due⟩ := exists_of_aheadPicked ahead
      exact ⟨e, here, due⟩
  · constructor
    · rintro open_ ⟨j, below, b, ahead, closes⟩
      obtain ⟨e, here, rfl, due⟩ := exists_of_aheadPicked ahead
      exact open_ j below e here due closes
    · exact fun none_ j below e here due closes => none_ ⟨j, below, e.bare, (aheadPicked_bare_iff here).2 due, closes⟩

theorem closesBelow_succ_iff :
    ClosesBelow pick (n + 1) s ↔ ClosesBelow pick n s ∨ ∃ b, AheadPicked pick s n b ∧ b.entry.roll = .dayClose := by
  unfold ClosesBelow
  constructor
  · rintro ⟨j, below, closes⟩
    rcases Nat.lt_succ_iff_lt_or_eq.1 below with below | rfl
    · exact .inl ⟨j, below, closes⟩
    · exact .inr closes
  · rintro (⟨j, below, closes⟩ | closes)
    · exact ⟨j, Nat.lt_succ_of_lt below, closes⟩
    · exact ⟨n, Nat.lt_succ_self n, closes⟩

/-- A DAY_CLOSE entry is taken where one is AHEAD and picked on an OPEN day: the first such. -/
theorem exists_closing_iff :
    (∃ i e, EntryTaken pick s i ∧ s.plan.today.entries[i]? = some e ∧ e.entry.roll = .dayClose) ↔
      s.day.state = .open_ ∧ ClosesBelow pick s.plan.today.entries.length s := by
  constructor
  · rintro ⟨i, e, taken, here, closes⟩
    obtain ⟨open_, ⟨b, ahead⟩, -⟩ := entryTaken_iff.1 taken
    obtain rfl : b = e.bare := Option.some.inj (ahead.1.symm.trans (bareEntries_getElem? here))
    exact ⟨open_, i, (List.getElem?_eq_some_iff.1 here).1, e.bare, ahead, closes⟩
  · rintro ⟨open_, j, -, closing⟩
    classical
    have some_ : ∃ j, ∃ b, AheadPicked pick s j b ∧ b.entry.roll = .dayClose := ⟨j, closing⟩
    obtain ⟨b, ahead, closes⟩ := Nat.find_spec some_
    obtain ⟨e, here, rfl, -⟩ := exists_of_aheadPicked ahead
    exact ⟨_, e, entryTaken_iff.2 ⟨open_, ⟨_, ahead⟩, fun ⟨k, below, earlier⟩ => Nat.find_min some_ below earlier⟩, here, closes⟩

open Classical in
/-- What the indexes below `n`, gone through from `s`, have led to: each entry among them that is to be taken is taken, the others
stand, and a DAY_CLOSE entry among the taken has closed the day. -/
structure RunBelow (pick : SchoolTime → Prop) (n : Nat) (s t : State) : Prop where
  rest : planRest t = planRest s
  length : t.plan.today.entries.length = s.plan.today.entries.length
  entries : ∀ i, (bareEntries t)[i]? = ((bareEntries s)[i]?).map fun b => if i < n ∧ EntryTaken pick s i then b.takenIn s else b
  dayEnd : dayEnd t = if s.day.state = .open_ ∧ ClosesBelow pick n s then (.closed, some .dayClose) else dayEnd s

namespace RunBelow

theorem start : RunBelow pick 0 s s where
  rest := rfl
  length := rfl
  entries i := by simp
  dayEnd := by
    rw [if_neg]
    rintro ⟨-, j, below, -⟩
    exact Nat.not_lt_zero j below

/-- The day is still OPEN exactly where it was and no entry so far has closed it. -/
theorem open_iff (h : RunBelow pick n s t) : t.day.state = .open_ ↔ s.day.state = .open_ ∧ ¬ClosesBelow pick n s := by
  have day : t.day.state = _ := congrArg Prod.fst h.dayEnd
  by_cases closes : s.day.state = .open_ ∧ ClosesBelow pick n s
  · rw [if_pos closes] at day
    rw [day]
    exact ⟨nofun, fun x => absurd closes.2 x.2⟩
  · rw [if_neg closes] at day
    rw [day]
    exact ⟨fun open_ => ⟨open_, fun x => closes ⟨open_, x⟩⟩, And.left⟩

/-- The next entry is as it was. -/
theorem next_same (h : RunBelow pick n s t) : (bareEntries t)[n]? = (bareEntries s)[n]? := by
  rw [h.entries n]
  simp

/-- The entry at the next index is to be taken there exactly where it is to be taken from the start. -/
theorem due_iff (h : RunBelow pick n s t) : (∃ e, EntryDue pick t n e) ↔ EntryTaken pick s n := by
  rw [entryTaken_iff]
  constructor
  · rintro ⟨e, open_, here, due⟩
    obtain ⟨openAt, none_⟩ := h.open_iff.1 open_
    exact ⟨openAt, ⟨e.bare, h.next_same ▸ bareEntries_getElem? here, due⟩, none_⟩
  · rintro ⟨openAt, ⟨b, ahead, due⟩, none_⟩
    obtain ⟨e, here, rfl⟩ := exists_of_bareEntries (h.next_same.trans ahead)
    exact ⟨e, h.open_iff.2 ⟨openAt, none_⟩, here, due⟩

/-- An entry taken at the next index. -/
theorem takes (h : RunBelow pick n s t) (due : EntryDue pick t n e) : RunBelow pick (n + 1) s (entryTaken n e t) := by
  classical
  obtain ⟨open_, here, ahead, picked⟩ := id due
  have taken : EntryTaken pick s n := h.due_iff.1 ⟨e, due⟩
  obtain ⟨openAt, -, none_⟩ := entryTaken_iff.1 taken
  have stood : (bareEntries s)[n]? = some e.bare := h.next_same.symm.trans (bareEntries_getElem? here)
  have length : n < (bareEntries t).length := (List.getElem?_eq_some_iff.1 (bareEntries_getElem? here)).1
  have now : e.bare.takenIn t = e.bare.takenIn s := by
    have rest := h.rest
    simp only [planRest, Prod.mk.injEq] at rest
    obtain ⟨⟨time, -⟩, -, -, -, settings, -⟩ := rest
    unfold PlanEntry.takenIn
    rw [time, settings]
  refine ⟨(entryTaken_planRest here).trans h.rest, (entryTaken_length here).trans h.length, fun i => ?_, ?_⟩
  · rw [bareEntries_entryTaken here, now]
    by_cases same : i = n
    · subst same
      rw [List.getElem?_set_self length, stood, Option.map_some, if_pos ⟨Nat.lt_succ_self i, taken⟩]
    · rw [List.getElem?_set_ne (Ne.symm same), h.entries i]
      have below : i < n + 1 ↔ i < n := by omega
      exact congrArg (Option.map · _) (funext fun b => if_congr (and_congr_left fun _ => below.symm) rfl rfl)
  · have closes : (s.day.state = .open_ ∧ ClosesBelow pick (n + 1) s) ↔ e.entry.roll = .dayClose := by
      rw [closesBelow_succ_iff]
      constructor
      · rintro ⟨-, closed | ⟨b, next, closing⟩⟩
        · exact absurd closed none_
        · obtain rfl : b = e.bare := Option.some.inj (next.1.symm.trans stood)
          exact closing
      · exact fun closing => ⟨openAt, .inr ⟨e.bare, ⟨stood, ahead, picked⟩, closing⟩⟩
    rw [entryTaken_dayEnd here, h.dayEnd, if_neg (c := _ ∧ _) fun x => none_ x.2]
    exact if_congr closes.symm rfl rfl

/-- No entry taken at the next index. -/
theorem passes (h : RunBelow pick n s t) (none_ : ∀ e, ¬EntryDue pick t n e) : RunBelow pick (n + 1) s t := by
  classical
  have kept : ¬EntryTaken pick s n := fun taken => by
    obtain ⟨e, due⟩ := h.due_iff.2 taken
    exact none_ e due
  refine ⟨h.rest, h.length, fun i => ?_, ?_⟩
  · rw [h.entries i]
    have same : i < n + 1 ∧ EntryTaken pick s i ↔ i < n ∧ EntryTaken pick s i := by
      refine and_congr_left fun taken => ⟨fun below => ?_, Nat.lt_succ_of_lt⟩
      refine Nat.lt_of_le_of_ne (Nat.le_of_lt_succ below) fun same => ?_
      subst same
      exact kept taken
    exact congrArg (Option.map · _) (funext fun b => if_congr same.symm rfl rfl)
  · have same : s.day.state = .open_ ∧ ClosesBelow pick (n + 1) s ↔ s.day.state = .open_ ∧ ClosesBelow pick n s := by
      refine and_congr_right fun openAt => ?_
      rw [closesBelow_succ_iff, or_iff_left_iff_imp]
      rintro ⟨b, ahead, -⟩
      by_contra before
      exact kept (entryTaken_iff.2 ⟨openAt, ⟨b, ahead⟩, before⟩)
    rw [h.dayEnd]
    exact if_congr same.symm rfl rfl

end RunBelow

variable {ready : SchoolTime → Bool}

/-- The indexes below `n` gone through in their order. -/
theorem foldl_takeIf_runBelow (hr : ∀ x, ready x = true ↔ pick x) (s : State) (n : Nat) :
    RunBelow pick n s ((List.range n).foldl (takeIf ready) s) := by
  induction n with
  | zero => exact .start
  | succ n ih =>
    rw [List.range_succ, List.foldl_append, List.foldl_cons, List.foldl_nil]
    rcases takeIf_cases hr n ((List.range n).foldl (takeIf ready) s) with ⟨e, due, taken⟩ | ⟨none_, taken⟩
    · rw [taken]
      exact ih.takes due
    · rw [taken]
      exact ih.passes none_

/-- The whole plan gone through. -/
theorem planTaken_of_runBelow (h : RunBelow pick s.plan.today.entries.length s t) : PlanTaken pick s t := by
  have time : t.time = s.time := congrArg (fun r => r.1.1) h.rest
  refine ⟨h.length, fun i e here => ?_, fun closes => ?_, fun stays => ?_⟩
  · have after := h.entries i
    rw [bareEntries_getElem? here, Option.map_some] at after
    obtain ⟨x, there, same⟩ := exists_of_bareEntries after
    refine ⟨x, there, ?_, fun taken => ?_, fun kept => ?_⟩
    · refine (congrArg PlanEntry.entry same).trans ?_
      split <;> rfl
    · rw [if_pos ⟨(List.getElem?_eq_some_iff.1 here).1, taken⟩] at same
      rw [time]
      exact ⟨congrArg PlanEntry.firing same, congrArg PlanEntry.taken same⟩
    · rw [if_neg fun x => kept x.2] at same
      exact ⟨(congrArg PlanEntry.firing same :), (congrArg PlanEntry.taken same :)⟩
  · have day := h.dayEnd
    rw [if_pos (exists_closing_iff.1 closes)] at day
    exact Prod.mk.inj day
  · have day := h.dayEnd
    rw [if_neg (fun x => stays (exists_closing_iff.2 x))] at day
    exact Prod.mk.inj day

end Run

/-- The entries of the plan taken as an event takes them, each with all it does before the next. -/
theorem takeEntries_takes {ready : SchoolTime → Bool} {pick : SchoolTime → Prop} (hr : ∀ x, ready x = true ↔ pick x) (s : State) :
    PlanRun pick (List.range s.plan.today.entries.length) s (takeEntries ready s) ∧ PlanTaken pick s (takeEntries ready s) ∧
      (s.day.state ≠ .open_ → takeEntries ready s = s) ∧ (takeEntries ready s).time = s.time ∧
        (takeEntries ready s).office = s.office ∧ (takeEntries ready s).settings = s.settings := by
  have rest := takeEntries_planRest ready s
  simp only [planRest, Prod.mk.injEq] at rest
  obtain ⟨⟨time, -⟩, -, -, office, settings, -⟩ := rest
  refine ⟨foldl_takeIf_planRun hr _ s, planTaken_of_runBelow (foldl_takeIf_runBelow hr s _), fun notOpen => ?_, time, office,
    settings⟩
  have still (i : Nat) : takeIf ready s i = s := by
    rcases takeIf_cases hr i s with ⟨e, due, -⟩ | ⟨-, same⟩
    · exact absurd due.1 notOpen
    · exact same
  unfold takeEntries
  induction List.range s.plan.today.entries.length with
  | nil => rfl
  | cons i l ih => rw [List.foldl_cons, still, ih]

theorem takeOnTime_takes (s : State) :
    PlanRun (· = s.time.school) (List.range s.plan.today.entries.length) s (takeOnTime s) ∧
      PlanTaken (· = s.time.school) s (takeOnTime s) ∧ (s.day.state ≠ .open_ → takeOnTime s = s) ∧
        (takeOnTime s).time = s.time ∧ (takeOnTime s).office = s.office ∧ (takeOnTime s).settings = s.settings :=
  takeEntries_takes (fun _ => decide_eq_true_iff) s

theorem evaluatePlan_takes (s : State) :
    PlanRun (· ≤ s.time.school) (List.range s.plan.today.entries.length) s (evaluatePlan s) ∧
      PlanTaken (· ≤ s.time.school) s (evaluatePlan s) ∧ (s.day.state ≠ .open_ → evaluatePlan s = s) ∧
        (evaluatePlan s).time = s.time ∧ (evaluatePlan s).office = s.office ∧ (evaluatePlan s).settings = s.settings :=
  takeEntries_takes (fun _ => decide_eq_true_iff) s

/-! ### A SET CLOCK forward -/

/-- A later time on an OPEN day of the same date. -/
theorem handOn_forward {old c : State} (state : c.day.state = .open_) (date : c.day.date = some c.time.date)
    (forward : old.time.school < c.time.school) : handOn old c = evaluatePlan c := by
  unfold handOn
  rw [if_neg (by rw [state]; decide), if_neg (not_not.2 date), if_pos ⟨state, forward⟩]

/-- A later time of the same date on an OPEN day takes every entry it reaches, and what follows leaves them (R32, R60, R62). -/
theorem afterSetClock_forward {time : SchoolTime} {s : State} (state : s.day.state = .open_) (same : s.day.date = some s.time.date)
    (forward : s.time.school < time) : PlanTaken (· ≤ time) s (afterSetClock time none s) := by
  have jumped : handOn s (clockSet time none s) = evaluatePlan (clockSet time none s) := handOn_forward state same forward
  have date : (evaluatePlan (clockSet time none s)).day.date = some s.time.date :=
    (congrArg (fun r => r.1.2.1) (takeEntries_planRest _ (clockSet time none s))).trans same
  have now : (clockSettled time none s).time = (clockSet time none s).time := congrArg (·.1) clockSettled_clockRest
  have day : (clockSettled time none s).day = (evaluatePlan (clockSet time none s)).day := by rw [clockSettled_day, jumped]
  have still : autoOpen (clockSettled time none s) = clockSettled time none s :=
    autoOpen_stays (.inr fun due => due.2.2.1 (by rw [day, date, now]; rfl))
  have plan : (afterSetClock time none s).plan = (evaluatePlan (clockSet time none s)).plan := by
    rw [afterSetClock_lineOnly, still, clockSettled_plan, jumped]
  have dayAfter : (afterSetClock time none s).day = (evaluatePlan (clockSet time none s)).day := by
    rw [afterSetClock_day, still, day]
  have timeAfter : (afterSetClock time none s).time = (clockSet time none s).time := congrArg (·.1) afterSetClock_clockRest
  obtain ⟨-, taken, -, timeTaken, -⟩ := evaluatePlan_takes (clockSet time none s)
  unfold PlanTaken at taken ⊢
  rw [plan, dayAfter, timeAfter, ← timeTaken]
  exact taken

/-! ### The roll parts -/

theorem applyRoll_noticeHold (time : SchoolTime) (minutes : Nat) (chime : Option ChimePart) (s : State) :
    let e := min (time + 60 * minutes) 86399
    applyRoll ⟨time, .noticeHold minutes, chime⟩ s =
      if s.time.school < e then
        { s with
          notices :=
            { s.notices with
              quietEnd :=
                some
                  (match s.notices.quietEnd with
                  | none => e
                  | some q => max e q) } }
      else s := by
  intro e
  show takeHold time minutes s = _
  unfold takeHold
  cases s.notices.quietEnd with
  | none => simp only [Option.getD_none, Nat.max_zero]; rfl
  | some q => rfl

/-- The cohorts of a list changed by a change that a second time changes nothing. -/
theorem getElem?_foldl_modify {f : Cohort → Cohort} (hf : ∀ x, f (f x) = f x) (l : List Nat) (cs : List Cohort) (c : Nat) :
    (l.foldl (fun cs c => cs.modify c f) cs)[c]? = (cs[c]?).map fun x => if c ∈ l then f x else x := by
  induction l generalizing cs with
  | nil => simp
  | cons k t ih =>
    rw [List.foldl_cons, ih, List.getElem?_modify, Option.map_eq_map, Option.map_map]
    refine congrArg (Option.map · _) (funext fun x => ?_)
    by_cases hk : k = c <;> by_cases ht : c ∈ t <;> simp [hk, ht, hf, Ne.symm]

theorem length_foldl_modify (f : Cohort → Cohort) (l : List Nat) (cs : List Cohort) :
    (l.foldl (fun cs c => cs.modify c f) cs).length = cs.length :=
  foldl_keeps (g := List.length) (fun _ _ => List.length_modify ..) l cs

theorem registerCohort_twice (time : SchoolTime) (grace : Nat) (c : Cohort) :
    registerCohort time grace (registerCohort time grace c) = registerCohort time grace c := by
  unfold registerCohort
  by_cases h : c.phase = .beforeRegistration <;> simp [h]

theorem isUncut_iff {p : Phase} : p.isUncut = true ↔ p = .beforeRegistration ∨ p = .registrationOpen := by cases p <;> decide

theorem cutCohort_twice (time : SchoolTime) (c : Cohort) : cutCohort time (cutCohort time c) = cutCohort time c := by
  unfold cutCohort
  by_cases h : c.phase.isUncut = true
  · rw [if_pos h]
    exact if_neg nofun
  · rw [if_neg h, if_neg h]

theorem cohortsOf_eq (mask : List Nat) : cohortsOf mask = (List.range 8).filter (· ∈ mask) := by
  rw [List.range_eq_range']
  exact setWithin_eq 0 7 mask

section Cohorts

variable {mask : List Nat} {time : SchoolTime} {s : State}

theorem mem_cohortsOf {c : Nat} : c ∈ cohortsOf mask ↔ c < 8 ∧ c ∈ mask := by
  rw [cohortsOf_eq, List.mem_filter, List.mem_range, decide_eq_true_iff]

/-- A cohort after a REGISTRATION entry (R47). -/
theorem takeRegistration_cohort {grace c : Nat} {x : Cohort} (eight : s.day.cohorts.length = 8) (here : s.day.cohorts[c]? = some x) :
    (takeRegistration mask time grace s).day.cohorts[c]? =
      some
        (if c ∈ mask ∧ x.phase = .beforeRegistration then
          { x with phase := .registrationOpen, registration := some time, grace := grace }
        else x) := by
  have range : c < 8 := eight ▸ (List.getElem?_eq_some_iff.1 here).1
  refine (getElem?_foldl_modify (registerCohort_twice time grace) _ _ c).trans ?_
  rw [here, Option.map_some]
  simp only [mem_cohortsOf, range, true_and, registerCohort, ite_and]

/-- The cohorts that an ABSENCE_CUT entry cuts (R48). -/
def cutBy (mask : List Nat) (s : State) : List Nat :=
  (cohortsOf mask).filter fun c => (s.day.cohorts.getD c .fresh).phase.isUncut

theorem takeCut_eq :
    takeCut mask time s =
      { s with
        day := { s.day with cohorts := (cutBy mask s).foldl (fun cs c => cs.modify c (cutCohort time)) s.day.cohorts }
        sweep := s.sweep.add ((cutBy mask s).map fun c => ⟨c, time, false⟩) } := rfl

/-- They are, in cohort order, those of the mask whose phase is before the cut. -/
theorem cutBy_eq (eight : s.day.cohorts.length = 8) :
    cutBy mask s =
      (List.range 8).filter fun c =>
        decide (c ∈ mask) &&
          (s.day.cohorts[c]?).any fun x => decide (x.phase = .beforeRegistration ∨ x.phase = .registrationOpen) := by
  unfold cutBy
  rw [cohortsOf_eq, List.filter_filter]
  refine List.filter_congr fun c range => ?_
  have there : c < s.day.cohorts.length := by rw [eight]; exact List.mem_range.1 range
  have uncut (x : Cohort) : x.phase.isUncut = decide (x.phase = .beforeRegistration ∨ x.phase = .registrationOpen) := by
    rw [Bool.eq_iff_iff, isUncut_iff, decide_eq_true_iff]
  rw [List.getD_eq_getElem?_getD, List.getElem?_eq_getElem there, Option.getD_some, Option.any_some, uncut, Bool.and_comm]

/-- A cohort after an ABSENCE_CUT entry (R48). -/
theorem takeCut_cohort {c : Nat} {x : Cohort} (eight : s.day.cohorts.length = 8) (here : s.day.cohorts[c]? = some x) :
    (takeCut mask time s).day.cohorts[c]? =
      some
        (if c ∈ mask ∧ decide (x.phase = .beforeRegistration ∨ x.phase = .registrationOpen) = true then
          { x with phase := .cutListed, cut := some time }
        else x) := by
  have range : c < 8 := eight ▸ (List.getElem?_eq_some_iff.1 here).1
  have cut : c ∈ cutBy mask s ↔ c ∈ mask ∧ x.phase.isUncut = true := by
    unfold cutBy
    rw [List.mem_filter, mem_cohortsOf, List.getD_eq_getElem?_getD, here, Option.getD_some]
    exact and_congr_left fun _ => and_iff_right range
  refine (getElem?_foldl_modify (cutCohort_twice time) _ _ c).trans ?_
  rw [here, Option.map_some]
  change some (if c ∈ cutBy mask s then cutCohort time x else x) = _
  simp only [cut, decide_eq_true_eq, ← isUncut_iff]
  refine congrArg some (ite_congr rfl (fun h => ?_) fun _ => rfl)
  exact if_pos h.2

end Cohorts

/-- Sweeps listed at the tail; an empty list begins at slot 0 (R141). -/
theorem add_eq (new : List Sweep) (w : CutSweeper) :
    w.add new =
      if new = [] then w else if w.list = [] then ⟨new, some 0, .running⟩ else { w with list := w.list ++ new } := by
  unfold CutSweeper.add
  simp only [List.isEmpty_iff]

theorem exec_entryReached {s : State} (held : s.power.held = false) :
    exec .entryReached s = .next (settle (takeOnTime s)) := by
  show execEntryReached s = _
  unfold execEntryReached
  rw [event_next held]

/-- Settles O21: the run through the plan on time, late and at a SET CLOCK, and the roll part of each kind. -/
theorem entriesAreTaken : Obligations.EntriesAreTaken := by
  unfold Obligations.EntriesAreTaken
  refine ⟨fun s => ⟨takeOnTime_takes s, evaluatePlan_takes s, exec_entryReached⟩,
    fun time s held valid state same forward range => ?_,
    fun time chime s => ⟨rfl, rfl, fun minutes => applyRoll_noticeHold time minutes chime s,
      fun _ => closeDayNow_dayClosed .dayClose s⟩,
    fun mask time grace s eight => ?_⟩
  · exact ⟨afterSetClock time none s, exec_taken rfl held (setClock_taken range nofun fun _ => valid),
      congrArg (fun r => r.1.school) afterSetClock_clockRest, afterSetClock_forward state same forward⟩
  · intro uncut new chime
    have listed : (cutBy mask s).map (fun c => (⟨c, time, false⟩ : Sweep)) = new := by rw [cutBy_eq eight]
    refine ⟨takeRegistration mask time grace s, takeCut mask time s, rfl, rfl, rfl, ?_,
      (length_foldl_modify _ _ _).trans eight, (length_foldl_modify _ _ _).trans eight,
      fun c x here => ⟨takeRegistration_cohort eight here, takeCut_cohort eight here⟩⟩
    rw [← add_eq, ← listed]
    rfl

end Sys2Proof.Machine
end

