-- ==== Sys2Proof/Proofs/Adoption.lean ====
section
/-! PROOF. ADOPT: its checks, and the copy of the bank it puts in place of Today's Plan (R56, R69, R70). -/

namespace Sys2Proof.Machine

theorem not_dayIsOpen_iff {s : State} : (!dayIsOpen s) = true ↔ s.day.state ≠ .open_ := not_iff_of_iff dayIsOpen_iff

theorem adopt_answers (bank : Nat) (s : State) : Answers (checksOf (.adopt bank) s) s (adopt bank s) :=
  .ite not_dayIsOpen_iff fun _ => .ite not_bankOk_iff fun _ => .ite Iff.rfl fun _ => .ok _ _

/-- The state with the copy in place, before its entries of the present second are taken (R69). -/
def adopted (bank : Nat) (b : Bank) (s : State) : State :=
  { s with
    plan :=
      { s.plan with
        today :=
          ⟨some bank, some (b.name, b.select), (s.plan.today.copyNumber + 1) % 65536,
            b.entries.map fun e => ⟨e, if e.time < s.time.school then .passed else .ahead, .none_, none⟩⟩ }
    day := { s.day with bank := some bank } }

section Adopted

variable {bank : Nat} {b : Bank} {s : State}

theorem adoptCopy_eq (hb : s.plan.banks[bank]? = some b) : adoptCopy bank s = adopted bank b s := by
  unfold adoptCopy makeCopy
  rw [List.getD_eq_getElem?_getD, hb]
  rfl

/-- The entries that the copy gives a firing state, counted by their times. -/
theorem firingCount_adopted (f : Firing) :
    firingCount f (adopted bank b s) =
      b.entries.countP fun e => decide ((if e.time < s.time.school then Firing.passed else .ahead) = f) := List.countP_map

theorem firingCount_passed : firingCount .passed (adopted bank b s) = b.entries.countP fun e => e.time < s.time.school := by
  rw [firingCount_adopted]
  refine List.countP_congr fun e _ => ?_
  by_cases early : e.time < s.time.school <;> simp [early]

theorem firingCount_ahead : firingCount .ahead (adopted bank b s) = b.entries.countP fun e => s.time.school ≤ e.time := by
  rw [firingCount_adopted]
  refine List.countP_congr fun e _ => ?_
  by_cases early : e.time < s.time.school
  · simp [early]
  · simp [early, Nat.not_lt.1 early]

/-- ADOPT where none of its checks holds. -/
theorem adopt_taken (state : s.day.state = .open_) (range : bank < 4) (hb : s.plan.banks[bank]? = some b)
    (clear : s.day.closureFlag = false) :
    adopt bank s =
      (settle (takeOnTime (adopted bank b s)),
        .ok
          [.num ((s.plan.today.copyNumber + 1) % 65536), .num (b.entries.countP fun e => e.time < s.time.school),
            .num (b.entries.countP fun e => s.time.school ≤ e.time)]) := by
  unfold adopt
  rw [if_neg fun h => not_dayIsOpen_iff.1 h state, if_neg fun h => Nat.not_lt.2 (not_bankOk_iff.1 h) range,
    if_neg (ne_true_of_eq_false clear), adoptCopy_eq hb]
  dsimp only
  rw [firingCount_passed, firingCount_ahead]
  rfl

end Adopted

/-- Settles O22: the checks, then the copy, whose entries of the present second are taken. -/
theorem adoptCopiesTheBank : Obligations.AdoptCopiesTheBank := by
  unfold Obligations.AdoptCopiesTheBank
  exact ⟨fun bank s held => refusedByItsChecks_of rfl held (adopt_answers bank s),
    fun bank b s held state range hb clear => ⟨adopted bank b s, exec_taken rfl held (adopt_taken state range hb clear), rfl⟩⟩

end Sys2Proof.Machine
end

