-- ==== Sys2Proof/Proofs/TerminalTable.lean ====
section
/-! SUPPORT. The Terminal Table: what a write of an entry leaves in the table, which entry holds an identity and which is the lowest free
one (R100, R120), and what an answer recorded leaves (R102, R103). -/

namespace Sys2Proof.Machine

/-! ### Entries -/

theorem terminalAt_congr {s t : State} (h : t.line.table = s.line.table) (n : Nat) : terminalAt n t = terminalAt n s := by
  unfold terminalAt
  rw [h]

theorem terminalAt_lt {n : Nat} {t : Terminal} {s : State} (h : terminalAt n s = some t) : n < s.line.table.length := by
  by_contra out
  rw [terminalAt, List.getElem?_eq_none (Nat.not_lt.1 out)] at h
  nomatch h

theorem terminalAt_setTerminal_self {n : Nat} {s : State} (h : n < s.line.table.length) (t : Option Terminal) :
    terminalAt n (setTerminal n t s) = t := by
  simp [terminalAt, setTerminal, h]

theorem terminalAt_setTerminal_ne {m n : Nat} (h : m ≠ n) (t : Option Terminal) (s : State) :
    terminalAt m (setTerminal n t s) = terminalAt m s := by
  simp [terminalAt, setTerminal, List.getElem?_set_ne (Ne.symm h)]

theorem terminalAt_modifyTerminal_self (n : Nat) (f : Terminal → Terminal) (s : State) :
    terminalAt n (modifyTerminal n f s) = (terminalAt n s).map f := by
  unfold terminalAt modifyTerminal
  dsimp only
  rw [List.getElem?_modify_eq]
  rcases s.line.table[n]? with _ | _ | t <;> rfl

theorem terminalAt_modifyTerminal_ne {m n : Nat} (h : m ≠ n) (f : Terminal → Terminal) (s : State) :
    terminalAt m (modifyTerminal n f s) = terminalAt m s := by
  unfold terminalAt modifyTerminal
  dsimp only
  rw [List.getElem?_modify]
  simp only [if_neg (Ne.symm h), id_map']

/-- A change of a free entry's terminal is none. -/
theorem modifyTerminal_free {n : Nat} {s : State} (h : terminalAt n s = none) (f : Terminal → Terminal) : modifyTerminal n f s = s := by
  have same : s.line.table.modify n (·.map f) = s.line.table := by
    refine List.ext_getElem? fun m => ?_
    rw [List.getElem?_modify]
    split
    · rename_i e
      subst e
      unfold terminalAt at h
      cases hx : s.line.table[n]? with
      | none => rfl
      | some x =>
        rw [hx] at h
        cases x with
        | none => rfl
        | some t => nomatch h
    · rw [id_map']
  unfold modifyTerminal
  rw [same]

/-! ### The entry of an identity, the lowest free entry -/

theorem entryWith_eq_none {i : Identity} {s : State} :
    entryWith i s = none ↔ ∀ n < 8, ∀ t, terminalAt n s = some t → t.identity ≠ i := by
  simp only [entryWith, List.find?_range_eq_none, Bool.not_eq_true', ← Bool.not_eq_true, Option.any_eq_true, decide_eq_true_eq,
    not_exists, not_and, ne_eq]

theorem entryWith_eq_some {i : Identity} {s : State} {n : Nat} :
    entryWith i s = some n ↔
      n < 8 ∧ (∃ t, terminalAt n s = some t ∧ t.identity = i) ∧ ∀ m < n, ∀ t, terminalAt m s = some t → t.identity ≠ i := by
  simp only [entryWith, List.find?_range_eq_some, Bool.not_eq_true', ← Bool.not_eq_true, Option.any_eq_true, decide_eq_true_eq,
    not_exists, not_and, ne_eq, List.mem_range]
  exact and_left_comm

/-- The entry of an identity that no other entry holds. -/
theorem entryWith_of_unique {i : Identity} {s : State} {n : Nat} {t : Terminal} (hn : n < 8) (ht : terminalAt n s = some t)
    (hi : t.identity = i) (unique : ∀ m u, terminalAt m s = some u → u.identity = i → m = n) : entryWith i s = some n :=
  entryWith_eq_some.2 ⟨hn, ⟨t, ht, hi⟩, fun m hm u hu e => absurd (unique m u hu e) (Nat.ne_of_lt hm)⟩

theorem freeEntry_eq_none {s : State} : freeEntry s = none ↔ ∀ n < 8, terminalAt n s ≠ none := by
  simp only [freeEntry, List.find?_range_eq_none, Bool.not_eq_true', ← Bool.not_eq_true, Option.isNone_iff_eq_none, ne_eq]

theorem freeEntry_eq_some {s : State} {n : Nat} :
    freeEntry s = some n ↔ n < 8 ∧ terminalAt n s = none ∧ ∀ m < n, terminalAt m s ≠ none := by
  simp only [freeEntry, List.find?_range_eq_some, Bool.not_eq_true', ← Bool.not_eq_true, Option.isNone_iff_eq_none, ne_eq,
    List.mem_range]
  exact and_left_comm

/-! ### One entry written -/

/-- Of the entries of the Terminal Table one alone changed, and with the table the attention sources alone. -/
structure EntryLeft (n : Nat) (t : Option Terminal) (sources : List Source) (s u : State) : Prop where
  self : terminalAt n u = t
  others : ∀ m, m ≠ n → terminalAt m u = terminalAt m s
  length : u.line.table.length = s.line.table.length
  state : u = { s with line := { s.line with table := u.line.table }, attention := sources }

namespace EntryLeft

variable {n : Nat} {t v : Option Terminal} {x y : List Source} {s u w : State}

theorem set (h : n < s.line.table.length) (t : Option Terminal) : EntryLeft n t s.attention s (setTerminal n t s) :=
  ⟨terminalAt_setTerminal_self h t, fun _ hm => terminalAt_setTerminal_ne hm t s, List.length_set .., rfl⟩

theorem modify {t : Terminal} (h : terminalAt n s = some t) (f : Terminal → Terminal) :
    EntryLeft n (some (f t)) s.attention s (modifyTerminal n f s) :=
  ⟨by rw [terminalAt_modifyTerminal_self, h]; rfl, fun _ hm => terminalAt_modifyTerminal_ne hm f s,
    List.length_modify .., rfl⟩

theorem attention_eq (h : EntryLeft n t x s u) : u.attention = x := by rw [h.state]

theorem trans (h : EntryLeft n t x s u) (g : EntryLeft n v y u w) : EntryLeft n v y s w :=
  ⟨g.self, fun m hm => (g.others m hm).trans (h.others m hm), g.length.trans h.length, by
    refine g.state.trans ?_
    rw [h.state]⟩

/-- A source raised after the write. -/
theorem raised (h : EntryLeft n t s.attention s u) (id : SourceId) (subject : Option Subject) :
    EntryLeft n t (raise id subject s).attention s (raise id subject u) :=
  ⟨h.self, h.others, h.length, by
    rw [h.state]
    rfl⟩

end EntryLeft

/-! ### What an answer leaves -/

theorem isServed_iff {x : TerminalState} : x.isServed = true ↔ x = .active ∨ x = .silent := by cases x <;> decide

theorem any_isServed_iff {n : Nat} {s : State} : (terminalAt n s).any (·.state.isServed) = true ↔ InService n s := by
  simp only [Option.any_eq_true, isServed_iff, InService]

theorem goodAnswer_none {n : Nat} {s : State} (h : terminalAt n s = none) : goodAnswer n s = s := by
  unfold goodAnswer
  rw [h]

theorem missedAnswer_none {n : Nat} {s : State} (h : terminalAt n s = none) : missedAnswer n s = s := by
  unfold missedAnswer
  rw [h]

variable {n : Nat} {t : Terminal} {s : State}

theorem goodAnswer_left (h : terminalAt n s = some t) :
    EntryLeft n (some (heardNow s.time.running t)) s.attention s (goodAnswer n s) := by
  have leaves : goodAnswer n s = setTerminal n (some (heardNow s.time.running t)) s := by
    unfold goodAnswer heardNow
    rw [h]
    simp only [isServed_iff]
  rw [leaves]
  exact .set (terminalAt_lt h) _

theorem missedAnswer_left (h : terminalAt n s = some t) :
    EntryLeft n (some (missedOnce t)) (missedRaises n t s) s (missedAnswer n s) := by
  have lt := terminalAt_lt h
  unfold missedAnswer missedOnce missedRaises
  rw [h]
  dsimp only
  by_cases served : t.state = .active ∨ t.state = .silent
  · simp only [isServed_iff.2 served, if_pos served, Bool.not_true, Bool.false_eq_true, if_false]
    by_cases few : t.missed + 1 < 3
    · rw [if_pos few, if_pos few, if_neg (by omega)]
      exact .set lt _
    · rw [if_neg few, if_neg few, if_pos ⟨served, by omega⟩]
      exact (EntryLeft.set lt _).raised .terminal _
  · have idle : (!t.state.isServed) = true := by rw [Bool.eq_false_iff.2 fun x => served (isServed_iff.1 x)]; rfl
    rw [if_pos idle, if_neg served, if_neg fun x => served x.1]
    exact ⟨h, fun _ _ => rfl, rfl, rfl⟩

/-! ### The answer recorded -/

/-- The terminal whose answer the job under way awaits is that of an entry. -/
def Answering (n : Nat) (s : State) : Prop :=
  (∃ i, s.line.job = .liveness n i) ∨ ∃ p, s.line.job = .pollServe p ∧ p.entry = n

theorem Answering.serving {p : PollRound} (h : s.line.job = .pollServe p) : Answering p.entry s := .inr ⟨p, h, rfl⟩

theorem Answering.checking {i : Identity} (h : s.line.job = .liveness n i) : Answering n s := .inl ⟨i, h⟩

theorem Answering.congr {u : State} (h : Answering n s) (e : u.line.job = s.line.job) : Answering n u := by
  unfold Answering
  rw [e]
  exact h

theorem answeringEntry_orphan (h : s.line.orphan = true) : answeringEntry s = none := if_pos h

theorem answeringEntry_of (h : Answering n s) (kept : s.line.orphan = false) : answeringEntry s = some n := by
  unfold answeringEntry
  rw [if_neg (ne_true_of_eq_false kept)]
  obtain ⟨i, e⟩ | ⟨p, e, rfl⟩ := h <;> rw [e]

theorem recordAnswer_orphan (f : Nat → State → State) (h : s.line.orphan = true) : recordAnswer f s = s := by
  unfold recordAnswer
  rw [answeringEntry_orphan h]

theorem recordAnswer_of (f : Nat → State → State) (h : Answering n s) (kept : s.line.orphan = false) : recordAnswer f s = f n s := by
  unfold recordAnswer
  rw [answeringEntry_of h kept]

/-- An answer recorded by a function that writes the one entry. -/
theorem answerRecorded_of {leaves : Terminal → Terminal} {sources : Terminal → List Source} {f : Nat → State → State}
    (h : Answering n s) (free : terminalAt n s = none → f n s = s)
    (held : ∀ t, terminalAt n s = some t → EntryLeft n (some (leaves t)) (sources t) s (f n s)) :
    AnswerRecorded n leaves sources s (recordAnswer f s) := by
  refine ⟨fun none => ?_, fun t kept ht => ?_⟩
  · cases kept : s.line.orphan with
    | true => exact recordAnswer_orphan f kept
    | false =>
      rw [recordAnswer_of f h kept]
      exact free (none.resolve_left (ne_true_of_eq_false kept))
  · rw [recordAnswer_of f h kept]
    obtain ⟨self, others, _, state⟩ := held t ht
    exact ⟨self, others, state⟩

theorem missed_recorded (h : Answering n s) :
    AnswerRecorded n missedOnce (missedRaises n · s) s (recordAnswer missedAnswer s) :=
  answerRecorded_of h missedAnswer_none fun _ => missedAnswer_left

theorem good_recorded (h : Answering n s) :
    AnswerRecorded n (heardNow s.time.running) (fun _ => s.attention) s (recordAnswer goodAnswer s) :=
  answerRecorded_of h goodAnswer_none fun _ => goodAnswer_left

theorem modified_recorded (h : Answering n s) (f : Terminal → Terminal) :
    AnswerRecorded n f (fun _ => s.attention) s (recordAnswer (fun m => modifyTerminal m f) s) :=
  answerRecorded_of h (fun free => modifyTerminal_free free f) fun _ ht => .modify ht f

section Recorded

variable {leaves : Terminal → Terminal} {sources : Terminal → List Source} {u : State}

/-- A recorded answer writes the table and the attention sources alone. -/
theorem answerRecorded_state (h : AnswerRecorded n leaves sources s u) :
    u = { s with line := { s.line with table := u.line.table }, attention := u.attention } := by
  cases kept : s.line.orphan with
  | true => rw [h.1 (.inl kept)]
  | false =>
    cases ht : terminalAt n s with
    | none => rw [h.1 (.inr ht)]
    | some t =>
      obtain ⟨_, _, e⟩ := h.2 t kept ht
      rw [e]

theorem answerRecorded_job (h : AnswerRecorded n leaves sources s u) : u.line.job = s.line.job := by rw [answerRecorded_state h]
theorem answerRecorded_orphan (h : AnswerRecorded n leaves sources s u) : u.line.orphan = s.line.orphan := by rw [answerRecorded_state h]
theorem answerRecorded_dropJob (h : AnswerRecorded n leaves sources s u) : u.line.dropJob = s.line.dropJob := by rw [answerRecorded_state h]

/-- An answer that leaves a terminal served or not leaves its entry in service or not. -/
theorem answerRecorded_inService (h : AnswerRecorded n leaves sources s u)
    (stays : ∀ t, (leaves t).state.isServed = t.state.isServed) : InService n u ↔ InService n s := by
  cases kept : s.line.orphan with
  | true => rw [h.1 (.inl kept)]
  | false =>
    cases ht : terminalAt n s with
    | none => rw [h.1 (.inr ht)]
    | some t =>
      obtain ⟨self, _, _⟩ := h.2 t kept ht
      rw [← any_isServed_iff, ← any_isServed_iff, self, ht, Option.any_some, Option.any_some, stays]

theorem answerRecorded_after (h : AnswerRecorded n leaves sources s u) (f : State → State) :
    afterTransaction f u = thenGoesOn s u (f u) := by
  unfold afterTransaction thenGoesOn
  rw [answerRecorded_dropJob h]

end Recorded

theorem heardNow_isServed (now : RunTime) (t : Terminal) : (heardNow now t).state.isServed = t.state.isServed := by
  unfold heardNow
  split
  · rename_i h
    rw [isServed_iff.2 h]
    rfl
  · rfl

/-- An answer leaves the Verdict Hold and the recorded flags. -/
theorem heardNow_rest (now : RunTime) (t : Terminal) :
    (heardNow now t).hold = t.hold ∧ (heardNow now t).overflow = t.overflow ∧ (heardNow now t).fault = t.fault := by
  unfold heardNow
  split <;> exact ⟨rfl, rfl, rfl⟩

/-! ### What follows an answer -/

theorem leaveTerminal_serving {p : PollRound} (h : s.line.job = .pollServe p) : leaveTerminal s = serve p.rest s := by
  unfold leaveTerminal
  rw [h]

theorem leaveTerminal_checking {i : Identity} (h : s.line.job = .liveness n i) : leaveTerminal s = endJob s := by
  unfold leaveTerminal
  rw [h]

/-- After the last transaction with its terminal a poll round goes on with the next found one (R112). -/
theorem serving_goesOn {p : PollRound} {leaves : Terminal → Terminal} {sources : Terminal → List Source} {u : State}
    (job : s.line.job = .pollServe p) (recorded : AnswerRecorded n leaves sources s u) :
    afterTransaction leaveTerminal u = thenGoesOn s u (serve p.rest u) := by
  rw [answerRecorded_after recorded, leaveTerminal_serving ((answerRecorded_job recorded).trans job)]

/-- A liveness check ends with its transaction, dropped or not (R118, R123). -/
theorem afterTransaction_checking {i : Identity} (h : s.line.job = .liveness n i) : afterTransaction leaveTerminal s = endJob s := by
  unfold afterTransaction
  rw [leaveTerminal_checking h, ite_self]

end Sys2Proof.Machine
end

