-- ==== Sys2Proof/Proofs/LineChoice.lean ====
section
/-! PROOF. The choice of a job, LIVENESS_DUE and SEEKALL (R110–R112, R118, R119). -/

namespace Sys2Proof.Machine

variable {n : Nat} {t : Terminal} {s : State} {d : RunTime}

/-! ### The choice -/

theorem livenessDueAt_eq (t : Terminal) : livenessDueAt t = checkFallsAt t := rfl

/-- A check has fallen due where both its times lie at or before the present one (R118). -/
theorem checkFallsAt_le : checkFallsAt t ≤ d ↔ t.lastHeard + 1000 ≤ d ∧ ∀ a, t.lastLiveness = some a → a + 1000 ≤ d := by
  unfold checkFallsAt
  rw [max_le_iff]
  cases t.lastLiveness with
  | none => simp
  | some a => simp

theorem livenessDueFor_iff : livenessDueFor n s = true ↔ LivenessDue s n := by
  simp only [livenessDueFor, LivenessDue, Option.any_eq_true, Bool.and_eq_true, isServed_iff, decide_eq_true_eq, livenessDueAt_eq,
    checkFallsAt_le]

theorem firstCheck_none (h : ∀ n < 8, ¬LivenessDue s n) : (List.range 8).find? (livenessDueFor · s) = none := by
  simpa only [List.find?_range_eq_none, Bool.not_eq_true', ← Bool.not_eq_true, livenessDueFor_iff] using h

theorem firstCheck_some (hn : n < 8) (due : LivenessDue s n) (first : ∀ m < n, ¬LivenessDue s m) :
    (List.range 8).find? (livenessDueFor · s) = some n := by
  simp only [List.find?_range_eq_some, Bool.not_eq_true', ← Bool.not_eq_true, livenessDueFor_iff, List.mem_range]
  exact ⟨due, hn, first⟩

/-- No display-clock broadcast is made that is not due, or without a valid clock (R110; log 27). -/
theorem not_broadcastDue (h : s.line.clockDue = false ∨ s.time.valid = false) : ¬(s.line.clockDue && s.time.valid) = true := by
  obtain h | h := h <;> simp [h]

/-- A free line with nothing ranked higher begins the check of the lowest due entry (R111, R118). -/
theorem chooseJob_check (pending : s.line.enumerationPending = false) (clock : s.line.clockDue = false ∨ s.time.valid = false)
    (hn : n < 8) (due : LivenessDue s n) (first : ∀ m < n, ¬LivenessDue s m) (ht : terminalAt n s = some t) :
    chooseJob s =
      begin_ (.liveness n t.identity) (.readState false) (setTerminal n (some { t with lastLiveness := some s.time.running }) s) := by
  unfold chooseJob beginLiveness
  rw [if_neg (ne_true_of_eq_false pending), if_neg (not_broadcastDue clock), firstCheck_some hn due first]
  dsimp only
  rw [ht]

/-- What the choice takes: a branch for each job, in their rank (R111). -/
theorem chooseJob_chosen (s : State) : JobChosen s (chooseJob s) := by
  refine ⟨fun pending => if_pos pending, fun pending => ⟨fun clock => ?_, fun clock => ⟨fun n t hn due first ht => ?_, fun none => ?_⟩⟩⟩
  · unfold chooseJob
    rw [if_neg (ne_true_of_eq_false pending), if_pos (by simpa using clock)]
    rfl
  · exact chooseJob_check pending clock hn due first ht
  · unfold chooseJob
    rw [if_neg (ne_true_of_eq_false pending), if_neg (not_broadcastDue clock), firstCheck_none none]
    by_cases opening : s.day.state = .opening
    · simp only [opening, ne_eq, not_true, if_true, if_false]
    · simp only [opening, ne_eq, not_false_eq_true, if_true, if_false]
      rfl

theorem chooseIfFree_free (h : lineFree s = true) : chooseIfFree s = chooseJob s := if_pos h
theorem chooseIfFree_busy (h : ¬lineFree s = true) : chooseIfFree s = s := if_neg h

/-! ### LIVENESS_DUE -/

/-- The earlier of a time and the time at which an entry's check falls due. -/
def earlierCheck (best : Option RunTime) (x : Option Terminal) : Option RunTime :=
  match x with
  | none => best
  | some t => if t.state.isServed then some (min (livenessDueAt t) (best.getD (livenessDueAt t))) else best

theorem livenessNext_eq (s : State) : livenessNext s = s.line.table.foldl earlierCheck none := rfl

/-- A check of the list falls due at a time. -/
def FallsIn (l : List (Option Terminal)) (d : RunTime) : Prop := ∃ t, some t ∈ l ∧ t.state.isServed = true ∧ checkFallsAt t = d

/-- The earlier of two times is one of them, and neither lies before it. -/
theorem earlierCheck_least (best : Option RunTime) (x : Option Terminal) :
    (∀ d, earlierCheck best x = some d → best = some d ∨ FallsIn [x] d) ∧
      ∀ d, best = some d ∨ FallsIn [x] d → ∃ e ≤ d, earlierCheck best x = some e := by
  have unchanged (same : earlierCheck best x = best) (never : ∀ d, ¬FallsIn [x] d) :
      (∀ d, earlierCheck best x = some d → best = some d ∨ FallsIn [x] d) ∧
        ∀ d, best = some d ∨ FallsIn [x] d → ∃ e ≤ d, earlierCheck best x = some e :=
    ⟨fun d e => .inl (same ▸ e), fun d h => ⟨d, Nat.le_refl d, same.trans (h.resolve_right (never d))⟩⟩
  cases x with
  | none => exact unchanged rfl fun d ⟨_, h, _⟩ => by simp at h
  | some t =>
    by_cases served : t.state.isServed = true
    · have falls (d : RunTime) : FallsIn [some t] d ↔ checkFallsAt t = d := by simp [FallsIn, served]
      simp only [earlierCheck, served, if_true, livenessDueAt_eq, falls]
      cases best with
      | none => simp
      | some b => grind
    · exact unchanged (if_neg served) fun d ⟨u, h, hs, _⟩ => by
        obtain rfl : u = t := by simpa using h
        exact served hs

/-- The fold finds the least of the time it began with and those of the list. -/
theorem foldl_earlierCheck (l : List (Option Terminal)) (best : Option RunTime) :
    (∀ d, l.foldl earlierCheck best = some d → best = some d ∨ FallsIn l d) ∧
      (∀ d, best = some d ∨ FallsIn l d → ∃ e ≤ d, l.foldl earlierCheck best = some e) := by
  induction l generalizing best with
  | nil => exact ⟨fun d e => .inl e, fun d h => ⟨d, Nat.le_refl d, h.resolve_right fun ⟨_, h, _⟩ => nomatch h⟩⟩
  | cons x l ih =>
    obtain ⟨found, least⟩ := ih (earlierCheck best x)
    obtain ⟨foundFirst, leastFirst⟩ := earlierCheck_least best x
    have parts (d : RunTime) : FallsIn (x :: l) d ↔ FallsIn [x] d ∨ FallsIn l d := by
      simp [FallsIn, or_and_right, exists_or]
    refine ⟨fun d e => ?_, fun d h => ?_⟩
    · rw [parts, ← or_assoc]
      exact (found d e).imp_left (foundFirst d)
    · rw [parts, ← or_assoc] at h
      obtain h | h := h
      · obtain ⟨e, le, he⟩ := leastFirst d h
        obtain ⟨c, le', hc⟩ := least e (.inl he)
        exact ⟨c, le'.trans le, hc⟩
      · exact least d (.inr h)

theorem fallsIn_iff : FallsIn s.line.table d ↔
    ∃ n t, terminalAt n s = some t ∧ (t.state = .active ∨ t.state = .silent) ∧ checkFallsAt t = d := by
  simp only [FallsIn, List.mem_iff_getElem?, isServed_iff, terminalAt, Option.bind_id_eq_join, Option.join_eq_some_iff]
  grind

/-- The earliest check of the table. -/
theorem livenessNext_of (some_ : FallsIn s.line.table d) (least : ∀ e, FallsIn s.line.table e → d ≤ e) : livenessNext s = some d := by
  rw [livenessNext_eq]
  obtain ⟨e, le, he⟩ := (foldl_earlierCheck s.line.table none).2 d (.inr some_)
  have := least e (((foldl_earlierCheck s.line.table none).1 e he).resolve_left nofun)
  rw [he, Nat.le_antisymm le this]

/-- A check that has fallen due at an entry is not later than the earliest. -/
theorem livenessNext_le (h : FallsIn s.line.table d) : ∃ e ≤ d, livenessNext s = some e :=
  (foldl_earlierCheck s.line.table none).2 d (.inr h)

theorem livenessFalls_of (h : livenessNext s = some d) :
    livenessFalls s = if d < nextSecond s then chooseIfFree (reach d s) else s := by
  unfold livenessFalls dueBy
  rw [h]
  simp only [decide_eq_true_eq]

theorem reach_past (h : d ≤ s.time.running) : reach d s = s := by
  unfold reach
  rw [max_eq_left h]

theorem lt_nextSecond (s : State) : s.time.running < nextSecond s := by
  show s.time.running < (s.time.running / 100 + 1) * 100
  exact Nat.lt_mul_of_div_lt (Nat.lt_succ_self _) (by decide)

/-- LIVENESS_DUE with a check that fell due already: the line chooses. -/
theorem livenessFalls_past (due : LivenessDue s n) : livenessFalls s = chooseIfFree s := by
  obtain ⟨t, ht, served, past⟩ := due
  have le : checkFallsAt t ≤ s.time.running := checkFallsAt_le.2 past
  obtain ⟨e, earlier, next⟩ := livenessNext_le (fallsIn_iff.2 ⟨n, t, ht, served, rfl⟩)
  rw [livenessFalls_of next, if_pos ((earlier.trans le).trans_lt (lt_nextSecond s)), reach_past (earlier.trans le)]

/-! ### SEEKALL -/

theorem enumerating_iff : enumerating s = true ↔ ∃ w, s.line.job = .enumeration w := by
  unfold enumerating
  split
  · rename_i w h
    simp [h]
  · rename_i h
    simpa using h

theorem seekAll_answers (s : State) : Answers (checksOf .seekAll s) s (seekAll s) := by
  refine .ite (by rw [Bool.or_eq_true, enumerating_iff]) fun _ => .taken nofun

/-- SEEKALL taken: an enumeration is pending, and a free line begins its walk. -/
theorem seekAll_taken (pending : s.line.enumerationPending = false) (idle : enumerating s = false) :
    seekAll s =
      ({ s with
         line :=
           if lineFree s then
             { s.line with
               job := .enumeration (.start none), phase := .alert .seek, orphan := false, leftEntrance := none,
               enumerationPending := false }
           else { s.line with enumerationPending := true } },
        .started []) := by
  unfold seekAll
  rw [pending, idle]
  refine Prod.ext ?_ rfl
  by_cases free : lineFree s = true
  · have begins : lineFree { s with line := { s.line with enumerationPending := true } } = true := free
    rw [if_pos free]
    exact chooseIfFree_free begins
  · have busy : ¬lineFree { s with line := { s.line with enumerationPending := true } } = true := free
    rw [if_neg free]
    exact chooseIfFree_busy busy

/-- Settles O31: the choice branch by branch, then LIVENESS_DUE and SEEKALL, which call for it. -/
theorem jobsBeginOnAFreeLine : Obligations.JobsBeginOnAFreeLine := by
  unfold Obligations.JobsBeginOnAFreeLine
  refine ⟨fun s => ⟨fun free => ?_, fun busy => ?_, chooseJob_chosen _, fun _ _ => rfl⟩, fun d s held => ?_, fun s held => ?_,
    fun n t s held free pending clock ht hn due first _ => ?_⟩
  · rw [chooseIfFree_free (lineFree_iff.2 free)]
    exact chooseJob_chosen s
  · exact chooseIfFree_busy fun h => busy (lineFree_iff.1 h)
  · intro served falls least
    have next : livenessNext s = some d := livenessNext_of (fallsIn_iff.2 falls) fun e he => by
      obtain ⟨n, t, ht, hs, rfl⟩ := fallsIn_iff.1 he
      exact least n t ht hs
    exact (event_next held livenessFalls).trans (congrArg _ (livenessFalls_of next))
  · refine ⟨refusedByItsChecks_of rfl held (seekAll_answers s), fun wrong => exec_taken rfl held (if_pos (Bool.or_eq_true _ _ ▸ wrong)),
      fun pending idle => ⟨_, exec_taken rfl held (seekAll_taken pending idle), rfl⟩⟩
  · have choice : exec .livenessDue s = .next (chooseJob s) :=
      (event_next held livenessFalls).trans (congrArg _ ((livenessFalls_past due).trans (chooseIfFree_free free)))
    rw [chooseJob_check pending (.inl clock) hn due first ht] at choice
    exact ⟨_, choice, rfl, rfl, rfl, terminalAt_setTerminal_self (terminalAt_lt ht) _, fun m hm => terminalAt_setTerminal_ne hm _ s⟩

end Sys2Proof.Machine
end

