-- ==== Sys2Proof/Proofs/AdmitAndRetire.lean ====
section
/-! PROOF. ADMIT and RETIRE (R108, R120, R121). -/

namespace Sys2Proof.Machine

variable {i : Identity} {entrance n : Nat} {t : Terminal} {s : State}

/-! ### ADMIT -/

theorem freeEntry_none_of_full : (∀ m < 8, ∃ t, terminalAt m s = some t ∧ t.identity ≠ i) ↔
    entryWith i s = none ∧ freeEntry s = none := by
  simp only [entryWith_eq_none, freeEntry_eq_none]
  refine ⟨fun h => ⟨fun m hm t ht => ?_, fun m hm e => ?_⟩, fun ⟨unlisted, full⟩ m hm => ?_⟩
  · obtain ⟨u, hu, other⟩ := h m hm
    cases ht.symm.trans hu
    exact other
  · obtain ⟨u, hu, _⟩ := h m hm
    nomatch e.symm.trans hu
  · obtain ⟨t, ht⟩ := Option.ne_none_iff_exists'.1 (full m hm)
    exact ⟨t, ht, unlisted m hm t ht⟩

theorem not_admitAllowed_iff : (!identityValid i || decide (8 < entrance)) = true ↔ identityValid i = false ∨ 8 < entrance := by
  rw [Bool.or_eq_true, Bool.not_eq_true', decide_eq_true_iff]

theorem admit_answers (i : Identity) (entrance : Nat) (s : State) :
    Answers (checksOf (.admitTerminal i entrance) s) s (admitRequest i entrance s) := by
  refine .ite Iff.rfl fun _ => .ite not_admitAllowed_iff fun _ => ?_
  cases listed : entryWith i s with
  | some n => exact .passes (fun h => by simp [(freeEntry_none_of_full.1 h).1] at listed) (.ok _ _)
  | none =>
    dsimp only
    cases free : freeEntry s with
    | none => exact .refused (freeEntry_none_of_full.2 ⟨listed, free⟩)
    | some n => exact .passes (fun h => by simp [(freeEntry_none_of_full.1 h).2] at free) (.ok _ _)

/-- What ADMIT leaves in an entry that holds the identity (R120). -/
def admitted (entrance : Nat) (now : RunTime) (t : Terminal) : Terminal :=
  if t.state.isServed then { t with entrance := entrance }
  else { t with state := .active, missed := 0, lastHeard := now, entrance := entrance }

theorem admitted_eq (entrance : Nat) (now : RunTime) (t : Terminal) :
    admitted entrance now t =
      if t.state = .new ∨ t.state = .lost then { t with state := .active, missed := 0, lastHeard := now, entrance := entrance }
      else { t with entrance := entrance } := by
  unfold admitted
  cases t.state <;> rfl

section Admit

variable (open_ : storeHolds .terminals s = false) (valid : identityValid i = true) (range : entrance ≤ 8)
include open_ valid range

/-- ADMIT past its first checks. -/
theorem admit_checked : admitRequest i entrance s =
    match entryWith i s with
    | some n => (modifyTerminal n (admitted entrance s.time.running) s, .ok [.num n])
    | none =>
      match freeEntry s with
      | none => refuse .full s
      | some n => (setTerminal n (some (.new i entrance .active s.time.running)) s, .ok [.num n]) := by
  unfold admitRequest
  rw [if_neg (ne_true_of_eq_false open_), if_neg fun h => ?_]
  · rfl
  · obtain h | h := not_admitAllowed_iff.1 h
    · exact Bool.false_ne_true (h.symm.trans valid)
    · exact Nat.not_lt.2 range h

theorem admit_listed (listed : entryWith i s = some n) :
    admitRequest i entrance s = (modifyTerminal n (admitted entrance s.time.running) s, .ok [.num n]) := by
  rw [admit_checked open_ valid range, listed]

theorem admit_unlisted (listed : entryWith i s = none) (free : freeEntry s = some n) :
    admitRequest i entrance s = (setTerminal n (some (.new i entrance .active s.time.running)) s, .ok [.num n]) := by
  rw [admit_checked open_ valid range, listed, free]

theorem admit_full (listed : entryWith i s = none) (full : freeEntry s = none) : admitRequest i entrance s = refuse .full s := by
  rw [admit_checked open_ valid range, listed, full]

end Admit

/-! ### RETIRE -/

theorem retire_answers (n : Nat) (s : State) : Answers (checksOf (.retire n) s) s (retire n s) :=
  .ite Iff.rfl fun _ => .ite Iff.rfl fun _ => .ite Option.isNone_iff_eq_none fun _ => .ok _ _

/-- RETIRE leaves the entry free and no identity refused (R121). -/
def retired (n : Nat) (s : State) : State :=
  { setTerminal n none (retireFromJob n s) with line := { (setTerminal n none (retireFromJob n s)).line with refused := none } }

theorem retire_taken (open_ : storeHolds .terminals s = false) (hn : n < 8) (ht : terminalAt n s = some t) :
    retire n s = (retired n s, .ok []) := by
  unfold retire
  rw [if_neg (ne_true_of_eq_false open_), if_neg (Nat.not_le.2 hn), ht]
  rfl

/-- A round with the terminal of another entry, a check of another entry, and every other job goes on as it is. -/
theorem retireFromJob_other (poll : ∀ p, s.line.job = .pollServe p → p.entry ≠ n) (check : ∀ i, s.line.job ≠ .liveness n i) :
    retireFromJob n s = s := by
  unfold retireFromJob
  split
  · rename_i m j job
    exact if_neg fun e : m = n => check j (e ▸ job)
  · rename_i p job
    exact if_neg (poll p job)
  · rfl

/-- A round with the terminal makes no further transaction with it; its entrance number is kept for the present one (R108, R121). -/
theorem retireFromJob_serving {p : PollRound} (job : s.line.job = .pollServe p) :
    retireFromJob p.entry s =
      { keepEntrance s with
        line := { (keepEntrance s).line with job := .pollServe { p with live := false }, orphan := true } } := by
  unfold retireFromJob
  rw [job]
  exact if_pos rfl

/-- RETIRE changes the line alone, and its table in the one entry alone. -/
theorem retireFromJob_lineOnly (n : Nat) (s : State) :
    LineOnly s (retireFromJob n s) ∧ (retireFromJob n s).line.table = s.line.table := by
  unfold retireFromJob
  split
  · split <;> exact ⟨rfl, rfl⟩
  · split <;> exact ⟨rfl, rfl⟩
  · exact ⟨rfl, rfl⟩

theorem retired_lineOnly (n : Nat) (s : State) : LineOnly s (retired n s) := (retireFromJob_lineOnly n s).1.trans rfl

theorem terminalAt_retired_self (h : terminalAt n s = some t) : terminalAt n (retired n s) = none :=
  terminalAt_setTerminal_self ((retireFromJob_lineOnly n s).2 ▸ terminalAt_lt h) none

theorem terminalAt_retired_ne {m : Nat} (h : m ≠ n) : terminalAt m (retired n s) = terminalAt m s :=
  (terminalAt_setTerminal_ne h none (retireFromJob n s)).trans (terminalAt_congr (retireFromJob_lineOnly n s).2 m)

/-- The verdict list of the transaction under way carries the number that the entry held (R108). -/
theorem verdictBytes_kept {p : PollRound} {e : Nat} {u : State} (h : u.line.leftEntrance = some e) :
    verdictBytes p u =
      0x11#8 :: BitVec.ofNat 8 p.verdicts.length :: BitVec.ofNat 8 e :: flagByte u.day.closureFlag ::
        p.verdicts.flatMap fun v => [BitVec.ofNat 8 v.1, verdictCode v.2] := by
  unfold verdictBytes entranceOf
  rw [h]
  rfl

/-- Settles O32: the checks, then the entry each of the two requests writes. -/
theorem admitAndRetireWriteOneEntry : Obligations.AdmitAndRetireWriteOneEntry := by
  unfold Obligations.AdmitAndRetireWriteOneEntry
  refine ⟨fun s held => ⟨fun i entrance => refusedByItsChecks_of rfl held (admit_answers i entrance s),
      fun n => refusedByItsChecks_of rfl held (retire_answers n s)⟩,
    fun i entrance n s held open_ valid range eight => ⟨fun t listed ht => ?_, fun listed hn free first => ?_, fun listed full => ?_⟩,
    fun n t s held open_ hn ht => ?_⟩
  · have left := EntryLeft.modify ht (admitted entrance s.time.running)
    refine ⟨_, exec_taken rfl held (admit_listed open_ valid range listed), rfl, left.others, ?_⟩
    rw [left.self, admitted_eq]
  · have left := EntryLeft.set (n := n) (s := s) (eight ▸ hn) (some (.new i entrance .active s.time.running))
    exact ⟨_, exec_taken rfl held (admit_unlisted open_ valid range listed (freeEntry_eq_some.2 ⟨hn, free, first⟩)), rfl,
      left.others, left.self⟩
  · exact exec_taken rfl held (admit_full open_ valid range listed (freeEntry_eq_none.2 full))
  · refine ⟨retired n s, exec_taken rfl held (retire_taken open_ hn ht), terminalAt_retired_self ht, fun m => terminalAt_retired_ne,
      rfl, retired_lineOnly n s, fun p job same => ?_, fun poll check => ?_⟩
    · subst same
      have serving : (retired p.entry s).line =
          { (keepEntrance s).line with
            table := s.line.table.set p.entry none, job := .pollServe { p with live := false }, orphan := true, refused := none } := by
        unfold retired
        rw [retireFromJob_serving job]
        rfl
      refine ⟨by rw [serving], by rw [serving], fun first => ?_⟩
      rw [verdictBytes_kept (u := retired p.entry s) (by rw [serving]; exact keepEntrance_serving job first ht),
        retired_lineOnly p.entry s]
    · unfold retired
      rw [retireFromJob_other poll check]
      exact ⟨rfl, rfl⟩

end Sys2Proof.Machine
end

