-- ==== Sys2Proof/Proofs/LineAlerts.lean ====
section
/-! PROOF. What goes out on the entrance line (R104, R105, R208, R211), and ALERT answered or not (R103, R106–R110, R112). -/

namespace Sys2Proof.Machine

/-! ### Numbers and bits as bytes -/

theorem lowFirst_succ (k n : Nat) : lowFirst (k + 1) n = BitVec.ofNat 8 n :: lowFirst k (n / 256) := by
  unfold lowFirst
  rw [List.range_succ_eq_map, List.map_cons, List.map_map, pow_zero, Nat.div_one]
  congr 1
  refine List.map_congr_left fun i _ => ?_
  rw [Function.comp_apply, Nat.pow_succ', Nat.div_div_eq_div_mul]

theorem bytesLow_eq (k n : Nat) : bytesLow k n = lowFirst k n := by
  induction k generalizing n with
  | zero => rfl
  | succ k ih => rw [lowFirst_succ, ← ih]; rfl

/-- The check goes out low byte first (R208). -/
theorem check16Bytes_eq (t : Text) : check16Bytes t = lowFirst 2 (check16 t).toNat := by
  rw [lowFirst_succ, lowFirst_succ]
  simp only [check16Bytes, lowFirst, List.range_zero, List.map_nil, List.cons.injEq, and_true]
  constructor
  · refine BitVec.eq_of_toNat_eq ?_
    simp
  · refine BitVec.eq_of_toNat_eq ?_
    simp [Nat.shiftRight_eq_div_pow]

theorem append_check16Bytes (t : Text) : t ++ check16Bytes t = checkedBytes t := by
  rw [check16Bytes_eq]
  rfl

/-- Bit `i` of a walk's path is bit `i` of the identity it makes. -/
theorem getLsbD_identityOfBits (bits : List Bool) (i : Nat) :
    (identityOfBits bits).getLsbD i = (decide (i < 56) && bits.getD i false) := by
  induction bits generalizing i with
  | nil => simp [identityOfBits]
  | cons b rest ih =>
    have step : identityOfBits (b :: rest) = (identityOfBits rest <<< 1) ||| (if b then 1 else 0) := rfl
    rw [step, BitVec.getLsbD_or, BitVec.getLsbD_shiftLeft]
    cases i with
    | zero => cases b <;> simp
    | succ i =>
      have low : ((if b then 1 else 0 : Identity)).getLsbD (i + 1) = false := by
        cases b
        · simp
        · simp [BitVec.getLsbD_one]
      rw [low, Nat.add_sub_cancel, ih]
      by_cases h : i + 1 < 56
      · simp [h, Nat.lt_of_succ_lt h]
      · simp [h]

theorem identityBytes_length (i : Identity) : (identityBytes i).length = 7 := by simp [identityBytes]

/-- The bits of a byte of an identity. -/
theorem getLsbD_identityBytes {k j : Nat} (i : Identity) (hk : k < 7) (hj : j < 8) :
    ((identityBytes i).getD k 0).getLsbD j = i.getLsbD (8 * k + j) := by
  simp [identityBytes, List.getD_eq_getElem?_getD, hk, hj]

/-- The bytes of a walk's path: bit `i` of the path as bit `i`, and 0 from its end onward (R105, R211). -/
theorem getLsbD_pathBytes {path : List Bool} (h : path.length < 56) {i : Nat} (hi : i < 8 * ((path.length + 7) / 8)) :
    (((identityBytes (identityOfBits path)).take ((path.length + 7) / 8)).getD (i / 8) 0).getLsbD (i % 8) = path.getD i false := by
  have inside : i / 8 < (path.length + 7) / 8 := by omega
  have whole : i < 56 := by omega
  rw [List.getD_eq_getElem?_getD, List.getElem?_take_of_lt inside, ← List.getD_eq_getElem?_getD,
    getLsbD_identityBytes _ (by omega) (by omega), getLsbD_identityOfBits, Nat.div_add_mod, decide_eq_true whole, Bool.true_and]

/-! ### What goes out -/

/-- SEEK and SEEK WAITING of a walk's path (R105). -/
theorem seekBytes_sent (w : Walk) (h : w.path.length < 56) :
    ∃ sent : Text,
      seekBytes w =
        (match w.condition with
          | none => [3]
          | some .taps => [4, 1]
          | some .fault => [4, 2]
          | some .either => [4, 3]) ++ BitVec.ofNat 8 w.path.length :: sent ∧
      sent.length = (w.path.length + 7) / 8 ∧
      ∀ i < 8 * sent.length, (sent.getD (i / 8) 0).getLsbD (i % 8) = w.path.getD i false := by
  have length : ((identityBytes (identityOfBits w.path)).take ((w.path.length + 7) / 8)).length = (w.path.length + 7) / 8 := by
    rw [List.length_take, identityBytes_length]
    omega
  refine ⟨_, ?_, length, fun i hi => getLsbD_pathBytes h (length ▸ hi)⟩
  unfold seekBytes
  rcases w.condition with _ | _ | _ | _ <;> rfl

theorem displayBytes_sent (s : State) :
    displayBytes s =
      [2, 0x13] ++ lowFirst 3 s.time.school ++
        [BitVec.ofNat 8 ((yearMonthDay s.time.date).1 - 2000), BitVec.ofNat 8 (yearMonthDay s.time.date).2.1,
          BitVec.ofNat 8 (yearMonthDay s.time.date).2.2] := by
  unfold displayBytes
  rw [bytesLow_eq]
  rfl

/-- The verdict list of a terminal that its entry still holds (R108). -/
theorem verdictBytes_listed {p : PollRound} {x : Terminal} {s : State} (hx : terminalAt p.entry s = some x)
    (first : s.line.leftEntrance = none) :
    verdictBytes p s =
      [0x11, BitVec.ofNat 8 p.verdicts.length, BitVec.ofNat 8 x.entrance, flagByte s.day.closureFlag] ++
        p.verdicts.flatMap fun v => [BitVec.ofNat 8 v.1, verdictCode v.2] := by
  unfold verdictBytes entranceOf
  rw [first, hx]
  rfl

/-- The bytes of a transaction, job by job (R104, R211). -/
theorem sendingOf_sent (t : Transaction) (s : State) : SendsOnLine t s (sendingOf t s) := by
  unfold SendsOnLine sendingOf
  cases job : s.line.job with
  | idle => trivial
  | broadcast =>
    cases t
    case displayClock => exact displayBytes_sent s
    all_goals trivial
  | liveness n i =>
    cases t
    case readState clear =>
      cases clear with
      | false => rfl
      | true => trivial
    all_goals trivial
  | enumeration w =>
    cases t
    case seek => exact seekBytes_sent w
    all_goals trivial
  | pollWalk w =>
    cases t
    case seek => exact seekBytes_sent w
    all_goals trivial
  | pollServe p =>
    cases t
    case readTaps => rfl
    case readState clear => rfl
    case giveVerdicts =>
      intro pick bit x hx first
      dsimp only
      rw [verdictBytes_listed hx first, List.append_assoc]
      rfl
    all_goals trivial

/-! ### ALERT answered -/

variable {t : Transaction} {s : State} {p : PollRound} {n : Nat} {i : Identity}

/-- The line after a sending. -/
def sentOut (t : Transaction) (s : State) : State :=
  { s with line := { s.line with sent := checkedBytes (sendingOf t s), phase := phaseAfter t } }

theorem alertAnswered_alert (h : s.line.phase = .alert t) :
    alertAnswered s = if t = .displayClock then broadcastMade (sentOut t s) else sentOut t s := by
  unfold alertAnswered
  rw [h]
  dsimp only
  rw [append_check16Bytes]
  rfl

/-! ### ALERT not answered, and an answer missed -/

theorem alertUnanswered_seek (h : s.line.phase = .alert .seek) : alertUnanswered s = afterTransaction walkEnds s := by
  unfold alertUnanswered
  rw [h]

theorem alertUnanswered_displayClock (h : s.line.phase = .alert .displayClock) : alertUnanswered s = broadcastMade s := by
  unfold alertUnanswered
  rw [h]

theorem alertUnanswered_pick (h : s.line.phase = .alert t) (seek : t ≠ .seek) (clock : t ≠ .displayClock) :
    alertUnanswered s = missTransaction s := by
  unfold alertUnanswered
  rw [h]
  cases t
  case seek => exact absurd rfl seek
  case displayClock => exact absurd rfl clock
  all_goals rfl

theorem answerMissed_awaited (h : s.line.phase = .header ∨ s.line.phase = .confirm ∨ s.line.phase = .stateReply) :
    answerMissed s = missTransaction s := by
  unfold answerMissed
  obtain h | h | h := h <;> rw [h]

/-- A missed answer of a liveness check ends the job. -/
theorem missTransaction_checking (h : s.line.job = .liveness n i) : missTransaction s = endJob (recordAnswer missedAnswer s) :=
  afterTransaction_checking ((answerRecorded_job (missed_recorded (.checking h))).trans h)

/-- After a missed answer a poll round goes on with its next found terminal. -/
theorem missTransaction_serving (h : s.line.job = .pollServe p) :
    missTransaction s =
      thenGoesOn s (recordAnswer missedAnswer s) (serve p.rest (recordAnswer missedAnswer s)) :=
  serving_goesOn h (missed_recorded (.serving h))

/-- What follows a transaction whose answer no entry records. -/
theorem afterTransaction_self (f : State → State) (s : State) : afterTransaction f s = thenGoesOn s s (f s) := rfl

theorem walkEnds_enumeration {w : Walk} (h : s.line.job = .enumeration w) : walkEnds s = finishEnumeration w s := by
  unfold walkEnds
  rw [h]

theorem walkEnds_pollWalk {w : Walk} (h : s.line.job = .pollWalk w) : walkEnds s = serve w.found s := by
  unfold walkEnds
  rw [h]

/-- Settles O33: what goes out, then each end of a transaction by the job and the phase it stands in. -/
theorem alertsAreAnsweredOrMissed : Obligations.AlertsAreAnsweredOrMissed := by
  unfold Obligations.AlertsAreAnsweredOrMissed
  refine ⟨fun t s held alert => ⟨sendingOf_sent t s, fun other => ?_, fun clock => ⟨?_, ?_⟩⟩, fun n i s held job => ?_,
    fun p s held job => ?_, fun s held alert => ⟨fun w job => ?_, fun w job => ?_⟩⟩
  · refine (event_next held alertAnswered).trans (congrArg _ ?_)
    rw [alertAnswered_alert alert, if_neg other]
    cases t <;> rfl
  · refine ⟨{ sentOut t s with line := { (sentOut t s).line with clockDue := false } },
      (event_next held alertAnswered).trans (congrArg _ ?_), rfl, rfl, rfl, rfl⟩
    rw [alertAnswered_alert alert, if_pos clock]
    rfl
  · subst clock
    exact (event_next held alertUnanswered).trans (congrArg _ (alertUnanswered_displayClock alert))
  · refine ⟨recordAnswer missedAnswer s, fun alert => ?_, fun awaited => ?_, missed_recorded (.checking job)⟩
    · rw [← missTransaction_checking job, ← alertUnanswered_pick alert nofun nofun]
      exact event_next held alertUnanswered
    · rw [← missTransaction_checking job, ← answerMissed_awaited (.inr (.inr awaited))]
      exact event_next held answerMissed
  · refine ⟨recordAnswer missedAnswer s, fun t alert seek clock => ?_, fun awaited => ?_, missed_recorded (.serving job)⟩
    · rw [← missTransaction_serving job, ← alertUnanswered_pick alert seek clock]
      exact event_next held alertUnanswered
    · rw [← missTransaction_serving job, ← answerMissed_awaited awaited]
      exact event_next held answerMissed
  · rw [← walkEnds_enumeration job, ← afterTransaction_self, ← alertUnanswered_seek alert]
    exact event_next held alertUnanswered
  · rw [← walkEnds_pollWalk job, ← afterTransaction_self, ← alertUnanswered_seek alert]
    exact event_next held alertUnanswered

end Sys2Proof.Machine
end

