-- ==== Sys2Proof/Proofs/ArrivalChange.lean ====
section
/-! SUPPORT. What an arrival does to the pupil, the notices, the sweep and the attention sources (R126–R131, R133–R135, R145). -/

namespace Sys2Proof.Machine

/-! ### The blocks an arrival changes -/

/-- Only the roll, the queue with its counter, the sweep and the attention sources changed. -/
def ArrivalOnly (s t : State) : Prop :=
  t =
    { s with
      roll := t.roll
      notices := { s.notices with queue := t.notices.queue, counter := t.notices.counter }
      sweep := t.sweep
      attention := t.attention }

theorem ArrivalOnly.refl (s : State) : ArrivalOnly s s := rfl

theorem ArrivalOnly.trans {s t u : State} (h : ArrivalOnly s t) (g : ArrivalOnly t u) : ArrivalOnly s u := by
  unfold ArrivalOnly at h g ⊢
  refine g.trans ?_
  rw [h]

theorem claim_arrivalOnly (k : Slot) (f : DayPart → DayPart) (s : State) : ArrivalOnly s (claim k f s) := by
  unfold ArrivalOnly
  rw [claim_state]

theorem tryNotice_arrivalOnly (kind : NoticeKind) (k : Slot) (i c : Nat) (s : State) : ArrivalOnly s (tryNotice kind k i c s).1 := by
  unfold tryNotice
  split <;> rfl

theorem arrivalNotice_arrivalOnly (k : Slot) (d : DayPart) (l : List Contact) (m : Mark) (s : State) :
    ArrivalOnly s (arrivalNotice k d l m s).1 := by
  unfold arrivalNotice
  dsimp only
  split
  · exact tryNotice_arrivalOnly _ _ _ _ s
  · split
    · exact tryNotice_arrivalOnly _ _ _ _ s
    · exact .refl s

/-- What the notices of an arrival change: the queue, its counter and the source FULL. -/
structure NoticesOnly (s t : State) : Prop where
  roll : t.roll = s.roll
  sweep : t.sweep = s.sweep
  sources : ∀ n, n ≠ 11 → sourceAt n t = sourceAt n s
  length : t.attention.length = s.attention.length

theorem tryNotice_noticesOnly (kind : NoticeKind) (k : Slot) (i c : Nat) (s : State) : NoticesOnly s (tryNotice kind k i c s).1 := by
  unfold tryNotice
  split
  · exact ⟨rfl, rfl, fun n hn => sourceAt_raise_ne (id := .full) _ s (Ne.symm hn), List.length_modify ..⟩
  · exact ⟨rfl, rfl, fun _ _ => rfl, rfl⟩

theorem arrivalNotice_noticesOnly (k : Slot) (d : DayPart) (l : List Contact) (m : Mark) (s : State) :
    NoticesOnly s (arrivalNotice k d l m s).1 := by
  unfold arrivalNotice
  dsimp only
  split
  · exact tryNotice_noticesOnly _ _ _ _ s
  · split
    · exact tryNotice_noticesOnly _ _ _ _ s
    · exact ⟨rfl, rfl, fun _ _ => rfl, rfl⟩

/-! ### The notice created -/

/-- The policy calls for a LATE notice (R133). -/
theorem lateCalled_iff {policy : LatePolicy} {m : Mark} :
    lateCalled policy m = true ↔ policy = .always ∧ (m = .late ∨ m = .lateAfterCut) ∨ policy = .afterCut ∧ m = .lateAfterCut := by
  cases policy <;> cases m <;> decide

theorem queueFull_iff {s : State} : queueFull s = true ↔ ¬s.notices.queue.length < 128 := by
  rw [queueFull, decide_eq_true_iff, Nat.not_lt]
  rfl

/-- A notice of a kind to a contact of a pupil joins the queue `q`, or FULL is raised with the slot where 128 stand in it (R133, R134). -/
def NoticeJoins (kind : NoticeKind) (slot : Slot) (position cls : Nat) (q : List Notice) (s u : State) (number : Option Nat) : Prop :=
  if q.length < 128 then
    let k := nextNoticeNumber { s with notices := { s.notices with queue := q } }
    number = some k ∧ u.notices.counter = k ∧ sourceAt 11 u = sourceAt 11 s ∧
      u.notices.queue = q ++ [⟨k, kind, .pupil slot position, cls, s.time.date, s.time.school, none, none, false, false⟩]
  else
    number = none ∧ u.notices.queue = q ∧ u.notices.counter = s.notices.counter ∧
      (s.attention.length = 14 → sourceAt 11 u = (sourceAt 11 s).raised (some (.slot slot)))

variable {slot : Slot} {p : Pupil} {m : Mark} {s c u : State}

/-- The claim `c` of an arrival on the state `s`. -/
def ClaimOf (s c : State) : Prop :=
  c = { s with roll := c.roll, notices := { s.notices with queue := c.notices.queue }, sweep := c.sweep }

theorem tryNotice_joins (h : ClaimOf s c) (kind : NoticeKind) (slot : Slot) (position cls : Nat) :
    NoticeJoins kind slot position cls c.notices.queue s (tryNotice kind slot position cls c).1
      (tryNotice kind slot position cls c).2 := by
  have number : nextNoticeNumber c = nextNoticeNumber { s with notices := { s.notices with queue := c.notices.queue } } := by rw [h]; rfl
  have sources : c.attention = s.attention := by rw [h]
  have eleven : sourceAt 11 c = sourceAt 11 s := by unfold sourceAt; rw [sources]
  have date : c.time = s.time := by rw [h]
  have counter : c.notices.counter = s.notices.counter := by rw [h]
  unfold NoticeJoins tryNotice
  by_cases room : c.notices.queue.length < 128
  · rw [if_pos room, if_neg fun full => queueFull_iff.1 full room, ← number, ← date]
    exact ⟨rfl, rfl, eleven, rfl⟩
  · rw [if_neg room, if_pos (queueFull_iff.2 room), ← eleven]
    exact ⟨rfl, rfl, counter, fun fourteen => sourceAt_raise_self (id := .full) _ (by rw [sources, fourteen]; decide)⟩

/-- What the notices of a classified arrival are, after its claim (R127, R133–R135). -/
theorem arrivalNotice_notices (h : ClaimOf s c)
    (withdrawn : Withdrawn (fun n => decide (p.day.mark = .absentPending) && n.isAbsentOf slot) s.notices.queue c.notices.queue) :
    NoticesOfArrival slot p m s (arrivalNotice slot p.day p.enrolment.contacts m c).1
      (arrivalNotice slot p.day p.enrolment.contacts m c).2 := by
  have classes : classTableOf (tableInForce c) c = classTableOf (tableInForce s) s := by rw [h]; rfl
  have policy : c.settings = s.settings := by rw [h]
  refine ⟨c.notices.queue, withdrawn, ?_⟩
  unfold arrivalNotice
  dsimp only
  rw [classes, policy]
  by_cases asked : p.day.mark = .absentAsked
  · rw [if_pos asked, if_pos asked]
    exact tryNotice_joins h _ _ _ _
  · rw [if_neg asked, if_neg asked]
    have late : (lateCalled s.settings.latePolicy m && !p.enrolment.contacts.isEmpty) = true ↔
        p.enrolment.contacts ≠ [] ∧
          (s.settings.latePolicy = .always ∧ (m = .late ∨ m = .lateAfterCut) ∨
            s.settings.latePolicy = .afterCut ∧ m = .lateAfterCut) := by
      rw [Bool.and_eq_true, lateCalled_iff, Bool.not_eq_true', ← Bool.not_eq_true, List.isEmpty_iff, and_comm]
    by_cases called : (lateCalled s.settings.latePolicy m && !p.enrolment.contacts.isEmpty) = true
    · rw [if_pos called, if_pos (late.1 called)]
      exact tryNotice_joins h _ _ _ _
    · rw [if_neg called, if_neg fun x => called (late.2 x)]
      exact ⟨rfl, rfl, by rw [h], by unfold sourceAt; rw [h]⟩

/-- What `NoticesOfArrival` says of a state rests on its notices and its source FULL alone. -/
theorem noticesOfArrival_congr {v : State} {number : Option Nat} (h : NoticesOfArrival slot p m s u number)
    (notices : v.notices = u.notices) (full : sourceAt 11 v = sourceAt 11 u) : NoticesOfArrival slot p m s v number := by
  unfold NoticesOfArrival at h ⊢
  rw [notices, full]
  exact h

/-! ### The sweep -/

/-- A withdrawal shortens the queue where it takes a WAITING notice from it. -/
theorem withdrawn_length_lt {f : Notice → Bool} {before after : List Notice} (h : Withdrawn f before after) :
    after.length < before.length ↔ ∃ n ∈ before, f n = true ∧ n.inWindow = false := by
  unfold Withdrawn at h
  rw [h, List.length_map, List.length_filter_lt_length_iff_exists]
  simp

theorem sweepHeard_congr {a b : Prop} [Decidable a] [Decidable b] (h : a ↔ b) (heard : SweepHeard a s u) : SweepHeard b s u := by
  unfold SweepHeard at heard ⊢
  simpa only [h] using heard

/-- No notice left: the sweep is as it was. -/
theorem sweepHeard_same {a : Prop} [Decidable a] (never : ¬a) (h : u.sweep = s.sweep) : SweepHeard a s u := by
  unfold SweepHeard
  rw [if_neg fun x => never x.2, h]

/-! ### An arrival against each mark -/

/-- The day part of a classified arrival (R127). -/
def arrivedAs (m : Mark) (source : MarkSource) (at_ : SchoolTime) (terminal : Option Nat) (d : DayPart) : DayPart :=
  { d with mark := m, source := some source, arrival := some at_, terminal := terminal }

/-- The day part of a pupil who signs in again (R129). -/
def signedIn (source : MarkSource) (d : DayPart) : DayPart :=
  { d with mark := d.heldMark.getD .present, source := some source, heldMark := none }

variable {source : MarkSource} {at_ : SchoolTime} {terminal : Option Nat}

theorem arrivalChange_arrived
    (h : p.day.mark = .present ∨ p.day.mark = .late ∨ p.day.mark = .lateAfterCut ∨ p.day.mark = .arrivedExcused) :
    arrivalChange source slot p at_ terminal s = ⟨s, .alreadyIn, none⟩ := by
  unfold arrivalChange
  obtain h | h | h | h := h <;> rw [h]

theorem arrivalChange_excused (h : p.day.mark = .excused) :
    arrivalChange source slot p at_ terminal s =
      ⟨claim slot (arrivedAs .arrivedExcused source at_ terminal) s, .seeOffice, none⟩ := by
  unfold arrivalChange
  rw [h]
  rfl

theorem arrivalChange_signedOut (h : p.day.mark = .signedOut) :
    arrivalChange source slot p at_ terminal s = ⟨claim slot (signedIn source) s, .welcomeBack, none⟩ := by
  unfold arrivalChange
  rw [h]
  rfl

theorem isUnaccountedMark_iff {m : Mark} :
    isUnaccountedMark m = true ↔ m = .unseen ∨ m = .expected ∨ m = .absentPending ∨ m = .absentAsked ∨ m = .absentUnreached := by
  cases m <;> decide

theorem isArrivalMark_iff {m : Mark} :
    isArrivalMark m = true ↔ m = .present ∨ m = .late ∨ m = .lateAfterCut ∨ m = .arrivedExcused ∨ m = .signedOut := by
  cases m <;> decide

theorem arrivalChange_unaccounted (h : isUnaccountedMark p.day.mark = true) :
    arrivalChange source slot p at_ terminal s = classifiedArrival source slot p at_ terminal s := by
  unfold arrivalChange
  obtain h | h | h | h | h := isUnaccountedMark_iff.1 h <;> rw [h]

/-- The marks as an arrival tells them apart (R126). -/
theorem mark_arrivalCases (m : Mark) :
    (m = .present ∨ m = .late ∨ m = .lateAfterCut ∨ m = .arrivedExcused) ∨ m = .excused ∨ m = .signedOut ∨
      isUnaccountedMark m = true := by
  cases m <;> decide

theorem classifiedVerdict_eq (m : Mark) (office closure : Bool) : classifiedVerdict m office closure = verdictOf m office closure := by
  cases m <;> cases office <;> cases closure <;> rfl

/-- The classification of the arrival of a pupil (R49). -/
def classified (p : Pupil) (at_ : SchoolTime) (s : State) : Mark :=
  classify (s.day.cohorts.getD p.enrolment.cohort .fresh) p.enrolment.permit at_

/-- The claim of a classified arrival. -/
def arrivalClaim (source : MarkSource) (slot : Slot) (p : Pupil) (at_ : SchoolTime) (terminal : Option Nat) (s : State) : State :=
  claim slot (arrivedAs (classified p at_ s) source at_ terminal) s

theorem classifiedArrival_eq (source : MarkSource) (slot : Slot) (p : Pupil) (at_ : SchoolTime) (terminal : Option Nat) (s : State) :
    classifiedArrival source slot p at_ terminal s =
      let r := arrivalNotice slot p.day p.enrolment.contacts (classified p at_ s) (arrivalClaim source slot p at_ terminal s)
      ⟨r.1, verdictOf (classified p at_ s) p.enrolment.office s.day.closureFlag, r.2⟩ := by
  rw [← classifiedVerdict_eq]
  rfl

theorem arrivalClaim_withdrawn (hp : pupilAt slot s = some p) :
    Withdrawn (fun n => decide (p.day.mark = .absentPending) && n.isAbsentOf slot) s.notices.queue
      (arrivalClaim source slot p at_ terminal s).notices.queue :=
  (claim_withdrawn hp).congr fun n _ => by
    have safe : (arrivedAs (classified p at_ s) source at_ terminal p.day).mark ≠ .absentPending := classify_safe _ _ _
    simp only [safe, ne_eq, not_false_eq_true, and_true]

/-- The blocks that an arrival leaves alone (R5). -/
theorem arrivalChange_arrivalOnly (source : MarkSource) (slot : Slot) (p : Pupil) (at_ : SchoolTime) (terminal : Option Nat) (s : State) :
    ArrivalOnly s (arrivalChange source slot p at_ terminal s).state := by
  obtain h | h | h | h := mark_arrivalCases p.day.mark
  · rw [arrivalChange_arrived h]
    exact .refl s
  · rw [arrivalChange_excused h]
    exact claim_arrivalOnly _ _ s
  · rw [arrivalChange_signedOut h]
    exact claim_arrivalOnly _ _ s
  · rw [arrivalChange_unaccounted h, classifiedArrival_eq]
    exact (claim_arrivalOnly _ _ s).trans (arrivalNotice_arrivalOnly _ _ _ _ _)

/-- What an arrival leaves of the roll, the sweep, the notices and the sources (R126–R131, R133–R135, R145). -/
structure ArrivalLeft (source : MarkSource) (slot : Slot) (p : Pupil) (at_ : SchoolTime) (terminal : Option Nat) (s : State)
    (r : Arrived) : Prop where
  sweep : SweepHeard (p.day.mark = .absentPending ∧ s.notices.queue.any fun x => x.isAbsentOf slot && !x.inWindow) s r.state
  away : r.state.roll.away = s.roll.away
  others : OthersKept slot s r.state
  arrived : p.day.mark = .present ∨ p.day.mark = .late ∨ p.day.mark = .lateAfterCut ∨ p.day.mark = .arrivedExcused →
    r = ⟨s, .alreadyIn, none⟩
  excused : p.day.mark = .excused →
    pupilAt slot r.state = some { p with day := arrivedAs .arrivedExcused source at_ terminal p.day } ∧ r.verdict = .seeOffice ∧
      r.notice = none
  signedOut : p.day.mark = .signedOut →
    pupilAt slot r.state = some { p with day := signedIn source p.day } ∧ r.verdict = .welcomeBack ∧ r.notice = none
  unaccounted : isUnaccountedMark p.day.mark = true →
    pupilAt slot r.state = some { p with day := arrivedAs (classified p at_ s) source at_ terminal p.day } ∧
      r.verdict = verdictOf (classified p at_ s) p.enrolment.office s.day.closureFlag ∧
      NoticesOfArrival slot p (classified p at_ s) s r.state r.notice
  quiet : isUnaccountedMark p.day.mark = false → r.state.notices = s.notices ∧ sourceAt 11 r.state = sourceAt 11 s
  sources : ∀ n, n ≠ 11 → sourceAt n r.state = sourceAt n s
  length : r.state.attention.length = s.attention.length

/-- An arrival that is not classified, by a claim that takes no pupil out of ABSENT_PENDING. -/
theorem arrivalLeft_of_claim (hp : pupilAt slot s = some p) {f : DayPart → DayPart} {v : Verdict}
    (mark : p.day.mark = .excused ∧ f = arrivedAs .arrivedExcused source at_ terminal ∧ v = .seeOffice ∨
      p.day.mark = .signedOut ∧ f = signedIn source ∧ v = .welcomeBack) :
    ArrivalLeft source slot p at_ terminal s ⟨claim slot f s, v, none⟩ := by
  have other : p.day.mark ≠ .absentPending := by
    obtain ⟨e, _⟩ | ⟨e, _⟩ := mark <;> rw [e] <;> nofun
  have stays := claim_stays (f := f) hp fun h => other h.1
  have self : pupilAt slot (claim slot f s) = some { p with day := f p.day } := pupilAt_claim_self hp
  refine
    { sweep := sweepHeard_same (fun h => other h.1) (by rw [stays])
      away := claim_away slot f s
      others := claim_others slot f s
      arrived := fun h => ?_
      excused := fun h => ?_
      signedOut := fun h => ?_
      unaccounted := fun h => ?_
      quiet := fun _ => ⟨by rw [stays], sourceAt_claim 11 slot f s⟩
      sources := fun n _ => sourceAt_claim n slot f s
      length := congrArg _ (claim_attention slot f s) }
  · obtain ⟨e, _⟩ | ⟨e, _⟩ := mark <;> simp [e] at h
  · obtain ⟨_, rfl, rfl⟩ | ⟨e, _⟩ := mark
    · exact ⟨self, rfl, rfl⟩
    · simp [e] at h
  · obtain ⟨e, _⟩ | ⟨_, rfl, rfl⟩ := mark
    · simp [e] at h
    · exact ⟨self, rfl, rfl⟩
  · obtain ⟨e, _⟩ | ⟨e, _⟩ := mark <;> simp [e, isUnaccountedMark] at h

theorem arrivalLeft_of_arrived
    (h : p.day.mark = .present ∨ p.day.mark = .late ∨ p.day.mark = .lateAfterCut ∨ p.day.mark = .arrivedExcused) :
    ArrivalLeft source slot p at_ terminal s ⟨s, .alreadyIn, none⟩ where
  sweep := sweepHeard_same (fun x => by simp [x.1] at h) rfl
  away := rfl
  others _ _ := rfl
  arrived _ := rfl
  excused x := by simp [x] at h
  signedOut x := by simp [x] at h
  unaccounted x := by obtain h | h | h | h := h <;> simp [h, isUnaccountedMark] at x
  quiet _ := ⟨rfl, rfl⟩
  sources _ _ := rfl
  length := rfl

/-- A classified arrival: its claim, then its notices. -/
theorem arrivalLeft_of_classified (hp : pupilAt slot s = some p) (h : isUnaccountedMark p.day.mark = true) :
    ArrivalLeft source slot p at_ terminal s (classifiedArrival source slot p at_ terminal s) := by
  have heard := (claim_heard slot (arrivedAs (classified p at_ s) source at_ terminal) (Heard.refl s)).heard
  have withdrawn := arrivalClaim_withdrawn (source := source) (at_ := at_) (terminal := terminal) hp
  have noticed := arrivalNotice_noticesOnly slot p.day p.enrolment.contacts (classified p at_ s)
    (arrivalClaim source slot p at_ terminal s)
  have self : pupilAt slot (arrivalClaim source slot p at_ terminal s) =
      some { p with day := arrivedAs (classified p at_ s) source at_ terminal p.day } := pupilAt_claim_self hp
  rw [classifiedArrival_eq]
  refine
    { sweep := ?_
      away := ?_
      others := fun k hk => ?_
      arrived := fun x => ?_
      excused := fun x => by simp [x, isUnaccountedMark] at h
      signedOut := fun x => by simp [x, isUnaccountedMark] at h
      unaccounted := fun _ => ⟨?_, rfl, arrivalNotice_notices (claim_state slot _ s) withdrawn⟩
      quiet := fun x => by rw [h] at x; nomatch x
      sources := fun n hn => (noticed.sources n hn).trans (sourceAt_claim n slot _ s)
      length := noticed.length.trans (congrArg _ (claim_attention slot _ s)) }
  · refine sweepHeard_congr ((withdrawn_length_lt withdrawn).trans ?_) (noticed.sweep.trans heard)
    simp [and_assoc, and_left_comm]
  · exact (congrArg _ noticed.roll).trans (claim_away slot _ s)
  · exact (pupilAt_congr (congrArg _ noticed.roll) k).trans (claim_others slot _ s k hk)
  · obtain x | x | x | x := x <;> simp [x, isUnaccountedMark] at h
  · exact (pupilAt_congr (congrArg _ noticed.roll) slot).trans self

/-- An arrival of an ENROLLED pupil, mark by mark (R126). -/
theorem arrivalChange_left (hp : pupilAt slot s = some p) :
    ArrivalLeft source slot p at_ terminal s (arrivalChange source slot p at_ terminal s) := by
  obtain h | h | h | h := mark_arrivalCases p.day.mark
  · rw [arrivalChange_arrived h]
    exact arrivalLeft_of_arrived h
  · rw [arrivalChange_excused h]
    exact arrivalLeft_of_claim hp (.inl ⟨h, rfl, rfl⟩)
  · rw [arrivalChange_signedOut h]
    exact arrivalLeft_of_claim hp (.inr ⟨h, rfl, rfl⟩)
  · rw [arrivalChange_unaccounted h]
    exact arrivalLeft_of_classified hp h

end Sys2Proof.Machine
end

