-- ==== Sys2Proof/Proofs/Taps.lean ====
section
/-! PROOF. Taps: the claim on the Roll Unit (R124–R132) and the Verdict Hold (R114–R116). -/

namespace Sys2Proof.Machine

variable {n : Nat} {slot : Slot} {p : Pupil} {s : State} {tap : Tap} {t : Terminal}

/-! ### The claim of a tap -/

theorem tapClaim_closed (h : s.day.state ≠ .open_) (card : Nat) (time : Option SchoolTime) (n : Nat) :
    tapClaim card time n s = (s, .dayClosed) := if_pos (by simpa [dayIsOpen] using h)

theorem tapClaim_unknown (opened : s.day.state = .open_) {card : Nat} (h : pupilWithCard card s = none) (time : Option SchoolTime) (n : Nat) :
    tapClaim card time n s = (s, .unknownCard) := by
  unfold tapClaim
  rw [if_neg (by simp [dayIsOpen, opened]), h]

/-- A tap's arrival with the attention it calls for (R132). -/
def tapArrived (slot : Slot) (r : Arrived) : State :=
  if r.verdict.callsOffice then raise .arrival (some (.slot slot)) r.state else r.state

theorem tapClaim_known (opened : s.day.state = .open_) {card : Nat} (h : pupilWithCard card s = some (slot, p)) (at_ : SchoolTime) (n : Nat) :
    tapClaim card (some at_) n s =
      (tapArrived slot (arrivalChange .tap slot p at_ (some n) s), (arrivalChange .tap slot p at_ (some n) s).verdict) := by
  unfold tapClaim
  rw [if_neg (by simp [dayIsOpen, opened]), h]
  rfl

theorem pupilWithCard_none {card : Nat} (h : ∀ e ∈ s.roll.roster, e.2.enrolment.card ≠ card) : pupilWithCard card s = none :=
  List.find?_eq_none.2 fun e he => by simpa using h e he

/-- The pupil of a card key that no other record holds. -/
theorem pupilWithCard_unique (hs : RollOk s) (hp : pupilAt slot s = some p)
    (unique : ∀ k q, k ≠ slot → pupilAt k s = some q → q.enrolment.card ≠ p.enrolment.card) :
    pupilWithCard p.enrolment.card s = some (slot, p) := by
  have found : (pupilWithCard p.enrolment.card s).isSome = true :=
    List.find?_isSome.2 ⟨(slot, p), mem_of_tableGet hp, by simp⟩
  obtain ⟨⟨k, q⟩, he⟩ := Option.isSome_iff_exists.1 found
  have card : q.enrolment.card = p.enrolment.card := by simpa using List.find?_some he
  have hq : pupilAt k s = some q := tableGet_of_mem hs.wf (List.mem_of_find?_eq_some he)
  by_cases same : k = slot
  · subst same
    cases hp.symm.trans hq
    exact he
  · exact absurd card (unique k q same hq)

theorem tapArrived_arrivalOnly (slot : Slot) (r : Arrived) : ArrivalOnly r.state (tapArrived slot r) := by
  unfold tapArrived
  split <;> rfl

theorem tapClaim_arrivalOnly (card : Nat) (time : Option SchoolTime) (n : Nat) (s : State) : ArrivalOnly s (tapClaim card time n s).1 := by
  unfold tapClaim
  split
  · exact .refl s
  · split
    · exact .refl s
    · exact (arrivalChange_arrivalOnly _ _ _ _ _ s).trans (tapArrived_arrivalOnly _ _)

theorem callsOffice_iff {v : Verdict} : v.callsOffice = true ↔ v = .lateReportOffice ∨ v = .seeOffice := by cases v <;> decide

/-- A tap's attention changes the attention sources alone. -/
theorem tapArrived_state (slot : Slot) (r : Arrived) :
    tapArrived slot r = { r.state with attention := (tapArrived slot r).attention } := by
  unfold tapArrived
  split <;> rfl

theorem sourceAt_tapArrived_ne (slot : Slot) (r : Arrived) {k : Nat} (h : k ≠ 5) : sourceAt k (tapArrived slot r) = sourceAt k r.state := by
  unfold tapArrived
  split
  · exact sourceAt_raise_ne (id := .arrival) _ _ (Ne.symm h)
  · rfl

/-- ARRIVAL is raised with the slot by the two verdicts that call the office (R132). -/
theorem sourceAt_tapArrived (slot : Slot) {r : Arrived} (h : r.state.attention.length = 14) :
    sourceAt 5 (tapArrived slot r) =
      if r.verdict = .lateReportOffice ∨ r.verdict = .seeOffice then (sourceAt 5 r.state).raised (some (.slot slot))
      else sourceAt 5 r.state := by
  unfold tapArrived
  by_cases calls : r.verdict.callsOffice = true
  · rw [if_pos calls, if_pos (callsOffice_iff.1 calls)]
    exact sourceAt_raise_self (id := .arrival) _ (by rw [h]; decide)
  · rw [if_neg calls, if_neg fun x => calls (callsOffice_iff.2 x)]

/-! ### The Verdict Hold -/

theorem heldVerdict_some (ht : terminalAt n s = some t) {r : HoldRecord} (hr : r ∈ t.hold) (serial : r.serial = tap.serial)
    (card : r.card = tap.card) : ∃ q ∈ t.hold, q.serial = tap.serial ∧ q.card = tap.card ∧ heldVerdict n tap s = some q.verdict := by
  have found : (t.hold.find? fun r => r.serial = tap.serial && r.card = tap.card).isSome = true :=
    List.find?_isSome.2 ⟨r, hr, by simp [serial, card]⟩
  obtain ⟨q, hq⟩ := Option.isSome_iff_exists.1 found
  have meets := List.find?_some hq
  simp only [Bool.and_eq_true, decide_eq_true_eq] at meets
  refine ⟨q, List.mem_of_find?_eq_some hq, meets.1, meets.2, ?_⟩
  unfold heldVerdict
  rw [ht, Option.bind_some, hq]
  rfl

theorem heldVerdict_none (ht : terminalAt n s = some t) (h : ∀ r ∈ t.hold, ¬(r.serial = tap.serial ∧ r.card = tap.card)) :
    heldVerdict n tap s = none := by
  unfold heldVerdict
  rw [ht, Option.bind_some, List.find?_eq_none.2 fun r hr => by simpa using h r hr]
  rfl

theorem takeTap_held {v : Verdict} (h : heldVerdict n tap s = some v) : takeTap n tap s = (s, v) := by
  unfold takeTap
  rw [h]

theorem takeTap_new (h : heldVerdict n tap s = none) :
    takeTap n tap s =
      (modifyTerminal n (Terminal.counted tap (tapClaim tap.card (tapTime tap.age s) n s).2) (tapClaim tap.card (tapTime tap.age s) n s).1,
        (tapClaim tap.card (tapTime tap.age s) n s).2) := by
  unfold takeTap
  rw [h]

/-- A record joins a hold after those it leaves there (R116). -/
theorem holdAdd_eq (r : HoldRecord) (l : List HoldRecord) : holdAdd r l = heldBefore r.serial l ++ [r] := by
  unfold holdAdd heldBefore
  dsimp only
  congr 1
  by_cases full : 16 ≤ (l.filter fun x => x.serial ≠ r.serial).length
  · rw [if_neg (Nat.not_lt.2 full)]
    exact if_pos full
  · rw [if_pos (Nat.lt_of_not_le full)]
    exact if_neg full

theorem tapClaim_line (card : Nat) (time : Option SchoolTime) (n : Nat) (s : State) : (tapClaim card time n s).1.line = s.line := by
  rw [tapClaim_arrivalOnly card time n s]

/-! ### The arrival time -/

theorem tapTime_open (h : s.day.state = .open_) (age : Nat) :
    tapTime age s = some (max (s.time.school - age) (s.day.openingTime.getD 0)) := if_pos (by simp [dayIsOpen, h])

theorem tapTime_closed (h : s.day.state ≠ .open_) (age : Nat) : tapTime age s = none := if_neg (by simpa [dayIsOpen] using h)

/-- Settles O36: the hold, the arrival time, and the claim by the pupil's mark. -/
theorem tapsAreAnsweredOnce : Obligations.TapsAreAnsweredOnce := by
  unfold Obligations.TapsAreAnsweredOnce
  refine ⟨fun m => ⟨isUnaccountedMark_iff, isArrivalMark_iff⟩, fun n tap t s ht => ⟨fun r hr serial card => ?_, fun absent => ?_⟩,
    fun age s => ⟨fun h => tapTime_open h age, fun h => tapTime_closed h age⟩,
    fun card time n s => ⟨fun h => tapClaim_closed h card time n, fun opened unknown =>
      tapClaim_unknown opened (pupilWithCard_none unknown) time n⟩,
    fun at_ n slot p s hs opened hp unique => ?_⟩
  · obtain ⟨q, hq, hserial, hcard, held⟩ := heldVerdict_some ht hr serial card
    exact ⟨q, hq, hserial, hcard, takeTap_held held⟩
  · have line := tapClaim_line tap.card (tapTime tap.age s) n s
    refine ⟨_, _, rfl, takeTap_new (heldVerdict_none ht absent), ?_, fun m hm => ?_, ?_⟩
    · rw [← line]
      rfl
    · rw [terminalAt_modifyTerminal_ne hm]
      exact terminalAt_congr (congrArg _ line) m
    · rw [terminalAt_modifyTerminal_self, terminalAt_congr (congrArg _ line), ht]
      simp only [Option.map_some, Terminal.counted, holdAdd_eq, satInc]
  · have left := arrivalChange_left (source := .tap) (at_ := at_) (terminal := some n) hp
    have state := tapArrived_state slot (arrivalChange .tap slot p at_ (some n) s)
    have same (k : Nat) (hk : k ≠ 5) := sourceAt_tapArrived_ne slot (arrivalChange .tap slot p at_ (some n) s) hk
    have pupil (k : Slot) : pupilAt k (tapArrived slot (arrivalChange .tap slot p at_ (some n) s)) =
        pupilAt k (arrivalChange .tap slot p at_ (some n) s).state := pupilAt_congr (by rw [state]) k
    refine ⟨_, _, tapClaim_known opened (pupilWithCard_unique hs hp unique) at_ n,
      (arrivalChange_arrivalOnly _ _ _ _ _ s).trans (tapArrived_arrivalOnly slot _), ?_, ?_, fun k hk => (pupil k).trans (left.others k hk),
      fun arrived => ?_, fun excused => ?_, fun h out held => ?_, fun unaccounted => ?_, fun quiet => ?_,
      fun k h5 h11 => (same k h5).trans (left.sources k h11), fun fourteen => ?_⟩
    · rw [state]
      exact left.sweep
    · rw [state]
      exact left.away
    · rw [left.arrived arrived]
      exact ⟨rfl, rfl⟩
    · obtain ⟨self, verdict, _⟩ := left.excused excused
      exact ⟨(pupil slot).trans self, verdict⟩
    · obtain ⟨self, verdict, _⟩ := left.signedOut out
      refine ⟨(pupil slot).trans (self.trans ?_), verdict⟩
      simp only [signedIn, held, Option.getD_some]
    · obtain ⟨self, verdict, notices⟩ := left.unaccounted unaccounted
      exact ⟨(pupil slot).trans self, verdict, _, noticesOfArrival_congr notices (by rw [state]) (same 11 (by decide))⟩
    · obtain ⟨notices, full⟩ := left.quiet quiet
      exact ⟨by rw [state]; exact notices, (same 11 (by decide)).trans full⟩
    · rw [sourceAt_tapArrived slot (left.length.trans fourteen), left.sources 5 (by decide)]

end Sys2Proof.Machine
end

