-- ==== Sys2Proof/Proofs/TapBlocks.lean ====
section
/-! SUPPORT. The bytes of a tap block (R107, R211), and what the taking of its taps leaves of the line and of the round (R113). -/

namespace Sys2Proof.Machine

/-! ### The bytes of a block -/

/-- The tap at a place of a block's bytes (R107; log 44). -/
def tapAt (i : Nat) (bytes : Text) : Tap :=
  let b := fun k => (bytes.getD (7 * i + k) 0).toNat
  ⟨b 0 + 256 * b 1 + 65536 * b 2 + 16777216 * b 3, b 4, b 5 + 256 * b 6⟩

/-- A number read low byte first; a byte past the end counts 0. -/
theorem numberLow_take (k : Nat) (b : Text) : numberLow (b.take (k + 1)) = (b.getD 0 0).toNat + 256 * numberLow ((b.drop 1).take k) := by
  cases b <;> simp [numberLow]

theorem numberLow_take_zero (b : Text) : numberLow (b.take 0) = 0 := rfl

theorem getD_drop (m k : Nat) (b : Text) : (b.drop m).getD k 0 = b.getD (m + k) 0 := by
  simp only [List.getD_eq_getElem?_getD, List.getElem?_drop]

theorem tapAt_zero (b : Text) :
    (⟨numberLow (b.take 4), numberLow ((b.drop 4).take 1), numberLow ((b.drop 5).take 2)⟩ : Tap) = tapAt 0 b := by
  simp only [numberLow_take, numberLow_take_zero, getD_drop, List.drop_drop, tapAt, Tap.mk.injEq, Nat.mul_zero, Nat.zero_add,
    Nat.reduceAdd, Nat.add_zero, and_true]
  omega

theorem tapAt_drop (i : Nat) (b : Text) : tapAt i (b.drop 7) = tapAt (i + 1) b := by
  simp only [tapAt, getD_drop, Nat.mul_succ, Nat.add_comm 7, Nat.add_right_comm]

theorem tapsOf_eq (n : Nat) (b : Text) : tapsOf n b = (List.range n).map fun i => tapAt i b := by
  induction n generalizing b with
  | zero => rfl
  | succ n ih =>
    rw [List.range_succ_eq_map, List.map_cons, List.map_map, ← tapAt_zero]
    refine congrArg _ ((ih (b.drop 7)).trans (List.map_congr_left fun i _ => ?_))
    exact tapAt_drop i b

theorem tapOk_iff {t : Tap} : tapOk t = true ↔ 1 ≤ t.card ∧ t.card ≤ 4294967294 ∧ t.age ≤ 4095 := by
  simp only [tapOk, Bool.and_eq_true, decide_eq_true_eq]
  omega

/-- The taps of a block are those at its places, one after another. -/
theorem eq_tapsOf_iff {n : Nat} {b : Text} {taps : List Tap} :
    taps = tapsOf n b ↔ taps.length = n ∧ ∀ i tap, taps[i]? = some tap → tap = tapAt i b := by
  rw [tapsOf_eq]
  constructor
  · rintro rfl
    refine ⟨by simp, fun i tap h => ?_⟩
    obtain ⟨_, rfl⟩ := List.getElem?_eq_some_iff.1 h
    rw [List.getElem_map, List.getElem_range]
  · rintro ⟨rfl, places⟩
    refine List.ext_getElem (by simp) fun i h _ => ?_
    rw [List.getElem_map, List.getElem_range]
    exact places i _ (List.getElem?_eq_getElem h)

theorem goodBlock_iff {n : Nat} {b : Text} {taps : List Tap} : goodBlock n b = some taps ↔ BlockHolds n b taps := by
  have whole : goodBlock n b = some taps ↔
      b.length = 7 * n + 2 ∧ goodCheck b = true ∧ (∀ tap ∈ taps, tapOk tap = true) ∧ taps = tapsOf n b := by
    unfold goodBlock
    dsimp only
    split
    · rename_i h
      simp only [Bool.and_eq_true, decide_eq_true_eq, List.all_eq_true] at h
      simp only [Option.some.injEq]
      exact ⟨fun e => ⟨h.1.1, h.1.2, e ▸ h.2, e.symm⟩, fun e => e.2.2.2.symm⟩
    · rename_i h
      simp only [Bool.and_eq_true, decide_eq_true_eq, List.all_eq_true] at h
      exact ⟨nofun, fun ⟨length, check, ok, e⟩ => absurd ⟨⟨length, check⟩, e ▸ ok⟩ h⟩
  rw [whole, eq_tapsOf_iff]
  refine and_congr_right fun _ => and_congr_right fun _ => ?_
  rw [← and_assoc, and_comm (a := ∀ tap ∈ taps, _), and_assoc]
  refine and_congr_right fun _ => ⟨fun ⟨ok, places⟩ i tap h => ⟨places i tap h, tapOk_iff.1 (ok tap (List.mem_of_getElem? h))⟩,
    fun each => ⟨fun tap h => ?_, fun i tap h => (each i tap h).1⟩⟩
  obtain ⟨i, hi⟩ := List.mem_iff_getElem?.1 h
  exact tapOk_iff.2 (each i tap hi).2

/-! ### The taps of a block -/

theorem takeTaps_cons (tap : Tap) (rest : List Tap) (p : PollRound) (s : State) :
    takeTaps (tap :: rest) p s =
      takeTaps rest
        { p with read := p.read ++ [(tap.serial, tap.card)], verdicts := p.verdicts ++ [(tap.serial, (takeTap p.entry tap s).2)] }
        (takeTap p.entry tap s).1 := rfl

/-- What the taking of taps leaves of the line: all but the table, and in the table each entry free or served as it was. -/
structure TapsLeft (s u : State) : Prop where
  line : u.line = { s.line with table := u.line.table }
  service : ∀ m, InService m u ↔ InService m s

theorem TapsLeft.refl (s : State) : TapsLeft s s := ⟨rfl, fun _ => Iff.rfl⟩

theorem TapsLeft.trans {s t u : State} (h : TapsLeft s t) (g : TapsLeft t u) : TapsLeft s u :=
  ⟨by rw [g.line, h.line], fun m => (g.service m).trans (h.service m)⟩

theorem inService_congr {n : Nat} {s u : State} (h : (terminalAt n u).map (·.state) = (terminalAt n s).map (·.state)) :
    InService n u ↔ InService n s := by
  have any (v : State) : (terminalAt n v).any (·.state.isServed) = ((terminalAt n v).map (·.state)).any (·.isServed) := by
    cases terminalAt n v <;> rfl
  rw [← any_isServed_iff, ← any_isServed_iff, any, any, h]

theorem modifyTerminal_tapsLeft (n : Nat) {f : Terminal → Terminal} (h : ∀ t, (f t).state = t.state) (s : State) :
    TapsLeft s (modifyTerminal n f s) := by
  refine ⟨rfl, fun m => inService_congr ?_⟩
  by_cases same : m = n
  · subst same
    rw [terminalAt_modifyTerminal_self, Option.map_map]
    exact congrArg (Option.map · _) (funext h)
  · rw [terminalAt_modifyTerminal_ne same]

theorem takeTap_tapsLeft (n : Nat) (tap : Tap) (s : State) : TapsLeft s (takeTap n tap s).1 := by
  unfold takeTap
  split
  · exact .refl s
  · have line := tapClaim_line tap.card (tapTime tap.age s) n s
    have claimed : TapsLeft s (tapClaim tap.card (tapTime tap.age s) n s).1 :=
      ⟨by rw [line], fun m => inService_congr (by rw [terminalAt_congr (congrArg _ line)])⟩
    exact claimed.trans (modifyTerminal_tapsLeft n (f := Terminal.counted tap _) (fun _ => rfl) _)

theorem takeTaps_tapsLeft (l : List Tap) (p : PollRound) (s : State) : TapsLeft s (takeTaps l p s).1 := by
  induction l generalizing p s with
  | nil => exact .refl s
  | cons tap rest ih =>
    rw [takeTaps_cons]
    exact (takeTap_tapsLeft p.entry tap s).trans (ih _ _)

/-- What the taking of taps leaves of the round: the terminal in hand and those to come. -/
theorem takeTaps_round (l : List Tap) (p : PollRound) (s : State) :
    (takeTaps l p s).2.entry = p.entry ∧ (takeTaps l p s).2.live = p.live ∧ (takeTaps l p s).2.rest = p.rest := by
  induction l generalizing p s with
  | nil => exact ⟨rfl, rfl, rfl⟩
  | cons tap rest ih =>
    rw [takeTaps_cons]
    exact ih _ _

end Sys2Proof.Machine
end

