-- ==== Sys2Proof/Proofs/PollAnswers.lean ====
section
/-! PROOF. The answers of a poll round and of a liveness check: READ TAPS with its blocks (R107, R113, R117), GIVE VERDICTS (R108), READ
STATE (R109). -/

namespace Sys2Proof.Machine

variable {p q : PollRound} {n left : Nat} {bytes : Text} {s u v x : State} {taps : List Tap}
  {leaves : Terminal → Terminal} {sources : Terminal → List Source}

/-! ### What follows a read -/

/-- A transaction of a round is made where its terminal is not retired and in service (R112, R121). -/
theorem serveOn_of (t : Transaction) (h : p.live = true ∧ InService p.entry s) : serveOn t p s = begin_ (.pollServe p) t s := by
  unfold serveOn
  rw [if_pos (by rw [Bool.and_eq_true, any_isServed_iff]; exact h)]

theorem serveOn_not (t : Transaction) (h : ¬(p.live = true ∧ InService p.entry s)) : serveOn t p s = serve p.rest s := by
  unfold serveOn
  rw [if_neg (by rw [Bool.and_eq_true, any_isServed_iff]; exact h)]

theorem afterRead_eq (drop : u.line.dropJob = s.line.dropJob) :
    afterRead p u = thenGoesOn s u (if p.verdicts.isEmpty then serve p.rest u else serveOn .giveVerdicts p u) := by
  unfold afterRead afterTransaction thenGoesOn
  rw [drop]

/-- GIVE VERDICTS follows a read that took a tap, from a terminal that is not retired and in service (R112). -/
theorem afterRead_gives (drop : u.line.dropJob = s.line.dropJob) (service : InService p.entry u ↔ InService p.entry s)
    (h : p.verdicts ≠ [] ∧ p.live = true ∧ InService p.entry s) :
    afterRead p u = thenGoesOn s u (begin_ (.pollServe p) .giveVerdicts u) := by
  obtain ⟨taken, live, served⟩ := h
  rw [afterRead_eq drop, if_neg (by simpa using taken), serveOn_of _ ⟨live, service.2 served⟩]

theorem afterRead_leaves (drop : u.line.dropJob = s.line.dropJob) (service : InService p.entry u ↔ InService p.entry s)
    (h : ¬(p.verdicts ≠ [] ∧ p.live = true ∧ InService p.entry s)) : afterRead p u = thenGoesOn s u (serve p.rest u) := by
  rw [afterRead_eq drop]
  by_cases taken : p.verdicts = []
  · rw [if_pos (by simp [taken])]
  · rw [if_neg (by simpa using taken), serveOn_not _ fun x => h ⟨taken, x.1, service.1 x.2⟩]

theorem roundOf_serving (h : s.line.job = .pollServe p) : roundOf s = some p := by
  unfold roundOf
  rw [h]

/-! ### READ TAPS -/

theorem headerCount_good (length : bytes.length = 3) (check : goodCheck bytes = true) (few : (bytes.getD 0 0).toNat ≤ 16) :
    headerCount bytes = some (bytes.getD 0 0).toNat := by
  unfold headerCount
  exact if_pos (by simp only [length, check, few, decide_true, Bool.and_self])

theorem headerCount_bad (h : bytes.length ≠ 3 ∨ goodCheck bytes = false ∨ 16 < (bytes.getD 0 0).toNat) : headerCount bytes = none := by
  refine if_neg fun x => ?_
  simp only [Bool.and_eq_true, decide_eq_true_eq] at x
  obtain ⟨⟨length, check⟩, few⟩ := x
  obtain h | h | h := h
  · exact h length
  · exact Bool.false_ne_true (h.symm.trans check)
  · exact Nat.not_lt.2 few h

section Header

variable (phase : s.line.phase = .header) (job : s.line.job = .pollServe p)
include phase job

theorem tapsHeader_bad (h : headerCount bytes = none) : tapsHeader bytes s = missTransaction s := by
  unfold tapsHeader
  rw [phase, roundOf_serving job, h]

theorem tapsHeader_empty (h : headerCount bytes = some 0) :
    tapsHeader bytes s = afterTransaction (serveOn (.readState true) p) (completeRead p (recordAnswer goodAnswer s)) := by
  unfold tapsHeader
  rw [phase, roundOf_serving job, h]
  rfl

theorem tapsHeader_blocks (h : headerCount bytes = some n) (some_ : 1 ≤ n) :
    tapsHeader bytes s =
      { recordAnswer goodAnswer s with line := { (recordAnswer goodAnswer s).line with phase := .blocks n } } := by
  obtain ⟨k, rfl⟩ : ∃ k, n = k + 1 := ⟨n - 1, by omega⟩
  unfold tapsHeader
  rw [phase, roundOf_serving job, h]
  rfl

end Header

theorem completeRead_recorded (job : s.line.job = .pollServe p) :
    AnswerRecorded p.entry (fun t => { t with hold := t.hold.filter fun r => p.read.contains (r.serial, r.card) })
      (fun _ => s.attention) s (completeRead p s) :=
  modified_recorded (.serving job) _

/-- One answer recorded after another of the same transaction. -/
theorem answerRecorded_trans {f g : Terminal → Terminal} {a b c : Terminal → List Source} (h : AnswerRecorded n f a s u)
    (k : AnswerRecorded n g b u v) (sources : ∀ t, u.attention = a t → b (f t) = c t) : AnswerRecorded n (fun t => g (f t)) c s v := by
  refine ⟨fun none => ?_, fun t kept ht => ?_⟩
  · obtain rfl := h.1 none
    exact k.1 none
  · obtain ⟨self, others, state⟩ := h.2 t kept ht
    obtain ⟨self', others', state'⟩ := k.2 (f t) ((answerRecorded_orphan h).trans kept) self
    refine ⟨self', fun m hm => (others' m hm).trans (others m hm), state'.trans ?_⟩
    rw [sources t (by rw [state]), state]

/-- A read without a tap is complete as its header arrives (R113, R117). -/
theorem emptyRead_recorded (job : s.line.job = .pollServe p) :
    AnswerRecorded p.entry
      (fun t => { heardNow s.time.running t with hold := t.hold.filter fun r => p.read.contains (r.serial, r.card) })
      (fun _ => s.attention) s (completeRead p (recordAnswer goodAnswer s)) := by
  have good := good_recorded (.serving job)
  have both := answerRecorded_trans (c := fun _ => s.attention) good (completeRead_recorded ((answerRecorded_job good).trans job))
    fun _ same => same
  simpa only [(heardNow_rest _ _).1] using both

/-- After an empty read READ STATE with clear follows where the terminal is not retired and in service (R112). -/
theorem afterEmptyRead (recorded : AnswerRecorded p.entry leaves sources s u)
    (stays : ∀ t, (leaves t).state.isServed = t.state.isServed) :
    (p.live = true ∧ InService p.entry s →
      afterTransaction (serveOn (.readState true) p) u = thenGoesOn s u (begin_ (.pollServe p) (.readState true) u)) ∧
    (¬(p.live = true ∧ InService p.entry s) → afterTransaction (serveOn (.readState true) p) u = thenGoesOn s u (serve p.rest u)) := by
  have service := answerRecorded_inService recorded stays
  rw [answerRecorded_after recorded]
  exact ⟨fun h => by rw [serveOn_of _ ⟨h.1, service.2 h.2⟩], fun h => by rw [serveOn_not _ fun x => h ⟨x.1, service.1 x.2⟩]⟩

/-! ### Blocks -/

/-- The record of a good block: the present school time is the terminal's collection time (R113). -/
def collected (s : State) : State :=
  recordAnswer (fun m => modifyTerminal m fun x => { x with lastCollection := some s.time.school }) s

theorem blockTaken_eq (job : s.line.job = .pollServe p) :
    blockTaken taps p s = if s.line.orphan then (s, p) else takeTaps taps p (collected s) := by
  unfold blockTaken
  cases kept : s.line.orphan with
  | true => rfl
  | false =>
    unfold collected
    rw [recordAnswer_of _ (.serving job) kept]

theorem blockTaken_left (taps : List Tap) (p : PollRound) (s : State) :
    TapsLeft s (blockTaken taps p s).1 ∧ (blockTaken taps p s).2.entry = p.entry ∧ (blockTaken taps p s).2.live = p.live ∧
      (blockTaken taps p s).2.rest = p.rest := by
  unfold blockTaken
  split
  · exact ⟨.refl s, rfl, rfl, rfl⟩
  · exact ⟨(modifyTerminal_tapsLeft p.entry (f := fun x => { x with lastCollection := some s.time.school }) (fun _ => rfl) s).trans
      (takeTaps_tapsLeft taps p _), takeTaps_round taps p _⟩

section Blocks

variable (phase : s.line.phase = .blocks left) (job : s.line.job = .pollServe p)
include phase job

theorem tapBlock_bad (h : goodBlock (min 4 left) bytes = none) : tapBlock bytes s = settle (blockFails p s) := by
  unfold tapBlock
  rw [phase, roundOf_serving job]
  dsimp only
  rw [h]

theorem blockTimedOut_awaited : blockTimedOut s = blockFails p s := by
  unfold blockTimedOut
  rw [phase, roundOf_serving job]

theorem tapBlock_good (h : goodBlock (min 4 left) bytes = some taps) :
    tapBlock bytes s =
      let r := blockTaken taps p s
      if left ≤ 4 then settle (afterRead r.2 (completeRead r.2 (setRound r.2 .free r.1)))
      else settle (setRound r.2 (.blocks (left - min 4 left)) r.1) := by
  unfold tapBlock
  rw [phase, roundOf_serving job]
  dsimp only
  rw [h]

end Blocks

/-- A block that fails counts one block fault, and the read ends (R113). -/
theorem blockFails_recorded (job : s.line.job = .pollServe p) :
    AnswerRecorded p.entry (fun t => { t with faultsToday := min (t.faultsToday + 1) 65535 }) (fun _ => s.attention) s
      (recordAnswer (fun n => modifyTerminal n fun x => { x with faultsToday := satInc x.faultsToday }) s) :=
  modified_recorded (.serving job) _

/-- The last announced block: the read is complete, and GIVE VERDICTS follows if a tap was taken (R112, R113, R117). -/
theorem lastBlock_ends (round : q.entry = p.entry ∧ q.live = p.live ∧ q.rest = p.rest) (taken : TapsLeft s x) :
    let w := setRound q .free x
    let v := completeRead q w
    AnswerRecorded p.entry (fun t => { t with hold := t.hold.filter fun r => q.read.contains (r.serial, r.card) })
      (fun _ => w.attention) w v ∧
    (q.verdicts ≠ [] ∧ p.live = true ∧ InService p.entry s →
      afterRead q v = thenGoesOn s v (begin_ (.pollServe q) .giveVerdicts v)) ∧
    (¬(q.verdicts ≠ [] ∧ p.live = true ∧ InService p.entry s) → afterRead q v = thenGoesOn s v (serve p.rest v)) := by
  obtain ⟨entry, live, rest⟩ := round
  rw [← entry, ← live, ← rest]
  have recorded := completeRead_recorded (p := q) (s := setRound q .free x) rfl
  have drop : (completeRead q (setRound q .free x)).line.dropJob = s.line.dropJob := by
    rw [answerRecorded_dropJob recorded]
    show x.line.dropJob = _
    rw [taken.line]
  have service : InService q.entry (completeRead q (setRound q .free x)) ↔ InService q.entry s :=
    (answerRecorded_inService recorded fun _ => rfl).trans (taken.service q.entry)
  exact ⟨recorded, afterRead_gives drop service, afterRead_leaves drop service⟩

/-! ### GIVE VERDICTS and READ STATE -/

theorem confirmOk_iff : confirmOk bytes = true ↔ bytes.length = 3 ∧ goodCheck bytes = true ∧ bytes.getD 0 0 = 0xC3#8 := by
  simp only [confirmOk, Bool.and_eq_true, decide_eq_true_eq, beq_iff_eq, and_assoc]

theorem confirmTaken_left {t : Terminal} (ht : terminalAt n s = some t) (p : PollRound) :
    EntryLeft n
      (some
        { heardNow s.time.running t with
          hold := t.hold.filter fun r => !(p.verdicts.map Prod.fst).contains r.serial })
      s.attention s (confirmTaken p n s) := by
  have good := goodAnswer_left ht
  have both := good.trans (.modify good.self fun x =>
    { x with hold := x.hold.filter fun r => !(p.verdicts.map Prod.fst).contains r.serial })
  rw [good.attention_eq] at both
  rw [(heardNow_rest s.time.running t).1] at both
  exact both

theorem confirm_recorded (job : s.line.job = .pollServe p) :
    AnswerRecorded p.entry
      (fun t =>
        { heardNow s.time.running t with
          hold := t.hold.filter fun r => !(p.verdicts.map Prod.fst).contains r.serial })
      (fun _ => s.attention) s (recordAnswer (confirmTaken p) s) :=
  answerRecorded_of (.serving job)
    (fun free => by rw [confirmTaken, goodAnswer_none free, modifyTerminal_free free]) fun _ ht => confirmTaken_left ht p

/-- The answer of a confirm, a good one or another (R108). -/
def confirmAnswer (bytes : Text) (p : PollRound) : Nat → State → State := if confirmOk bytes then confirmTaken p else missedAnswer

theorem verdictsConfirm_eq (phase : s.line.phase = .confirm) (job : s.line.job = .pollServe p) :
    verdictsConfirm bytes s = afterTransaction leaveTerminal (recordAnswer (confirmAnswer bytes p) s) := by
  unfold verdictsConfirm confirmAnswer
  rw [phase, roundOf_serving job]
  dsimp only
  split <;> rfl

theorem stateReplyOf_good (h : bytes.length = 4 ∧ goodCheck bytes = true ∧ (bytes.getD 0 0).toNat ≤ 16) :
    stateReplyOf bytes = some ((bytes.getD 1 0).getLsbD 0, (bytes.getD 1 0).getLsbD 1) :=
  if_pos (by simp only [h.1, h.2.1, h.2.2, decide_true, Bool.and_self])

theorem stateReplyOf_bad (h : ¬(bytes.length = 4 ∧ goodCheck bytes = true ∧ (bytes.getD 0 0).toNat ≤ 16)) :
    stateReplyOf bytes = none :=
  if_neg (by simpa only [Bool.and_eq_true, decide_eq_true_eq, and_assoc] using h)

theorem stateReply_good {overflow fault : Bool} (phase : s.line.phase = .stateReply) (h : stateReplyOf bytes = some (overflow, fault)) :
    stateReply bytes s =
      afterTransaction leaveTerminal (recordAnswer (recordFlags overflow fault) (recordAnswer goodAnswer s)) := by
  unfold stateReply
  rw [phase]
  dsimp only
  rw [h]

theorem stateReply_bad (phase : s.line.phase = .stateReply) (h : stateReplyOf bytes = none) : stateReply bytes s = missTransaction s := by
  unfold stateReply
  rw [phase]
  dsimp only
  rw [h]

theorem recordFlags_left {t : Terminal} (ht : terminalAt n s = some t) (overflow fault : Bool) :
    EntryLeft n (some { t with overflow := overflow, fault := fault })
      (if overflow = true ∧ t.overflow = false ∨ fault = true ∧ t.fault = false then
        (raise .terminal (some (.terminal n)) s).attention
      else s.attention)
      s (recordFlags overflow fault n s) := by
  have left := EntryLeft.modify ht fun x => { x with overflow := overflow, fault := fault }
  unfold recordFlags
  rw [ht]
  simp only [Bool.or_eq_true, Bool.and_eq_true, Bool.not_eq_true']
  split
  · exact left.raised .terminal _
  · exact left

theorem flags_recorded (h : Answering n s) (overflow fault : Bool) :
    AnswerRecorded n (fun t => { heardNow s.time.running t with overflow := overflow, fault := fault })
      (fun t =>
        if overflow = true ∧ t.overflow = false ∨ fault = true ∧ t.fault = false then
          (raise .terminal (some (.terminal n)) s).attention
        else s.attention)
      s (recordAnswer (recordFlags overflow fault) (recordAnswer goodAnswer s)) := by
  have good := good_recorded h
  refine answerRecorded_trans good
    (answerRecorded_of (h.congr (answerRecorded_job good)) (fun free => ?_) fun t ht => recordFlags_left ht overflow fault)
    fun t same => ?_
  · unfold recordFlags
    rw [free]
  · obtain ⟨_, overflowKept, faultKept⟩ := heardNow_rest s.time.running t
    unfold raise
    rw [overflowKept, faultKept, same]

/-- An answer that is recorded in one way where a test holds, and in another where it does not. -/
theorem answerRecorded_ite {c : Prop} [Decidable c] {f g : Terminal → Terminal} {a b : Terminal → List Source}
    (h : c → AnswerRecorded n f a s u) (k : ¬c → AnswerRecorded n g b s u) :
    AnswerRecorded n (fun t => if c then f t else g t) (fun t => if c then a t else b t) s u := by
  by_cases test : c
  · simpa only [test, if_true] using h test
  · simpa only [test, if_false] using k test

/-- A recorded answer that ends the transactions with a terminal ends a liveness check, and in a poll round the terminal's turn. -/
theorem answering_goesOn (h : Answering n s) (recorded : AnswerRecorded n leaves sources s u) :
    afterTransaction leaveTerminal u =
      match s.line.job with
      | .pollServe p => thenGoesOn s u (serve p.rest u)
      | _ => endJob u := by
  obtain ⟨i, job⟩ | ⟨p, job, _⟩ := h
  · rw [afterTransaction_checking ((answerRecorded_job recorded).trans job), job]
  · rw [serving_goesOn job recorded, job]

/-- Settles O35: each answer by its bytes, what it leaves of the terminal, and the transaction that follows. -/
theorem pollAnswersAreTaken : Obligations.PollAnswersAreTaken := by
  unfold Obligations.PollAnswersAreTaken
  refine ⟨fun n bytes taps => goodBlock_iff, fun p s => ⟨rfl, fun tap rest => takeTaps_cons tap rest p s⟩,
    fun bytes p s held phase job => ⟨fun length check some_ few => ?_, fun length check none => ?_, fun bad => ?_⟩,
    fun bytes left p s held phase job => ⟨fun taps good => ?_, ?_⟩, fun bytes p s held phase job => ?_,
    fun bytes n s held phase answering => ?_⟩
  · refine ⟨recordAnswer goodAnswer s, (event_next held (tapsHeader bytes)).trans (congrArg _ ?_), good_recorded (.serving job)⟩
    exact tapsHeader_blocks phase job (headerCount_good length check few) some_
  · have next : exec (.readTapsHeader bytes) s = .next (tapsHeader bytes s) := event_next held _
    rw [tapsHeader_empty phase job (none ▸ headerCount_good length check (by omega))] at next
    have recorded := emptyRead_recorded job
    obtain ⟨goesOn, leaves⟩ := afterEmptyRead recorded (heardNow_isServed s.time.running)
    exact ⟨_, fun h => by rw [next, goesOn h], fun h => by rw [next, leaves h], recorded⟩
  · refine ⟨recordAnswer missedAnswer s, (event_next held (tapsHeader bytes)).trans (congrArg _ ?_), missed_recorded (.serving job)⟩
    rw [tapsHeader_bad phase job (headerCount_bad bad), missTransaction_serving job]
  · have next : exec (.tapBlock bytes) s = .next (tapBlock bytes s) := event_next held _
    rw [tapBlock_good phase job good] at next
    obtain ⟨taken, round⟩ := blockTaken_left taps p s
    refine ⟨blockTaken taps p s, collected s, modified_recorded (.serving job) _, blockTaken_eq job, fun more => ?_, fun last => ?_⟩
    · rw [next, if_neg (Nat.not_le.2 more), Nat.min_eq_left (Nat.le_of_lt more)]
      rfl
    · obtain ⟨recorded, gives, leaves⟩ := lastBlock_ends round taken
      rw [if_pos last] at next
      exact ⟨_, recorded, fun h => by rw [next, gives h], fun h => by rw [next, leaves h]⟩
  · have recorded := blockFails_recorded job
    have service := answerRecorded_inService recorded fun _ => rfl
    refine ⟨_, blockFails p s, recorded, afterRead_gives (answerRecorded_dropJob recorded) service,
      afterRead_leaves (answerRecorded_dropJob recorded) service, fun bad => ?_, ?_⟩
    · rw [← tapBlock_bad phase job bad]
      exact event_next held _
    · rw [← blockTimedOut_awaited phase job]
      exact event_next held _
  · have recorded := answerRecorded_ite (c := bytes.length = 3 ∧ goodCheck bytes = true ∧ bytes.getD 0 0 = 0xC3#8)
      (u := recordAnswer (confirmAnswer bytes p) s)
      (fun good => by rw [confirmAnswer, if_pos (confirmOk_iff.2 good)]; exact confirm_recorded job)
      fun bad => by rw [confirmAnswer, if_neg fun x => bad (confirmOk_iff.1 x)]; exact missed_recorded (.serving job)
    refine ⟨_, (event_next held (verdictsConfirm bytes)).trans (congrArg _ ?_), recorded⟩
    rw [verdictsConfirm_eq phase job, serving_goesOn job recorded]
  · have answers : Answering n s := answering
    have next : exec (.readStateReply bytes) s = .next (stateReply bytes s) := event_next held _
    by_cases good : bytes.length = 4 ∧ goodCheck bytes = true ∧ (bytes.getD 0 0).toNat ≤ 16
    · have recorded := flags_recorded answers ((bytes.getD 1 0).getLsbD 0) ((bytes.getD 1 0).getLsbD 1)
      rw [stateReply_good phase (stateReplyOf_good good), answering_goesOn answers recorded] at next
      exact ⟨_, next, answerRecorded_ite (fun _ => recorded) fun bad => absurd good bad⟩
    · have recorded := missed_recorded answers
      rw [stateReply_bad phase (stateReplyOf_bad good)] at next
      exact ⟨_, next.trans (congrArg _ (answering_goesOn answers recorded)),
        answerRecorded_ite (fun x => absurd x good) fun _ => recorded⟩

end Sys2Proof.Machine
end

