-- ==== Sys2Proof/Proofs/WalkSteps.lean ====
section
/-! SUPPORT. The steps of a walk (R105, R106), and what the end of a poll round's walk leaves to its terminals (R112). -/

namespace Sys2Proof.Machine

variable {w x : Walk} {p : List Bool} {rest : List (List Bool)} {z o : Bool} {job : Walk → Job} {s : State}

/-! ### Branches -/

theorem branches_open (h : p.length < 56) (rest : List (List Bool)) (w : Walk) :
    w.branches (p :: rest) = ({ w with path := p, aside := rest }, false) := by
  rw [Walk.branches, if_pos h]

theorem branches_whole (h : p.length = 56) (rest : List (List Bool)) (w : Walk) :
    w.branches (p :: rest) =
      if 16 ≤ (w.record (identityOfBits p)).found.length then
        ({ w.record (identityOfBits p) with path := [], aside := rest }, true)
      else (w.record (identityOfBits p)).branches rest := by
  rw [Walk.branches, if_neg (by omega)]
  rfl

/-- What is left of a walk after a whole branch: with 16 identities found or no branch put aside it ends with the identities found, and
else it goes on with the branch put aside last (R106). -/
structure BranchesLeft (aside : List (List Bool)) (enough : Prop) (x : Walk) (r : Walk × Bool) : Prop where
  goesOn : ∀ p rest, ¬(enough ∨ aside = []) → aside = p :: rest → r = ({ x with path := p, aside := rest }, false)
  ends : enough ∨ aside = [] → r.2 = true ∧ r.1.found = x.found ∧ r.1.bad = x.bad

/-- No whole branch: the walk goes on with what was put aside. -/
theorem branches_aside (head : ∀ p, rest.head? = some p → p.length < 56) {enough : Prop} (h : ¬enough) (w : Walk) :
    BranchesLeft rest enough w (w.branches rest) := by
  cases rest with
  | nil => exact ⟨fun _ _ go => absurd (.inr rfl) go, fun _ => ⟨rfl, rfl, rfl⟩⟩
  | cons q l =>
    refine ⟨fun p rest _ e => ?_, fun e => absurd e fun e => e.elim h nofun⟩
    obtain ⟨rfl, rfl⟩ := List.cons.inj e
    exact branches_open (head q rfl) l w

/-- One whole branch before what was put aside. -/
theorem branches_wholeAside (whole : p.length = 56) (head : ∀ p, rest.head? = some p → p.length < 56) (w : Walk) :
    BranchesLeft rest (16 ≤ (w.record (identityOfBits p)).found.length) (w.record (identityOfBits p)) (w.branches (p :: rest)) := by
  rw [branches_whole whole]
  by_cases enough : 16 ≤ (w.record (identityOfBits p)).found.length
  · rw [if_pos enough]
    exact ⟨fun _ _ go => absurd (.inl enough) go, fun _ => ⟨rfl, rfl, rfl⟩⟩
  · rw [if_neg enough]
    exact branches_aside head enough _

theorem BranchesLeft.congr {aside : List (List Bool)} {a b : Prop} {r : Walk × Bool} (h : BranchesLeft aside a x r) (e : b ↔ a) :
    BranchesLeft aside b x r := by
  rw [propext e]
  exact h

/-- The walk with the whole identity recorded that ends with a bit (R106). -/
def wholeBranch (w : Walk) (b : Bool) (x : Walk) : Walk := x.record (identityOfBits (w.path ++ [b]))

/-- The walk with the whole identity of its Z branch recorded, where Z came. -/
def lowTaken (w : Walk) (z : Bool) : Walk := if z then wholeBranch w false w else w

/-- The walk with the whole identities of both branches recorded, the O branch unless the Z branch brought the sixteenth. -/
def bothTaken (w : Walk) (z o : Bool) : Walk :=
  if o = true ∧ ¬(z = true ∧ 16 ≤ (lowTaken w z).found.length) then wholeBranch w true (lowTaken w z) else lowTaken w z

/-- A step of the walk whose branches are whole identities, or that has none (R106). -/
theorem step_whole (head : ∀ p, w.aside.head? = some p → p.length < 56)
    (whole : w.path.length = 55 ∨ w.path.length < 55 ∧ z = false ∧ o = false ∧ w.aside = []) :
    BranchesLeft w.aside ((z = true ∨ o = true) ∧ 16 ≤ (bothTaken w z o).found.length) (bothTaken w z o) (w.step z o) := by
  have long (b : Bool) (h : z = true ∨ o = true) : (w.path ++ [b]).length = 56 := by
    obtain length | ⟨_, rfl, rfl, _⟩ := whole
    · rw [List.length_append, length]
      rfl
    · simp at h
  match z, o, long with
  | false, false, _ => exact branches_aside head (by simp) w
  | true, false, long => exact (branches_wholeAside (long false (.inl rfl)) head w).congr (by simp [bothTaken, lowTaken, wholeBranch])
  | false, true, long => exact (branches_wholeAside (long true (.inr rfl)) head w).congr (by simp [bothTaken, lowTaken, wholeBranch])
  | true, true, long =>
    have first : w.step true true = w.branches ((w.path ++ [false]) :: (w.path ++ [true]) :: w.aside) := rfl
    rw [first, branches_whole (long false (.inl rfl))]
    by_cases enough : 16 ≤ (w.record (identityOfBits (w.path ++ [false]))).found.length
    · have both : bothTaken w true true = w.record (identityOfBits (w.path ++ [false])) := if_neg fun h => h.2 ⟨rfl, enough⟩
      rw [if_pos enough, both]
      exact ⟨fun _ _ go => absurd (.inl ⟨.inl rfl, enough⟩) go, fun _ => ⟨rfl, rfl, rfl⟩⟩
    · have both : bothTaken w true true = wholeBranch w true (w.record (identityOfBits (w.path ++ [false]))) :=
        if_pos ⟨rfl, fun h => enough h.2⟩
      rw [if_neg enough, both]
      exact (branches_wholeAside (long true (.inl rfl)) head _).congr (by simp [wholeBranch])

/-! ### The step of a walk's job -/

/-- The jobs that walk. -/
def Walks (job : Walk → Job) : Prop := job = .enumeration ∨ job = .pollWalk

/-- What follows a walk's step. -/
def stepTaken (job : Walk → Job) (r : Walk × Bool) (s : State) : State :=
  if r.2 then walkEnds { s with line := { s.line with job := job r.1 } } else begin_ (job r.1) .seek s

theorem seekResult_walking (phase : s.line.phase = .windows) (walks : Walks job) (h : s.line.job = job w) :
    seekResult z o s = afterTransaction (stepTaken job (w.step z o)) s := by
  unfold seekResult
  obtain rfl | rfl := walks <;> rw [phase, h] <;> rfl

theorem seekResult_dropped (phase : s.line.phase = .windows) (walks : Walks job) (h : s.line.job = job w)
    (drop : s.line.dropJob = true) : seekResult z o s = endJob s := by
  rw [seekResult_walking phase walks h]
  exact if_pos drop

theorem seekResult_step (phase : s.line.phase = .windows) (walks : Walks job) (h : s.line.job = job w)
    (kept : s.line.dropJob = false) : seekResult z o s = stepTaken job (w.step z o) s := by
  rw [seekResult_walking phase walks h]
  exact if_neg (ne_true_of_eq_false kept)

theorem stepTaken_ends {r : Walk × Bool} (h : r.2 = true) :
    stepTaken job r s = walkEnds { s with line := { s.line with job := job r.1 } } := if_pos h

/-! ### The found terminals of a poll round -/

variable {i : Identity} {l : List Identity} {n : Nat} {t : Terminal}

theorem serve_served (h : entryWith i s = some n) (ht : terminalAt n s = some t) (served : t.state = .active ∨ t.state = .silent) :
    serve (i :: l) s = begin_ (.pollServe ⟨l, n, i, true, [], []⟩) .readTaps s := by
  rw [serve, h]
  exact if_pos (any_isServed_iff.2 ⟨t, ht, served⟩)

theorem serve_passed (h : entryWith i s = some n) (ht : terminalAt n s = some t) (idle : t.state = .new ∨ t.state = .lost) :
    serve (i :: l) s = serve l s := by
  rw [serve, h]
  refine if_neg fun served => ?_
  rw [ht, Option.any_some] at served
  obtain e | e := idle <;> rw [e] at served <;> nomatch served

theorem serve_unlisted (h : entryWith i s = none) : serve (i :: l) s = serve l (addFound i s) := by
  rw [serve, h]

theorem addFound_free (h : freeEntry s = some n) :
    addFound i s = raise .terminal (some (.terminal n)) (setTerminal n (some (.new i 0 .new s.time.running)) s) := by
  unfold addFound
  rw [h]

theorem addFound_full (h : freeEntry s = none) : addFound i s = refuseIdentity i s := by
  unfold addFound
  rw [h]

theorem addFound_left (h : freeEntry s = some n) (eight : s.line.table.length = 8) :
    EntryLeft n (some (.new i 0 .new s.time.running)) (raise .terminal (some (.terminal n)) s).attention s (addFound i s) := by
  rw [addFound_free h]
  exact (EntryLeft.set (eight ▸ (freeEntry_eq_some.1 h).1) _).raised .terminal _

end Sys2Proof.Machine
end

