-- ==== Sys2Proof/Proofs/Enumeration.lean ====
section
/-! SUPPORT. The end of an enumeration's walk: the found identities one after another, then the entries that the walk did not find
(R102, R119). -/

namespace Sys2Proof.Machine

/-! ### Words of the rule -/

/-- The found identities that no entry holds, in the order found. -/
def unlistedOf (s : State) (l : List Identity) : List Identity := l.filter fun i => (entryWith i s).isNone

/-- The free entries in order. -/
def freeEntries (s : State) : List Nat := (List.range 8).filter fun n => (terminalAt n s).isNone

/-- The unlisted identities for which no entry is free. -/
def leftOver (s : State) (l : List Identity) : List Identity := (unlistedOf s l).drop (freeEntries s).length

/-- The number of terminals that meet a test. -/
def countTerminals (s : State) (p : Terminal → Bool) : Nat := (List.range 8).countP fun n => (terminalAt n s).any p

/-- How often FULL is raised for the identities left over: not for one that the refused-identity record has (R112). -/
def refusals (s : State) (l : List Identity) : Nat := (leftOver s l).length - if (leftOver s l).head? = s.line.refused then 1 else 0

/-- A source raised `k` times with no subject (R195). -/
def raisedTimes (k : Nat) (x : Source) : Source := if k = 0 then x else ⟨true, min (x.count + k) 255, none⟩

/-- What an enumeration leaves of a listed terminal it found (R119). -/
def foundAgain (now : RunTime) (t : Terminal) : Terminal :=
  if t.state = .new then { t with lastHeard := now } else { t with lastHeard := now, state := .active, missed := 0 }

/-- The terminal of an identity found that no entry held (R119). -/
def newFound (now : RunTime) (i : Identity) : Terminal := .new i 0 .new now

variable {s : State} {l : List Identity} {i : Identity} {m n : Nat} {t : Terminal}

/-! ### Facts about them -/

theorem raisedTimes_succ (k : Nat) (x : Source) : (raisedTimes k x).raised none = raisedTimes (k + 1) x := by
  unfold raisedTimes
  rw [if_neg (Nat.succ_ne_zero k)]
  by_cases zero : k = 0
  · rw [if_pos zero, zero]
    rfl
  · rw [if_neg zero]
    simp only [Source.raised, Source.mk.injEq, true_and, and_true]
    omega

theorem foundAgain_identity (now : RunTime) (t : Terminal) : (foundAgain now t).identity = t.identity := by
  unfold foundAgain
  split <;> rfl

theorem mem_unlistedOf : i ∈ unlistedOf s l ↔ i ∈ l ∧ entryWith i s = none := by
  rw [unlistedOf, List.mem_filter, Option.isNone_iff_eq_none]

theorem mem_freeEntries : n ∈ freeEntries s ↔ n < 8 ∧ terminalAt n s = none := by
  rw [freeEntries, List.mem_filter, List.mem_range, Option.isNone_iff_eq_none]

theorem freeEntries_sorted (s : State) : (freeEntries s).Pairwise (· < ·) := List.Pairwise.filter _ List.pairwise_lt_range

/-- The free entries rise with their places. -/
theorem freeEntries_lt_iff {j k : Nat} (hj : (freeEntries s)[j]? = some m) (hk : (freeEntries s)[k]? = some n) : m < n ↔ j < k := by
  obtain ⟨lj, rfl⟩ := List.getElem?_eq_some_iff.1 hj
  obtain ⟨lk, rfl⟩ := List.getElem?_eq_some_iff.1 hk
  have sorted := List.pairwise_iff_getElem.1 (freeEntries_sorted s)
  obtain less | rfl | more := Nat.lt_trichotomy j k
  · exact iff_of_true (sorted j k lj lk less) less
  · exact iff_of_false (Nat.lt_irrefl _) (Nat.lt_irrefl _)
  · exact iff_of_false (Nat.lt_asymm (sorted k j lk lj more)) (Nat.lt_asymm more)

theorem unlistedOf_listed (h : entryWith i s ≠ none) : unlistedOf s (l ++ [i]) = unlistedOf s l := by
  obtain ⟨n, hn⟩ := Option.ne_none_iff_exists'.1 h
  rw [unlistedOf, List.filter_append, List.filter_singleton, hn]
  exact List.append_nil _

theorem unlistedOf_unlisted (h : entryWith i s = none) : unlistedOf s (l ++ [i]) = unlistedOf s l ++ [i] := by
  rw [unlistedOf, List.filter_append, List.filter_singleton, h]
  rfl

theorem leftOver_listed (h : entryWith i s ≠ none) : leftOver s (l ++ [i]) = leftOver s l := by
  unfold leftOver
  rw [unlistedOf_listed h]

theorem leftOver_room (room : (unlistedOf s l).length < (freeEntries s).length) : leftOver s l = [] :=
  List.drop_eq_nil_of_le (Nat.le_of_lt room)

/-- An unlisted identity for which an entry is free leaves none over. -/
theorem leftOver_added (h : entryWith i s = none) (room : (unlistedOf s l).length < (freeEntries s).length) :
    leftOver s (l ++ [i]) = [] := by
  unfold leftOver
  rw [unlistedOf_unlisted h]
  exact List.drop_eq_nil_of_le (by rw [List.length_append, List.length_singleton]; omega)

theorem leftOver_refused (h : entryWith i s = none) (full : (freeEntries s).length ≤ (unlistedOf s l).length) :
    leftOver s (l ++ [i]) = leftOver s l ++ [i] := by
  unfold leftOver
  rw [unlistedOf_unlisted h, List.drop_append_of_le_length full]

theorem mem_of_leftOver (h : i ∈ leftOver s l) : i ∈ l := (mem_unlistedOf.1 (List.mem_of_mem_drop h)).1

theorem refusals_none (h : leftOver s l = []) : refusals s l = 0 := by
  unfold refusals
  rw [h]
  exact Nat.zero_sub _

/-- Two counts over a range whose tests differ at one place alone. -/
theorem countP_range_place {p q : Nat → Bool} {k n : Nat} (hn : n < k) (same : ∀ m, m ≠ n → p m = q m) (absent : q n = false) :
    (List.range k).countP p = (List.range k).countP q + if p n then 1 else 0 := by
  induction k with
  | zero => omega
  | succ k ih =>
    rw [List.range_succ, List.countP_append, List.countP_append, List.countP_singleton, List.countP_singleton]
    by_cases last : n = k
    · subst last
      have below : (List.range n).countP p = (List.range n).countP q :=
        List.countP_congr fun m hm => by rw [same m (Nat.ne_of_lt (List.mem_range.1 hm))]
      rw [below, absent]
      simp
    · rw [ih (by omega), same k (Ne.symm last)]
      omega

/-! ### What one of them may change -/

/-- Of a state only the Terminal Table, the refused-identity record and the attention sources changed. -/
def TableChanged (s u : State) : Prop :=
  u = { s with line := { s.line with table := u.line.table, refused := u.line.refused }, attention := u.attention }

theorem TableChanged.trans {s u v : State} (h : TableChanged s u) (g : TableChanged u v) : TableChanged s v := by
  unfold TableChanged at h g ⊢
  refine g.trans ?_
  rw [h]

theorem EntryLeft.tableChanged {x : Option Terminal} {sources : List Source} {s u : State} (h : EntryLeft n x sources s u) :
    TableChanged s u := by
  unfold TableChanged
  rw [h.state]

/-- TERMINAL was raised `k` times, and no other source (R195). -/
structure TerminalRaised (k : Nat) (s u : State) : Prop where
  length : u.attention.length = s.attention.length
  count : min (sourceAt 10 u).count 255 = min ((sourceAt 10 s).count + k) 255
  others : ∀ n, n ≠ 10 → sourceAt n u = sourceAt n s

theorem terminalRaised_not {s u : State} (h : u.attention = s.attention) : TerminalRaised 0 s u := by
  have same (n : Nat) : sourceAt n u = sourceAt n s := by unfold sourceAt; rw [h]
  exact ⟨by rw [h], by rw [same]; rfl, fun n _ => same n⟩

theorem terminalRaised_once {x : Option Subject} {s u : State} (fourteen : s.attention.length = 14)
    (h : u.attention = (raise .terminal x s).attention) : TerminalRaised 1 s u := by
  have same (n : Nat) : sourceAt n u = sourceAt n (raise .terminal x s) := by unfold sourceAt; rw [h]
  refine ⟨by rw [h]; exact List.length_modify .., ?_, fun n hn => (same n).trans (sourceAt_raise_ne (id := .terminal) x s (Ne.symm hn))⟩
  have ten : sourceAt 10 (raise .terminal x s) = (sourceAt 10 s).raised x :=
    sourceAt_raise_self (id := .terminal) x (by rw [fourteen]; decide)
  rw [same, ten, Source.raised]
  exact Nat.min_assoc .. |>.trans (congrArg _ (Nat.min_self 255))

/-! ### The found identities -/

/-- The state and the counts after some of the found identities (R119). -/
structure FoundSoFar (s : State) (l : List Identity) (r : State × Nat × Nat × Nat) : Prop where
  state : TableChanged s r.1
  eight : r.1.line.table.length = 8
  fourteen : r.1.attention.length = 14
  listed : ∀ n t, terminalAt n s = some t →
    terminalAt n r.1 = some (if t.identity ∈ l then foundAgain s.time.running t else t)
  free : ∀ (k n : Nat), (freeEntries s)[k]? = some n → terminalAt n r.1 = (unlistedOf s l)[k]?.map (newFound s.time.running)
  added : r.2.1 = min (unlistedOf s l).length (freeEntries s).length
  restored : r.2.2.1 = countTerminals s fun t => t.state = .lost ∧ t.identity ∈ l
  turnedAway : r.2.2.2 = (leftOver s l).length
  refused : r.1.line.refused = (leftOver s l).getLast?.or s.line.refused
  terminal : min (sourceAt 10 r.1).count 255 = min ((sourceAt 10 s).count + (r.2.1 + r.2.2.1)) 255
  full : sourceAt 11 r.1 = raisedTimes (refusals s l) (sourceAt 11 s)
  others : ∀ n, n ≠ 10 → n ≠ 11 → sourceAt n r.1 = sourceAt n s

theorem foundSoFar_nil (eight : s.line.table.length = 8) (fourteen : s.attention.length = 14) : FoundSoFar s [] (s, 0, 0, 0) where
  state := rfl
  eight := eight
  fourteen := fourteen
  listed n t ht := by rw [ht, if_neg List.not_mem_nil]
  free k n hn := (mem_freeEntries.1 (List.mem_of_getElem? hn)).2
  added := (Nat.zero_min _).symm
  restored := (List.countP_eq_zero.2 fun n _ => by simp).symm
  turnedAway := by simp [leftOver, unlistedOf]
  refused := by simp [leftOver, unlistedOf]
  terminal := rfl
  full := by rw [refusals_none (by simp [leftOver, unlistedOf])]; rfl
  others _ _ _ := rfl

/-- No two entries hold one identity. -/
def IdentitiesDistinct (s : State) : Prop :=
  ∀ m n t u, terminalAt m s = some t → terminalAt n s = some u → t.identity = u.identity → m = n

/-- The LOST terminals found, counted once more for an identity that an entry holds. -/
theorem countRestored_listed (distinct : IdentitiesDistinct s) (hn : n < 8) (ht : terminalAt n s = some t) (fresh : t.identity ∉ l) :
    (countTerminals s fun x => x.state = .lost ∧ x.identity ∈ l ++ [t.identity]) =
      (countTerminals s fun x => x.state = .lost ∧ x.identity ∈ l) + if t.state = .lost then 1 else 0 := by
  have place := countP_range_place (k := 8)
    (p := fun m => (terminalAt m s).any fun x => x.state = .lost ∧ x.identity ∈ l ++ [t.identity])
    (q := fun m => (terminalAt m s).any fun x => x.state = .lost ∧ x.identity ∈ l) hn (fun m hm => ?_) (by simp [ht, fresh])
  · refine place.trans ?_
    simp [countTerminals, ht]
  · cases hu : terminalAt m s with
    | none => rfl
    | some u =>
      have other : u.identity ≠ t.identity := fun e => hm (distinct m n u t hu ht e)
      simp [other]

/-- The LOST terminals found, where no entry holds one more identity. -/
theorem countRestored_unlisted (h : entryWith i s = none) :
    (countTerminals s fun x => x.state = .lost ∧ x.identity ∈ l ++ [i]) =
      countTerminals s fun x => x.state = .lost ∧ x.identity ∈ l := by
  refine List.countP_congr fun m hm => ?_
  cases hu : terminalAt m s with
  | none => rfl
  | some u =>
    have other : u.identity ≠ i := entryWith_eq_none.1 h m (List.mem_range.1 hm) u hu
    simp [other]

namespace FoundSoFar

variable {r : State × Nat × Nat × Nat} {u : Terminal} {v : State}

theorem now (h : FoundSoFar s l r) : r.1.time = s.time := by rw [h.state]

/-- A terminal of the table is a listed one, or new with an identity found. -/
theorem identity (h : FoundSoFar s l r) (hu : terminalAt m r.1 = some u) :
    (∃ t, terminalAt m s = some t ∧ t.identity = u.identity) ∨ u.identity ∈ unlistedOf s l := by
  cases ht : terminalAt m s with
  | some t =>
    refine .inl ⟨t, rfl, ?_⟩
    cases (h.listed m t ht).symm.trans hu
    split
    · exact (foundAgain_identity _ _).symm
    · rfl
  | none =>
    obtain ⟨k, hk⟩ := List.mem_iff_getElem?.1 (mem_freeEntries.2 ⟨h.eight ▸ terminalAt_lt hu, ht⟩)
    obtain ⟨j, hj, rfl⟩ := Option.map_eq_some_iff.1 ((h.free k m hk).symm.trans hu)
    exact .inr (List.mem_of_getElem? hj)

/-- The entry of an identity still to be handled is what it was. -/
theorem entryWith_eq (h : FoundSoFar s l r) (distinct : IdentitiesDistinct s) (fresh : i ∉ l) : entryWith i r.1 = entryWith i s := by
  have old : ∀ m u, terminalAt m r.1 = some u → u.identity = i → ∃ t, terminalAt m s = some t ∧ t.identity = i := by
    rintro m u hu rfl
    exact (h.identity hu).resolve_right fun x => fresh (mem_unlistedOf.1 x).1
  cases hs : entryWith i s with
  | none =>
    refine entryWith_eq_none.2 fun m hm u hu e => ?_
    obtain ⟨t, ht, hi⟩ := old m u hu e
    exact entryWith_eq_none.1 hs m hm t ht hi
  | some n =>
    obtain ⟨hn, ⟨t, ht, rfl⟩, _⟩ := entryWith_eq_some.1 hs
    have same : terminalAt n r.1 = some t := by rw [h.listed n t ht, if_neg fresh]
    refine entryWith_of_unique hn same rfl fun m u hu e => ?_
    obtain ⟨x, hx, hi⟩ := old m u hu e
    exact distinct m n x t hx ht hi

/-- The lowest free entry is the next of the free ones. -/
theorem freeEntry_eq (h : FoundSoFar s l r) : freeEntry r.1 = (freeEntries s)[(unlistedOf s l).length]? := by
  have taken (m : Nat) (hm : m < 8) (before : ∀ j, (freeEntries s)[j]? = some m → j < (unlistedOf s l).length) :
      terminalAt m r.1 ≠ none := by
    cases ht : terminalAt m s with
    | some t => rw [h.listed m t ht]; nofun
    | none =>
      obtain ⟨j, hj⟩ := List.mem_iff_getElem?.1 (mem_freeEntries.2 ⟨hm, ht⟩)
      rw [h.free j m hj, List.getElem?_eq_getElem (before j hj)]
      nofun
  cases hn : (freeEntries s)[(unlistedOf s l).length]? with
  | none =>
    refine freeEntry_eq_none.2 fun m hm => taken m hm fun j hj => ?_
    exact Nat.lt_of_lt_of_le (List.getElem?_eq_some_iff.1 hj).1 (List.getElem?_eq_none_iff.1 hn)
  | some n =>
    obtain ⟨hn8, _⟩ := mem_freeEntries.1 (List.mem_of_getElem? hn)
    refine freeEntry_eq_some.2 ⟨hn8, ?_, fun m hm => taken m (hm.trans hn8) fun j hj => (freeEntries_lt_iff hj hn).1 hm⟩
    rw [h.free _ n hn, List.getElem?_eq_none (Nat.le_refl _)]
    rfl

theorem enumerateOne_some (h : entryWith i r.1 = some n) (ht : terminalAt n r.1 = some t) :
    enumerateOne r i =
      if t.state = .lost then
        (raise .terminal (some (.terminal n))
            (setTerminal n (some { t with state := .active, missed := 0, lastHeard := r.1.time.running }) r.1),
          r.2.1, r.2.2.1 + 1, r.2.2.2)
      else (goodAnswer n r.1, r.2) := by
  unfold enumerateOne
  dsimp only
  rw [h]
  dsimp only
  rw [ht]

theorem enumerateOne_none (h : entryWith i r.1 = none) :
    enumerateOne r i =
      if (freeEntry r.1).isSome then (addFound i r.1, r.2.1 + 1, r.2.2.1, r.2.2.2)
      else (addFound i r.1, r.2.1, r.2.2.1, r.2.2.2 + 1) := by
  unfold enumerateOne
  dsimp only
  rw [h]

/-- A listed identity found: its terminal is heard now, and a LOST one is restored (R119). -/
theorem enumerateOne_listed (h : FoundSoFar s l r) (same : terminalAt n r.1 = some t) (held : entryWith i r.1 = some n) :
    (enumerateOne r i).2 = (r.2.1, r.2.2.1 + (if t.state = .lost then 1 else 0), r.2.2.2) ∧
      EntryLeft n (some (foundAgain s.time.running t)) (enumerateOne r i).1.attention r.1 (enumerateOne r i).1 ∧
      TerminalRaised (if t.state = .lost then 1 else 0) r.1 (enumerateOne r i).1 := by
  rw [enumerateOne_some held same]
  by_cases lost : t.state = .lost
  · have again : foundAgain s.time.running t = { t with state := .active, missed := 0, lastHeard := r.1.time.running } := by
      rw [h.now, foundAgain, if_neg (by rw [lost]; nofun)]
    rw [if_pos lost, if_pos lost, again]
    exact ⟨rfl, (EntryLeft.set (terminalAt_lt same) _).raised .terminal _, terminalRaised_once h.fourteen rfl⟩
  · have again : heardNow r.1.time.running t = foundAgain s.time.running t := by
      unfold heardNow foundAgain
      rw [h.now]
      cases e : t.state <;> simp [e] at lost ⊢
    have good := goodAnswer_left same
    rw [if_neg lost, if_neg lost, ← again]
    exact ⟨rfl, good.attention_eq.symm ▸ good, terminalRaised_not good.attention_eq⟩

theorem step_listed (h : FoundSoFar s l r) (distinct : IdentitiesDistinct s) (fresh : i ∉ l) (hs : entryWith i s = some n) :
    FoundSoFar s (l ++ [i]) (enumerateOne r i) := by
  obtain ⟨hn, ⟨t, ht, rfl⟩, _⟩ := entryWith_eq_some.1 hs
  have same : terminalAt n r.1 = some t := by rw [h.listed n t ht, if_neg fresh]
  obtain ⟨counts, left, raised⟩ := h.enumerateOne_listed same ((h.entryWith_eq distinct fresh).trans hs)
  have listed : entryWith t.identity s ≠ none := by rw [hs]; nofun
  have refused : (enumerateOne r t.identity).1.line.refused = r.1.line.refused := by rw [left.state]
  refine
    { state := h.state.trans left.tableChanged
      eight := left.length.trans h.eight
      fourteen := raised.length.trans h.fourteen
      listed := fun m u hu => ?_
      free := fun k m hm => ?_
      added := ?_
      restored := ?_
      turnedAway := ?_
      refused := ?_
      terminal := ?_
      full := ?_
      others := fun m h10 h11 => (raised.others m h10).trans (h.others m h10 h11) }
  · by_cases same : m = n
    · subst same
      cases hu.symm.trans ht
      rw [left.self, if_pos (List.mem_append_right _ (List.mem_singleton.2 rfl))]
    · have other : u.identity ≠ t.identity := fun e => same (distinct m n u t hu ht e)
      rw [left.others m same, h.listed m u hu]
      simp only [List.mem_append, List.mem_singleton, other, or_false]
  · have other : m ≠ n := fun e => by
      have := (mem_freeEntries.1 (List.mem_of_getElem? hm)).2
      rw [e, ht] at this
      nomatch this
    rw [left.others m other, h.free k m hm, unlistedOf_listed listed]
  · rw [counts, unlistedOf_listed listed]
    exact h.added
  · rw [counts, countRestored_listed distinct hn ht fresh]
    exact congrArg (· + _) h.restored
  · rw [counts, leftOver_listed listed]
    exact h.turnedAway
  · rw [refused, leftOver_listed listed]
    exact h.refused
  · rw [raised.count, counts]
    have := h.terminal
    dsimp only
    omega
  · rw [raised.others 11 (by decide), h.full]
    unfold refusals
    rw [leftOver_listed listed]

/-- An unlisted identity found while an entry is free: it is added there as NEW (R119). -/
theorem step_added (h : FoundSoFar s l r) (distinct : IdentitiesDistinct s) (fresh : i ∉ l) (hs : entryWith i s = none)
    (room : (unlistedOf s l).length < (freeEntries s).length) : FoundSoFar s (l ++ [i]) (enumerateOne r i) := by
  obtain ⟨n, place⟩ : ∃ n, (freeEntries s)[(unlistedOf s l).length]? = some n := ⟨_, List.getElem?_eq_getElem room⟩
  have free := h.freeEntry_eq.trans place
  have one : enumerateOne r i = (addFound i r.1, r.2.1 + 1, r.2.2.1, r.2.2.2) := by
    rw [enumerateOne_none ((h.entryWith_eq distinct fresh).trans hs), free]
    rfl
  have left := addFound_left (i := i) free h.eight
  have raised : TerminalRaised 1 r.1 (addFound i r.1) := terminalRaised_once h.fourteen left.attention_eq
  have refused : (addFound i r.1).line.refused = r.1.line.refused := by rw [left.state]
  have before := leftOver_room room
  have after := leftOver_added hs room
  rw [one]
  refine
    { state := h.state.trans left.tableChanged
      eight := left.length.trans h.eight
      fourteen := raised.length.trans h.fourteen
      listed := fun m u hu => ?_
      free := fun k m hm => ?_
      added := ?_
      restored := h.restored.trans (countRestored_unlisted hs).symm
      turnedAway := by rw [after, ← before]; exact h.turnedAway
      refused := by rw [refused, after, ← before]; exact h.refused
      terminal := ?_
      full := by rw [raised.others 11 (by decide), h.full, refusals_none before, refusals_none after]
      others := fun m h10 h11 => (raised.others m h10).trans (h.others m h10 h11) }
  · have taken : m ≠ n := fun e => by
      rw [e, (mem_freeEntries.1 (List.mem_of_getElem? place)).2] at hu
      nomatch hu
    have lt : m < 8 := h.eight ▸ terminalAt_lt (h.listed m u hu)
    have other : u.identity ≠ i := entryWith_eq_none.1 hs m lt u hu
    rw [left.others m taken, h.listed m u hu]
    simp only [List.mem_append, List.mem_singleton, other, or_false]
  · rw [unlistedOf_unlisted hs]
    obtain less | same | more := Nat.lt_trichotomy k (unlistedOf s l).length
    · have other : m ≠ n := Nat.ne_of_lt ((freeEntries_lt_iff hm place).2 less)
      rw [left.others m other, h.free k m hm, List.getElem?_append_left less]
    · subst same
      cases hm.symm.trans place
      rw [left.self, List.getElem?_concat_length, h.now]
      rfl
    · have other : m ≠ n := Nat.ne_of_gt ((freeEntries_lt_iff place hm).2 more)
      rw [left.others m other, h.free k m hm, List.getElem?_eq_none (Nat.le_of_lt more), List.getElem?_eq_none]
      rw [List.length_append, List.length_singleton]
      exact more
  · rw [unlistedOf_unlisted hs, List.length_append, List.length_singleton]
    have := h.added
    dsimp only
    omega
  · rw [raised.count]
    have := h.terminal
    dsimp only
    omega

/-- FULL raised for an identity that the refused-identity record does not have (R112). -/
theorem refuseIdentity_full (h : FoundSoFar s l r) (hs : entryWith i s = none) (fresh : i ∉ l)
    (full : (freeEntries s).length ≤ (unlistedOf s l).length) :
    sourceAt 11 (refuseIdentity i r.1) = raisedTimes (refusals s (l ++ [i])) (sourceAt 11 s) := by
  have once : sourceAt 11 (raise .full none { r.1 with line := { r.1.line with refused := some i } }) =
      (sourceAt 11 r.1).raised none := sourceAt_raise_self (id := .full) none (h.fourteen ▸ by decide)
  have record := h.refused
  unfold refuseIdentity
  cases extra : leftOver s l with
  | nil =>
    rw [extra, List.getLast?_nil, Option.none_or] at record
    have before : sourceAt 11 r.1 = sourceAt 11 s := by rw [h.full, refusals_none extra]; rfl
    have count : refusals s (l ++ [i]) = 1 - if some i = s.line.refused then 1 else 0 := by
      unfold refusals
      rw [leftOver_refused hs full, extra]
      rfl
    rw [record, count]
    by_cases has : s.line.refused = some i
    · rw [if_pos has, if_pos has.symm, before]
      rfl
    · rw [if_neg has, if_neg (Ne.symm has), once, before]
      exact raisedTimes_succ 0 _
  | cons j rest =>
    have last : r.1.line.refused ≠ some i := by
      rw [record, extra, List.getLast?_eq_some_getLast (List.cons_ne_nil j rest), Option.some_or]
      intro e
      refine fresh (mem_of_leftOver (s := s) ?_)
      rw [extra, ← Option.some.inj e]
      exact List.getLast_mem _
    have count : refusals s (l ++ [i]) = refusals s l + 1 := by
      unfold refusals
      rw [leftOver_refused hs full, extra, List.cons_append, List.head?_cons, List.head?_cons, List.length_cons, List.length_cons,
        List.length_append, List.length_singleton]
      split <;> omega
    rw [if_neg last, once, h.full, count, raisedTimes_succ]

/-- An unlisted identity found while no entry is free: it goes to the refused-identity record (R119). -/
theorem step_refused (h : FoundSoFar s l r) (distinct : IdentitiesDistinct s) (fresh : i ∉ l) (hs : entryWith i s = none)
    (full : (freeEntries s).length ≤ (unlistedOf s l).length) : FoundSoFar s (l ++ [i]) (enumerateOne r i) := by
  have free : freeEntry r.1 = none := h.freeEntry_eq.trans (List.getElem?_eq_none full)
  have one : enumerateOne r i = (refuseIdentity i r.1, r.2.1, r.2.2.1, r.2.2.2 + 1) := by
    rw [enumerateOne_none ((h.entryWith_eq distinct fresh).trans hs), free, addFound_full free]
    rfl
  have table : (refuseIdentity i r.1).line.table = r.1.line.table := by unfold refuseIdentity; split <;> rfl
  have changed : TableChanged r.1 (refuseIdentity i r.1) := by unfold refuseIdentity; split <;> rfl
  have record : (refuseIdentity i r.1).line.refused = some i := by
    unfold refuseIdentity
    split
    · assumption
    · rfl
  have same (n : Nat) (hn : n ≠ 11) : sourceAt n (refuseIdentity i r.1) = sourceAt n r.1 := by
    unfold refuseIdentity
    split
    · rfl
    · exact sourceAt_raise_ne (id := .full) none _ (Ne.symm hn)
  have length : (refuseIdentity i r.1).attention.length = r.1.attention.length := by
    unfold refuseIdentity
    split
    · rfl
    · exact List.length_modify ..
  rw [one]
  refine
    { state := h.state.trans changed
      eight := (congrArg _ table).trans h.eight
      fourteen := length.trans h.fourteen
      listed := fun m u hu => ?_
      free := fun k m hm => ?_
      added := ?_
      restored := h.restored.trans (countRestored_unlisted hs).symm
      turnedAway := by rw [leftOver_refused hs full, List.length_append]; exact congrArg (· + 1) h.turnedAway
      refused := by rw [record, leftOver_refused hs full, List.getLast?_concat, Option.some_or]
      terminal := (congrArg (fun x : Source => min x.count 255) (same 10 (by decide))).trans h.terminal
      full := h.refuseIdentity_full hs fresh full
      others := fun m h10 h11 => (same m h11).trans (h.others m h10 h11) }
  · have lt : m < 8 := h.eight ▸ terminalAt_lt (h.listed m u hu)
    have other : u.identity ≠ i := entryWith_eq_none.1 hs m lt u hu
    rw [terminalAt_congr table, h.listed m u hu]
    simp only [List.mem_append, List.mem_singleton, other, or_false]
  · have inside : k < (unlistedOf s l).length := Nat.lt_of_lt_of_le (List.getElem?_eq_some_iff.1 hm).1 full
    rw [terminalAt_congr table, h.free k m hm, unlistedOf_unlisted hs, List.getElem?_append_left inside]
  · rw [unlistedOf_unlisted hs, List.length_append, List.length_singleton]
    have := h.added
    dsimp only
    omega

end FoundSoFar

/-- The found identities, one after another. -/
theorem foundSoFar_foldl (eight : s.line.table.length = 8) (fourteen : s.attention.length = 14) (distinct : IdentitiesDistinct s)
    (once : l.Nodup) : FoundSoFar s l (l.foldl enumerateOne (s, 0, 0, 0)) := by
  induction l using List.reverseRecOn with
  | nil => exact foundSoFar_nil eight fourteen
  | append_singleton l i ih =>
    obtain ⟨before, _, apart⟩ := List.nodup_append.1 once
    have fresh : i ∉ l := fun h => apart i h i (List.mem_singleton.2 rfl) rfl
    rw [List.foldl_append]
    have h := ih before
    cases hs : entryWith i s with
    | some n => exact h.step_listed distinct fresh hs
    | none =>
      obtain room | full := Nat.lt_or_ge (unlistedOf s l).length (freeEntries s).length
      · exact h.step_added distinct fresh hs room
      · exact h.step_refused distinct fresh hs full

end Sys2Proof.Machine
end

