-- ==== Sys2Proof/Proofs/Walks.lean ====
section
/-! PROOF. The walks of enumerations and poll rounds: their steps (R105, R106) and their ends (R112, R119). -/

namespace Sys2Proof.Machine

variable {s a : State} {l : List Identity} {k n : Nat} {t : Terminal} {r : State × Nat}

/-! ### The entries that the walk did not find -/

/-- What an enumeration leaves of an entry whose terminal it did not find (R102, R119). -/
def unfound (found : List Identity) (t : Terminal) : Option Terminal :=
  if t.identity ∈ found then some t else if t.state = .new then none else some (missedOnce t)

/-- A NEW terminal not found: it leaves the table (R119). -/
def leavesTable (found : List Identity) (t : Terminal) : Bool := t.state = .new ∧ t.identity ∉ found

/-- A terminal not found that misses its third answer in a row: it is LOST (R102, R119). -/
def becomesLost (found : List Identity) (t : Terminal) : Bool :=
  (t.state = .active ∨ t.state = .silent) ∧ 2 ≤ t.missed ∧ t.identity ∉ found

/-- The number of terminals among the first `k` entries that meet a test. -/
def countBelow (k : Nat) (a : State) (p : Terminal → Bool) : Nat := (List.range k).countP fun n => (terminalAt n a).any p

theorem countBelow_succ (k : Nat) (a : State) (p : Terminal → Bool) :
    countBelow (k + 1) a p = countBelow k a p + if (terminalAt k a).any p then 1 else 0 := by
  unfold countBelow
  rw [List.range_succ, List.countP_append, List.countP_singleton]

/-- The state and the number of NEW entries removed after the first `k` entries (R119). -/
structure UnfoundSoFar (a : State) (found : List Identity) (k : Nat) (r : State × Nat) : Prop where
  state : TableChanged a r.1
  eight : r.1.line.table.length = 8
  fourteen : r.1.attention.length = 14
  before : ∀ n < k, terminalAt n r.1 = (terminalAt n a).bind (unfound found)
  after : ∀ n, k ≤ n → terminalAt n r.1 = terminalAt n a
  removed : r.2 = countBelow k a (leavesTable found)
  refused : r.1.line.refused = if 0 < r.2 then none else a.line.refused
  terminal : min (sourceAt 10 r.1).count 255 = min ((sourceAt 10 a).count + countBelow k a (becomesLost found)) 255
  others : ∀ n, n ≠ 10 → sourceAt n r.1 = sourceAt n a

theorem unfoundSoFar_zero (eight : a.line.table.length = 8) (fourteen : a.attention.length = 14) (found : List Identity) :
    UnfoundSoFar a found 0 (a, 0) where
  state := rfl
  eight := eight
  fourteen := fourteen
  before _ h := absurd h (Nat.not_lt_zero _)
  after _ _ := rfl
  removed := rfl
  refused := rfl
  terminal := rfl
  others _ _ := rfl

/-- What the visit of one entry may do: it writes the entry, raises TERMINAL where the terminal is lost, and makes the refused-identity
record absent where it leaves. -/
structure EntryVisited (k : Nat) (x : Option Terminal) (lost gone : Bool) (r q : State × Nat) : Prop where
  state : TableChanged r.1 q.1
  self : terminalAt k q.1 = x
  others : ∀ n, n ≠ k → terminalAt n q.1 = terminalAt n r.1
  length : q.1.line.table.length = r.1.line.table.length
  raised : TerminalRaised (if lost then 1 else 0) r.1 q.1
  removed : q.2 = r.2 + if gone then 1 else 0
  refused : q.1.line.refused = if gone then none else r.1.line.refused

/-- An entry that a visit leaves as it is. -/
theorem entryVisited_same (k : Nat) (r : State × Nat) : EntryVisited k (terminalAt k r.1) false false r r where
  state := rfl
  self := rfl
  others _ _ := rfl
  length := rfl
  raised := terminalRaised_not rfl
  removed := rfl
  refused := rfl

theorem missedRaises_raised (h : EntryLeft k (some (missedOnce t)) (missedRaises k t s) s a) (fourteen : s.attention.length = 14) :
    TerminalRaised (if (t.state = .active ∨ t.state = .silent) ∧ 2 ≤ t.missed then 1 else 0) s a := by
  have sources := h.attention_eq
  unfold missedRaises at sources
  split
  · rename_i lost
    rw [if_pos lost] at sources
    exact terminalRaised_once fourteen sources
  · rename_i kept
    rw [if_neg kept] at sources
    exact terminalRaised_not sources

theorem enumerateUnfound_visited (found : List Identity) (fourteen : r.1.attention.length = 14) :
    EntryVisited k ((terminalAt k r.1).bind (unfound found)) ((terminalAt k r.1).any (becomesLost found))
      ((terminalAt k r.1).any (leavesTable found)) r (enumerateUnfound found r k) := by
  have same := entryVisited_same k r
  unfold enumerateUnfound
  cases ht : terminalAt k r.1 with
  | none =>
    rw [ht] at same
    exact same
  | some t =>
    simp only [Option.bind_some, Option.any_some, List.contains_iff_mem]
    by_cases listed : t.identity ∈ found
    · simp only [unfound, becomesLost, leavesTable, listed, if_true, not_true, and_false, decide_false]
      rw [ht] at same
      exact same
    · by_cases new : t.state = .new
      · have left := EntryLeft.set (terminalAt_lt ht) none
        simp only [unfound, becomesLost, leavesTable, listed, new, if_true, if_false, not_false_eq_true, and_true, decide_true,
          reduceCtorEq, or_self, false_and, decide_false]
        exact
          { state := rfl
            self := left.self
            others := left.others
            length := left.length
            raised := terminalRaised_not rfl
            removed := rfl
            refused := rfl }
      · have left := missedAnswer_left ht
        have lost := missedRaises_raised left fourteen
        simp only [unfound, becomesLost, leavesTable, listed, new, if_false, not_false_eq_true, and_true, decide_false]
        exact
          { state := left.tableChanged
            self := left.self
            others := left.others
            length := left.length
            raised := by simpa only [decide_eq_true_eq] using lost
            removed := rfl
            refused := by rw [left.state]; rfl }

theorem UnfoundSoFar.step (h : UnfoundSoFar a l k r) : UnfoundSoFar a l (k + 1) (enumerateUnfound l r k) := by
  have visited := enumerateUnfound_visited (k := k) l h.fourteen
  rw [h.after k (Nat.le_refl k)] at visited
  refine
    { state := h.state.trans visited.state
      eight := visited.length.trans h.eight
      fourteen := visited.raised.length.trans h.fourteen
      before := fun n hn => ?_
      after := fun n hn => (visited.others n (by omega)).trans (h.after n (by omega))
      removed := by rw [visited.removed, h.removed, countBelow_succ]
      refused := ?_
      terminal := ?_
      others := fun n hn => (visited.raised.others n hn).trans (h.others n hn) }
  · by_cases last : n = k
    · rw [last]
      exact visited.self
    · exact (visited.others n last).trans (h.before n (by omega))
  · rw [visited.refused, visited.removed, h.refused]
    by_cases gone : (terminalAt k a).any (leavesTable l) = true
    · simp [gone]
    · simp [gone]
  · have := visited.raised.count
    have := h.terminal
    rw [countBelow_succ]
    omega

theorem unfoundSoFar_foldl (eight : a.line.table.length = 8) (fourteen : a.attention.length = 14) (found : List Identity) (k : Nat) :
    UnfoundSoFar a found k ((List.range k).foldl (enumerateUnfound found) (a, 0)) := by
  induction k with
  | zero => exact unfoundSoFar_zero eight fourteen found
  | succ k ih =>
    rw [List.range_succ, List.foldl_append]
    exact ih.step

/-! ### The end of an enumeration -/

/-- After the found identities the terminals not found are those listed before that are not found. -/
theorem FoundSoFar.count_eq {q : State × Nat × Nat × Nat} (h : FoundSoFar s l q) {p : Terminal → Bool}
    (hp : ∀ t, t.identity ∈ l → p t = false) : countBelow 8 q.1 p = countTerminals s p := by
  refine List.countP_congr fun n hn => ?_
  cases ht : terminalAt n s with
  | some t =>
    rw [h.listed n t ht]
    by_cases found : t.identity ∈ l
    · rw [if_pos found, Option.any_some, Option.any_some, hp t found, hp _ ((foundAgain_identity _ t).symm ▸ found)]
    · rw [if_neg found]
  | none =>
    obtain ⟨j, hj⟩ := List.mem_iff_getElem?.1 (mem_freeEntries.2 ⟨List.mem_range.1 hn, ht⟩)
    rw [h.free j n hj]
    cases hi : (unlistedOf s l)[j]? with
    | none => rfl
    | some i => rw [Option.map_some, Option.any_some, hp _ (mem_unlistedOf.1 (List.mem_of_getElem? hi)).1]; rfl

/-- A listed terminal, found or not, is left as `enumerated` says. -/
theorem foundAgain_unfound (now : RunTime) (found : List Identity) (t : Terminal) :
    unfound found (if t.identity ∈ found then foundAgain now t else t) = enumerated found now t := by
  unfold enumerated
  by_cases listed : t.identity ∈ found
  · rw [if_pos listed, if_pos listed, unfound, foundAgain_identity, if_pos listed]
    rfl
  · rw [if_neg listed, if_neg listed, unfound, if_neg listed]

/-- What an enumeration found, removed and lost, and the state it leaves before the job ends (R119). -/
structure EnumerationLeft (w : Walk) (s u : State) : Prop where
  state : u =
    { s with
      line :=
        { s.line with table := u.line.table, refused := u.line.refused, lastEnumeration := u.line.lastEnumeration }
      attention := u.attention }
  listed : ∀ n t, terminalAt n s = some t → terminalAt n u = enumerated w.found s.time.running t
  added : ∀ (k n : Nat), (freeEntries s)[k]? = some n → terminalAt n u = (unlistedOf s w.found)[k]?.map (newFound s.time.running)
  refused : u.line.refused =
    if 0 < countTerminals s (leavesTable w.found) then none else (leftOver s w.found).getLast?.or s.line.refused
  record : u.line.lastEnumeration =
    some ⟨s.time.school, w.found.length, min (unlistedOf s w.found).length (freeEntries s).length,
      countTerminals s fun t => t.state = .lost ∧ t.identity ∈ w.found, countTerminals s (leavesTable w.found), w.bad,
      (leftOver s w.found).length, decide (16 ≤ w.found.length)⟩
  terminal : sourceAt 10 u =
    ⟨true,
      min
        ((sourceAt 10 s).count +
          (min (unlistedOf s w.found).length (freeEntries s).length +
            (countTerminals s fun t => t.state = .lost ∧ t.identity ∈ w.found) + countTerminals s (becomesLost w.found) + 1))
        255,
      none⟩
  full : sourceAt 11 u = raisedTimes (refusals s w.found) (sourceAt 11 s)
  others : ∀ n, n ≠ 10 → n ≠ 11 → sourceAt n u = sourceAt n s

/-- The end of an enumeration's walk: its found identities, then the other entries, the record and TERMINAL (R119). -/
theorem finishEnumeration_left (w : Walk) (eight : s.line.table.length = 8) (fourteen : s.attention.length = 14)
    (distinct : IdentitiesDistinct s) (once : w.found.Nodup) : ∃ u, finishEnumeration w s = endJob u ∧ EnumerationLeft w s u := by
  have first := foundSoFar_foldl eight fourteen distinct once
  unfold finishEnumeration
  generalize w.found.foldl enumerateOne (s, 0, 0, 0) = q at first
  have second := unfoundSoFar_foldl first.eight first.fourteen w.found 8
  dsimp only
  generalize (List.range 8).foldl (enumerateUnfound w.found) (q.1, 0) = u at second
  have changed := first.state.trans second.state
  have absent : ∀ t : Terminal, t.identity ∈ w.found → leavesTable w.found t = false ∧ becomesLost w.found t = false := fun t h => by
    simp [leavesTable, becomesLost, h]
  have gone : countBelow 8 q.1 (leavesTable w.found) = countTerminals s (leavesTable w.found) :=
    first.count_eq fun t h => (absent t h).1
  have lost : countBelow 8 q.1 (becomesLost w.found) = countTerminals s (becomesLost w.found) :=
    first.count_eq fun t h => (absent t h).2
  refine ⟨_, rfl,
    { state := ?_
      listed := fun n t ht => ?_
      added := fun k n hn => ?_
      refused := ?_
      record := ?_
      terminal := ?_
      full := ?_
      others := fun n h10 h11 => ?_ }⟩
  · rw [changed]
    rfl
  · have lt : n < 8 := eight ▸ terminalAt_lt ht
    refine (second.before n lt).trans ?_
    rw [first.listed n t ht]
    exact foundAgain_unfound _ _ t
  · obtain ⟨lt, _⟩ := mem_freeEntries.1 (List.mem_of_getElem? hn)
    refine (second.before n lt).trans ?_
    rw [first.free k n hn]
    cases hi : (unlistedOf s w.found)[k]? with
    | none => rfl
    | some i => exact if_pos (mem_unlistedOf.1 (List.mem_of_getElem? hi)).1
  · refine second.refused.trans ?_
    rw [second.removed, gone, first.refused]
  · rw [← first.added, ← first.restored, ← first.turnedAway, ← gone, ← second.removed]
    rfl
  · refine (sourceAt_raise_self (id := .terminal) none (by show 10 < u.1.attention.length; rw [second.fourteen]; decide)).trans ?_
    have count : min (sourceAt 10 u.1).count 255 = min ((sourceAt 10 s).count +
        (min (unlistedOf s w.found).length (freeEntries s).length +
          (countTerminals s fun t => t.state = .lost ∧ t.identity ∈ w.found) + countTerminals s (becomesLost w.found))) 255 := by
      rw [← lost, ← first.added, ← first.restored]
      have := first.terminal
      have := second.terminal
      omega
    show Source.mk true (min ((sourceAt 10 u.1).count + 1) 255) none = _
    congr 1
    omega
  · exact ((sourceAt_raise_ne (id := .terminal) none _ (by decide)).trans (second.others 11 (by decide))).trans first.full
  · exact ((sourceAt_raise_ne (id := .terminal) none _ (Ne.symm h10)).trans (second.others n h10)).trans (first.others n h10 h11)

/-! ### The obligation -/

/-- A step that leaves the walk a path that is no whole identity goes on with it. -/
theorem stepTaken_open {w : Walk} {z o : Bool} {job : Walk → Job} {p : List Bool} {rest : List (List Bool)}
    (h : w.step z o = w.branches (p :: rest)) (short : p.length < 56) :
    stepTaken job (w.step z o) s = begin_ (job { w with path := p, aside := rest }) .seek s := by
  rw [h, branches_open short]
  rfl

/-- Settles O34: the step by its branches, the end of a poll round's walk by its next identity, and the end of an enumeration. -/
theorem seekStepsWalkTheTree : Obligations.SeekStepsWalkTheTree := by
  unfold Obligations.SeekStepsWalkTheTree
  refine ⟨fun w job s held phase kept walks hj short => ?_, fun w z o job s held phase drop walks hj => ?_,
    fun w z o job s held phase kept walks hj head whole => ?_, fun w s held alert kept hj eight => ?_,
    fun w s held alert kept hj eight fourteen once distinct => ?_⟩
  · have next (z o : Bool) : exec (.seekStepResult z o) s = .next (stepTaken job (w.step z o) s) :=
      (event_next held (seekResult z o)).trans (congrArg _ (seekResult_step phase walks hj kept))
    have longer (b : Bool) : (w.path ++ [b]).length < 56 := by
      rw [List.length_append, List.length_singleton]
      omega
    refine ⟨(next _ _).trans (congrArg _ (stepTaken_open rfl (longer false))),
      (next _ _).trans (congrArg _ (stepTaken_open rfl (longer true))),
      (next _ _).trans (congrArg _ (stepTaken_open rfl (longer false))), fun p rest aside hp =>
        (next _ _).trans (congrArg _ (stepTaken_open ?_ hp))⟩
    rw [← aside]
    rfl
  · exact (event_next held (seekResult z o)).trans (congrArg _ (seekResult_dropped phase walks hj drop))
  · have next : exec (.seekStepResult z o) s = .next (stepTaken job (w.step z o) s) :=
      (event_next held (seekResult z o)).trans (congrArg _ (seekResult_step phase walks hj kept))
    have left := step_whole head whole
    refine ⟨fun p rest more aside => ?_, fun ended => ?_⟩
    · rw [next, left.goesOn p rest more aside]
      rfl
    · obtain ⟨ends, found, bad⟩ := left.ends ended
      rw [next, stepTaken_ends ends]
      refine ⟨(w.step z o).1, found, bad, ?_, ?_⟩
      · rintro rfl
        rfl
      · rintro rfl
        rfl
  · have next : exec .alertNoAnswer s = .next (serve w.found s) := by
      refine (event_next held alertUnanswered).trans (congrArg _ ?_)
      rw [alertUnanswered_seek alert, afterTransaction, if_neg (ne_true_of_eq_false kept), walkEnds_pollWalk hj]
    rw [next]
    refine ⟨fun none => by rw [none]; rfl, fun i rest found => ?_⟩
    rw [found]
    refine ⟨fun n t hn ht => ⟨fun served => by rw [serve_served hn ht served], fun idle => by rw [serve_passed hn ht idle]⟩,
      fun n hn unlisted free first => ?_, fun unlisted full => ?_⟩
    · have left := addFound_left (i := i) (freeEntry_eq_some.2 ⟨hn, free, first⟩) eight
      exact ⟨addFound i s, by rw [serve_unlisted unlisted], left.self, left.others, left.state⟩
    · rw [serve_unlisted unlisted, addFound_full (freeEntry_eq_none.2 full)]
      rfl
  · obtain ⟨u, ends, left⟩ := finishEnumeration_left w eight fourteen distinct once
    refine ⟨u, ?_, left.state, left.listed, left.added, left.refused, left.record, left.terminal, left.full, left.others⟩
    refine (event_next held alertUnanswered).trans (congrArg _ ?_)
    rw [alertUnanswered_seek alert, afterTransaction, if_neg (ne_true_of_eq_false kept), walkEnds_enumeration hj, ends]

end Sys2Proof.Machine
end

