-- ==== Sys2Proof/Proofs/ArriveRequest.lean ====
section
/-! PROOF. ARRIVE: its checks, and the arrival it takes with its reply (R125–R131, R193). -/

namespace Sys2Proof.Machine

variable {slot : Slot} {time : Option SchoolTime} {p : Pupil} {s : State}

/-! ### The checks -/

/-- A slot or a time that does not exist. -/
theorem arriveValues_iff :
    slotCount ≤ slot ∨ time.any (daySeconds ≤ ·) = true ↔ 2048 ≤ slot ∨ ∃ t, time = some t ∧ 86400 ≤ t :=
  or_congr Iff.rfl ((Option.any_eq_true _ _).trans (exists_congr fun _ => and_congr_right fun _ => decide_eq_true_iff))

/-- An arrival time after the present or before the opening. -/
theorem arriveTime_iff :
    (time.any fun t => s.time.school < t || t < s.day.openingTime.getD 0) = true ↔
      ∃ t, time = some t ∧ (s.time.school < t ∨ t < s.day.openingTime.getD 0) := by
  simp only [Option.any_eq_true, Bool.or_eq_true, decide_eq_true_eq]

theorem arrive_answers (slot : Slot) (time : Option SchoolTime) (s : State) :
    Answers (checksOf (.arrive slot time) s) s (arrive slot time s) := by
  refine .ite (not_iff_of_iff dayIsOpen_iff) fun _ => .ite arriveValues_iff fun _ => .ite arriveTime_iff fun _ => ?_
  cases hp : pupilAt slot s with
  | none => exact .refused rfl
  | some p => exact .passes nofun (.ok _ _)

/-! ### The reply -/

theorem markItem_eq (hp : pupilAt slot s = some p) : markItem slot s = .word (markWord p.day.mark) := by
  rw [markItem, markAt_eq hp]
  rfl

/-- What ARRIVE replies of an arrival: the mark, the verdict, the number of a notice created (R125, R131, R133). -/
def arriveItems (slot : Slot) (r : Arrived) : List Item :=
  [markItem slot r.state, .word (verdictWord r.verdict)] ++ optItem "NOTICE" .num r.notice

theorem arriveItems_eq {r : Arrived} {v : Verdict} {notice : Option Nat} (hp : pupilAt slot r.state = some p)
    (verdict : r.verdict = v) (number : r.notice = notice) :
    arriveItems slot r = [.word (markWord p.day.mark), .word (verdictWord v)] ++ optItem "NOTICE" .num notice := by
  rw [arriveItems, markItem_eq hp, verdict, number]

/-- ARRIVE where none of its checks holds. -/
theorem arrive_taken (opened : s.day.state = .open_) (inRoll : slot < 2048)
    (inDay : ∀ t, time = some t → t < 86400 ∧ t ≤ s.time.school ∧ s.day.openingTime.getD 0 ≤ t) (hp : pupilAt slot s = some p) :
    arrive slot time s =
      (settle (arrivalChange .office slot p (time.getD s.time.school) none s).state,
        .ok (arriveItems slot (arrivalChange .office slot p (time.getD s.time.school) none s))) := by
  have values : ¬(2048 ≤ slot ∨ ∃ t, time = some t ∧ 86400 ≤ t) := by
    rintro (h | ⟨t, ht, h⟩)
    · exact Nat.not_le.2 inRoll h
    · exact Nat.not_le.2 (inDay t ht).1 h
  have ofDay : ¬∃ t, time = some t ∧ (s.time.school < t ∨ t < s.day.openingTime.getD 0) := by
    rintro ⟨t, ht, outside⟩
    obtain ⟨_, past, opening⟩ := inDay t ht
    exact outside.elim (Nat.not_lt.2 past) (Nat.not_lt.2 opening)
  unfold arrive
  rw [if_neg fun h => (not_iff_of_iff dayIsOpen_iff).1 h opened, if_neg fun h => values (arriveValues_iff.1 h),
    if_neg fun h => ofDay (arriveTime_iff.1 h), hp]
  rfl

/-- Settles O38: the checks, then the arrival by the pupil's mark. -/
theorem arriveTakesTheArrival : Obligations.ArriveTakesTheArrival := by
  unfold Obligations.ArriveTakesTheArrival
  refine ⟨fun slot time s held => refusedByItsChecks_of rfl held (arrive_answers slot time s),
    fun slot time p s held hs opened hp inDay => ?_⟩
  have taken := arrive_taken opened (hs.slot_lt hp) inDay hp
  have left := arrivalChange_left (source := .office) (at_ := time.getD s.time.school) (terminal := none) hp
  refine ⟨_, _, exec_taken rfl held taken, arrivalChange_arrivalOnly _ _ _ _ _ s, left.sweep, left.away, left.others,
    fun arrived => ?_, fun excused => ?_, fun h out back => ?_, fun unaccounted => ?_, left.quiet, left.sources⟩
  · rw [left.arrived arrived]
    exact ⟨rfl, arriveItems_eq hp rfl rfl⟩
  · obtain ⟨self, verdict, silent⟩ := left.excused excused
    exact ⟨self, arriveItems_eq self verdict silent⟩
  · obtain ⟨self, verdict, silent⟩ := left.signedOut out
    simp only [signedIn, back, Option.getD_some] at self
    exact ⟨self, arriveItems_eq self verdict silent⟩
  · obtain ⟨self, verdict, notices⟩ := left.unaccounted unaccounted
    exact ⟨self, _, notices, arriveItems_eq self verdict rfl⟩

end Sys2Proof.Machine
end

