-- ==== Sys2Proof/Proofs/ClosureRequest.lean ====
section
/-! PROOF. CLOSURE: its checks, and the closure it declares (R43, R44, R147). -/

namespace Sys2Proof.Machine

/-! ### Pupils who leave ABSENT_PENDING one after another -/

/-- Two withdrawals are one of the notices that meet either test, where the second passes over what the first has cancelled. -/
theorem Withdrawn.trans {p q : Notice → Bool} {l m r : List Notice} (first : Withdrawn p l m) (second : Withdrawn q m r)
    (cancelled : ∀ n : Notice, n.cancel = true → q n = false) : Withdrawn (fun n => p n || q n) l r := by
  unfold Withdrawn at first second ⊢
  rw [second, first, List.filter_map, List.map_map, List.filter_filter]
  have stays : (l.filter fun n => ((fun n => !q n || n.inWindow) ∘ fun n => if p n then { n with cancel := true } else n) n &&
      (!p n || n.inWindow)) = l.filter fun n => !(p n || q n) || n.inWindow := by
    refine List.filter_congr fun n _ => ?_
    cases hp : p n
    · simp [hp]
    · simp [hp, cancelled { n with cancel := true } rfl]
  rw [stays]
  refine List.map_congr_left fun n _ => ?_
  cases hp : p n
  · simp [hp]
  · simp [hp, cancelled { n with cancel := true } rfl]

/-- No pupil came to be of ABSENT_PENDING. -/
def NonePended (s t : State) : Prop :=
  ∀ k, (pupilAt k t).any (·.day.mark = .absentPending) = true → (pupilAt k s).any (·.day.mark = .absentPending) = true

theorem leftPending_cancelled {s t : State} {n : Notice} (h : n.cancel = true) : leftPending s t n = false := by
  unfold leftPending
  cases n.addressee with
  | broadcast b => rfl
  | pupil k i => simp [h]

theorem leftPending_self (s : State) (n : Notice) : leftPending s s n = false := by
  unfold leftPending
  cases n.addressee with
  | broadcast b => rfl
  | pupil k i => simp

/-- A pupil leaves ABSENT_PENDING in the first or in the second of two changes in which none comes to it. -/
theorem leftPending_trans {s t u : State} (first : NonePended s t) (second : NonePended t u) (n : Notice) :
    leftPending s u n = (leftPending s t n || leftPending t u n) := by
  unfold leftPending
  cases n.addressee with
  | broadcast b => rfl
  | pupil k i =>
    dsimp only
    cases ht : (pupilAt k t).any (·.day.mark = .absentPending) with
    | true => simp [first k ht]
    | false =>
      have hu : (pupilAt k u).any (·.day.mark = .absentPending) = false :=
        Bool.eq_false_iff.2 fun pending => Bool.eq_false_iff.1 ht (second k pending)
      simp [hu]

/-! ### The pupils excused -/

theorem excused_of_not {source : MarkSource} {reason : ExcuseReason} {d : DayPart} (h : isUnaccountedMark d.mark = false) :
    excused source reason d = d := if_neg (by rw [h]; nofun)

theorem excused_twice (source : MarkSource) (reason : ExcuseReason) (d : DayPart) :
    excused source reason (excused source reason d) = excused source reason d := by
  cases h : isUnaccountedMark d.mark with
  | false => rw [excused_of_not h, excused_of_not h]
  | true =>
    refine excused_of_not ?_
    unfold excused
    rw [if_pos h]
    rfl

theorem excused_pending {source : MarkSource} {reason : ExcuseReason} {d : DayPart}
    (h : (excused source reason d).mark = .absentPending) : d.mark = .absentPending := by
  unfold excused at h
  split at h
  · nomatch h
  · exact h

/-- The pupils of some slots excused by a closure, where they are not yet accounted for (R44). -/
def excusedAll (l : List Slot) (s : State) : State := l.foldl (fun s k => claim k (excused .closure .closure) s) s

theorem excusedAll_cons (k : Slot) (l : List Slot) (s : State) :
    excusedAll (k :: l) s = excusedAll l (claim k (excused .closure .closure) s) := rfl

theorem pupilAt_excusedAll (j : Slot) (l : List Slot) (s : State) :
    pupilAt j (excusedAll l s) =
      (pupilAt j s).map fun p => if j ∈ l then { p with day := excused .closure .closure p.day } else p := by
  induction l generalizing s with
  | nil => simp [excusedAll]
  | cons k t ih =>
    rw [excusedAll_cons, ih, pupilAt_claim, Option.map_map]
    refine congrArg (Option.map · _) (funext fun p => ?_)
    by_cases hk : j = k <;> by_cases ht : j ∈ t <;> simp [hk, ht, excused_twice]

theorem excusedAll_nonePended (l : List Slot) (s : State) : NonePended s (excusedAll l s) := by
  intro j h
  rw [pupilAt_excusedAll] at h
  cases hp : pupilAt j s with
  | none => rw [hp] at h; nomatch h
  | some p =>
    rw [hp, Option.map_some, Option.any_some, decide_eq_true_iff] at h
    rw [Option.any_some, decide_eq_true_iff]
    split at h
    · exact excused_pending h
    · exact h

/-- The ABSENT notice of each pupil that leaves ABSENT_PENDING is withdrawn (R6). -/
theorem excusedAll_withdrawn (l : List Slot) (s : State) :
    Withdrawn (leftPending s (excusedAll l s)) s.notices.queue (excusedAll l s).notices.queue := by
  induction l generalizing s with
  | nil => exact withdrawn_none fun n _ => leftPending_self s n
  | cons k t ih =>
    have one : NonePended s (claim k (excused .closure .closure) s) := excusedAll_nonePended [k] s
    rw [excusedAll_cons]
    exact ((claim_leftPending k _ s).trans (ih _) fun n => leftPending_cancelled).congr fun n _ =>
      leftPending_trans one (excusedAll_nonePended t _) n

theorem excusedAll_claimsOnly (l : List Slot) (s : State) : ClaimsOnly s (excusedAll l s) :=
  .foldl (fun s k => claim_claimsOnly k _ s) l s

theorem excusedAll_attention (l : List Slot) (s : State) : (excusedAll l s).attention = s.attention :=
  foldl_keeps (g := State.attention) (fun s k => claim_attention k _ s) l s

theorem excusedAll_sweep (l : List Slot) {s : State} (h : s.sweep.state ≠ .paused) : (excusedAll l s).sweep = s.sweep :=
  (Heard.foldl (fun s k => claim_heard k _ (Heard.refl s)) l (Heard.refl s)).sweep_eq h

/-- Where every pupil not yet accounted for is among the slots, each is excused. -/
theorem pupilAt_excusedAll_unaccounted (j : Slot) {s : State} {l : List Slot}
    (all : ∀ k p, pupilAt k s = some p → isUnaccountedMark p.day.mark = true → k ∈ l) :
    pupilAt j (excusedAll l s) =
      (pupilAt j s).map fun p =>
        if isUnaccountedMark p.day.mark then
          { p with day := { p.day with mark := .excused, source := some .closure, reason := some .closure, back := none } }
        else p := by
  rw [pupilAt_excusedAll]
  refine Option.map_congr fun p hp => ?_
  by_cases h : isUnaccountedMark p.day.mark = true
  · rw [if_pos (all j p hp h), if_pos h]
    unfold excused
    rw [if_pos h]
  · rw [if_neg h, excused_of_not (Bool.not_eq_true _ ▸ h), ite_self]

/-! ### The closure declared -/

variable {textSlot : Nat} {s : State}

/-- The day, the plan and the sweeps as a closure leaves them, before the marks follow (R44, R147). -/
def closureBegun (textSlot : Nat) (s : State) : State :=
  abandonSweeps (cancelEntries { s with day := { s.day with closureFlag := true, closureText := some textSlot } })

/-- The state with every pupil accounted for. -/
def closureExcused (textSlot : Nat) (s : State) : State :=
  excusedAll (slotsWhere (fun p => isUnaccountedMark p.day.mark) (closureBegun textSlot s)) (closureBegun textSlot s)

theorem declareClosure_eq (textSlot : Nat) (s : State) :
    declareClosure textSlot s =
      raise .day none
        (addNotice .closure (newBroadcast [0, 1, 2, 3, 4, 5, 6, 7] .first) 15 none (some textSlot) (closureExcused textSlot s)) := rfl

/-- What stands before the notice joins: the closure begun but for the marks, the counts and the queue. -/
theorem closureExcused_state (textSlot : Nat) (s : State) :
    closureExcused textSlot s =
      { closureBegun textSlot s with
        roll :=
          { s.roll with
            roster := (closureExcused textSlot s).roll.roster, census := (closureExcused textSlot s).roll.census }
        notices := { s.notices with queue := (closureExcused textSlot s).notices.queue } } := by
  unfold closureExcused
  generalize slotsWhere _ (closureBegun textSlot s) = l
  have idle : (closureBegun textSlot s).sweep.state ≠ .paused := nofun
  have claims := excusedAll_claimsOnly l (closureBegun textSlot s)
  unfold ClaimsOnly at claims
  rw [excusedAll_attention, excusedAll_sweep l idle] at claims
  exact claims

/-- The blocks that a closure changes (R44). -/
theorem declareClosure_state (textSlot : Nat) (s : State) :
    declareClosure textSlot s =
      { s with
        day := { s.day with
          closureFlag := true, closureText := some textSlot, cohorts := (closureBegun textSlot s).day.cohorts }
        sweep := ⟨[], none, .idle⟩
        roll :=
          { s.roll with
            roster := (closureExcused textSlot s).roll.roster, census := (closureExcused textSlot s).roll.census }
        notices :=
          { s.notices with
            counter := nextNoticeNumber (closureExcused textSlot s)
            queue :=
              (closureExcused textSlot s).notices.queue ++
                [⟨nextNoticeNumber (closureExcused textSlot s), .closure,
                  .broadcast ⟨[0, 1, 2, 3, 4, 5, 6, 7], .first, 0, 0, [], 0, 0, 0, false⟩, 15, s.time.date, s.time.school, none,
                  some textSlot, false, false⟩] }
        plan :=
          { s.plan with
            today := { s.plan.today with entries := s.plan.today.entries.map (closureEntry s.time.school) } }
        attention := (raise .day none s).attention } := by
  have state := closureExcused_state textSlot s
  rw [declareClosure_eq]
  generalize closureExcused textSlot s = e at state ⊢
  generalize hn : nextNoticeNumber e = number
  unfold addNotice
  rw [hn, state]
  rfl

theorem declareClosure_pupilAt (k : Slot) (textSlot : Nat) (s : State) :
    pupilAt k (declareClosure textSlot s) = pupilAt k (closureExcused textSlot s) := rfl

theorem declareClosure_withdrawn (textSlot : Nat) (s : State) :
    Withdrawn (leftPending s (declareClosure textSlot s)) s.notices.queue (closureExcused textSlot s).notices.queue :=
  excusedAll_withdrawn _ (closureBegun textSlot s)

/-- The number of the broadcast is free (R154). -/
theorem closureNumber_issued (counter : s.notices.counter ≤ 65535)
    (few : (closureExcused textSlot s).notices.queue.length < 65535) :
    NumberIssued s.notices.counter ((closureExcused textSlot s).notices.queue.map (·.number))
      (nextNoticeNumber (closureExcused textSlot s)) := by
  have same : (closureExcused textSlot s).notices.counter = s.notices.counter := by rw [closureExcused_state]
  have issued := numberIssued_nextFree (used := (closureExcused textSlot s).notices.queue.map (·.number)) counter
    (by rwa [List.length_map])
  rw [List.length_map] at issued
  unfold nextNoticeNumber
  rw [same]
  exact issued

/-! ### CLOSURE -/

/-- The queue has no place for the broadcast, nor does any notice make one (R43). -/
theorem closureFull_iff :
    (queueFull s = true ∧ ¬s.notices.queue.any (·.isWaitingAbsent) = true) ↔
      128 ≤ s.notices.queue.length ∧ ∀ n ∈ s.notices.queue, n.kind = .absent → n.inWindow = true := by
  rw [queueFull_iff, Nat.not_lt, List.any_eq_true]
  simp [Notice.isWaitingAbsent]

theorem closure_answers (textSlot : Nat) (s : State) :
    Answers (checksOf (.closure textSlot) s) s (closure textSlot s) :=
  .ite (not_iff_of_iff dayIsOpen_iff) fun _ => .ite Iff.rfl fun _ => .ite List.isEmpty_iff fun _ => .ite Iff.rfl fun _ =>
    .ite closureFull_iff fun _ => .ok _ _

/-- CLOSURE where none of its checks holds. -/
theorem closure_taken (opened : s.day.state = .open_) (inRange : textSlot < 16)
    (text : s.notices.texts.getD textSlot [] ≠ []) (first : s.day.closureFlag = false)
    (room : s.notices.queue.length < 128 ∨ ∃ n ∈ s.notices.queue, n.kind = .absent ∧ n.inWindow = false) :
    closure textSlot s =
      (settle (declareClosure textSlot s), .ok [.num (nextNoticeNumber (closureExcused textSlot s))]) := by
  have fits : ¬(queueFull s = true ∧ ¬s.notices.queue.any (·.isWaitingAbsent) = true) := by
    rw [closureFull_iff]
    rintro ⟨full, busy⟩
    obtain free | ⟨n, hn, kind, waiting⟩ := room
    · exact Nat.not_lt.2 full free
    · rw [busy n hn kind] at waiting
      nomatch waiting
  unfold closure
  rw [if_neg fun h => (not_iff_of_iff dayIsOpen_iff).1 h opened, if_neg (Nat.not_le.2 inRange),
    if_neg fun h => text (List.isEmpty_iff.1 h), if_neg (by rw [first]; nofun), if_neg fits]
  rfl

/-- Settles O17: the checks, then the closure declared, block by block. -/
theorem closureDeclaresTheSchoolClosed : Obligations.ClosureDeclaresTheSchoolClosed := by
  unfold Obligations.ClosureDeclaresTheSchoolClosed
  refine ⟨fun textSlot s held => refusedByItsChecks_of rfl held (closure_answers textSlot s),
    fun textSlot s held _ opened inRange text first room => ?_⟩
  have taken := closure_taken opened inRange text first room
  have cohorts (c : Nat) := getElem?_cutDone c s.sweep.list s.day.cohorts
  have day : (declareClosure textSlot s).day.cohorts = (closureBegun textSlot s).day.cohorts := by rw [declareClosure_state]
  refine ⟨declareClosure textSlot s, (closureExcused textSlot s).notices.queue, nextNoticeNumber (closureExcused textSlot s),
    exec_taken rfl held taken, ?_, fun c _ listed => ?_, fun c _ unlisted => ?_, declareClosure_withdrawn textSlot s,
    fun counter few => closureNumber_issued counter few, fun k => ?_⟩
  · rw [day]
    exact declareClosure_state textSlot s
  · rw [day]
    exact (cohorts c).trans (if_pos listed)
  · rw [day]
    exact (cohorts c).trans (if_neg unlisted)
  · exact pupilAt_excusedAll_unaccounted (s := closureBegun textSlot s) k fun j p hp unaccounted =>
      mem_slotsWhere hp unaccounted

end Sys2Proof.Machine
end

