-- ==== Sys2Proof/Proofs/SweepVisit.lean ====
section
/-! PROOF. A visit of the absence sweep: the slot passed over, the pupil made ABSENT_UNREACHED or ABSENT_PENDING, the pause, and the end of
the walk (R142–R144, R146). -/

namespace Sys2Proof.Machine

variable {head : Sweep} {rest : List Sweep} {slot : Slot} {p : Pupil} {s : State}

/-! ### The tests of a visit -/

/-- The pupil in a slot is due (R142). -/
abbrev SweepDue (head : Sweep) (p : Pupil) : Prop :=
  p.enrolment.cohort = head.cohort ∧ p.day.mark = .unseen ∧ ∀ t, p.enrolment.permit = some t → t ≤ head.cut

/-- The queue has room for an ABSENT notice (R144). -/
abbrev AbsentRoom (s : State) : Prop :=
  (s.notices.queue.countP fun n => n.kind = .absent) < 120 ∧ s.notices.queue.length < 128

theorem isDue_iff : isDue head p = true ↔ SweepDue head p := by
  simp only [isDue, Bool.and_eq_true, decide_eq_true_eq, and_assoc, Option.all_eq_true]

theorem absentRoom_iff : absentRoom s = true ↔ AbsentRoom s := by
  unfold absentRoom
  rw [Bool.and_eq_true, decide_eq_true_iff, Bool.not_eq_true', ← Bool.not_eq_true, queueFull_iff, not_not]
  rfl

/-! ### What a visit does -/

theorem exec_sweepVisit (held : s.power.held = false) (running : s.sweep = ⟨head :: rest, some slot, .running⟩) :
    exec .sweepVisit s = .next (settle (visitSlot head rest slot s)) := by
  have visit : sweepVisit s = visitSlot head rest slot s := by
    unfold sweepVisit
    rw [running]
  show execSweepVisit s = _
  unfold execSweepVisit
  rw [event_next held, visit]

theorem visitSlot_notDue (h : ∀ p, pupilAt slot s = some p → ¬SweepDue head p) :
    visitSlot head rest slot s = moveOn head rest slot s := by
  unfold visitSlot
  cases hp : pupilAt slot s with
  | none => rfl
  | some p => exact if_pos ((not_iff_of_iff isDue_iff).2 (h p hp))

/-- A visit of a slot that is due. -/
theorem visitSlot_due (hp : pupilAt slot s = some p) (due : SweepDue head p) :
    visitSlot head rest slot s =
      if p.enrolment.contacts.isEmpty then moveOn head rest slot (sweepUnreached slot s)
      else if absentRoom s then moveOn head rest slot (sweepPending slot s)
      else sweepPause head rest slot s := by
  unfold visitSlot
  rw [hp]
  exact if_neg fun h => (not_iff_of_iff isDue_iff).1 h due

theorem visitSlot_unreached (hp : pupilAt slot s = some p) (due : SweepDue head p) (without : p.enrolment.contacts = []) :
    visitSlot head rest slot s = moveOn head rest slot (sweepUnreached slot s) := by
  rw [visitSlot_due hp due, if_pos (List.isEmpty_iff.2 without)]

theorem visitSlot_pending (hp : pupilAt slot s = some p) (due : SweepDue head p) (contacts : p.enrolment.contacts ≠ [])
    (room : AbsentRoom s) : visitSlot head rest slot s = moveOn head rest slot (sweepPending slot s) := by
  rw [visitSlot_due hp due, if_neg fun h => contacts (List.isEmpty_iff.1 h), if_pos (absentRoom_iff.2 room)]

theorem visitSlot_pauses (hp : pupilAt slot s = some p) (due : SweepDue head p) (contacts : p.enrolment.contacts ≠ [])
    (noRoom : ¬AbsentRoom s) : visitSlot head rest slot s = sweepPause head rest slot s := by
  rw [visitSlot_due hp due, if_neg fun h => contacts (List.isEmpty_iff.1 h), if_neg fun h => noRoom (absentRoom_iff.1 h)]

/-- A sweep that pauses, with SWEEP raised at its first pause (R144). -/
theorem sweepPause_eq (running : s.sweep = ⟨head :: rest, some slot, .running⟩) :
    sweepPause head rest slot s =
      { s with
        sweep := ⟨{ head with pauseRecord := true } :: rest, some slot, .paused⟩
        attention := if head.pauseRecord then s.attention else (raise .sweep (some (.slot slot)) s).attention } := by
  unfold sweepPause setSweep
  rw [running]
  dsimp only
  split <;> rfl

/-- The cursor moved on, or, past the last slot, the sweep completed and the next of the list begun (R142, R146). -/
theorem moveOn_eq {v : State} (day : v.day = s.day) (sweep : v.sweep = s.sweep) :
    moveOn head rest slot v =
      if slot < 2047 then { v with sweep := { s.sweep with cursor := some (slot + 1) } }
      else
        raise .sweep none
          { v with
            day := { s.day with cohorts := s.day.cohorts.modify head.cohort fun c => { c with phase := .cutDone } }
            sweep := if rest = [] then ⟨[], none, .idle⟩ else ⟨rest, some 0, .running⟩ } := by
  unfold moveOn completeSweep setSweep
  rw [day, sweep]
  by_cases last : slot < 2047
  · have walks : ¬slotCount ≤ slot + 1 := Nat.not_le.2 (Nat.succ_lt_succ last)
    rw [if_pos last, if_neg walks]
  · have ends : slotCount ≤ slot + 1 := Nat.succ_le_succ (Nat.not_lt.1 last)
    rw [if_neg last, if_pos ends]
    simp only [List.isEmpty_iff]

/-! ### The slot that is due -/

/-- The mark the sweep gives (R143, R144). -/
def sweptAs (m : Mark) (d : DayPart) : DayPart := { d with mark := m, source := some .sweep }

/-- What stands of a visited slot where the sweep moves on: the state `v` before the cursor moves. -/
structure SlotSwept (head : Sweep) (slot : Slot) (s v : State) : Prop where
  day : v.day = s.day
  sweep : v.sweep = s.sweep
  away : v.roll.away = s.roll.away
  others : OthersKept slot s v
  passed : (∀ p, pupilAt slot s = some p → ¬SweepDue head p) → v = s
  unreached : ∀ p, pupilAt slot s = some p → SweepDue head p → p.enrolment.contacts = [] →
    v = { s with roll := v.roll, attention := (raise .unreached (some (.slot slot)) s).attention } ∧
      pupilAt slot v = some { p with day := sweptAs .absentUnreached p.day } ∧
      CensusMoved (some (p.enrolment.cohort, .unseen)) (some (p.enrolment.cohort, .absentUnreached)) s v
  pending : ∀ p, pupilAt slot s = some p → SweepDue head p → p.enrolment.contacts ≠ [] →
    v =
        { s with
          roll := v.roll
          notices :=
            { s.notices with
              counter := nextNoticeNumber s
              queue :=
                s.notices.queue ++
                  [⟨nextNoticeNumber s, .absent, .pupil slot 0, (classTableOf (tableInForce s) s).absent, s.time.date,
                    s.time.school, none, none, false, false⟩] } } ∧
      pupilAt slot v = some { p with day := sweptAs .absentPending p.day } ∧
      CensusMoved (some (p.enrolment.cohort, .unseen)) (some (p.enrolment.cohort, .absentPending)) s v

theorem slotSwept_notDue (h : ∀ p, pupilAt slot s = some p → ¬SweepDue head p) : SlotSwept head slot s s where
  day := rfl
  sweep := rfl
  away := rfl
  others _ _ := rfl
  passed _ := rfl
  unreached p hp due := absurd due (h p hp)
  pending p hp due := absurd due (h p hp)

/-- A claim of the sweep, on a pupil of UNSEEN, changes the roll alone. -/
theorem claim_swept (hp : pupilAt slot s = some p) (unseen : p.day.mark = .unseen) (m : Mark) :
    claim slot (sweptAs m) s = { s with roll := (claim slot (sweptAs m) s).roll } := by
  rw [claim_stays hp fun h => nomatch unseen.symm.trans h.1]

theorem claim_swept_sweep (hp : pupilAt slot s = some p) (unseen : p.day.mark = .unseen) (m : Mark) :
    (claim slot (sweptAs m) s).sweep = s.sweep := by
  rw [claim_swept hp unseen m]

theorem claim_swept_moved (hs : RollOk s) (hp : pupilAt slot s = some p) (unseen : p.day.mark = .unseen) (m : Mark) :
    CensusMoved (some (p.enrolment.cohort, .unseen)) (some (p.enrolment.cohort, m)) s (claim slot (sweptAs m) s) := by
  have moved := claim_moved (f := sweptAs m) hs hp
  rw [unseen] at moved
  exact moved

theorem sweepUnreached_eq (slot : Slot) (s : State) :
    sweepUnreached slot s = raise .unreached (some (.slot slot)) (claim slot (sweptAs .absentUnreached) s) := rfl

/-- The state in which the notice of an absence has joined the queue (R144). -/
def absenceNoticed (slot : Slot) (s : State) : State :=
  addNotice .absent (.pupil slot 0) (classTableOf (tableInForce s) s).absent none none s

theorem sweepPending_eq (slot : Slot) (s : State) :
    sweepPending slot s = claim slot (sweptAs .absentPending) (absenceNoticed slot s) := rfl

theorem slotSwept_unreached (hs : RollOk s) (hp : pupilAt slot s = some p) (due : SweepDue head p)
    (without : p.enrolment.contacts = []) : SlotSwept head slot s (sweepUnreached slot s) := by
  have ⟨_, unseen, _⟩ := due
  rw [sweepUnreached_eq]
  refine
    { day := claim_day slot _ s
      sweep := claim_swept_sweep hp unseen _
      away := claim_away slot _ s
      others := claim_others slot _ s
      passed := fun h => absurd due (h p hp)
      unreached := fun q hq _ _ => ?_
      pending := fun q hq _ contacts => ?_ }
  · obtain rfl := Option.some.inj (hp.symm.trans hq)
    refine ⟨?_, pupilAt_claim_self hp, claim_swept_moved hs hp unseen .absentUnreached⟩
    rw [claim_swept hp unseen]
    rfl
  · obtain rfl := Option.some.inj (hp.symm.trans hq)
    exact absurd without contacts

theorem slotSwept_pending (hs : RollOk s) (hp : pupilAt slot s = some p) (due : SweepDue head p)
    (contacts : p.enrolment.contacts ≠ []) : SlotSwept head slot s (sweepPending slot s) := by
  have ⟨_, unseen, _⟩ := due
  have roll : RollOk (absenceNoticed slot s) := hs.congr rfl rfl
  have present : pupilAt slot (absenceNoticed slot s) = some p := hp
  rw [sweepPending_eq]
  refine
    { day := claim_day slot _ (absenceNoticed slot s)
      sweep := claim_swept_sweep present unseen _
      away := claim_away slot _ (absenceNoticed slot s)
      others := claim_others slot _ (absenceNoticed slot s)
      passed := fun h => absurd due (h p hp)
      unreached := fun q hq _ without => ?_
      pending := fun q hq _ _ => ?_ }
  · obtain rfl := Option.some.inj (hp.symm.trans hq)
    exact absurd without contacts
  · obtain rfl := Option.some.inj (hp.symm.trans hq)
    refine ⟨?_, pupilAt_claim_self present, claim_swept_moved roll present unseen .absentPending⟩
    rw [claim_swept present unseen]
    rfl

/-- A visit moves on from a slot that is not due, or that needs no room, or finds it (R142–R144). -/
theorem visitSlot_movesOn (hs : RollOk s)
    (free : ∀ p, pupilAt slot s = some p → SweepDue head p → p.enrolment.contacts = [] ∨ AbsentRoom s) :
    ∃ v, visitSlot head rest slot s = moveOn head rest slot v ∧ SlotSwept head slot s v := by
  by_cases h : ∃ p, pupilAt slot s = some p ∧ SweepDue head p
  · obtain ⟨p, hp, due⟩ := h
    by_cases without : p.enrolment.contacts = []
    · exact ⟨_, visitSlot_unreached hp due without, slotSwept_unreached hs hp due without⟩
    · have room := (free p hp due).resolve_left without
      exact ⟨_, visitSlot_pending hp due without room, slotSwept_pending hs hp due without⟩
  · have notDue : ∀ p, pupilAt slot s = some p → ¬SweepDue head p := fun p hp due => h ⟨p, hp, due⟩
    exact ⟨s, visitSlot_notDue notDue, slotSwept_notDue notDue⟩

theorem moveOn_away {v : State} (swept : SlotSwept head slot s v) : (moveOn head rest slot v).roll.away = s.roll.away := by
  rw [moveOn_roll]
  exact swept.away

theorem moveOn_others {v : State} (swept : SlotSwept head slot s v) : OthersKept slot s (moveOn head rest slot v) :=
  fun k hk => (pupilAt_congr (by rw [moveOn_roll]) k).trans (swept.others k hk)

/-- Settles O39: the sweep moves on from the slot, or pauses at it for want of room. -/
theorem sweepVisitActsOnTheSlot : Obligations.SweepVisitActsOnTheSlot := by
  unfold Obligations.SweepVisitActsOnTheSlot
  intro head rest slot s held hs running _
  refine ⟨visitSlot head rest slot s, exec_sweepVisit held running, ?_⟩
  by_cases free : ∀ p, pupilAt slot s = some p → SweepDue head p → p.enrolment.contacts = [] ∨ AbsentRoom s
  · obtain ⟨v, visit, swept⟩ := visitSlot_movesOn (rest := rest) hs free
    rw [visit]
    refine ⟨moveOn_others swept, moveOn_away swept, fun p hp due contacts noRoom => ?_, fun _ => ⟨v, ?_, swept.passed, ?_⟩⟩
    · exact absurd (free p hp due) (not_or.2 ⟨contacts, noRoom⟩)
    · exact moveOn_eq swept.day swept.sweep
    · exact fun p hp due => ⟨swept.unreached p hp due, swept.pending p hp due⟩
  · obtain ⟨p, hp, due, contacts, noRoom⟩ :
        ∃ p, pupilAt slot s = some p ∧ SweepDue head p ∧ p.enrolment.contacts ≠ [] ∧ ¬AbsentRoom s := by
      simpa only [not_forall, not_or, exists_prop] using free
    have pause := (visitSlot_pauses (rest := rest) hp due contacts noRoom).trans (sweepPause_eq running)
    rw [pause]
    exact ⟨fun _ _ => rfl, rfl, fun _ _ _ _ _ => rfl, fun room => absurd room free⟩

end Sys2Proof.Machine
end

