-- ==== Sys2Proof/Proofs/NoticeRequests.lean ====
section
/-! PROOF. CLASS (R156), HOLD (R157), QUIET (R158) and TEXT (R172): their checks, what they read and what they write. -/

namespace Sys2Proof.Machine

/-! ### The values of the checks -/

theorem isTextChar_iff (c : Byte) : isTextChar c = true ↔ 0x20 ≤ c.toNat ∧ c.toNat ≤ 0x7E ∧ c.toNat ≠ 0x22 := by
  unfold isTextChar between
  rw [Bool.and_eq_true, Bool.and_eq_true, decide_eq_true_eq, decide_eq_true_eq, bne_iff_ne, and_assoc]
  refine and_congr_right fun _ => and_congr_right fun _ => not_congr ?_
  rw [← BitVec.toNat_inj]
  rfl

/-- A text that no slot may hold (R172). -/
theorem not_textOk_iff {t : Text} : (!textOk t) = true ↔ t = [] ∨ 160 < t.length ∨ ∃ c ∈ t, isTextChar c = false := by
  have ok : textOk t = true ↔ t ≠ [] ∧ t.length ≤ 160 ∧ ∀ c ∈ t, isTextChar c = true := by
    unfold textOk
    rw [Bool.and_eq_true, Bool.and_eq_true, decide_eq_true_eq, decide_eq_true_eq, List.all_eq_true, and_assoc,
      Nat.one_le_iff_ne_zero, ne_eq, List.length_eq_zero_iff]
  rw [not_iff_of_iff ok, Classical.not_and_iff_not_or_not, not_not, Classical.not_and_iff_not_or_not, Nat.not_le]
  simp only [not_forall, Bool.not_eq_true, exists_prop]

theorem textNamed_iff {slot : Nat} {s : State} : textNamed slot s = true ↔ ∃ n ∈ s.notices.queue, n.textSlot = some slot := by
  simp only [textNamed, List.any_eq_true, decide_eq_true_eq]

/-! ### Refusals -/

theorem classTable_answers (table : Option Select) (write : Option (Nat × Nat × Nat)) (s : State) :
    Answers (checksOf (.classTable table write) s) s (classTable table write s) := by
  match table, write with
  | none, none => exact .refused rfl
  | some t, none => exact .passes nofun (.ok _ _)
  | none, some (a, l, r) => exact .ite Iff.rfl fun _ => .refused (.inl rfl)
  | some t, some (a, l, r) =>
    refine .ite Iff.rfl fun _ => .ite ?_ fun _ => .ok _ _
    simp only [Bool.or_eq_true, decide_eq_true_eq, reduceCtorEq, false_or, or_assoc]

theorem hold_answers (value : Option (Option Bool)) (s : State) : Answers (checksOf (.hold value) s) s (hold value s) := by
  match value with
  | none => exact .passes nofun (.ok _ _)
  | some none => exact .refused rfl
  | some (some b) => exact .passes nofun (.ok _ _)

theorem quiet_answers (minutes : Nat) (s : State) : Answers (checksOf (.quiet minutes) s) s (quiet minutes s) :=
  .ite (and_congr_right fun _ => Bool.not_eq_true _ ▸ Iff.rfl) fun _ => .ite Iff.rfl fun _ => .ok _ _

theorem text_answers (slot : Nat) (action : TextAction) (s : State) :
    Answers (checksOf (.text slot action) s) s (text slot action s) := by
  match action with
  | .read =>
    refine .ite Iff.rfl fun _ => ?_
    cases s.notices.texts.getD slot [] with
    | nil => exact .ok _ _
    | cons c t => exact .ok _ _
  | .write t =>
    have bad : (decide (16 ≤ slot) || !textOk t) = true ↔ 16 ≤ slot ∨ t = [] ∨ 160 < t.length ∨ ∃ c ∈ t, isTextChar c = false := by
      rw [Bool.or_eq_true, decide_eq_true_eq, not_textOk_iff]
    exact .ite Iff.rfl fun _ => .ite bad fun _ => .ok _ _
  | .empty => exact .ite Iff.rfl fun _ => .ite Iff.rfl fun _ => .ite textNamed_iff fun _ => .ok _ _

/-! ### CLASS -/

theorem tableInForce_eq (s : State) :
    tableInForce s = match s.plan.today.header with
      | none => .normal
      | some (_, select) => select := by
  unfold tableInForce
  cases s.plan.today.header <;> rfl

/-- What CLASS's write form writes: the table named, and no other part of SETTINGS (R156). -/
theorem setClassTable_spec (t : Select) (c : ClassTable) (s : State) :
    classTableOf t (setClassTable t c s) = c ∧ (∀ k, k ≠ t → classTableOf k (setClassTable t c s) = classTableOf k s) ∧
      tableInForce (setClassTable t c s) = tableInForce s ∧
      setClassTable t c s =
        { s with
          settings :=
            { s.settings with
              classNormal := (setClassTable t c s).settings.classNormal
              classAlternate := (setClassTable t c s).settings.classAlternate } } := by
  cases t with
  | normal => exact ⟨rfl, fun k hk => by cases k <;> trivial, rfl, rfl⟩
  | alternate => exact ⟨rfl, fun k hk => by cases k <;> trivial, rfl, rfl⟩

theorem classTable_written {t : Select} {a l r : Nat} {s : State} (free : storeHolds .settings s = false) (ha : a ≤ 15)
    (hl : l ≤ 15) (hr : r ≤ 15) :
    classTable (some t) (some (a, l, r)) s =
      (setClassTable t ⟨a, l, r⟩ s,
        .ok [.word (selectWord t), .num a, .num l, .num r, .word (selectWord (tableInForce s))]) := by
  have good : ¬(decide (15 < a) || decide (15 < l) || decide (15 < r)) = true := by
    simp only [Bool.or_eq_true, decide_eq_true_eq]
    omega
  obtain ⟨written, _, inForce, _⟩ := setClassTable_spec t ⟨a, l, r⟩ s
  unfold classTable
  dsimp only
  rw [if_neg (by rw [free]; nofun), if_neg good, classItems, written, inForce]

/-! ### HOLD and QUIET -/

/-- The Dispatcher's work leaves the holds (R157, R158). -/
theorem holdItems_settle (s : State) : holdItems (settle s) = holdItems s := by
  have rest := settle_noticeRest s
  simp only [noticeRest, Prod.mk.injEq] at rest
  obtain ⟨_, ⟨_, globalHold, quietEnd, _⟩, _⟩ := rest
  rw [holdItems, holdItems, globalHold, quietEnd]

theorem hold_written (b : Bool) (s : State) :
    hold (some (some b)) s =
      (settle { s with notices := { s.notices with globalHold := b } }, .ok (onOff b :: optItem "QUIET" .time s.notices.quietEnd)) := by
  unfold hold
  dsimp only
  rw [holdItems_settle]
  rfl

theorem timeOrNone_eq (e : Option SchoolTime) : timeOrNone e = (e.map Item.time).getD (.word "NONE") := by
  cases e <;> rfl

theorem quiet_taken {minutes : Nat} {s : State} (h : minutes ≤ 240) (hv : minutes = 0 ∨ s.time.valid = true) :
    let e := if minutes = 0 then none else some (min (s.time.school + 60 * minutes) 86399)
    quiet minutes s =
      (settle { s with notices := { s.notices with quietEnd := e } }, .ok [(e.map Item.time).getD (.word "NONE")]) := by
  intro e
  have clock : ¬(0 < minutes ∧ ¬s.time.valid = true) := fun x =>
    hv.elim (fun z => Nat.ne_of_gt x.1 z) fun v => x.2 v
  unfold quiet
  rw [if_neg clock, if_neg (Nat.not_lt.2 h), ← timeOrNone_eq]
  rfl

/-! ### TEXT -/

theorem text_read {slot : Nat} {t : Text} {s : State} (h : slot < 16) (ht : s.notices.texts[slot]? = some t) :
    text slot .read s = okWith [if t = [] then .word "EMPTY" else .quoted t] s := by
  have held : s.notices.texts.getD slot [] = t := by rw [List.getD_eq_getElem?_getD, ht, Option.getD_some]
  unfold text
  dsimp only
  rw [if_neg (Nat.not_le.2 h), held]
  cases t <;> rfl

theorem text_written {slot : Nat} {t : Text} {s : State} (h : slot < 16) (free : storeHolds .texts s = false) (some_ : 1 ≤ t.length)
    (short : t.length ≤ 160) (chars : ∀ c ∈ t, isTextChar c = true) : text slot (.write t) s = (setText_ slot t s, .ok []) := by
  have good : ¬(decide (16 ≤ slot) || !textOk t) = true := by
    rw [Bool.or_eq_true, decide_eq_true_eq, not_textOk_iff]
    rintro (high | rfl | long | ⟨c, hc, other⟩)
    · exact Nat.not_le.2 h high
    · nomatch some_
    · exact Nat.not_lt.2 short long
    · nomatch (chars c hc).symm.trans other
  unfold text
  dsimp only
  rw [if_neg (by rw [free]; nofun), if_neg good]

theorem text_emptied {slot : Nat} {s : State} (h : slot < 16) (free : storeHolds .texts s = false) :
    text slot .empty s = if ∃ n ∈ s.notices.queue, n.textSlot = some slot then refuse .wrongState s else (setText_ slot [] s, .ok []) := by
  unfold text
  dsimp only
  rw [if_neg (by rw [free]; nofun), if_neg (Nat.not_le.2 h)]
  simp only [textNamed_iff]

/-- Settles O42: the characters of a text, the checks, then each request by its forms. -/
theorem holdsClassesAndTextsAreWritten : Obligations.HoldsClassesAndTextsAreWritten := by
  unfold Obligations.HoldsClassesAndTextsAreWritten
  refine ⟨isTextChar_iff, fun s => ⟨tableInForce_eq s, rfl, rfl⟩, fun s held => ⟨?_, ?_, ?_, ?_⟩,
    fun s held => ⟨fun t => exec_taken rfl held rfl, fun t a l r free ha hl hr => ?_, exec_taken rfl held rfl,
      fun b => exec_taken rfl held (hold_written b s), fun minutes h hv => exec_taken rfl held (quiet_taken h hv)⟩,
    fun slot s held h _ => ⟨fun t ht => exec_taken rfl held (text_read h ht),
      fun t free some_ short chars => exec_taken rfl held (text_written h free some_ short chars), fun free => ?_⟩⟩
  · exact fun table write => refusedByItsChecks_of rfl held (classTable_answers table write s)
  · exact fun value => refusedByItsChecks_of rfl held (hold_answers value s)
  · exact fun minutes => refusedByItsChecks_of rfl held (quiet_answers minutes s)
  · exact fun slot action => refusedByItsChecks_of rfl held (text_answers slot action s)
  · obtain ⟨written, others, _, state⟩ := setClassTable_spec t ⟨a, l, r⟩ s
    exact ⟨_, exec_taken rfl held (classTable_written free ha hl hr), written, others, state⟩
  · rw [exec_of_request rfl, request_next held, text_emptied h free]
    split <;> rfl

end Sys2Proof.Machine
end

