-- ==== Sys2Proof/Proofs/NoticesPosted.lean ====
section
/-! PROOF. POST (R173) and BROADCAST (R174): their checks, and the notice each adds with its number (R154). -/

namespace Sys2Proof.Machine

/-! ### The values of the checks -/

theorem postAllowed_iff {cls textSlot : Nat} {deadline : Option SchoolTime} :
    PostAllowed cls textSlot deadline ↔ generalClassOk cls = true ∧ ¬16 ≤ textSlot ∧ optOk timeOk deadline = true := by
  unfold PostAllowed generalClassOk
  rw [Bool.and_eq_true, decide_eq_true_eq, decide_eq_true_eq, optOk_iff, Nat.not_le, and_assoc]
  simp only [timeOk_iff]

theorem not_postAllowed_iff {cls textSlot : Nat} {deadline : Option SchoolTime} :
    ¬PostAllowed cls textSlot deadline ↔
      (!generalClassOk cls) = true ∨ decide (16 ≤ textSlot) = true ∨ (!optOk timeOk deadline) = true := by
  rw [postAllowed_iff, Bool.not_eq_true', Bool.not_eq_true', decide_eq_true_eq, Classical.not_and_iff_not_or_not,
    Classical.not_and_iff_not_or_not, Bool.not_eq_true, Bool.not_eq_true, not_not]

theorem badPost_iff {a : PostArgs} :
    (!slotOk a.slot || !generalClassOk a.cls || decide (16 ≤ a.textSlot) || decide (2 < a.position) || !optOk timeOk a.deadline)
        = true ↔
      2048 ≤ a.slot ∨ 2 < a.position ∨ ¬PostAllowed a.cls a.textSlot a.deadline := by
  rw [Bool.or_eq_true, Bool.or_eq_true, Bool.or_eq_true, Bool.or_eq_true, not_slotOk_iff, not_postAllowed_iff]
  simp only [decide_eq_true_eq]
  tauto

theorem badBroadcast_iff {a : BroadcastArgs} {reach : Reach} (h : a.reach = some reach) :
    (!maskOk 0 7 a.cohorts || !generalClassOk a.cls || decide (16 ≤ a.textSlot) || !optOk timeOk a.deadline) = true ↔
      a.cohorts = [] ∨ (∃ c ∈ a.cohorts, 7 < c) ∨ a.reach = none ∨ ¬PostAllowed a.cls a.textSlot a.deadline := by
  have mask : (!maskOk 0 7 a.cohorts) = true ↔ a.cohorts = [] ∨ ∃ c ∈ a.cohorts, 7 < c := by
    rw [not_iff_of_iff maskOk_iff, Classical.not_and_iff_not_or_not, not_not]
    simp only [Nat.zero_le, true_and, not_forall, Nat.not_le, exists_prop]
  rw [Bool.or_eq_true, Bool.or_eq_true, Bool.or_eq_true, mask, not_postAllowed_iff, h]
  simp only [reduceCtorEq, false_or, or_assoc]

theorem contactsAt_of {k : Slot} {s : State} {p : Pupil} (hp : pupilAt k s = some p) : contactsAt k s = p.enrolment.contacts := by
  unfold contactsAt
  rw [hp]
  rfl

theorem textEmpty_iff {k : Nat} {s : State} : textEmpty k s = true ↔ s.notices.texts.getD k [] = [] := List.isEmpty_iff

/-- The contact named is not there, or the text slot is empty. -/
theorem postNames_iff {a : PostArgs} {s : State} (hp : pupilAt a.slot s ≠ none) :
    (decide ((contactsAt a.slot s).length ≤ a.position) || textEmpty a.textSlot s) = true ↔
      (∀ p, pupilAt a.slot s = some p → p.enrolment.contacts.length ≤ a.position) ∨ s.notices.texts.getD a.textSlot [] = [] := by
  obtain ⟨p, hp⟩ := Option.ne_none_iff_exists'.1 hp
  rw [Bool.or_eq_true, decide_eq_true_eq, contactsAt_of hp, hp, textEmpty_iff]
  simp only [Option.some.injEq, forall_eq']

/-! ### Refusals -/

/-- The checks of a deadline, which both requests make behind that of their values. -/
theorem deadline_answers {l : Checks} {deadline : Option SchoolTime} {s : State} {r : State × Reply} (h : Answers l s r) :
    Answers (deadlineChecks deadline s ++ l) s
      (if deadline.isSome && !s.time.valid then refuse .clockInvalid s
      else if deadline.any (· ≤ s.time.school) then refuse .badValue s else r) := by
  refine .ite ?_ fun _ => .ite ?_ fun _ => h
  · rw [Bool.and_eq_true, Bool.not_eq_true', Option.isSome_iff_ne_none]
  · simp only [Option.any_eq_true, decide_eq_true_eq]

theorem post_answers (a : PostArgs) (s : State) : Answers (checksOf (.post a) s) s (post a s) :=
  .ite badPost_iff fun _ => deadline_answers (.ite isNone_pupilAt_iff fun present => .ite (postNames_iff present) fun _ =>
    .ite (queueFull_iff.trans Nat.not_lt) fun _ => .ok _ _)

theorem broadcast_answers (a : BroadcastArgs) (s : State) : Answers (checksOf (.broadcast a) s) s (broadcast a s) := by
  unfold broadcast
  cases h : a.reach with
  | none => exact .refused (.inr (.inr (.inl h)))
  | some reach =>
    exact .ite (badBroadcast_iff h) fun _ => deadline_answers (.ite textEmpty_iff fun _ =>
      .ite (queueFull_iff.trans Nat.not_lt) fun _ => .ok _ _)

/-! ### The notice added -/

/-- A strictly rising mask is read as it is given. -/
theorem setWithin_rising {mask : List Nat} (rising : mask.Pairwise (· < ·)) (range : ∀ c ∈ mask, c ≤ 7) : setWithin 0 7 mask = mask := by
  have sorted : (setWithin 0 7 mask).Pairwise (· < ·) := (List.pairwise_lt_range' (s := 0) (n := 8) 1).filter _
  refine sorted.eq_of_mem_iff rising fun c => ?_
  rw [setWithin_eq, List.mem_filter, List.mem_range'_1, decide_eq_true_eq]
  exact and_iff_right_of_imp fun hc => ⟨Nat.zero_le _, Nat.lt_succ_of_le (range c hc)⟩

variable {s : State} {cls textSlot : Nat} {deadline : Option SchoolTime}

/-- A deadline of today that is still to come passes the checks of R173 and R174. -/
theorem deadlineChecks_pass (h : ∀ d, deadline = some d → d < 86400 ∧ s.time.valid = true ∧ s.time.school < d) (t u v : State × Reply) :
    (if deadline.isSome && !s.time.valid then t else if deadline.any (· ≤ s.time.school) then u else v) = v := by
  cases deadline with
  | none => rfl
  | some d =>
    obtain ⟨_, valid, future⟩ := h d rfl
    rw [if_neg (by rw [valid]; nofun), if_neg (by simpa using future)]

/-- POST where none of its checks holds. -/
theorem post_taken {slot position : Nat} {p : Pupil} (allowed : PostAllowed cls textSlot deadline)
    (h : ∀ d, deadline = some d → d < 86400 ∧ s.time.valid = true ∧ s.time.school < d) (text : s.notices.texts.getD textSlot [] ≠ [])
    (room : s.notices.queue.length < 128) (hk : slot < 2048) (hp : pupilAt slot s = some p)
    (contact : position < p.enrolment.contacts.length) (hi : position ≤ 2) :
    post ⟨slot, cls, textSlot, position, deadline⟩ s =
      (settle (addNotice .general (.pupil slot position) cls deadline (some textSlot) s), .ok [.num (nextNoticeNumber s)]) := by
  have values : ¬(2048 ≤ slot ∨ 2 < position ∨ ¬PostAllowed cls textSlot deadline) := by
    rintro (y | y | y)
    · exact Nat.not_lt.2 y hk
    · exact Nat.not_lt.2 hi y
    · exact y allowed
  have names : ¬((∀ q, pupilAt slot s = some q → q.enrolment.contacts.length ≤ position) ∨ s.notices.texts.getD textSlot [] = []) := by
    rintro (y | y)
    · exact Nat.not_lt.2 (y p hp) contact
    · exact text y
  unfold post
  dsimp only
  rw [if_neg fun y => values ((badPost_iff (a := ⟨slot, cls, textSlot, position, deadline⟩)).1 y), deadlineChecks_pass h,
    if_neg (by rw [hp]; nofun),
    if_neg fun y => names ((postNames_iff (a := ⟨slot, cls, textSlot, position, deadline⟩) (by rw [hp]; nofun)).1 y),
    if_neg fun y => queueFull_iff.1 y room]
  rfl

/-- BROADCAST where none of its checks holds. -/
theorem broadcast_taken {mask : List Nat} {reach : Reach} (allowed : PostAllowed cls textSlot deadline)
    (h : ∀ d, deadline = some d → d < 86400 ∧ s.time.valid = true ∧ s.time.school < d) (text : s.notices.texts.getD textSlot [] ≠ [])
    (room : s.notices.queue.length < 128) (some_ : mask ≠ []) (rising : mask.Pairwise (· < ·)) (range : ∀ c ∈ mask, c ≤ 7) :
    broadcast ⟨mask, some reach, cls, textSlot, deadline⟩ s =
      (settle (addNotice .general (newBroadcast mask reach) cls deadline (some textSlot) s), .ok [.num (nextNoticeNumber s)]) := by
  have values : ¬(mask = [] ∨ (∃ c ∈ mask, 7 < c) ∨ some reach = none ∨ ¬PostAllowed cls textSlot deadline) := by
    rintro (y | ⟨c, hc, y⟩ | y | y)
    · exact some_ y
    · exact Nat.not_lt.2 (range c hc) y
    · nomatch y
    · exact y allowed
  unfold broadcast
  dsimp only
  rw [if_neg fun y => values ((badBroadcast_iff (a := ⟨mask, some reach, cls, textSlot, deadline⟩) rfl).1 y), deadlineChecks_pass h,
    if_neg fun y => text (textEmpty_iff.1 y), if_neg fun y => queueFull_iff.1 y room, setWithin_rising rising range]
  rfl

theorem nextNoticeNumber_issued (counter : s.notices.counter ≤ 65535) (few : s.notices.queue.length < 65535) :
    NumberIssued s.notices.counter (s.notices.queue.map (·.number)) (nextNoticeNumber s) := by
  have issued := numberIssued_nextFree (used := s.notices.queue.map (·.number)) counter (by rwa [List.length_map])
  rwa [List.length_map] at issued

/-- Settles O43: the checks of both requests, then the notice at the tail of the queue. -/
theorem postAndBroadcastAddANotice : Obligations.PostAndBroadcastAddANotice := by
  unfold Obligations.PostAndBroadcastAddANotice
  refine ⟨fun s held => ⟨fun a => refusedByItsChecks_of rfl held (post_answers a s),
    fun a => refusedByItsChecks_of rfl held (broadcast_answers a s)⟩,
    fun s cls textSlot deadline held low high inTexts text ahead room => ⟨?_, ?_, fun counter => ?_⟩⟩
  · have allowed : PostAllowed cls textSlot deadline := ⟨low, high, inTexts, fun d hd => (ahead d hd).1⟩
    exact fun slot position p hk hp contact hi => exec_taken rfl held (post_taken allowed ahead text room hk hp contact hi)
  · have allowed : PostAllowed cls textSlot deadline := ⟨low, high, inTexts, fun d hd => (ahead d hd).1⟩
    exact fun mask reach some_ rising range =>
      exec_taken rfl held (broadcast_taken allowed ahead text room some_ rising range)
  · exact nextNoticeNumber_issued counter (Nat.lt_trans room (by decide))

end Sys2Proof.Machine
end

