-- ==== Sys2Proof/Proofs/LinkState.lean ====
section
/-! PROOF. The link: the take timeouts that bring it DOWN, its pings, and the PONG that brings it UP (R162, R180, R181). -/

namespace Sys2Proof.Machine

variable {s : State}

/-! ### The take timeout -/

/-- A timeout reported while the link is DOWN is not counted (R180). -/
theorem countTimeout_down (down : s.gateway.link = .down) : countTimeout s = s := if_pos down

/-- The first and the second timeout in a row are counted (R180). -/
theorem countTimeout_counted (up : s.gateway.link ≠ .down) (few : s.gateway.timeouts < 2) :
    countTimeout s = { s with gateway := { s.gateway with timeouts := s.gateway.timeouts + 1 } } := by
  have count : min (s.gateway.timeouts + 1) 3 = s.gateway.timeouts + 1 := by omega
  unfold countTimeout setGateway
  rw [if_neg up]
  dsimp only
  rw [count]
  exact if_pos (by omega)

/-- The third timeout in a row brings the link DOWN, with a PING and attention GATEWAY (R180). -/
theorem countTimeout_falls (up : s.gateway.link ≠ .down) (third : ¬s.gateway.timeouts < 2) :
    countTimeout s =
      { s with
        gateway :=
          { s.gateway with
            link := .down, timeouts := 3, pingNumber := (s.gateway.pingNumber + 1) % 256,
            nextPing := some (s.time.running + 3000), outbound := s.gateway.outbound ++ [.ping ((s.gateway.pingNumber + 1) % 256)] }
        attention := (raise .gateway none s).attention } := by
  have count : min (s.gateway.timeouts + 1) 3 = 3 := by omega
  unfold countTimeout setGateway
  rw [if_neg up]
  dsimp only
  rw [count]
  rfl

/-- A send of AWAIT_TAKE meets the take timeout where it falls in the present second (R162). -/
theorem takeTimedOut_due {key : SendKey} {x : Send} (h : sendAt key s = some x) (hx : x.state = .awaitTake)
    (due : x.sentAt + 200 < nextSecond s) :
    takeTimedOut key s = settle (countTimeout (returnSend key (dropSend key (reach (x.sentAt + 200) s)))) := by
  unfold takeTimedOut
  rw [h]
  exact if_pos ⟨hx, decide_eq_true due⟩

/-! ### Pings -/

theorem pingDue_due {t : RunTime} (down : s.gateway.link = .down) (next : s.gateway.nextPing = some t) (due : t < nextSecond s) :
    pingDue s = sendPing (t + 3000) (reach t s) := by
  unfold pingDue
  rw [down, next]
  exact if_pos (decide_eq_true due)

theorem pingDue_up (up : s.gateway.link = .up) : pingDue s = s := by
  unfold pingDue
  rw [up]

/-! ### PONG -/

theorem exec_pong {number : Nat} {t : State} {word : AnswerWord} (held : s.power.held = false) (may : MayAnswer s)
    (range : number < 256) (h : takePong number (frameTaken s) = (t, word)) :
    exec (.pong number) s = .next (answeredBy (.pong number) word t) := by
  have effect : recordEffect (.pong number) (frameTaken s) = (t, .answer (.pong number) word) := by
    unfold recordEffect
    dsimp only
    rw [h]
  rw [← takeRecord_taken (r := .pong number) may (decide_eq_true range) effect]
  exact event_next held _

/-- Settles O49: the timeout by the link and the count, the ping by the link, and the PONG by its number. -/
theorem theLinkFallsAndReturns : Obligations.TheLinkFallsAndReturns := by
  unfold Obligations.TheLinkFallsAndReturns
  intro s held ping
  refine ⟨fun key x h hx due => ?_, fun t down next due => ?_, fun up => ?_, fun number range may => ?_⟩
  · have returned := returnSend_returned key (reach (x.sentAt + 200) s)
    refine ⟨_, returned, (event_next held (takeTimedOut key)).trans ?_⟩
    rw [takeTimedOut_due h hx due]
    obtain ⟨state, _⟩ := returned
    generalize returnSend key (dropSend key (reach (x.sentAt + 200) s)) = v at state ⊢
    have gateway : v.gateway = s.gateway := by rw [state]; rfl
    have attention : v.attention = s.attention := by rw [state]; rfl
    have running : v.time.running = max s.time.running (x.sentAt + 200) := by rw [state]; rfl
    refine congrArg (Host.Outcome.next ∘ settle) ?_
    split
    · rename_i down
      exact countTimeout_down (gateway ▸ down)
    · rename_i up
      split
      · rename_i few
        rw [countTimeout_counted (gateway ▸ up) (gateway ▸ few), gateway]
      · rename_i third
        rw [countTimeout_falls (gateway ▸ up) (gateway ▸ third), gateway, running, raise_attention, attention]
        rfl
  · exact (event_next held pingDue).trans (congrArg _ (pingDue_due down next due))
  · exact (event_next held pingDue).trans (congrArg _ (pingDue_up up))
  · split
    · rename_i answered
      exact exec_pong held may range (if_pos answered)
    · rename_i other
      exact exec_pong held may range (if_neg other)

end Sys2Proof.Machine
end

