-- ==== Sys2Proof/Proofs/Deadlines.lean ====
section
/-! PROOF. The deadlines of notices (R166, R167), the end of the busy pause (R159) and of the quiet window (R158). -/

namespace Sys2Proof.Machine

variable {s : State} {n : Notice}

/-! ### The test of a deadline -/

/-- An exhausted notice has left the queue (R164). -/
theorem noticeAt_exhaust (n : Notice) (k : Slot) (s : State) : noticeAt n.number (exhaust n k s) = none := by
  have gone := noticeAt_removeNotice n.number s
  by_cases absent : n.kind = .absent
  · rw [exhaust_absent absent]
    exact noticeAt_none_of_withdrawn (t := claim k unreached (removeNotice n.number s))
      (claim_withdrawn_of fun _ => unreached_mark) gone
  · rw [exhaust_other absent]
    exact gone

/-- A WAITING pupil notice whose deadline is reached is exhausted (R166, R167). -/
theorem testDeadline_pupil {k : Slot} {i : Nat} (due : deadlineReached n s = true) (ha : n.addressee = .pupil k i)
    (waiting : n.inWindow = false) : testDeadline s n = exhaust n k s := by
  unfold testDeadline
  rw [if_neg (by rw [due]; nofun), ha]
  exact if_neg (by rw [waiting]; nofun)

/-- A broadcast's deadline expires it, and drops its returned steps (R167). -/
theorem testDeadline_broadcast {b : BroadcastState} (due : deadlineReached n s = true) (ha : n.addressee = .broadcast b)
    (fresh : b.expired = false) :
    testDeadline s n = updateBroadcast n.number (fun b => { b with expired := true, returned := [] }) s := by
  unfold testDeadline
  rw [if_neg (by rw [due]; nofun), ha]
  exact if_neg (by rw [fresh]; nofun)

theorem deadlineReached_absent {d : SchoolTime} (kind : n.kind = .absent) (hd : s.notices.deadline = some d)
    (past : d ≤ s.time.school) : deadlineReached n s = true := by
  unfold deadlineReached
  rw [kind, hd]
  exact decide_eq_true past

theorem deadlineReached_general {d : SchoolTime} (kind : n.kind = .general) (hd : n.deadline = some d)
    (past : d ≤ s.time.school ∨ s.time.date ≠ n.createdDate) : deadlineReached n s = true := by
  unfold deadlineReached
  rw [kind, hd]
  simpa using past

theorem deadlineOf_notice (h : noticeAt n.number s = some n) : deadlineOf n.kind n.number s = settle (testDeadline s n) := by
  unfold deadlineOf
  rw [h]
  exact if_pos rfl

theorem exec_absentDeadlineExpiry (held : s.power.held = false) (h : noticeAt n.number s = some n) (kind : n.kind = .absent) :
    exec (.absentDeadlineExpiry n.number) s = .next (settle (testDeadline s n)) := by
  rw [← deadlineOf_notice h, kind]
  exact event_next held _

theorem exec_generalDeadline (held : s.power.held = false) (h : noticeAt n.number s = some n) (kind : n.kind = .general) :
    exec (.generalDeadline n.number) s = .next (settle (testDeadline s n)) := by
  rw [← deadlineOf_notice h, kind]
  exact event_next held _

/-! ### The ends of the pauses -/

theorem busyPauseEnds_due {t : RunTime} (h : s.notices.busyEnd = some t) (due : t < nextSecond s) :
    busyPauseEnds s = settle (setNotices (fun n => { n with busyEnd := none }) (reach t s)) := by
  unfold busyPauseEnds
  rw [h]
  exact if_pos (decide_eq_true due)

theorem busyPauseEnds_early {t : RunTime} (h : s.notices.busyEnd = some t) (early : nextSecond s ≤ t) : busyPauseEnds s = s := by
  unfold busyPauseEnds
  rw [h]
  exact if_neg fun due => Nat.not_lt.2 early (of_decide_eq_true due)

theorem quietWindowEnds_due {e : SchoolTime} (h : s.notices.quietEnd = some e) (due : e ≤ s.time.school) :
    quietWindowEnds s = settle (setNotices (fun n => { n with quietEnd := none }) s) := by
  unfold quietWindowEnds
  rw [h]
  exact if_pos (decide_eq_true due)

theorem quietWindowEnds_early {e : SchoolTime} (h : s.notices.quietEnd = some e) (early : s.time.school < e) :
    quietWindowEnds s = s := by
  unfold quietWindowEnds
  rw [h]
  exact if_neg fun due => Nat.not_le.2 early (of_decide_eq_true due)

/-- Settles O48: the notice exhausted or the broadcast expired at its deadline, and the two pauses by their times. -/
theorem deadlinesAndPausesEnd : Obligations.DeadlinesAndPausesEnd := by
  unfold Obligations.DeadlinesAndPausesEnd
  intro s held
  refine ⟨fun n k i h ha waiting => ⟨fun d kind hd past => ?_, fun d kind hd past => ?_⟩, fun n b d h ha kind hd past fresh => ?_,
    fun t h => ⟨fun due => ?_, fun early => ?_⟩, fun e h => ⟨fun due => ?_, fun early => ?_⟩⟩
  · have test := testDeadline_pupil (deadlineReached_absent kind hd past) ha waiting
    obtain ⟨state, heard, _, absent⟩ := exhaust_exhausted n k s
    obtain ⟨_, pupils⟩ := absent kind
    refine ⟨exhaust n k s, test ▸ exec_absentDeadlineExpiry held h kind, noticeAt_exhaust n k s, heard, fun j hj => ?_, ?_,
      fun p hp mark => ?_⟩
    · rw [pupils j]
      simp only [hj, false_and, if_false, Option.map_id']
    · rw [state]
      simp only [kind, if_true]
    · rw [pupils k, hp, Option.map_some, if_pos ⟨rfl, mark⟩]
  · have test := testDeadline_pupil (deadlineReached_general kind hd past) ha waiting
    obtain ⟨state, heard, other, _⟩ := exhaust_exhausted n k s
    have notAbsent : n.kind ≠ .absent := by rw [kind]; nofun
    obtain ⟨roll, queue⟩ := other notAbsent
    refine ⟨exhaust n k s, test ▸ exec_generalDeadline held h kind, roll, ?_, heard, ?_⟩
    · rw [← queue]
      exact congrArg State.notices state
    · rw [state]
      simp only [notAbsent, if_false]
  · have test := testDeadline_broadcast (deadlineReached_general kind hd past) ha fresh
    exact ⟨_, test ▸ exec_generalDeadline held h kind, rfl, (noticeAt_updateBroadcast h ha).1⟩
  · exact (event_next held _).trans (congrArg _ (busyPauseEnds_due h due))
  · exact (event_next held _).trans (congrArg _ (busyPauseEnds_early h early))
  · exact (event_next held _).trans (congrArg _ (quietWindowEnds_due h due))
  · exact (event_next held _).trans (congrArg _ (quietWindowEnds_early h early))

end Sys2Proof.Machine
end

