-- ==== Sys2Proof/Proofs/WithdrawRequest.lean ====
section
/-! PROOF. WITHDRAW: its checks, and what the roll and the queue lose with the pupil (R9, R168). -/

namespace Sys2Proof.Machine

variable {slot : Slot} {s : State} {p : Pupil}

theorem withdraw_answers (slot : Slot) (s : State) : Answers (checksOf (.withdraw slot) s) s (withdraw slot s) := by
  refine .ite not_slotOk_iff fun _ => .ite (Bool.or_eq_true_iff) fun _ => ?_
  cases h : pupilAt slot s with
  | none => exact .refused rfl
  | some p => exact .passes nofun (.ok _ _)

/-- What WITHDRAW leaves before the Dispatcher acts (R9). -/
def pupilWithdrawn (slot : Slot) (s : State) : State :=
  { forgetSlots (· = slot) s with roll := (forgetSlots (· = slot) s).roll.remove slot }

/-- WITHDRAW where none of its checks holds. -/
theorem withdraw_taken (freeRoster : saveHolds .roster s = false) (freeAway : saveHolds .away s = false) (hk : slot < 2048)
    (hp : pupilAt slot s = some p) : withdraw slot s = (settle (pupilWithdrawn slot s), .ok []) := by
  unfold withdraw
  rw [if_neg fun y => Nat.not_lt.2 (not_slotOk_iff.1 y) hk, if_neg (by rw [freeRoster, freeAway]; nofun), hp]
  rfl

/-- The returned steps that a broadcast loses with one slot. -/
theorem withoutReturned_slot (slot : Slot) : Notice.withoutReturned (fun k => decide (k = slot)) = withoutReturned slot := by
  funext n
  unfold Notice.withoutReturned withoutReturned
  cases n.addressee with
  | pupil k i => rfl
  | broadcast b => simp only [decide_not]

theorem toGone_slot (slot : Slot) : Notice.toGone (fun k => decide (k = slot)) = Notice.isTo slot := rfl

theorem pupilWithdrawn_state (slot : Slot) (s : State) :
    pupilWithdrawn slot s =
      { s with
        roll := (pupilWithdrawn slot s).roll
        notices := { s.notices with queue := (queueWithout (· = slot) s).map (Notice.withoutReturned (· = slot)) }
        sweep := (pupilWithdrawn slot s).sweep } := by
  unfold pupilWithdrawn
  rw [forgetSlots_state]

/-- The roll without the pupil, but for the Away List. -/
theorem pupilWithdrawn_rollOk (hs : RollOk s) (slot : Slot) : RollOk (pupilWithdrawn slot s) := by
  refine (RollOk.congr hs ?_ ?_ : RollOk (forgetSlots (· = slot) s)).remove slot
  · exact forgetSlots_roster _ s
  · rw [forgetSlots_state]

theorem pupilWithdrawn_roster (hp : pupilAt slot s = some p) :
    (pupilWithdrawn slot s).roll.roster = tableDrop slot s.roll.roster := by
  have same : (forgetSlots (· = slot) s).roll.roster = s.roll.roster := forgetSlots_roster _ s
  have found : tableGet slot s.roll.roster = some p := hp
  unfold pupilWithdrawn RollUnit.remove
  rw [same, found]

theorem pupilWithdrawn_away (slot : Slot) (s : State) :
    (pupilWithdrawn slot s).roll.away = s.roll.away.filter (fun e => e.slot ≠ slot) := by
  have dropped : (pupilWithdrawn slot s).roll.away = (forgetSlots (· = slot) s).roll.away := remove_away _ _
  rw [dropped, forgetSlots_state]
  simp only [ne_eq, decide_not]

/-- Settles O8: the checks, then the slot emptied and what is addressed to it forgotten. -/
theorem withdrawEmptiesTheSlot : Obligations.WithdrawEmptiesTheSlot := by
  unfold Obligations.WithdrawEmptiesTheSlot
  refine ⟨fun slot s held => refusedByItsChecks_of rfl held (withdraw_answers slot s), fun slot p s held hs freeRoster freeAway hp => ?_⟩
  have taken := withdraw_taken freeRoster freeAway (hs.slot_lt hp) hp
  have roster := pupilWithdrawn_roster hp
  have gone : pupilAt slot (pupilWithdrawn slot s) = none := by
    unfold pupilAt
    rw [roster]
    exact tableGet_drop_self hs.wf
  have others : OthersKept slot s (pupilWithdrawn slot s) := fun k hk => by
    unfold pupilAt
    rw [roster]
    exact tableGet_drop_ne hk _
  refine ⟨pupilWithdrawn slot s, queueWithout (· = slot) s, exec_taken rfl held taken, ?_, ?_, ?_, gone, others, ?_,
    pupilWithdrawn_away slot s⟩
  · rw [← withoutReturned_slot]
    exact pupilWithdrawn_state slot s
  · exact ((forgetSlots_heard (· = slot) (.refl s)).set rfl : Heard s (pupilWithdrawn slot s)).heard
  · rw [← toGone_slot]
    exact queueWithout_withdrawn _ s
  · exact censusMoved_of hs (pupilWithdrawn_rollOk hs slot) others _ _ (by rw [hp]; rfl) (by rw [gone]; rfl)

end Sys2Proof.Machine
end

