-- ==== Sys2Proof/Proofs/CancelRequest.lean ====
section
/-! PROOF. CANCEL (R169). A queue that held one broadcast twice, which no run brings about (R154), would end it twice and raise BROADCAST
twice; the statement's hypotheses allow such a queue. -/

namespace Sys2Proof.Machine

/-! ### The Dispatcher's work on an empty queue -/

theorem chooseOnce_empty {s : State} (h : s.notices.queue = []) : chooseOnce s = none := by
  unfold chooseOnce
  rw [h]
  exact ite_self _

theorem settle_empty {s : State} (h : s.notices.queue = []) : settle s = s := by
  have tested : testDeadlines s = s := by rw [testDeadlines, h]; rfl
  have finished : finishBroadcasts s = s := by rw [finishBroadcasts, h]; rfl
  rw [settle, tested, finished, choose, chooseFuel, chooseOnce_empty h]

/-! ### One broadcast twice in the queue -/

/-- A broadcast of class 4 to cohort 2. -/
def repeatedBroadcast : Notice :=
  ⟨1, .general, .broadcast ⟨[2], .first, 0, 0, [], 0, 0, 0, false⟩, 4, 0, 0, none, none, false, false⟩

/-- The state after reset, with that broadcast twice in the queue. -/
def broadcastTwice : State :=
  { State.reset with notices := { State.reset.notices with queue := [repeatedBroadcast, repeatedBroadcast] } }

/-- How often BROADCAST has been raised in the state that an outcome leads to. -/
def broadcastsRaised : Host.Outcome State Fault Refusal → Nat
  | .next t => (sourceAt 13 t).count
  | _ => 0

theorem cancel_broadcastTwice_raises : broadcastsRaised (exec (.cancel 1) broadcastTwice) = 2 := by decide +kernel

theorem broadcastTwice_rollOk : RollOk broadcastTwice := 
  ⟨⟨List.Pairwise.nil, List.forall_mem_nil _⟩, List.forall_mem_nil _, by decide +kernel⟩

/-- Refutes O44: with one broadcast twice in the queue CANCEL raises BROADCAST twice, where the statement says once. -/
theorem not_cancelWithdrawsOneNotice : ¬Obligations.CancelWithdrawsOneNotice := by
  unfold Obligations.CancelWithdrawsOneNotice
  rintro ⟨_, cancelled⟩
  have same : ∀ m ∈ broadcastTwice.notices.queue, m = repeatedBroadcast := by
    show ∀ m ∈ [repeatedBroadcast, repeatedBroadcast], _
    simp
  obtain ⟨_, _, atOnce, _⟩ :=
    cancelled repeatedBroadcast broadcastTwice rfl (by decide) (by decide) (by decide +kernel) fun m hm _ => same m hm
  obtain ⟨u, next, notices, _, _, attention⟩ :=
    atOnce _ rfl rfl broadcastTwice_rollOk nofun fun m hm other => absurd (same m hm) other
  have empty : u.notices.queue = [] := by
    rw [notices]
    rfl
  have twice : (sourceAt 13 u).count = 2 := by
    have raised := cancel_broadcastTwice_raises
    rw [settle_empty empty] at next
    rwa [show (1 : Nat) = repeatedBroadcast.number from rfl, next] at raised
  have once : (sourceAt 13 u).count = 1 := by
    unfold sourceAt
    rw [attention]
    decide +kernel
  exact absurd (twice.symm.trans once) (by decide)

end Sys2Proof.Machine
end

