-- ==== Sys2Proof/Proofs/DispatcherSteps.lean ====
section
/-! SUPPORT. The single acts of the Notice Dispatcher, one after another from a state: a notice exhausted, a notice or a broadcast's state
moved on, a SEND record issued, a broadcast ended. All its work after a change is made of these acts (R160, R161, R164, R166, R167, R170,
R171). -/

namespace Sys2Proof.Machine

/-! ### What the acts are recorded by -/

/-- What the Dispatcher's acts leave to tell of: the SEND records issued, and the subjects with which UNREACHED (source 7) and BROADCAST
(source 13) were raised, each in order. -/
structure DispatchLog where
  new : List SendRecord
  seven : List Subject
  thirteen : List Subject

/-- The SEND record of a notice to a contact (R161). -/
def sendRecordOf (n : Notice) (k : Slot) (i : Nat) (p : Pupil) (c : Contact) (s : State) : SendRecord :=
  ⟨⟨n.number, k, i⟩, n.kind, p.enrolment.reference, c.id, c.channel, if n.kind = .late ∨ n.kind = .arrived then p.day.arrival else none,
    sendText n s⟩

/-- What UNREACHED is raised with for an exhausted notice (R164, R166, R167). -/
def exhaustedSubject (n : Notice) (k : Slot) : Subject := if n.kind = .absent then .slot k else .notice n.number

/-- A notice stood in the queue of `s`, whatever has moved in it since. -/
def ComesFrom (s : State) (n : Notice) : Prop :=
  ∃ m ∈ s.notices.queue, m.number = n.number ∧ m.kind = n.kind ∧ (∀ k i, n.addressee = .pupil k i → m.addressee = .pupil k i) ∧
    ∀ b, n.addressee = .broadcast b → ∃ c, m.addressee = .broadcast c

/-- The Dispatcher's acts from `s` to `t`, with what they leave to tell of. -/
inductive Dispatches (s : State) : State → DispatchLog → Prop
  | none_ : Dispatches s s ⟨[], [], []⟩
  | exhausted {t : State} {d : DispatchLog} {n : Notice} {k : Slot} {i : Nat} (h : Dispatches s t d) (from_ : ComesFrom s n)
      (to_ : n.addressee = .pupil k i) :
      Dispatches s (exhaust n k t) { d with seven := d.seven ++ [exhaustedSubject n k] }
  | moved {t : State} {d : DispatchLog} {number : Nat} {f : Notice → Notice} (h : Dispatches s t d)
      (runsOn : ∀ x, x.number = number → RunsOn d.new [] x (f x)) : Dispatches s (updateNotice number f t) d
  | issued {t : State} {d : DispatchLog} {n : Notice} {k : Slot} {i : Nat} {p : Pupil} {c : Contact} (h : Dispatches s t d)
      (place : t.notices.window.length < 4) (allowed : sendingAllowed t = true) (from_ : ComesFrom s n)
      (to_ : n.addressee = .pupil k i ∨ ∃ b, n.addressee = .broadcast b) (hp : pupilAt k t = some p)
      (hc : p.enrolment.contacts[i]? = some c) :
      Dispatches s (issueSend n k i p c t) { d with new := d.new ++ [sendRecordOf n k i p c t] }
  | ended {t : State} {d : DispatchLog} {n : Notice} {b : BroadcastState} (h : Dispatches s t d) (from_ : ComesFrom s n)
      (to_ : n.addressee = .broadcast b) :
      Dispatches s (endBroadcast n b t) { d with thirteen := d.thirteen ++ [.notice n.number] }

theorem issueSend_eq (n : Notice) (k : Slot) (i : Nat) (p : Pupil) (c : Contact) (s : State) :
    issueSend n k i p c s =
      { s with
        notices := { s.notices with window := s.notices.window ++ [⟨⟨n.number, k, i⟩, s.time.running, .awaitTake⟩] }
        gateway := { s.gateway with outbound := s.gateway.outbound ++ [.send (sendRecordOf n k i p c s)] } } := rfl

theorem endBroadcast_state (n : Notice) (b : BroadcastState) (s : State) :
    endBroadcast n b s =
      { s with
        notices :=
          { s.notices with
            queue := s.notices.queue.filter (·.number ≠ n.number)
            lastBroadcast := some ⟨n.number, n.kind, b.sent, b.delivered, b.failed, broadcastEnding n b⟩ }
        sweep := (removeNotice n.number s).sweep
        attention := (raise .broadcast (some (.notice n.number)) s).attention } := by
  unfold endBroadcast
  rw [removeNotice_state]
  rfl

/-! ### What may move in a notice that stays -/

theorem runsOn_refl {new : List SendRecord} {seven : List Subject} (n : Notice) : RunsOn new seven n n :=
  ⟨rfl, fun _ _ _ => rfl, fun b h => ⟨b, h⟩, .inl rfl, .inl rfl⟩

theorem runsOn_mono {new new' : List SendRecord} {seven seven' : List Subject} (hn : new ⊆ new') (hs : seven ⊆ seven') {n m : Notice}
    (h : RunsOn new seven n m) : RunsOn new' seven' n m := by
  obtain ⟨same, pupil, broadcast, window, cancel⟩ := h
  refine ⟨same, pupil, broadcast, window.imp_right fun ⟨w, r, hr, e⟩ => ⟨w, r, hn hr, e⟩,
    cancel.imp_right fun ⟨c, kind, k, i, a, hk⟩ => ⟨c, kind, k, i, a, hs hk⟩⟩

variable {new : List SendRecord} {seven : List Subject} {n m l : Notice}

theorem runsOn_number (h : RunsOn new seven n m) : m.number = n.number := by rw [h.1]

theorem runsOn_kind (h : RunsOn new seven n m) : m.kind = n.kind := by rw [h.1]

/-- A pupil notice stays one to the same contact. -/
theorem runsOn_pupil (h : RunsOn new seven n m) {k : Slot} {i : Nat} (hm : m.addressee = .pupil k i) : n.addressee = .pupil k i := by
  obtain ⟨_, pupil, broadcast, _⟩ := h
  cases hn : n.addressee with
  | pupil j l => rw [← hm, pupil j l hn, hn]
  | broadcast b =>
    obtain ⟨c, hc⟩ := broadcast b hn
    exact nomatch hm.symm.trans hc

theorem runsOn_broadcast (h : RunsOn new seven n m) {b : BroadcastState} (hm : m.addressee = .broadcast b) :
    ∃ c, n.addressee = .broadcast c := by
  obtain ⟨_, pupil, _⟩ := h
  cases hn : n.addressee with
  | pupil j l => exact nomatch hm.symm.trans ((pupil j l hn).trans hn)
  | broadcast c => exact ⟨c, rfl⟩

theorem runsOn_trans (h : RunsOn new seven n m) (g : RunsOn new seven m l) : RunsOn new seven n l := by
  have back {k : Slot} {i : Nat} (a : m.addressee = .pupil k i) : n.addressee = .pupil k i := runsOn_pupil h a
  have number := runsOn_number h
  have kind := runsOn_kind h
  obtain ⟨same, pupil, broadcast, window, cancel⟩ := h
  obtain ⟨same', pupil', broadcast', window', cancel'⟩ := g
  refine ⟨same'.trans (by rw [same]), fun k i a => ?_, fun b a => ?_, ?_, ?_⟩
  · rw [pupil' k i ((pupil k i a).trans a), pupil k i a]
  · obtain ⟨c, hc⟩ := broadcast b a
    obtain ⟨c', hc'⟩ := broadcast' _ hc
    exact ⟨c', hc'⟩
  · rcases window' with w | ⟨w, r, hr, e⟩
    · rwa [w]
    · exact .inr ⟨w, r, hr, e.trans number⟩
  · rcases cancel' with c | ⟨c, k', k, i, a, hk⟩
    · rwa [c]
    · exact .inr ⟨c, kind ▸ k', k, i, back a, hk⟩

/-- A queue after acts of the Dispatcher: of the notices before, some have left, and each that stays has run on. -/
def QueueRuns (new : List SendRecord) (seven : List Subject) (before after : List Notice) : Prop :=
  List.SublistForall₂ (fun m n => RunsOn new seven n m) after before

theorem queueRuns_iff {before after : List Notice} :
    QueueRuns new seven before after ↔ ∃ kept, kept.Sublist before ∧ List.Forall₂ (RunsOn new seven) kept after := by
  unfold QueueRuns
  rw [List.sublistForall₂_iff]
  exact exists_congr fun kept => and_comm.trans (and_congr_right fun _ => ⟨fun h => h.flip, fun h => h.flip⟩)

namespace QueueRuns

variable {before between after : List Notice}

theorem trans (h : QueueRuns new seven before between) (g : QueueRuns new seven between after) : QueueRuns new seven before after := by
  have transitive : IsTrans Notice fun m n => RunsOn new seven n m := ⟨fun _ _ _ x y => runsOn_trans y x⟩
  exact List.SublistForall₂.is_trans.trans _ _ _ g h

theorem mono {new' : List SendRecord} {seven' : List Subject} (hn : new ⊆ new') (hs : seven ⊆ seven')
    (h : QueueRuns new seven before after) : QueueRuns new' seven' before after := by
  obtain ⟨kept, sublist, runs⟩ := queueRuns_iff.1 h
  exact queueRuns_iff.2 ⟨kept, sublist, runs.imp fun _ _ => runsOn_mono hn hs⟩

theorem filter (p : Notice → Bool) (l : List Notice) : QueueRuns new seven l (l.filter p) :=
  queueRuns_iff.2 ⟨_, List.filter_sublist, List.forall₂_same.2 fun n _ => runsOn_refl n⟩

theorem refl (l : List Notice) : QueueRuns new seven l l :=
  queueRuns_iff.2 ⟨l, List.Sublist.refl l, List.forall₂_same.2 fun n _ => runsOn_refl n⟩

theorem map {f : Notice → Notice} (l : List Notice) (h : ∀ n ∈ l, RunsOn new seven n (f n)) : QueueRuns new seven l (l.map f) :=
  queueRuns_iff.2 ⟨l, List.Sublist.refl l, List.forall₂_map_right_iff.2 (List.forall₂_same.2 h)⟩

/-- ABSENT notices of a pupil, withdrawn as the pupil's UNREACHED is raised (R6, R164). -/
theorem withdrawn {k : Slot} {p : Notice → Bool} (hk : .slot k ∈ seven) (hp : ∀ n, p n = true → n.isAbsentOf k = true)
    (h : Withdrawn p before after) : QueueRuns new seven before after := by
  rw [h]
  refine (filter _ _).trans (map _ fun n _ => ?_)
  split
  · rename_i e
    obtain ⟨kind, to_, _⟩ := isAbsentOf_iff.1 (hp n e)
    obtain ⟨i, hi⟩ := isTo_iff.1 to_
    exact ⟨rfl, fun _ _ _ => rfl, fun b hb => ⟨b, hb⟩, .inl rfl, .inr ⟨rfl, kind, k, i, hi, hk⟩⟩
  · exact runsOn_refl n

theorem mem (h : QueueRuns new seven before after) (hm : m ∈ after) : ∃ n ∈ before, RunsOn new seven n m := by
  unfold QueueRuns at h
  induction h with
  | nil => nomatch hm
  | cons run _ ih =>
    rcases List.mem_cons.1 hm with rfl | hm
    · exact ⟨_, List.mem_cons_self, run⟩
    · obtain ⟨n, hn, e⟩ := ih hm
      exact ⟨n, List.mem_cons_of_mem _ hn, e⟩
  | cons_right _ ih =>
    obtain ⟨n, hn, e⟩ := ih hm
    exact ⟨n, List.mem_cons_of_mem _ hn, e⟩

end QueueRuns

/-! ### The queue after the acts -/

variable {s t : State} {d : DispatchLog}

theorem exhaust_queueRuns (n : Notice) (k : Slot) (s : State) (h : exhaustedSubject n k ∈ seven) :
    QueueRuns new seven s.notices.queue (exhaust n k s).notices.queue := by
  obtain ⟨_, _, other, absent⟩ := exhaust_exhausted n k s
  unfold exhaustedSubject at h
  by_cases kind : n.kind = .absent
  · obtain ⟨gone, _⟩ := absent kind
    rw [if_pos kind] at h
    exact (QueueRuns.filter _ _).trans (.withdrawn h (fun m e => (Bool.and_eq_true_iff.1 e).2) gone)
  · rw [(other kind).2]
    exact .filter _ _

namespace Dispatches

theorem queueRuns (h : Dispatches s t d) : QueueRuns d.new d.seven s.notices.queue t.notices.queue := by
  induction h with
  | none_ => exact .refl _
  | exhausted h _ _ ih =>
    exact (ih.mono (List.Subset.refl _) (List.subset_append_left _ _)).trans (exhaust_queueRuns _ _ _ (by simp))
  | moved h runsOn ih =>
    refine ih.trans (.map _ fun x _ => ?_)
    split
    · rename_i e
      exact runsOn_mono (List.Subset.refl _) (List.nil_subset _) (runsOn x e)
    · exact runsOn_refl x
  | issued h _ _ _ _ _ _ ih => exact ih.mono (List.subset_append_left _ _) (List.Subset.refl _)
  | ended h _ _ ih =>
    rw [endBroadcast_state]
    exact ih.trans (.filter _ _)

/-- What stands in the queue after the acts stood in it before them. -/
theorem comesFrom (h : Dispatches s t d) (hn : n ∈ t.notices.queue) : ComesFrom s n := by
  obtain ⟨m, hm, runs⟩ := h.queueRuns.mem hn
  exact ⟨m, hm, (runsOn_number runs).symm, (runsOn_kind runs).symm, fun _ _ => runsOn_pupil runs, fun _ => runsOn_broadcast runs⟩

end Dispatches

/-! ### The Dispatcher's work is made of these acts -/

/-- Some acts of the Dispatcher lead from `s` to `t`. -/
def Dispatched (s t : State) : Prop := ∃ d, Dispatches s t d

theorem Dispatched.comesFrom (h : Dispatched s t) (hn : n ∈ t.notices.queue) : ComesFrom s n := h.elim fun _ h => h.comesFrom hn

/-- A change of a broadcast's own state that leaves its mask, its reach and its counts of results. -/
def MovesOn (f : BroadcastState → BroadcastState) : Prop :=
  ∀ b, (f b).mask = b.mask ∧ (f b).reach = b.reach ∧ (f b).delivered = b.delivered ∧ (f b).failed = b.failed

theorem pastStep_movesOn (k : Slot) (i : Nat) : MovesOn fun b => pastStep b k i := fun b => by
  dsimp only [pastStep]
  split <;> exact ⟨rfl, rfl, rfl, rfl⟩

namespace Dispatched

theorem exhausted (h : Dispatched s t) (from_ : ComesFrom s n) {k : Slot} {i : Nat} (to_ : n.addressee = .pupil k i) :
    Dispatched s (exhaust n k t) := h.elim fun _ h => ⟨_, h.exhausted from_ to_⟩

theorem ended (h : Dispatched s t) (from_ : ComesFrom s n) {b : BroadcastState} (to_ : n.addressee = .broadcast b) :
    Dispatched s (endBroadcast n b t) := h.elim fun _ h => ⟨_, h.ended from_ to_⟩

theorem broadcastMoved (h : Dispatched s t) (number : Nat) {f : BroadcastState → BroadcastState} (hf : MovesOn f) :
    Dispatched s (updateBroadcast number f t) := by
  obtain ⟨d, h⟩ := h
  refine ⟨d, h.moved fun x _ => ?_⟩
  cases ha : x.addressee with
  | pupil k i => exact runsOn_refl x
  | broadcast b =>
    refine ⟨rfl, fun k i e => (nomatch ha.symm.trans e), fun b' e => ⟨f b, ?_⟩, .inl rfl, .inl rfl⟩
    cases ha.symm.trans e
    obtain ⟨mask, reach, delivered, failed⟩ := hf b
    rw [← mask, ← reach, ← delivered, ← failed]

/-- A pupil notice sent: its record is issued, and it is IN_WINDOW (R161). -/
theorem pupilSent (h : Dispatched s t) (place : t.notices.window.length < 4) (allowed : sendingAllowed t = true) (from_ : ComesFrom s n)
    {k : Slot} {i : Nat} (to_ : n.addressee = .pupil k i) {p : Pupil} {c : Contact} (hp : pupilAt k t = some p)
    (hc : p.enrolment.contacts[i]? = some c) :
    Dispatched s (issueSend n k i p c (updateNotice n.number (fun x => { x with inWindow := true }) t)) := by
  obtain ⟨d, h⟩ := h
  have sent := h.issued place allowed from_ (.inl to_) hp hc
  exact ⟨_, sent.moved fun x e => ⟨rfl, fun _ _ _ => rfl, fun b hb => ⟨b, hb⟩,
    .inr ⟨rfl, _, List.mem_append_right _ (List.mem_singleton.2 rfl), e.symm⟩, .inl rfl⟩⟩

theorem sendPupilNotice (h : Dispatched s t) (place : t.notices.window.length < 4) (allowed : sendingAllowed t = true)
    (from_ : ComesFrom s n) {k : Slot} {i : Nat} (to_ : n.addressee = .pupil k i) : Dispatched s (sendPupilNotice n k i t) := by
  unfold Machine.sendPupilNotice
  split
  · exact h.exhausted from_ to_
  · rename_i hp
    split
    · exact h.exhausted from_ to_
    · rename_i hc
      exact h.pupilSent place allowed from_ to_ hp hc

theorem sendStep (h : Dispatched s t) (place : t.notices.window.length < 4) (allowed : sendingAllowed t = true) (from_ : ComesFrom s n)
    (to_ : ∃ b, n.addressee = .broadcast b) (k : Slot) (i : Nat) : Dispatched s (sendStep n k i t) := by
  unfold Machine.sendStep
  split
  · exact h
  · rename_i hp
    split
    · exact h
    · rename_i hc
      obtain ⟨d, h⟩ := h.broadcastMoved n.number (f := fun b => { b with sent := satInc b.sent }) fun _ => ⟨rfl, rfl, rfl, rfl⟩
      exact ⟨_, h.issued place allowed from_ (.inr to_) hp hc⟩

theorem sendBroadcast (h : Dispatched s t) (place : t.notices.window.length < 4) (allowed : sendingAllowed t = true)
    (from_ : ComesFrom s n) {b : BroadcastState} (to_ : n.addressee = .broadcast b) : Dispatched s (sendBroadcast n b t) := by
  unfold Machine.sendBroadcast
  split
  · rename_i rest _
    exact (h.broadcastMoved n.number (f := fun b => { b with returned := rest }) fun _ => ⟨rfl, rfl, rfl, rfl⟩).sendStep place allowed
      from_ ⟨b, to_⟩ _ _
  · split
    · exact h
    · exact (h.broadcastMoved n.number (pastStep_movesOn _ _)).sendStep place allowed from_ ⟨b, to_⟩ _ _

/-- Acts for one notice after another, each of which stood in the queue of `s`. -/
theorem foldl {f : State → Notice → State} (hf : ∀ {t n}, Dispatched s t → ComesFrom s n → Dispatched s (f t n)) (l : List Notice)
    (hl : ∀ n ∈ l, ComesFrom s n) (h : Dispatched s t) : Dispatched s (l.foldl f t) := by
  induction l generalizing t with
  | nil => exact h
  | cons n l ih => exact ih (fun m hm => hl m (List.mem_cons_of_mem _ hm)) (hf h (hl n List.mem_cons_self))

theorem finishBroadcast (h : Dispatched s t) (from_ : ComesFrom s n) : Dispatched s (finishBroadcast t n) := by
  unfold Machine.finishBroadcast
  split
  · exact h
  · rename_i to_
    split
    · exact h
    · exact h.ended from_ to_

theorem finishBroadcasts (h : Dispatched s t) : Dispatched s (finishBroadcasts t) :=
  foldl finishBroadcast _ (fun _ hn => h.comesFrom hn) h

theorem testDeadline (h : Dispatched s t) (from_ : ComesFrom s n) : Dispatched s (testDeadline t n) := by
  unfold Machine.testDeadline
  split
  · exact h
  · split
    · rename_i to_
      split
      · exact h
      · exact h.exhausted from_ to_
    · split
      · exact h
      · exact h.broadcastMoved n.number (f := fun b => { b with expired := true, returned := [] }) fun _ => ⟨rfl, rfl, rfl, rfl⟩

theorem chooseOnce {u : State} (h : Dispatched s t) (e : chooseOnce t = some u) : Dispatched s u := by
  unfold Machine.chooseOnce at e
  split at e
  · rename_i may
    obtain ⟨place, allowed⟩ := may
    split at e
    · nomatch e
    · rename_i n best
      have from_ := h.comesFrom (bestCandidate_mem best).1
      split at e
      · rename_i to_
        cases e
        exact h.sendPupilNotice place allowed from_ to_
      · rename_i to_
        cases e
        exact (h.sendBroadcast place allowed from_ to_).finishBroadcasts
  · nomatch e

theorem chooseFuel (fuel : Nat) (h : Dispatched s t) : Dispatched s (chooseFuel fuel t) := by
  induction fuel generalizing t with
  | zero => exact h
  | succ fuel ih =>
    unfold Machine.chooseFuel
    split
    · exact h
    · rename_i e
      exact ih (h.chooseOnce e)

end Dispatched

theorem settle_dispatched (s : State) : Dispatched s (settle s) := by
  have start : Dispatched s s := ⟨_, .none_⟩
  have tested : Dispatched s (testDeadlines s) := .foldl .testDeadline _ (fun _ hn => start.comesFrom hn) start
  exact tested.finishBroadcasts.chooseFuel 1024

end Sys2Proof.Machine
end

