-- ==== Sys2Proof/Proofs/DispatcherFrame.lean ====
section
/-! PROOF. What the Notice Dispatcher's work after a change may touch: the window and the outbound queue, the notices that leave with what
each raises, the last broadcast record, and the pupils made ABSENT_UNREACHED (R145, R153, R160, R161, R164, R166, R167, R170, R171). -/

namespace Sys2Proof.Machine

variable {s t : State} {d : DispatchLog} {n : Notice}

theorem exhaust_sends (n : Notice) (k : Slot) (s : State) :
    (exhaust n k s).notices.window = s.notices.window ∧ (exhaust n k s).gateway = s.gateway ∧
      (exhaust n k s).notices.lastBroadcast = s.notices.lastBroadcast := by
  have state := (exhaust_exhausted n k s).1
  rw [state]
  exact ⟨rfl, rfl, rfl⟩

namespace Dispatches

theorem rest (h : Dispatches s t d) : noticeRest t = noticeRest s := by
  induction h with
  | none_ => rfl
  | exhausted _ _ _ ih => exact (exhaust_noticeRest _ _ _).trans ih
  | moved _ _ ih => exact ih
  | issued _ _ _ _ _ _ _ ih => exact ih
  | ended _ _ _ ih => exact (endBroadcast_noticeRest _ _ _).trans ih

/-! ### The sends -/

theorem window (h : Dispatches s t d) :
    t.notices.window = s.notices.window ++ d.new.map fun r => ⟨r.key, s.time.running, .awaitTake⟩ := by
  induction h with
  | none_ => exact (List.append_nil _).symm
  | exhausted _ _ _ ih => rw [(exhaust_sends _ _ _).1, ih]
  | moved _ _ ih => exact ih
  | @issued t _ _ _ _ _ _ h _ _ _ _ _ _ ih =>
    have time : t.time = s.time := congrArg (fun r => r.1.1) h.rest
    rw [issueSend_eq, List.map_append, ← List.append_assoc, ← ih, ← time]
    rfl
  | ended _ _ _ ih => rw [endBroadcast_state]; exact ih

theorem outbound (h : Dispatches s t d) : t.gateway.outbound = s.gateway.outbound ++ d.new.map .send := by
  induction h with
  | none_ => exact (List.append_nil _).symm
  | exhausted _ _ _ ih => rw [(exhaust_sends _ _ _).2.1, ih]
  | moved _ _ ih => exact ih
  | issued _ _ _ _ _ _ _ ih =>
    rw [issueSend_eq, List.map_append, ← List.append_assoc, ← ih]
    rfl
  | ended _ _ _ ih => rw [endBroadcast_state]; exact ih

theorem sendingAllowed_eq (h : Dispatches s t d) : sendingAllowed t = sendingAllowed s := by
  have rest := h.rest
  simp only [noticeRest, Prod.mk.injEq] at rest
  obtain ⟨_, ⟨_, _, _, busyEnd, _⟩, ⟨link, _⟩, _⟩ := rest
  unfold sendingAllowed
  rw [busyEnd, link]

theorem places (h : Dispatches s t d) :
    d.new ≠ [] → sendingAllowed s = true ∧ s.notices.window.length + d.new.length ≤ 4 := by
  induction h with
  | none_ => exact fun h => absurd rfl h
  | exhausted _ _ _ ih => exact ih
  | moved _ _ ih => exact ih
  | issued h place allowed _ _ _ _ _ =>
    intro _
    refine ⟨h.sendingAllowed_eq ▸ allowed, ?_⟩
    rw [h.window, List.length_append, List.length_map] at place
    rw [List.length_append, List.length_singleton]
    omega
  | ended _ _ _ ih => exact ih

end Dispatches

/-! ### The pupils -/

/-- A pupil as the Dispatcher leaves it: of ABSENT_PENDING, it is ABSENT_UNREACHED where UNREACHED names its slot. -/
def unreachedIf (seven : List Subject) (k : Slot) (p : Pupil) : Pupil :=
  if .slot k ∈ seven ∧ p.day.mark = .absentPending then
    { p with day := { p.day with mark := .absentUnreached, source := some .notice } }
  else p

theorem unreachedIf_nil (k : Slot) : unreachedIf [] k = id := funext fun _ => if_neg fun h => nomatch h.1

theorem unreachedIf_enrolment (seven : List Subject) (k : Slot) (p : Pupil) : (unreachedIf seven k p).enrolment = p.enrolment := by
  unfold unreachedIf
  split <;> rfl

theorem unreachedIf_append (a b : List Subject) (k : Slot) : unreachedIf (a ++ b) k = unreachedIf b k ∘ unreachedIf a k := by
  funext p
  unfold unreachedIf
  by_cases mark : p.day.mark = .absentPending <;> by_cases ha : .slot k ∈ a <;> by_cases hb : .slot k ∈ b <;> simp [mark, ha, hb]

theorem pupilAt_exhaust (n : Notice) (j k : Slot) (s : State) :
    pupilAt j (exhaust n k s) = (pupilAt j s).map (unreachedIf [exhaustedSubject n k] j) := by
  obtain ⟨_, _, other, absent⟩ := exhaust_exhausted n k s
  unfold exhaustedSubject
  by_cases kind : n.kind = .absent
  · rw [(absent kind).2 j, if_pos kind]
    refine congrArg (Option.map · _) (funext fun p => ?_)
    simp only [unreachedIf, List.mem_singleton, Subject.slot.injEq]
  · have same : unreachedIf [.notice n.number] j = id := funext fun p => if_neg fun h => by simpa using h.1
    rw [pupilAt_congr (congrArg RollUnit.roster (other kind).1), if_neg kind, same, Option.map_id_fun, id]

namespace Dispatches

theorem pupils (h : Dispatches s t d) (k : Slot) : pupilAt k t = (pupilAt k s).map (unreachedIf d.seven k) := by
  induction h with
  | none_ => rw [unreachedIf_nil, Option.map_id_fun, id]
  | exhausted _ _ _ ih => rw [pupilAt_exhaust, ih, Option.map_map, unreachedIf_append]
  | moved _ _ ih => exact ih
  | issued _ _ _ _ _ _ _ ih => exact ih
  | ended _ _ _ ih => rw [endBroadcast_state]; exact ih

/-- Each SEND record is of a notice of the queue to a contact of an ENROLLED pupil (R160, R161, R170). -/
theorem issuedFor (h : Dispatches s t d) :
    ∀ r ∈ d.new, ∃ n ∈ s.notices.queue, ∃ p c, r.key.number = n.number ∧ r.kind = n.kind ∧
      (n.addressee = .pupil r.key.slot r.key.position ∨ ∃ b, n.addressee = .broadcast b) ∧
      pupilAt r.key.slot s = some p ∧ p.enrolment.contacts[r.key.position]? = some c ∧
      r.reference = p.enrolment.reference ∧ r.contact = c.id ∧ r.channel = c.channel := by
  induction h with
  | none_ => nofun
  | exhausted _ _ _ ih => exact ih
  | moved _ _ ih => exact ih
  | issued h _ _ from_ to_ hp hc ih =>
    intro r hr
    rcases List.mem_append.1 hr with old | last
    · exact ih r old
    · obtain rfl := List.mem_singleton.1 last
      obtain ⟨m, hm, number, kind, pupil, broadcast⟩ := from_
      obtain ⟨q, hq, e⟩ := Option.map_eq_some_iff.1 ((h.pupils _).symm.trans hp)
      have same : q.enrolment = _ := (unreachedIf_enrolment _ _ q).symm.trans (congrArg Pupil.enrolment e)
      exact ⟨m, hm, q, _, number.symm, kind.symm, to_.imp (pupil _ _) fun ⟨b, hb⟩ => broadcast b hb, hq, same ▸ hc,
        congrArg Enrolment.reference same.symm, rfl, rfl⟩
  | ended _ _ _ ih => exact ih

end Dispatches

/-! ### The attention sources -/

/-- A source raised with some subjects, one after another (R195). -/
def raisedWith (l : List Subject) (x : Source) : Source := l.foldl (fun x y => x.raised (some y)) x

theorem raisedWith_append (l : List Subject) (y : Subject) :
    raisedWith (l ++ [y]) = Source.raised (some y) ∘ raisedWith l := by
  funext x
  simp [raisedWith]

namespace Dispatches

theorem attention (h : Dispatches s t d) :
    t.attention = (s.attention.modify 7 (raisedWith d.seven)).modify 13 (raisedWith d.thirteen) := by
  induction h with
  | none_ =>
    have same : raisedWith [] = id := rfl
    simp only [same, List.modify_id]
  | @exhausted t d n k _ _ _ _ ih =>
    have raised : (exhaust n k t).attention = t.attention.modify 7 (Source.raised (some (exhaustedSubject n k))) := by
      rw [(exhaust_exhausted n k t).1]
      rfl
    rw [raised, ih, List.modify_modify_ne _ _ _ (by decide), List.modify_modify_eq, raisedWith_append]
  | moved _ _ ih => exact ih
  | issued _ _ _ _ _ _ _ ih => exact ih
  | @ended t d n b _ _ _ ih =>
    have raised : (endBroadcast n b t).attention = t.attention.modify 13 (Source.raised (some (.notice n.number))) := by
      rw [endBroadcast_state]
      rfl
    rw [raised, ih, List.modify_modify_eq, raisedWith_append]

theorem source_other (h : Dispatches s t d) {j : Nat} (h7 : j ≠ 7) (h13 : j ≠ 13) : sourceAt j t = sourceAt j s := by
  unfold sourceAt
  rw [h.attention, List.getD_eq_getElem?_getD, List.getD_eq_getElem?_getD, List.getElem?_modify_ne _ _ (Ne.symm h13),
    List.getElem?_modify_ne _ _ (Ne.symm h7)]

/-- The two sources that the Dispatcher raises. -/
theorem sources (h : Dispatches s t d) (all : s.attention.length = 14) :
    sourceAt 7 t = raisedWith d.seven (sourceAt 7 s) ∧ sourceAt 13 t = raisedWith d.thirteen (sourceAt 13 s) := by
  unfold sourceAt
  rw [h.attention]
  simp only [List.getD_eq_getElem?_getD]
  rw [List.getElem?_modify_ne _ _ (by decide), List.getElem?_modify_eq, List.getElem?_modify_eq, List.getElem?_modify_ne _ _ (by decide),
    List.getElem?_eq_getElem (by rw [all]; decide), List.getElem?_eq_getElem (by rw [all]; decide)]
  exact ⟨rfl, rfl⟩

/-! ### The last broadcast record -/

/-- The last broadcast record is of the broadcast that ended last, or as it was where none ended (R171). -/
theorem lastBroadcast (h : Dispatches s t d) :
    (d.thirteen = [] → t.notices.lastBroadcast = s.notices.lastBroadcast) ∧
      ∀ k, d.thirteen.getLast? = some (.notice k) → t.notices.lastBroadcast.map BroadcastRecord.number = some k := by
  induction h with
  | none_ => exact ⟨fun _ => rfl, nofun⟩
  | exhausted _ _ _ ih => rw [(exhaust_sends _ _ _).2.2]; exact ih
  | moved _ _ ih => exact ih
  | issued _ _ _ _ _ _ _ ih => exact ih
  | ended _ _ _ ih =>
    rw [endBroadcast_state]
    refine ⟨fun e => by simp at e, fun k e => ?_⟩
    rw [List.getLast?_concat, Option.some.injEq, Subject.notice.injEq] at e
    exact congrArg some e

end Dispatches

/-! ### The notices that leave -/

/-- A notice of the queue of `s` of whose number none stands in the queue of `t`. -/
def Left (s t : State) (n : Notice) : Prop := n ∈ s.notices.queue ∧ ∀ m ∈ t.notices.queue, m.number ≠ n.number

/-- A notice that left raised UNREACHED with its slot or its number, or BROADCAST with its number (R164, R166, R167, R171). -/
def LeavingRaised (d : DispatchLog) (m : Notice) : Prop :=
  (m.kind ≠ .absent ∧ .notice m.number ∈ d.seven) ∨
    (m.kind = .absent ∧ ∃ k i, m.addressee = .pupil k i ∧ .slot k ∈ d.seven) ∨
    ((∃ b, m.addressee = .broadcast b) ∧ .notice m.number ∈ d.thirteen)

theorem LeavingRaised.mono {d' : DispatchLog} {m : Notice} (h7 : d.seven ⊆ d'.seven) (h13 : d.thirteen ⊆ d'.thirteen)
    (h : LeavingRaised d m) : LeavingRaised d' m := by
  obtain ⟨kind, hm⟩ | ⟨kind, k, i, to_, hm⟩ | ⟨to_, hm⟩ := h
  · exact .inl ⟨kind, h7 hm⟩
  · exact .inr (.inl ⟨kind, k, i, to_, h7 hm⟩)
  · exact .inr (.inr ⟨to_, h13 hm⟩)

/-- The numbers of a queue stand in another's. -/
def NumbersFrom (t u : State) : Prop := ∀ m ∈ u.notices.queue, ∃ n ∈ t.notices.queue, n.number = m.number

theorem Left.mono {u : State} (h : Left s t n) (g : NumbersFrom t u) : Left s u n := by
  refine ⟨h.1, fun m hm e => ?_⟩
  obtain ⟨x, hx, e'⟩ := g m hm
  exact h.2 x hx (e'.trans e)

theorem exhaust_numbers (n : Notice) (k : Slot) (t : State) : NumbersFrom t (exhaust n k t) := fun m hm => by
  obtain ⟨x, hx, number, _⟩ := exhaust_from n k t m hm
  exact ⟨x, hx, number.symm⟩

theorem updateNotice_numbers {number : Nat} {f : Notice → Notice} (hf : ∀ x, x.number = number → (f x).number = number) (t : State) :
    NumbersFrom t (updateNotice number f t) := fun m hm => by
  obtain ⟨x, hx, e⟩ := List.mem_map.1 hm
  refine ⟨x, hx, ?_⟩
  split at e
  · rename_i number
    rw [← e, hf x number, number]
  · rw [e]

theorem endBroadcast_numbers (n : Notice) (b : BroadcastState) (t : State) : NumbersFrom t (endBroadcast n b t) := fun m hm => by
  rw [endBroadcast_state] at hm
  exact ⟨m, List.mem_of_mem_filter hm, rfl⟩

/-- Of the number of an exhausted notice none stays, and an ABSENT notice takes those of its slot with it (R6, R164). -/
theorem exhaust_takes {m : Notice} {k : Slot} (hm : m ∈ t.notices.queue)
    (gone : ∀ x ∈ (exhaust n k t).notices.queue, x.number ≠ m.number) :
    m.number = n.number ∨ n.kind = .absent ∧ m.isAbsentOf k = true := by
  obtain ⟨_, _, other, absent⟩ := exhaust_exhausted n k t
  refine or_iff_not_imp_left.2 fun hne => ?_
  have stays : m ∈ t.notices.queue.filter (·.number ≠ n.number) := List.mem_filter.2 ⟨hm, decide_eq_true hne⟩
  by_cases kind : n.kind = .absent
  · refine ⟨kind, ?_⟩
    by_contra notOf
    obtain ⟨withdrawn, _⟩ := absent kind
    refine gone m ?_ rfl
    rw [withdrawn]
    exact List.mem_map.2 ⟨m, List.mem_filter.2 ⟨stays, by simp [notOf]⟩, by simp [notOf]⟩
  · rw [← (other kind).2] at stays
    exact absurd rfl (gone m stays)

/-- A notice that has left by now had left before the last act, or its number still stood then. -/
theorem Left.before {u : State} (h : Left s u n) (t : State) : Left s t n ∨ ∃ x ∈ t.notices.queue, x.number = n.number := by
  by_contra neither
  obtain ⟨stays, none_⟩ := not_or.1 neither
  exact stays ⟨h.1, fun m hm e => none_ ⟨m, hm, e⟩⟩

theorem exhaustedSubject_absent (h : n.kind = .absent) (k : Slot) : exhaustedSubject n k = .slot k := if_pos h
theorem exhaustedSubject_other (h : n.kind ≠ .absent) (k : Slot) : exhaustedSubject n k = .notice n.number := if_neg h

/-- What UNREACHED and BROADCAST were raised with names a notice that left (R164, R166, R167, R171). -/
def RaisedFor (s t : State) (d : DispatchLog) : Prop :=
  (∀ y ∈ d.seven, ∃ n, Left s t n ∧ ∃ k i, n.addressee = .pupil k i ∧ y = exhaustedSubject n k) ∧
    ∀ y ∈ d.thirteen, ∃ n, Left s t n ∧ (∃ b, n.addressee = .broadcast b) ∧ y = .notice n.number

theorem RaisedFor.mono {u : State} (h : RaisedFor s t d) (g : NumbersFrom t u) : RaisedFor s u d :=
  ⟨fun y hy => (h.1 y hy).imp fun _ => And.imp_left (·.mono g), fun y hy => (h.2 y hy).imp fun _ => And.imp_left (·.mono g)⟩

namespace Dispatches

theorem moved_number {f : Notice → Notice} {number : Nat} (runsOn : ∀ x, x.number = number → RunsOn d.new [] x (f x)) :
    ∀ x, x.number = number → (f x).number = number := fun x e => (runsOn_number (runsOn x e)).trans e

/-- What left raised an attention source for its number. -/
theorem leaving (h : Dispatches s t d) : ∀ n, Left s t n → ∃ m ∈ s.notices.queue, m.number = n.number ∧ LeavingRaised d m := by
  induction h with
  | none_ => exact fun n hn => absurd rfl (hn.2 n hn.1)
  | @exhausted t d n k i h from_ to_ ih =>
    intro l hl
    have last {y : Subject} (e : exhaustedSubject n k = y) : y ∈ d.seven ++ [exhaustedSubject n k] :=
      List.mem_append_right _ (List.mem_singleton.2 e.symm)
    obtain before | ⟨x, hx, e⟩ := hl.before t
    · obtain ⟨m, hm, number, raised⟩ := ih l before
      exact ⟨m, hm, number, raised.mono (List.subset_append_left _ _) fun _ => id⟩
    · rcases exhaust_takes hx fun y hy => e ▸ hl.2 y hy with same | ⟨kind, taken⟩
      · obtain ⟨m, hm, number, sameKind, pupil, _⟩ := from_
        refine ⟨m, hm, number.trans (same.symm.trans e), ?_⟩
        by_cases absent : n.kind = .absent
        · exact .inr (.inl ⟨sameKind.trans absent, k, i, pupil k i to_, last (exhaustedSubject_absent absent k)⟩)
        · exact .inl ⟨sameKind ▸ absent, last (number ▸ exhaustedSubject_other absent k)⟩
      · obtain ⟨absent, slot, _⟩ := isAbsentOf_iff.1 taken
        obtain ⟨j, hj⟩ := isTo_iff.1 slot
        obtain ⟨m, hm, number, sameKind, pupil, _⟩ := h.comesFrom hx
        exact ⟨m, hm, number.trans e,
          .inr (.inl ⟨sameKind.trans absent, k, j, pupil k j hj, last (exhaustedSubject_absent kind k)⟩)⟩
  | @moved t d number f h runsOn ih =>
    intro l hl
    obtain before | ⟨x, hx, e⟩ := hl.before t
    · exact ih l before
    · refine absurd ?_ (hl.2 _ (List.mem_map.2 ⟨x, hx, rfl⟩))
      split
      · rename_i same
        exact (moved_number runsOn x same).trans (same.symm.trans e)
      · exact e
  | issued _ _ _ _ _ _ _ ih => exact ih
  | @ended t d n b h from_ to_ ih =>
    intro l hl
    obtain before | ⟨x, hx, e⟩ := hl.before t
    · obtain ⟨m, hm, number, raised⟩ := ih l before
      exact ⟨m, hm, number, raised.mono (d := d) (fun _ => id) (List.subset_append_left _ _)⟩
    · have same : x.number = n.number := by
        by_contra hne
        refine hl.2 x ?_ e
        rw [endBroadcast_state]
        exact List.mem_filter.2 ⟨hx, decide_eq_true hne⟩
      obtain ⟨m, hm, number, _, _, broadcast⟩ := from_
      exact ⟨m, hm, number.trans (same.symm.trans e),
        .inr (.inr ⟨broadcast b to_, List.mem_append_right _ (List.mem_singleton.2 (congrArg Subject.notice number))⟩)⟩

theorem raisedFor (h : Dispatches s t d) : RaisedFor s t d := by
  induction h with
  | none_ => exact ⟨nofun, nofun⟩
  | @exhausted t d n k i _ from_ to_ ih =>
    obtain ⟨seven, thirteen⟩ := ih.mono (exhaust_numbers n k t)
    refine ⟨fun y hy => ?_, thirteen⟩
    rcases List.mem_append.1 hy with old | last
    · exact seven y old
    · obtain ⟨m, hm, number, kind, pupil, _⟩ := from_
      have gone : ∀ x ∈ (exhaust n k t).notices.queue, x.number ≠ n.number := noticeAt_eq_none_iff.1 (noticeAt_exhaust n k t)
      refine ⟨m, ⟨hm, number ▸ gone⟩, k, i, pupil k i to_, (List.mem_singleton.1 last).trans ?_⟩
      rw [exhaustedSubject, exhaustedSubject, number, kind]
  | @moved t d number f _ runsOn ih => exact ih.mono (updateNotice_numbers (moved_number runsOn) t)
  | issued _ _ _ _ _ _ _ ih => exact ih
  | @ended t d n b _ from_ to_ ih =>
    obtain ⟨seven, thirteen⟩ := ih.mono (endBroadcast_numbers n b t)
    refine ⟨seven, fun y hy => ?_⟩
    rcases List.mem_append.1 hy with old | last
    · exact thirteen y old
    · obtain ⟨m, hm, number, _, _, broadcast⟩ := from_
      refine ⟨m, ⟨hm, fun x hx e => ?_⟩, broadcast b to_, (List.mem_singleton.1 last).trans (congrArg Subject.notice number.symm)⟩
      rw [endBroadcast_state] at hx
      exact of_decide_eq_true (List.mem_filter.1 hx).2 (e.trans number)

/-! ### The whole state -/

/-- The blocks that the Dispatcher's acts touch. -/
theorem state (h : Dispatches s t d) :
    t =
      { s with
        roll := { s.roll with roster := t.roll.roster, census := t.roll.census }
        sweep := t.sweep
        notices :=
          { s.notices with
            queue := t.notices.queue
            window := s.notices.window ++ d.new.map fun r => ⟨r.key, s.time.running, .awaitTake⟩
            lastBroadcast := t.notices.lastBroadcast }
        gateway := { s.gateway with outbound := s.gateway.outbound ++ d.new.map .send }
        attention := t.attention } := by
  have rest := h.rest
  simp only [noticeRest, Prod.mk.injEq] at rest
  obtain ⟨⟨time, day, plan, away, _, _, chime, zone, line⟩, ⟨counter, globalHold, quietEnd, busyEnd, deadline, texts⟩,
    ⟨link, timeouts, pingNumber, nextPing, discarded, frame, inbox, inboxCounter, inboxFull⟩, office, settings, limits, store, power,
    pins, pending⟩ := rest
  dsimp only
  rw [← h.window, ← h.outbound, ← time, ← day, ← plan, ← away, ← chime, ← zone, ← line, ← counter, ← globalHold, ← quietEnd, ← busyEnd,
    ← deadline, ← texts, ← link, ← timeouts, ← pingNumber, ← nextPing, ← discarded, ← frame, ← inbox, ← inboxCounter, ← inboxFull,
    ← office, ← settings, ← limits, ← store, ← power, ← pins, ← pending]

end Dispatches

/-- Settles O40, by the acts that the Dispatcher's work is made of: each touches its own part alone. -/
theorem dispatchTouchesOnlyItsOwn : Obligations.DispatchTouchesOnlyItsOwn := by
  unfold Obligations.DispatchTouchesOnlyItsOwn
  intro s
  obtain ⟨d, h⟩ := settle_dispatched s
  obtain ⟨kept, sublist, runs⟩ := queueRuns_iff.1 h.queueRuns
  obtain ⟨seven, thirteen⟩ := h.raisedFor
  obtain ⟨unended, record⟩ := h.lastBroadcast
  exact ⟨settle s, d.new, d.seven, d.thirteen, kept, rfl, h.state, h.places, h.issuedFor, sublist, runs, ⟨h.leaving, seven, thirteen⟩,
    h.sources, unended, record, (settle_heard (.refl s)).heard, fun _ h7 h13 => h.source_other h7 h13, h.pupils⟩

end Sys2Proof.Machine
end

