-- ==== Sys2Proof/Proofs/TheChoice.lean ====
section
/-! SUPPORT. The choice (R160): the candidate that ranks highest, the SEND record of a pupil notice (R161), the steps of a broadcast (R170),
and the end of a broadcast (R171). -/

namespace Sys2Proof.Machine

variable {s : State} {n m : Notice} {b : BroadcastState}

/-! ### The highest-ranked candidate -/

/-- The order of R160: the higher class, then the earlier created time, then the lower number. -/
theorem ranksAbove_iff (n m : Notice) :
    ranksAbove n m = true ↔
      m.cls < n.cls ∨
        m.cls = n.cls ∧
          (n.createdDate < m.createdDate ∨
            n.createdDate = m.createdDate ∧
              (n.createdTime < m.createdTime ∨ n.createdTime = m.createdTime ∧ n.number < m.number)) := by
  simp only [ranksAbove, Bool.or_eq_true, Bool.and_eq_true, decide_eq_true_eq]

theorem ranksAbove_asymm (h : ranksAbove n m = true) : ranksAbove m n = false := by
  rw [← Bool.not_eq_true, ranksAbove_iff]
  rw [ranksAbove_iff] at h
  unfold SchoolTime Date at *
  omega

/-- The candidate that ranks above every other one is the best. -/
theorem bestCandidate_eq {l : List Notice} (hn : n ∈ l) (candidate : isCandidate s n = true)
    (above : ∀ m ∈ l, isCandidate s m = true → m ≠ n → ranksAbove n m = true) : bestCandidate s l = some n := by
  induction l with
  | nil => nomatch hn
  | cons x l ih =>
    have aboveRest : ∀ m ∈ l, isCandidate s m = true → m ≠ n → ranksAbove n m = true :=
      fun m hm => above m (List.mem_cons_of_mem _ hm)
    by_cases inRest : n ∈ l
    · rw [bestCandidate, ih inRest aboveRest]
      by_cases same : x = n
      · rw [same]
        exact ite_self _
      · refine if_neg fun h => ?_
        obtain ⟨ofX, higher⟩ := Bool.and_eq_true_iff.1 h
        rw [ranksAbove_asymm (above x List.mem_cons_self ofX same)] at higher
        nomatch higher
    · obtain rfl : n = x := (List.mem_cons.1 hn).resolve_right inRest
      rw [bestCandidate]
      cases best : bestCandidate s l with
      | none => exact if_pos candidate
      | some m =>
        obtain ⟨hm, ofM⟩ := bestCandidate_mem best
        exact if_pos (Bool.and_eq_true_iff.2 ⟨candidate, aboveRest m hm ofM fun e => inRest (e ▸ hm)⟩)

/-- No candidate is found where none stands. -/
theorem bestCandidate_none {l : List Notice} (h : bestCandidate s l = none) : ∀ n ∈ l, isCandidate s n = false := by
  induction l with
  | nil => nofun
  | cons x l ih =>
    rw [bestCandidate] at h
    cases best : bestCandidate s l with
    | some m =>
      rw [best] at h
      dsimp only at h
      split at h <;> nomatch h
    | none =>
      rw [best] at h
      dsimp only at h
      split at h
      · nomatch h
      · rename_i no
        exact List.forall_mem_cons.2 ⟨Bool.not_eq_true _ ▸ no, ih best⟩

/-- A notice that no hold keeps back (R157). -/
theorem noticeHeld_false (hold : s.notices.globalHold = true → 7 < n.cls)
    (quiet : s.notices.quietEnd ≠ none → 6 < n.cls) : noticeHeld n s = false := by
  have notHeld : ¬(s.notices.globalHold && 1 ≤ n.cls && n.cls ≤ 7) = true := fun h => by
    obtain ⟨h, low⟩ := Bool.and_eq_true_iff.1 h
    exact absurd (of_decide_eq_true low) (Nat.not_le.2 (hold (Bool.and_eq_true_iff.1 h).1))
  have notQuiet : ¬(s.notices.quietEnd.isSome && 1 ≤ n.cls && n.cls ≤ 6) = true := fun h => by
    obtain ⟨h, low⟩ := Bool.and_eq_true_iff.1 h
    exact absurd (of_decide_eq_true low) (Nat.not_le.2 (quiet (Option.isSome_iff_ne_none.1 (Bool.and_eq_true_iff.1 h).1)))
  rw [noticeHeld, Bool.or_eq_false_iff]
  exact ⟨Bool.not_eq_true _ ▸ notHeld, Bool.not_eq_true _ ▸ notQuiet⟩

theorem isCandidate_pupil {k : Slot} {i : Nat} (free : noticeHeld n s = false) (some_ : n.cls ≠ 0) (ha : n.addressee = .pupil k i) :
    isCandidate s n = !n.inWindow := by
  simp [isCandidate, free, some_, ha]

theorem isCandidate_broadcast (free : noticeHeld n s = false) (some_ : n.cls ≠ 0) (ha : n.addressee = .broadcast b) :
    isCandidate s n = sendLeft n b s := by
  simp [isCandidate, free, some_, ha]

theorem chooseOnce_pupil {k : Slot} {i : Nat} (allowed : sendingAllowed s = true) (place : s.notices.window.length < 4)
    (best : bestCandidate s s.notices.queue = some n) (ha : n.addressee = .pupil k i) :
    chooseOnce s = some (sendPupilNotice n k i s) := by
  unfold chooseOnce
  rw [if_pos ⟨place, allowed⟩, best]
  dsimp only
  rw [ha]

theorem chooseOnce_broadcast (allowed : sendingAllowed s = true) (place : s.notices.window.length < 4)
    (best : bestCandidate s s.notices.queue = some n) (ha : n.addressee = .broadcast b) :
    chooseOnce s = some (finishBroadcasts (sendBroadcast n b s)) := by
  unfold chooseOnce
  rw [if_pos ⟨place, allowed⟩, best]
  dsimp only
  rw [ha]

/-! ### A pupil notice sent -/

theorem sendText_eq (n : Notice) (s : State) : sendText n s = (n.textSlot.map fun k => s.notices.texts.getD k []).getD [] := by
  unfold sendText
  cases n.textSlot <;> rfl

/-- The window and the outbound queue after a SEND record is issued for a notice that has moved on by `f` (R161). -/
theorem issueSend_moved (n : Notice) (f : Notice → Notice) (k : Slot) (i : Nat) (p : Pupil) (c : Contact) (s : State) :
    issueSend n k i p c (updateNotice n.number f s) =
      { s with
        notices :=
          { s.notices with
            queue := s.notices.queue.map fun m => if m.number = n.number then f m else m
            window := s.notices.window ++ [⟨⟨n.number, k, i⟩, s.time.running, .awaitTake⟩] }
        gateway :=
          { s.gateway with
            outbound :=
              s.gateway.outbound ++
                [.send
                  ⟨⟨n.number, k, i⟩, n.kind, p.enrolment.reference, c.id, c.channel,
                    if n.kind = .late ∨ n.kind = .arrived then p.day.arrival else none,
                    (n.textSlot.map fun k => s.notices.texts.getD k []).getD []⟩] } } := by
  rw [issueSend_eq, sendRecordOf, sendText_eq]
  rfl

theorem sendPupilNotice_sent {k : Slot} {i : Nat} {p : Pupil} {c : Contact} (hp : pupilAt k s = some p)
    (hc : p.enrolment.contacts[i]? = some c) :
    sendPupilNotice n k i s = issueSend n k i p c (updateNotice n.number (fun x => { x with inWindow := true }) s) := by
  unfold sendPupilNotice
  rw [hp]
  dsimp only
  rw [hc]

theorem sendPupilNotice_exhausted {k : Slot} {i : Nat} (h : ∀ p, pupilAt k s = some p → p.enrolment.contacts.length ≤ i) :
    sendPupilNotice n k i s = exhaust n k s := by
  unfold sendPupilNotice
  cases hp : pupilAt k s with
  | none => rfl
  | some p =>
    dsimp only
    rw [List.getElem?_eq_none (h p hp)]

/-! ### The steps of a broadcast -/

theorem updateBroadcast_twice (number : Nat) (f g : BroadcastState → BroadcastState) (s : State) :
    updateBroadcast number g (updateBroadcast number f s) = updateBroadcast number (g ∘ f) s := by
  have once (f : BroadcastState → BroadcastState) (s : State) : updateBroadcast number f s = updateNotice number (ofBroadcast f) s := rfl
  have both (x : Notice) : ofBroadcast g (ofBroadcast f x) = ofBroadcast (g ∘ f) x := by
    cases ha : x.addressee with
    | pupil k i => simp [ofBroadcast, ha]
    | broadcast b => simp [ofBroadcast, ha]
  rw [once, once, once]
  unfold updateNotice
  dsimp only
  rw [List.map_map]
  refine congrArg (fun q : List Notice => { s with notices := { s.notices with queue := q } }) (List.map_congr_left fun x _ => ?_)
  by_cases h : x.number = number
  · simp only [Function.comp_apply, if_pos h, ofBroadcast_number, both]
  · simp only [Function.comp_apply, if_neg h]

/-- A broadcast's own state changed, where it is the one notice of its number. -/
theorem updateBroadcast_eq (one : (s.notices.queue.map (·.number)).Nodup) (hn : n ∈ s.notices.queue) (ha : n.addressee = .broadcast b)
    (f : BroadcastState → BroadcastState) :
    updateBroadcast n.number f s = updateNotice n.number (fun m => { m with addressee := .broadcast (f b) }) s := by
  refine congrArg (fun q : List Notice => { s with notices := { s.notices with queue := q } }) (List.map_congr_left fun m hm => ?_)
  split
  · rename_i h
    obtain rfl := List.inj_on_of_nodup_map one hm hn h
    exact ofBroadcast_broadcast ha
  · rfl

theorem sendStep_sent {k : Slot} {i : Nat} {p : Pupil} {c : Contact} (hp : pupilAt k s = some p)
    (hc : p.enrolment.contacts[i]? = some c) :
    sendStep n k i s = issueSend n k i p c (updateBroadcast n.number (fun b => { b with sent := satInc b.sent }) s) := by
  unfold sendStep
  rw [hp]
  dsimp only
  rw [hc]

/-- A broadcast's step sent once its state has moved on by `f`: the sent count rises by one (R170). -/
theorem sendStep_moved (one : (s.notices.queue.map (·.number)).Nodup) (hn : n ∈ s.notices.queue) (ha : n.addressee = .broadcast b)
    (f : BroadcastState → BroadcastState) {k : Slot} {i : Nat} {p : Pupil} {c : Contact} (hp : pupilAt k s = some p)
    (hc : p.enrolment.contacts[i]? = some c) :
    sendStep n k i (updateBroadcast n.number f s) =
      issueSend n k i p c
        (updateNotice n.number (fun m => { m with addressee := .broadcast { f b with sent := min ((f b).sent + 1) 65535 } }) s) := by
  rw [sendStep_sent (s := updateBroadcast n.number f s) hp hc, updateBroadcast_twice, updateBroadcast_eq one hn ha]
  rfl

theorem sendStep_dropped {k : Slot} {i : Nat} (h : ∀ p, pupilAt k s = some p → p.enrolment.contacts.length ≤ i) :
    sendStep n k i s = s := by
  unfold sendStep
  cases hp : pupilAt k s with
  | none => rfl
  | some p =>
    dsimp only
    rw [List.getElem?_eq_none (h p hp)]

theorem sendBroadcast_returned {k : Slot} {i : Nat} {rest : List (Slot × Nat)} (h : b.returned = (k, i) :: rest) :
    sendBroadcast n b s = sendStep n k i (updateBroadcast n.number (fun b => { b with returned := rest }) s) := by
  unfold sendBroadcast
  rw [h]

theorem sendBroadcast_next {k : Slot} {i : Nat} (h : b.returned = []) (next : nextStep b s.roll.roster = some (k, i)) :
    sendBroadcast n b s = sendStep n k i (updateBroadcast n.number (fun b => pastStep b k i) s) := by
  unfold sendBroadcast
  rw [h]
  dsimp only
  rw [next]

/-- A record of the roster offers a broadcast's walk a step (R170). -/
def RecordOffers (b : BroadcastState) (e : Slot × Pupil) : Prop :=
  b.cursorSlot ≤ e.1 ∧ b.mask.contains e.2.enrolment.cohort = true ∧ walkPosition b e.1 < e.2.enrolment.contacts.length ∧
    (b.reach = .all ∨ walkPosition b e.1 = 0)

theorem nextStep_cons_offers {e : Slot × Pupil} (h : RecordOffers b e) (l : List (Slot × Pupil)) :
    nextStep b (e :: l) = some (e.1, walkPosition b e.1) := if_pos h

theorem nextStep_cons_not {e : Slot × Pupil} (h : ¬RecordOffers b e) (l : List (Slot × Pupil)) : nextStep b (e :: l) = nextStep b l :=
  if_neg h

theorem nextStep_none {l : List (Slot × Pupil)} (h : nextStep b l = none) : ∀ e ∈ l, ¬RecordOffers b e := by
  induction l with
  | nil => exact List.forall_mem_nil _
  | cons x l ih =>
    by_cases offers : RecordOffers b x
    · exact nomatch (nextStep_cons_offers offers l).symm.trans h
    · exact List.forall_mem_cons.2 ⟨offers, ih ((nextStep_cons_not offers l).symm.trans h)⟩

/-- The step found is that of the first record that offers one. -/
theorem nextStep_some {l : List (Slot × Pupil)} {k : Slot} {i : Nat} (sorted : (l.map Prod.fst).Pairwise (· < ·))
    (h : nextStep b l = some (k, i)) :
    ∃ p, (k, p) ∈ l ∧ RecordOffers b (k, p) ∧ i = walkPosition b k ∧ ∀ e ∈ l, e.1 < k → ¬RecordOffers b e := by
  induction l with
  | nil => nomatch h
  | cons x l ih =>
    obtain ⟨least, sortedRest⟩ := List.pairwise_cons.1 sorted
    by_cases offers : RecordOffers b x
    · cases (nextStep_cons_offers offers l).symm.trans h
      refine ⟨x.2, List.mem_cons_self, offers, rfl, fun e he lower => ?_⟩
      rcases List.mem_cons.1 he with rfl | he
      · exact absurd lower (Nat.lt_irrefl _)
      · exact absurd lower (Nat.lt_asymm (least e.1 (List.mem_map_of_mem he)))
    · obtain ⟨p, hp, ofP, place, before⟩ := ih sortedRest ((nextStep_cons_not offers l).symm.trans h)
      exact ⟨p, List.mem_cons_of_mem _ hp, ofP, place, List.forall_mem_cons.2 ⟨fun _ => offers, before⟩⟩

theorem offersStep_iff (hs : RollOk s) {k : Slot} : OffersStep b s k ↔ ∃ p, (k, p) ∈ s.roll.roster ∧ RecordOffers b (k, p) := by
  unfold OffersStep RecordOffers
  simp only [List.contains_iff_mem]
  constructor
  · rintro ⟨reached, p, hp, rest⟩
    exact ⟨p, mem_of_tableGet hp, reached, rest⟩
  · rintro ⟨p, hp, reached, rest⟩
    exact ⟨reached, p, tableGet_of_mem hs.wf hp, rest⟩

theorem nextStep_isNone_iff (hs : RollOk s) : nextStep b s.roll.roster = none ↔ ∀ k, ¬OffersStep b s k := by
  simp only [offersStep_iff hs, not_exists, not_and]
  constructor
  · exact fun h k p hp => nextStep_none h (k, p) hp
  · intro h
    cases next : nextStep b s.roll.roster with
    | none => rfl
    | some e =>
      obtain ⟨p, hp, offers, _⟩ := nextStep_some hs.wf next
      exact absurd offers (h e.1 p hp)

/-- The step at the cursor names a contact of an ENROLLED pupil. -/
theorem nextStep_contact (hs : RollOk s) {k : Slot} {i : Nat} (h : nextStep b s.roll.roster = some (k, i)) :
    ∃ p c, pupilAt k s = some p ∧ p.enrolment.contacts[i]? = some c := by
  obtain ⟨p, hp, ⟨_, _, inList, _⟩, place, _⟩ := nextStep_some hs.wf h
  subst place
  exact ⟨p, _, tableGet_of_mem hs.wf hp, List.getElem?_eq_getElem inList⟩

theorem nextStep_eq (hs : RollOk s) {k : Slot} {i : Nat} (h : NextStep b s k i) : nextStep b s.roll.roster = some (k, i) := by
  obtain ⟨offers, place, first⟩ := h
  cases next : nextStep b s.roll.roster with
  | none => exact absurd offers ((nextStep_isNone_iff hs).1 next k)
  | some e =>
    obtain ⟨j, l⟩ := e
    obtain ⟨p, hp, ofP, placed, before⟩ := nextStep_some hs.wf next
    obtain ⟨q, hq, ofQ⟩ := (offersStep_iff hs).1 offers
    obtain rfl : j = k := by
      refine Nat.le_antisymm (Nat.le_of_not_lt fun lower => before _ hq lower ofQ) (Nat.le_of_not_lt fun lower => ?_)
      exact first j lower ((offersStep_iff hs).2 ⟨p, hp, ofP⟩)
    rw [place, placed]

theorem sendLeft_iff (hs : RollOk s) : sendLeft n b s = true ↔ HasSendLeft n b s := by
  have walk : (nextStep b s.roll.roster).isSome = true ↔ ∃ k, OffersStep b s k := by
    rw [Option.isSome_iff_ne_none, ne_eq, nextStep_isNone_iff hs]
    simp only [not_forall, not_not]
  unfold sendLeft HasSendLeft
  rw [Bool.and_eq_true, Bool.and_eq_true, Bool.or_eq_true, walk, Bool.not_eq_true', Bool.not_eq_true', Bool.not_eq_true',
    List.isEmpty_eq_false_iff, and_assoc]

/-! ### The end of a broadcast -/

/-- A broadcast that has no send left and none in the window (R171). -/
def Finished (s : State) (n : Notice) : Prop :=
  ∃ b, n.addressee = .broadcast b ∧ ¬HasSendLeft n b s ∧ ∀ x ∈ s.notices.window, x.key.number ≠ n.number

theorem hasSend_iff (number : Nat) (s : State) : hasSend number s = true ↔ ∃ x ∈ s.notices.window, x.key.number = number := by
  simp only [hasSend, List.any_eq_true, decide_eq_true_eq]

theorem finishBroadcast_ends (hs : RollOk s) (ha : n.addressee = .broadcast b) (h : Finished s n) :
    finishBroadcast s n = endBroadcast n b s := by
  obtain ⟨c, hc, noSend, noneOut⟩ := h
  obtain rfl : b = c := Addressee.broadcast.inj (ha.symm.trans hc)
  unfold finishBroadcast
  rw [ha]
  refine if_neg fun y => ?_
  rcases Bool.or_eq_true_iff.1 y with y | y
  · exact noSend ((sendLeft_iff hs).1 y)
  · obtain ⟨x, hx, e⟩ := (hasSend_iff _ s).1 y
    exact noneOut x hx e

theorem finishBroadcast_stays (hs : RollOk s) (h : ¬Finished s n) : finishBroadcast s n = s := by
  unfold finishBroadcast
  cases ha : n.addressee with
  | pupil k i => rfl
  | broadcast b =>
    refine if_pos (Bool.or_eq_true_iff.2 (or_iff_not_imp_left.2 fun noSend => (hasSend_iff _ s).2 ?_))
    by_contra noneOut
    exact h ⟨b, ha, fun y => noSend ((sendLeft_iff hs).2 y), fun x hx e => noneOut ⟨x, hx, e⟩⟩

theorem finished_congr {t : State} (roll : t.roll = s.roll) (window : t.notices.window = s.notices.window) :
    Finished t n ↔ Finished s n := by
  have pupil (k : Slot) : pupilAt k t = pupilAt k s := pupilAt_congr (congrArg _ roll) k
  unfold Finished HasSendLeft OffersStep
  simp only [pupil, window]

theorem finishBroadcasts_stay (hs : RollOk s) {l : List Notice} (h : ∀ n ∈ l, ¬Finished s n) : l.foldl finishBroadcast s = s := by
  induction l with
  | nil => rfl
  | cons n l ih =>
    obtain ⟨first, rest⟩ := List.forall_mem_cons.1 h
    rw [List.foldl_cons, finishBroadcast_stays hs first, ih rest]

/-- Where one broadcast alone is finished, it alone ends. -/
theorem finishBroadcasts_one (hs : RollOk s) (nodup : s.notices.queue.Nodup) (hn : n ∈ s.notices.queue)
    (ha : n.addressee = .broadcast b) (finished : Finished s n) (others : ∀ m ∈ s.notices.queue, m ≠ n → ¬Finished s m) :
    finishBroadcasts s = endBroadcast n b s := by
  obtain ⟨front, back, split⟩ := List.append_of_mem hn
  rw [split] at nodup others
  have apart : ∀ m ∈ front ++ back, m ≠ n := fun m hm e =>
    (List.nodup_cons.1 (List.nodup_middle.1 nodup)).1 (e ▸ hm)
  have unfinished : ∀ m ∈ front ++ back, ¬Finished s m := fun m hm => by
    refine others m ?_ (apart m hm)
    rcases List.mem_append.1 hm with hm | hm
    · exact List.mem_append_left _ hm
    · exact List.mem_append_right _ (List.mem_cons_of_mem _ hm)
  have roll : (endBroadcast n b s).roll = s.roll := by rw [endBroadcast_state]
  have window : (endBroadcast n b s).notices.window = s.notices.window := by rw [endBroadcast_state]
  have after : RollOk (endBroadcast n b s) := hs.congr (congrArg _ roll) (congrArg _ roll)
  unfold finishBroadcasts
  rw [split, List.foldl_append, List.foldl_cons, finishBroadcasts_stay hs fun m hm => unfinished m (List.mem_append_left _ hm),
    finishBroadcast_ends hs ha finished,
    finishBroadcasts_stay after fun m hm h => unfinished m (List.mem_append_right _ hm) ((finished_congr roll window).1 h)]

/-- A broadcast that ends: it leaves the queue with its record and attention BROADCAST, and a PAUSED sweep is RUNNING (R145, R171). -/
theorem endBroadcast_eq (hn : n ∈ s.notices.queue) (b : BroadcastState) :
    endBroadcast n b s =
      { s with
        sweep := { s.sweep with state := if s.sweep.state = .paused then .running else s.sweep.state }
        notices :=
          { s.notices with
            queue := s.notices.queue.filter (·.number ≠ n.number)
            lastBroadcast := some ⟨n.number, n.kind, b.sent, b.delivered, b.failed, broadcastEnding n b⟩ }
        attention := (raise .broadcast (some (.notice n.number)) s).attention } := by
  obtain ⟨m, hm⟩ : ∃ m, noticeAt n.number s = some m :=
    Option.ne_none_iff_exists'.1 fun none_ => noticeAt_eq_none_iff.1 none_ n hn rfl
  obtain ⟨heard, _⟩ := removeNotice_sweep hm
  unfold SweepHeard at heard
  rw [endBroadcast_state, heard]
  simp only [and_true]

end Sys2Proof.Machine
end

