-- ==== Sys2Proof/Proofs/TheChoiceEnds.lean ====
section
/-! PROOF. The choice is made until no candidate is left: each fills a place, removes a notice or drops a returned step (R159, R160); and
what one choice does, and what the end of a broadcast leaves (R161, R164, R170, R171). -/

namespace Sys2Proof.Machine

variable {s t u : State} {n m : Notice} {b : BroadcastState}

/-! ### What the choice has left to do -/

/-- The returned steps of a notice, each as the notice's number and a place below their count. -/
def returnedPlaces (n : Notice) : List (Nat × Nat) :=
  match n.addressee with
  | .pupil _ _ => []
  | .broadcast b => (List.range b.returned.length).map (n.number, ·)

theorem mem_returnedPlaces {x : Nat × Nat} :
    x ∈ returnedPlaces n ↔ ∃ b, n.addressee = .broadcast b ∧ x.1 = n.number ∧ x.2 < b.returned.length := by
  unfold returnedPlaces
  cases n.addressee with
  | pupil k i => simp
  | broadcast b => simp [Prod.ext_iff, eq_comm, and_comm]

/-- The returned steps of a queue, those of one number counted once. -/
def stepsLeft (s : State) : Finset (Nat × Nat) := (s.notices.queue.flatMap returnedPlaces).toFinset

theorem mem_stepsLeft {x : Nat × Nat} :
    x ∈ stepsLeft s ↔ ∃ n ∈ s.notices.queue, ∃ b, n.addressee = .broadcast b ∧ x.1 = n.number ∧ x.2 < b.returned.length := by
  rw [stepsLeft, List.mem_toFinset, List.mem_flatMap]
  simp only [mem_returnedPlaces]

theorem stepsLeft_card (few : ∀ n ∈ s.notices.queue, ∀ b, n.addressee = .broadcast b → b.returned.length ≤ 4) :
    (stepsLeft s).card ≤ s.notices.queue.length * 4 := by
  refine (List.toFinset_card_le _).trans ?_
  rw [List.length_flatMap]
  refine (List.sum_le_card_nsmul _ 4 fun k hk => ?_).trans (by rw [List.length_map, smul_eq_mul])
  obtain ⟨n, hn, rfl⟩ := List.mem_map.1 hk
  unfold returnedPlaces
  cases ha : n.addressee with
  | pupil k i => exact Nat.zero_le _
  | broadcast b => simpa using few n hn b ha

/-- The choices that can still be made: notices to remove, returned steps to drop, places to fill. -/
def choicesLeft (s : State) : Nat := s.notices.queue.length + (stepsLeft s).card + (4 - s.notices.window.length)

/-- From `s` to `t` no notice, no returned step and no place has come. -/
structure NoMoreLeft (s t : State) : Prop where
  queue : t.notices.queue.length ≤ s.notices.queue.length
  steps : stepsLeft t ⊆ stepsLeft s
  window : s.notices.window.length ≤ t.notices.window.length

namespace NoMoreLeft

theorem refl (s : State) : NoMoreLeft s s := ⟨Nat.le_refl _, Finset.Subset.refl _, Nat.le_refl _⟩

theorem trans (h : NoMoreLeft s t) (g : NoMoreLeft t u) : NoMoreLeft s u :=
  ⟨g.queue.trans h.queue, g.steps.trans h.steps, h.window.trans g.window⟩

theorem le (h : NoMoreLeft s t) : choicesLeft t ≤ choicesLeft s := by
  have queue := h.queue
  have steps := Finset.card_le_card h.steps
  have window := h.window
  unfold choicesLeft
  omega

theorem removed (h : NoMoreLeft s t) (less : t.notices.queue.length < s.notices.queue.length) : choicesLeft t < choicesLeft s := by
  have steps := Finset.card_le_card h.steps
  have window := h.window
  unfold choicesLeft
  omega

theorem dropped (h : NoMoreLeft s t) (less : stepsLeft t ⊂ stepsLeft s) : choicesLeft t < choicesLeft s := by
  have queue := h.queue
  have steps := Finset.card_lt_card less
  have window := h.window
  unfold choicesLeft
  omega

theorem filled (h : NoMoreLeft s t) (place : s.notices.window.length < 4)
    (more : s.notices.window.length < t.notices.window.length) : choicesLeft t < choicesLeft s := by
  have queue := h.queue
  have steps := Finset.card_le_card h.steps
  unfold choicesLeft
  omega

theorem foldl {α : Type} {f : State → α → State} (hf : ∀ s x, NoMoreLeft s (f s x)) (l : List α) (s : State) :
    NoMoreLeft s (l.foldl f s) := by
  induction l generalizing s with
  | nil => exact refl s
  | cons x l ih => exact (hf s x).trans (ih _)

/-- Every notice of the queue stood in it before, with its number and addressee. -/
theorem of_from (queue : t.notices.queue.length ≤ s.notices.queue.length)
    (from_ : ∀ m ∈ t.notices.queue, ∃ x ∈ s.notices.queue, x.number = m.number ∧ x.addressee = m.addressee)
    (window : s.notices.window.length ≤ t.notices.window.length) : NoMoreLeft s t := by
  refine ⟨queue, fun x hx => ?_, window⟩
  obtain ⟨m, hm, b, ha, number, place⟩ := mem_stepsLeft.1 hx
  obtain ⟨y, hy, e, ea⟩ := from_ m hm
  exact mem_stepsLeft.2 ⟨y, hy, b, ea.trans ha, number.trans e.symm, place⟩

end NoMoreLeft

/-! ### The single acts -/

theorem exhaust_from_addressees (n : Notice) (k : Slot) (s : State) :
    ∀ m ∈ (exhaust n k s).notices.queue, ∃ x ∈ s.notices.queue, x.number = m.number ∧ x.addressee = m.addressee := by
  intro m hm
  obtain ⟨_, _, other, absent⟩ := exhaust_exhausted n k s
  by_cases kind : n.kind = .absent
  · rw [(absent kind).1] at hm
    obtain ⟨x, hx, rfl⟩ := List.mem_map.1 hm
    refine ⟨x, List.mem_of_mem_filter (List.mem_of_mem_filter hx), ?_⟩
    split <;> exact ⟨rfl, rfl⟩
  · rw [(other kind).2] at hm
    exact ⟨m, List.mem_of_mem_filter hm, rfl, rfl⟩

theorem exhaust_noMoreLeft (n : Notice) (k : Slot) (s : State) : NoMoreLeft s (exhaust n k s) := by
  refine .of_from (exhaust_heard n k (.refl s)).shrinks (exhaust_from_addressees n k s) ?_
  rw [(exhaust_sends n k s).1]

theorem exhaust_shorter (hn : n ∈ s.notices.queue) (k : Slot) :
    (exhaust n k s).notices.queue.length < s.notices.queue.length := by
  obtain ⟨_, _, other, absent⟩ := exhaust_exhausted n k s
  have removed : (s.notices.queue.filter (·.number ≠ n.number)).length < s.notices.queue.length :=
    List.length_filter_lt_length_iff_exists.2 ⟨n, hn, by simp⟩
  by_cases kind : n.kind = .absent
  · rw [(absent kind).1, List.length_map]
    exact Nat.lt_of_le_of_lt (List.length_filter_le _ _) removed
  · rwa [(other kind).2]

theorem updateBroadcast_length (number : Nat) (f : BroadcastState → BroadcastState) (s : State) :
    (updateBroadcast number f s).notices.queue.length = s.notices.queue.length := List.length_map _

theorem ofBroadcast_addressee {f : BroadcastState → BroadcastState} {c : BroadcastState}
    (h : (ofBroadcast f m).addressee = .broadcast c) : ∃ b, m.addressee = .broadcast b ∧ c = f b := by
  cases ha : m.addressee with
  | pupil k i => simp [ofBroadcast, ha] at h
  | broadcast b =>
    rw [ofBroadcast_broadcast ha] at h
    exact ⟨b, rfl, (Addressee.broadcast.inj h).symm⟩

/-- What stands in the queue after a broadcast's own state changed. -/
theorem mem_updateBroadcast {number : Nat} {f : BroadcastState → BroadcastState} (hm : m ∈ (updateBroadcast number f s).notices.queue) :
    ∃ x ∈ s.notices.queue, x.number = m.number ∧ ∀ c, m.addressee = .broadcast c →
      ∃ b, x.addressee = .broadcast b ∧ c = if m.number = number then f b else b := by
  obtain ⟨x, hx, e⟩ : ∃ x ∈ s.notices.queue, (if x.number = number then ofBroadcast f x else x) = m := List.mem_map.1 hm
  refine ⟨x, hx, ?_⟩
  split at e
  · rename_i same
    subst e
    rw [ofBroadcast_number]
    simp only [same, if_true, true_and]
    exact fun c => ofBroadcast_addressee
  · rename_i other
    subst e
    exact ⟨rfl, fun c hc => ⟨c, hc, (if_neg other).symm⟩⟩

theorem updateBroadcast_noMoreLeft (number : Nat) {f : BroadcastState → BroadcastState}
    (hf : ∀ b, (f b).returned.length ≤ b.returned.length) (s : State) : NoMoreLeft s (updateBroadcast number f s) := by
  refine ⟨Nat.le_of_eq (updateBroadcast_length _ _ s), fun x hx => ?_, Nat.le_refl _⟩
  obtain ⟨m, hm, c, hc, e, place⟩ := mem_stepsLeft.1 hx
  obtain ⟨y, hy, same, back⟩ := mem_updateBroadcast hm
  obtain ⟨b, hb, moved⟩ := back c hc
  refine mem_stepsLeft.2 ⟨y, hy, b, hb, e.trans same.symm, Nat.lt_of_lt_of_le place ?_⟩
  rw [moved]
  split
  · exact hf b
  · exact Nat.le_refl _

theorem issueSend_noMoreLeft (n : Notice) (k : Slot) (i : Nat) (p : Pupil) (c : Contact) (s : State) :
    NoMoreLeft s (issueSend n k i p c s) :=
  .of_from (Nat.le_refl _) (fun m hm => ⟨m, hm, rfl, rfl⟩) (by rw [issueSend_eq, List.length_append]; exact Nat.le_add_right _ _)

theorem issueSend_fills (n : Notice) (k : Slot) (i : Nat) (p : Pupil) (c : Contact) (s : State) :
    s.notices.window.length < (issueSend n k i p c s).notices.window.length := by
  rw [issueSend_eq, List.length_append]
  exact Nat.lt_succ_self _

theorem endBroadcast_noMoreLeft (n : Notice) (b : BroadcastState) (s : State) : NoMoreLeft s (endBroadcast n b s) := by
  rw [endBroadcast_state]
  exact .of_from (List.length_filter_le _ _) (fun m hm => ⟨m, List.mem_of_mem_filter hm, rfl, rfl⟩) (Nat.le_refl _)

theorem finishBroadcast_noMoreLeft (s : State) (n : Notice) : NoMoreLeft s (finishBroadcast s n) := by
  unfold finishBroadcast
  split
  · exact .refl s
  · split
    · exact .refl s
    · exact endBroadcast_noMoreLeft _ _ s

theorem finishBroadcasts_noMoreLeft (s : State) : NoMoreLeft s (finishBroadcasts s) := .foldl finishBroadcast_noMoreLeft _ s

theorem testDeadline_noMoreLeft (s : State) (n : Notice) : NoMoreLeft s (testDeadline s n) := by
  unfold testDeadline
  split
  · exact .refl s
  · split
    · split
      · exact .refl s
      · exact exhaust_noMoreLeft _ _ s
    · split
      · exact .refl s
      · exact updateBroadcast_noMoreLeft _ (fun _ => Nat.zero_le _) s

/-! ### One choice -/

theorem inWindow_noMoreLeft (number : Nat) (s : State) : NoMoreLeft s (updateNotice number (fun x => { x with inWindow := true }) s) := by
  refine .of_from (Nat.le_of_eq (List.length_map _)) (fun m hm => ?_) (Nat.le_refl _)
  obtain ⟨x, hx, rfl⟩ := List.mem_map.1 hm
  refine ⟨x, hx, ?_⟩
  split <;> exact ⟨rfl, rfl⟩

theorem sendPupilNotice_fewer (hn : n ∈ s.notices.queue) (place : s.notices.window.length < 4) (k : Slot) (i : Nat) :
    choicesLeft (sendPupilNotice n k i s) < choicesLeft s := by
  unfold sendPupilNotice
  split
  · exact (exhaust_noMoreLeft n k s).removed (exhaust_shorter hn k)
  · split
    · exact (exhaust_noMoreLeft n k s).removed (exhaust_shorter hn k)
    · refine NoMoreLeft.filled ?_ place (issueSend_fills n k i _ _ (updateNotice n.number (fun x => { x with inWindow := true }) s))
      exact (inWindow_noMoreLeft n.number s).trans (issueSend_noMoreLeft n k i _ _ _)

/-- A step sent fills a place. -/
theorem sendStep_fills {k : Slot} {i : Nat} {p : Pupil} {c : Contact} (hp : pupilAt k s = some p)
    (hc : p.enrolment.contacts[i]? = some c) :
    NoMoreLeft s (sendStep n k i s) ∧ s.notices.window.length < (sendStep n k i s).notices.window.length := by
  rw [sendStep_sent hp hc]
  have counted := updateBroadcast_noMoreLeft n.number (f := fun b => { b with sent := satInc b.sent }) (fun _ => Nat.le_refl _) s
  exact ⟨counted.trans (issueSend_noMoreLeft n k i p c _), issueSend_fills n k i p c _⟩

/-- A step is dropped where it names no contact now. -/
theorem sendStep_cases (n : Notice) (k : Slot) (i : Nat) (s : State) :
    sendStep n k i s = s ∨ ∃ p c, pupilAt k s = some p ∧ p.enrolment.contacts[i]? = some c := by
  cases hp : pupilAt k s with
  | none => exact .inl (sendStep_dropped fun p h => nomatch hp.symm.trans h)
  | some p =>
    cases hc : p.enrolment.contacts[i]? with
    | none => exact .inl (sendStep_dropped fun q hq => Option.some.inj (hp.symm.trans hq) ▸ List.getElem?_eq_none_iff.1 hc)
    | some c => exact .inr ⟨p, c, rfl, hc⟩

theorem pastStep_returned (b : BroadcastState) (k : Slot) (i : Nat) : (pastStep b k i).returned = b.returned := by
  unfold pastStep
  split <;> rfl

/-- A returned step taken from a broadcast is one returned step less of its number. -/
theorem stepTaken_fewer {x : Slot × Nat} {rest : List (Slot × Nat)} (hn : n ∈ s.notices.queue) (ha : n.addressee = .broadcast b)
    (hr : b.returned = x :: rest) :
    NoMoreLeft s (updateBroadcast n.number (fun b => { b with returned := rest }) s) ∧
      stepsLeft (updateBroadcast n.number (fun b => { b with returned := rest }) s) ⊂ stepsLeft s := by
  have length : b.returned.length = rest.length + 1 := by rw [hr, List.length_cons]
  have taken : (n.number, rest.length) ∈ stepsLeft s := mem_stepsLeft.2 ⟨n, hn, b, ha, rfl, by rw [length]; exact Nat.lt_succ_self _⟩
  have subset : stepsLeft (updateBroadcast n.number (fun b => { b with returned := rest }) s) ⊆ stepsLeft s := fun y hy => by
    obtain ⟨m, hm, c, hc, e, place⟩ := mem_stepsLeft.1 hy
    obtain ⟨z, hz, same, back⟩ := mem_updateBroadcast hm
    obtain ⟨d, hd, moved⟩ := back c hc
    rw [moved] at place
    split at place
    · rename_i number
      exact mem_stepsLeft.2 ⟨n, hn, b, ha, e.trans number, by rw [length]; exact Nat.lt_succ_of_lt place⟩
    · exact mem_stepsLeft.2 ⟨z, hz, d, hd, e.trans same.symm, place⟩
  refine ⟨⟨Nat.le_of_eq (updateBroadcast_length _ _ s), subset, Nat.le_refl _⟩, (Finset.ssubset_iff_of_subset subset).2 ⟨_, taken, fun h => ?_⟩⟩
  obtain ⟨m, hm, c, hc, e, place⟩ := mem_stepsLeft.1 h
  obtain ⟨_, _, _, back⟩ := mem_updateBroadcast hm
  obtain ⟨d, _, moved⟩ := back c hc
  rw [moved, if_pos e.symm] at place
  exact Nat.lt_irrefl _ place

theorem sendBroadcast_fewer (hs : RollOk s) (hn : n ∈ s.notices.queue) (place : s.notices.window.length < 4)
    (ha : n.addressee = .broadcast b) (left : sendLeft n b s = true) : choicesLeft (sendBroadcast n b s) < choicesLeft s := by
  cases hr : b.returned with
  | cons x rest =>
    rw [sendBroadcast_returned hr]
    obtain ⟨taken, fewer⟩ := stepTaken_fewer hn ha hr
    rcases sendStep_cases n x.1 x.2 (updateBroadcast n.number (fun b => { b with returned := rest }) s) with dropped | ⟨p, c, hp, hc⟩
    · rw [dropped]
      exact taken.dropped fewer
    · obtain ⟨sent, more⟩ := sendStep_fills (n := n) hp hc
      exact (taken.trans sent).filled place more
  | nil =>
    cases next : nextStep b s.roll.roster with
    | none => simp [sendLeft, hr, next] at left
    | some e =>
      obtain ⟨k, i⟩ := e
      obtain ⟨p, c, hp, hc⟩ := nextStep_contact hs next
      rw [sendBroadcast_next hr next]
      have moved := updateBroadcast_noMoreLeft n.number (f := fun b => pastStep b k i)
        (fun b => Nat.le_of_eq (congrArg List.length (pastStep_returned b k i))) s
      obtain ⟨rest, more⟩ := sendStep_fills (n := n) (s := updateBroadcast n.number (fun b => pastStep b k i) s) hp hc
      exact (moved.trans rest).filled place more

/-- Each choice leaves fewer to make (R160). -/
theorem chooseOnce_fewer (hs : RollOk s) (e : chooseOnce s = some t) : choicesLeft t < choicesLeft s := by
  unfold chooseOnce at e
  split at e
  · rename_i may
    obtain ⟨place, _⟩ := may
    split at e
    · nomatch e
    · rename_i n best
      obtain ⟨hn, candidate⟩ := bestCandidate_mem best
      split at e
      · cases e
        exact sendPupilNotice_fewer hn place _ _
      · rename_i b ha
        cases e
        have left : sendLeft n b s = true := by
          unfold isCandidate at candidate
          rw [ha] at candidate
          exact (Bool.and_eq_true_iff.1 candidate).2
        exact Nat.lt_of_le_of_lt (finishBroadcasts_noMoreLeft _).le (sendBroadcast_fewer hs hn place ha left)
  · nomatch e

/-- With fuel for every choice that is left, the choice ends where none can be made. -/
theorem chooseOnce_chooseFuel (hs : RollOk s) {fuel : Nat} (enough : choicesLeft s < fuel) : chooseOnce (chooseFuel fuel s) = none := by
  induction fuel generalizing s with
  | zero => nomatch enough
  | succ fuel ih =>
    unfold chooseFuel
    cases e : chooseOnce s with
    | none => exact e
    | some t =>
      exact ih ((chooseOnce_kept (.refl s) e).roll hs) (Nat.lt_of_lt_of_le (chooseOnce_fewer hs e) (Nat.le_of_lt_succ enough))

/-- After a change no choice is left to make (R159, R160). -/
theorem chooseOnce_settle (hs : RollOk s) (short : s.notices.queue.length ≤ 128)
    (few : ∀ n ∈ s.notices.queue, ∀ b, n.addressee = .broadcast b → b.returned.length ≤ 4) : chooseOnce (settle s) = none := by
  have tested : Kept s (testDeadlines s) :=
    Kept.foldlNotices testDeadline_from (fun _ hn h => testDeadline_kept _ hn h) _ (fun r x _ hn => (x.named hn)) (.refl s)
  have roll := (finishBroadcasts_kept tested).roll hs
  have left := ((NoMoreLeft.foldl testDeadline_noMoreLeft s.notices.queue s).trans (finishBroadcasts_noMoreLeft (testDeadlines s))).le
  refine chooseOnce_chooseFuel roll (Nat.lt_of_le_of_lt left ?_)
  have steps := stepsLeft_card few
  unfold choicesLeft
  omega

/-- Where sending is allowed and a place is free, no choice is left to make only where no candidate is. -/
theorem noCandidate_of_chooseOnce (allowed : sendingAllowed s = true) (place : s.notices.window.length < 4) (h : chooseOnce s = none) :
    ∀ n ∈ s.notices.queue, isCandidate s n = false := by
  refine bestCandidate_none ?_
  cases best : bestCandidate s s.notices.queue with
  | none => rfl
  | some n =>
    cases ha : n.addressee with
    | pupil k i => exact nomatch (chooseOnce_pupil allowed place best ha).symm.trans h
    | broadcast b => exact nomatch (chooseOnce_broadcast allowed place best ha).symm.trans h

/-! ### The obligation -/

/-- Settles O41: the best candidate chosen and sent, the broadcast that ends, and the choices counted down until none is left. -/
theorem theChoiceTakesTheHighestRanked : Obligations.TheChoiceTakesTheHighestRanked := by
  unfold Obligations.TheChoiceTakesTheHighestRanked
  refine ⟨?_, ?_, ?_⟩
  · intro s allowed place first queueWith sent n ⟨hn, some_, hold, quiet, above⟩
    have free := noticeHeld_false (n := n) (s := s) hold quiet
    have best (candidate : isCandidate s n = true) : bestCandidate s s.notices.queue = some n :=
      bestCandidate_eq hn candidate fun m hm ofM other => (ranksAbove_iff n m).2 (above m hm ofM other)
    refine ⟨fun k i p c ha waiting hp hc => ?_, fun k i _ ha waiting beyond => ?_, ?_⟩
    · have chosen := chooseOnce_pupil allowed place (best (by rw [isCandidate_pupil free some_ ha, waiting]; rfl)) ha
      rw [chosen, sendPupilNotice_sent hp hc, issueSend_moved]
    · have chosen := chooseOnce_pupil allowed place (best (by rw [isCandidate_pupil free some_ ha, waiting]; rfl)) ha
      rw [chosen, sendPupilNotice_exhausted beyond]
      exact ⟨_, rfl, exhaust_exhausted n k s⟩
    · intro b ha hs one left moved counted
      have chosen := chooseOnce_broadcast allowed place
        (best (by rw [isCandidate_broadcast free some_ ha]; exact (sendLeft_iff hs).2 left)) ha
      refine ⟨fun k i rest returned => ⟨fun p c hp hc => ?_, fun beyond => ?_⟩, fun none_ k i next => ?_⟩
      · rw [chosen, sendBroadcast_returned returned, sendStep_moved one hn ha _ hp hc, issueSend_moved]
      · rw [chosen, sendBroadcast_returned returned,
          sendStep_dropped (s := updateBroadcast n.number (fun b => { b with returned := rest }) s) beyond, updateBroadcast_eq one hn ha]
        rfl
      · have found := nextStep_eq hs next
        obtain ⟨p, c, hp, hc⟩ := nextStep_contact hs found
        refine ⟨p, c, hp, hc, ?_⟩
        rw [chosen, sendBroadcast_next none_ found, sendStep_moved one hn ha _ hp hc, issueSend_moved]
        rfl
  · intro s one finished hs
    refine ⟨fun none_ => finishBroadcasts_stay hs none_, fun n b hn ha ends others => ?_⟩
    rw [finishBroadcasts_one hs (List.Nodup.of_map _ one) hn ha ends others, endBroadcast_eq hn b]
    rfl
  · intro s allowed hs short few place
    refine noCandidate_of_chooseOnce ?_ place (chooseOnce_settle hs short few)
    obtain ⟨d, h⟩ := settle_dispatched s
    exact h.sendingAllowed_eq.trans allowed

end Sys2Proof.Machine
end

