-- ==== Sys2Proof/Proofs/InboxRequests.lean ====
section
/-! PROOF. INBOX's text form and DISCARD: their checks, the part read, and the messages that leave the Inbox (R188, R189). -/

namespace Sys2Proof.Machine

variable {s : State}

/-! ### The values of the checks -/

theorem badNumber_iff {n : Nat} : (!numberOk n) = true ↔ n < 1 ∨ 65535 < n :=
  (not_iff_of_iff Iff.rfl).trans not_numberOk_iff

/-- No message holds a number (R189). -/
theorem find_message_none_iff {n : Nat} {l : List InboxMessage} :
    l.find? (·.number = n) = none ↔ ∀ m ∈ l, m.number ≠ n := by
  simp only [List.find?_eq_none, decide_eq_true_eq, ne_eq]

theorem any_message_iff {n : Nat} {l : List InboxMessage} :
    l.any (·.number = n) = true ↔ ¬∀ m ∈ l, m.number ≠ n := by
  simp only [List.any_eq_true, decide_eq_true_eq, ne_eq, not_forall, not_not, exists_prop]

/-! ### Refusals -/

theorem inboxText_answers (number part : Nat) (s : State) :
    Answers (checksOf (.inbox (.text number part)) s) s (inbox (.text number part) s) := by
  refine .ite badNumber_iff fun _ => ?_
  cases found : s.gateway.inbox.find? (·.number = number) with
  | none => exact .refused (find_message_none_iff.1 found)
  | some m =>
    have present : ¬∀ m ∈ s.gateway.inbox, m.number ≠ number := fun h => by
      rw [find_message_none_iff.2 h] at found
      nomatch found
    exact .passes present (.ite Iff.rfl fun _ => .ok _ _)

theorem discard_answers (a : DiscardArgs) (s : State) : Answers (checksOf (.discard a) s) s (discard a s) := by
  match a with
  | .read => exact .ok _ _
  | .number n =>
    refine .ite badNumber_iff fun _ => ?_
    by_cases present : s.gateway.inbox.any (·.number = n) = true
    · rw [if_pos present]
      exact .passes (any_message_iff.1 present) (.ok _ _)
    · rw [if_neg present]
      exact .refused (not_not.1 fun h => present (any_message_iff.2 h))

/-! ### Their effects -/

theorem not_badNumber {n : Nat} (low : 1 ≤ n) (high : n ≤ 65535) : ¬(!numberOk n) = true := fun bad =>
  (badNumber_iff.1 bad).elim (Nat.not_lt.2 low) (Nat.not_lt.2 high)

/-- INBOX's text form where none of its checks holds: a part of the text, and the message read (R189). -/
theorem inboxText_taken {m : InboxMessage} {part : Nat} (low : 1 ≤ m.number) (high : m.number ≤ 65535)
    (found : s.gateway.inbox.find? (·.number = m.number) = some m) (inText : part ≤ 3) :
    let bytes := (m.text.drop (80 * part)).take 80
    inbox (.text m.number part) s =
      (setGateway
          (fun g => { g with inbox := g.inbox.map fun x => if x.number = m.number then { x with read := true } else x }) s,
        .ok (.num m.number :: if bytes = [] then [] else [.hex bytes])) := by
  intro bytes
  unfold inbox inboxText
  dsimp only
  rw [if_neg (not_badNumber low high), found]
  dsimp only
  rw [if_neg (Nat.not_lt.2 inText)]
  simp only [List.isEmpty_iff]
  rfl

/-- The messages that stay are as many as before exactly where none leaves. -/
theorem decide_length_filter_eq (keep : InboxMessage → Bool) (l : List InboxMessage) :
    decide ((l.filter keep).length = l.length) = l.all keep := by
  rw [Bool.eq_iff_iff, decide_eq_true_eq, List.length_filter_eq_length_iff, List.all_eq_true]

/-- The messages that leave the Inbox clear the inbox-full flag (R188). -/
theorem removeMessages_eq (keep : InboxMessage → Bool) (s : State) :
    removeMessages keep s =
      { s with
        gateway :=
          { s.gateway with
            inbox := s.gateway.inbox.filter keep
            inboxFull := s.gateway.inboxFull && s.gateway.inbox.all keep } } := by
  rw [← decide_length_filter_eq]
  rfl

/-- DISCARD of a message that the Inbox holds. -/
theorem discard_taken {m : InboxMessage} (low : 1 ≤ m.number) (high : m.number ≤ 65535) (present : m ∈ s.gateway.inbox) :
    discard (.number m.number) s =
      ({ s with
          gateway := { s.gateway with inbox := s.gateway.inbox.filter (·.number ≠ m.number), inboxFull := false } },
        .ok []) := by
  have leaves : (s.gateway.inbox.all fun x => decide (x.number ≠ m.number)) = false :=
    List.all_eq_false.2 ⟨m, present, by simp⟩
  unfold discard
  dsimp only
  rw [if_neg (not_badNumber low high), if_pos (any_message_iff.2 fun none_ => none_ m present rfl), removeMessages_eq, leaves,
    Bool.and_false]

/-- DISCARD READ counts the messages that it removes. -/
theorem discard_read_taken (s : State) :
    discard .read s =
      ({ s with
          gateway :=
            { s.gateway with
              inbox := s.gateway.inbox.filter (!·.read)
              inboxFull := s.gateway.inboxFull && s.gateway.inbox.all (!·.read) } },
        .ok [.num (s.gateway.inbox.countP (·.read))]) := by
  unfold discard
  dsimp only
  rw [removeMessages_eq]

/-- Settles O52: the checks of both requests, then the part read and the messages that leave. -/
theorem inboxMessagesAreReadAndDiscarded : Obligations.InboxMessagesAreReadAndDiscarded := by
  unfold Obligations.InboxMessagesAreReadAndDiscarded
  refine ⟨fun s held => ⟨fun number part => refusedByItsChecks_of rfl held (inboxText_answers number part s),
    fun a => refusedByItsChecks_of rfl held (discard_answers a s)⟩, fun m s held low high found => ⟨fun part inText => ?_, ?_, ?_⟩⟩
  · exact exec_taken rfl held (inboxText_taken low high found inText)
  · exact exec_taken rfl held (discard_taken low high (List.mem_of_find?_eq_some found))
  · exact exec_taken rfl held (discard_read_taken s)

end Sys2Proof.Machine
end

