-- ==== Sys2Proof/Proofs/InboundRecords.lean ====
section
/-! PROOF. The record that a body spells, field by field (R178, R179, R182, R210). -/

namespace Sys2Proof.Machine

variable {b : Text} {k : SendKey} {c : ReplyCode}

/-! ### Numbers as bytes, and back -/

theorem lowFirst_numberLow (b : Text) : lowFirst b.length (numberLow b) = b := by
  induction b with
  | nil => rfl
  | cons x t ih =>
    have first : BitVec.ofNat 8 (numberLow (x :: t)) = x := BitVec.eq_of_toNat_eq (by
      rw [BitVec.toNat_ofNat, numberLow, Nat.add_mul_mod_self_left, Nat.mod_eq_of_lt x.isLt])
    have rest : numberLow (x :: t) / 256 = numberLow t := by
      rw [numberLow, Nat.add_mul_div_left _ _ (by decide), Nat.div_eq_of_lt x.isLt, Nat.zero_add]
    rw [List.length_cons, lowFirst_succ, first, rest, ih]

/-- The bytes of a field are the number read from it, low byte first. -/
theorem lowFirst_numberLow_field {n m : Nat} (h : m + n ≤ b.length) :
    lowFirst n (numberLow ((b.drop m).take n)) = (b.drop m).take n := by
  have length : ((b.drop m).take n).length = n := by
    rw [List.length_take, List.length_drop]
    omega
  have same := lowFirst_numberLow ((b.drop m).take n)
  rwa [length] at same

theorem numberLow_lowFirst {n x : Nat} (h : x < 256 ^ n) : numberLow (lowFirst n x) = x := by
  induction n generalizing x with
  | zero => exact (Nat.lt_one_iff.1 h).symm
  | succ n ih =>
    have rest : x / 256 < 256 ^ n := Nat.div_lt_of_lt_mul (by rwa [Nat.pow_succ'] at h)
    rw [lowFirst_succ, numberLow, ih rest, BitVec.toNat_ofNat]
    exact Nat.mod_add_div x 256

theorem lowFirst_length (n x : Nat) : (lowFirst n x).length = n := by
  rw [lowFirst, List.length_map, List.length_range]

theorem byte_eq_of_toNat {x : Byte} {n : Nat} (h : x.toNat = n) : x = BitVec.ofNat 8 n := by
  rw [← h, BitVec.ofNat_toNat, BitVec.setWidth_eq]

/-- A field that may be absent, one value standing for that, holds its number. -/
theorem getD_absent (n d : Nat) : (if n = d then none else some n).getD d = n := by
  split
  · rename_i h
    exact h.symm
  · rfl

theorem absent_getD {d : Nat} {x : Option Nat} (h : ∀ n, x = some n → n ≠ d) :
    (if x.getD d = d then none else some (x.getD d)) = x := by
  cases x with
  | none => exact if_pos rfl
  | some n => exact if_neg (h n rfl)

/-! ### Send keys -/

theorem keyInFrame_keyOf (h : 5 ≤ b.length) : keyInFrame (keyOf b) = b.take 5 := by
  have number : lowFirst 2 (numberLow (b.take 2)) = b.take 2 := lowFirst_numberLow_field (m := 0) (by omega)
  have slot : lowFirst 2 (numberLow ((b.drop 2).take 2)) = (b.drop 2).take 2 := lowFirst_numberLow_field (by omega)
  have position : lowFirst 1 (numberLow ((b.drop 4).take 1)) = (b.drop 4).take 1 := lowFirst_numberLow_field (by omega)
  unfold keyInFrame keyOf
  rw [number, slot, position, ← List.take_add, ← List.take_add]

theorem keyOf_keyInFrame (h1 : k.number ≤ 65535) (h2 : k.slot < 2048) (h3 : k.position ≤ 2) (rest : Text) :
    keyOf (keyInFrame k ++ rest) = k := by
  have fields : keyOf (keyInFrame k ++ rest) =
      ⟨numberLow (lowFirst 2 k.number), numberLow (lowFirst 2 k.slot), numberLow (lowFirst 1 k.position)⟩ := rfl
  rw [fields, numberLow_lowFirst (Nat.lt_of_le_of_lt h1 (by decide)), numberLow_lowFirst (Nat.lt_trans h2 (by decide)),
    numberLow_lowFirst (Nat.lt_of_le_of_lt h3 (by decide))]

/-- The eight bytes of a RECEIPT's or an OUTCOME's body: kind, send key, word and pad. -/
theorem keyed_body_eq (length : b.length = 7) (pad : b.getD 6 0 = 0) : b = keyInFrame (keyOf b) ++ [b.getD 5 0, 0] := by
  rw [keyInFrame_keyOf (by omega)]
  match b, length with
  | [b0, b1, b2, b3, b4, b5, b6], _ => exact congrArg (fun x => [b0, b1, b2, b3, b4, b5, x]) pad

/-! ### RECEIPT and OUTCOME -/

theorem inboundOf_receipt (b : Text) :
    inboundOf (0x11 :: b) =
      if b.length = 7 ∧ b.getD 6 0 = 0 then (takeAnswerOf (b.getD 5 0).toNat).map (.receipt (keyOf b)) else none := rfl

theorem inboundOf_outcome (b : Text) :
    inboundOf (0x12 :: b) =
      if b.length = 7 ∧ b.getD 6 0 = 0 then
        match (b.getD 5 0).toNat with
        | 1 => some (.outcome (keyOf b) true)
        | 2 => some (.outcome (keyOf b) false)
        | _ => none
      else none := rfl

/-- The body of a RECEIPT holds the byte that its word is read from. -/
theorem receipt_contents {x : Byte} {a : TakeAnswer} (h : takeAnswerOf x.toNat = some a) (k : SendKey) :
    Inbound.contents (.receipt k a) = 0x11 :: (keyInFrame k ++ [x, 0]) := by
  unfold takeAnswerOf at h
  split at h
  · rename_i hx
    cases h
    rw [byte_eq_of_toNat hx]
    rfl
  · rename_i hx
    cases h
    rw [byte_eq_of_toNat hx]
    rfl
  · rename_i hx
    cases h
    rw [byte_eq_of_toNat hx]
    rfl
  · nomatch h

theorem contents_of_inboundOf_receipt {r : Inbound} (h : inboundOf (0x11 :: b) = some r) : 0x11 :: b = r.contents := by
  rw [inboundOf_receipt] at h
  split at h
  · rename_i whole
    obtain ⟨length, pad⟩ := whole
    obtain ⟨a, word, rfl⟩ := Option.map_eq_some_iff.1 h
    rw [receipt_contents word, ← keyed_body_eq length pad]
  · nomatch h

theorem contents_of_inboundOf_outcome {r : Inbound} (h : inboundOf (0x12 :: b) = some r) : 0x12 :: b = r.contents := by
  rw [inboundOf_outcome] at h
  split at h
  · rename_i whole
    obtain ⟨length, pad⟩ := whole
    rw [keyed_body_eq length pad]
    split at h
    · rename_i word
      cases h
      rw [byte_eq_of_toNat word]
      rfl
    · rename_i word
      cases h
      rw [byte_eq_of_toNat word]
      rfl
    · nomatch h
  · nomatch h

/-! ### PONG -/

theorem contents_of_inboundOf_pong {r : Inbound} (h : inboundOf (0x13 :: b) = some r) : 0x13 :: b = r.contents := by
  have pong : inboundOf (0x13 :: b) = if b.length = 1 then some (.pong (b.getD 0 0).toNat) else none := rfl
  rw [pong] at h
  split at h
  · rename_i length
    cases h
    obtain ⟨x, rfl⟩ := List.length_eq_one_iff.1 length
    exact congrArg ([0x13, ·]) (byte_eq_of_toNat rfl)
  · nomatch h

/-! ### REPLY -/

/-- The four bytes of a reply's code and its argument (R210). -/
def codeInFrame : ReplyCode → Text
  | .ill days => [1, BitVec.ofNat 8 days, 0, 0]
  | .appointment back => 2 :: lowFirst 3 (back.getD 0xFFFFFF)
  | .onWay => [3, 0, 0, 0]
  | .text => [4, 0, 0, 0]

/-- The bytes of a reply's body before its text, its kind apart (R210). -/
def replyHead (r : ParentReply) : Text :=
  lowFirst 2 r.contact ++ lowFirst 3 (r.reference.getD 0) ++ codeInFrame r.code ++ lowFirst 2 r.text.length

theorem replyHead_length (r : ParentReply) : (replyHead r).length = 11 := by
  have code : (codeInFrame r.code).length = 4 := by cases r.code <;> rfl
  simp only [replyHead, List.length_append, lowFirst_length, code]

/-- The body of a REPLY: its kind, the fields before the text, the text, and a pad byte that makes it even (R210). -/
theorem reply_contents (r : ParentReply) :
    Inbound.contents (.reply r) =
      0x14 :: (replyHead r ++ r.text ++ if (11 + r.text.length) % 2 = 0 then [0] else []) := by
  have body : Inbound.contents (.reply r) = evened (0x14 :: (replyHead r ++ r.text)) := by
    obtain ⟨contact, reference, code, text⟩ := r
    cases code <;> simp only [Inbound.contents, replyHead, codeInFrame, List.append_assoc] <;> rfl
  have length : (0x14 :: (replyHead r ++ r.text)).length = 11 + r.text.length + 1 := by
    rw [List.length_cons, List.length_append, replyHead_length]
  rw [body, evened, length]
  by_cases even : (11 + r.text.length) % 2 = 0
  · rw [if_pos (by omega), if_pos even]
    rfl
  · rw [if_neg (by omega), if_neg even, List.append_nil]

/-- A reply code is read from its four bytes alone. -/
theorem codeInFrame_of_replyCodeOf {x : Byte} {arg : Text} (length : arg.length = 3) (h : replyCodeOf x.toNat arg = some c) :
    codeInFrame c = x :: arg := by
  have all : lowFirst 3 (numberLow arg) = arg := length ▸ lowFirst_numberLow arg
  have rest : lowFirst 2 (numberLow (arg.drop 1)) = arg.drop 1 := by
    have same := lowFirst_numberLow (arg.drop 1)
    rwa [List.length_drop, length] at same
  unfold replyCodeOf at h
  dsimp only at h
  split at h
  · rename_i hx
    split at h
    · rename_i zero
      cases h
      rw [byte_eq_of_toNat hx]
      rw [zero] at rest
      match arg, length, rest with
      | [days, _, _], _, rest =>
        have first : BitVec.ofNat 8 (numberLow [days]) = days := (byte_eq_of_toNat rfl).symm
        exact congrArg₂ (fun x y => 1 :: x :: y) first rest
    · nomatch h
  · rename_i hx
    cases h
    rw [byte_eq_of_toNat hx]
    exact congrArg (2 :: ·) (Eq.trans (congrArg (lowFirst 3) (getD_absent _ _)) all)
  · rename_i hx
    split at h
    · rename_i zero
      cases h
      rw [byte_eq_of_toNat hx, ← all, zero]
      rfl
    · nomatch h
  · rename_i hx
    split at h
    · rename_i zero
      cases h
      rw [byte_eq_of_toNat hx, ← all, zero]
      rfl
    · nomatch h
  · nomatch h

/-- A reply code in range is read back from its bytes. -/
theorem replyCodeOf_codeInFrame (days : ∀ n, c = .ill n → 1 ≤ n ∧ n ≤ 9) (back : ∀ t, c = .appointment (some t) → t < 86400) :
    ∃ x y z w, codeInFrame c = [x, y, z, w] ∧ replyCodeOf x.toNat [y, z, w] = some c := by
  cases c with
  | ill n =>
    obtain ⟨_, few⟩ := days n rfl
    have read : numberLow (lowFirst 1 n) = n := numberLow_lowFirst (by omega)
    rw [lowFirst_succ] at read
    exact ⟨1, BitVec.ofNat 8 n, 0, 0, rfl, congrArg (some ∘ ReplyCode.ill) read⟩
  | appointment t =>
    have small : t.getD 0xFFFFFF < 256 ^ 3 := by
      cases t with
      | none => decide
      | some t => exact Nat.lt_trans (back t rfl) (by decide)
    have read := numberLow_lowFirst small
    have given := absent_getD (d := 0xFFFFFF) (x := t) fun t h =>
      Nat.ne_of_lt (Nat.lt_trans (back t (h ▸ rfl)) (by decide))
    rw [← numberLow_lowFirst small] at given
    exact ⟨2, _, _, _, rfl, congrArg (fun t => some (ReplyCode.appointment t)) given⟩
  | onWay => exact ⟨3, 0, 0, 0, rfl, rfl⟩
  | text => exact ⟨4, 0, 0, 0, rfl, rfl⟩

theorem codeInFrame_eq_field (h : 9 ≤ b.length)
    (code : replyCodeOf (numberLow ((b.drop 5).take 1)) ((b.drop 6).take 3) = some c) : codeInFrame c = (b.drop 5).take 4 := by
  have first : (b.drop 5).take 1 = [b.getD 5 0] := by
    rw [List.take_one_drop_eq_of_lt_length (show 5 < b.length by omega), List.getD_eq_getElem b 0 (show 5 < b.length by omega)]
    rfl
  have read : numberLow ((b.drop 5).take 1) = (b.getD 5 0).toNat := by
    rw [first]
    rfl
  have arg : ((b.drop 6).take 3).length = 3 := by
    rw [List.length_take, List.length_drop]
    omega
  rw [read] at code
  rw [codeInFrame_of_replyCodeOf arg code, List.take_add (i := 1) (j := 3), first, List.drop_drop]
  rfl

/-- The fields of a REPLY that are read stand before its text, one after another. -/
theorem replyHead_eq_field {n : Nat} {reference : Option Nat} (long : 11 + n ≤ b.length)
    (length : numberLow ((b.drop 9).take 2) = n) (given : reference.getD 0 = numberLow ((b.drop 2).take 3))
    (code : replyCodeOf (numberLow ((b.drop 5).take 1)) ((b.drop 6).take 3) = some c) :
    replyHead ⟨numberLow (b.take 2), reference, c, (b.drop 11).take n⟩ ++ (b.drop 11).take n = b.take (11 + n) := by
  have contact : lowFirst 2 (numberLow (b.take 2)) = b.take 2 := lowFirst_numberLow_field (m := 0) (by omega)
  have reference : lowFirst 3 (numberLow ((b.drop 2).take 3)) = (b.drop 2).take 3 := lowFirst_numberLow_field (by omega)
  have lengthBytes : lowFirst 2 n = (b.drop 9).take 2 := length ▸ lowFirst_numberLow_field (by omega)
  have text : ((b.drop 11).take n).length = n := by
    rw [List.length_take, List.length_drop]
    omega
  rw [replyHead, given, text, contact, reference, codeInFrame_eq_field (by omega) code, lengthBytes, ← List.take_add,
    ← List.take_add, ← List.take_add, ← List.take_add]

theorem contents_of_replyOf {r : Inbound} (h : replyOf b = some r) : 0x14 :: b = r.contents := by
  unfold replyOf at h
  dsimp only at h
  generalize length : numberLow ((b.drop 9).take 2) = n at h
  split at h
  · rename_i whole
    obtain ⟨c, code, rfl⟩ := Option.map_eq_some_iff.1 h
    have long : 11 + n ≤ b.length := by omega
    have text : ((b.drop 11).take n).length = n := by
      rw [List.length_take, List.length_drop]
      omega
    rw [reply_contents, replyHead_eq_field long length (getD_absent _ _) code, text]
    refine congrArg (0x14 :: ·) ?_
    obtain ⟨odd, last⟩ | ⟨even, last, pad⟩ := whole
    · rw [if_neg (by omega), List.append_nil, ← last, List.take_length]
    · rw [if_pos even, show 11 + n = b.length - 1 by omega, ← List.dropLast_eq_take]
      exact (List.dropLast_append_getLast? 0 pad).symm
  · nomatch h

/-- The fields of a REPLY, each in its bytes (R210). -/
theorem replyOf_fields (contact reference n : Nat) (x y z w : Byte) (rest : Text) :
    let b := lowFirst 2 contact ++ lowFirst 3 reference ++ [x, y, z, w] ++ lowFirst 2 n ++ rest
    let m := numberLow (lowFirst 2 n)
    let ref := numberLow (lowFirst 3 reference)
    replyOf b =
      if (11 + m) % 2 = 1 ∧ b.length = 11 + m ∨ (11 + m) % 2 = 0 ∧ b.length = 12 + m ∧ b.getLast? = some 0 then
        (replyCodeOf x.toNat [y, z, w]).map fun c =>
          .reply ⟨numberLow (lowFirst 2 contact), if ref = 0 then none else some ref, c, rest.take m⟩
      else none := rfl

theorem inboundOf_reply_contents {r : ParentReply} (contact : r.contact ≤ 65535)
    (reference : ∀ n, r.reference = some n → 1 ≤ n ∧ n ≤ 999999) (short : r.text.length ≤ 320)
    (days : ∀ n, r.code = .ill n → 1 ≤ n ∧ n ≤ 9) (back : ∀ t, r.code = .appointment (some t) → t < 86400) :
    inboundOf (Inbound.contents (.reply r)) = some (.reply r) := by
  obtain ⟨x, y, z, w, bytes, code⟩ := replyCodeOf_codeInFrame days back
  have small : r.reference.getD 0 < 256 ^ 3 := by
    cases h : r.reference with
    | none => decide
    | some n => exact Nat.lt_of_le_of_lt (reference n h).2 (by decide)
  have readContact : numberLow (lowFirst 2 r.contact) = r.contact := numberLow_lowFirst (by omega)
  have readReference : numberLow (lowFirst 3 (r.reference.getD 0)) = r.reference.getD 0 := numberLow_lowFirst small
  have readLength : numberLow (lowFirst 2 r.text.length) = r.text.length := numberLow_lowFirst (by omega)
  have given : (if r.reference.getD 0 = 0 then none else some (r.reference.getD 0)) = r.reference :=
    absent_getD fun n h => Nat.ne_of_gt (reference n h).1
  have whole (pad : Text) : inboundOf (0x14 :: (replyHead r ++ r.text ++ pad)) =
      if (11 + r.text.length) % 2 = 1 ∧ (replyHead r ++ r.text ++ pad).length = 11 + r.text.length ∨
          (11 + r.text.length) % 2 = 0 ∧ (replyHead r ++ r.text ++ pad).length = 12 + r.text.length ∧
            (replyHead r ++ r.text ++ pad).getLast? = some 0 then
        some (.reply r)
      else none := by
    rw [replyHead, bytes, List.append_assoc (bs := r.text)]
    refine (replyOf_fields ..).trans ?_
    rw [readContact, readReference, readLength, List.take_left, given, code]
    rfl
  rw [reply_contents, whole]
  refine if_pos ?_
  by_cases even : (11 + r.text.length) % 2 = 0
  · rw [if_pos even]
    exact .inr ⟨even, by simp [replyHead_length]; omega, by simp⟩
  · rw [if_neg even, List.append_nil, List.length_append, replyHead_length]
    exact .inl ⟨by omega, rfl⟩

/-! ### Every record -/

theorem keyOk_iff : keyOk k = true ↔ 1 ≤ k.number ∧ k.number ≤ 65535 ∧ k.slot < 2048 ∧ k.position ≤ 2 := by
  simp only [keyOk, Bool.and_eq_true, decide_eq_true_eq, slotOk_iff, and_assoc]

theorem replyCodeOk_iff :
    replyCodeOk c = true ↔ (∀ days, c = .ill days → 1 ≤ days ∧ days ≤ 9) ∧ ∀ t, c = .appointment (some t) → t < 86400 := by
  cases c with
  | ill n => simp [replyCodeOk]
  | appointment back => cases back <;> simp [replyCodeOk, optOk, timeOk_iff]
  | onWay => simp [replyCodeOk]
  | text => simp [replyCodeOk]

/-- The ranges that are tested are those of the fields (R178, R210). -/
theorem inboundOk_iff (r : Inbound) : inboundOk r = true ↔ r.InRange := by
  cases r with
  | receipt k a => exact keyOk_iff
  | outcome k d => exact keyOk_iff
  | pong n => exact decide_eq_true_iff
  | reply r =>
    simp only [inboundOk, Inbound.InRange, contactIdOk, Bool.and_eq_true, decide_eq_true_eq, optOk_iff, referenceOk_iff,
      replyCodeOk_iff]
    tauto

theorem contents_of_inboundOf {r : Inbound} {body : Text} (h : inboundOf body = some r) : body = r.contents := by
  cases body with
  | nil => nomatch h
  | cons kind b =>
    have h' := h
    unfold inboundOf at h'
    dsimp only at h'
    split at h'
    · rename_i hx
      rw [byte_eq_of_toNat hx] at h ⊢
      exact contents_of_inboundOf_receipt h
    · rename_i hx
      rw [byte_eq_of_toNat hx] at h ⊢
      exact contents_of_inboundOf_outcome h
    · rename_i hx
      rw [byte_eq_of_toNat hx] at h ⊢
      exact contents_of_inboundOf_pong h
    · rename_i hx
      rw [byte_eq_of_toNat hx]
      exact contents_of_replyOf h'
    · nomatch h'

theorem inboundOf_contents {r : Inbound} (h : r.InRange) : inboundOf r.contents = some r := by
  cases r with
  | receipt k a =>
    obtain ⟨_, number, slot, position⟩ := h
    have word : ∃ x : Byte, takeAnswerOf x.toNat = some a := by
      cases a
      · exact ⟨1, rfl⟩
      · exact ⟨2, rfl⟩
      · exact ⟨3, rfl⟩
    obtain ⟨x, word⟩ := word
    rw [receipt_contents word, inboundOf_receipt, keyOf_keyInFrame number slot position]
    exact congrArg (Option.map _) word
  | outcome k d =>
    obtain ⟨_, number, slot, position⟩ := h
    have key := keyOf_keyInFrame number slot position
    cases d with
    | true => exact congrArg (fun k => some (Inbound.outcome k true)) (key [1, 0])
    | false => exact congrArg (fun k => some (Inbound.outcome k false)) (key [2, 0])
  | pong n => exact congrArg (some ∘ Inbound.pong) (Nat.mod_eq_of_lt h)
  | reply r =>
    obtain ⟨_, contact, reference, short, days, back⟩ := h
    exact inboundOf_reply_contents contact reference short days back

/-- A body spells a record in range exactly where it is that record's body (R210). -/
theorem inboundOf_iff {r : Inbound} (h : r.InRange) (body : Text) : inboundOf body = some r ↔ body = r.contents :=
  ⟨contents_of_inboundOf, fun e => e ▸ inboundOf_contents h⟩

end Sys2Proof.Machine
end

