-- ==== Sys2Proof/Proofs/GatewayFrames.lean ====
section
/-! PROOF. Frames in both directions: the bytes sent, the bytes received one by one, and the frames discarded (R178, R179, R210). -/

namespace Sys2Proof.Machine

variable {s : State} {b : Byte} {t : Text}

/-! ### Outbound frames -/

theorem keyBytes_eq (k : SendKey) : keyBytes k = keyInFrame k := by
  simp only [keyBytes, keyInFrame, bytesLow_eq]

theorem timeBytes_eq (t : Option SchoolTime) : timeBytes t = lowFirst 3 (t.getD 0xFFFFFF) := by
  cases t with
  | none => rfl
  | some t => exact bytesLow_eq 3 t

/-- An ANSWER's body: the answered record with its reference, then the word. -/
theorem Frame.body_answer (about : Answered) (word : AnswerWord) :
    (Frame.answer about word).body = (Frame.answer about word).contents := by
  have bytes : answeredBytes about =
      match about with
      | .receipt k => [0x11] ++ keyInFrame k
      | .outcome k => [0x12] ++ keyInFrame k
      | .pong n => [0x13, BitVec.ofNat 8 n, 0, 0, 0, 0]
      | .reply c => [0x14] ++ lowFirst 2 c ++ [0, 0, 0] := by
    cases about with
    | receipt k => exact congrArg (0x11 :: ·) (keyBytes_eq k)
    | outcome k => exact congrArg (0x12 :: ·) (keyBytes_eq k)
    | pong n => rfl
    | reply c => exact congrArg (0x14 :: · ++ [0, 0, 0]) (bytesLow_eq 2 c)
  unfold Frame.body Frame.contents
  dsimp only
  rw [bytes]
  cases word <;> rfl

theorem Frame.body_eq_contents (f : Frame) : f.body = f.contents := by
  cases f with
  | send r =>
    obtain ⟨key, kind, reference, contact, channel, arrival, text⟩ := r
    simp only [Frame.body, Frame.contents, timeBytes_eq, bytesLow_eq, List.append_assoc]
    cases kind <;> cases channel <;> rfl
  | ping n => rfl
  | answer about word => exact Frame.body_answer about word

theorem padded0_eq_evened (t : Text) : padded0 t = evened t := by
  unfold padded0 evened
  by_cases odd : t.length % 2 = 1
  · rw [if_pos odd, if_neg (by omega)]
  · rw [if_neg odd, if_pos (by omega)]

/-- A frame sent: its start byte, its length and body, and their check (R210). -/
theorem Frame.bytes_eq (f : Frame) :
    f.bytes = 0x7E :: checkedBytes (BitVec.ofNat 8 ((evened f.contents).length / 2) :: evened f.contents) := by
  unfold Frame.bytes checkedBytes
  dsimp only
  rw [f.body_eq_contents, padded0_eq_evened, check16Bytes_eq]

/-- The Port sends the oldest frame, and nothing while the part is held (R179, R206). -/
theorem outboundBytes_held (held : s.power.held = true) : outboundBytes s = [] := if_pos held

theorem outboundBytes_oldest (held : s.power.held = false) :
    outboundBytes s = match s.gateway.outbound with | [] => [] | f :: _ => f.bytes := by
  unfold outboundBytes
  rw [if_neg (by rw [held]; nofun)]
  cases s.gateway.outbound <;> rfl

/-! ### Frames discarded -/

/-- The record that a frame carries is taken as the command of its row (log 25). -/
theorem exec_command (r : Inbound) (s : State) : exec r.command s = event (takeRecord r) s := by
  cases r <;> rfl

/-- A record with a field out of its range, or one that comes while 16 ANSWER frames wait, is discarded (R178). -/
theorem takeRecord_dropped {r : Inbound} (h : ¬r.InRange ∨ 16 ≤ s.gateway.outbound.countP fun f => f.isAnswer) :
    takeRecord r s = frameDropped s := by
  refine if_pos ?_
  rw [Bool.or_eq_true, not_iff_of_iff (inboundOk_iff r), answersFull, decide_eq_true_eq]
  exact h

theorem frameGap_eq (s : State) : frameGap s = if s.gateway.frame = none then s else frameDropped s := by
  unfold frameGap
  cases s.gateway.frame <;> rfl

/-! ### Bytes received -/

/-- Outside a frame a start byte begins one, and every other is passed over (R178). -/
theorem gatewayByte_start (h : s.gateway.frame = none) :
    gatewayByte b s = if b = 0x7E#8 then { s with gateway := { s.gateway with frame := some [] } } else s := by
  unfold gatewayByte
  rw [h]
  rfl

theorem gatewayByte_short (h : s.gateway.frame = some t)
    (short : (t ++ [b]).length ≠ 2 * ((t ++ [b]).getD 0 0).toNat + 3) :
    gatewayByte b s = { s with gateway := { s.gateway with frame := some (t ++ [b]) } } := by
  unfold gatewayByte
  rw [h]
  exact if_neg short

theorem gatewayByte_whole (h : s.gateway.frame = some t)
    (whole : (t ++ [b]).length = 2 * ((t ++ [b]).getD 0 0).toNat + 3) : gatewayByte b s = frameComplete (t ++ [b]) s := by
  unfold gatewayByte
  rw [h]
  exact if_pos whole

/-- A whole frame with a bad check, or whose body spells no record, is discarded (R178). -/
theorem frameComplete_bad (h : goodCheck t = false ∨ inboundOf ((t.drop 1).take (t.length - 3)) = none) :
    frameComplete t s = frameDropped s := by
  unfold frameComplete
  obtain bad | unknown := h
  · rw [bad]
    rfl
  · rw [unknown]
    exact ite_self _

theorem frameComplete_good {r : Inbound} (check : goodCheck t = true)
    (record : inboundOf ((t.drop 1).take (t.length - 3)) = some r) : frameComplete t s = takeRecord r s := by
  unfold frameComplete
  rw [check, record]
  rfl

/-- Settles O50: the bytes of a frame sent, the body of a record, and the bytes received by what the frame in hand lacks. -/
theorem framesAreAssembled : Obligations.FramesAreAssembled := by
  unfold Obligations.FramesAreAssembled
  refine ⟨Frame.bytes_eq, fun s => ⟨outboundBytes_held, outboundBytes_oldest⟩,
    fun r => ⟨inboundOk_iff r, fun range body => inboundOf_iff range body⟩, fun s held => ?_⟩
  have event_eq {f : State → State} {u : State} (h : f s = u) : event f s = .next u := (event_next held f).trans (congrArg _ h)
  refine ⟨fun r h => ?_, event_eq rfl, event_eq (frameGap_eq s), event_eq rfl, fun b => ⟨fun h => event_eq (gatewayByte_start h), ?_⟩⟩
  · exact (exec_command r s).trans (event_eq (takeRecord_dropped h))
  · rintro t l h rfl
    refine ⟨fun short => event_eq (gatewayByte_short h short), fun whole => ⟨fun bad => ?_, fun check r record => ?_⟩⟩
    · exact event_eq ((gatewayByte_whole h whole).trans (frameComplete_bad bad))
    · rw [exec_command, event_next held]
      exact event_eq ((gatewayByte_whole h whole).trans (frameComplete_good check record))

end Sys2Proof.Machine
end

