-- ==== Sys2Proof/Proofs/RepliesMatched.lean ====
section
/-! PROOF. The pupils a reply is matched to, the range it offers, and why it needs the Inbox (R182, R183, R185). -/

namespace Sys2Proof.Machine

variable {r : ParentReply} {s : State}

/-! ### The match set -/

theorem matchSet_contact (h : ∀ k p, pupilAt k s = some p → r.reference ≠ some p.enrolment.reference) (hs : RollOk s) :
    matchSet r s =
      s.roll.roster.filter fun e => isUnaccountedMark e.2.day.mark && e.2.enrolment.contacts.any (·.id = r.contact) := by
  have named : (s.roll.roster.filter fun e => r.reference = some e.2.enrolment.reference) = [] :=
    List.filter_eq_nil_iff.2 fun e he => by
      rw [decide_eq_true_eq]
      exact h e.1 e.2 (tableGet_of_mem hs.wf he)
  unfold matchSet
  rw [named]

/-- A pupil whose reference the reply gives is the match set, whatever its mark (R182). -/
theorem matchSet_reference {k : Slot} {p : Pupil} (hs : RollOk s) (hp : pupilAt k s = some p)
    (given : r.reference = some p.enrolment.reference)
    (one : ∀ j q, pupilAt j s = some q → q.enrolment.reference = p.enrolment.reference → j = k) :
    (matchSet r s).map Prod.fst = [k] := by
  have named : (k, p) ∈ s.roll.roster.filter fun e => r.reference = some e.2.enrolment.reference :=
    List.mem_filter.2 ⟨mem_of_tableGet hp, decide_eq_true given⟩
  unfold matchSet
  split
  · rename_i h t found
    have head : h ∈ s.roll.roster.filter fun e => r.reference = some e.2.enrolment.reference := found ▸ List.mem_cons_self
    obtain ⟨inRoster, same⟩ := List.mem_filter.1 head
    rw [decide_eq_true_eq, given, Option.some.injEq] at same
    exact congrArg (fun k => [k]) (one h.1 h.2 (tableGet_of_mem hs.wf inRoster) same.symm)
  · rename_i none_
    rw [none_] at named
    nomatch named

theorem matchSet_sublist (r : ParentReply) (s : State) : (matchSet r s).Sublist s.roll.roster := by
  unfold matchSet
  split
  · rename_i h t found
    have head : h ∈ s.roll.roster.filter fun e => r.reference = some e.2.enrolment.reference := found ▸ List.mem_cons_self
    exact List.singleton_sublist.2 (List.mem_of_mem_filter head)
  · exact List.filter_sublist

/-- The matched slots stand in slot order. -/
theorem matched_rising (hs : RollOk s) : ((matchSet r s).map Prod.fst).Pairwise (· < ·) :=
  hs.wf.sublist ((matchSet_sublist r s).map Prod.fst)

theorem matched_nodup (hs : RollOk s) : ((matchSet r s).map Prod.fst).Nodup := (matched_rising hs).imp Nat.ne_of_lt

/-- Each entry of the match set is a pupil of the roll. -/
theorem pupilAt_of_mem_matchSet {e : Slot × Pupil} (hs : RollOk s) (he : e ∈ matchSet r s) : pupilAt e.1 s = some e.2 :=
  tableGet_of_mem hs.wf ((matchSet_sublist r s).subset he)

theorem mem_matched_contact_iff (hs : RollOk s) (h : ∀ k p, pupilAt k s = some p → r.reference ≠ some p.enrolment.reference)
    (k : Slot) :
    k ∈ (matchSet r s).map Prod.fst ↔
      ∃ p, pupilAt k s = some p ∧ isUnaccountedMark p.day.mark = true ∧ ∃ c ∈ p.enrolment.contacts, c.id = r.contact := by
  have member (p : Pupil) : (k, p) ∈ matchSet r s ↔
      (k, p) ∈ s.roll.roster ∧ isUnaccountedMark p.day.mark = true ∧ ∃ c ∈ p.enrolment.contacts, c.id = r.contact := by
    rw [matchSet_contact h hs, List.mem_filter, Bool.and_eq_true, List.any_eq_true]
    simp only [decide_eq_true_eq]
  rw [List.mem_map]
  constructor
  · rintro ⟨⟨_, p⟩, he, rfl⟩
    exact ⟨p, pupilAt_of_mem_matchSet hs he, ((member p).1 he).2⟩
  · rintro ⟨p, hp, meets⟩
    exact ⟨(k, p), (member p).2 ⟨mem_of_tableGet hp, meets⟩, rfl⟩

/-! ### The range offered -/

/-- The first date a reply may offer: tomorrow while the day is OPEN, else today (R185). -/
theorem firstOffered_eq (s : State) :
    (if dayIsOpen s then today s + 1 else today s) = if s.day.state = .open_ then today s + 1 else today s := by
  simp only [dayIsOpen_iff]

theorem rangeOffered_ill (n : Nat) (s : State) :
    rangeOffered (.ill n) s =
      if 2 ≤ n ∧ s.time.valid = true ∧ (if s.day.state = .open_ then today s + 1 else today s) ≤ 36524 then
        some (if s.day.state = .open_ then today s + 1 else today s, min (today s + n - 1) 36524)
      else none := by
  rw [← firstOffered_eq]
  rfl

theorem rangeOffered_none {c : ReplyCode}
    (h : ∀ n, c = .ill n →
      n < 2 ∨ s.time.valid = false ∨ 36524 < if s.day.state = .open_ then today s + 1 else today s) :
    rangeOffered c s = none := by
  cases c with
  | ill n =>
    rw [rangeOffered_ill, if_neg]
    rintro ⟨many, valid, inRange⟩
    obtain few | invalid | beyond := h n rfl
    · exact Nat.not_lt.2 many few
    · exact Bool.eq_false_iff.1 invalid valid
    · exact Nat.not_lt.2 inRange beyond
  | appointment back => rfl
  | onWay => rfl
  | text => rfl

/-- What a range that is offered says of the reply and of today. -/
theorem rangeOffered_some {c : ReplyCode} {first last : Date} (h : rangeOffered c s = some (first, last)) :
    (∃ n, c = .ill n) ∧ (s.day.state ≠ .open_ → first = today s ∧ today s ≤ last) := by
  cases c with
  | ill n =>
    refine ⟨⟨n, rfl⟩, fun notOpen => ?_⟩
    rw [rangeOffered_ill, if_neg notOpen] at h
    split at h
    · rename_i allowed
      obtain ⟨many, _, inRange⟩ := allowed
      cases h
      exact ⟨rfl, Nat.le_min.2 ⟨Nat.le_sub_of_add_le (Nat.add_le_add_left (Nat.le_of_succ_le many) _), inRange⟩⟩
    · nomatch h
  | appointment back => nomatch h
  | onWay => nomatch h
  | text => nomatch h

/-! ### Why the Inbox is needed -/

/-- A reply that is no TEXT acts on a matched pupil's mark where the day is OPEN and one is not yet accounted for (R183). -/
theorem any_actsOnMark_iff (h : r.code ≠ .text) :
    (matchSet r s).any (actsOnMark r.code s) = true ↔
      s.day.state = .open_ ∧ ∃ e ∈ matchSet r s, isUnaccountedMark e.2.day.mark = true := by
  have changes : changesMarks r.code = true := by
    cases code : r.code with
    | text => exact absurd code h
    | _ => rfl
  simp only [List.any_eq_true, actsOnMark, changes, Bool.and_true, Bool.and_eq_true, dayIsOpen_iff]
  exact ⟨fun ⟨e, he, opened, mark⟩ => ⟨opened, e, he, mark⟩, fun ⟨opened, e, he, mark⟩ => ⟨e, he, opened, mark⟩⟩

theorem inboxReason_eq (r : ParentReply) (s : State) :
    inboxReason r s =
      if r.code = .text then some .text
      else if (matchSet r s).map Prod.fst = [] then some .noMatch
      else if rangeOffered r.code s = none ∧
          ¬(s.day.state = .open_ ∧ ∃ e ∈ matchSet r s, isUnaccountedMark e.2.day.mark = true) then
        some .noEffect
      else if r.text ≠ [] then some .withText
      else none := by
  by_cases text : r.code = .text
  · rw [if_pos text]
    exact if_pos text
  · have idle : (!(matchSet r s).any (actsOnMark r.code s) && (rangeOffered r.code s).isNone) = true ↔
        rangeOffered r.code s = none ∧
          ¬(s.day.state = .open_ ∧ ∃ e ∈ matchSet r s, isUnaccountedMark e.2.day.mark = true) := by
      rw [Bool.and_eq_true, not_iff_of_iff (any_actsOnMark_iff text), Option.isNone_iff_eq_none, and_comm]
    have worded : (!r.text.isEmpty) = true ↔ r.text ≠ [] := not_iff_of_iff List.isEmpty_iff
    unfold inboxReason
    simp only [text, if_false, idle, worded, List.isEmpty_iff, List.map_eq_nil_iff]

end Sys2Proof.Machine
end

