-- ==== Sys2Proof/Proofs/AwayRanges.lean ====
section
/-! PROOF. The ranges a reply adds to the Away List, and what they do to today (R24, R25, R185). -/

namespace Sys2Proof.Machine

variable {s t u : State}

/-! ### The changes that a reply makes -/

/-- A change within the roll, the queue, the sweep, the Gateway Port and attention, in which no notice joins the queue, no pupil comes
to be of ABSENT_PENDING, the notice of one that leaves it is withdrawn (R6), and the sweep hears of the notices that leave (R145). -/
structure ReplyChange (s t : State) : Prop where
  state :
    t =
      { s with
        roll := t.roll
        notices := { s.notices with queue := t.notices.queue }
        sweep := t.sweep
        gateway := t.gateway
        attention := t.attention }
  heard : Heard s t
  nonePended : NonePended s t
  withdrawn : Withdrawn (leftPending s t) s.notices.queue t.notices.queue

namespace ReplyChange

/-- A change of the Away List, the Gateway Port and attention alone. -/
theorem of_away
    (h : t = { s with roll := { s.roll with away := t.roll.away }, gateway := t.gateway, attention := t.attention }) :
    ReplyChange s t := by
  have roster (k : Slot) : pupilAt k t = pupilAt k s := pupilAt_congr (by rw [h]) k
  have queue : t.notices.queue = s.notices.queue := by rw [h]
  refine ⟨by rw [h], (Heard.refl s).set (by rw [h]), fun k pending => roster k ▸ pending, ?_⟩
  rw [queue]
  refine withdrawn_none fun n _ => ?_
  rw [← leftPending_self s n]
  unfold leftPending
  simp only [roster]

theorem refl (s : State) : ReplyChange s s := of_away rfl

theorem trans (h : ReplyChange s t) (g : ReplyChange t u) : ReplyChange s u := by
  refine ⟨g.state.trans ?_, h.heard.trans g.heard, fun k pending => h.nonePended k (g.nonePended k pending), ?_⟩
  · rw [h.state]
  · exact (h.withdrawn.trans g.withdrawn fun n => leftPending_cancelled).congr fun n _ =>
      leftPending_trans h.nonePended g.nonePended n

theorem foldl {α : Type} {f : State → α → State} (hf : ∀ s x, ReplyChange s (f s x)) (l : List α) (s : State) :
    ReplyChange s (l.foldl f s) := by
  induction l generalizing s with
  | nil => exact refl s
  | cons x t ih => exact (hf s x).trans (ih _)

/-- A claim that makes no pupil ABSENT_PENDING. -/
theorem claim {f : DayPart → DayPart} (hf : ∀ d, (f d).mark = .absentPending → d.mark = .absentPending) (k : Slot) (s : State) :
    ReplyChange s (claim k f s) := by
  have state : Machine.claim k f s = _ := claim_state k f s
  refine ⟨by rw [state], claim_heard k f (Heard.refl s), fun j pending => ?_, claim_leftPending k f s⟩
  rw [pupilAt_claim] at pending
  cases hp : pupilAt j s with
  | none => rw [hp] at pending; nomatch pending
  | some p =>
    rw [hp, Option.map_some, Option.any_some, decide_eq_true_iff] at pending
    rw [Option.any_some, decide_eq_true_iff]
    split at pending
    · exact hf p.day pending
    · exact pending

theorem day (h : ReplyChange s t) : t.day = s.day := by rw [h.state]

theorem today_eq (h : ReplyChange s t) : today t = today s := by
  unfold today
  rw [h.day, show t.time = s.time by rw [h.state]]

end ReplyChange

/-! ### An entry that acts on today -/

variable {e : AwayEntry} {j k : Slot} {first last : Date}

theorem awayActs_eq (e : AwayEntry) (s : State) :
    awayActs e s = if ActsToday e s then claim e.slot (excused .away e.reason) s else s := rfl

theorem awayActs_change (e : AwayEntry) (s : State) : ReplyChange s (awayActs e s) := by
  rw [awayActs_eq]
  split
  · exact .claim (fun d => excused_pending) e.slot s
  · exact .refl s

theorem awayActs_away (e : AwayEntry) (s : State) : (awayActs e s).roll.away = s.roll.away := by
  rw [awayActs_eq]
  split
  · exact claim_away _ _ _
  · rfl

theorem awayActs_attention (e : AwayEntry) (s : State) : (awayActs e s).attention = s.attention := by
  rw [awayActs_eq]
  split
  · exact claim_attention _ _ _
  · rfl

theorem pupilAt_awayActs (j : Slot) (e : AwayEntry) (s : State) :
    pupilAt j (awayActs e s) =
      (pupilAt j s).map fun p => if j = e.slot ∧ ActsToday e s then { p with day := excused .away e.reason p.day } else p := by
  rw [awayActs_eq]
  split
  · rename_i acts
    rw [pupilAt_claim]
    refine congrArg (Option.map · _) (funext fun p => ?_)
    by_cases hj : j = e.slot
    · rw [if_pos hj, if_pos ⟨hj, acts⟩]
    · rw [if_neg hj, if_neg fun both => hj both.1]
  · rename_i idle
    simp only [idle, and_false, if_false, Option.map_id']

/-! ### The entry that a range leaves -/

/-- The entry that stands for a range offered for a slot (R25): a new one, none where the list is full, or the merged one. -/
def rangeEntry (first last : Date) (l : List AwayEntry) (k : Slot) : Option AwayEntry :=
  match l.filter (awayOverlaps k first last) with
  | [] => if l.length < 256 then some ⟨k, first, last, .ill, .parent⟩ else none
  | h :: t => some { h with first := min first h.first, last := t.foldl (fun d e => max d e.last) (max last h.last) }

section
variable {l t : List AwayEntry} {x : AwayEntry}

theorem rangeEntry_nil (h : l.filter (awayOverlaps k first last) = []) :
    rangeEntry first last l k = if l.length < 256 then some ⟨k, first, last, .ill, .parent⟩ else none := by
  unfold rangeEntry
  rw [h]

theorem rangeEntry_cons (h : l.filter (awayOverlaps k first last) = x :: t) :
    rangeEntry first last l k =
      some { x with first := min first x.first, last := t.foldl (fun d e => max d e.last) (max last x.last) } := by
  unfold rangeEntry
  rw [h]

/-- The list is full, and none of the slot's entries overlaps the range. -/
theorem overlaps_nil_of_rangeEntry_none (h : rangeEntry first last l k = none) :
    l.filter (awayOverlaps k first last) = [] ∧ ¬l.length < 256 := by
  cases found : l.filter (awayOverlaps k first last) with
  | nil =>
    refine ⟨rfl, fun room => ?_⟩
    rw [rangeEntry_nil found, if_pos room] at h
    nomatch h
  | cons x t =>
    rw [rangeEntry_cons found] at h
    nomatch h

end

theorem le_foldl_last (l : List AwayEntry) (d : Date) : d ≤ l.foldl (fun d e => max d e.last) d := by
  induction l generalizing d with
  | nil => exact Nat.le_refl d
  | cons e t ih => exact Nat.le_trans (Nat.le_max_left d e.last) (ih _)

theorem awayOverlaps_iff : awayOverlaps k first last e = true ↔ e.slot = k ∧ e.first ≤ last ∧ first ≤ e.last := by
  simp only [awayOverlaps, Bool.and_eq_true, decide_eq_true_eq, and_assoc]

/-- The entry is the slot's, and covers the range (R25). -/
theorem rangeEntry_covers {l : List AwayEntry} (h : rangeEntry first last l k = some e) :
    e.slot = k ∧ e.first ≤ first ∧ last ≤ e.last := by
  cases found : l.filter (awayOverlaps k first last) with
  | nil =>
    rw [rangeEntry_nil found] at h
    split at h
    · cases h
      exact ⟨rfl, Nat.le_refl first, Nat.le_refl last⟩
    · nomatch h
  | cons x t =>
    rw [rangeEntry_cons found] at h
    cases h
    have head : x ∈ l.filter (awayOverlaps k first last) := found ▸ List.mem_cons_self
    obtain ⟨slot, _⟩ := awayOverlaps_iff.1 (List.of_mem_filter head)
    exact ⟨slot, Nat.min_le_left .., Nat.le_trans (Nat.le_max_left last x.last) (le_foldl_last t _)⟩

theorem rangeEntry_none_iff {l : List AwayEntry} :
    rangeEntry first last l k = none ↔ (∀ x ∈ l, awayOverlaps k first last x = false) ∧ 256 ≤ l.length := by
  simp only [← Bool.not_eq_true, ← List.filter_eq_nil_iff, ← Nat.not_lt]
  refine ⟨overlaps_nil_of_rangeEntry_none, fun ⟨none_, full⟩ => ?_⟩
  rw [rangeEntry_nil none_, if_neg full]

/-- The Away List with the entry in place of those that the range overlaps. -/
def withEntry (first last : Date) (k : Slot) (e : AwayEntry) (l : List AwayEntry) : List AwayEntry :=
  placeAway e (l.filter fun x => !awayOverlaps k first last x)

theorem filter_not_overlaps {l : List AwayEntry} (h : l.filter (awayOverlaps k first last) = []) :
    (l.filter fun x => !awayOverlaps k first last x) = l :=
  List.filter_eq_self.2 fun x hx => by rw [Bool.not_eq_true', ← Bool.not_eq_true]; exact List.filter_eq_nil_iff.1 h x hx

/-- A range is refused where the list is full and none of the slot's entries overlaps it (R25). -/
theorem takeRange_full (h : rangeEntry first last s.roll.away k = none) :
    takeRange first last s k = raise .full (some (.slot k)) s := by
  obtain ⟨none_, full⟩ := overlaps_nil_of_rangeEntry_none h
  unfold takeRange
  rw [none_]
  exact if_neg full

/-- A range taken: its entry joins the list in its place, and acts on today (R24, R25). -/
theorem takeRange_placed (h : rangeEntry first last s.roll.away k = some e) :
    takeRange first last s k = awayActs e (setAway (withEntry first last k e) s) := by
  cases found : s.roll.away.filter (awayOverlaps k first last) with
  | nil =>
    have away : withEntry first last k e s.roll.away = placeAway e s.roll.away := congrArg _ (filter_not_overlaps found)
    rw [rangeEntry_nil found] at h
    unfold takeRange
    rw [found, setAway, away]
    split at h
    · rename_i room
      cases h
      exact if_pos room
    · nomatch h
  | cons x t =>
    rw [rangeEntry_cons found] at h
    cases h
    unfold takeRange
    rw [found]
    rfl

theorem awayAfter_full {l : List AwayEntry} (h : rangeEntry first last l k = none) : awayAfter first last l k = l := by
  obtain ⟨none_, full⟩ := overlaps_nil_of_rangeEntry_none h
  unfold awayOverlaps at none_
  unfold awayAfter
  dsimp only
  rw [none_]
  exact if_neg full

theorem awayAfter_placed {l : List AwayEntry} (h : rangeEntry first last l k = some e) :
    awayAfter first last l k = withEntry first last k e l := by
  cases found : l.filter (awayOverlaps k first last) with
  | nil =>
    have away : withEntry first last k e l = placeAway e l := congrArg _ (filter_not_overlaps found)
    rw [rangeEntry_nil found] at h
    unfold awayOverlaps at found
    unfold awayAfter
    dsimp only
    rw [found, away]
    split at h
    · rename_i room
      cases h
      exact if_pos room
    · nomatch h
  | cons x t =>
    rw [rangeEntry_cons found] at h
    cases h
    unfold awayOverlaps at found
    unfold awayAfter
    dsimp only
    rw [found]
    rfl

/-! ### Today's entry of a slot -/

/-- An entry is the slot's and covers the date. -/
def coversDate (k : Slot) (d : Date) (e : AwayEntry) : Bool := e.slot = k && e.first ≤ d && d ≤ e.last

theorem awayCovering_eq (k : Slot) (d : Date) (s : State) : awayCovering k d s = s.roll.away.find? (coversDate k d) := rfl

theorem coversDate_iff {d : Date} : coversDate k d e = true ↔ e.slot = k ∧ e.first ≤ d ∧ d ≤ e.last := by
  simp only [coversDate, Bool.and_eq_true, decide_eq_true_eq, and_assoc]

/-- An entry that covers a date of a range overlaps the range. -/
theorem coversDate_apart {d : Date} (low : first ≤ d) (high : d ≤ last) (apart : awayOverlaps k first last e = false) :
    coversDate k d e = false := by
  refine Bool.eq_false_iff.2 fun covers => Bool.eq_false_iff.1 apart ?_
  obtain ⟨slot, before, after⟩ := coversDate_iff.1 covers
  exact awayOverlaps_iff.2 ⟨slot, Nat.le_trans before high, Nat.le_trans low after⟩

theorem find?_placeAway_of_not {p : AwayEntry → Bool} (h : p e = false) (l : List AwayEntry) :
    (placeAway e l).find? p = l.find? p := by
  obtain ⟨front, back, split, placed, _⟩ := placeAway_split e l
  rw [placed, split, List.find?_append, List.find?_append, List.find?_cons, h]

theorem find?_placeAway_of_others {p : AwayEntry → Bool} {l : List AwayEntry} (h : p e = true) (others : ∀ x ∈ l, p x = false) :
    (placeAway e l).find? p = some e := by
  obtain ⟨front, back, split, placed, _⟩ := placeAway_split e l
  have before : front.find? p = none := List.find?_eq_none.2 fun x hx => by
    rw [others x (split ▸ List.mem_append_left back hx)]
    nofun
  rw [placed, List.find?_append, before, List.find?_cons, h]
  rfl

/-- A range of one slot leaves the entries of another. -/
theorem find?_awayAfter_ne (h : j ≠ k) (d : Date) (l : List AwayEntry) :
    (awayAfter first last l k).find? (coversDate j d) = l.find? (coversDate j d) := by
  cases entry : rangeEntry first last l k with
  | none => rw [awayAfter_full entry]
  | some e =>
    obtain ⟨slot, _⟩ := rangeEntry_covers entry
    have other : coversDate j d e = false := Bool.eq_false_iff.2 fun covers => h ((coversDate_iff.1 covers).1.symm.trans slot)
    rw [awayAfter_placed entry, withEntry, find?_placeAway_of_not other, List.find?_filter]
    refine congrArg (List.find? · l) (funext fun x => ?_)
    cases covers : coversDate j d x with
    | false => simp
    | true =>
      have apart : awayOverlaps k first last x = false :=
        Bool.eq_false_iff.2 fun overlaps => h ((coversDate_iff.1 covers).1.symm.trans (awayOverlaps_iff.1 overlaps).1)
      simp [apart]

/-- The entry of a range that covers a date is the slot's only one on it. -/
theorem find?_awayAfter_self {d : Date} (low : first ≤ d) (high : d ≤ last) (l : List AwayEntry) :
    (awayAfter first last l k).find? (coversDate k d) = rangeEntry first last l k := by
  cases entry : rangeEntry first last l k with
  | none =>
    obtain ⟨apart, _⟩ := rangeEntry_none_iff.1 entry
    rw [awayAfter_full entry]
    exact List.find?_eq_none.2 fun x hx => Bool.eq_false_iff.1 (coversDate_apart low high (apart x hx))
  | some e =>
    obtain ⟨slot, before, after⟩ := rangeEntry_covers entry
    rw [awayAfter_placed entry]
    refine find?_placeAway_of_others (coversDate_iff.2 ⟨slot, Nat.le_trans before low, Nat.le_trans high after⟩) fun x hx => ?_
    have apart := List.of_mem_filter hx
    rw [Bool.not_eq_true'] at apart
    exact coversDate_apart low high apart

/-! ### A range taken -/

theorem takeRange_change (first last : Date) (s : State) (k : Slot) : ReplyChange s (takeRange first last s k) := by
  cases entry : rangeEntry first last s.roll.away k with
  | none =>
    rw [takeRange_full entry]
    exact .of_away rfl
  | some e =>
    rw [takeRange_placed entry]
    exact (ReplyChange.of_away rfl).trans (awayActs_change e _)

/-- The Away List after a range is offered (R25). -/
theorem takeRange_away (first last : Date) (s : State) (k : Slot) :
    (takeRange first last s k).roll.away = awayAfter first last s.roll.away k := by
  cases entry : rangeEntry first last s.roll.away k with
  | none => rw [takeRange_full entry, raise_roll, awayAfter_full entry]
  | some e => rw [takeRange_placed entry, awayActs_away, awayAfter_placed entry, setAway_roll]

/-- A range raises nothing but FULL (R25). -/
theorem takeRange_sources (first last : Date) (s : State) (k : Slot) :
    (takeRange first last s k).attention.length = s.attention.length ∧
      ∀ n, n ≠ 11 → sourceAt n (takeRange first last s k) = sourceAt n s := by
  cases entry : rangeEntry first last s.roll.away k with
  | none =>
    rw [takeRange_full entry]
    exact ⟨List.length_modify .., fun n hn => sourceAt_raise_ne (id := .full) _ s (Ne.symm hn)⟩
  | some e =>
    rw [takeRange_placed entry]
    unfold sourceAt
    rw [awayActs_attention]
    exact ⟨rfl, fun _ _ => rfl⟩

theorem takeRange_gateway (first last : Date) (s : State) (k : Slot) : (takeRange first last s k).gateway = s.gateway := by
  cases entry : rangeEntry first last s.roll.away k with
  | none => rw [takeRange_full entry, raise_gateway]
  | some e =>
    rw [takeRange_placed entry, awayActs_eq]
    split
    · rw [claim_state]
      rfl
    · rfl

theorem pupilAt_takeRange_full (h : rangeEntry first last s.roll.away k = none) (j : Slot) :
    pupilAt j (takeRange first last s k) = pupilAt j s := by
  rw [takeRange_full h]
  rfl

/-- The pupils after a range taken: that of its slot, where the entry acts on today (R24; log 29). -/
theorem pupilAt_takeRange_placed (h : rangeEntry first last s.roll.away k = some e) (j : Slot) :
    pupilAt j (takeRange first last s k) =
      (pupilAt j s).map fun p => if j = k ∧ ActsToday e s then { p with day := excused .away e.reason p.day } else p := by
  obtain ⟨rfl, _⟩ := rangeEntry_covers h
  rw [takeRange_placed h, pupilAt_awayActs]
  rfl

/-- A range touches no pupil but that of its slot. -/
theorem takeRange_others (first last : Date) (s : State) (k : Slot) : OthersKept k s (takeRange first last s k) := by
  intro j hj
  cases entry : rangeEntry first last s.roll.away k with
  | none => exact pupilAt_takeRange_full entry j
  | some e =>
    rw [pupilAt_takeRange_placed entry]
    simp only [hj, false_and, if_false, Option.map_id']

/-- A range leaves a pupil already accounted for, and while the day is CLOSED every pupil. -/
theorem takeRange_settled (notOpening : s.day.state ≠ .opening)
    (accounted : s.day.state = .open_ → ∀ p, pupilAt k s = some p → isUnaccountedMark p.day.mark = false) (j : Slot) :
    pupilAt j (takeRange first last s k) = pupilAt j s := by
  cases entry : rangeEntry first last s.roll.away k with
  | none => exact pupilAt_takeRange_full entry j
  | some e =>
    rw [pupilAt_takeRange_placed entry]
    refine (Option.map_congr fun p hp => ?_).trans (Option.map_id' ..)
    split
    · rename_i acts
      obtain ⟨rfl, live, _⟩ := acts
      have opened : s.day.state = .open_ := live.resolve_right fun opening => notOpening opening.1
      rw [excused_of_not (accounted opened p hp)]
    · rfl

/-- While the day is OPENING a range that covers today acts on its pupil by the slot's entry of today, where the opening sweep has passed
the slot (R24; log 29). -/
theorem takeRange_opening (opening : s.day.state = .opening) (low : first ≤ today s) (high : today s ≤ last) (k : Slot) :
    pupilAt k (takeRange first last s k) =
      (pupilAt k s).map fun p =>
        (awayCovering k (today s) (takeRange first last s k)).elim p fun e =>
          if k < s.day.cursor then { p with day := excused .away e.reason p.day } else p := by
  rw [awayCovering_eq, takeRange_away, find?_awayAfter_self low high]
  cases entry : rangeEntry first last s.roll.away k with
  | none =>
    rw [pupilAt_takeRange_full entry]
    exact (Option.map_id' ..).symm
  | some e =>
    obtain ⟨rfl, before, after⟩ := rangeEntry_covers entry
    have covers : e.first ≤ today s ∧ today s ≤ e.last := ⟨Nat.le_trans before low, Nat.le_trans high after⟩
    rw [pupilAt_takeRange_placed entry]
    refine congrArg (Option.map · _) (funext fun p => ?_)
    rw [Option.elim_some]
    by_cases passed : e.slot < s.day.cursor
    · rw [if_pos passed, if_pos ⟨rfl, .inr ⟨opening, passed⟩, covers⟩]
    · refine (if_neg ?_).trans (if_neg passed).symm
      rintro ⟨_, opened | ⟨_, past⟩, _⟩
      · rw [opening] at opened
        nomatch opened
      · exact passed past

/-! ### The ranges of several slots -/

theorem ranges_change (first last : Date) (l : List Slot) (s : State) : ReplyChange s (l.foldl (takeRange first last) s) :=
  .foldl (takeRange_change first last) l s

theorem ranges_away (first last : Date) (l : List Slot) (s : State) :
    (l.foldl (takeRange first last) s).roll.away = l.foldl (awayAfter first last) s.roll.away := by
  induction l generalizing s with
  | nil => rfl
  | cons k t ih => exact (ih _).trans (congrArg (t.foldl (awayAfter first last)) (takeRange_away first last s k))

theorem ranges_gateway (first last : Date) (l : List Slot) (s : State) :
    (l.foldl (takeRange first last) s).gateway = s.gateway :=
  foldl_keeps (g := State.gateway) (takeRange_gateway first last) l s

theorem ranges_length (first last : Date) (l : List Slot) (s : State) :
    (l.foldl (takeRange first last) s).attention.length = s.attention.length :=
  foldl_keeps (g := fun s : State => s.attention.length) (fun s k => (takeRange_sources first last s k).1) l s

theorem ranges_source {n : Nat} (h : n ≠ 11) (first last : Date) (l : List Slot) (s : State) :
    sourceAt n (l.foldl (takeRange first last) s) = sourceAt n s :=
  foldl_keeps (g := sourceAt n) (fun s k => (takeRange_sources first last s k).2 n h) l s

/-- The ranges of other slots leave a pupil, and its entry of a date. -/
theorem ranges_others {l : List Slot} (h : j ∉ l) (d : Date) (s : State) :
    pupilAt j (l.foldl (takeRange first last) s) = pupilAt j s ∧
      awayCovering j d (l.foldl (takeRange first last) s) = awayCovering j d s := by
  induction l generalizing s with
  | nil => exact ⟨rfl, rfl⟩
  | cons k t ih =>
    obtain ⟨other, rest⟩ := List.ne_and_not_mem_of_not_mem_cons h
    obtain ⟨pupil, entry⟩ := ih rest (takeRange first last s k)
    refine ⟨pupil.trans (takeRange_others first last s k j other), entry.trans ?_⟩
    rw [awayCovering_eq, takeRange_away, find?_awayAfter_ne other]
    rfl

/-- Ranges leave every pupil where those of their slots are accounted for, or the day is CLOSED. -/
theorem ranges_settled {l : List Slot} (notOpening : s.day.state ≠ .opening)
    (accounted : s.day.state = .open_ → ∀ k ∈ l, ∀ p, pupilAt k s = some p → isUnaccountedMark p.day.mark = false) (j : Slot) :
    pupilAt j (l.foldl (takeRange first last) s) = pupilAt j s := by
  induction l generalizing s with
  | nil => rfl
  | cons k t ih =>
    have same : ∀ j, pupilAt j (takeRange first last s k) = pupilAt j s :=
      takeRange_settled notOpening fun opened => accounted opened k List.mem_cons_self
    have day := (takeRange_change first last s k).day
    refine (ih (day ▸ notOpening) fun opened i hi p hp => ?_).trans (same j)
    exact accounted (day ▸ opened) i (List.mem_cons_of_mem k hi) p (same i ▸ hp)

/-- While the day is OPENING the ranges of a reply, which cover today, act on each pupil by its slot's entry of today (R24, R185). -/
theorem ranges_opening {l : List Slot} (opening : s.day.state = .opening) (low : first ≤ today s) (high : today s ≤ last)
    (once : l.Nodup) (h : j ∈ l) :
    pupilAt j (l.foldl (takeRange first last) s) =
      (pupilAt j s).map fun p =>
        (awayCovering j (today s) (l.foldl (takeRange first last) s)).elim p fun e =>
          if j < s.day.cursor then { p with day := excused .away e.reason p.day } else p := by
  obtain ⟨front, back, rfl⟩ := List.append_of_mem h
  obtain ⟨notFront, notBack⟩ : j ∉ front ∧ j ∉ back := by
    rw [List.nodup_middle, List.nodup_cons, List.mem_append, not_or] at once
    exact once.1
  rw [List.foldl_append, List.foldl_cons]
  have before := ranges_change first last front s
  obtain ⟨pupilBefore, _⟩ := ranges_others (first := first) (last := last) notFront (today s) s
  generalize front.foldl (takeRange first last) s = t at before pupilBefore ⊢
  obtain ⟨pupilAfter, entryAfter⟩ := ranges_others (first := first) (last := last) notBack (today s) (takeRange first last t j)
  have acts := takeRange_opening (s := t) (before.day ▸ opening) (before.today_eq ▸ low) (before.today_eq ▸ high) j
  rw [before.today_eq, before.day, pupilBefore] at acts
  rw [pupilAfter, entryAfter, acts]

end Sys2Proof.Machine
end

