-- ==== Sys2Proof/Proofs/ParentReplies.lean ====
section
/-! PROOF. A parent reply taken: its answer, the marks, the ranges and the message it leaves (R183–R185, R188). -/

namespace Sys2Proof.Machine

variable {r : ParentReply} {s : State} {c : ReplyCode} {l : List Slot}

/-! ### The marks -/

section
variable {d : DayPart}

theorem repliedTo_of_not (h : isUnaccountedMark d.mark = false) : repliedTo c d = d := if_pos (by rw [h]; rfl)

theorem repliedTo_ill (h : isUnaccountedMark d.mark = true) (n : Nat) :
    repliedTo (.ill n) d = { d with mark := .excused, source := some .reply, reason := some .ill, back := none } :=
  if_neg (by rw [h]; nofun)

theorem repliedTo_appointment (h : isUnaccountedMark d.mark = true) (back : Option SchoolTime) :
    repliedTo (.appointment back) d =
      { d with mark := .excused, source := some .reply, reason := some .appointment, back := back } :=
  if_neg (by rw [h]; nofun)

theorem repliedTo_onWay (h : isUnaccountedMark d.mark = true) :
    repliedTo .onWay d = if d.mark = .expected then d else { d with mark := .expected, source := some .reply } :=
  if_neg (by rw [h]; nofun)

theorem repliedTo_text (d : DayPart) : repliedTo .text d = d := ite_self _

theorem repliedTo_twice (c : ReplyCode) (d : DayPart) : repliedTo c (repliedTo c d) = repliedTo c d := by
  cases h : isUnaccountedMark d.mark with
  | false => rw [repliedTo_of_not h, repliedTo_of_not h]
  | true =>
    cases c with
    | ill n =>
      rw [repliedTo_ill h]
      exact repliedTo_of_not rfl
    | appointment back =>
      rw [repliedTo_appointment h]
      exact repliedTo_of_not rfl
    | onWay =>
      by_cases expected : d.mark = .expected
      · rw [repliedTo_onWay h, if_pos expected, repliedTo_onWay h, if_pos expected]
      · rw [repliedTo_onWay h, if_neg expected, repliedTo_onWay rfl, if_pos rfl]
    | text => rw [repliedTo_text, repliedTo_text]

/-- No code makes a pupil ABSENT_PENDING. -/
theorem repliedTo_pending (pending : (repliedTo c d).mark = .absentPending) : d.mark = .absentPending := by
  cases h : isUnaccountedMark d.mark with
  | false => rwa [repliedTo_of_not h] at pending
  | true =>
    cases c with
    | ill n =>
      rw [repliedTo_ill h] at pending
      nomatch pending
    | appointment back =>
      rw [repliedTo_appointment h] at pending
      nomatch pending
    | onWay =>
      rw [repliedTo_onWay h] at pending
      split at pending
      · exact pending
      · nomatch pending
    | text => rwa [repliedTo_text] at pending

/-- An ILL reply leaves the pupil accounted for. -/
theorem repliedTo_ill_accounted (n : Nat) (d : DayPart) : isUnaccountedMark (repliedTo (.ill n) d).mark = false := by
  cases h : isUnaccountedMark d.mark with
  | false => rwa [repliedTo_of_not h]
  | true =>
    rw [repliedTo_ill h]
    rfl

end

theorem replyMarks_open (opened : s.day.state = .open_) (r : ParentReply) (l : List Slot) :
    replyMarks r l s = l.foldl (fun s k => claim k (repliedTo r.code) s) s := if_pos (dayIsOpen_iff.2 opened)

theorem replyMarks_closed (closed : s.day.state ≠ .open_) (r : ParentReply) (l : List Slot) : replyMarks r l s = s :=
  if_neg fun opened => closed (dayIsOpen_iff.1 opened)

theorem pupilAt_replyMarks (j : Slot) (r : ParentReply) (l : List Slot) (s : State) :
    pupilAt j (replyMarks r l s) =
      (pupilAt j s).map fun p => if s.day.state = .open_ ∧ j ∈ l then { p with day := repliedTo r.code p.day } else p := by
  by_cases opened : s.day.state = .open_
  · rw [replyMarks_open opened]
    have folded : pupilAt j (l.foldl (fun s k => claim k (repliedTo r.code) s) s) =
        (pupilAt j s).map fun p => if j ∈ l then { p with day := repliedTo r.code p.day } else p := by
      clear opened
      induction l generalizing s with
      | nil => simp
      | cons k t ih =>
        rw [List.foldl_cons, ih, pupilAt_claim, Option.map_map]
        refine congrArg (Option.map · _) (funext fun p => ?_)
        by_cases hk : j = k <;> by_cases ht : j ∈ t <;> simp [hk, ht, repliedTo_twice]
    simp only [folded, opened, true_and]
  · rw [replyMarks_closed opened]
    simp only [opened, false_and, if_false, Option.map_id']

theorem replyMarks_change (r : ParentReply) (l : List Slot) (s : State) : ReplyChange s (replyMarks r l s) := by
  unfold replyMarks
  split
  · exact .foldl (fun s k => .claim (fun d => repliedTo_pending) k s) l s
  · exact .refl s

/-- A part of the state that no claim changes stays through the marks of a reply. -/
theorem replyMarks_keeps {β : Type} {g : State → β} (h : ∀ k f s, g (claim k f s) = g s) (r : ParentReply) (l : List Slot)
    (s : State) : g (replyMarks r l s) = g s := by
  unfold replyMarks
  split
  · exact foldl_keeps (fun s k => h k _ s) l s
  · rfl

theorem replyMarks_away (r : ParentReply) (l : List Slot) (s : State) : (replyMarks r l s).roll.away = s.roll.away :=
  replyMarks_keeps (g := fun s : State => s.roll.away) claim_away r l s

theorem replyMarks_attention (r : ParentReply) (l : List Slot) (s : State) : (replyMarks r l s).attention = s.attention :=
  replyMarks_keeps (g := State.attention) claim_attention r l s

theorem replyMarks_gateway (r : ParentReply) (l : List Slot) (s : State) : (replyMarks r l s).gateway = s.gateway :=
  replyMarks_keeps (g := State.gateway) (fun k f s => by rw [claim_state]) r l s

/-! ### Marks and ranges -/

/-- What a reply does to the matched pupils and the Away List (R184, R185). -/
def replyActed (r : ParentReply) (s : State) : State :=
  replyRanges (rangeOffered r.code s) ((matchSet r s).map Prod.fst) (replyMarks r ((matchSet r s).map Prod.fst) s)

theorem replyActed_none (h : rangeOffered r.code s = none) :
    replyActed r s = replyMarks r ((matchSet r s).map Prod.fst) s := by
  unfold replyActed
  rw [h]
  rfl

theorem replyActed_some {first last : Date} (h : rangeOffered r.code s = some (first, last)) :
    replyActed r s =
      ((matchSet r s).map Prod.fst).foldl (takeRange first last) (replyMarks r ((matchSet r s).map Prod.fst) s) := by
  unfold replyActed
  rw [h]
  rfl

theorem replyActed_change (r : ParentReply) (s : State) : ReplyChange s (replyActed r s) := by
  have marks := replyMarks_change r ((matchSet r s).map Prod.fst) s
  cases range : rangeOffered r.code s with
  | none =>
    rw [replyActed_none range]
    exact marks
  | some x =>
    rw [replyActed_some range]
    exact marks.trans (ranges_change ..)

theorem replyActed_gateway (r : ParentReply) (s : State) : (replyActed r s).gateway = s.gateway := by
  have marks := replyMarks_gateway r ((matchSet r s).map Prod.fst) s
  cases range : rangeOffered r.code s with
  | none =>
    rw [replyActed_none range]
    exact marks
  | some x =>
    rw [replyActed_some range, ranges_gateway]
    exact marks

/-- The marks and the ranges of a reply raise nothing but FULL. -/
theorem replyActed_sources (r : ParentReply) (s : State) :
    (replyActed r s).attention.length = s.attention.length ∧
      ∀ n, n ≠ 11 → sourceAt n (replyActed r s) = sourceAt n s := by
  have marks := replyMarks_attention r ((matchSet r s).map Prod.fst) s
  have sources (n : Nat) : sourceAt n (replyMarks r ((matchSet r s).map Prod.fst) s) = sourceAt n s := by
    unfold sourceAt
    rw [marks]
  cases range : rangeOffered r.code s with
  | none =>
    rw [replyActed_none range]
    exact ⟨congrArg List.length marks, fun n _ => sources n⟩
  | some x =>
    rw [replyActed_some range, ranges_length, marks]
    exact ⟨rfl, fun n hn => (ranges_source hn ..).trans (sources n)⟩

theorem replyActed_away_none (h : rangeOffered r.code s = none) : (replyActed r s).roll.away = s.roll.away := by
  rw [replyActed_none h, replyMarks_away]

theorem replyActed_away_some {first last : Date} (h : rangeOffered r.code s = some (first, last)) :
    (replyActed r s).roll.away = ((matchSet r s).map Prod.fst).foldl (awayAfter first last) s.roll.away := by
  rw [replyActed_some h, ranges_away, replyMarks_away]

/-- A range refused for a full list raises FULL with the slot (R25). -/
theorem replyActed_full {first last : Date} {k : Slot} (h : rangeOffered r.code s = some (first, last))
    (one : (matchSet r s).map Prod.fst = [k]) (apart : ∀ e ∈ s.roll.away, e.slot = k → last < e.first ∨ e.last < first)
    (full : 256 ≤ s.roll.away.length) (fourteen : s.attention.length = 14) :
    sourceAt 11 (replyActed r s) = (sourceAt 11 s).raised (some (.slot k)) := by
  have attention := replyMarks_attention r [k] s
  have refused : rangeEntry first last (replyMarks r [k] s).roll.away k = none := by
    rw [replyMarks_away]
    refine rangeEntry_none_iff.2 ⟨fun e he => Bool.eq_false_iff.2 fun overlaps => ?_, full⟩
    obtain ⟨slot, before, after⟩ := awayOverlaps_iff.1 overlaps
    exact (apart e he slot).elim (Nat.not_lt.2 before) (Nat.not_lt.2 after)
  rw [replyActed_some h, one, List.foldl_cons, List.foldl_nil, takeRange_full refused]
  refine (sourceAt_raise_self (id := .full) _ ?_).trans ?_
  · rw [attention, fourteen]
    decide
  · unfold sourceAt
    rw [attention]
    rfl

/-- The marks by the reply's code, which its ranges leave but while the day is OPENING (R184). -/
theorem pupilAt_replyActed (h : s.day.state ≠ .opening ∨ rangeOffered r.code s = none) (k : Slot) :
    pupilAt k (replyActed r s) =
      (pupilAt k s).map fun p =>
        if s.day.state = .open_ ∧ k ∈ (matchSet r s).map Prod.fst then { p with day := repliedTo r.code p.day } else p := by
  rw [← pupilAt_replyMarks]
  cases range : rangeOffered r.code s with
  | none => rw [replyActed_none range]
  | some x =>
    obtain ⟨first, last⟩ := x
    have notOpening : s.day.state ≠ .opening := h.resolve_right (by rw [range]; nofun)
    have day := (replyMarks_change r ((matchSet r s).map Prod.fst) s).day
    rw [replyActed_some range]
    refine ranges_settled (day ▸ notOpening) (fun opened j hj p hp => ?_) k
    obtain ⟨⟨n, ill⟩, _⟩ := rangeOffered_some range
    rw [pupilAt_replyMarks, ill] at hp
    obtain ⟨q, _, rfl⟩ := Option.map_eq_some_iff.1 hp
    rw [if_pos ⟨day ▸ opened, hj⟩]
    exact repliedTo_ill_accounted n q.day

/-- While the day is OPENING the ranges act on the pupils that the opening sweep has passed (R24, R185). -/
theorem pupilAt_replyActed_opening (hs : RollOk s) (opening : s.day.state = .opening) (offered : rangeOffered r.code s ≠ none)
    (k : Slot) :
    pupilAt k (replyActed r s) =
      (pupilAt k s).map fun p =>
        (awayCovering k (today s) (replyActed r s)).elim p fun e =>
          if k ∈ (matchSet r s).map Prod.fst ∧ k < s.day.cursor then { p with day := excused .away e.reason p.day } else p := by
  obtain ⟨⟨first, last⟩, range⟩ := Option.ne_none_iff_exists'.1 offered
  obtain ⟨_, dates⟩ := rangeOffered_some range
  have notOpen : s.day.state ≠ .open_ := by rw [opening]; nofun
  obtain ⟨rfl, high⟩ := dates notOpen
  rw [replyActed_some range, replyMarks_closed notOpen]
  by_cases matched : k ∈ (matchSet r s).map Prod.fst
  · rw [ranges_opening opening (Nat.le_refl _) high (matched_nodup hs) matched]
    simp only [matched, true_and]
  · rw [(ranges_others matched (today s) s).1]
    simp only [matched, false_and, if_false]
    refine ((Option.map_congr fun p _ => ?_).trans (Option.map_id' ..)).symm
    cases awayCovering k (today s) _ <;> rfl

/-! ### The message -/

/-- What a reply leaves that is answered TAKEN: its marks, its ranges, and its message where it needs the Inbox (R183, R188). -/
def replyTaken (r : ParentReply) (s : State) : State :=
  match inboxReason r s with
  | none => replyActed r s
  | some x => addMessage r ((matchSet r s).map Prod.fst) x (replyActed r s)

theorem replyTaken_none (h : inboxReason r s = none) : replyTaken r s = replyActed r s := by
  unfold replyTaken
  rw [h]

theorem replyTaken_some {x : InboxReason} (h : inboxReason r s = some x) :
    replyTaken r s = addMessage r ((matchSet r s).map Prod.fst) x (replyActed r s) := by
  unfold replyTaken
  rw [h]

/-- A message touches neither the roll, the queue nor the sweep. -/
theorem replyTaken_parts (r : ParentReply) (s : State) :
    ReplyChange (replyActed r s) (replyTaken r s) ∧ (replyTaken r s).roll = (replyActed r s).roll := by
  cases reason : inboxReason r s with
  | none =>
    rw [replyTaken_none reason]
    exact ⟨.refl _, rfl⟩
  | some x =>
    rw [replyTaken_some reason]
    exact ⟨.of_away rfl, rfl⟩

theorem replyTaken_change (r : ParentReply) (s : State) : ReplyChange s (replyTaken r s) :=
  (replyActed_change r s).trans (replyTaken_parts r s).1

theorem pupilAt_replyTaken (k : Slot) (r : ParentReply) (s : State) : pupilAt k (replyTaken r s) = pupilAt k (replyActed r s) :=
  pupilAt_congr (by rw [(replyTaken_parts r s).2]) k

theorem nextMessageNumber_congr {t : State} (h : t.gateway = s.gateway) : nextMessageNumber t = nextMessageNumber s := by
  unfold nextMessageNumber
  rw [h]

/-- A reply that needs the Inbox joins its tail, unread, under the next number (R188). -/
theorem replyTaken_message {x : InboxReason} (h : inboxReason r s = some x) :
    (replyTaken r s).gateway =
      { s.gateway with
        inboxCounter := nextMessageNumber s
        inbox :=
          s.gateway.inbox ++
            [⟨nextMessageNumber s, s.time.date, s.time.school, r.contact, r.reference, ((matchSet r s).map Prod.fst).take 3,
              ((matchSet r s).map Prod.fst).length, r.code, x, r.text, false⟩] } := by
  have gateway := replyActed_gateway r s
  have time : (replyActed r s).time = s.time := by rw [(replyActed_change r s).state]
  rw [replyTaken_some h]
  unfold addMessage
  rw [raise_gateway, nextMessageNumber_congr gateway, time]
  unfold setGateway
  dsimp only
  rw [gateway]

/-- The message raises INBOX with the first matched slot (R188). -/
theorem replyTaken_inbox {x : InboxReason} (h : inboxReason r s = some x) (fourteen : s.attention.length = 14) :
    sourceAt 8 (replyTaken r s) = (sourceAt 8 s).raised (((matchSet r s).map Prod.fst).head?.map .slot) := by
  obtain ⟨length, others⟩ := replyActed_sources r s
  rw [replyTaken_some h, ← others 8 (by decide)]
  refine sourceAt_raise_self (id := .inbox) _ ?_
  show 8 < (replyActed r s).attention.length
  rw [length, fourteen]
  decide

/-- The message raises no source but INBOX. -/
theorem replyTaken_source {n : Nat} (h : n ≠ 8) : sourceAt n (replyTaken r s) = sourceAt n (replyActed r s) := by
  cases reason : inboxReason r s with
  | none => rw [replyTaken_none reason]
  | some x =>
    rw [replyTaken_some reason]
    exact sourceAt_raise_ne (id := .inbox) _ _ (Ne.symm h)

/-! ### The answer -/

/-- A reply whose ranges the store holds up is answered BUSY (R183). -/
theorem takeReply_busy (offered : rangeOffered r.code s ≠ none) (matched : (matchSet r s).map Prod.fst ≠ [])
    (holds : storeHolds .away s = true) : takeReply r s = (s, .busy) := by
  refine if_pos ?_
  rw [holds, Bool.and_true, Bool.and_eq_true, ← Option.ne_none_iff_isSome, not_iff_of_iff List.isEmpty_iff]
  exact ⟨offered, matched⟩

/-- A reply that the store does not hold up is answered by the room in the Inbox (R183). -/
theorem takeReply_free (free : rangeOffered r.code s = none ∨ (matchSet r s).map Prod.fst = [] ∨ storeHolds .away s = false) :
    takeReply r s =
      if (inboxReason r s).isSome = true ∧ 32 ≤ s.gateway.inbox.length then (reportInboxFull s, .inboxFull)
      else (replyTaken r s, .taken) := by
  have goes : ¬((rangeOffered r.code s).isSome && !((matchSet r s).map Prod.fst).isEmpty && storeHolds .away s) = true := by
    rw [Bool.and_eq_true, Bool.and_eq_true, ← Option.ne_none_iff_isSome, not_iff_of_iff List.isEmpty_iff]
    rintro ⟨⟨offered, matched⟩, holds⟩
    obtain none_ | nobody | idle := free
    · exact offered none_
    · exact matched nobody
    · exact Bool.eq_false_iff.1 idle holds
  have full : ((inboxReason r s).isSome && inboxIsFull s) = true ↔
      (inboxReason r s).isSome = true ∧ 32 ≤ s.gateway.inbox.length := by
    rw [Bool.and_eq_true, inboxIsFull, decide_eq_true_eq]
    rfl
  unfold takeReply
  dsimp only
  rw [if_neg goes]
  simp only [full]
  rfl

theorem takeReply_inboxFull
    (free : rangeOffered r.code s = none ∨ (matchSet r s).map Prod.fst = [] ∨ storeHolds .away s = false)
    (needs : inboxReason r s ≠ none) (full : 32 ≤ s.gateway.inbox.length) : takeReply r s = (reportInboxFull s, .inboxFull) := by
  rw [takeReply_free free, if_pos ⟨Option.ne_none_iff_isSome.1 needs, full⟩]

theorem takeReply_taken
    (free : rangeOffered r.code s = none ∨ (matchSet r s).map Prod.fst = [] ∨ storeHolds .away s = false)
    (room : inboxReason r s = none ∨ s.gateway.inbox.length < 32) : takeReply r s = (replyTaken r s, .taken) := by
  rw [takeReply_free free, if_neg]
  rintro ⟨needs, full⟩
  obtain none_ | few := room
  · exact Option.ne_none_iff_isSome.2 needs none_
  · exact Nat.not_lt.2 full few

theorem exec_reply {t : State} {word : AnswerWord} (held : s.power.held = false) (may : MayAnswer s)
    (ok : inboundOk (.reply r) = true) (h : takeReply r (frameTaken s) = (t, word)) :
    exec (.reply r) s = .next (answeredBy (.reply r.contact) word t) := by
  have effect : recordEffect (.reply r) (frameTaken s) = (t, .answer (.reply r.contact) word) := by
    unfold recordEffect
    dsimp only
    rw [h]
  rw [← takeRecord_taken may ok effect]
  exact event_next held _

/-- The message's number is the first free one past the last issued (R188). -/
theorem nextMessageNumber_issued (counter : s.gateway.inboxCounter ≤ 65535) (few : s.gateway.inbox.length < 65535) :
    NumberIssued s.gateway.inboxCounter (s.gateway.inbox.map (·.number)) (nextMessageNumber s) := by
  have issued := numberIssued_nextFree (used := s.gateway.inbox.map (·.number)) counter (by rwa [List.length_map])
  rwa [List.length_map] at issued

/-! ### The pupils -/

/-- The pupil that a reply's code leaves, code by code (R184). -/
theorem repliedTo_pupil (p : Pupil) {opened matched : Prop} [Decidable opened] [Decidable matched] :
    (if opened ∧ matched then { p with day := repliedTo r.code p.day } else p) =
      if matched ∧ opened ∧ isUnaccountedMark p.day.mark = true then
        match r.code with
        | .ill _ => { p with day := { p.day with mark := .excused, source := some .reply, reason := some .ill, back := none } }
        | .appointment b =>
          { p with day := { p.day with mark := .excused, source := some .reply, reason := some .appointment, back := b } }
        | .onWay =>
          if p.day.mark = .expected then p else { p with day := { p.day with mark := .expected, source := some .reply } }
        | .text => p
      else p := by
  by_cases acts : opened ∧ matched
  · cases h : isUnaccountedMark p.day.mark with
    | false => rw [if_pos acts, repliedTo_of_not h, if_neg (by simp)]
    | true =>
      rw [if_pos acts, if_pos ⟨acts.2, acts.1, rfl⟩]
      cases r.code with
      | ill n => rw [repliedTo_ill h]
      | appointment back => rw [repliedTo_appointment h]
      | onWay =>
        rw [repliedTo_onWay h]
        dsimp only
        split <;> rfl
      | text => rw [repliedTo_text]
  · rw [if_neg acts, if_neg fun all => acts ⟨all.2.1, all.1⟩]

theorem excused_pupil (p : Pupil) (e : AwayEntry) {matched passed : Prop} [Decidable matched] [Decidable passed] :
    (if matched ∧ passed then { p with day := excused .away e.reason p.day } else p) =
      if matched ∧ passed ∧ isUnaccountedMark p.day.mark = true then
        { p with day := { p.day with mark := .excused, source := some .away, reason := some e.reason, back := none } }
      else p := by
  by_cases acts : matched ∧ passed
  · rw [if_pos acts]
    unfold excused
    split
    · rename_i h
      rw [if_pos ⟨acts.1, acts.2, h⟩]
    · rename_i h
      rw [if_neg fun all => h all.2.2]
  · rw [if_neg acts, if_neg fun all => acts ⟨all.1, all.2.1⟩]

/-- While the day is OPENING the slot's entry of today excuses the pupil (R24). -/
theorem pupilAt_replyTaken_opening (hs : RollOk s) (opening : s.day.state = .opening) (offered : rangeOffered r.code s ≠ none)
    (k : Slot) :
    pupilAt k (replyTaken r s) =
      (pupilAt k s).map fun p =>
        match (replyTaken r s).roll.away.find? fun e => e.slot = k && e.first ≤ today s && today s ≤ e.last with
        | some e =>
          if k ∈ (matchSet r s).map Prod.fst ∧ k < s.day.cursor ∧ isUnaccountedMark p.day.mark = true then
            { p with day := { p.day with mark := .excused, source := some .away, reason := some e.reason, back := none } }
          else p
        | none => p := by
  have entry : ((replyTaken r s).roll.away.find? fun e => e.slot = k && e.first ≤ today s && today s ≤ e.last) =
      awayCovering k (today s) (replyActed r s) := by
    rw [(replyTaken_parts r s).2]
    rfl
  rw [pupilAt_replyTaken, pupilAt_replyActed_opening hs opening offered, entry]
  refine congrArg (Option.map · _) (funext fun p => ?_)
  cases awayCovering k (today s) (replyActed r s) with
  | none => rfl
  | some e => exact excused_pupil p e

/-- Settles O51: what the reply needs, the three answers, and what a reply answered TAKEN leaves, part by part. -/
theorem repliesMarkTheMatchedPupils : Obligations.RepliesMarkTheMatchedPupils := by
  unfold Obligations.RepliesMarkTheMatchedPupils
  intro r s held hs may ok matched s0
  refine ⟨fun k p hp given one => matchSet_reference hs hp given one,
    fun unnamed => ⟨matched_rising hs, mem_matched_contact_iff hs unnamed⟩,
    ⟨fun n code many valid inRange => ?_, fun h => rangeOffered_none h⟩, inboxReason_eq r s, nextMessageNumber_issued,
    fun offered some_ holds => ?_, fun free => ⟨fun needs full => ?_, fun room => ?_⟩⟩
  · rw [code, rangeOffered_ill]
    exact if_pos ⟨many, valid, inRange⟩
  · exact exec_reply held may ok (takeReply_busy (s := s0) offered some_ holds)
  · rw [exec_reply held may ok (takeReply_inboxFull (s := s0) free needs full)]
    rfl
  · refine ⟨replyTaken r s0, exec_reply held may ok (takeReply_taken (s := s0) free room), (replyTaken_change r s0).state,
      (replyTaken_change r s0).heard.heard, fun unoffered => ?_, fun first last offered => ⟨?_, fun k one apart full fourteen => ?_⟩,
      fun still k => ?_, fun opening offered k => ?_, (replyTaken_change r s0).withdrawn, fun unneeded => ?_,
      fun x needed => ⟨?_, fun fourteen => ?_⟩⟩
    · rw [(replyTaken_parts r s0).2]
      exact replyActed_away_none (s := s0) unoffered
    · rw [(replyTaken_parts r s0).2]
      exact replyActed_away_some (s := s0) offered
    · rw [replyTaken_source (by decide)]
      exact replyActed_full (s := s0) offered one apart full fourteen
    · rw [pupilAt_replyTaken, pupilAt_replyActed (s := s0) still]
      exact congrArg (Option.map · _) (funext fun p => repliedTo_pupil p)
    · exact pupilAt_replyTaken_opening (s := s0) hs opening offered k
    · rw [replyTaken_none (s := s0) unneeded]
      exact replyActed_gateway r s0
    · exact replyTaken_message (s := s0) needed
    · exact replyTaken_inbox (s := s0) needed fourteen

end Sys2Proof.Machine
end
